-- ==== Sys2Proof/Word.lean ====
section
/-! DEFINITION. Words, numbers of things, fixed tables. The numbering is 00_scope.md "Numbering": everything counts from 0. -/

namespace Sys2Proof

/-- One byte of a line, frame or image. -/
abbrev Byte := BitVec 8

/-- An edition: "a count 0 to 65,535, wrapping" (00 "Terms"). -/
abbrev Edition := BitVec 16

abbrev AccountId := Fin 512
abbrev BerthId := Fin 512
abbrev SocketId := Fin 512
abbrev PedestalId := Fin 256
abbrev TapId := Fin 256
abbrev FeederId := Fin 16
abbrev PontoonId := Fin 16
abbrev SegmentId := Fin 4
abbrev PumpId := Fin 4
abbrev ProductId := Fin 2
abbrev GateId := Fin 20
abbrev ReaderId := Fin 21
abbrev CredId := Fin 1024
abbrev ClassId := Fin 4
abbrev Band := Fin 4

/-- A table of exactly `n` records, numbered from 0. -/
structure Table (α : Type) (n : Nat) where
  rows : Vector α n
deriving DecidableEq, Repr

variable {α β γ : Type} {n : Nat}

def Table.get (t : Table α n) (i : Fin n) : α := t.rows[i.val]'i.isLt

def Table.put (t : Table α n) (i : Fin n) (x : α) : Table α n := ⟨t.rows.set i.val x i.isLt⟩

def Table.build (f : Fin n → α) : Table α n := ⟨⟨⟨List.ofFn f⟩, by simp⟩⟩

def Table.map (f : α → β) (t : Table α n) : Table β n := ⟨t.rows.map f⟩

def Table.zipWith (f : α → β → γ) (t : Table α n) (u : Table β n) : Table γ n :=
  ⟨t.rows.zipWith f u.rows⟩

def Table.toList (t : Table α n) : List α := t.rows.toList

@[simp] theorem Table.get_put_self (t : Table α n) (i : Fin n) (x : α) : (t.put i x).get i = x := by
  simp [Table.get, Table.put]

theorem Table.get_put_ne (t : Table α n) {i j : Fin n} (x : α) (h : i ≠ j) :
    (t.put i x).get j = t.get j := by
  have : i.val ≠ j.val := fun e => h (Fin.ext e)
  simp [Table.get, Table.put, this]

theorem Table.get_put (t : Table α n) (i j : Fin n) (x : α) :
    (t.put i x).get j = if i = j then x else t.get j := by
  by_cases h : i = j
  · subst h; simp
  · simp [h, Table.get_put_ne]

@[simp] theorem Table.get_build (f : Fin n → α) (i : Fin n) : (Table.build f).get i = f i := by
  simp [Table.get, Table.build]

@[simp] theorem Table.get_map (f : α → β) (t : Table α n) (i : Fin n) :
    (t.map f).get i = f (t.get i) := by
  simp [Table.get, Table.map]

@[simp] theorem Table.get_zipWith (f : α → β → γ) (t : Table α n) (u : Table β n) (i : Fin n) :
    (Table.zipWith f t u).get i = f (t.get i) (u.get i) := by
  simp [Table.get, Table.zipWith]

@[ext] theorem Table.ext_get {t u : Table α n} (h : ∀ i, t.get i = u.get i) : t = u := by
  cases t; cases u
  congr 1
  apply Vector.ext
  intro i hi
  exact h ⟨i, hi⟩

end Sys2Proof
end

