-- ==== Sys2Proof/Syntax.lean ====
section
/-! DEFINITION. The commands: one constructor per row of opcode_table.json, with the fields of the row's syntax table or, for an event, what the event brings with it. Numbers of a command line are plain `Nat`: a value outside its range "passes check 3. The owner then refuses it RANGE" (R166). -/

namespace Sys2Proof

/-- The three command ports, O, F and P (00 "Masters and field lines"). -/
inductive PortId where
  | office | fuel | patrol
deriving DecidableEq, Repr

/-- Where a command line came from: its port, and whether it carried a valid check suffix (R165). -/
structure Origin where
  port : PortId
  suffix : Bool
deriving DecidableEq, Repr

/-- A date field as written, YYYY-MM-DD (R166 check 3). -/
structure DateField where
  year : Nat
  month : Nat
  day : Nat
deriving DecidableEq, Repr

/-- A time field as written, HH:MM:SS (R166 check 3). -/
structure TimeField where
  hour : Nat
  minute : Nat
  second : Nat
deriving DecidableEq, Repr

/-- The pontoons field of ALLOCATE: one to four numbers, or ANY (R46). -/
inductive Pontoons where
  | any
  | listed (ps : List Nat)
deriving DecidableEq, Repr

/-- The kind of a SELL with the account or the paid amount that goes with it (07 "Selling"). -/
inductive SellKind where
  | account (a : Nat)
  | prepay (cents : Nat)
deriving DecidableEq, Repr

/-- A preset of a SELL: VOLUME with cL or AMOUNT with cents (R33). -/
inductive Preset where
  | volume (cl : Nat)
  | amount (cents : Nat)
deriving DecidableEq, Repr

/-- The mode of a gate (R155, R161). -/
inductive GateMode where
  | normal | heldOpen | outOfService
deriving DecidableEq, Repr

/-- The tables of R169, in its order. -/
inductive TableName where
  | site | cls | rate | hourband | berth | pedestal | feeder | pump | tank | format
  | access | gate | level | port | cred | account | power | water | sale | passage
deriving DecidableEq, Repr

/-- What LIST names (R174). -/
inductive ListName where
  | sale | passage | power | water
  | wait (feeder : Nat)
deriving DecidableEq, Repr

/-- How far a SAVE in flight had come when it is abandoned (R185: before step 1, between step 1 and the header, after the header). -/
inductive SaveStage where
  | beforeErase | erased | headerWritten
deriving DecidableEq, Repr

/-- How the read-back of a SAVE ends (R185). -/
inductive ReadBack where
  | agrees
  | differs (offset : Nat)
  | noAnswer
deriving DecidableEq, Repr

/-- The rows of opcode_table.json, in its order. Rows that are command lines begin with their origin. -/
inductive Instr where
  | openAccount (o : Origin) (account : Option Nat)
  | closeAccount (o : Origin) (account : Nat)
  | credit (o : Origin) (account amount : Nat)
  | debit (o : Origin) (account amount : Nat)
  | bar (o : Origin) (account : Nat)
  | unbar (o : Origin) (account : Nat)
  | allocate (o : Origin) (account : Nat) (pontoons : Pontoons) (arrival : DateField) (planned : Option DateField)
  | reserve (o : Origin) (account berth : Nat) (arrival : DateField) (planned : Option DateField) (force : Bool)
  | cancel (o : Origin) (account : Nat)
  | arrive (o : Origin) (account : Nat) (berth : Option Nat) (planned : Option DateField) (force : Bool)
  | move (o : Origin) (account berth : Nat) (force : Bool)
  | depart (o : Origin) (account : Nat)
  | setClock (o : Origin) (date : DateField) (time : TimeField)
  | clockAdvance
  | rolloverStep
  | rolloverComplete
  | pollDue (seg : SegmentId)
  | pollSend (seg : SegmentId)
  | lineBusy (seg : SegmentId)
  | pedestalReply (seg : SegmentId)
  | noReply (seg : SegmentId)
  | reliefHoldExpiry (feeder : FeederId)
  | requestPower (o : Origin) (account wish : Nat)
  | resetSocket (o : Origin) (socket : Nat)
  | endPower (o : Origin) (account : Nat)
  | requestWater (o : Origin) (account : Nat)
  | endWater (o : Origin) (account : Nat)
  | sell (o : Origin) (pump : Nat) (kind : SellKind) (preset : Option Preset)
  | pumpPoll
  | pumpReply (bytes : List Byte)
  | noLiftTimerExpiry (pump : PumpId)
  | stallTimerExpiry (pump : PumpId)
  | stopSale (o : Origin) (pump : Nat)
  | sale (o : Origin) (number : Nat)
  | tankDip (o : Origin) (product volume : Nat)
  | tankFill (o : Origin) (product added : Nat)
  | credentialEnded (reader : ReaderId)
  | releaseExpiry (gate : GateId)
  | holdGate (o : Origin) (gate : Nat) (mode : GateMode)
  | revoke (o : Origin) (credential : Nat)
  | clearPassback (o : Origin) (credential : Nat)
  | select (o : Origin) (table : TableName) (index : Nat)
  | put (o : Origin) (field value : String)
  | store (o : Origin)
  | read (o : Origin)
  | list (o : Origin) (what : ListName)
  | next (o : Origin)
  | status (o : Origin)
  | unknownCommandLine (port : PortId) (line : List Byte)
  | lineTimeout (port : PortId)
  | replySent (port : PortId)
  | save (o : Origin)
  | saveComplete (result : ReadBack)
  | openDevice (o : Origin)
  | setup (o : Origin)
  | restart (o : Origin)
  | powerOn (stage : SaveStage)
  | resetInput (stage : SaveStage)
  | loadComplete (answers : Bool)
  | mainsLost
  | mainsBack
  | batteryExhausted
  | readerPulse (reader : ReaderId) (bit : Bool)
  | pedestalReplyByte (seg : SegmentId) (byte : Byte)
  | portCharacter (port : PortId) (ch : Byte)
deriving DecidableEq, Repr

end Sys2Proof
end

