-- ==== Sys2Proof/Decode.lean ====
section
/-! DEFINITION. The table of this part gives no row any bits (98: "n_rows_with_fixed": 0), so no word spells a command (log 2). The text form of a command line is read in Machine/Lines.lean. -/

namespace Sys2Proof

/-- The command a word of `nbits` bits spells by the table's bits: none, for every word. -/
def decodeTableWord (_nbits _w : Nat) : Option Instr := none

end Sys2Proof
end

