-- ==== Sys2Proof/Config.lean ====
section
/-! DEFINITION. The fixed numbers of the part, each with the rule that states it. The spec leaves no result open, so there is no free value here. -/

namespace Sys2Proof.Config

/-- The balance lies within this many cents either way (R5). -/
def balanceLimit : Int := 99999999
/-- Where the saturating 32-bit counters stop: strays (R90), session totals (R114, R116), discrepancy (07 "Tanks"), grant count (R96). -/
def counterLimit : Nat := 4294967295
/-- Nights this stay saturate here (R57, R68); also the largest part of a night charge (R29). -/
def nightsLimit : Nat := 9999
/-- Arrears nights saturate here (R9). -/
def arrearsLimit : Nat := 255
/-- Room of a feeder's wait list (R99, R101). -/
def waitListRoom : Nat := 64
/-- Room of a notice queue (R176). -/
def noticeRoom : Nat := 32
/-- Room of the sale log (R142). -/
def saleLogRoom : Nat := 64
/-- Room of the passage log (R162). -/
def passageLogRoom : Nat := 128
/-- Room of a port's line assembler (R164). -/
def lineRoom : Nat := 200
/-- Room of a reader's bit queue (R147). -/
def readerRoom : Nat := 64
/-- Bytes of a pedestal reply after which it is judged (R82). -/
def replyBytesLimit : Nat := 16
/-- Credentials an account may list (R150). -/
def credentialsRoom : Nat := 4
/-- Misses that make a pedestal or pump OFFLINE, and failures that make a session fault (R83, R102, R133). -/
def missLimit : Nat := 3
/-- Overload reports after which relief acts (R111). -/
def overloadLimit : Nat := 8
/-- Seconds of a relief hold (R112). -/
def reliefSeconds : Nat := 60
/-- Seconds of the no-lift timer (R128). -/
def noLiftSeconds : Nat := 120
/-- Seconds of the stall timer (R135). -/
def stallSeconds : Nat := 300
/-- The least limit of a sale, cL (R127). -/
def leastSale : Nat := 200
/-- Ten-thousandths in a cent (R27). -/
def residueUnit : Nat := 10000
/-- Seconds of a day (R61). -/
def daySeconds : Nat := 86400
/-- The last date of the range, 2099-12-31, as a day count from 2000-01-01 (00 "Units and ranges"). -/
def lastDate : Int := 36524
/-- The image marker (11 "Site image"). -/
def imageMarker : Nat := 0x5A3C
/-- The format version the part writes (11 "Site image"). -/
def imageVersion : Nat := 1
/-- The length of the table bytes of version 1 (11 "Site image"). -/
def imageTableBytes : Nat := 10039

end Sys2Proof.Config
end

