-- ==== Sys2Proof/Machine/Records.lean ====
section
/-! DEFINITION. The records the part keeps, chapter by chapter, each field under the name its table gives it. A configuration part (`…Cfg`) holds what a STORE and the site image write; the live part stands beside it. -/

namespace Sys2Proof.Machine

/-- A date and a time of day, as the Site Clock shows them (00 "Dates and times"): a day count from 2000-01-01 and a second. -/
structure Stamp where
  date : Int
  time : Nat
deriving DecidableEq, Repr

/-! ### Vessel accounts and tariff tables (01, 02) -/

/-- R2: FREE, OPEN, RESERVED, BERTHED. -/
inductive AccountState where
  | free | opened | reserved | berthed
deriving DecidableEq, Repr

/-- R9. -/
inductive Standing where
  | good | arrears | barred
deriving DecidableEq, Repr

/-- The account record (01 "The account record"). -/
structure Account where
  state : AccountState
  name : String
  cls : ClassId
  loa : Nat
  beam : Nat
  draft : Nat
  berth : Option BerthId
  arrival : Option Int
  planned : Option Int
  lastCharged : Option Int
  nights : Nat
  lastStepped : Option Int
  balance : Int
  holds : Nat
  standing : Standing
  barredFlag : Bool
  arrearsNights : Nat
  clamped : Bool
  residues : Table Nat 6
  credentials : List CredId
  power : Option SocketId
  water : Option TapId
  sale : Option PumpId
  edition : Edition
deriving DecidableEq, Repr

/-- A rating of a socket, a wish or a class maximum: 16, 32 or 63 A. -/
inductive Rating where
  | a16 | a32 | a63
deriving DecidableEq, Repr

/-- A row of the class table (01 "The class table"). -/
structure ClassCfg where
  floor : Int
  grace : Nat
  maxRating : Rating
  fuelOnAccount : Bool
  waterCap : Nat
  revokeAtDeparture : Bool
deriving DecidableEq, Repr

/-- A configuration entry with nothing live but its edition (R169). -/
structure Row (α : Type) where
  val : α
  edition : Edition
deriving DecidableEq, Repr

/-- The SITE table (R169): rollover hour, allocation parameters, poll interval. -/
structure SiteCfg where
  rolloverHour : Nat
  clearance : Nat
  leastWater : Int
  graceDays : Nat
  pollInterval : Nat
deriving DecidableEq, Repr

/-! ### Berths (03) -/

/-- R40. -/
inductive BerthState where
  | outOfService | free | reserved | occupied
deriving DecidableEq, Repr

/-- The configuration fields of a berth (03 "The berth record"). -/
structure BerthCfg where
  pontoon : PontoonId
  loaMin : Nat
  loaMax : Nat
  beamMax : Nat
  alongside : Bool
  depth : Nat
  socket : Option SocketId
  tap : Option TapId
deriving DecidableEq, Repr

structure Berth where
  state : BerthState
  cfg : BerthCfg
  holder : Option AccountId
  edition : Edition
deriving DecidableEq, Repr

/-! ### Site clock (04) -/

/-- A rollover in flight: its date D, its cursor 0 to 512, its total (04, opening). -/
structure Rollover where
  date : Int
  cursor : Nat
  total : Nat
deriving DecidableEq, Repr

/-! ### Pontoon bus (05) -/

inductive PedestalKind where
  | twin | single | power2 | tap
deriving DecidableEq, Repr

inductive LinkState where
  | absent | unknown | online | offline
deriving DecidableEq, Repr

/-- The desired or reported limit of a socket, 32 or 63 A (05 "The pedestal record"). -/
inductive Limit where
  | l32 | l63
deriving DecidableEq, Repr

/-- How a poll was judged (R82, R75). -/
inductive PollOutcome where
  | valid | short | long | check | kind | noReply | lineBusy
deriving DecidableEq, Repr

structure PedestalCfg where
  installed : Bool
  segment : SegmentId
  address : Fin 64
  kind : PedestalKind
  feeder : FeederId
  ratings : Table Rating 2
deriving DecidableEq, Repr

/-- The desired outputs of one socket; `relay` true is ON (R87). -/
structure Desired where
  relay : Bool
  limit : Limit
  clearTrip : Bool
deriving DecidableEq, Repr

/-- The reported states of one socket; `relay` true is ON, `trip` true is latched (R88). -/
structure Reported where
  relay : Bool
  limit : Limit
  trip : Bool
  current : Nat
deriving DecidableEq, Repr

/-- The four fields under which a tag was accounted (R94). -/
structure TagIdentity where
  installed : Bool
  segment : SegmentId
  address : Fin 64
  kind : PedestalKind
deriving DecidableEq, Repr

/-- The pedestal record; a valve that is true is OPEN. -/
structure Pedestal where
  cfg : PedestalCfg
  link : LinkState
  desired : Table Desired 2
  desiredValve : Bool
  strayEnergy : Nat
  strayWater : Nat
  edition : Edition
  misses : Nat
  tag : Option (Fin 4)
  tagIdentity : TagIdentity
  reported : Table Reported 2
  reportedValve : Bool
  lastOutcome : Option PollOutcome
deriving DecidableEq, Repr

/-- The reply unpacker of a segment (R81). The fill count is the queue's length; `fields` are the values extracted, in the format's order; `kindFixed` is the outcome KIND when fixed. -/
structure Unpacker where
  queue : List Bool
  byteCount : Nat
  byteSum : Byte
  fields : List Nat
  kindFixed : Bool
deriving DecidableEq, Repr

/-- The outstanding poll: the pedestal polled and when (05 "Segments and the poll round"). -/
structure Poll where
  pedestal : PedestalId
  sentAt : Stamp
deriving DecidableEq, Repr

/-- A segment. `due` is a poll that has fallen due and is not sent (R75); `sent` the last poll frame put on the line (R76). -/
structure Segment where
  position : Option (Fin 64)
  due : Bool
  outstanding : Option Poll
  unpacker : Unpacker
  sent : List Byte
deriving DecidableEq, Repr

/-! ### Shore services (06) -/

inductive PowerState where
  | waiting | switching | live | restoring | suspended | tripped | closing
deriving DecidableEq, Repr

/-- R109. -/
inductive Cause where
  | arrears | barred
deriving DecidableEq, Repr

/-- The reason words of POWER_ENDED (R108); END, DEPARTED and FULL are also close reasons. -/
inductive PowerEnd where
  | finished | departed | full | reset | fault | restart
deriving DecidableEq, Repr

/-- The power session (06 "The power session"). `fallback32` is the fallback: 32 A, or none. -/
structure PowerSession where
  state : PowerState
  account : AccountId
  wish : Rating
  fallback32 : Bool
  granted : Nat
  held : Nat
  grantStamp : Nat
  lastCurrent : Nat
  energy : Nat
  start : Stamp
  cause : Option Cause
  shed : Bool
  stepped : Bool
  confirmMisses : Nat
  fault : Bool
  closeReason : Option PowerEnd
deriving DecidableEq, Repr

structure FeederCfg where
  rating : Nat
  diversity : Nat
deriving DecidableEq, Repr

/-- The feeder (06 "Feeders"); the cap is derived. -/
structure Feeder where
  cfg : FeederCfg
  heldSum : Nat
  waitList : List SocketId
  relief : Option Stamp
  edition : Edition
  measured : Nat
  overload : Nat
deriving DecidableEq, Repr

inductive WaterState where
  | opening | flowing | suspended | closing
deriving DecidableEq, Repr

/-- The reason words of WATER_ENDED (R116); END, DEPARTED and CAP are also close reasons. -/
inductive WaterEnd where
  | finished | departed | cap | fault | restart
deriving DecidableEq, Repr

structure WaterSession where
  state : WaterState
  account : AccountId
  berth : BerthId
  volume : Nat
  confirmMisses : Nat
  fault : Bool
  closeReason : Option WaterEnd
deriving DecidableEq, Repr

/-! ### Fuel dock (07) -/

/-- Who pays for a sale: ACCOUNT with its account, or PREPAY with the paid amount. -/
inductive Buyer where
  | account (a : AccountId)
  | prepay (paid : Nat)
deriving DecidableEq, Repr

inductive SaleState where
  | authorised | delivering | ended
deriving DecidableEq, Repr

/-- The stop requested of a sale. -/
inductive StopReason where
  | stopped | stalled
deriving DecidableEq, Repr

inductive SaleEnd where
  | nozzleDown | limitReached | stopped | cancelled | noLift | stalled | pumpFault | pumpLost | mainsLost | restart
deriving DecidableEq, Repr

/-- The sale record (07 "The sale record"). -/
structure Sale where
  number : BitVec 16
  pump : PumpId
  product : ProductId
  buyer : Buyer
  preset : Option Preset
  limit : Nat
  volumeHold : Nat
  moneyHold : Nat
  rate : Nat
  delivered : Nat
  charge : Nat
  refund : Nat
  start : Stamp
  lift : Option Stamp
  finish : Option Stamp
  state : SaleState
  stop : Option StopReason
  stopMisses : Nat
  endReason : Option SaleEnd
  overRun : Bool
deriving DecidableEq, Repr

/-- What the part asks of a pump (R132). -/
inductive Order where
  | cancel
  | authorise (number : BitVec 16) (limit : Nat)
  | stop (number : BitVec 16)
deriving DecidableEq, Repr

structure PumpCfg where
  installed : Bool
  product : ProductId
  maxPerSale : Nat
deriving DecidableEq, Repr

/-- What a pump last reported (07 "Pumps"). -/
structure PumpReading where
  nozzleUp : Bool
  running : Bool
  fault : Bool
  delivered : Nat
  held : Option (BitVec 16)
deriving DecidableEq, Repr

inductive PumpOutcome where
  | valid | noReply | badFrame
deriving DecidableEq, Repr

/-- The pump. `timer` is the expiry of its sale's no-lift or stall timer, whichever the sale's state has (R138). -/
structure Pump where
  cfg : PumpCfg
  online : Bool
  misses : Nat
  order : Order
  sale : Option Sale
  timer : Option Stamp
  readings : Option PumpReading
  lastOutcome : Option PumpOutcome
  edition : Edition
deriving DecidableEq, Repr

structure TankCfg where
  capacity : Nat
  reserve : Nat
  low : Nat
deriving DecidableEq, Repr

structure Tank where
  cfg : TankCfg
  book : Nat
  holds : Nat
  lowFlag : Bool
  discrepancy : Nat
  edition : Edition
deriving DecidableEq, Repr

/-- The pump line (R131). -/
structure PumpLine where
  last : Option PumpId
  outstanding : Option PumpId
  sent : List Byte
deriving DecidableEq, Repr

/-! ### Gates (08) -/

/-- A reader input (R147); the bit count is the queue's length. -/
structure ReaderInput where
  bits : List Bool
  overflow : Bool
  timer : Bool
deriving DecidableEq, Repr

/-- A parity check of a format; `odd` is its sense (08 "Formats"). -/
structure Parity where
  present : Bool
  odd : Bool
  bit : Nat
  start : Nat
  length : Nat
deriving DecidableEq, Repr

structure FormatCfg where
  enabled : Bool
  length : Nat
  sitePos : Nat
  siteLen : Nat
  idPos : Nat
  idLen : Nat
  parity : Table Parity 2
deriving DecidableEq, Repr

structure AccessCfg where
  allowed : Bool
  startHour : Nat
  endHour : Nat
  ownPontoonOnly : Bool
  inArrears : Bool
deriving DecidableEq, Repr

inductive GateKind where
  | shore | pontoon | service
deriving DecidableEq, Repr

structure GateCfg where
  kind : GateKind
  pontoon : PontoonId
  mask : Byte
  page : Byte
  passback : Bool
  release : Nat
  mode : GateMode
deriving DecidableEq, Repr

/-- The gate; `released` is the lock output, `byExit` whether the running release was set by the exit of R157 (R161). -/
structure Gate where
  cfg : GateCfg
  released : Bool
  expiry : Option Stamp
  byExit : Bool
  edition : Edition
deriving DecidableEq, Repr

inductive CredState where
  | free | active | revoked
deriving DecidableEq, Repr

inductive CredKind where
  | vessel | staff
deriving DecidableEq, Repr

/-- The key of a credential (R149). -/
structure Key where
  site : Nat
  id : Nat
deriving DecidableEq, Repr

structure Credential where
  state : CredState
  key : Key
  kind : CredKind
  account : Option AccountId
  accessClass : Byte
  inside : Bool
  lastGate : Option GateId
  lastTime : Option Stamp
  edition : Edition
deriving DecidableEq, Repr

/-- The result words of a decision (R156, R157, R162). -/
inductive GateResult where
  | granted | heldOpen | exited | exitUnread
  | tooLong | unknownFormat | badRead | unknownCard | outOfService | closed | barred | notAllowed | arrears | passback
deriving DecidableEq, Repr

/-- Whom a passage entry names (R162): the credential index, the key, or neither. -/
inductive Passer where
  | credential (c : CredId)
  | key (k : Key)
  | nobody
deriving DecidableEq, Repr

structure Passage where
  at_ : Stamp
  reader : ReaderId
  gate : GateId
  result : GateResult
  passer : Passer
deriving DecidableEq, Repr

/-! ### Notices (09) -/

/-- R180. -/
inductive DeviceState where
  | loading | setup | opened | holdover
deriving DecidableEq, Repr

/-- The 28 notice classes, in the order of R175. -/
inductive NoticeClass where
  | arrived | departed | reservationExpired | overstay | standingChanged | balanceClamped | rolloverDone
  | powerLive | powerWaiting | powerSuspended | powerEnded | socketTripped | socketFault | feederRelief
  | waterEnded | pedestalOffline | pedestalBack | meterFault | saleEnded | pumpOffline | tankLow
  | tankDiscrepancy | gateRefused | mainsLost | mainsBack | saveDone | saveFailed | stateChanged
deriving DecidableEq, Repr

/-- Reasons of SOCKET_FAULT (R102 to R104, R116). -/
inductive FaultWord where
  | switchOn | switchOff | limit | valveOpen | valveClose
deriving DecidableEq, Repr

/-- Reasons of FEEDER_RELIEF (R112). -/
inductive ReliefWord where
  | stepDown | shed | nothing
deriving DecidableEq, Repr

/-- The reason word of a notice, by the class that carries it. -/
inductive NoticeReason where
  | standing (x : Standing)
  | cause (x : Cause)
  | powerEnd (x : PowerEnd)
  | waterEnd (x : WaterEnd)
  | fault (x : FaultWord)
  | relief (x : ReliefWord)
  | product (x : ProductId)
  | saleEnd (x : SaleEnd)
  | gate (x : GateResult)
  | device (x : DeviceState)
deriving DecidableEq, Repr

/-- The outlet of a notice: a socket or a tap (R187 position 6). -/
inductive Outlet where
  | socket (n : SocketId)
  | tap (n : TapId)
deriving DecidableEq, Repr

/-- What the raising rule gives a notice beside its class. `fault` is the fault flag of the session in a POWER_ENDED (R114); the eleven values of R187 have no place for it, so NEXT does not write it (log 32). -/
structure NoticeInfo where
  account : Option AccountId := none
  berth : Option BerthId := none
  outlet : Option Outlet := none
  pump : Option PumpId := none
  gate : Option GateId := none
  value : Option Int := none
  reason : Option NoticeReason := none
  fault : Bool := false
deriving DecidableEq, Repr

/-- A notice (09 "Notices"). -/
structure Notice where
  cls : NoticeClass
  raised : Stamp
  info : NoticeInfo
  gap : Bool
deriving DecidableEq, Repr

/-! ### Ports and replies (09, 11) -/

/-- The reasons that follow REFUSED (00 "Reply words"). -/
inductive Refuse where
  | notHere | closed | holdover | state | range | inUse | busy | stale | full | duplicate | noFit
  | noEntry | standing | saleOpen | unsettled | funds | limit | limitLow | offline
deriving DecidableEq, Repr

/-- The words that follow BAD (00 "Reply words"). -/
inductive Bad where
  | syntaxWord | check | unknown
deriving DecidableEq, Repr

/-- A value of a reply line (R187). -/
inductive Atom where
  | num (n : Int)
  | word (w : String)
  | date (d : Int)
  | time (t : Nat)
  | stamp (s : Stamp)
  | nums (ns : List Nat)
  | absent
deriving DecidableEq, Repr

/-- An item of a reply line: a value, or a `name=value` pair of a record (R187). -/
inductive Item where
  | val (a : Atom)
  | pair (name : String) (a : Atom)
deriving DecidableEq, Repr

/-- A reply line (00 "Reply words"). -/
inductive ReplyLine where
  | done (items : List Item)
  | more (items : List Item)
  | retry
  | refused (r : Refuse)
  | bad (b : Bad)
deriving DecidableEq, Repr

/-- The state of a port (R164). ANSWERING is either of the last two: a line has ended and waits to be checked, or its reply is being sent. -/
inductive PortState where
  | idle | lineEnded | replying
deriving DecidableEq, Repr

/-- A port's cursor (R170). -/
structure Cursor where
  table : TableName
  index : Nat
deriving DecidableEq, Repr

/-- A copy of one entry of a table (R169). -/
inductive Entry where
  | site (x : Row SiteCfg)
  | cls (x : Row ClassCfg)
  | rate (x : Row Nat)
  | hourband (x : Row Band)
  | berth (x : Berth)
  | pedestal (x : Pedestal)
  | feeder (x : Feeder)
  | pump (x : Pump)
  | tank (x : Tank)
  | format (x : Row FormatCfg)
  | access (x : Row AccessCfg)
  | gate (x : Gate)
  | level (x : Row (Fin 16))
  | port (x : Row Nat)
  | cred (x : Credential)
  | account (x : Account)
  | power (x : Option PowerSession)
  | water (x : Option WaterSession)
  | sale (x : Sale)
  | passage (x : Passage)
deriving DecidableEq, Repr

/-- A port (09, opening). `holding` none is EMPTY; `reply` are the lines of the latest reply written on the line. -/
structure Port where
  state : PortState
  line : List Byte
  overlong : Bool
  suffix : Bool
  cursor : Cursor
  holding : Option Entry
  queue : List Notice
  attn : Bool
  reply : List ReplyLine
deriving DecidableEq, Repr

/-! ### Site image (11) -/

/-- What the image records of a berth (R60, R189). -/
structure BerthImage where
  cfg : BerthCfg
  outOfService : Bool
deriving DecidableEq, Repr

/-- The configuration tables, as the site image holds them (11 "Site image"). -/
structure SiteTables where
  site : SiteCfg
  classes : Table ClassCfg 4
  rates : Table Nat 96
  bands : Table Band 24
  berths : Table BerthImage 512
  pedestals : Table PedestalCfg 256
  feeders : Table FeederCfg 16
  pumps : Table PumpCfg 4
  tanks : Table TankCfg 2
  formats : Table FormatCfg 8
  access : Table AccessCfg 256
  gates : Table GateCfg 20
  levels : Table (Fin 16) 28
  thresholds : Table Nat 3
deriving DecidableEq, Repr

end Sys2Proof.Machine
end

