-- ==== Sys2Proof/Machine/Defaults.lean ====
section
/-! DEFINITION. The values of a cold start. Configuration: what each chapter gives "after a cold start that follows a failed image load". Live records: what each chapter gives after any cold start. -/

namespace Sys2Proof.Machine

/-- The decimal digit of `n` at weight `w`. -/
def digitAt (w n : Nat) : Char := Char.ofNat (48 + n / w % 10)

/-- ACCT followed by the number in three digits (R19). -/
def coldName (n : Nat) : String :=
  String.ofList ['A', 'C', 'C', 'T', digitAt 100 n, digitAt 10 n, digitAt 1 n]

/-- R19. -/
def coldAccount (a : AccountId) : Account :=
  { state := .free, name := coldName a.val, cls := 0, loa := 1000, beam := 350, draft := 150
    berth := none, arrival := none, planned := none, lastCharged := none, nights := 0, lastStepped := none
    balance := 0, holds := 0, standing := .good, barredFlag := false, arrearsNights := 0, clamped := false
    residues := Table.build fun _ => 0, credentials := [], power := none, water := none, sale := none
    edition := 0 }

/-- R4. -/
def defaultClass : ClassCfg :=
  { floor := 0, grace := 3, maxRating := .a32, fuelOnAccount := true, waterCap := 0, revokeAtDeparture := false }

/-- R43, R73, R74. -/
def defaultSite : SiteCfg :=
  { rolloverHour := 12, clearance := 50, leastWater := 0, graceDays := 1, pollInterval := 100 }

/-- R60: berth n stands on pontoon floor(n / 32). -/
def defaultBerth (n : BerthId) : BerthImage :=
  { cfg := { pontoon := Fin.ofNat 16 (n.val / 32), loaMin := 200, loaMax := 1200, beamMax := 400
             alongside := false, depth := 300, socket := none, tap := none }
    outOfService := true }

/-- R94. -/
def defaultPedestal (n : PedestalId) : PedestalCfg :=
  { installed := false, segment := Fin.ofNat 4 (n.val / 64), address := Fin.ofNat 64 n.val, kind := .twin
    feeder := Fin.ofNat 16 (n.val / 16), ratings := Table.build fun _ => .a16 }

/-- R96. -/
def defaultFeeder : FeederCfg := { rating := 0, diversity := 100 }

/-- R146. -/
def defaultPump (n : PumpId) : PumpCfg :=
  { installed := false, product := Fin.ofNat 2 n.val, maxPerSale := 20000 }

/-- R146. -/
def defaultTank : TankCfg := { capacity := 0, reserve := 0, low := 0 }

/-- DESIGN CHOICE (log 19), unsafe: the ignored fields of an absent parity check. -/
def absentParity : Parity := { present := false, odd := false, bit := 0, start := 0, length := 1 }

/-- R148. -/
def defaultFormat : FormatCfg :=
  { enabled := false, length := 26, sitePos := 0, siteLen := 1, idPos := 0, idLen := 1
    parity := Table.build fun _ => absentParity }

/-- R154. -/
def defaultAccess : AccessCfg :=
  { allowed := false, startHour := 0, endHour := 0, ownPontoonOnly := false, inArrears := false }

/-- R155. The pontoon of a gate that is not PONTOON is a DESIGN CHOICE (log 19), unsafe. -/
def defaultGate (g : GateId) : GateCfg :=
  { kind := if g.val = 0 then .shore else if g.val ≤ 16 then .pontoon else .service
    pontoon := if g.val ≤ 16 then Fin.ofNat 16 (g.val - 1) else 0
    mask := 255, page := 0, passback := false, release := 5, mode := .normal }

/-- The levels of R175, by class index. -/
def defaultLevels : List (Fin 16) :=
  [5, 5, 4, 8, 10, 6, 3, 8, 8, 9, 7, 9, 9, 9, 7, 9, 8, 8, 12, 12, 11, 11, 8, 15, 15, 2, 6, 15]

/-- The thresholds of R175: O, F, P. -/
def defaultThresholds : List Nat := [1, 10, 8]

/-- Every configuration table after a failed load. -/
def defaultTables : SiteTables :=
  { site := defaultSite
    classes := Table.build fun _ => defaultClass
    rates := Table.build fun _ => 0
    bands := Table.build fun _ => 0
    berths := Table.build defaultBerth
    pedestals := Table.build defaultPedestal
    feeders := Table.build fun _ => defaultFeeder
    pumps := Table.build defaultPump
    tanks := Table.build fun _ => defaultTank
    formats := Table.build fun _ => defaultFormat
    access := Table.build fun _ => defaultAccess
    gates := Table.build defaultGate
    levels := Table.build fun i => defaultLevels.getD i.val 0
    thresholds := Table.build fun i => defaultThresholds.getD i.val 1 }

/-- A configuration entry as a load leaves it: edition 0 (R181). -/
def loadedRow {α : Type} (x : α) : Row α := { val := x, edition := 0 }

/-- R60: FREE in service, OUT_OF_SERVICE otherwise, no holder, edition 0. -/
def coldBerth (b : BerthImage) : Berth :=
  { state := if b.outOfService then .outOfService else .free, cfg := b.cfg, holder := none, edition := 0 }

/-- Relay OFF, limit 63, no clear-trip pending (R94). -/
def idleDesired : Desired := { relay := false, limit := .l63, clearTrip := false }

/-- Relay OFF, limit 63, trip clear, current 0 (R78, R94). -/
def freshReported : Reported := { relay := false, limit := .l63, trip := false, current := 0 }

/-- The identity of a configuration, under which a tag is accounted (R94). -/
def PedestalCfg.identity (c : PedestalCfg) : TagIdentity :=
  { installed := c.installed, segment := c.segment, address := c.address, kind := c.kind }

/-- R94, first column. -/
def coldPedestal (c : PedestalCfg) : Pedestal :=
  { cfg := c, link := if c.installed then .unknown else .absent
    desired := Table.build fun _ => idleDesired, desiredValve := false
    strayEnergy := 0, strayWater := 0, edition := 0, misses := 0, tag := none, tagIdentity := c.identity
    reported := Table.build fun _ => freshReported, reportedValve := false, lastOutcome := none }

/-- R96. -/
def coldFeeder (c : FeederCfg) : Feeder :=
  { cfg := c, heldSum := 0, waitList := [], relief := none, edition := 0, measured := 0, overload := 0 }

/-- R146, first column. -/
def coldPump (c : PumpCfg) : Pump :=
  { cfg := c, online := false, misses := 3, order := .cancel, sale := none, timer := none, readings := none
    lastOutcome := none, edition := 0 }

/-- R146: after a successful load the low flag is set when the low threshold is above 0; after a failed one the threshold is 0 and the flag clear. -/
def coldTank (c : TankCfg) : Tank :=
  { cfg := c, book := 0, holds := 0, lowFlag := decide (0 < c.low), discrepancy := 0, edition := 0 }

/-- R163: in LOADING gate 0 is RELEASED and the others are LOCKED. -/
def loadingGate (g : GateId) (c : GateCfg) : Gate :=
  { cfg := c, released := g.val = 0, expiry := none, byExit := false, edition := 0 }

/-- R163. -/
def coldCredential : Credential :=
  { state := .free, key := { site := 0, id := 0 }, kind := .staff, account := none, accessClass := 0
    inside := false, lastGate := none, lastTime := none, edition := 0 }

/-- R81. -/
def emptyUnpacker : Unpacker :=
  { queue := [], byteCount := 0, byteSum := 0, fields := [], kindFixed := false }

/-- R94, last row. -/
def idleSegment : Segment :=
  { position := none, due := false, outstanding := none, unpacker := emptyUnpacker, sent := [] }

/-- R131. -/
def idlePumpLine : PumpLine := { last := none, outstanding := none, sent := [] }

/-- R163. -/
def emptyReader : ReaderInput := { bits := [], overflow := false, timer := false }

/-- R179: a port at the start of LOADING. -/
def loadingPort : Port :=
  { state := .idle, line := [], overlong := false, suffix := false, cursor := { table := .site, index := 0 }
    holding := none, queue := [], attn := false, reply := [] }

/-- 2000-01-01 00:00:00 (R73). -/
def coldClock : Stamp := { date := 0, time := 0 }

end Sys2Proof.Machine
end

