-- ==== Sys2Proof/Machine/State.lean ====
section
/-! DEFINITION. The state of the part, the reasons a step can stop, and the state after reset. -/

namespace Sys2Proof.Machine

/-- Everything the spec gives the part, block by block (00 "Block overview"), and the queue of waiting commands. -/
structure State where
  /-- R180. -/
  device : DeviceState
  /-- The part has stopped for want of supply (R186, last paragraph). -/
  stopped : Bool
  /-- The level of the MAINS_OK input. -/
  mainsOk : Bool
  /-- The validity word of the retained store: true is good (R182). -/
  valid : Bool
  /-- The contents of the serial memory from offset 0 (11 "Site image"). -/
  image : List Byte
  /-- A SAVE in flight, with its copy of the tables (R185). -/
  save : Option SiteTables
  /-- The Site Clock's date and time (R61). -/
  clock : Stamp
  clockSet : Bool
  /-- The last completed rollover date (R64, R71). -/
  lastRollover : Option Int
  rollover : Option Rollover
  rolloverPending : Bool
  site : Row SiteCfg
  classes : Table (Row ClassCfg) 4
  rates : Table (Row Nat) 96
  bands : Table (Row Band) 24
  accounts : Table Account 512
  berths : Table Berth 512
  pedestals : Table Pedestal 256
  segments : Table Segment 4
  power : Table (Option PowerSession) 512
  water : Table (Option WaterSession) 256
  feeders : Table Feeder 16
  grantCount : Nat
  pumps : Table Pump 4
  tanks : Table Tank 2
  saleCounter : BitVec 16
  /-- The sale log, oldest first (R142). -/
  saleLog : List Sale
  pumpLine : PumpLine
  readers : Table ReaderInput 21
  formats : Table (Row FormatCfg) 8
  access : Table (Row AccessCfg) 256
  gates : Table Gate 20
  creds : Table Credential 1024
  /-- The passage log, oldest first (R162). -/
  passages : List Passage
  ports : Table Port 3
  levels : Table (Row (Fin 16)) 28
  thresholds : Table (Row Nat) 3
  /-- The notices raised in LOADING, oldest first (R179). -/
  heldNotices : List Notice
  /-- The commands that wait, first in, first out. -/
  pending : List Instr
deriving DecidableEq, Repr

/-- The part has no fault: what goes wrong in the field is a reply, a notice or a flag of State. No constructor, so nothing raises one (safe). -/
inductive Fault where
deriving DecidableEq, Repr

/-- Why a command has no meaning. -/
inductive Refusal where
  /-- Raised by `exec` alone, for a row of the table that has no meaning yet; no row is left so (safe: the model stops where the part goes on). -/
  | notModelled (mnemonic : String)
deriving DecidableEq, Repr

/-- The part just powered on, with a blank serial memory and a cleared retained store: in LOADING (R181), the ports, locks, segments and lines at their LOADING values (R179, R163, R94), every table and record at its value for a cold start after a failed load, and the STATE_CHANGED of the entry to LOADING held (R180, R179).
DESIGN CHOICE (log 1), unsafe: the records of a part never loaded, the blank memory, the validity word and the mains level. -/
def State.reset : State :=
  { device := .loading, stopped := false, mainsOk := true, valid := false, image := [], save := none
    clock := coldClock, clockSet := false, lastRollover := none, rollover := none, rolloverPending := false
    site := loadedRow defaultSite
    classes := Table.build fun _ => loadedRow defaultClass
    rates := Table.build fun _ => loadedRow 0
    bands := Table.build fun _ => loadedRow 0
    accounts := Table.build coldAccount
    berths := Table.build fun n => coldBerth (defaultBerth n)
    pedestals := Table.build fun n => coldPedestal (defaultPedestal n)
    segments := Table.build fun _ => idleSegment
    power := Table.build fun _ => none
    water := Table.build fun _ => none
    feeders := Table.build fun _ => coldFeeder defaultFeeder
    grantCount := 0
    pumps := Table.build fun n => coldPump (defaultPump n)
    tanks := Table.build fun _ => coldTank defaultTank
    saleCounter := 0, saleLog := [], pumpLine := idlePumpLine
    readers := Table.build fun _ => emptyReader
    formats := Table.build fun _ => loadedRow defaultFormat
    access := Table.build fun _ => loadedRow defaultAccess
    gates := Table.build fun g => loadingGate g (defaultGate g)
    creds := Table.build fun _ => coldCredential
    passages := []
    ports := Table.build fun _ => loadingPort
    levels := Table.build fun i => loadedRow (defaultTables.levels.get i)
    thresholds := Table.build fun i => loadedRow (defaultTables.thresholds.get i)
    heldNotices := [{ cls := .stateChanged, raised := coldClock, info := { reason := some (.device .loading) }, gap := false }]
    pending := [] }

end Sys2Proof.Machine
end

