-- ==== Sys2Proof/Machine/Flags.lean ====
section
/-! DEFINITION. Values that are computed from a record whenever it changes: editions, standing, the tank's low flag, a gate's lock, a feeder's cap. -/

namespace Sys2Proof.Machine

/-! ### Editions
An edition advances by 1 at every change that alters the value of a counted field, and wraps. `base` is the record as the change found it, so several writes of one change advance it once, and writes that leave every counted field at its former value do not (R1, R39, R79, R96, R122, R124, R150, R155). -/

def editionAfter (base : Edition) (same : Bool) : Edition := if same then base else base + 1

/-- Every field of an account counts (R1). -/
def Account.settled (base x : Account) : Account :=
  { x with edition := editionAfter base.edition ({ x with edition := base.edition } == base) }

/-- Every field of a berth counts (R39). -/
def Berth.settled (base x : Berth) : Berth :=
  { x with edition := editionAfter base.edition ({ x with edition := base.edition } == base) }

/-- Configuration, link state, desired outputs and stray counters count; readings do not (R79). -/
def Pedestal.sameCounted (x y : Pedestal) : Bool :=
  x.cfg == y.cfg && x.link == y.link && x.desired == y.desired && x.desiredValve == y.desiredValve
    && x.strayEnergy == y.strayEnergy && x.strayWater == y.strayWater

def Pedestal.settled (base x : Pedestal) : Pedestal :=
  { x with edition := editionAfter base.edition (x.sameCounted base) }

/-- Rating, diversity, held sum, wait list and relief hold count (R96). -/
def Feeder.sameCounted (x y : Feeder) : Bool :=
  x.cfg == y.cfg && x.heldSum == y.heldSum && x.waitList == y.waitList && x.relief == y.relief

def Feeder.settled (base x : Feeder) : Feeder :=
  { x with edition := editionAfter base.edition (x.sameCounted base) }

/-- Configuration, link state, order and open sale count (R122). -/
def Pump.sameCounted (x y : Pump) : Bool :=
  x.cfg == y.cfg && x.online == y.online && x.order == y.order && x.sale == y.sale

def Pump.settled (base x : Pump) : Pump :=
  { x with edition := editionAfter base.edition (x.sameCounted base) }

/-- Every field of a tank counts (R124). -/
def Tank.settled (base x : Tank) : Tank :=
  { x with edition := editionAfter base.edition ({ x with edition := base.edition } == base) }

/-- Every field of a gate but the release expiry counts (08, gate table); the exit mark is the model's and does not. -/
def Gate.sameCounted (x y : Gate) : Bool := x.cfg == y.cfg && x.released == y.released

def Gate.settled (base x : Gate) : Gate :=
  { x with edition := editionAfter base.edition (x.sameCounted base) }

/-- Every field of a credential counts (R150). -/
def Credential.settled (base x : Credential) : Credential :=
  { x with edition := editionAfter base.edition ({ x with edition := base.edition } == base) }

/-- A configuration entry with nothing live (R172). -/
def Row.settled {α : Type} [BEq α] (base x : Row α) : Row α :=
  { x with edition := editionAfter base.edition (x.val == base.val) }

/-! ### Standing (R9) -/

/-- BARRED when the barred flag is set, else ARREARS below the class floor, else GOOD. -/
def standingOf (barredFlag : Bool) (balance floor : Int) : Standing :=
  if barredFlag then .barred else if balance < floor then .arrears else .good

/-- Arrears nights at a change of standing: set to 0 at entering GOOD and at GOOD to ARREARS, kept otherwise. -/
def arrearsNightsAfter (old new : Standing) (nights : Nat) : Nat :=
  match old, new with
  | .good, .good => nights
  | _, .good => 0
  | .good, .arrears => 0
  | _, _ => nights

/-! ### Tanks (R124) -/

/-- Available volume; may not be negative while holds ≤ book. -/
def Tank.available (t : Tank) : Nat := t.book - t.holds

/-- Available less the reserve floor, not below 0. -/
def Tank.sellable (t : Tank) : Nat := t.available - t.cfg.reserve

/-- The low flag after its evaluation. -/
def Tank.evaluated (t : Tank) : Tank := { t with lowFlag := decide (t.available < t.cfg.low) }

/-- TANK_LOW is raised when the evaluation sets a clear flag. -/
def Tank.raisesLow (t : Tank) : Bool := !t.lowFlag && decide (t.available < t.cfg.low)

/-! ### Feeders (R96) -/

/-- floor(rating × diversity / 100). -/
def FeederCfg.cap (c : FeederCfg) : Nat := c.rating * c.diversity / 100

/-! ### Locks (R160) -/

/-- The lock output that R160 gives gate `g` for a device state. -/
def Gate.lockIn (d : DeviceState) (g : GateId) (x : Gate) : Bool :=
  match d with
  | .loading => g = 0
  | .setup => if g = 0 then true else byMode
  | .opened => byMode
  | .holdover => byMode
where
  /-- HELD_OPEN releases; OUT_OF_SERVICE locks, except while gate 0's exit release runs; NORMAL releases while the expiry runs. -/
  byMode : Bool :=
    match x.cfg.mode with
    | .heldOpen => true
    | .outOfService => g = 0 && x.byExit && x.expiry.isSome
    | .normal => x.expiry.isSome

end Sys2Proof.Machine
end

