-- ==== Sys2Proof/Machine/Bits.lean ====
section
/-! DEFINITION. Bit and byte order: the most significant bit and byte come first (11, opening; R80, R149). -/

namespace Sys2Proof

/-- The big-endian reading of a run of bits: the earlier bit is the more significant
(05 "Replies and the unpacker", 11 "Reader bits"). -/
def bitsToNat (bs : List Bool) : Nat := bs.foldl (fun v b => 2 * v + b.toNat) 0

/-- `k` bits of a number, most significant first. -/
def natToBits : Nat → Nat → List Bool
  | 0, _ => []
  | k + 1, v => v.testBit k :: natToBits k v

/-- The 8 bits of a byte, most significant first (R80). -/
def byteBits (b : Byte) : List Bool := natToBits 8 b.toNat

/-- `k` bytes of a number, most significant first (11, opening). -/
def natToBytes : Nat → Nat → List Byte
  | 0, _ => []
  | k + 1, v => BitVec.ofNat 8 (v / 256 ^ k) :: natToBytes k v

/-- The number that a run of bytes spells, most significant byte first. -/
def bytesToNat (bs : List Byte) : Nat := bs.foldl (fun v b => 256 * v + b.toNat) 0

/-- The sum of a run of bytes modulo 256. -/
def byteSum (bs : List Byte) : Byte := bs.foldl (· + ·) 0

end Sys2Proof
end

