-- ==== Sys2Proof/Machine/Calendar.lean ====
section
/-! DEFINITION. The calendar of 00 "Dates and times" and R61: day counts from 2000-01-01, every fourth year a leap year. -/

namespace Sys2Proof.Machine

/-- Days of a month (R61). -/
def monthDays (year month : Nat) : Nat :=
  match month with
  | 2 => if year % 4 = 0 then 29 else 28
  | 4 => 30
  | 6 => 30
  | 9 => 30
  | 11 => 30
  | _ => 31

/-- Days of a year before the first of its month `month`. -/
def daysBeforeMonth (year : Nat) : Nat → Nat
  | 0 => 0
  | 1 => 0
  | m + 2 => daysBeforeMonth year (m + 1) + monthDays year (m + 1)

/-- A date field that is "a valid date from 2000-01-01 to 2099-12-31" (R45, R63). -/
def dateValid (d : DateField) : Bool :=
  2000 ≤ d.year && d.year ≤ 2099 && 1 ≤ d.month && d.month ≤ 12
    && 1 ≤ d.day && d.day ≤ monthDays d.year d.month

/-- The day count of a valid date field. -/
def dateDays (d : DateField) : Int :=
  let y := d.year - 2000
  (365 * y + (y + 3) / 4 + daysBeforeMonth d.year d.month + (d.day - 1) : Nat)

/-- The day count, when the field is a valid date. -/
def dateOf (d : DateField) : Option Int := if dateValid d then some (dateDays d) else none

/-- A time field "within 00:00:00 and 23:59:59" as a second of the day (R63). -/
def secondOf (t : TimeField) : Option Nat :=
  if t.hour < 24 && t.minute < 60 && t.second < 60 then some (t.hour * 3600 + t.minute * 60 + t.second) else none

/-- The month of a day of a year, counted from `month` on, with the day left over. -/
def monthOfDay (year : Nat) : Nat → Nat → Nat → Nat × Nat
  | 0, month, day => (month, day)
  | fuel + 1, month, day =>
    if day < monthDays year month then (month, day)
    else monthOfDay year fuel (month + 1) (day - monthDays year month)

/-- The calendar date of a day count. A count below 0 is the day that many days before 2000-01-01 by the same four-year rule (log 10). -/
def civil (d : Int) : DateField :=
  let n := (d + 1461 * 500).toNat
  let r := n % 1461
  let inCycle := if r < 366 then 0 else (r - 366) / 365 + 1
  let dayOfYear := if r < 366 then r else (r - 366) % 365
  let year := 4 * (n / 1461) + inCycle
  let md := monthOfDay year 12 1 dayOfYear
  { year := year, month := md.1, day := md.2 + 1 }

/-- A stamp some seconds later. -/
def Stamp.plus (t : Stamp) (seconds : Nat) : Stamp :=
  { date := t.date + ((t.time + seconds) / Config.daySeconds : Nat), time := (t.time + seconds) % Config.daySeconds }

/-- One advance of the clock; it stops at 2099-12-31 23:59:59 (R61). -/
def Stamp.tick (t : Stamp) : Stamp :=
  if t.time + 1 < Config.daySeconds then { t with time := t.time + 1 }
  else if t.date < Config.lastDate then { date := t.date + 1, time := 0 }
  else t

/-- The current rollover date (00 "Dates and times", R61): today's date at or after the rollover hour, yesterday's before it. -/
def rolloverDateAt (hour : Nat) (t : Stamp) : Int :=
  if hour * 3600 ≤ t.time then t.date else t.date - 1

/-- The hour of a time of day (R24, R154). -/
def hourOf (time : Nat) : Fin 24 := Fin.ofNat 24 (time / 3600)

end Sys2Proof.Machine
end

