-- ==== Sys2Proof/Machine/Words.lean ====
section
/-! DEFINITION. The uppercase words of replies, notices and value fields, as the part sends and accepts them (00 "Names and typography"). -/

namespace Sys2Proof.Machine

def AccountState.word : AccountState → String
  | .free => "FREE"
  | .opened => "OPEN"
  | .reserved => "RESERVED"
  | .berthed => "BERTHED"

def Standing.word : Standing → String
  | .good => "GOOD"
  | .arrears => "ARREARS"
  | .barred => "BARRED"

def BerthState.word : BerthState → String
  | .outOfService => "OUT_OF_SERVICE"
  | .free => "FREE"
  | .reserved => "RESERVED"
  | .occupied => "OCCUPIED"

def PedestalKind.word : PedestalKind → String
  | .twin => "TWIN"
  | .single => "SINGLE"
  | .power2 => "POWER2"
  | .tap => "TAP"

def LinkState.word : LinkState → String
  | .absent => "ABSENT"
  | .unknown => "UNKNOWN"
  | .online => "ONLINE"
  | .offline => "OFFLINE"

def PollOutcome.word : PollOutcome → String
  | .valid => "VALID"
  | .short => "SHORT"
  | .long => "LONG"
  | .check => "CHECK"
  | .kind => "KIND"
  | .noReply => "NO_REPLY"
  | .lineBusy => "LINE_BUSY"

def PowerState.word : PowerState → String
  | .waiting => "WAITING"
  | .switching => "SWITCHING"
  | .live => "LIVE"
  | .restoring => "RESTORING"
  | .suspended => "SUSPENDED"
  | .tripped => "TRIPPED"
  | .closing => "CLOSING"

def Cause.word : Cause → String
  | .arrears => "ARREARS"
  | .barred => "BARRED"

def PowerEnd.word : PowerEnd → String
  | .finished => "END"
  | .departed => "DEPARTED"
  | .full => "FULL"
  | .reset => "RESET"
  | .fault => "FAULT"
  | .restart => "RESTART"

def WaterState.word : WaterState → String
  | .opening => "OPENING"
  | .flowing => "FLOWING"
  | .suspended => "SUSPENDED"
  | .closing => "CLOSING"

def WaterEnd.word : WaterEnd → String
  | .finished => "END"
  | .departed => "DEPARTED"
  | .cap => "CAP"
  | .fault => "FAULT"
  | .restart => "RESTART"

def SaleState.word : SaleState → String
  | .authorised => "AUTHORISED"
  | .delivering => "DELIVERING"
  | .ended => "ENDED"

def StopReason.word : StopReason → String
  | .stopped => "STOPPED"
  | .stalled => "STALLED"

def SaleEnd.word : SaleEnd → String
  | .nozzleDown => "NOZZLE_DOWN"
  | .limitReached => "LIMIT_REACHED"
  | .stopped => "STOPPED"
  | .cancelled => "CANCELLED"
  | .noLift => "NO_LIFT"
  | .stalled => "STALLED"
  | .pumpFault => "PUMP_FAULT"
  | .pumpLost => "PUMP_LOST"
  | .mainsLost => "MAINS_LOST"
  | .restart => "RESTART"

def PumpOutcome.word : PumpOutcome → String
  | .valid => "VALID"
  | .noReply => "NO_REPLY"
  | .badFrame => "BAD_FRAME"

/-- 00 "Numbering": product 0 is DIESEL, 1 is PETROL. -/
def productWord (p : ProductId) : String := if p = 0 then "DIESEL" else "PETROL"

def GateKind.word : GateKind → String
  | .shore => "SHORE"
  | .pontoon => "PONTOON"
  | .service => "SERVICE"

def gateModeWord : GateMode → String
  | .normal => "NORMAL"
  | .heldOpen => "HELD_OPEN"
  | .outOfService => "OUT_OF_SERVICE"

def lockWord (released : Bool) : String := if released then "RELEASED" else "LOCKED"

def CredState.word : CredState → String
  | .free => "FREE"
  | .active => "ACTIVE"
  | .revoked => "REVOKED"

def CredKind.word : CredKind → String
  | .vessel => "VESSEL"
  | .staff => "STAFF"

def GateResult.word : GateResult → String
  | .granted => "GRANTED"
  | .heldOpen => "HELD_OPEN"
  | .exited => "EXIT"
  | .exitUnread => "EXIT_UNREAD"
  | .tooLong => "TOO_LONG"
  | .unknownFormat => "UNKNOWN_FORMAT"
  | .badRead => "BAD_READ"
  | .unknownCard => "UNKNOWN_CARD"
  | .outOfService => "OUT_OF_SERVICE"
  | .closed => "CLOSED"
  | .barred => "BARRED"
  | .notAllowed => "NOT_ALLOWED"
  | .arrears => "ARREARS"
  | .passback => "PASSBACK"

def DeviceState.word : DeviceState → String
  | .loading => "LOADING"
  | .setup => "SETUP"
  | .opened => "OPEN"
  | .holdover => "HOLDOVER"

def NoticeClass.word : NoticeClass → String
  | .arrived => "ARRIVED"
  | .departed => "DEPARTED"
  | .reservationExpired => "RESERVATION_EXPIRED"
  | .overstay => "OVERSTAY"
  | .standingChanged => "STANDING_CHANGED"
  | .balanceClamped => "BALANCE_CLAMPED"
  | .rolloverDone => "ROLLOVER_DONE"
  | .powerLive => "POWER_LIVE"
  | .powerWaiting => "POWER_WAITING"
  | .powerSuspended => "POWER_SUSPENDED"
  | .powerEnded => "POWER_ENDED"
  | .socketTripped => "SOCKET_TRIPPED"
  | .socketFault => "SOCKET_FAULT"
  | .feederRelief => "FEEDER_RELIEF"
  | .waterEnded => "WATER_ENDED"
  | .pedestalOffline => "PEDESTAL_OFFLINE"
  | .pedestalBack => "PEDESTAL_BACK"
  | .meterFault => "METER_FAULT"
  | .saleEnded => "SALE_ENDED"
  | .pumpOffline => "PUMP_OFFLINE"
  | .tankLow => "TANK_LOW"
  | .tankDiscrepancy => "TANK_DISCREPANCY"
  | .gateRefused => "GATE_REFUSED"
  | .mainsLost => "MAINS_LOST"
  | .mainsBack => "MAINS_BACK"
  | .saveDone => "SAVE_DONE"
  | .saveFailed => "SAVE_FAILED"
  | .stateChanged => "STATE_CHANGED"

/-- The index of a notice class in the LEVEL table (R175). -/
def NoticeClass.ix : NoticeClass → Fin 28
  | .arrived => 0
  | .departed => 1
  | .reservationExpired => 2
  | .overstay => 3
  | .standingChanged => 4
  | .balanceClamped => 5
  | .rolloverDone => 6
  | .powerLive => 7
  | .powerWaiting => 8
  | .powerSuspended => 9
  | .powerEnded => 10
  | .socketTripped => 11
  | .socketFault => 12
  | .feederRelief => 13
  | .waterEnded => 14
  | .pedestalOffline => 15
  | .pedestalBack => 16
  | .meterFault => 17
  | .saleEnded => 18
  | .pumpOffline => 19
  | .tankLow => 20
  | .tankDiscrepancy => 21
  | .gateRefused => 22
  | .mainsLost => 23
  | .mainsBack => 24
  | .saveDone => 25
  | .saveFailed => 26
  | .stateChanged => 27

def FaultWord.word : FaultWord → String
  | .switchOn => "SWITCH_ON"
  | .switchOff => "SWITCH_OFF"
  | .limit => "LIMIT"
  | .valveOpen => "VALVE_OPEN"
  | .valveClose => "VALVE_CLOSE"

def ReliefWord.word : ReliefWord → String
  | .stepDown => "STEP_DOWN"
  | .shed => "SHED"
  | .nothing => "NONE"

def NoticeReason.word : NoticeReason → String
  | .standing x => x.word
  | .cause x => x.word
  | .powerEnd x => x.word
  | .waterEnd x => x.word
  | .fault x => x.word
  | .relief x => x.word
  | .product x => productWord x
  | .saleEnd x => x.word
  | .gate x => x.word
  | .device x => x.word

def Refuse.word : Refuse → String
  | .notHere => "NOT_HERE"
  | .closed => "CLOSED"
  | .holdover => "HOLDOVER"
  | .state => "STATE"
  | .range => "RANGE"
  | .inUse => "IN_USE"
  | .busy => "BUSY"
  | .stale => "STALE"
  | .full => "FULL"
  | .duplicate => "DUPLICATE"
  | .noFit => "NO_FIT"
  | .noEntry => "NO_ENTRY"
  | .standing => "STANDING"
  | .saleOpen => "SALE_OPEN"
  | .unsettled => "UNSETTLED"
  | .funds => "FUNDS"
  | .limit => "LIMIT"
  | .limitLow => "LIMIT_LOW"
  | .offline => "OFFLINE"

def Bad.word : Bad → String
  | .syntaxWord => "SYNTAX"
  | .check => "CHECK"
  | .unknown => "UNKNOWN"

def tableWord : TableName → String
  | .site => "SITE"
  | .cls => "CLASS"
  | .rate => "RATE"
  | .hourband => "HOURBAND"
  | .berth => "BERTH"
  | .pedestal => "PEDESTAL"
  | .feeder => "FEEDER"
  | .pump => "PUMP"
  | .tank => "TANK"
  | .format => "FORMAT"
  | .access => "ACCESS"
  | .gate => "GATE"
  | .level => "LEVEL"
  | .port => "PORT"
  | .cred => "CRED"
  | .account => "ACCOUNT"
  | .power => "POWER"
  | .water => "WATER"
  | .sale => "SALE"
  | .passage => "PASSAGE"

/-- Every table name, in the order of R169. -/
def tableNames : List TableName :=
  [.site, .cls, .rate, .hourband, .berth, .pedestal, .feeder, .pump, .tank, .format,
   .access, .gate, .level, .port, .cred, .account, .power, .water, .sale, .passage]

/-- A yes/no field's value words (log 7). -/
def yesNo (b : Bool) : String := if b then "YES" else "NO"

/-- ON or OFF: relays and passback. -/
def onOff (b : Bool) : String := if b then "ON" else "OFF"

/-- OPEN or CLOSED: valves. -/
def valveWord (b : Bool) : String := if b then "OPEN" else "CLOSED"

end Sys2Proof.Machine
end

