-- ==== Sys2Proof/WellFormed.lean ====
section
/-! DEFINITION. Well-formed commands: what a line that passes check 3 of R166 can spell ("of the number, form and kind the command's syntax table gives"), and what an event can bring. A value out of its range is well formed; its owner refuses it RANGE. -/

namespace Sys2Proof

/-- A field of a line: printable characters, no space, no asterisk, not empty (R164). -/
def fieldForm (s : String) : Bool :=
  !s.toList.isEmpty && s.toList.all fun c => 33 ≤ c.toNat && c.toNat ≤ 126 && c ≠ '*'

/-- The form YYYY-MM-DD. -/
def DateField.form (d : DateField) : Bool := d.year ≤ 9999 && d.month ≤ 99 && d.day ≤ 99

/-- The form HH:MM:SS. -/
def TimeField.form (t : TimeField) : Bool := t.hour ≤ 99 && t.minute ≤ 99 && t.second ≤ 99

/-- One to four pontoon numbers, or ANY. -/
def Pontoons.form : Pontoons → Bool
  | .any => true
  | .listed ps => 1 ≤ ps.length && ps.length ≤ 4

/-- An optional date, in form. -/
def optionalForm : Option DateField → Bool
  | none => true
  | some d => d.form

/-- A line that has ended and is not empty nor only spaces (R164); it holds no carriage return or line feed. -/
def lineForm (line : List Byte) : Bool :=
  line.any (· ≠ 32) && line.all fun c => c ≠ 13 && c ≠ 10

def Instr.wellFormed : Instr → Bool
  | .openAccount _ _ => true
  | .closeAccount _ _ => true
  | .credit _ _ _ => true
  | .debit _ _ _ => true
  | .bar _ _ => true
  | .unbar _ _ => true
  | .allocate _ _ pontoons arrival planned => pontoons.form && arrival.form && optionalForm planned
  | .reserve _ _ _ arrival planned _ => arrival.form && optionalForm planned
  | .cancel _ _ => true
  | .arrive _ _ _ planned _ => optionalForm planned
  | .move _ _ _ _ => true
  | .depart _ _ => true
  | .setClock _ date time => date.form && time.form
  | .clockAdvance => true
  | .rolloverStep => true
  | .rolloverComplete => true
  | .pollDue _ => true
  | .pollSend _ => true
  | .lineBusy _ => true
  | .pedestalReply _ => true
  | .noReply _ => true
  | .reliefHoldExpiry _ => true
  | .requestPower _ _ _ => true
  | .resetSocket _ _ => true
  | .endPower _ _ => true
  | .requestWater _ _ => true
  | .endWater _ _ => true
  | .sell _ _ _ _ => true
  | .pumpPoll => true
  | .pumpReply _ => true
  | .noLiftTimerExpiry _ => true
  | .stallTimerExpiry _ => true
  | .stopSale _ _ => true
  | .sale _ _ => true
  | .tankDip _ _ _ => true
  | .tankFill _ _ _ => true
  | .credentialEnded _ => true
  | .releaseExpiry _ => true
  | .holdGate _ _ _ => true
  | .revoke _ _ => true
  | .clearPassback _ _ => true
  | .select _ _ _ => true
  | .put _ field value => fieldForm field && fieldForm value
  | .store _ => true
  | .read _ => true
  | .list _ _ => true
  | .next _ => true
  | .status _ => true
  | .unknownCommandLine _ line => lineForm line
  | .lineTimeout _ => true
  | .replySent _ => true
  | .save _ => true
  | .saveComplete result =>
    match result with
    | .differs offset => offset < 10047
    | .agrees => true
    | .noAnswer => true
  | .openDevice _ => true
  | .setup _ => true
  | .restart _ => true
  | .powerOn _ => true
  | .resetInput _ => true
  | .loadComplete _ => true
  | .mainsLost => true
  | .mainsBack => true
  | .batteryExhausted => true
  | .readerPulse _ _ => true
  | .pedestalReplyByte _ _ => true
  | .portCharacter _ _ => true

end Sys2Proof
end

