-- ==== Sys2Proof/Machine/Lines.lean ====
section
/-! DEFINITION. The text of command and reply lines (R164 to R166, R187): characters, check suffix, fields, the syntax of every command, and how a reply line is written. -/

namespace Sys2Proof.Machine

/-! ### Characters and fields (R164) -/

def space : Byte := 32
def asterisk : Byte := 42
def lineFeed : Byte := 10
def carriageReturn : Byte := 13

/-- Codes 32 to 126 (R164). -/
def isPrintable (c : Byte) : Bool := 32 ≤ c.toNat && c.toNat ≤ 126

/-- The characters of a text. -/
def bytesOf (s : String) : List Byte := s.toList.map fun c => BitVec.ofNat 8 c.toNat

/-- The text of some characters. -/
def textOf (bs : List Byte) : String := String.ofList (bs.map fun c => Char.ofNat c.toNat)

/-- Runs of characters separated by one or more spaces (R164); `run` is the field being read, in reverse. -/
def splitFields : List Byte → List Byte → List (List Byte)
  | [], run => if run = [] then [] else [run.reverse]
  | c :: cs, run =>
    if c = space then (if run = [] then splitFields cs [] else run.reverse :: splitFields cs [])
    else splitFields cs (c :: run)

/-- The fields of a line, as texts. -/
def fieldsOfLine (line : List Byte) : List String := (splitFields line []).map textOf

/-! ### Numbers, dates, times -/

def digitValue (c : Char) : Option Nat :=
  if 48 ≤ c.toNat ∧ c.toNat ≤ 57 then some (c.toNat - 48) else none

/-- The number some digits spell after `v`. -/
def digitsFrom : Nat → List Char → Option Nat
  | v, [] => some v
  | v, c :: cs =>
    match digitValue c with
    | some d => digitsFrom (10 * v + d) cs
    | none => none

/-- A number: decimal digits, no separators (11 "Command and reply lines"). -/
def natField (s : String) : Option Nat := if s.toList = [] then none else digitsFrom 0 s.toList

/-- A number that may be signed: a leading minus (11). -/
def intField (s : String) : Option Int :=
  match s.toList with
  | '-' :: rest => if rest = [] then none else (digitsFrom 0 rest).map fun n => -(n : Int)
  | cs => if cs = [] then none else (digitsFrom 0 cs).map Int.ofNat

/-- The form YYYY-MM-DD. -/
def dateField (s : String) : Option DateField :=
  match s.toList with
  | [a, b, c, d, '-', e, f, '-', g, h] =>
    match digitsFrom 0 [a, b, c, d], digitsFrom 0 [e, f], digitsFrom 0 [g, h] with
    | some y, some m, some n => some { year := y, month := m, day := n }
    | _, _, _ => none
  | _ => none

/-- The form HH:MM:SS. -/
def timeField (s : String) : Option TimeField :=
  match s.toList with
  | [a, b, ':', c, d, ':', e, f] =>
    match digitsFrom 0 [a, b], digitsFrom 0 [c, d], digitsFrom 0 [e, f] with
    | some h, some m, some n => some { hour := h, minute := m, second := n }
    | _, _, _ => none
  | _ => none

/-- A hexadecimal digit, upper or lower case (R165). -/
def hexValue (c : Byte) : Option Nat :=
  let n := c.toNat
  if 48 ≤ n ∧ n ≤ 57 then some (n - 48)
  else if 65 ≤ n ∧ n ≤ 70 then some (n - 55)
  else if 97 ≤ n ∧ n ≤ 102 then some (n - 87)
  else none

/-! ### The syntax of each command (R166 check 3) -/

/-- What a line is found to be. `suffix` is the suffix mark for the reply. -/
inductive LineCheck where
  | bad (b : Bad) (suffix : Bool)
  | command (i : Instr)
deriving DecidableEq, Repr

/-- The word FORCE, optional, in its place at the end. -/
def forceField : List String → Option Bool
  | [] => some false
  | ["FORCE"] => some true
  | _ => none

/-- A planned departure, optional, then FORCE, optional. -/
def plannedAndForce (args : List String) : Option (Option DateField × Bool) :=
  match args with
  | [] => some (none, false)
  | a :: rest =>
    match dateField a with
    | some d => (forceField rest).map fun f => (some d, f)
    | none => (forceField args).map fun f => (none, f)

/-- The numbers that lead a list of fields, and what follows them. -/
def leadingNumbers : List String → List Nat × List String
  | [] => ([], [])
  | a :: rest =>
    match natField a with
    | some n => ((n :: (leadingNumbers rest).1), (leadingNumbers rest).2)
    | none => ([], a :: rest)

/-- An arrival date, then a planned departure, optional. -/
def arrivalAndPlanned : List String → Option (DateField × Option DateField)
  | [a] => (dateField a).map fun d => (d, none)
  | [a, b] =>
    match dateField a, dateField b with
    | some d, some e => some (d, some e)
    | _, _ => none
  | _ => none

def allocateFields (o : Origin) (a : Nat) (args : List String) : Option Instr :=
  match args with
  | "ANY" :: rest => (arrivalAndPlanned rest).map fun d => .allocate o a .any d.1 d.2
  | _ =>
    let ps := leadingNumbers args
    if 1 ≤ ps.1.length ∧ ps.1.length ≤ 4 then
      (arrivalAndPlanned ps.2).map fun d => .allocate o a (.listed ps.1) d.1 d.2
    else none

def arriveFields (o : Origin) (a : Nat) (args : List String) : Option Instr :=
  match args with
  | [] => some (.arrive o a none none false)
  | b :: rest =>
    match natField b with
    | some n => (plannedAndForce rest).map fun d => .arrive o a (some n) d.1 d.2
    | none => (plannedAndForce args).map fun d => .arrive o a none d.1 d.2

def sellKindField (word : String) (n : Nat) : Option SellKind :=
  match word with
  | "ACCOUNT" => some (.account n)
  | "PREPAY" => some (.prepay n)
  | _ => none

def presetFields : List String → Option (Option Preset)
  | [] => some none
  | ["VOLUME", n] => (natField n).map fun v => some (.volume v)
  | ["AMOUNT", n] => (natField n).map fun v => some (.amount v)
  | _ => none

def gateModeField : String → Option GateMode
  | "NORMAL" => some .normal
  | "HELD_OPEN" => some .heldOpen
  | "OUT_OF_SERVICE" => some .outOfService
  | _ => none

def tableField (s : String) : Option TableName := tableNames.find? fun t => tableWord t = s

/-- One number and nothing else. -/
def oneNumber (f : Nat → Instr) : List String → Option Instr
  | [a] => (natField a).map f
  | _ => none

/-- Two numbers and nothing else. -/
def twoNumbers (f : Nat → Nat → Instr) : List String → Option Instr
  | [a, b] =>
    match natField a, natField b with
    | some m, some n => some (f m n)
    | _, _ => none
  | _ => none

/-- No field at all. -/
def noFields (i : Instr) : List String → Option Instr
  | [] => some i
  | _ => none

/-- The syntax of a command word: none when the word is no command word of the part, else what its fields spell, if anything. -/
def commandSyntax (o : Origin) (word : String) (args : List String) : Option (Option Instr) :=
  match word with
  | "OPEN_ACCOUNT" => some (if args = [] then some (.openAccount o none) else oneNumber (fun n => .openAccount o (some n)) args)
  | "CLOSE_ACCOUNT" => some (oneNumber (.closeAccount o) args)
  | "CREDIT" => some (twoNumbers (.credit o) args)
  | "DEBIT" => some (twoNumbers (.debit o) args)
  | "BAR" => some (oneNumber (.bar o) args)
  | "UNBAR" => some (oneNumber (.unbar o) args)
  | "ALLOCATE" => some (match args with
    | a :: rest => (natField a).bind fun n => allocateFields o n rest
    | [] => none)
  | "RESERVE" => some (match args with
    | a :: b :: d :: rest =>
      match natField a, natField b, dateField d, plannedAndForce rest with
      | some m, some n, some e, some r => some (.reserve o m n e r.1 r.2)
      | _, _, _, _ => none
    | _ => none)
  | "CANCEL" => some (oneNumber (.cancel o) args)
  | "ARRIVE" => some (match args with
    | a :: rest => (natField a).bind fun n => arriveFields o n rest
    | [] => none)
  | "MOVE" => some (match args with
    | a :: b :: rest =>
      match natField a, natField b, forceField rest with
      | some m, some n, some f => some (.move o m n f)
      | _, _, _ => none
    | _ => none)
  | "DEPART" => some (oneNumber (.depart o) args)
  | "SETCLOCK" => some (match args with
    | [d, t] =>
      match dateField d, timeField t with
      | some e, some u => some (.setClock o e u)
      | _, _ => none
    | _ => none)
  | "REQUEST_POWER" => some (twoNumbers (.requestPower o) args)
  | "RESET_SOCKET" => some (oneNumber (.resetSocket o) args)
  | "END_POWER" => some (oneNumber (.endPower o) args)
  | "REQUEST_WATER" => some (oneNumber (.requestWater o) args)
  | "END_WATER" => some (oneNumber (.endWater o) args)
  | "SELL" => some (match args with
    | p :: k :: n :: rest =>
      match natField p, (natField n).bind (sellKindField k), presetFields rest with
      | some pump, some kind, some preset => some (.sell o pump kind preset)
      | _, _, _ => none
    | _ => none)
  | "STOP_SALE" => some (oneNumber (.stopSale o) args)
  | "SALE" => some (oneNumber (.sale o) args)
  | "TANK_DIP" => some (twoNumbers (.tankDip o) args)
  | "TANK_FILL" => some (twoNumbers (.tankFill o) args)
  | "HOLD_GATE" => some (match args with
    | [g, m] =>
      match natField g, gateModeField m with
      | some n, some mode => some (.holdGate o n mode)
      | _, _ => none
    | _ => none)
  | "REVOKE" => some (oneNumber (.revoke o) args)
  | "CLEAR_PASSBACK" => some (oneNumber (.clearPassback o) args)
  | "SELECT" => some (match args with
    | [t, n] =>
      match tableField t, natField n with
      | some table, some ix => some (.select o table ix)
      | _, _ => none
    | _ => none)
  | "PUT" => some (match args with
    | [f, v] => some (.put o f v)
    | _ => none)
  | "STORE" => some (noFields (.store o) args)
  | "READ" => some (noFields (.read o) args)
  | "LIST" => some (match args with
    | ["SALE"] => some (.list o .sale)
    | ["PASSAGE"] => some (.list o .passage)
    | ["POWER"] => some (.list o .power)
    | ["WATER"] => some (.list o .water)
    | ["WAIT", f] => (natField f).map fun n => .list o (.wait n)
    | _ => none)
  | "NEXT" => some (noFields (.next o) args)
  | "STATUS" => some (noFields (.status o) args)
  | "SAVE" => some (noFields (.save o) args)
  | "OPEN" => some (noFields (.openDevice o) args)
  | "SETUP" => some (noFields (.setup o) args)
  | "RESTART" => some (noFields (.restart o) args)
  | _ => none

/-! ### The checks of an ended line (R165, R166) -/

/-- The two's complement of the byte sum (R165). -/
def suffixValue (body : List Byte) : Byte := -(byteSum body)

/-- Checks 2 and 3 on a line whose suffix, if any, has been taken off. -/
def checkBody (port : PortId) (body : List Byte) (suffix : Bool) : LineCheck :=
  if !body.all isPrintable then .bad .syntaxWord suffix
  else
    match fieldsOfLine body with
    | [] => .bad .unknown suffix
    | word :: args =>
      match commandSyntax { port := port, suffix := suffix } word args with
      | none => .bad .unknown suffix
      | some none => .bad .syntaxWord suffix
      | some (some i) => .command i

/-- Checks 1 to 3 of an ended line. DEDUCED (log 6): the suffix is checked first, then the characters, then the command word. -/
def checkLine (port : PortId) (line : List Byte) : LineCheck :=
  if Config.lineRoom < line.length then .bad .syntaxWord false
  else
    match line.dropWhile (· ≠ asterisk) with
    | [] => checkBody port line false
    | _ :: rest =>
      match rest with
      | [h, l] =>
        match hexValue h, hexValue l with
        | some x, some y =>
          let body := line.takeWhile (· ≠ asterisk)
          if BitVec.ofNat 8 (16 * x + y) = suffixValue body then checkBody port body true
          else .bad .check false
        | _, _ => .bad .syntaxWord false
      | _ => .bad .syntaxWord false

/-- The checks of the line a port has ended: "A line with the overlong mark is answered BAD SYNTAX" (R164). -/
def checkHeldLine (port : PortId) (p : Port) : LineCheck :=
  if p.overlong then .bad .syntaxWord false else checkLine port p.line

/-! ### Writing reply lines (R187) -/

/-- The decimal digits of a number, without leading zeros. -/
def natDigits : Nat → Nat → List Char
  | 0, _ => []
  | fuel + 1, n => (if n < 10 then [] else natDigits fuel (n / 10)) ++ [digitAt 1 n]

def natText (n : Nat) : List Char := natDigits (n + 1).log2.succ n

def intText (z : Int) : List Char := if z < 0 then '-' :: natText z.natAbs else natText z.natAbs

/-- Two digits. -/
def twoDigits (n : Nat) : List Char := [digitAt 10 n, digitAt 1 n]

def dateText (d : Int) : List Char :=
  let c := civil d
  [digitAt 1000 c.year, digitAt 100 c.year, digitAt 10 c.year, digitAt 1 c.year, '-']
    ++ twoDigits c.month ++ ['-'] ++ twoDigits c.day

def timeText (t : Nat) : List Char :=
  twoDigits (t / 3600) ++ [':'] ++ twoDigits (t / 60 % 60) ++ [':'] ++ twoDigits (t % 60)

/-- A date and time that form one value: the date, a slash and the time. -/
def stampText (s : Stamp) : List Char := dateText s.date ++ ['/'] ++ timeText s.time

/-- Items joined by a separator. -/
def joined (sep : Char) : List (List Char) → List Char
  | [] => []
  | [x] => x
  | x :: y :: rest => x ++ sep :: joined sep (y :: rest)

def Atom.text : Atom → List Char
  | .num n => intText n
  | .word w => w.toList
  | .date d => dateText d
  | .time t => timeText t
  | .stamp s => stampText s
  | .nums [] => "NONE".toList
  | .nums ns => joined ',' (ns.map natText)
  | .absent => "NONE".toList

def Item.text : Item → List Char
  | .val a => a.text
  | .pair name a => name.toList ++ '=' :: a.text

/-- The reply word and its values. -/
def ReplyLine.words : ReplyLine → List (List Char)
  | .done items => "DONE".toList :: items.map Item.text
  | .more items => "MORE".toList :: items.map Item.text
  | .retry => ["RETRY".toList]
  | .refused r => ["REFUSED".toList, r.word.toList]
  | .bad b => ["BAD".toList, b.word.toList]

/-- A hexadecimal digit in upper case. -/
def hexDigit (n : Nat) : Char := if n < 10 then Char.ofNat (48 + n) else Char.ofNat (55 + n)

/-- The check suffix of a line: an asterisk and two upper-case digits (R165). -/
def suffixText (body : List Byte) : List Char :=
  let v := (suffixValue body).toNat
  ['*', hexDigit (v / 16), hexDigit (v % 16)]

/-- The bytes of a reply line on the UART: its words, the suffix when the suffix mark is set, CR LF. -/
def ReplyLine.wire (suffix : Bool) (r : ReplyLine) : List Byte :=
  let body := (joined ' ' r.words).map fun c => BitVec.ofNat 8 c.toNat
  body ++ (if suffix then (suffixText body).map fun c => BitVec.ofNat 8 c.toNat else [])
    ++ [carriageReturn, lineFeed]

/-! ### Values of reply lines -/

def numItem (n : Nat) : Item := .val (.num n)
def intItem (z : Int) : Item := .val (.num z)
def wordItem (w : String) : Item := .val (.word w)
def dateItem (d : Int) : Item := .val (.date d)

/-- An optional value: NONE when absent (R187). -/
def orAbsent {α : Type} (f : α → Atom) : Option α → Atom
  | none => .absent
  | some x => f x

/-- A number of a record index. -/
def numAtom {k : Nat} (i : Fin k) : Atom := .num i.val

def Outlet.atom : Outlet → Atom
  | .socket n => .word (String.ofList ('S' :: natText n.val))
  | .tap n => .word (String.ofList ('T' :: natText n.val))

/-- A notice in the reply to NEXT: eleven values, always all of them (R187). -/
def Notice.items (n : Notice) : List Item :=
  [ wordItem n.cls.word, dateItem n.raised.date, .val (.time n.raised.time)
  , .val (orAbsent numAtom n.info.account), .val (orAbsent numAtom n.info.berth)
  , .val (orAbsent Outlet.atom n.info.outlet), .val (orAbsent numAtom n.info.pump)
  , .val (orAbsent numAtom n.info.gate), .val (orAbsent .num n.info.value)
  , .val (orAbsent (fun r => .word (NoticeReason.word r)) n.info.reason)
  , wordItem (if n.gap then "GAP" else "NOGAP") ]

end Sys2Proof.Machine
end

