-- ==== Sys2Proof/Machine/Operands.lean ====
section
/-! DEFINITION. Reading the fields of a command: record numbers, ratings, dates (the RANGE checks of R12, R45, R97 and the like). -/

namespace Sys2Proof.Machine

/-- A record number within its range. -/
def ident (k n : Nat) : Option (Fin k) := if h : n < k then some ⟨n, h⟩ else none

/-- A rating in amps: 16, 32 or 63 (R97). -/
def ratingOf (amps : Nat) : Option Rating :=
  if amps = 16 then some .a16 else if amps = 32 then some .a32 else if amps = 63 then some .a63 else none

def Rating.amps : Rating → Nat
  | .a16 => 16
  | .a32 => 32
  | .a63 => 63

/-- An optional number: absent, or within its range; none when it is out of range. -/
def optIdent (k : Nat) : Option Nat → Option (Option (Fin k))
  | none => some none
  | some n => (ident k n).map some

/-- An optional date: absent, or valid; none when it is not valid. -/
def optDate : Option DateField → Option (Option Int)
  | none => some none
  | some d => (dateOf d).map some

/-- All of a list of numbers within their range. -/
def idents (k : Nat) : List Nat → Option (List (Fin k))
  | [] => some []
  | n :: ns =>
    match ident k n, idents k ns with
    | some i, some is => some (i :: is)
    | _, _ => none

end Sys2Proof.Machine
end

