-- ==== Sys2Proof/Machine/Ops.lean ====
section
/-! DEFINITION. Named operations over State: reading and writing one record, raising a notice, taking a command line at a port.

Every write of a record takes the state `b` that its change found (the BASE of the change), so that the record's edition advances once for the change (Machine/Flags.lean, log 5). -/

namespace Sys2Proof.Machine

/-! ### Records -/

def State.account (s : State) (a : AccountId) : Account := s.accounts.get a
def State.berth (s : State) (n : BerthId) : Berth := s.berths.get n
def State.pedestal (s : State) (n : PedestalId) : Pedestal := s.pedestals.get n
def State.segment (s : State) (g : SegmentId) : Segment := s.segments.get g
def State.feeder (s : State) (f : FeederId) : Feeder := s.feeders.get f
def State.pump (s : State) (p : PumpId) : Pump := s.pumps.get p
def State.tank (s : State) (t : ProductId) : Tank := s.tanks.get t
def State.gate (s : State) (g : GateId) : Gate := s.gates.get g
def State.cred (s : State) (c : CredId) : Credential := s.creds.get c
def State.reader (s : State) (r : ReaderId) : ReaderInput := s.readers.get r

/-- The class row of an account's class. -/
def State.classOf (s : State) (x : Account) : ClassCfg := (s.classes.get x.cls).val

def putAccount (b : State) (a : AccountId) (x : Account) (s : State) : State :=
  { s with accounts := s.accounts.put a ((b.account a).settled x) }

def modAccount (b : State) (a : AccountId) (f : Account → Account) (s : State) : State :=
  putAccount b a (f (s.account a)) s

def putBerth (b : State) (n : BerthId) (x : Berth) (s : State) : State :=
  { s with berths := s.berths.put n ((b.berth n).settled x) }

def putPedestal (b : State) (n : PedestalId) (x : Pedestal) (s : State) : State :=
  { s with pedestals := s.pedestals.put n ((b.pedestal n).settled x) }

def modPedestal (b : State) (n : PedestalId) (f : Pedestal → Pedestal) (s : State) : State :=
  putPedestal b n (f (s.pedestal n)) s

def putSegment (g : SegmentId) (x : Segment) (s : State) : State :=
  { s with segments := s.segments.put g x }

def putFeeder (b : State) (f : FeederId) (x : Feeder) (s : State) : State :=
  { s with feeders := s.feeders.put f ((b.feeder f).settled x) }

def modFeeder (b : State) (f : FeederId) (g : Feeder → Feeder) (s : State) : State :=
  putFeeder b f (g (s.feeder f)) s

def putPump (b : State) (p : PumpId) (x : Pump) (s : State) : State :=
  { s with pumps := s.pumps.put p ((b.pump p).settled x) }

def putTank (b : State) (t : ProductId) (x : Tank) (s : State) : State :=
  { s with tanks := s.tanks.put t ((b.tank t).settled x) }

def putGate (b : State) (g : GateId) (x : Gate) (s : State) : State :=
  { s with gates := s.gates.put g ((b.gate g).settled x) }

def putCred (b : State) (c : CredId) (x : Credential) (s : State) : State :=
  { s with creds := s.creds.put c ((b.cred c).settled x) }

/-- A passage of a credential: it advances the edition even when it writes what stood there (R151, R158). -/
def passCred (b : State) (c : CredId) (x : Credential) (s : State) : State :=
  { s with creds := s.creds.put c { x with edition := (b.cred c).edition + 1 } }

/-- A stray quantity of a pedestal: above 0 it advances the edition, also where its counter is at the limit already (R90). -/
def strayPedestal (b : State) (n : PedestalId) (q : Nat) (f : Pedestal → Pedestal) (s : State) : State :=
  { s with pedestals := s.pedestals.put n
             { f (s.pedestal n) with edition := editionAfter (b.pedestal n).edition (q = 0) } }

def putReader (r : ReaderId) (x : ReaderInput) (s : State) : State :=
  { s with readers := s.readers.put r x }

/-- A step at every record number of a list, in order. -/
def eachOf {α : Type} (ids : List α) (f : α → State → State) (s : State) : State :=
  ids.foldl (fun s i => f i s) s

/-- A step at every record number, in ascending order. -/
def eachId (n : Nat) (f : Fin n → State → State) (s : State) : State := eachOf (List.finRange n) f s

/-! ### Notices (R175, R176, R179) -/

/-- Sets the gap flag of the newest notice of a queue. -/
def markGap : List Notice → List Notice
  | [] => []
  | [n] => [{ n with gap := true }]
  | n :: m :: rest => n :: markGap (m :: rest)

/-- A copy taken at a port's queue: it joins as the newest, or at a full queue is discarded with the gap marked (R176). -/
def Port.queueCopy (n : Notice) (p : Port) : Port :=
  if p.queue.length < Config.noticeRoom then { p with queue := p.queue ++ [n], attn := true }
  else { p with queue := markGap p.queue }

/-- A notice is copied into each port whose threshold is at or below the level of its class (R175). -/
def routeNotice (n : Notice) (s : State) : State :=
  let level := (s.levels.get n.cls.ix).val.val
  { s with
    ports := Table.zipWith (fun p t => if t.val ≤ level then p.queueCopy n else p) s.ports s.thresholds }

/-- Raises a notice with the date and time the Site Clock shows; in LOADING it is held (R179). -/
def raise (cls : NoticeClass) (info : NoticeInfo) (s : State) : State :=
  let n : Notice := { cls := cls, raised := s.clock, info := info, gap := false }
  if s.device = .loading then { s with heldNotices := s.heldNotices ++ [n] } else routeNotice n s

/-! ### Ports (R164 to R168) -/

/-- The index of a port in the PORT table (R169). -/
def portIx : PortId → Fin 3
  | .office => 0
  | .fuel => 1
  | .patrol => 2

def State.port (s : State) (p : PortId) : Port := s.ports.get (portIx p)

def putPort (p : PortId) (x : Port) (s : State) : State := { s with ports := s.ports.put (portIx p) x }

/-- The port begins to send a reply; the line it answers is done with. -/
def reply (p : PortId) (suffix : Bool) (lines : List ReplyLine) (s : State) : State :=
  putPort p { s.port p with
    state := .replying, line := [], overlong := false, suffix := suffix, reply := lines } s

/-- The rows of R168, and the four device commands of R180, that a device state admits. -/
inductive Admission where
  | trade | anyTime | save | openDevice | setup | restart
deriving DecidableEq, Repr

/-- The answer of check 5 (R168, R180): none when the device state admits the command. -/
def Admission.answer : Admission → DeviceState → Option ReplyLine
  | _, .loading => some .retry
  | .trade, .setup => some (.refused .closed)
  | .save, .holdover => some (.refused .closed)
  | .openDevice, .opened => some (.refused .state)
  | .openDevice, .holdover => some (.refused .state)
  | .setup, .setup => some (.refused .state)
  | .setup, .holdover => some (.refused .state)
  | _, _ => none

/-- What an owner answers: a refusal that leaves every record as it was, or its state and the reply lines. -/
abbrev Answer := Except Refuse (State × List ReplyLine)

/-- DONE with its values. -/
def done (s : State) (items : List Item) : Answer := .ok (s, [.done items])

/-- The ports that R167 permits a command. -/
def portO : List PortId := [.office]
def portsOF : List PortId := [.office, .fuel]
def portsOP : List PortId := [.office, .patrol]
def portsAll : List PortId := [.office, .fuel, .patrol]

/-- Checks 3 to 6 of R166 on a command, and its reply. `after` is what follows the reply in the same step (RESTART). -/
def takeCommand (i : Instr) (o : Origin) (ports : List PortId) (adm : Admission)
    (owner : State → Answer) (after : State → State) (s : State) : State :=
  if !i.wellFormed then reply o.port o.suffix [.bad .syntaxWord] s
  else if !ports.contains o.port then reply o.port o.suffix [.refused .notHere] s
  else
    match adm.answer s.device with
    | some r => reply o.port o.suffix [r] s
    | none =>
      match owner s with
      | .error e => reply o.port o.suffix [.refused e] s
      | .ok (t, lines) => after (reply o.port o.suffix lines t)

/-- A command line at its port (log 3). IDLE: the line has arrived and ended. A line has ended: the command is taken when it is what that line spells. A reply is being sent: "every character received is discarded" (R164). A part that has stopped takes nothing (log 16). -/
def portCommandThen (i : Instr) (o : Origin) (ports : List PortId) (adm : Admission)
    (owner : State → Answer) (after : State → State) (s : State) : State :=
  if s.stopped then s
  else
    match (s.port o.port).state with
    | .idle => takeCommand i o ports adm owner after s
    | .lineEnded =>
      if checkHeldLine o.port (s.port o.port) = .command i then takeCommand i o ports adm owner after s else s
    | .replying => s

/-- A command line whose reply ends its step. -/
def portCommand (i : Instr) (o : Origin) (ports : List PortId) (adm : Admission)
    (owner : State → Answer) (s : State) : State :=
  portCommandThen i o ports adm owner id s

/-- An event, which a part that has stopped does not take.
DESIGN CHOICE (log 16): MAINS_LOST and MAINS_BACK are among the rows a stopped part does not take, so MAINS_OK keeps the level it had at the stop until such a row comes after POWER_ON. -/
def event (f : State → State) (s : State) : State := if s.stopped then s else f s

end Sys2Proof.Machine
end

