-- ==== Sys2Proof/Machine/Service.lean ====
section
/-! DEFINITION. The Service Manager (06): power and water sessions, feeders, admission, the wait list, suspension and resumption, and the requests that a change of standing sends (R10). -/

namespace Sys2Proof.Machine

/-! ### Sockets, taps and their pedestals (05 "The pedestal record") -/

/-- The pedestal of a socket: socket number divided by 2, rounded down. -/
def pedestalOf (k : SocketId) : PedestalId := ⟨k.val / 2, by have := k.isLt; omega⟩

/-- The socket's number on its pedestal. -/
def positionOf (k : SocketId) : Fin 2 := ⟨k.val % 2, by omega⟩

/-- The socket at a position of a pedestal. -/
def socketAt (n : PedestalId) (i : Fin 2) : SocketId :=
  ⟨n.val * 2 + i.val, by have := n.isLt; have := i.isLt; omega⟩

/-- Which sockets a kind has. -/
def PedestalKind.hasSocket : PedestalKind → Fin 2 → Bool
  | .twin, _ => true
  | .power2, _ => true
  | .single, i => i = 0
  | .tap, _ => false

def PedestalKind.hasTap : PedestalKind → Bool
  | .power2 => false
  | .twin => true
  | .single => true
  | .tap => true

/-- The socket is present: its pedestal is installed and of a kind that has it (R42, R121). -/
def socketPresent (s : State) (k : SocketId) : Bool :=
  let c := (s.pedestal (pedestalOf k)).cfg
  c.installed && c.kind.hasSocket (positionOf k)

/-- The tap is present. -/
def tapPresent (s : State) (t : TapId) : Bool :=
  let c := (s.pedestal t).cfg
  c.installed && c.kind.hasTap

/-- The feeder of a socket: its pedestal's. -/
def feederOf (s : State) (k : SocketId) : FeederId := (s.pedestal (pedestalOf k)).cfg.feeder

/-- The rating of a socket. -/
def socketRating (s : State) (k : SocketId) : Rating := (s.pedestal (pedestalOf k)).cfg.ratings.get (positionOf k)

/-! ### What a session's state means for its pedestal and feeder (R95, R116) -/

/-- The states in which the relay is desired ON. -/
def PowerState.on : PowerState → Bool
  | .switching => true
  | .live => true
  | .restoring => true
  | .waiting => false
  | .suspended => false
  | .tripped => false
  | .closing => false

/-- Relay and limit desired of a socket (R95): 32 when granted 32 on a socket rated 63, else 63. -/
def desiredFor (rating : Rating) : Option PowerSession → Bool × Limit
  | none => (false, .l63)
  | some x =>
    if x.state.on then (true, if rating = .a63 ∧ x.granted = 32 then .l32 else .l63) else (false, .l63)

def heldOf : Option PowerSession → Nat
  | none => 0
  | some x => x.held

def isWaiting : Option PowerSession → Bool
  | none => false
  | some x => x.state = .waiting

/-- A wait list as a session of `k` joins its tail, leaves it, or neither (R101). -/
def waitListAfter (l : List SocketId) (k : SocketId) (was is : Bool) : List SocketId :=
  match was, is with
  | false, true => l ++ [k]
  | true, false => l.filter (· ≠ k)
  | _, _ => l

/-- Writes the desired relay and limit of a socket to match its session (R95). -/
def syncSocket (b : State) (k : SocketId) (s : State) : State :=
  modPedestal b (pedestalOf k) (fun p =>
    let w := desiredFor (p.cfg.ratings.get (positionOf k)) (s.power.get k)
    { p with desired := p.desired.put (positionOf k)
              { p.desired.get (positionOf k) with relay := w.1, limit := w.2 } }) s

/-- Writes a power slot. In the same change the feeder's held sum and wait list and the socket's desired outputs follow the session (R95, R99, R101). -/
def putPower (b : State) (k : SocketId) (x : Option PowerSession) (s : State) : State :=
  let old := s.power.get k
  let s1 := { s with power := s.power.put k x }
  let s2 := modFeeder b (feederOf s k) (fun f =>
    { f with heldSum := f.heldSum - heldOf old + heldOf x
             waitList := waitListAfter f.waitList k (isWaiting old) (isWaiting x) }) s1
  syncSocket b k s2

/-- The states in which the valve is desired OPEN. -/
def WaterState.on : WaterState → Bool
  | .opening => true
  | .flowing => true
  | .suspended => false
  | .closing => false

/-- Writes a water slot and the tap's desired valve to match (R116). -/
def putWater (b : State) (t : TapId) (x : Option WaterSession) (s : State) : State :=
  modPedestal b t (fun p => { p with desiredValve := (x.map fun w => w.state.on).getD false })
    { s with water := s.water.put t x }

/-! ### Admission (R98 to R101) -/

/-- The effective wish, in amps: the least of the wish, the socket's rating and the class maximum (R98). -/
def effectiveWish (s : State) (k : SocketId) (x : PowerSession) : Nat :=
  min x.wish.amps (min (socketRating s k).amps (s.classOf (s.account x.account)).maxRating.amps)

/-- The session with the fallback this attempt finds: 32 when the effective wish is 63 (R98). -/
def attempted (s : State) (k : SocketId) (x : PowerSession) : PowerSession :=
  { x with fallback32 := effectiveWish s k x = 63 }

/-- The rating at which a feeder has room for a session: its effective wish, else its fallback (R99, R101). -/
def roomFor (s : State) (k : SocketId) (x : PowerSession) : Option Nat :=
  let f := s.feeder (feederOf s k)
  let w := effectiveWish s k x
  if f.heldSum + w ≤ f.cfg.cap then some w
  else if w = 63 ∧ f.heldSum + 32 ≤ f.cfg.cap then some 32
  else none

/-- The grant count after one more grant; it stays at its limit (R96). -/
def nextGrant (n : Nat) : Nat := min (n + 1) Config.counterLimit

/-- A grant (R100). -/
def grant (b : State) (k : SocketId) (x : PowerSession) (amps : Nat) (s : State) : State :=
  let n := nextGrant s.grantCount
  putPower b k
    (some { x with state := .switching, granted := amps, held := amps, grantStamp := n
                   confirmMisses := 0, shed := false })
    { s with grantCount := n }

/-- What R99 does with a session that enters admission. -/
inductive AdmissionTest where
  | granted (amps : Nat)
  | waits
  | full
deriving DecidableEq, Repr

/-- The test of R99. -/
def admissionTest (s : State) (k : SocketId) (x : PowerSession) : AdmissionTest :=
  let f := s.feeder (feederOf s k)
  match (if f.waitList = [] ∧ f.relief = none then roomFor s k x else none) with
  | some amps => .granted amps
  | none => if f.waitList.length < Config.waitListRoom then .waits else .full

/-- A session joins the tail of its feeder's list, with POWER_WAITING carrying its position (R99 step 3). -/
def joinWaitList (b : State) (k : SocketId) (x : PowerSession) (s : State) : State :=
  let s1 := putPower b k (some { x with state := .waiting, confirmMisses := 0 }) s
  raise .powerWaiting
    { account := some x.account, outlet := some (.socket k)
      value := some ((s1.feeder (feederOf s1 k)).waitList.length : Int) } s1

/-- A session enters admission (R99); none when the list is full and no session is made of it. -/
def enterAdmission (b : State) (k : SocketId) (x : PowerSession) (s : State) : Option State :=
  match admissionTest s k x with
  | .granted amps => some (grant b k (attempted s k x) amps s)
  | .waits => some (joinWaitList b k (attempted s k x) s)
  | .full => none

/-- Service of a wait list, strictly first in, first out (R101). Each try of a head is an attempt and finds its fallback anew (R98), also where the head holds shed amps or does not fit, at which service stops. -/
def serveLoop (b : State) (f : FeederId) : Nat → State → State
  | 0, s => s
  | fuel + 1, s =>
    match (s.feeder f).waitList with
    | [] => s
    | k :: _ =>
      match s.power.get k with
      | none => s
      | some x =>
        match (if x.held = 0 then roomFor s k x else none) with
        | some amps => serveLoop b f fuel (grant b k (attempted s k x) amps s)
        | none => putPower b k (some (attempted s k x)) s

/-- The list is served: nothing while a relief hold runs (R101, R113), and nothing in LOADING, before the warm start completes (R121). -/
def serve (b : State) (f : FeederId) (s : State) : State :=
  if s.device = .loading ∨ (s.feeder f).relief ≠ none then s
  else serveLoop b f (s.feeder f).waitList.length s

/-! ### Ending power (R107, R108) -/

/-- A power session ends (R108). -/
def endPower (b : State) (k : SocketId) (why : PowerEnd) (s : State) : State :=
  match s.power.get k with
  | none => s
  | some x =>
    s |> putPower b k none
      |> modAccount b x.account (fun a => { a with power := none })
      |> raise .powerEnded
          { account := some x.account, outlet := some (.socket k), value := some (x.energy : Int)
            reason := some (.powerEnd why), fault := x.fault }
      |> serve b (feederOf s k)

/-- The pedestal is OFFLINE. -/
def pedestalOffline (s : State) (n : PedestalId) : Bool := (s.pedestal n).link = .offline

/-- The close request of END_POWER and DEPART, by the session's state (R107, R58). Only END_POWER ends a CLOSING session whose pedestal is OFFLINE. -/
def closePower (b : State) (k : SocketId) (why : PowerEnd) (byCommand : Bool) (s : State) : State :=
  match s.power.get k with
  | none => s
  | some x =>
    match x.state with
    | .switching | .live | .restoring =>
      putPower b k (some { x with state := .closing, closeReason := some why, confirmMisses := 0 }) s
    | .waiting | .suspended | .tripped => endPower b k why s
    | .closing =>
      if byCommand && pedestalOffline s (pedestalOf k) then endPower b k (x.closeReason.getD why) s else s

/-! ### Suspension and resumption of power (R109, R110) -/

def powerSuspendedNotice (k : SocketId) (x : PowerSession) (cause : Cause) (s : State) : State :=
  raise .powerSuspended
    { account := some x.account, outlet := some (.socket k), reason := some (.cause cause) } s

/-- A suspend request (R109). -/
def suspendPower (b : State) (k : SocketId) (cause : Cause) (s : State) : State :=
  match s.power.get k with
  | none => s
  | some x =>
    match x.state with
    | .switching | .live | .restoring =>
      s |> putPower b k (some { x with state := .suspended, cause := some cause, confirmMisses := 0 })
        |> powerSuspendedNotice k x cause
    | .waiting =>
      let s1 := s |> putPower b k (some { x with state := .suspended, cause := some cause, confirmMisses := 0 })
                  |> powerSuspendedNotice k x cause
      if (s.feeder (feederOf s k)).waitList.head? = some k then serve b (feederOf s k) s1 else s1
    | .suspended => putPower b k (some { x with cause := some cause }) s
    | .tripped | .closing => s

/-- A resume request (R110). -/
def resumePower (b : State) (k : SocketId) (s : State) : State :=
  match s.power.get k with
  | none => s
  | some x =>
    if x.state = .suspended then
      if x.held ≠ 0 then
        putPower b k (some { x with state := .switching, cause := none, confirmMisses := 0 }) s
      else
        match enterAdmission b k { x with cause := none } s with
        | some t => t
        | none => endPower b k .full s
    else s

/-! ### Water (R116 to R118) -/

/-- A water session ends (R116). -/
def endWater (b : State) (t : TapId) (why : WaterEnd) (s : State) : State :=
  match s.water.get t with
  | none => s
  | some x =>
    s |> putWater b t none
      |> modAccount b x.account (fun a => { a with water := none })
      |> raise .waterEnded
          { account := some x.account, outlet := some (.tap t), value := some (x.volume : Int)
            reason := some (.waterEnd why) }

/-- The close request of END_WATER and DEPART (R118, R58). -/
def closeWater (b : State) (t : TapId) (why : WaterEnd) (byCommand : Bool) (s : State) : State :=
  match s.water.get t with
  | none => s
  | some x =>
    match x.state with
    | .opening | .flowing =>
      putWater b t (some { x with state := .closing, closeReason := some why, confirmMisses := 0 }) s
    | .suspended => endWater b t why s
    | .closing => if byCommand && pedestalOffline s t then endWater b t (x.closeReason.getD why) s else s

/-- A suspend request to a water session, sent at BAR (R118). -/
def suspendWater (b : State) (t : TapId) (s : State) : State :=
  match s.water.get t with
  | none => s
  | some x =>
    if x.state.on then putWater b t (some { x with state := .suspended, confirmMisses := 0 }) s else s

/-- The volume stands at or above a cap that is not 0 (R117, R118). -/
def capReached (s : State) (x : WaterSession) : Bool :=
  let cap := (s.classOf (s.account x.account)).waterCap
  0 < cap && cap ≤ x.volume

/-- A resume request to a water session (R118). -/
def resumeWater (b : State) (t : TapId) (s : State) : State :=
  match s.water.get t with
  | none => s
  | some x =>
    if x.state = .suspended then
      if capReached s x then
        putWater b t (some { x with state := .closing, closeReason := some .cap, confirmMisses := 0 }) s
      else putWater b t (some { x with state := .opening, confirmMisses := 0 }) s
    else s

/-! ### Requests of a standing change (R10) -/

/-- A request to the account's power session, if it has one. -/
def toPower (a : AccountId) (f : SocketId → State → State) (s : State) : State :=
  match (s.account a).power with
  | none => s
  | some k => f k s

/-- A request to the account's water session, if it has one. -/
def toWater (a : AccountId) (f : TapId → State → State) (s : State) : State :=
  match (s.account a).water with
  | none => s
  | some t => f t s

/-- The power session on `k` is SUSPENDED with a cause. -/
def suspendedFor (s : State) (k : SocketId) (cause : Cause) : Bool :=
  match s.power.get k with
  | none => false
  | some x => x.state = .suspended && x.cause = some cause

/-- BARRED to ARREARS: resume when arrears nights are below the class grace, otherwise the cause becomes ARREARS. -/
def unbarIntoArrears (b : State) (a : AccountId) (k : SocketId) (s : State) : State :=
  if suspendedFor s k .barred then
    if (s.account a).arrearsNights < (s.classOf (s.account a)).grace then resumePower b k s
    else suspendPower b k .arrears s
  else s

/-- The requests of R10 for a change of standing. -/
def standingRequests (b : State) (a : AccountId) (old new : Standing) (s : State) : State :=
  match old, new with
  | .barred, .barred => s
  | _, .barred =>
    s |> toPower a (fun k => suspendPower b k .barred) |> toWater a (fun t => suspendWater b t)
  | .barred, .good => s |> toPower a (fun k => resumePower b k) |> toWater a (fun t => resumeWater b t)
  | .barred, .arrears =>
    s |> toWater a (fun t => resumeWater b t) |> toPower a (fun k => unbarIntoArrears b a k)
  | .arrears, .good =>
    toPower a (fun k t => if suspendedFor t k .arrears then resumePower b k t else t) s
  | _, _ => s

end Sys2Proof.Machine
end

