-- ==== Sys2Proof/Machine/Tariff.lean ====
section
/-! DEFINITION. The Tariff Engine (02): packed quantities, bands, rates, and the exact arithmetic of charges and fuel limits. -/

namespace Sys2Proof.Machine

/-! ### Packed quantities (R21, R22) -/

/-- What a packed field carries: a quantity, or none for the fault marker (R22). -/
def unpack (w : Nat) : Option Nat :=
  let e := w / 4096 % 16
  let m := w % 4096
  if e = 15 ∧ m = 4095 then none
  else if e = 0 then some m
  else some ((4096 + m) * 2 ^ (e - 1))

/-! ### Services, bands and rates (R23 to R26) -/

/-- The six services (R23). -/
inductive Service where
  | energy | water | diesel | petrol | berthNight | shortStay
deriving DecidableEq, Repr

def serviceIx : Service → Fin 6
  | .energy => 0
  | .water => 1
  | .diesel => 2
  | .petrol => 3
  | .berthNight => 4
  | .shortStay => 5

/-- A fuel sale's service follows the product of its pump (R23). -/
def fuelService (p : ProductId) : Service := if p = 0 then .diesel else .petrol

/-- The band of a time of day; 0 while the clock-set flag is clear (R24). -/
def bandAt (s : State) (time : Nat) : Band :=
  if s.clockSet then (s.bands.get (hourOf time)).val else 0

/-- The band now. -/
def bandNow (s : State) : Band := bandAt s s.clock.time

/-- The band of the rollover hour (R25). -/
def bandOfRollover (s : State) : Band := bandAt s (s.site.val.rolloverHour * 3600)

/-- class × 24 + service × 4 + band (R26). -/
def rateIndex (c : ClassId) (v : Service) (d : Band) : Fin 96 :=
  ⟨c.val * 24 + (serviceIx v).val * 4 + d.val, by
    have h1 := c.isLt; have h2 := (serviceIx v).isLt; have h3 := d.isLt; omega⟩

def rateOf (s : State) (c : ClassId) (v : Service) (d : Band) : Nat := (s.rates.get (rateIndex c v d)).val

/-! ### The account charge (R27) -/

/-- Cents and new residue of a total of ten-thousandths. -/
def splitTotal (total : Nat) : Nat × Nat := (total / Config.residueUnit, total % Config.residueUnit)

/-- The charge of quantity `q` at rate `r` on a residue `rho`. -/
def chargeOf (rho q r : Nat) : Nat × Nat := splitTotal (rho + q * r)

/-- A night charge of `n` nights (R29): parts of 9,999, the remainder last, each from the residue the previous left; the cents of all parts added. -/
def nightParts (loa r : Nat) : Nat → Nat → Nat → Nat × Nat
  | 0, rho, n => chargeOf rho (loa * n) r
  | fuel + 1, rho, n =>
    if n ≤ Config.nightsLimit then chargeOf rho (loa * n) r
    else
      let part := chargeOf rho (loa * Config.nightsLimit) r
      let rest := nightParts loa r fuel part.2 (n - Config.nightsLimit)
      (part.1 + rest.1, rest.2)

/-! ### Fuel at SELL and at the end (R31 to R37) -/

/-- The affordable amount: balance − class floor − holds (R31). -/
def affordableAmount (s : State) (x : Account) : Int := x.balance - (s.classOf x).floor - x.holds

/-- floor(cents × 10,000 / r), a volume that money buys; none when r is 0 and money places no limit (R32, R33). -/
def volumeFor (cents r : Nat) : Option Nat := if r = 0 then none else some (cents * Config.residueUnit / r)

/-- ceil(L × r / 10,000), 0 when r is 0 (R35). -/
def moneyHoldFor (limit r : Nat) : Nat := (limit * r + (Config.residueUnit - 1)) / Config.residueUnit

/-- The charge of a PREPAY sale: floor(delivered × r / 10,000), not above the paid amount (R37). -/
def prepayCharge (delivered r paid : Nat) : Nat := min (delivered * r / Config.residueUnit) paid

/-- The least of a term that is always present and some that may not be (R127). -/
def leastOf (always : Nat) : List (Option Nat) → Nat
  | [] => always
  | none :: rest => leastOf always rest
  | some x :: rest => min x (leastOf always rest)

end Sys2Proof.Machine
end

