-- ==== Sys2Proof/Machine/Money.lean ====
section
/-! DEFINITION. Changes to an account's money: standing evaluation, debits with the clamp, charges (R5, R6, R9, R27, R29). -/

namespace Sys2Proof.Machine

/-- Standing evaluation (R9) with its notice and the requests of R10. A FREE account is not evaluated. -/
def evaluateStanding (b : State) (a : AccountId) (s : State) : State :=
  let x := s.account a
  let new := standingOf x.barredFlag x.balance (s.classOf x).floor
  if x.state = .free ∨ new = x.standing then s
  else
    s |> putAccount b a { x with standing := new, arrearsNights := arrearsNightsAfter x.standing new x.arrearsNights }
      |> raise .standingChanged
          { account := some a, value := some x.balance, reason := some (.standing new) }
      |> standingRequests b a x.standing new

/-- Steps 2 to 4 of R6: the balance is lowered, or clamped with its notice, and standing is evaluated. -/
def debitAccount (b : State) (a : AccountId) (cents : Nat) (s : State) : State :=
  let x := s.account a
  let lowered :=
    if -Config.balanceLimit ≤ x.balance - cents then
      putAccount b a { x with balance := x.balance - cents } s
    else
      s |> putAccount b a { x with balance := -Config.balanceLimit, clamped := true }
        |> raise .balanceClamped
            { account := some a, value := some ((cents - x.balance) - Config.balanceLimit) }
  evaluateStanding b a lowered

/-- The charge has to clamp the balance (R6 step 3). -/
def wouldClamp (s : State) (a : AccountId) (cents : Nat) : Bool :=
  (s.account a).balance - cents < -Config.balanceLimit

/-- A charge of cents with the new residue of a service (R6). -/
def applyCharge (b : State) (a : AccountId) (v : Service) (cents residue : Nat) (s : State) : State :=
  s |> modAccount b a (fun x => { x with residues := x.residues.put (serviceIx v) residue })
    |> debitAccount b a cents

/-- The cents and new residue of an account charge (R27), from the account as it stands. -/
def accountCharge (s : State) (a : AccountId) (v : Service) (q : Nat) (d : Band) : Nat × Nat :=
  let x := s.account a
  chargeOf (x.residues.get (serviceIx v)) q (rateOf s x.cls v d)

/-- An account charge, computed and applied in one change (R27). -/
def charge (b : State) (a : AccountId) (v : Service) (q : Nat) (d : Band) (s : State) : State :=
  let c := accountCharge s a v q d
  applyCharge b a v c.1 c.2 s

/-- The cents and residue of a night charge of `n` nights (R29). -/
def nightCharge (s : State) (a : AccountId) (n : Nat) (d : Band) : Nat × Nat :=
  let x := s.account a
  nightParts x.loa (rateOf s x.cls .berthNight d) n (x.residues.get (serviceIx .berthNight)) n

end Sys2Proof.Machine
end

