-- ==== Sys2Proof/Machine/Accounts.lean ====
section
/-! DEFINITION. The account commands (01, R12 to R18) and the revocation of an account's credentials (R152). -/

namespace Sys2Proof.Machine

/-! ### Credentials of an account (R152) -/

/-- A credential becomes REVOKED with its inside flag cleared. -/
def revokeOne (b : State) (c : CredId) (s : State) : State :=
  putCred b c { s.cred c with state := .revoked, inside := false } s

/-- Every credential of an account's list, first to last, becomes REVOKED, and the list becomes empty (R152). -/
def revokeAll (b : State) (a : AccountId) (s : State) : State :=
  s |> eachOf (s.account a).credentials (revokeOne b)
    |> modAccount b a (fun x => { x with credentials := [] })

/-! ### OPEN_ACCOUNT (R13) -/

/-- The account as OPEN_ACCOUNT leaves it; name, class, dimensions and planned departure are kept. -/
def openedAccount (x : Account) : Account :=
  { x with
    state := .opened, balance := 0, holds := 0, residues := Table.build fun _ => 0
    standing := .good, barredFlag := false, arrearsNights := 0, clamped := false
    berth := none, arrival := none, lastCharged := none, nights := 0, lastStepped := none
    credentials := [], power := none, water := none, sale := none }

/-- The lowest-numbered FREE account. -/
def lowestFree (s : State) : Option AccountId :=
  (List.finRange 512).find? fun a => (s.account a).state = .free

def openThis (a : AccountId) (s : State) : Answer :=
  done (modAccount s a openedAccount s) [numItem a.val]

def openAccountOwner (account : Option Nat) (s : State) : Answer :=
  match account with
  | none =>
    match lowestFree s with
    | none => .error .full
    | some a => openThis a s
  | some n =>
    match ident 512 n with
    | none => .error .range
    | some a => if (s.account a).state = .free then openThis a s else .error .state

def execOpenAccount (o : Origin) (account : Option Nat) (s : State) : Host.Outcome State Fault Refusal :=
  .next (portCommand (.openAccount o account) o portO .trade (openAccountOwner account) s)

/-! ### The checks common to the other account commands (R12) -/

/-- RANGE for a number that is no account, STATE for a FREE account. -/
def onOpenAccount (n : Nat) (f : AccountId → State → Answer) (s : State) : Answer :=
  match ident 512 n with
  | none => .error .range
  | some a => if (s.account a).state = .free then .error .state else f a s

/-! ### CLOSE_ACCOUNT (R14) -/

/-- The account as CLOSE_ACCOUNT leaves it, its list already empty. -/
def closedAccount (x : Account) : Account :=
  { x with
    state := .free, residues := Table.build fun _ => 0, barredFlag := false, clamped := false
    arrearsNights := 0, standing := .good }

def closeThis (a : AccountId) (s : State) : Answer :=
  let x := s.account a
  if x.state ≠ .opened then .error .state
  else if x.balance ≠ 0 ∨ x.holds ≠ 0 then .error .unsettled
  else if x.power ≠ none ∨ x.water ≠ none then .error .inUse
  else if x.sale ≠ none then .error .saleOpen
  else
    done (s |> revokeAll s a |> modAccount s a closedAccount) [numItem x.credentials.length]

def execCloseAccount (o : Origin) (account : Nat) (s : State) : Host.Outcome State Fault Refusal :=
  .next (portCommand (.closeAccount o account) o portO .trade (onOpenAccount account closeThis) s)

/-! ### CREDIT (R15) -/

def creditThis (amount : Nat) (a : AccountId) (s : State) : Answer :=
  let x := s.account a
  if amount < 1 ∨ 99999999 < amount then .error .range
  else if Config.balanceLimit < x.balance + amount then .error .limit
  else
    done (s |> putAccount s a { x with balance := x.balance + amount, clamped := false }
            |> evaluateStanding s a)
      [intItem (x.balance + amount)]

def execCredit (o : Origin) (account amount : Nat) (s : State) : Host.Outcome State Fault Refusal :=
  .next (portCommand (.credit o account amount) o portsOF .trade (onOpenAccount account (creditThis amount)) s)

/-! ### DEBIT (R16) -/

def debitThis (amount : Nat) (a : AccountId) (s : State) : Answer :=
  if amount < 1 ∨ 9999999 < amount then .error .range
  else
    let t := debitAccount s a amount s
    done t (intItem (t.account a).balance :: (if wouldClamp s a amount then [wordItem "CLAMPED"] else []))

def execDebit (o : Origin) (account amount : Nat) (s : State) : Host.Outcome State Fault Refusal :=
  .next (portCommand (.debit o account amount) o portsOF .trade (onOpenAccount account (debitThis amount)) s)

/-! ### BAR (R17) and UNBAR (R18) -/

def barThis (a : AccountId) (s : State) : Answer :=
  let x := s.account a
  if x.barredFlag then done s []
  else done (s |> putAccount s a { x with barredFlag := true } |> evaluateStanding s a) []

def execBar (o : Origin) (account : Nat) (s : State) : Host.Outcome State Fault Refusal :=
  .next (portCommand (.bar o account) o portO .trade (onOpenAccount account barThis) s)

def unbarThis (a : AccountId) (s : State) : Answer :=
  let x := s.account a
  if x.barredFlag then
    let t := s |> putAccount s a { x with barredFlag := false } |> evaluateStanding s a
    done t [wordItem (t.account a).standing.word]
  else done s []

def execUnbar (o : Origin) (account : Nat) (s : State) : Host.Outcome State Fault Refusal :=
  .next (portCommand (.unbar o account) o portO .trade (onOpenAccount account unbarThis) s)

end Sys2Proof.Machine
end

