-- ==== Sys2Proof/Machine/Berths.lean ====
section
/-! DEFINITION. The berth commands (03, R44 to R59). -/

namespace Sys2Proof.Machine

/-- The current rollover date. -/
def rolloverDate (s : State) : Int := rolloverDateAt s.site.val.rolloverHour s.clock

/-! ### The fit test (R44) -/

def fits (s : State) (x : Account) (c : BerthCfg) : Bool :=
  decide (c.loaMin ≤ x.loa ∧ x.loa ≤ c.loaMax)
    && (c.alongside || decide (x.beam ≤ c.beamMax))
    && decide ((x.draft : Int) + s.site.val.clearance ≤ c.depth + s.site.val.leastWater)

/-! ### Ties between a berth and an account -/

/-- The account with a planned departure, when one is given (R49, R52). -/
def withPlanned (planned : Option Int) (x : Account) : Account :=
  match planned with
  | none => x
  | some d => { x with planned := some d }

/-- A reservation (R49). -/
def makeReservation (b : State) (a : AccountId) (n : BerthId) (arrival : Int) (planned : Option Int) (s : State) : State :=
  s |> putBerth b n { s.berth n with state := .reserved, holder := some a }
    |> modAccount b a (fun x =>
        withPlanned planned { x with state := .reserved, berth := some n, arrival := some arrival })

/-- The berth becomes FREE with no holder. -/
def freeBerth (b : State) (n : BerthId) (s : State) : State :=
  putBerth b n { s.berth n with state := .free, holder := none } s

/-- The end of a reservation, by CANCEL or expiry (R50, R69): the planned departure is kept. -/
def releaseReservation (b : State) (a : AccountId) (n : BerthId) (s : State) : State :=
  s |> freeBerth b n |> modAccount b a (fun x => { x with state := .opened, berth := none, arrival := none })

/-- An arrival (R52). -/
def makeArrival (b : State) (a : AccountId) (n : BerthId) (planned : Option Int) (s : State) : State :=
  s |> putBerth b n { s.berth n with state := .occupied, holder := some a }
    |> modAccount b a (fun x =>
        withPlanned planned
          { x with state := .berthed, berth := some n, arrival := some s.clock.date
                   lastCharged := some (rolloverDate s), nights := 0 })
    |> raise .arrived { account := some a, berth := some n }

/-! ### ALLOCATE (R46, R47) -/

/-- The better of two candidates: the smaller LOA maximum, then the lower number, which is the one found first (R47). -/
def betterBerth (s : State) (best : Option BerthId) (n : BerthId) : Option BerthId :=
  match best with
  | none => some n
  | some m => if (s.berth n).cfg.loaMax < (s.berth m).cfg.loaMax then some n else some m

/-- A candidate: a berth of the pontoon that is FREE and that the account fits. -/
def isCandidate (s : State) (x : Account) (p : PontoonId) (n : BerthId) : Bool :=
  (s.berth n).cfg.pontoon = p && (s.berth n).state = .free && fits s x (s.berth n).cfg

/-- The choice on one pontoon. -/
def bestOnPontoon (s : State) (x : Account) (p : PontoonId) : Option BerthId :=
  ((List.finRange 512).filter (isCandidate s x p)).foldl (betterBerth s) none

/-- The search, pontoon by pontoon in list order. -/
def searchBerth (s : State) (x : Account) : List PontoonId → Option BerthId
  | [] => none
  | p :: rest =>
    match bestOnPontoon s x p with
    | some n => some n
    | none => searchBerth s x rest

/-- The pontoons to search: none when one is out of range or named twice (R46); ANY stands for 0 to 15. -/
def pontoonList : Pontoons → Option (List PontoonId)
  | .any => some (List.finRange 16)
  | .listed ps =>
    match idents 16 ps with
    | none => none
    | some is => if is.Nodup then some is else none

def allocateOwner (account : Nat) (pontoons : Pontoons) (arrival : DateField) (planned : Option DateField)
    (s : State) : Answer :=
  match ident 512 account, pontoonList pontoons, dateOf arrival, optDate planned with
  | some a, some ps, some day, some plan =>
    if day < s.clock.date then .error .range
    else if (s.account a).state ≠ .opened then .error .state
    else
      match searchBerth s (s.account a) ps with
      | none => .error .noFit
      | some n => done (makeReservation s a n day plan s) [numItem n.val]
  | _, _, _, _ => .error .range

def execAllocate (o : Origin) (account : Nat) (pontoons : Pontoons) (arrival : DateField)
    (planned : Option DateField) (s : State) : Host.Outcome State Fault Refusal :=
  .next (portCommand (.allocate o account pontoons arrival planned) o portO .trade
    (allocateOwner account pontoons arrival planned) s)

/-! ### RESERVE (R48, R49) -/

def reserveOwner (account berth : Nat) (arrival : DateField) (planned : Option DateField) (force : Bool)
    (s : State) : Answer :=
  match ident 512 account, ident 512 berth, dateOf arrival, optDate planned with
  | some a, some n, some day, some plan =>
    if day < s.clock.date then .error .range
    else if (s.account a).state ≠ .opened then .error .state
    else if (s.berth n).state ≠ .free then .error .state
    else if !force && !fits s (s.account a) (s.berth n).cfg then .error .noFit
    else done (makeReservation s a n day plan s) [numItem n.val]
  | _, _, _, _ => .error .range

def execReserve (o : Origin) (account berth : Nat) (arrival : DateField) (planned : Option DateField) (force : Bool)
    (s : State) : Host.Outcome State Fault Refusal :=
  .next (portCommand (.reserve o account berth arrival planned force) o portO .trade
    (reserveOwner account berth arrival planned force) s)

/-! ### CANCEL (R50) -/

/-- RANGE for a number that is no account (R45). -/
def onAccount (n : Nat) (f : AccountId → State → Answer) (s : State) : Answer :=
  match ident 512 n with
  | none => .error .range
  | some a => f a s

def cancelThis (a : AccountId) (s : State) : Answer :=
  match (s.account a).state, (s.account a).berth with
  | .reserved, some n => done (releaseReservation s a n s) [numItem n.val]
  | _, _ => .error .state

def execCancel (o : Origin) (account : Nat) (s : State) : Host.Outcome State Fault Refusal :=
  .next (portCommand (.cancel o account) o portO .trade (onAccount account cancelThis) s)

/-! ### ARRIVE (R51, R52) -/

/-- The berth ARRIVE takes, by the account's state, or the refusal of R51. -/
def arrivalBerth (s : State) (a : AccountId) (given : Option BerthId) (force : Bool) : Except Refuse BerthId :=
  let x := s.account a
  match x.state with
  | .free => .error .state
  | .berthed => .error .state
  | .reserved =>
    match x.berth with
    | none => .error .state
    | some n => if given = none ∨ given = some n then .ok n else .error .state
  | .opened =>
    match given with
    | none => .error .state
    | some n =>
      if (s.berth n).state ≠ .free then .error .state
      else if !force && !fits s x (s.berth n).cfg then .error .noFit
      else .ok n

def arriveOwner (account : Nat) (berth : Option Nat) (planned : Option DateField) (force : Bool) (s : State) : Answer :=
  match ident 512 account, optIdent 512 berth, optDate planned with
  | some a, some given, some plan =>
    match arrivalBerth s a given force with
    | .error e => .error e
    | .ok n => done (makeArrival s a n plan s) [numItem n.val]
  | _, _, _ => .error .range

def execArrive (o : Origin) (account : Nat) (berth : Option Nat) (planned : Option DateField) (force : Bool)
    (s : State) : Host.Outcome State Fault Refusal :=
  .next (portCommand (.arrive o account berth planned force) o portsOP .trade (arriveOwner account berth planned force) s)

/-! ### MOVE (R54, R55) -/

def moveThis (a : AccountId) (m : BerthId) (force : Bool) (s : State) : Answer :=
  let x := s.account a
  match x.state, x.berth with
  | .berthed, some n =>
    if (s.berth m).state ≠ .free then .error .state
    else if x.power ≠ none ∨ x.water ≠ none then .error .inUse
    else if !force && !fits s x (s.berth m).cfg then .error .noFit
    else
      done (s |> freeBerth s n
              |> putBerth s m { s.berth m with state := .occupied, holder := some a }
              |> modAccount s a (fun y => { y with berth := some m }))
        [numItem m.val]
  | _, _ => .error .state

def moveOwner (account berth : Nat) (force : Bool) (s : State) : Answer :=
  match ident 512 account, ident 512 berth with
  | some a, some m => moveThis a m force s
  | _, _ => .error .range

def execMove (o : Origin) (account berth : Nat) (force : Bool) (s : State) : Host.Outcome State Fault Refusal :=
  .next (portCommand (.move o account berth force) o portsOP .trade (moveOwner account berth force) s)

/-! ### DEPART (R56 to R59) -/

/-- Nights owed: D − last-charged date, when 1 or more (R57, R68). -/
def nightsOwed (x : Account) (day : Int) : Nat :=
  match x.lastCharged with
  | none => 0
  | some c => (day - c).toNat

/-- A night charge of the nights owed, with the last-charged date and nights this stay (R57, R68). -/
def chargeNights (b : State) (a : AccountId) (day : Int) (d : Band) (s : State) : State :=
  let n := nightsOwed (s.account a) day
  if n = 0 then s
  else
    let c := nightCharge s a n d
    s |> applyCharge b a .berthNight c.1 c.2
      |> modAccount b a (fun x =>
          { x with lastCharged := some day, nights := min (x.nights + n) Config.nightsLimit })

/-- The cents that `chargeNights` hands in. -/
def nightCents (s : State) (a : AccountId) (day : Int) (d : Band) : Nat :=
  let n := nightsOwed (s.account a) day
  if n = 0 then 0 else (nightCharge s a n d).1

/-- The short stay owed after the nights (R57 part 3): the loa when nights this stay are still 0. -/
def shortStayOwed (s : State) (a : AccountId) : Bool := (s.account a).nights = 0

/-- The settlement of a stay, with the cents handed in (R57). -/
def settleStay (b : State) (a : AccountId) (s : State) : State × Nat :=
  let d := bandNow s
  let day := rolloverDate s
  let t := chargeNights b a day d s
  if shortStayOwed t a then
    (charge b a .shortStay (t.account a).loa d t,
      nightCents s a day d + (accountCharge t a .shortStay (t.account a).loa d).1)
  else (t, nightCents s a day d)

/-- R58: the close requests, power first. -/
def closeSessions (b : State) (a : AccountId) (s : State) : State :=
  s |> toPower a (fun k => closePower b k .departed false) |> toWater a (fun t => closeWater b t .departed false)

/-- R59 steps 1 to 4. -/
def completeDeparture (b : State) (a : AccountId) (n : BerthId) (cents : Nat) (s : State) : State :=
  s |> (if (s.classOf (s.account a)).revokeAtDeparture then revokeAll b a else id)
    |> freeBerth b n
    |> modAccount b a (fun x =>
        { x with state := .opened, berth := none, arrival := none, lastCharged := none, nights := 0 })
    |> raise .departed { account := some a, berth := some n, value := some (cents : Int) }

/-- Credentials that DEPART revokes. -/
def revokedAtDeparture (s : State) (a : AccountId) : Nat :=
  if (s.classOf (s.account a)).revokeAtDeparture then (s.account a).credentials.length else 0

def departThis (a : AccountId) (s : State) : Answer :=
  match (s.account a).state, (s.account a).berth with
  | .berthed, some n =>
    if (s.account a).sale ≠ none then .error .saleOpen
    else
      let settled := settleStay s a s
      done (settled.1 |> closeSessions s a |> completeDeparture s a n settled.2)
        [ numItem (nightsOwed (s.account a) (rolloverDate s)), numItem settled.2
        , numItem (revokedAtDeparture s a) ]
  | _, _ => .error .state

def execDepart (o : Origin) (account : Nat) (s : State) : Host.Outcome State Fault Refusal :=
  .next (portCommand (.depart o account) o portsOP .trade (onAccount account departThis) s)

end Sys2Proof.Machine
end

