-- ==== Sys2Proof/Machine/Delivery.lean ====
section
/-! DEFINITION. What a valid pedestal reply hands to the Service Manager: deltas, trips, agreements, currents (R89 to R92, R102 to R105, R111, R112, R114, R116, R117). -/

namespace Sys2Proof.Machine

/-! ### Agreements (R88) -/

/-- A socket agrees: the relay as desired, and on a socket rated 63 whose relay is ON the limit as desired. -/
def socketAgrees (p : Pedestal) (i : Fin 2) : Bool :=
  let d := p.desired.get i
  let r := p.reported.get i
  r.relay = d.relay && (!(p.cfg.ratings.get i = .a63 && r.relay) || r.limit = d.limit)

def tapAgrees (p : Pedestal) : Bool := p.reportedValve = p.desiredValve

def socketFault (k : SocketId) (x : PowerSession) (w : FaultWord) (s : State) : State :=
  raise .socketFault { account := some x.account, outlet := some (.socket k), reason := some (.fault w) } s

/-- Confirm misses after one more failure; they saturate at 3 (06 "Switching and confirmation"). -/
def moreMisses (n : Nat) : Nat := min (n + 1) Config.missLimit

/-- The third failure is this one. -/
def reachesLimit (n : Nat) : Bool := n + 1 = Config.missLimit

/-- SWITCHING and RESTORING (R102). -/
def confirmOn (b : State) (k : SocketId) (x : PowerSession) (agrees : Bool) (s : State) : State :=
  if agrees then
    let held := min x.held x.granted
    let t := s |> putPower b k (some { x with state := .live, held := held, confirmMisses := 0 })
               |> raise .powerLive
                   { account := some x.account, outlet := some (.socket k), value := some (x.granted : Int) }
    if held < x.held then serve b (feederOf s k) t else t
  else if reachesLimit x.confirmMisses then s |> endPower b k .fault |> socketFault k x .switchOn
  else putPower b k (some { x with confirmMisses := moreMisses x.confirmMisses }) s

/-- LIVE (R103). -/
def liveAgreement (b : State) (k : SocketId) (x : PowerSession) (agrees relayOn : Bool) (s : State) : State :=
  if agrees then
    let held := min x.held x.granted
    let t := putPower b k (some { x with held := held, confirmMisses := 0 }) s
    if held < x.held then serve b (feederOf s k) t else t
  else if !relayOn then putPower b k (some { x with state := .switching, confirmMisses := 1 }) s
  else if reachesLimit x.confirmMisses then
    s |> putPower b k (some { x with confirmMisses := moreMisses x.confirmMisses, fault := true })
      |> socketFault k x .limit
  else putPower b k (some { x with confirmMisses := moreMisses x.confirmMisses }) s

/-- The held amps are released and the list is served. -/
def releaseHeld (b : State) (k : SocketId) (x : PowerSession) (s : State) : State :=
  s |> putPower b k (some { x with held := 0 }) |> serve b (feederOf s k)

/-- CLOSING, and SUSPENDED or WAITING holding amps (R104). A release leaves the confirm misses, which only a change of state and an agreement of R102 or R103 clear (R95, log 21). -/
def confirmOff (b : State) (k : SocketId) (x : PowerSession) (agrees : Bool) (s : State) : State :=
  if agrees then
    if x.state = .closing then endPower b k (x.closeReason.getD .finished) s
    else releaseHeld b k x s
  else if reachesLimit x.confirmMisses then
    s |> putPower b k (some { x with confirmMisses := moreMisses x.confirmMisses, fault := true })
      |> socketFault k x .switchOff
  else putPower b k (some { x with confirmMisses := moreMisses x.confirmMisses }) s

/-- A socket's agreement, read as the session's state directs (R102 to R104). It is formed when its turn in R89 comes (log 12). -/
def powerAgreement (b : State) (k : SocketId) (s : State) : State :=
  let p := s.pedestal (pedestalOf k)
  let agrees := socketAgrees p (positionOf k)
  match s.power.get k with
  | none => s
  | some x =>
    match x.state with
    | .switching | .restoring => confirmOn b k x agrees s
    | .live => liveAgreement b k x agrees (p.reported.get (positionOf k)).relay s
    | .closing => confirmOff b k x agrees s
    | .suspended | .waiting => if x.held ≠ 0 then confirmOff b k x agrees s else s
    | .tripped => s

/-! ### Trips (R105) -/

/-- The berth that names a socket, when one does. -/
def berthNaming (s : State) (k : SocketId) : Option BerthId :=
  (List.finRange 512).find? fun n => (s.berth n).cfg.socket = some k

def powerTrip (b : State) (k : SocketId) (s : State) : State :=
  match s.power.get k with
  | none => s
  | some x =>
    match x.state with
    | .switching | .live | .restoring =>
      s |> putPower b k (some { x with state := .tripped, held := 0, confirmMisses := 0 })
        |> raise .socketTripped
            { account := some x.account, berth := berthNaming s k, outlet := some (.socket k), value := some (x.energy : Int) }
        |> serve b (feederOf s k)
    | .closing => if x.held ≠ 0 then endPower b k (x.closeReason.getD .finished) s else s
    | .suspended | .waiting => if x.held ≠ 0 then releaseHeld b k x s else s
    | .tripped => s

/-! ### Energy (R90, R91, R114) -/

/-- Adds to a counter that saturates at 4,294,967,295. -/
def addCounter (n q : Nat) : Nat := min (n + q) Config.counterLimit

def meterFaultNotice (account : Option AccountId) (outlet : Outlet) (s : State) : State :=
  raise .meterFault { account := account, outlet := some outlet } s

/-- One energy field of an accounted reply: a quantity, or none for the fault marker (R90, R91). -/
def energyDelta (b : State) (k : SocketId) (field : Option Nat) (s : State) : State :=
  match s.power.get k, field with
  | some x, some q =>
    s |> putPower b k (some { x with energy := addCounter x.energy q }) |> charge b x.account .energy q (bandNow s)
  | some x, none =>
    s |> putPower b k (some { x with fault := true }) |> meterFaultNotice (some x.account) (.socket k)
  | none, some q =>
    strayPedestal b (pedestalOf k) q (fun p => { p with strayEnergy := addCounter p.strayEnergy q }) s
  | none, none => meterFaultNotice none (.socket k) s

/-! ### Water (R116, R117) -/

def valveFault (t : TapId) (x : WaterSession) (w : FaultWord) (s : State) : State :=
  raise .socketFault { account := some x.account, outlet := some (.tap t), reason := some (.fault w) } s

/-- A failure to close, counted on a SUSPENDED or CLOSING session (R116). -/
def countValveMiss (b : State) (t : TapId) (x : WaterSession) (s : State) : State :=
  if reachesLimit x.confirmMisses then
    s |> putWater b t (some { x with confirmMisses := moreMisses x.confirmMisses, fault := true })
      |> valveFault t x .valveClose
  else putWater b t (some { x with confirmMisses := moreMisses x.confirmMisses }) s

/-- A valve agreement (R116). -/
def valveAgreement (b : State) (t : TapId) (s : State) : State :=
  match s.water.get t with
  | none => s
  | some x =>
    match x.state, tapAgrees (s.pedestal t) with
    | .opening, true => putWater b t (some { x with state := .flowing, confirmMisses := 0 }) s
    | .opening, false =>
      if reachesLimit x.confirmMisses then s |> endWater b t .fault |> valveFault t x .valveOpen
      else putWater b t (some { x with confirmMisses := moreMisses x.confirmMisses }) s
    | .flowing, true => putWater b t (some { x with confirmMisses := 0 }) s
    | .flowing, false => putWater b t (some { x with state := .opening, confirmMisses := 1 }) s
    | .suspended, true => putWater b t (some { x with confirmMisses := 0 }) s
    | .suspended, false => countValveMiss b t x s
    | .closing, true => endWater b t (x.closeReason.getD .finished) s
    | .closing, false => countValveMiss b t x s

/-- The cap of R117, compared after the charge. -/
def applyWaterCap (b : State) (t : TapId) (s : State) : State :=
  match s.water.get t with
  | none => s
  | some x =>
    if x.state.on && capReached s x then
      putWater b t (some { x with state := .closing, closeReason := some .cap, confirmMisses := 0 }) s
    else s

/-- The water field of an accounted reply (R90, R91, R117). -/
def waterDelta (b : State) (t : TapId) (field : Option Nat) (s : State) : State :=
  match s.water.get t, field with
  | some x, some q =>
    s |> putWater b t (some { x with volume := addCounter x.volume q })
      |> charge b x.account .water q (bandNow s)
      |> applyWaterCap b t
  | some x, none =>
    s |> putWater b t (some { x with fault := true }) |> meterFaultNotice (some x.account) (.tap t)
  | none, some q => strayPedestal b t q (fun p => { p with strayWater := addCounter p.strayWater q }) s
  | none, none => meterFaultNotice none (.tap t) s

/-! ### Currents and relief (R111, R112) -/

/-- The sockets of a feeder: those of installed pedestals whose feeder field names it (R96), ascending. -/
def feederSockets (s : State) (f : FeederId) : List SocketId :=
  (List.finRange 512).filter fun k =>
    (s.pedestal (pedestalOf k)).cfg.installed && (s.pedestal (pedestalOf k)).cfg.feeder = f

/-- The last current of a session whose held amps are above 0 (R111 step 2). -/
def measuredOf : Option PowerSession → Nat
  | none => 0
  | some x => if x.held ≠ 0 then x.lastCurrent else 0

def measuredSum (s : State) (f : FeederId) : Nat :=
  ((feederSockets s f).map fun k => measuredOf (s.power.get k)).sum

/-- The later of two grants: the higher stamp, and of equal stamps the higher socket (R96); sockets come in ascending order. -/
def laterGrant (s : State) (best : Option SocketId) (k : SocketId) : Option SocketId :=
  match best with
  | none => some k
  | some m =>
    match s.power.get m, s.power.get k with
    | some x, some y => if x.grantStamp ≤ y.grantStamp then some k else some m
    | _, _ => some k

/-- The most recent grant among a feeder's sessions in a state, at a granted rating when one is named. -/
def mostRecent (s : State) (f : FeederId) (st : PowerState) (at63 : Bool) : Option SocketId :=
  ((feederSockets s f).filter fun k =>
    match s.power.get k with
    | none => false
    | some x => x.state = st && (!at63 || x.granted = 63)).foldl (laterGrant s) none

def reliefNotice (f : FeederId) (k : Option SocketId) (w : ReliefWord) (s : State) : State :=
  raise .feederRelief
    { outlet := k.map Outlet.socket, value := some (f.val : Int), reason := some (.relief w) } s

/-- Step-down of R112: the held amps stay until a reply confirms the limit. -/
def stepDown (b : State) (k : SocketId) (s : State) : State :=
  match s.power.get k with
  | none => s
  | some x => putPower b k (some { x with granted := 32, stepped := true }) s

/-- Shed of R112: WAITING at the tail keeping its held amps, or CLOSING with reason FULL when the list is full. -/
def shedSession (b : State) (k : SocketId) (s : State) : State :=
  match s.power.get k with
  | none => s
  | some x =>
    if (s.feeder (feederOf s k)).waitList.length < Config.waitListRoom then
      putPower b k (some { x with state := .waiting, shed := true, confirmMisses := 0 }) s
    else
      putPower b k (some { x with state := .closing, shed := true, closeReason := some .full, confirmMisses := 0 }) s

/-- The session relief takes (R112). -/
def takeRelief (b : State) (f : FeederId) (s : State) : State × Option SocketId × ReliefWord :=
  match mostRecent s f .live true with
  | some k => (stepDown b k s, some k, .stepDown)
  | none =>
    match mostRecent s f .live false with
    | some k => (shedSession b k s, some k, .shed)
    | none => (s, none, .nothing)

/-- Relief acts (R112). -/
def relieve (b : State) (f : FeederId) (s : State) : State :=
  let r := takeRelief b f s
  r.1 |> modFeeder b f (fun x => { x with overload := 0, relief := some (s.clock.plus Config.reliefSeconds) })
      |> reliefNotice f r.2.1 r.2.2

/-- R111 step 1 for one socket of the report. -/
def takeCurrent (b : State) (k : SocketId) (current : Nat) (s : State) : State :=
  match s.power.get k with
  | none => s
  | some x => putPower b k (some { x with lastCurrent := current }) s

/-- R111 steps 2 to 4. -/
def measureFeeder (b : State) (f : FeederId) (s : State) : State :=
  let sum := measuredSum s f
  let overloaded := (s.feeder f).cfg.rating * 10 < sum
  let count := if overloaded then (s.feeder f).overload + 1 else 0
  let t := modFeeder b f (fun x => { x with measured := sum, overload := count }) s
  if Config.overloadLimit ≤ count then relieve b f t else t

/-- A current report (R111). -/
def currentReport (b : State) (n : PedestalId) (sockets : List (Fin 2)) (s : State) : State :=
  s |> eachOf sockets (fun i => takeCurrent b (socketAt n i) ((s.pedestal n).reported.get i).current)
    |> measureFeeder b (s.pedestal n).cfg.feeder

end Sys2Proof.Machine
end

