-- ==== Sys2Proof/Machine/Bus.lean ====
section
/-! DEFINITION. The Pontoon Bus Controller (05): the poll round, the unpacker, the judgement of a reply, misses and link state, and the handing on of a valid reply. -/

namespace Sys2Proof.Machine

/-! ### The poll round (R74, R75) -/

/-- The installed pedestals of a segment. -/
def installedOn (s : State) (g : SegmentId) : List PedestalId :=
  (List.finRange 256).filter fun n => (s.pedestal n).cfg.installed && (s.pedestal n).cfg.segment = g

/-- Of two pedestals the one with the lower address; the first found at equal addresses. -/
def lowerAddress (s : State) (best : Option PedestalId) (n : PedestalId) : Option PedestalId :=
  match best with
  | none => some n
  | some m => if (s.pedestal n).cfg.address < (s.pedestal m).cfg.address then some n else some m

def lowestOf (s : State) (ns : List PedestalId) : Option PedestalId := ns.foldl (lowerAddress s) none

/-- The address stands above the round position; every address stands above none. -/
def abovePosition (position : Option (Fin 64)) (address : Fin 64) : Bool :=
  match position with
  | none => true
  | some p => p < address

/-- The pedestal a due poll goes to (R75); none on a segment with no installed pedestal. -/
def pollTarget (s : State) (g : SegmentId) : Option PedestalId :=
  let all := installedOn s g
  match lowestOf s (all.filter fun n => abovePosition (s.segment g).position (s.pedestal n).cfg.address) with
  | some n => some n
  | none => lowestOf s all

/-- The device states in which segments poll (R74). -/
def DeviceState.polls : DeviceState → Bool
  | .setup => true
  | .opened => true
  | .loading => false
  | .holdover => false

/-- A poll falls due. It does nothing where no poll is sent (R74). -/
def pollDue (g : SegmentId) (s : State) : State :=
  if s.device.polls && (pollTarget s g).isSome then putSegment g { s.segment g with due := true } s else s

def execPollDue (seg : SegmentId) (s : State) : Host.Outcome State Fault Refusal := .next (event (pollDue seg) s)

/-! ### The poll frame (R76, R188) -/

/-- Which of the sockets 0 and 1 a kind has, in order. -/
def PedestalKind.sockets : PedestalKind → List (Fin 2)
  | .twin => [0, 1]
  | .single => [0]
  | .power2 => [0, 1]
  | .tap => []

/-- The relay, limit and clear-trip bits of a socket; the limit bit stays 0 on a socket rated 16 or 32. -/
def socketPollBits (p : Pedestal) (i : Fin 2) : List Bool :=
  let d := p.desired.get i
  [d.relay, p.cfg.ratings.get i = .a63 && d.limit = .l32, d.clearTrip]

/-- The acknowledgement: the present bit and the tag, both 0 for NONE. -/
def ackBits (tag : Option (Fin 4)) : List Bool :=
  match tag with
  | none => [false, false, false]
  | some t => true :: natToBits 2 t.val

/-- The bits of a poll, without padding. -/
def pollBits (p : Pedestal) : List Bool :=
  natToBits 6 p.cfg.address.val ++ ackBits p.tag ++ p.cfg.kind.sockets.flatMap (socketPollBits p)
    ++ (if p.cfg.kind.hasTap then [p.desiredValve] else [])

/-- The bits of `k` bytes, padded with 0 at the end, as bytes. -/
def packBits (k : Nat) (bits : List Bool) : List Byte :=
  natToBytes k (bitsToNat (bits ++ List.replicate (8 * k - bits.length) false))

/-- A frame with its check byte (R188). -/
def withCheck (bytes : List Byte) : List Byte := bytes ++ [-(byteSum bytes)]

/-- The three bytes of a poll. -/
def pollFrame (p : Pedestal) : List Byte := withCheck (packBits 2 (pollBits p))

/-- A due poll is sent: the line has been idle for 2 ms, and no reply is unjudged (R75, R76, R81). -/
def pollSend (g : SegmentId) (s : State) : State :=
  let x := s.segment g
  if s.device.polls && x.due && x.outstanding.isNone then
    match pollTarget s g with
    | none => s
    | some n =>
      putSegment g
        { position := some (s.pedestal n).cfg.address, due := false
          outstanding := some { pedestal := n, sentAt := s.clock }
          unpacker := emptyUnpacker, sent := pollFrame (s.pedestal n) } s
  else s

def execPollSend (seg : SegmentId) (s : State) : Host.Outcome State Fault Refusal := .next (event (pollSend seg) s)

/-! ### Misses and link state (R82, R83) -/

/-- A PEDESTAL_OFFLINE or PEDESTAL_BACK notice. -/
def linkNotice (cls : NoticeClass) (n : PedestalId) (s : State) : State :=
  raise cls { berth := berthNaming s (socketAt n 0), value := some (n.val : Int) } s

/-- The pedestal after a miss with its outcome. -/
def Pedestal.missed (o : PollOutcome) (p : Pedestal) : Pedestal :=
  let m := min (p.misses + 1) Config.missLimit
  { p with misses := m, lastOutcome := some o
           link := if m = Config.missLimit then .offline else p.link }

/-- A miss (R83). -/
def miss (n : PedestalId) (o : PollOutcome) (s : State) : State :=
  let p := s.pedestal n
  let t := putPedestal s n (p.missed o) s
  if p.link ≠ .offline ∧ (p.missed o).link = .offline then linkNotice .pedestalOffline n t else t

/-- A due poll not sent by the end of one further interval (R75). -/
def lineBusy (g : SegmentId) (s : State) : State :=
  let x := s.segment g
  if s.device.polls && x.due then
    match pollTarget s g with
    | none => s
    | some n =>
      s |> putSegment g { x with position := some (s.pedestal n).cfg.address, due := false } |> miss n .lineBusy
  else s

def execLineBusy (seg : SegmentId) (s : State) : Host.Outcome State Fault Refusal := .next (event (lineBusy seg) s)

/-! ### The unpacker (R80, R81) -/

/-- The widths of a kind's data fields after the header's tag: socket blocks, then the tap block. -/
def PedestalKind.dataWidths (k : PedestalKind) : List Nat :=
  k.sockets.flatMap (fun _ => [1, 1, 1, 10, 16]) ++ (if k.hasTap then [1, 16] else [])

/-- The padding bits of a kind's reply (R80). -/
def PedestalKind.padding : PedestalKind → Nat
  | .twin => 3
  | .single => 0
  | .power2 => 4
  | .tap => 5

/-- The fields of a reply, in order: address, kind, tag, data, the padding as one field where there is any, the check byte. -/
def PedestalKind.format (k : PedestalKind) : List Nat :=
  [6, 2, 2] ++ k.dataWidths ++ (if k.padding = 0 then [] else [k.padding]) ++ [8]

/-- The kind codes of 11 "Pedestal frames". -/
def kindCode : PedestalKind → Nat
  | .twin => 0
  | .single => 1
  | .power2 => 2
  | .tap => 3

/-- The address and kind extracted differ from the polled pedestal's. -/
def headerDiffers (c : PedestalCfg) (fields : List Nat) : Bool :=
  match fields with
  | a :: k :: _ => !(a = c.address.val && k = kindCode c.kind)
  | _ => false

/-- Extraction of fields while the queue holds the next one; it stops when the header fixes KIND. -/
def extract (c : PedestalCfg) : List Nat → List Bool → List Nat → List Bool × List Nat
  | [], queue, fields => (queue, fields)
  | w :: ws, queue, fields =>
    if w ≤ queue.length then
      let more := fields ++ [bitsToNat (queue.take w)]
      if headerDiffers c more then (queue.drop w, more) else extract c ws (queue.drop w) more
    else (queue, fields)

/-- One byte of a reply, counted, and deposited unless the check byte is out or KIND is fixed (R81). -/
def Unpacker.take (c : PedestalCfg) (u : Unpacker) (byte : Byte) : Unpacker :=
  let counted := { u with byteCount := u.byteCount + 1, byteSum := u.byteSum + byte }
  if u.kindFixed || c.kind.format.length ≤ u.fields.length then counted
  else
    let r := extract c (c.kind.format.drop u.fields.length) (u.queue ++ byteBits byte) u.fields
    { counted with queue := r.1, fields := r.2, kindFixed := headerDiffers c r.2 }

/-- A byte on a segment: discarded with no outstanding poll, or after the 16th byte, at which the reply is judged (R81, R82). -/
def replyByte (g : SegmentId) (byte : Byte) (s : State) : State :=
  let x := s.segment g
  match x.outstanding with
  | none => s
  | some poll =>
    if x.unpacker.byteCount < Config.replyBytesLimit then
      putSegment g { x with unpacker := x.unpacker.take (s.pedestal poll.pedestal).cfg byte } s
    else s

def execPedestalReplyByte (seg : SegmentId) (byte : Byte) (s : State) : Host.Outcome State Fault Refusal :=
  .next (event (replyByte seg byte) s)

/-! ### The judgement (R82) -/

/-- Bytes of a whole reply, check byte included. -/
def PedestalKind.replyBytes (k : PedestalKind) : Nat := k.format.sum / 8

/-- The first outcome that applies. -/
def judge (c : PedestalCfg) (u : Unpacker) : PollOutcome :=
  if u.kindFixed then .kind
  else if u.fields.length < c.kind.format.length then .short
  else if c.kind.replyBytes < u.byteCount then .long
  else if u.byteSum ≠ 0 then .check
  else .valid

/-! ### A valid reply (R86 to R92) -/

/-- What a reply says of a socket: its reported states and its packed energy. -/
structure SocketReport where
  reported : Reported
  energy : Nat
deriving DecidableEq, Repr

/-- What a reply says of a tap: its valve and its packed water. -/
structure TapReport where
  valve : Bool
  water : Nat
deriving DecidableEq, Repr

/-- One field of a reply. -/
def fieldAt (fields : List Nat) (i : Nat) : Nat := fields.getD i 0

/-- The block of a socket: five fields after the three of the header and those of the sockets before it. -/
def socketReport (fields : List Nat) (i : Fin 2) : SocketReport :=
  let n := 3 + 5 * i.val
  { reported :=
      { relay := fieldAt fields n = 1, limit := if fieldAt fields (n + 1) = 1 then .l32 else .l63
        trip := fieldAt fields (n + 2) = 1, current := fieldAt fields (n + 3) }
    energy := fieldAt fields (n + 4) }

/-- The tap block, after the socket blocks. -/
def tapReport (k : PedestalKind) (fields : List Nat) : TapReport :=
  let n := 3 + 5 * k.sockets.length
  { valve := fieldAt fields n = 1, water := fieldAt fields (n + 1) }

def replyTag (fields : List Nat) : Fin 4 := Fin.ofNat 4 (fieldAt fields 2)

/-- A reported socket with its clear-trip pending cleared when its trip is clear (R87, R88). -/
def Pedestal.reportSocket (fields : List Nat) (p : Pedestal) (i : Fin 2) : Pedestal :=
  let r := (socketReport fields i).reported
  let d := p.desired.get i
  { p with reported := p.reported.put i r
           desired := p.desired.put i { d with clearTrip := d.clearTrip && r.trip } }

/-- The reported valve, for a kind with a tap (R88). -/
def Pedestal.reportTap (fields : List Nat) (p : Pedestal) : Pedestal :=
  if p.cfg.kind.hasTap then { p with reportedValve := (tapReport p.cfg.kind fields).valve } else p

/-- Step 1 of R89. -/
def Pedestal.answered (fields : List Nat) (p : Pedestal) : Pedestal :=
  let q := (p.cfg.kind.sockets.foldl (Pedestal.reportSocket fields) p).reportTap fields
  { q with misses := 0, link := .online, lastOutcome := some .valid
           tag := some (replyTag fields), tagIdentity := p.cfg.identity }

/-- The reply is accounted: its tag is news (R86). -/
def accounted (p : Pedestal) (fields : List Nat) : Bool := p.tag ≠ some (replyTag fields)

/-- The deliveries of one socket, in the order of R89 step 2. Each is one change (log 5). -/
def deliverSocket (n : PedestalId) (isNews : Bool) (fields : List Nat) (i : Fin 2) (s : State) : State :=
  let r := socketReport fields i
  let k := socketAt n i
  let s1 := if isNews then energyDelta s k (unpack r.energy) s else s
  let s2 := if r.reported.trip then powerTrip s1 k s1 else s1
  powerAgreement s2 k s2

/-- The deliveries of the tap, in the order of R89 step 3. -/
def deliverTap (n : PedestalId) (isNews : Bool) (fields : List Nat) (s : State) : State :=
  let c := (s.pedestal n).cfg
  if c.kind.hasTap then
    let s1 := if isNews then waterDelta s n (unpack (tapReport c.kind fields).water) s else s
    valveAgreement s1 n s1
  else s

/-- A valid reply is handed on (R89). -/
def deliver (n : PedestalId) (fields : List Nat) (s : State) : State :=
  let p := s.pedestal n
  let isNews := accounted p fields
  let s1 := putPedestal s n (p.answered fields) s
  let s2 := if p.link = .offline then linkNotice .pedestalBack n s1 else s1
  let s3 := eachOf p.cfg.kind.sockets (deliverSocket n isNews fields) s2
  let s4 := deliverTap n isNews fields s3
  currentReport s4 n p.cfg.kind.sockets s4

/-- The segment after its poll is judged or abandoned. -/
def Segment.closed (x : Segment) : Segment := { x with outstanding := none }

/-- A reply of at least one byte is judged, at 2 ms of idle line or at its 16th byte (R82, R89). -/
def pedestalReply (g : SegmentId) (s : State) : State :=
  let x := s.segment g
  match x.outstanding with
  | none => s
  | some poll =>
    if x.unpacker.byteCount = 0 then s
    else
      let t := putSegment g x.closed s
      match judge (s.pedestal poll.pedestal).cfg x.unpacker with
      | .valid => deliver poll.pedestal x.unpacker.fields t
      | o => miss poll.pedestal o t

def execPedestalReply (seg : SegmentId) (s : State) : Host.Outcome State Fault Refusal :=
  .next (event (pedestalReply seg) s)

/-- The reply deadline expires with no byte received (R82). -/
def noReply (g : SegmentId) (s : State) : State :=
  let x := s.segment g
  match x.outstanding with
  | none => s
  | some poll =>
    if x.unpacker.byteCount = 0 then s |> putSegment g x.closed |> miss poll.pedestal .noReply else s

def execNoReply (seg : SegmentId) (s : State) : Host.Outcome State Fault Refusal := .next (event (noReply seg) s)

end Sys2Proof.Machine
end

