-- ==== Sys2Proof/Machine/Clock.lean ====
section
/-! DEFINITION. The Site Clock and the nightly rollover (04). -/

namespace Sys2Proof.Machine

/-! ### The start condition (R65) -/

/-- The clock is set and the current rollover date is later than the last completed one. -/
def rolloverDue (s : State) : Bool :=
  match s.lastRollover with
  | none => false
  | some d => s.clockSet && decide (d < rolloverDate s)

/-- The device states in which a rollover starts. -/
def DeviceState.trading : DeviceState → Bool
  | .opened => true
  | .holdover => true
  | .loading => false
  | .setup => false

/-- The test made at each event that can make the condition true: the rollover starts, or the pending flag is set. -/
def testRollover (s : State) : State :=
  if rolloverDue s then
    if s.device.trading && s.rollover.isNone then
      { s with rollover := some { date := rolloverDate s, cursor := 0, total := 0 }, rolloverPending := false }
    else { s with rolloverPending := true }
  else s

/-! ### SETCLOCK (R63, R64) -/

/-- The current rollover date under a date and time is not earlier than the last completed one. -/
def notBeforeLast (s : State) (hour : Nat) (t : Stamp) : Bool :=
  match s.lastRollover with
  | none => true
  | some d => decide (d ≤ rolloverDateAt hour t)

def setClockOwner (date : DateField) (time : TimeField) (s : State) : Answer :=
  match dateOf date, secondOf time with
  | some d, some t =>
    let now : Stamp := { date := d, time := t }
    if s.rollover.isSome then .error .busy
    else if !notBeforeLast s s.site.val.rolloverHour now then .error .range
    else
      let s1 := { s with clock := now, clockSet := true }
      let s2 := { s1 with lastRollover := some (s.lastRollover.getD (rolloverDate s1)) }
      done (testRollover s2) [dateItem (rolloverDate s1)]
  | _, _ => .error .range

def execSetClock (o : Origin) (date : DateField) (time : TimeField) (s : State) : Host.Outcome State Fault Refusal :=
  .next (portCommand (.setClock o date time) o portO .anyTime (setClockOwner date time) s)

/-! ### CLOCK_ADVANCE (R61) -/

/-- One second. At 2099-12-31 23:59:59 the clock holds its value (R61).
DESIGN CHOICE (log 10): the row at the stopped clock advances no time, and R65 names an advance as the event of its test; the model makes the test at that row too, so a date that is due while a rollover is in flight sets the pending flag there. -/
def execClockAdvance (s : State) : Host.Outcome State Fault Refusal :=
  .next (event (fun s => testRollover { s with clock := s.clock.tick }) s)

/-! ### ROLLOVER_STEP (R66 to R70) -/

/-- The reservation is overdue at date `day` (R69). -/
def reservationOverdue (s : State) (x : Account) (day : Int) : Bool :=
  match x.arrival with
  | none => false
  | some d => decide (d + s.site.val.graceDays < day)

/-- R69. -/
def expireReservation (b : State) (a : AccountId) (day : Int) (s : State) : State :=
  let x := s.account a
  match x.berth with
  | none => s
  | some n =>
    if reservationOverdue s x day then
      s |> releaseReservation b a n |> raise .reservationExpired { account := some a, berth := some n }
    else s

/-- OVERSTAY of R68. -/
def raiseOverstay (a : AccountId) (day : Int) (s : State) : State :=
  let x := s.account a
  match x.planned with
  | none => s
  | some d =>
    if d < day then raise .overstay { account := some a, berth := x.berth, value := some (day - d) } s else s

/-- The part for the account's state (R67 part 1). -/
def rolloverStatePart (b : State) (a : AccountId) (day : Int) (s : State) : State :=
  match (s.account a).state with
  | .berthed => s |> chargeNights b a day (bandOfRollover s) |> raiseOverstay a day
  | .reserved => expireReservation b a day s
  | .opened => s
  | .free => s

/-- The arrears part (R70). -/
def arrearsPart (b : State) (a : AccountId) (s : State) : State :=
  let x := s.account a
  if x.standing = .arrears then
    let nights := min (x.arrearsNights + 1) Config.arrearsLimit
    let t := putAccount b a { x with arrearsNights := nights } s
    if (s.classOf x).grace ≤ nights then toPower a (fun k => suspendPower b k .arrears) t else t
  else s

/-- The cents of night charges a step hands in (R68). -/
def stepCents (s : State) (a : AccountId) (day : Int) : Nat :=
  if (s.account a).state = .berthed then nightCents s a day (bandOfRollover s) else 0

/-- One step at account `a` for date `day` (R67); a FREE account, or one already stamped with the date, is passed. -/
def stepAccount (b : State) (a : AccountId) (day : Int) (s : State) : State :=
  let x := s.account a
  if x.state = .free ∨ x.lastStepped = some day then s
  else
    s |> rolloverStatePart b a day |> arrearsPart b a |> modAccount b a (fun y => { y with lastStepped := some day })

/-- The cents a step adds to the total: none where the step does nothing. -/
def stepTotal (s : State) (a : AccountId) (day : Int) : Nat :=
  if (s.account a).lastStepped = some day then 0 else stepCents s a day

def rolloverStep (s : State) : State :=
  match s.rollover with
  | none => s
  | some r =>
    match ident 512 r.cursor with
    | none => s
    | some a =>
      { stepAccount s a r.date s with
        rollover := some { r with cursor := r.cursor + 1, total := r.total + stepTotal s a r.date } }

def execRolloverStep (s : State) : Host.Outcome State Fault Refusal := .next (event rolloverStep s)

/-! ### ROLLOVER_COMPLETE (R71) -/

/-- The start condition is tested again in the same change; "the pending flag is then set, and the next rollover starts at once": in OPEN and HOLDOVER the start clears the flag, in SETUP it stays set. -/
def rolloverComplete (s : State) : State :=
  match s.rollover with
  | none => s
  | some r =>
    if r.cursor = 512 then
      { s with lastRollover := some r.date, rollover := none }
        |> raise .rolloverDone { value := some (r.total : Int) }
        |> testRollover
    else s

def execRolloverComplete (s : State) : Host.Outcome State Fault Refusal := .next (event rolloverComplete s)

end Sys2Proof.Machine
end

