-- ==== Sys2Proof/Machine/Views.lean ====
section
/-! DEFINITION. What a record shows: its fields by name, in the order of its table (R169, R187). The names of compound fields, and the edition standing before the pairs only, are log 7 and log 8. -/

namespace Sys2Proof.Machine

/-- A field of a record: its name and its value. -/
abbrev Shown := String × Atom

def Shown.item (x : Shown) : Item := .pair x.1 x.2

def shownItems (xs : List Shown) : List Item := xs.map Shown.item

def natAtom (n : Nat) : Atom := .num n
def intAtom (z : Int) : Atom := .num z
def flagAtom (b : Bool) : Atom := .word (yesNo b)
def dateAtom : Option Int → Atom := orAbsent .date

/-- An optional record number. -/
def linkAtom {k : Nat} : Option (Fin k) → Atom := orAbsent numAtom

/-- A list of record numbers. -/
def numsAtom {k : Nat} (xs : List (Fin k)) : Atom := .nums (xs.map Fin.val)

/-- The time of day of an expiry (log 8). -/
def expiryAtom : Option Stamp → Atom := orAbsent fun t => .time t.time

def stampAtom : Option Stamp → Atom := orAbsent .stamp

def limitAtom (l : Limit) : Atom :=
  match l with
  | .l32 => natAtom 32
  | .l63 => natAtom 63

/-- SET or CLEAR: a reported trip. -/
def tripAtom (b : Bool) : Atom := .word (if b then "SET" else "CLEAR")

def SiteCfg.shown (x : SiteCfg) : List Shown :=
  [ ("rollover_hour", natAtom x.rolloverHour), ("under_keel_clearance", natAtom x.clearance)
  , ("least_water", intAtom x.leastWater), ("reservation_grace_days", natAtom x.graceDays)
  , ("poll_interval", natAtom x.pollInterval) ]

def ClassCfg.shown (x : ClassCfg) : List Shown :=
  [ ("floor", intAtom x.floor), ("arrears_grace_nights", natAtom x.grace)
  , ("maximum_power_rating", natAtom x.maxRating.amps), ("fuel_on_account", flagAtom x.fuelOnAccount)
  , ("water_cap_per_session", natAtom x.waterCap)
  , ("revoke_credentials_at_departure", flagAtom x.revokeAtDeparture) ]

def Berth.shown (x : Berth) : List Shown :=
  [ ("state", .word x.state.word), ("pontoon", numAtom x.cfg.pontoon)
  , ("loa_minimum", natAtom x.cfg.loaMin), ("loa_maximum", natAtom x.cfg.loaMax)
  , ("beam_maximum", natAtom x.cfg.beamMax), ("alongside_flag", flagAtom x.cfg.alongside)
  , ("depth_at_datum", natAtom x.cfg.depth), ("socket", linkAtom x.cfg.socket), ("tap", linkAtom x.cfg.tap)
  , ("holder", linkAtom x.holder) ]

def Pedestal.shown (x : Pedestal) : List Shown :=
  [ ("installed", flagAtom x.cfg.installed), ("segment", numAtom x.cfg.segment)
  , ("address", numAtom x.cfg.address), ("kind", .word x.cfg.kind.word), ("feeder", numAtom x.cfg.feeder)
  , ("rating_a", natAtom (x.cfg.ratings.get 0).amps), ("rating_b", natAtom (x.cfg.ratings.get 1).amps)
  , ("link_state", .word x.link.word)
  , ("desired_relay_a", .word (onOff (x.desired.get 0).relay)), ("desired_limit_a", limitAtom (x.desired.get 0).limit)
  , ("clear_trip_pending_a", flagAtom (x.desired.get 0).clearTrip)
  , ("desired_relay_b", .word (onOff (x.desired.get 1).relay)), ("desired_limit_b", limitAtom (x.desired.get 1).limit)
  , ("clear_trip_pending_b", flagAtom (x.desired.get 1).clearTrip)
  , ("desired_valve", .word (valveWord x.desiredValve))
  , ("stray_energy", natAtom x.strayEnergy), ("stray_water", natAtom x.strayWater)
  , ("consecutive_misses", natAtom x.misses), ("last_accounted_tag", linkAtom x.tag)
  , ("reported_relay_a", .word (onOff (x.reported.get 0).relay)), ("reported_limit_a", limitAtom (x.reported.get 0).limit)
  , ("reported_trip_a", tripAtom (x.reported.get 0).trip), ("reported_current_a", natAtom (x.reported.get 0).current)
  , ("reported_relay_b", .word (onOff (x.reported.get 1).relay)), ("reported_limit_b", limitAtom (x.reported.get 1).limit)
  , ("reported_trip_b", tripAtom (x.reported.get 1).trip), ("reported_current_b", natAtom (x.reported.get 1).current)
  , ("reported_valve", .word (valveWord x.reportedValve))
  , ("last_outcome", orAbsent (fun o => .word (PollOutcome.word o)) x.lastOutcome) ]

/-- The feeder's record. DESIGN CHOICE (log 38): the cap is derived from the rating and the diversity shown beside it, so after a PUT of either the holding record shows the cap those would give. -/
def Feeder.shown (x : Feeder) : List Shown :=
  [ ("rating", natAtom x.cfg.rating), ("diversity", natAtom x.cfg.diversity), ("cap", natAtom x.cfg.cap)
  , ("held_sum", natAtom x.heldSum), ("wait_list", numsAtom x.waitList), ("relief_hold", expiryAtom x.relief)
  , ("measured_sum", natAtom x.measured), ("overload_count", natAtom x.overload) ]

def Order.word : Order → String
  | .cancel => "CANCEL"
  | .authorise _ _ => "AUTHORISE"
  | .stop _ => "STOP"

/-- The sale number an order carries. -/
def Order.sale? : Order → Option (BitVec 16)
  | .cancel => none
  | .authorise n _ => some n
  | .stop n => some n

/-- The limit an order carries. -/
def Order.limit? : Order → Option Nat
  | .cancel => none
  | .authorise _ l => some l
  | .stop _ => none

def saleNumberAtom : Option (BitVec 16) → Atom := orAbsent fun n => natAtom n.toNat

def PumpReading.shown (r : Option PumpReading) : List Shown :=
  [ ("reported_nozzle", orAbsent (fun x => .word (if x.nozzleUp then "UP" else "DOWN")) r)
  , ("reported_running", orAbsent (fun x => flagAtom x.running) r)
  , ("reported_fault", orAbsent (fun x => flagAtom x.fault) r)
  , ("reported_delivered", orAbsent (fun x => natAtom x.delivered) r)
  , ("reported_sale_held", saleNumberAtom (r.bind PumpReading.held)) ]

def Pump.shown (x : Pump) : List Shown :=
  [ ("installed", flagAtom x.cfg.installed), ("product", numAtom x.cfg.product)
  , ("maximum_per_sale", natAtom x.cfg.maxPerSale)
  , ("link_state", .word (if x.online then "ONLINE" else "OFFLINE")), ("consecutive_misses", natAtom x.misses)
  , ("order", .word x.order.word), ("order_sale_number", saleNumberAtom x.order.sale?)
  , ("order_limit", orAbsent natAtom x.order.limit?)
  , ("open_sale", saleNumberAtom (x.sale.map Sale.number)) ]
  ++ PumpReading.shown x.readings
  ++ [("last_outcome", orAbsent (fun o => .word (PumpOutcome.word o)) x.lastOutcome)]

def Tank.shown (x : Tank) : List Shown :=
  [ ("capacity", natAtom x.cfg.capacity), ("reserve_floor", natAtom x.cfg.reserve)
  , ("low_threshold", natAtom x.cfg.low), ("book", natAtom x.book), ("holds", natAtom x.holds)
  , ("low_flag", flagAtom x.lowFlag), ("discrepancy_total", natAtom x.discrepancy) ]

/-- The account of an ACCOUNT sale. -/
def Buyer.account? : Buyer → Option AccountId
  | .account a => some a
  | .prepay _ => none

/-- The paid amount of a PREPAY sale. -/
def Buyer.paid? : Buyer → Option Nat
  | .account _ => none
  | .prepay p => some p

def Buyer.word : Buyer → String
  | .account _ => "ACCOUNT"
  | .prepay _ => "PREPAY"

def presetKindAtom : Option Preset → Atom
  | none => .absent
  | some (.volume _) => .word "VOLUME"
  | some (.amount _) => .word "AMOUNT"

def presetQuantityAtom : Option Preset → Atom
  | none => .absent
  | some (.volume n) => natAtom n
  | some (.amount n) => natAtom n

def Sale.shown (x : Sale) : List Shown :=
  [ ("sale_number", natAtom x.number.toNat), ("pump", numAtom x.pump), ("product", numAtom x.product)
  , ("kind", .word x.buyer.word), ("account", linkAtom x.buyer.account?)
  , ("paid_amount", orAbsent natAtom x.buyer.paid?)
  , ("preset_kind", presetKindAtom x.preset), ("preset_quantity", presetQuantityAtom x.preset)
  , ("limit", natAtom x.limit), ("volume_hold", natAtom x.volumeHold)
  , ("money_hold", orAbsent (fun _ => natAtom x.moneyHold) x.buyer.account?)
  , ("rate_at_sale", natAtom x.rate), ("delivered", natAtom x.delivered), ("charge", natAtom x.charge)
  , ("refund", orAbsent (fun _ => natAtom x.refund) x.buyer.paid?)
  , ("start_time", .stamp x.start), ("lift_time", stampAtom x.lift), ("end_time", stampAtom x.finish)
  , ("state", .word x.state.word), ("stop_requested", orAbsent (fun r => .word (StopReason.word r)) x.stop)
  , ("stop_misses", natAtom x.stopMisses), ("end_reason", orAbsent (fun r => .word (SaleEnd.word r)) x.endReason)
  , ("over_run_flag", flagAtom x.overRun) ]

def Parity.senseWord (x : Parity) : String := if x.odd then "ODD" else "EVEN"

def FormatCfg.shown (x : FormatCfg) : List Shown :=
  let p := x.parity.get 0
  let q := x.parity.get 1
  [ ("enabled", flagAtom x.enabled), ("length", natAtom x.length)
  , ("site_position", natAtom x.sitePos), ("site_length", natAtom x.siteLen)
  , ("id_position", natAtom x.idPos), ("id_length", natAtom x.idLen)
  , ("parity_present_1", flagAtom p.present), ("parity_sense_1", .word p.senseWord)
  , ("parity_bit_1", natAtom p.bit), ("parity_start_1", natAtom p.start), ("parity_length_1", natAtom p.length)
  , ("parity_present_2", flagAtom q.present), ("parity_sense_2", .word q.senseWord)
  , ("parity_bit_2", natAtom q.bit), ("parity_start_2", natAtom q.start), ("parity_length_2", natAtom q.length) ]

def AccessCfg.shown (x : AccessCfg) : List Shown :=
  [ ("allowed", flagAtom x.allowed), ("window_start_hour", natAtom x.startHour)
  , ("window_end_hour", natAtom x.endHour), ("own_pontoon_only", flagAtom x.ownPontoonOnly)
  , ("allowed_in_arrears", flagAtom x.inArrears) ]

def Gate.shown (x : Gate) : List Shown :=
  [ ("kind", .word x.cfg.kind.word), ("pontoon", numAtom x.cfg.pontoon)
  , ("mask", natAtom x.cfg.mask.toNat), ("page", natAtom x.cfg.page.toNat)
  , ("passback", .word (onOff x.cfg.passback)), ("release_time", natAtom x.cfg.release)
  , ("mode", .word (gateModeWord x.cfg.mode)), ("lock_output", .word (lockWord x.released))
  , ("release_expiry", expiryAtom x.expiry) ]

def Credential.shown (x : Credential) : List Shown :=
  [ ("state", .word x.state.word), ("site_code", natAtom x.key.site), ("id", natAtom x.key.id)
  , ("kind", .word x.kind.word), ("account", linkAtom x.account), ("access_class", natAtom x.accessClass.toNat)
  , ("inside_flag", flagAtom x.inside), ("last_gate", linkAtom x.lastGate), ("last_time", stampAtom x.lastTime) ]

/-- The fields of an account.
DESIGN CHOICE (log 8): the six residues stand in one field, as a list in the order of the services. -/
def Account.shown (x : Account) : List Shown :=
  [ ("state", .word x.state.word), ("name", .word x.name), ("class", numAtom x.cls)
  , ("loa", natAtom x.loa), ("beam", natAtom x.beam), ("draft", natAtom x.draft)
  , ("berth", linkAtom x.berth), ("arrival_date", dateAtom x.arrival), ("planned_departure", dateAtom x.planned)
  , ("last_charged_date", dateAtom x.lastCharged), ("nights_this_stay", natAtom x.nights)
  , ("last_stepped_date", dateAtom x.lastStepped), ("balance", intAtom x.balance), ("holds", natAtom x.holds)
  , ("standing", .word x.standing.word), ("barred_flag", flagAtom x.barredFlag)
  , ("arrears_nights", natAtom x.arrearsNights), ("clamped_flag", flagAtom x.clamped)
  , ("residues", .nums x.residues.toList), ("credentials", numsAtom x.credentials)
  , ("power_session", linkAtom x.power), ("water_session", linkAtom x.water), ("open_sale", linkAtom x.sale) ]

def PowerSession.shown (x : PowerSession) : List Shown :=
  [ ("state", .word x.state.word), ("account", numAtom x.account), ("wish", natAtom x.wish.amps)
  , ("fallback", if x.fallback32 then natAtom 32 else .absent), ("granted_rating", natAtom x.granted)
  , ("held_amps", natAtom x.held), ("grant_stamp", natAtom x.grantStamp), ("last_current", natAtom x.lastCurrent)
  , ("session_energy", natAtom x.energy), ("start_time", .stamp x.start)
  , ("suspension_cause", orAbsent (fun c => .word (Cause.word c)) x.cause)
  , ("shed_flag", flagAtom x.shed), ("stepped_flag", flagAtom x.stepped)
  , ("confirm_misses", natAtom x.confirmMisses), ("fault_flag", flagAtom x.fault)
  , ("close_reason", orAbsent (fun r => .word (PowerEnd.word r)) x.closeReason) ]

def WaterSession.shown (x : WaterSession) : List Shown :=
  [ ("state", .word x.state.word), ("account", numAtom x.account), ("berth", numAtom x.berth)
  , ("volume_this_session", natAtom x.volume), ("confirm_misses", natAtom x.confirmMisses)
  , ("fault_flag", flagAtom x.fault), ("close_reason", orAbsent (fun r => .word (WaterEnd.word r)) x.closeReason) ]

/-- The credential index of a passage. -/
def Passer.cred? : Passer → Option CredId
  | .credential c => some c
  | .key _ => none
  | .nobody => none

/-- The key of a passage. -/
def Passer.key? : Passer → Option Key
  | .credential _ => none
  | .key k => some k
  | .nobody => none

def Passage.shown (x : Passage) : List Shown :=
  [ ("date_and_time", .stamp x.at_), ("reader", numAtom x.reader), ("gate", numAtom x.gate)
  , ("result_word", .word x.result.word), ("credential_index", linkAtom x.passer.cred?)
  , ("site_code", orAbsent (fun k => natAtom (Key.site k)) x.passer.key?)
  , ("id", orAbsent (fun k => natAtom (Key.id k)) x.passer.key?) ]

/-- "A POWER or WATER entry whose slot holds no session shows the state NONE" (R169). -/
def emptySlotShown : List Shown := [("state", .absent)]

/-- Every field an entry shows. -/
def Entry.shown : Entry → List Shown
  | .site x => x.val.shown
  | .cls x => x.val.shown
  | .rate x => [("rate", natAtom x.val)]
  | .hourband x => [("band", numAtom x.val)]
  | .berth x => x.shown
  | .pedestal x => x.shown
  | .feeder x => x.shown
  | .pump x => x.shown
  | .tank x => x.shown
  | .format x => x.val.shown
  | .access x => x.val.shown
  | .gate x => x.shown
  | .level x => [("level", numAtom x.val)]
  | .port x => [("threshold", natAtom x.val)]
  | .cred x => x.shown
  | .account x => x.shown
  | .power none => emptySlotShown
  | .power (some x) => x.shown
  | .water none => emptySlotShown
  | .water (some x) => x.shown
  | .sale x => x.shown
  | .passage x => x.shown

/-- The edition an entry carries; the read-only tables carry none (R169). -/
def Entry.edition? : Entry → Option Edition
  | .site x => some x.edition
  | .cls x => some x.edition
  | .rate x => some x.edition
  | .hourband x => some x.edition
  | .berth x => some x.edition
  | .pedestal x => some x.edition
  | .feeder x => some x.edition
  | .pump x => some x.edition
  | .tank x => some x.edition
  | .format x => some x.edition
  | .access x => some x.edition
  | .gate x => some x.edition
  | .level x => some x.edition
  | .port x => some x.edition
  | .cred x => some x.edition
  | .account x => some x.edition
  | .power _ => none
  | .water _ => none
  | .sale _ => none
  | .passage _ => none

def editionAtom : Option Edition → Atom := orAbsent fun e => natAtom e.toNat

end Sys2Proof.Machine
end

