-- ==== Sys2Proof/Machine/Fuel.lean ====
section
/-! DEFINITION. The Fuel Dock Controller (07): selling, the pump line, sale progress, the end of a sale, tank commands. -/

namespace Sys2Proof.Machine

/-! ### Tanks (R124) -/

/-- A change at a tank ends with the evaluation of its low flag. -/
def settleLow (b : State) (t : ProductId) (x : Tank) (s : State) : State :=
  let u := putTank b t x.evaluated s
  if x.raisesLow then raise .tankLow { value := some (x.available : Int), reason := some (.product t) } u else u

/-- TANK_DISCREPANCY (R141). DESIGN CHOICE (log 34): at a dip (R143) and at the clamp of a warm start (R146) it has the same content: the amount as its value, the product as its reason. -/
def discrepancyNotice (t : ProductId) (amount : Nat) (s : State) : State :=
  raise .tankDiscrepancy { value := some (amount : Int), reason := some (.product t) } s

/-! ### SELL (R126 to R128) -/

/-- A range of whole numbers. -/
def between (lo hi n : Nat) : Bool := lo ≤ n && n ≤ hi

/-- The range of a preset (R126). -/
def presetInRange : Option Preset → Bool
  | none => true
  | some (.volume v) => between 1 200000 v
  | some (.amount c) => between 1 9999999 c

/-- The buyer of a SELL, when the account or the paid amount is in range. -/
def buyerOf : SellKind → Option Buyer
  | .account n => (ident 512 n).map Buyer.account
  | .prepay c => if between 100 500000 c then some (.prepay c) else none

/-- The pump's last valid reply reported a fault. -/
def Pump.reportsFault (x : Pump) : Bool :=
  match x.readings with
  | none => false
  | some r => r.fault

/-- The pump can take a sale: installed, ONLINE, no open sale, no fault reported. -/
def Pump.ready (x : Pump) : Bool := x.cfg.installed && x.online && x.sale.isNone && !x.reportsFault

/-- The rate of a sale: at the account's class, or at class 0 for PREPAY (R32, R34). -/
def saleRate (s : State) (buyer : Buyer) (p : ProductId) : Nat :=
  match buyer with
  | .account a => rateOf s (s.account a).cls (fuelService p) (bandNow s)
  | .prepay _ => rateOf s 0 (fuelService p) (bandNow s)

/-- The checks of R126 on the buyer, in their order; none when they pass. -/
def buyerRefusal (s : State) (buyer : Buyer) (rate : Nat) : Option Refuse :=
  match buyer with
  | .account a =>
    let x := s.account a
    if x.state = .free then some .state
    else if x.standing ≠ .good then some .standing
    else if !(s.classOf x).fuelOnAccount then some .standing
    else if x.sale ≠ none then some .saleOpen
    else if affordableAmount s x ≤ 0 then some .funds
    else none
  | .prepay _ => if rate = 0 then some .state else none

/-- The terms of R127 that may be absent: the preset, and what the buyer's money buys. -/
def saleTerms (s : State) (buyer : Buyer) (preset : Option Preset) (rate : Nat) : List (Option Nat) :=
  [ match preset with
    | none => none
    | some (.volume v) => some v
    | some (.amount c) => volumeFor c rate
  , match buyer with
    | .account a => volumeFor (affordableAmount s (s.account a)).toNat rate
    | .prepay paid => volumeFor paid rate ]

/-- The limit of a sale (R127). -/
def saleLimit (s : State) (p : Pump) (buyer : Buyer) (preset : Option Preset) (rate : Nat) : Nat :=
  min (leastOf (s.tank p.cfg.product).sellable (saleTerms s buyer preset rate)) p.cfg.maxPerSale

/-- The sale record SELL makes (R128). DESIGN CHOICE (log 35): the refund and the stop misses, which R128 does not name, begin at 0. -/
def newSale (s : State) (n : PumpId) (buyer : Buyer) (preset : Option Preset) (rate limit : Nat) : Sale :=
  { number := s.saleCounter, pump := n, product := (s.pump n).cfg.product, buyer := buyer, preset := preset
    limit := limit, volumeHold := limit
    moneyHold := match buyer with
      | .account _ => moneyHoldFor limit rate
      | .prepay _ => 0
    rate := rate, delivered := 0, charge := 0, refund := 0, start := s.clock, lift := none, finish := none
    state := .authorised, stop := none, stopMisses := 0, endReason := none, overRun := false }

/-- Step 3 of R128. -/
def holdMoney (b : State) (buyer : Buyer) (n : PumpId) (cents : Nat) (s : State) : State :=
  match buyer with
  | .account a => modAccount b a (fun x => { x with holds := x.holds + cents, sale := some n }) s
  | .prepay _ => s

/-- The effect of a SELL that passes its checks (R128). -/
def authorise (b : State) (n : PumpId) (x : Sale) (s : State) : State :=
  let tank := s.tank x.product
  { s with saleCounter := s.saleCounter + 1 }
    |> settleLow b x.product { tank with holds := tank.holds + x.volumeHold }
    |> holdMoney b x.buyer n x.moneyHold
    |> putPump b n { s.pump n with
         sale := some x, order := .authorise x.number x.limit, timer := some (x.start.plus Config.noLiftSeconds) }

def sellOwner (pump : Nat) (kind : SellKind) (preset : Option Preset) (s : State) : Answer :=
  match ident 4 pump, buyerOf kind, presetInRange preset with
  | some n, some buyer, true =>
    let p := s.pump n
    let rate := saleRate s buyer p.cfg.product
    let limit := saleLimit s p buyer preset rate
    if s.device ≠ .opened then .error .holdover
    else if !p.ready then .error .state
    else
      match buyerRefusal s buyer rate with
      | some r => .error r
      | none =>
        if limit < Config.leastSale then .error .limitLow
        else
          done (authorise s n (newSale s n buyer preset rate limit) s)
            [numItem s.saleCounter.toNat, numItem limit]
  | _, _, _ => .error .range

def execSell (o : Origin) (pump : Nat) (kind : SellKind) (preset : Option Preset) (s : State) :
    Host.Outcome State Fault Refusal :=
  .next (portCommand (.sell o pump kind preset) o portsOF .trade (sellOwner pump kind preset) s)

/-! ### The end of a sale (R140 to R142) -/

/-- The charge and new residue of a sale's end; a PREPAY sale has no residue (R36, R37). -/
def saleCharge (s : State) (x : Sale) : Nat × Nat :=
  match x.buyer with
  | .account a => accountCharge s a (fuelService x.product) x.delivered (bandNow s)
  | .prepay paid => (prepayCharge x.delivered (saleRate s x.buyer x.product) paid, 0)

/-- The record of an ended sale (R140 steps 1 to 3). -/
def endedSale (s : State) (x : Sale) (why : SaleEnd) : Sale :=
  let cents := (saleCharge s x).1
  { x with
    state := .ended, endReason := some why, finish := some s.clock, charge := cents
    refund := match x.buyer with
      | .account _ => 0
      | .prepay paid => paid - cents
    overRun := x.overRun || decide (x.limit < x.delivered) }

/-- The book after a delivery: not below the holds that remain (R141). -/
def settledBook (book holds delivered : Nat) : Nat := max (book - delivered) holds

/-- What the book had to be raised by (R141 step 3). -/
def shortfallOf (book holds delivered : Nat) : Nat := holds + delivered - book

/-- The settlement of the tank (R141). -/
def settleTank (b : State) (x : Sale) (s : State) : State :=
  let t := s.tank x.product
  let holds := t.holds - x.volumeHold
  let short := shortfallOf t.book holds x.delivered
  let y : Tank := { t with holds := holds, book := settledBook t.book holds x.delivered
                           discrepancy := addCounter t.discrepancy short }
  let u := if short ≠ 0 then discrepancyNotice x.product short s else s
  settleLow b x.product y u

/-- Step 5 of R140: the hold and the link go first, then the charge is applied. -/
def settleBuyer (b : State) (x : Sale) (cents residue : Nat) (s : State) : State :=
  match x.buyer with
  | .account a =>
    s |> modAccount b a (fun y => { y with holds := y.holds - x.moneyHold, sale := none })
      |> applyCharge b a (fuelService x.product) cents residue
  | .prepay _ => s

/-- The newest entry joins a log of bounded room; the oldest leaves a full one (R142, R162). -/
def logAfter {α : Type} (room : Nat) (log : List α) (x : α) : List α :=
  if log.length < room then log ++ [x] else log.drop (log.length + 1 - room) ++ [x]

/-- The open sale `x` of pump `n` ends (R140). -/
def endSale (b : State) (n : PumpId) (x : Sale) (why : SaleEnd) (s : State) : State :=
  let c := saleCharge s x
  let y := endedSale s x why
  let t := s |> settleTank b x |> settleBuyer b x c.1 c.2
  { putPump b n { t.pump n with sale := none, order := .cancel, timer := none } t with
    saleLog := logAfter Config.saleLogRoom t.saleLog y }
    |> raise .saleEnded
        { account := x.buyer.account?, pump := some n, value := some (c.1 : Int), reason := some (.saleEnd why) }

/-! ### The pump line (R131, R132, R188) -/

/-- The installed pumps, ascending. -/
def installedPumps (s : State) : List PumpId := (List.finRange 4).filter fun n => (s.pump n).cfg.installed

/-- The next installed pump after the last one polled, wrapping to the lowest. -/
def nextPump (s : State) : Option PumpId :=
  match (installedPumps s).find? fun n => match s.pumpLine.last with
    | none => true
    | some l => l < n with
  | some n => some n
  | none => (installedPumps s).head?

def Order.code : Order → Nat
  | .cancel => 0
  | .authorise _ _ => 1
  | .stop _ => 2

/-- The seven bytes of a pump poll. -/
def pumpFrame (n : PumpId) (order : Order) : List Byte :=
  withCheck (natToBytes 1 (16 * order.code + n.val)
    ++ natToBytes 2 ((order.sale?.map BitVec.toNat).getD 0) ++ natToBytes 3 (order.limit?.getD 0))

/-- A due poll is sent. It does nothing where no poll is sent, or while one is outstanding: "one poll at a time". -/
def pumpPoll (s : State) : State :=
  if s.device.polls && s.pumpLine.outstanding.isNone then
    match nextPump s with
    | none => s
    | some n => { s with pumpLine := { last := some n, outstanding := some n, sent := pumpFrame n (s.pump n).order } }
  else s

def execPumpPoll (s : State) : Host.Outcome State Fault Refusal := .next (event pumpPoll s)

/-! ### Pump replies (R131, R133, R134) -/

/-- Bit `i` of a byte, bit 0 the least significant. -/
def bitOf (b : Byte) (i : Nat) : Bool := b.toNat.testBit i

/-- What a reply of eight bytes says. -/
def readingOf (flags : Byte) (number delivered : Nat) : PumpReading :=
  { nozzleUp := bitOf flags 6, running := bitOf flags 5, fault := bitOf flags 4, delivered := delivered
    held := if bitOf flags 7 then some (BitVec.ofNat 16 number) else none }

/-- The judgement of the bytes received from pump `n`: the reading, or the miss. -/
def judgePump (n : PumpId) (bytes : List Byte) : Except PumpOutcome PumpReading :=
  match bytes with
  | [] => .error .noReply
  | [b0, b1, b2, b3, b4, b5, b6, _] =>
    if byteSum bytes = 0 ∧ b0.toNat % 16 = n.val then
      .ok (readingOf b1 (bytesToNat [b2, b3]) (bytesToNat [b4, b5, b6]))
    else .error .badFrame
  | _ => .error .badFrame

/-- A miss (R133). -/
def pumpMiss (n : PumpId) (o : PumpOutcome) (s : State) : State :=
  let p := s.pump n
  let m := min (p.misses + 1) Config.missLimit
  let lost := p.online && decide (m = Config.missLimit)
  let t := putPump s n { p with misses := m, lastOutcome := some o, online := p.online && !lost } s
  if lost then
    let u := raise .pumpOffline { pump := some n } t
    match p.sale with
    | none => u
    | some x => endSale s n x .pumpLost u
  else t

/-! ### Sale progress (R135 to R137) -/

/-- What a reply makes of an open sale: its record, with an end reason when it ends. `timer` says whether the stall timer starts afresh. -/
structure Progress where
  sale : Sale
  ends : Option SaleEnd
  stall : Bool
deriving DecidableEq, Repr

def Progress.kept (x : Sale) : Progress := { sale := x, ends := none, stall := false }

def Progress.ending (x : Sale) (why : SaleEnd) : Progress := { sale := x, ends := some why, stall := false }

/-- The reply holds the sale. -/
def holdsSale (x : Sale) (r : PumpReading) : Bool := r.held = some x.number

/-- The end reason of a nozzle-down (R136). -/
def nozzleDownReason (x : Sale) : SaleEnd := if x.limit ≤ x.delivered then .limitReached else .nozzleDown

/-- AUTHORISED (R135). -/
def progressAuthorised (now : Stamp) (x : Sale) (r : PumpReading) : Progress :=
  if !holdsSale x r then .kept x
  else if r.fault then .ending { x with delivered := 0 } .pumpFault
  else if r.nozzleUp || 0 < r.delivered then
    let y := { x with state := .delivering, lift := some now, delivered := r.delivered }
    if r.nozzleUp then { sale := y, ends := none, stall := true } else .ending y (nozzleDownReason y)
  else .kept x

/-- DELIVERING with no stop requested (R136). -/
def progressDelivering (x : Sale) (r : PumpReading) : Progress :=
  if !holdsSale x r then .ending x .pumpFault
  else if r.fault || r.delivered < x.delivered then .ending x .pumpFault
  else
    let y := { x with delivered := r.delivered }
    if r.nozzleUp then { sale := y, ends := none, stall := x.delivered < r.delivered }
    else .ending y (nozzleDownReason y)

def StopReason.saleEnd : StopReason → SaleEnd
  | .stopped => .stopped
  | .stalled => .stalled

/-- DELIVERING with a stop requested (R137). -/
def progressStopping (x : Sale) (stop : StopReason) (r : PumpReading) : Progress :=
  if !holdsSale x r then .ending x stop.saleEnd
  else if r.fault || r.delivered < x.delivered then .ending x .pumpFault
  else
    let y := { x with delivered := r.delivered }
    if !r.running then .ending y stop.saleEnd
    else
      let z := { y with stopMisses := min (y.stopMisses + 1) Config.missLimit }
      if z.stopMisses = Config.missLimit then .ending z .pumpFault else .kept z

/-- A valid reply applied to an open sale, by its state. -/
def progress (now : Stamp) (x : Sale) (r : PumpReading) : Progress :=
  match x.state, x.stop with
  | .authorised, _ => progressAuthorised now x r
  | .delivering, none => progressDelivering x r
  | .delivering, some stop => progressStopping x stop r
  | .ended, _ => .kept x

/-- The timer after a reply that leaves the sale open. -/
def timerAfter (now : Stamp) (old : Option Stamp) (p : Progress) : Option Stamp :=
  if p.stall then some (now.plus Config.stallSeconds) else old

/-- A valid reply (R133, R134). -/
def pumpAnswer (n : PumpId) (r : PumpReading) (s : State) : State :=
  let p := { s.pump n with readings := some r, misses := 0, online := true, lastOutcome := some .valid }
  match p.sale with
  | none => putPump s n p s
  | some x =>
    let g := progress s.clock x r
    match g.ends with
    | none => putPump s n { p with sale := some g.sale, timer := timerAfter s.clock p.timer g } s
    | some why => s |> putPump s n { p with sale := some g.sale } |> endSale s n g.sale why

/-- The reply deadline: the bytes received are judged. -/
def pumpReply (bytes : List Byte) (s : State) : State :=
  match s.pumpLine.outstanding with
  | none => s
  | some n =>
    let t := { s with pumpLine := { s.pumpLine with outstanding := none } }
    match judgePump n bytes with
    | .error o => pumpMiss n o t
    | .ok r => pumpAnswer n r t

def execPumpReply (bytes : List Byte) (s : State) : Host.Outcome State Fault Refusal :=
  .next (event (pumpReply bytes) s)

/-! ### Timers (R138) -/

/-- The no-lift timer: it runs while the sale is AUTHORISED. In LOADING the sale waits for its end RESTART (log 4). -/
def noLiftExpiry (n : PumpId) (s : State) : State :=
  match (s.pump n).sale with
  | none => s
  | some x =>
    if s.device ≠ .loading ∧ x.state = .authorised then endSale s n { x with delivered := 0 } .noLift s else s

def execNoLiftTimerExpiry (pump : PumpId) (s : State) : Host.Outcome State Fault Refusal :=
  .next (event (noLiftExpiry pump) s)

/-- A stop is requested of the DELIVERING sale `x`. -/
def requestStop (b : State) (n : PumpId) (x : Sale) (why : StopReason) (s : State) : State :=
  putPump b n { s.pump n with
    sale := some { x with stop := some why, stopMisses := 0 }, order := .stop x.number, timer := none } s

/-- The stall timer: it runs while the sale is DELIVERING with no stop requested. -/
def stallExpiry (n : PumpId) (s : State) : State :=
  match (s.pump n).sale with
  | none => s
  | some x =>
    if s.device ≠ .loading ∧ x.state = .delivering ∧ x.stop = none then requestStop s n x .stalled s else s

def execStallTimerExpiry (pump : PumpId) (s : State) : Host.Outcome State Fault Refusal :=
  .next (event (stallExpiry pump) s)

/-! ### STOP_SALE (R139) -/

def stopSaleThis (n : PumpId) (s : State) : Answer :=
  match (s.pump n).sale with
  | none => .error .state
  | some x =>
    match x.state, x.stop with
    | .delivering, none => done (requestStop s n x .stopped s) [wordItem "STOPPING"]
    | .delivering, some _ => done s [wordItem "STOPPING"]
    | _, _ => done (endSale s n { x with delivered := 0 } .cancelled s) [wordItem "ENDED"]

def stopSaleOwner (pump : Nat) (s : State) : Answer :=
  match ident 4 pump with
  | none => .error .range
  | some n => stopSaleThis n s

def execStopSale (o : Origin) (pump : Nat) (s : State) : Host.Outcome State Fault Refusal :=
  .next (portCommand (.stopSale o pump) o portsOF .trade (stopSaleOwner pump) s)

/-! ### SALE (R142) -/

/-- The open sales, in pump order. -/
def openSales (s : State) : List Sale := (List.finRange 4).filterMap fun n => (s.pump n).sale

/-- The open sale with a number, else the newest log entry with it. -/
def findSale (s : State) (number : Nat) : Option Sale :=
  match (openSales s).find? fun x => x.number.toNat = number with
  | some x => some x
  | none => s.saleLog.reverse.find? fun x => x.number.toNat = number

def saleOwner (number : Nat) (s : State) : Answer :=
  if 65535 < number then .error .range
  else
    match findSale s number with
    | none => .error .noEntry
    | some x => done s (shownItems x.shown)

def execSale (o : Origin) (number : Nat) (s : State) : Host.Outcome State Fault Refusal :=
  .next (portCommand (.sale o number) o portsOF .anyTime (saleOwner number) s)

/-! ### TANK_DIP (R143) and TANK_FILL (R144) -/

/-- R143. What its TANK_DISCREPANCY carries beside the amount is log 34. -/
def dipThis (t : ProductId) (volume : Nat) (s : State) : Answer :=
  let x := s.tank t
  if x.cfg.capacity < volume then .error .range
  else
    let book := max volume x.holds
    let raised := x.holds - volume
    let y : Tank := { x with book := book, discrepancy := addCounter x.discrepancy raised }
    let u := if raised ≠ 0 then discrepancyNotice t raised s else s
    done (settleLow s t y u)
      (intItem ((book : Int) - x.book) :: (if raised ≠ 0 then [wordItem "RAISED"] else []))

def tankDipOwner (product volume : Nat) (s : State) : Answer :=
  match ident 2 product with
  | none => .error .range
  | some t => dipThis t volume s

def execTankDip (o : Origin) (product volume : Nat) (s : State) : Host.Outcome State Fault Refusal :=
  .next (portCommand (.tankDip o product volume) o portsOF .anyTime (tankDipOwner product volume) s)

def fillThis (t : ProductId) (added : Nat) (s : State) : Answer :=
  let x := s.tank t
  let book := min (x.book + added) x.cfg.capacity
  done (settleLow s t { x with book := book } s) [numItem book, numItem (x.book + added - book)]

def tankFillOwner (product added : Nat) (s : State) : Answer :=
  match ident 2 product, between 1 10000000 added with
  | some t, true => fillThis t added s
  | _, _ => .error .range

def execTankFill (o : Origin) (product added : Nat) (s : State) : Host.Outcome State Fault Refusal :=
  .next (portCommand (.tankFill o product added) o portsOF .anyTime (tankFillOwner product added) s)

end Sys2Proof.Machine
end

