-- ==== Sys2Proof/Machine/Gates.lean ====
section
/-! DEFINITION. The Gate Controller (08): capture, decoding, the decision, grants and refusals, locks, and the credential commands. -/

namespace Sys2Proof.Machine

/-! ### Capture (R147) -/

/-- A pulse at a reader: the bit is deposited, or discarded with the overflow mark; the end timer is restarted. -/
def ReaderInput.take (bit : Bool) (r : ReaderInput) : ReaderInput :=
  if r.bits.length < Config.readerRoom && !r.overflow then { r with bits := r.bits ++ [bit], timer := true }
  else { r with overflow := true, timer := true }

/-- Reader 1 captures in every device state, the others not in LOADING. -/
def captures (d : DeviceState) (r : ReaderId) : Bool := d ≠ .loading || r = 1

def readerPulse (r : ReaderId) (bit : Bool) (s : State) : State :=
  if captures s.device r then putReader r ((s.reader r).take bit) s else s

def execReaderPulse (reader : ReaderId) (bit : Bool) (s : State) : Host.Outcome State Fault Refusal :=
  .next (event (readerPulse reader bit) s)

/-! ### Decoding (R149) -/

/-- The enabled format of a length. -/
def formatFor (s : State) (length : Nat) : Option FormatCfg :=
  (s.formats.toList.map Row.val).find? fun f => f.enabled && f.length = length

/-- A run of bits. -/
def runOf (bits : List Bool) (start length : Nat) : List Bool := (bits.drop start).take length

/-- A parity check holds; an absent one always does. -/
def Parity.holds (bits : List Bool) (p : Parity) : Bool :=
  !p.present || (((runOf bits p.start p.length).count true + (bits.getD p.bit false).toNat) % 2 = if p.odd then 1 else 0)

/-- The key the two fields spell. -/
def keyOf (f : FormatCfg) (bits : List Bool) : Key :=
  { site := bitsToNat (runOf bits f.sitePos f.siteLen), id := bitsToNat (runOf bits f.idPos f.idLen) }

/-- Steps 1 to 3 of R156: the key, or the result of the step that failed. -/
def decodeKey (s : State) (r : ReaderInput) : Except GateResult Key :=
  if r.overflow then .error .tooLong
  else
    match formatFor s r.bits.length with
    | none => .error .unknownFormat
    | some f => if f.parity.toList.all (Parity.holds r.bits) then .ok (keyOf f r.bits) else .error .badRead

/-- The ACTIVE credential with a key (R150: at most one). -/
def activeWith (s : State) (k : Key) : Option CredId :=
  (List.finRange 1024).find? fun c => (s.cred c).state = .active && (s.cred c).key = k

/-- What steps 1 to 4 of R156 find. -/
inductive Reading where
  | failed (why : GateResult)
  | unknown (k : Key)
  | found (c : CredId)
deriving DecidableEq, Repr

def readCredential (s : State) (r : ReaderInput) : Reading :=
  match decodeKey s r with
  | .error e => .failed e
  | .ok k =>
    match activeWith s k with
    | none => .unknown k
    | some c => .found c

/-! ### Access (R154) -/

/-- (access class AND mask) OR (page AND NOT mask). -/
def accessIndex (accessClass mask page : Byte) : Fin 256 := ((accessClass &&& mask) ||| (page &&& ~~~mask)).toFin

/-- The entry's window admits an hour. -/
def AccessCfg.admitsHour (x : AccessCfg) (hour : Nat) : Bool :=
  if x.startHour = x.endHour then true
  else if x.startHour < x.endHour then x.startHour ≤ hour && hour < x.endHour
  else x.startHour ≤ hour || hour < x.endHour

/-- While the clock is not set, every window admits every hour. -/
def windowAdmits (s : State) (x : AccessCfg) : Bool := !s.clockSet || x.admitsHour (hourOf s.clock.time).val

/-! ### The decision (R156) -/

/-- The account a credential stands for: that of a VESSEL credential. -/
def Credential.vessel? (x : Credential) : Option AccountId :=
  match x.kind with
  | .vessel => x.account
  | .staff => none

/-- The credential is VESSEL and its account's standing is `st`. -/
def standingIs (s : State) (x : Credential) (st : Standing) : Bool :=
  match x.vessel? with
  | none => false
  | some a => (s.account a).standing = st

/-- The credential's account is RESERVED or BERTHED on a berth of the pontoon. -/
def ownPontoon (s : State) (x : Credential) (p : PontoonId) : Bool :=
  match x.vessel? with
  | none => false
  | some a =>
    match (s.account a).state, (s.account a).berth with
    | .reserved, some n => (s.berth n).cfg.pontoon = p
    | .berthed, some n => (s.berth n).cfg.pontoon = p
    | _, _ => false

/-- The access entry of a credential at a gate. -/
def accessEntry (s : State) (x : Credential) (g : GateCfg) : AccessCfg :=
  (s.access.get (accessIndex x.accessClass g.mask g.page)).val

/-- Step 6: OPEN or HOLDOVER; in SETUP, the credential is STAFF. -/
def deviceAdmits (s : State) (x : Credential) : Bool :=
  match s.device with
  | .opened => true
  | .holdover => true
  | .setup => x.kind = .staff
  | .loading => false

/-- Steps 5 to 11 for an ACTIVE credential at gate `g`: GRANTED or HELD_OPEN, or a refusal. -/
def decideAt (s : State) (r : ReaderId) (g : GateCfg) (x : Credential) : GateResult :=
  let e := accessEntry s x g
  if g.mode = .outOfService then .outOfService
  else if g.mode = .heldOpen then .heldOpen
  else if !deviceAdmits s x then .closed
  else if standingIs s x .barred then .barred
  else if !(e.allowed && windowAdmits s e) then .notAllowed
  else if g.kind = .pontoon && e.ownPontoonOnly && !ownPontoon s x g.pontoon then .notAllowed
  else if standingIs s x .arrears && !e.inArrears then .arrears
  else if r = 0 && g.passback && x.inside then .passback
  else .granted

/-! ### Effects (R157 to R159, R162) -/

/-- The gate a reader serves: readers 0 and 1 gate 0, reader k gate k − 1. -/
def gateOf (r : ReaderId) : GateId := ⟨r.val - 1, by have := r.isLt; omega⟩

/-- A decision joins the passage log (R162). -/
def logPassage (r : ReaderId) (result : GateResult) (who : Passer) (s : State) : State :=
  let entry : Passage := { at_ := s.clock, reader := r, gate := gateOf r, result := result, passer := who }
  { s with passages := logAfter Config.passageLogRoom s.passages entry }

/-- The lock becomes RELEASED and its expiry is set to now plus the release time (R157, R158). -/
def release (b : State) (g : GateId) (byExit : Bool) (s : State) : State :=
  let x := s.gate g
  putGate b g { x with released := true, expiry := some (s.clock.plus x.cfg.release), byExit := byExit } s

/-- A grant (R158). -/
def grantPassage (b : State) (r : ReaderId) (c : CredId) (result : GateResult) (s : State) : State :=
  let x := s.cred c
  s |> release b (gateOf r) false
    |> passCred b c { x with inside := x.inside || r = 0, lastGate := some (gateOf r), lastTime := some s.clock }
    |> logPassage r result (.credential c)

/-- A refusal (R159). -/
def refusePassage (r : ReaderId) (result : GateResult) (who : Passer) (c : Option CredId) (s : State) : State :=
  s |> logPassage r result who
    |> raise .gateRefused
        { account := c.bind fun i => (s.cred i).vessel?, gate := some (gateOf r)
          value := c.map fun i => (i.val : Int), reason := some (.gate result) }

/-- The result is a grant. -/
def GateResult.grants (x : GateResult) : Bool := x = .granted || x = .heldOpen

/-- The decision at a reader other than reader 1. -/
def decidePassage (r : ReaderId) (input : ReaderInput) (s : State) : State :=
  match readCredential s input with
  | .failed e => refusePassage r e .nobody none s
  | .unknown k => refusePassage r .unknownCard (.key k) none s
  | .found c =>
    let result := decideAt s r (s.gate (gateOf r)).cfg (s.cred c)
    if result.grants then grantPassage s r c result s
    else refusePassage r result (.credential c) (some c) s

/-- The exit of R157 in SETUP, OPEN and HOLDOVER. -/
def exitPassage (input : ReaderInput) (s : State) : State :=
  match readCredential s input with
  | .failed _ => s |> release s 0 true |> logPassage 1 .exitUnread .nobody
  | .unknown k => s |> release s 0 true |> logPassage 1 .exitUnread (.key k)
  | .found c =>
    s |> release s 0 true
      |> passCred s c { s.cred c with inside := false, lastGate := some 0, lastTime := some s.clock }
      |> logPassage 1 .exited (.credential c)

/-- A credential ends at a reader (R147, R156, R157); its input is emptied. In LOADING reader 1 does not decode and the lock of gate 0 stays RELEASED. -/
def credentialEnded (r : ReaderId) (s : State) : State :=
  let input := s.reader r
  if !input.timer then s
  else
    let t := putReader r emptyReader s
    if r = 1 then
      if s.device = .loading then logPassage 1 .exitUnread .nobody t else exitPassage input t
    else if s.device = .loading then t
    else decidePassage r input t

def execCredentialEnded (reader : ReaderId) (s : State) : Host.Outcome State Fault Refusal :=
  .next (event (credentialEnded reader) s)

/-! ### Locks (R160, R161) -/

/-- A gate with its lock set for a device state (R160). -/
def Gate.locked (d : DeviceState) (g : GateId) (x : Gate) : Gate := { x with released := x.lockIn d g }

/-- A release expiry passes (R160). -/
def releaseExpiry (g : GateId) (s : State) : State :=
  let x := s.gate g
  if x.expiry.isSome then
    putGate s g (({ x with expiry := none, byExit := false } : Gate).locked s.device g) s
  else s

def execReleaseExpiry (gate : GateId) (s : State) : Host.Outcome State Fault Refusal :=
  .next (event (releaseExpiry gate) s)

/-- A gate in a new mode, its lock not yet set: OUT_OF_SERVICE removes the expiry, except gate 0's from an exit (R161). -/
def Gate.inMode (g : GateId) (m : GateMode) (x : Gate) : Gate :=
  let y : Gate := { x with cfg := { x.cfg with mode := m } }
  if m = .outOfService ∧ ¬ (g = 0 ∧ x.byExit = true) then { y with expiry := none, byExit := false } else y

/-- Every gate's lock set afresh for the device state (R160). -/
def relockAll (b : State) (s : State) : State :=
  eachId 20 (fun g s => putGate b g ((s.gate g).locked s.device g) s) s

def holdGateOwner (gate : Nat) (mode : GateMode) (s : State) : Answer :=
  match ident 20 gate with
  | none => .error .range
  | some g =>
    let y := ((s.gate g).inMode g mode).locked s.device g
    done (putGate s g y s) [wordItem (lockWord y.released)]

def execHoldGate (o : Origin) (gate : Nat) (mode : GateMode) (s : State) : Host.Outcome State Fault Refusal :=
  .next (portCommand (.holdGate o gate mode) o portsOP .trade (holdGateOwner gate mode) s)

/-! ### REVOKE (R152) and CLEAR_PASSBACK (R153) -/

/-- A credential leaves its account's list. -/
def unlist (b : State) (c : CredId) (a : AccountId) (s : State) : State :=
  modAccount b a (fun x => { x with credentials := x.credentials.filter (· ≠ c) }) s

def revokeOwner (credential : Nat) (s : State) : Answer :=
  match ident 1024 credential with
  | none => .error .range
  | some c =>
    if (s.cred c).state ≠ .active then .error .state
    else
      let t := revokeOne s c s
      match (s.cred c).vessel? with
      | none => done t []
      | some a => done (unlist s c a t) []

def execRevoke (o : Origin) (credential : Nat) (s : State) : Host.Outcome State Fault Refusal :=
  .next (portCommand (.revoke o credential) o portO .anyTime (revokeOwner credential) s)

def clearPassbackOwner (credential : Nat) (s : State) : Answer :=
  match ident 1024 credential with
  | none => .error .range
  | some c =>
    if (s.cred c).state = .free then .error .state
    else done (putCred s c { s.cred c with inside := false } s) []

def execClearPassback (o : Origin) (credential : Nat) (s : State) : Host.Outcome State Fault Refusal :=
  .next (portCommand (.clearPassback o credential) o portsOP .anyTime (clearPassbackOwner credential) s)

end Sys2Proof.Machine
end

