-- ==== Sys2Proof/Machine/Ranges.lean ====
section
/-! DEFINITION. The range checks of each table's STORE rule. The loader makes the same checks of every entry of an image (R181 check 6). -/

namespace Sys2Proof.Machine

/-- A range of signed numbers. -/
def betweenInt (lo hi n : Int) : Bool := decide (lo ≤ n) && decide (n ≤ hi)

/-- R43, R62, R74. -/
def SiteCfg.inRange (x : SiteCfg) : Bool :=
  between 0 23 x.rolloverHour && between 0 300 x.clearance && betweenInt (-200) 500 x.leastWater
    && between 0 7 x.graceDays && between 30 500 x.pollInterval

/-- R4; the rating is 16, 32 or 63 by its type. -/
def ClassCfg.inRange (x : ClassCfg) : Bool :=
  betweenInt (-9999999) 0 x.floor && between 0 30 x.grace && between 0 50000 x.waterCap

/-- R26. -/
def rateInRange (r : Nat) : Bool := between 0 1000000 r

/-- R41, first row; pontoon, socket and tap are in range by their types. -/
def BerthCfg.inRange (x : BerthCfg) : Bool :=
  between 200 12000 x.loaMin && between 200 12000 x.loaMax && decide (x.loaMin ≤ x.loaMax)
    && between 100 3000 x.beamMax && between 0 2000 x.depth

/-- R96. -/
def FeederCfg.inRange (x : FeederCfg) : Bool := between 0 1000 x.rating && between 100 300 x.diversity

/-- R122. -/
def PumpCfg.inRange (x : PumpCfg) : Bool := between 0 200000 x.maxPerSale

/-- R123. -/
def TankCfg.inRange (x : TankCfg) : Bool :=
  between 0 10000000 x.capacity && decide (x.reserve ≤ x.capacity) && decide (x.low ≤ x.capacity)

/-- A parity check lies within the length and its bit is not in its own run; an absent one is ignored (R148). -/
def Parity.inRange (length : Nat) (p : Parity) : Bool :=
  !p.present || (decide (p.bit < length) && decide (1 ≤ p.length) && decide (p.start + p.length ≤ length)
    && !(decide (p.start ≤ p.bit) && decide (p.bit < p.start + p.length)))

/-- R148. -/
def FormatCfg.inRange (x : FormatCfg) : Bool :=
  between 26 64 x.length && between 0 16 x.siteLen && between 1 32 x.idLen
    && (x.siteLen = 0 || x.sitePos + x.siteLen ≤ x.length) && x.idPos + x.idLen ≤ x.length
    && x.parity.toList.all (Parity.inRange x.length)

/-- R154. -/
def AccessCfg.inRange (x : AccessCfg) : Bool := between 0 23 x.startHour && between 0 23 x.endHour

/-- R155: gate 0 is SHORE and no other is, and passback is on for a SHORE gate only. -/
def GateCfg.inRange (g : GateId) (x : GateCfg) : Bool :=
  decide ((x.kind = .shore) = (g = 0)) && (!x.passback || x.kind = .shore) && between 1 30 x.release

/-- R175. -/
def thresholdInRange (t : Nat) : Bool := between 1 15 t

/-- A name of 1 to 16 printable characters (R3). -/
def nameInRange (n : String) : Bool :=
  between 1 16 n.toList.length && n.toList.all fun c => between 32 126 c.toNat

/-- A date of the range, or absent. -/
def dateInRange : Option Int → Bool
  | none => true
  | some d => betweenInt 0 Config.lastDate d

/-- The descriptive fields of an account (R3). -/
def Account.inRange (x : Account) : Bool :=
  nameInRange x.name && between 200 12000 x.loa && between 100 3000 x.beam && between 50 1200 x.draft
    && dateInRange x.planned

/-- R150: VESSEL with an account, or STAFF with none. -/
def Credential.inRange (x : Credential) : Bool :=
  between 0 65535 x.key.site && between 0 4294967295 x.key.id && decide ((x.kind = .vessel) = (x.account.isSome = true))

end Sys2Proof.Machine
end

