-- ==== Sys2Proof/Machine/Fields.lean ====
section
/-! DEFINITION. PUT: the writable fields of each table, and the form and range of their values (R171). -/

namespace Sys2Proof.Machine

/-- A PUT that passes: the holding record after it, the value written, and whether it was clamped. -/
structure Written where
  entry : Entry
  value : Atom
  clamped : Bool
deriving DecidableEq, Repr

/-- What a field makes of a value: none when its form or range is wrong. -/
abbrev Writer := String → Option Written

def written (e : Entry) (a : Atom) : Option Written := some { entry := e, value := a, clamped := false }

/-- A whole number within a range. -/
def natWriter (lo hi : Nat) (f : Nat → Entry) : Writer := fun v =>
  match natField v with
  | none => none
  | some n => if between lo hi n then written (f n) (natAtom n) else none

/-- A clamped field: a number outside its range is written as the nearer bound (R171). -/
def clampedWriter (lo hi : Nat) (f : Nat → Entry) : Writer := fun v =>
  match natField v with
  | none => none
  | some n =>
    let m := max lo (min n hi)
    some { entry := f m, value := natAtom m, clamped := m ≠ n }

/-- A signed number within a range. -/
def intWriter (lo hi : Int) (f : Int → Entry) : Writer := fun v =>
  match intField v with
  | none => none
  | some n => if betweenInt lo hi n then written (f n) (intAtom n) else none

/-- One of a list of value words. -/
def wordWriter {α : Type} (words : List (String × α)) (f : α → Entry) : Writer := fun v =>
  match words.find? fun w => w.1 = v with
  | none => none
  | some w => written (f w.2) (.word w.1)

def flagWriter (f : Bool → Entry) : Writer := wordWriter [("YES", true), ("NO", false)] f

/-- A record number. -/
def idWriter (k : Nat) (f : Fin k → Entry) : Writer := fun v =>
  match (natField v).bind (ident k) with
  | none => none
  | some i => written (f i) (numAtom i)

/-- A record number, or NONE to make the field absent. -/
def linkWriter (k : Nat) (f : Option (Fin k) → Entry) : Writer := fun v =>
  if v = "NONE" then written (f none) .absent
  else
    match (natField v).bind (ident k) with
    | none => none
    | some i => written (f (some i)) (numAtom i)

/-- A date of the range, or NONE. -/
def dateWriter (f : Option Int → Entry) : Writer := fun v =>
  if v = "NONE" then written (f none) .absent
  else
    match (dateField v).bind dateOf with
    | none => none
    | some d => written (f (some d)) (.date d)

/-- A rating: 16, 32 or 63. -/
def ratingWriter (f : Rating → Entry) : Writer := fun v =>
  match (natField v).bind ratingOf with
  | none => none
  | some r => written (f r) (natAtom r.amps)

/-- A name, which is not optional (R171). -/
def nameWriter (f : String → Entry) : Writer := fun v =>
  if v ≠ "NONE" ∧ nameInRange v = true then written (f v) (.word v) else none

/-! ### The writable fields, table by table. A field not listed is one that a STORE does not write. -/

def siteWriter (x : Row SiteCfg) : String → Option Writer
  | "rollover_hour" => some (natWriter 0 23 fun n => .site { x with val := { x.val with rolloverHour := n } })
  | "under_keel_clearance" => some (natWriter 0 300 fun n => .site { x with val := { x.val with clearance := n } })
  | "least_water" => some (intWriter (-200) 500 fun n => .site { x with val := { x.val with leastWater := n } })
  | "reservation_grace_days" => some (natWriter 0 7 fun n => .site { x with val := { x.val with graceDays := n } })
  | "poll_interval" => some (clampedWriter 30 500 fun n => .site { x with val := { x.val with pollInterval := n } })
  | _ => none

def classWriter (x : Row ClassCfg) : String → Option Writer
  | "floor" => some (intWriter (-9999999) 0 fun n => .cls { x with val := { x.val with floor := n } })
  | "arrears_grace_nights" => some (natWriter 0 30 fun n => .cls { x with val := { x.val with grace := n } })
  | "maximum_power_rating" => some (ratingWriter fun r => .cls { x with val := { x.val with maxRating := r } })
  | "fuel_on_account" => some (flagWriter fun b => .cls { x with val := { x.val with fuelOnAccount := b } })
  | "water_cap_per_session" => some (natWriter 0 50000 fun n => .cls { x with val := { x.val with waterCap := n } })
  | "revoke_credentials_at_departure" =>
    some (flagWriter fun b => .cls { x with val := { x.val with revokeAtDeparture := b } })
  | _ => none

def rateWriter (x : Row Nat) : String → Option Writer
  | "rate" => some (natWriter 0 1000000 fun n => .rate { x with val := n })
  | _ => none

def hourbandWriter (x : Row Band) : String → Option Writer
  | "band" => some (idWriter 4 fun n => .hourband { x with val := n })
  | _ => none

def berthStateWords : List (String × BerthState) :=
  [("OUT_OF_SERVICE", .outOfService), ("FREE", .free), ("RESERVED", .reserved), ("OCCUPIED", .occupied)]

/-- The depth at datum, under its name and under the name the worked example of 09 gives it (log 7). -/
def depthWriter (x : Berth) : Writer := natWriter 0 2000 fun n => .berth { x with cfg := { x.cfg with depth := n } }

/-- The fields of a berth. DESIGN CHOICE (log 36): any of the four state words passes PUT, and STORE alone refuses RANGE a RESERVED or OCCUPIED that the entry does not hold (R41). -/
def berthWriter (x : Berth) : String → Option Writer
  | "state" => some (wordWriter berthStateWords fun w => .berth { x with state := w })
  | "pontoon" => some (idWriter 16 fun n => .berth { x with cfg := { x.cfg with pontoon := n } })
  | "loa_minimum" => some (natWriter 200 12000 fun n => .berth { x with cfg := { x.cfg with loaMin := n } })
  | "loa_maximum" => some (natWriter 200 12000 fun n => .berth { x with cfg := { x.cfg with loaMax := n } })
  | "beam_maximum" => some (natWriter 100 3000 fun n => .berth { x with cfg := { x.cfg with beamMax := n } })
  | "alongside_flag" => some (flagWriter fun b => .berth { x with cfg := { x.cfg with alongside := b } })
  | "depth_at_datum" => some (depthWriter x)
  | "depth" => some (depthWriter x)
  | "socket" => some (linkWriter 512 fun k => .berth { x with cfg := { x.cfg with socket := k } })
  | "tap" => some (linkWriter 256 fun t => .berth { x with cfg := { x.cfg with tap := t } })
  | _ => none

def kindWords : List (String × PedestalKind) :=
  [("TWIN", .twin), ("SINGLE", .single), ("POWER2", .power2), ("TAP", .tap)]

def pedestalWriter (x : Pedestal) : String → Option Writer
  | "installed" => some (flagWriter fun b => .pedestal { x with cfg := { x.cfg with installed := b } })
  | "segment" => some (idWriter 4 fun n => .pedestal { x with cfg := { x.cfg with segment := n } })
  | "address" => some (idWriter 64 fun n => .pedestal { x with cfg := { x.cfg with address := n } })
  | "kind" => some (wordWriter kindWords fun k => .pedestal { x with cfg := { x.cfg with kind := k } })
  | "feeder" => some (idWriter 16 fun n => .pedestal { x with cfg := { x.cfg with feeder := n } })
  | "rating_a" => some (ratingWriter fun r => .pedestal { x with cfg := { x.cfg with ratings := x.cfg.ratings.put 0 r } })
  | "rating_b" => some (ratingWriter fun r => .pedestal { x with cfg := { x.cfg with ratings := x.cfg.ratings.put 1 r } })
  | "stray_energy" => some (natWriter 0 0 fun n => .pedestal { x with strayEnergy := n })
  | "stray_water" => some (natWriter 0 0 fun n => .pedestal { x with strayWater := n })
  | _ => none

def feederWriter (x : Feeder) : String → Option Writer
  | "rating" => some (natWriter 0 1000 fun n => .feeder { x with cfg := { x.cfg with rating := n } })
  | "diversity" => some (natWriter 100 300 fun n => .feeder { x with cfg := { x.cfg with diversity := n } })
  | _ => none

def pumpWriter (x : Pump) : String → Option Writer
  | "installed" => some (flagWriter fun b => .pump { x with cfg := { x.cfg with installed := b } })
  | "product" => some (idWriter 2 fun n => .pump { x with cfg := { x.cfg with product := n } })
  | "maximum_per_sale" => some (natWriter 0 200000 fun n => .pump { x with cfg := { x.cfg with maxPerSale := n } })
  | _ => none

def tankWriter (x : Tank) : String → Option Writer
  | "capacity" => some (natWriter 0 10000000 fun n => .tank { x with cfg := { x.cfg with capacity := n } })
  | "reserve_floor" => some (natWriter 0 10000000 fun n => .tank { x with cfg := { x.cfg with reserve := n } })
  | "low_threshold" => some (natWriter 0 10000000 fun n => .tank { x with cfg := { x.cfg with low := n } })
  | _ => none

/-- A format with one of its parity checks changed. -/
def withParity (x : Row FormatCfg) (i : Fin 2) (f : Parity → Parity) : Entry :=
  .format { x with val := { x.val with parity := x.val.parity.put i (f (x.val.parity.get i)) } }

def senseWords : List (String × Bool) := [("EVEN", false), ("ODD", true)]

/-- The fields of a format.
DESIGN CHOICE (log 39): R148 gives the two lengths their ranges and otherwise relates positions and covered runs to the length; for PUT a position, a parity bit and the start of a covered run range over 0 to 63, and a covered run's length over 1 to 64, the bits of the longest format. -/
def formatWriter (x : Row FormatCfg) : String → Option Writer
  | "enabled" => some (flagWriter fun b => .format { x with val := { x.val with enabled := b } })
  | "length" => some (natWriter 26 64 fun n => .format { x with val := { x.val with length := n } })
  | "site_position" => some (natWriter 0 63 fun n => .format { x with val := { x.val with sitePos := n } })
  | "site_length" => some (natWriter 0 16 fun n => .format { x with val := { x.val with siteLen := n } })
  | "id_position" => some (natWriter 0 63 fun n => .format { x with val := { x.val with idPos := n } })
  | "id_length" => some (natWriter 1 32 fun n => .format { x with val := { x.val with idLen := n } })
  | "parity_present_1" => some (flagWriter fun b => withParity x 0 fun p => { p with present := b })
  | "parity_sense_1" => some (wordWriter senseWords fun b => withParity x 0 fun p => { p with odd := b })
  | "parity_bit_1" => some (natWriter 0 63 fun n => withParity x 0 fun p => { p with bit := n })
  | "parity_start_1" => some (natWriter 0 63 fun n => withParity x 0 fun p => { p with start := n })
  | "parity_length_1" => some (natWriter 1 64 fun n => withParity x 0 fun p => { p with length := n })
  | "parity_present_2" => some (flagWriter fun b => withParity x 1 fun p => { p with present := b })
  | "parity_sense_2" => some (wordWriter senseWords fun b => withParity x 1 fun p => { p with odd := b })
  | "parity_bit_2" => some (natWriter 0 63 fun n => withParity x 1 fun p => { p with bit := n })
  | "parity_start_2" => some (natWriter 0 63 fun n => withParity x 1 fun p => { p with start := n })
  | "parity_length_2" => some (natWriter 1 64 fun n => withParity x 1 fun p => { p with length := n })
  | _ => none

def accessWriter (x : Row AccessCfg) : String → Option Writer
  | "allowed" => some (flagWriter fun b => .access { x with val := { x.val with allowed := b } })
  | "window_start_hour" => some (natWriter 0 23 fun n => .access { x with val := { x.val with startHour := n } })
  | "window_end_hour" => some (natWriter 0 23 fun n => .access { x with val := { x.val with endHour := n } })
  | "own_pontoon_only" => some (flagWriter fun b => .access { x with val := { x.val with ownPontoonOnly := b } })
  | "allowed_in_arrears" => some (flagWriter fun b => .access { x with val := { x.val with inArrears := b } })
  | _ => none

def gateKindWords : List (String × GateKind) := [("SHORE", .shore), ("PONTOON", .pontoon), ("SERVICE", .service)]

def gateModeWords : List (String × GateMode) :=
  [("NORMAL", .normal), ("HELD_OPEN", .heldOpen), ("OUT_OF_SERVICE", .outOfService)]

def gateWriter (x : Gate) : String → Option Writer
  | "kind" => some (wordWriter gateKindWords fun k => .gate { x with cfg := { x.cfg with kind := k } })
  | "pontoon" => some (idWriter 16 fun n => .gate { x with cfg := { x.cfg with pontoon := n } })
  | "mask" => some (natWriter 0 255 fun n => .gate { x with cfg := { x.cfg with mask := BitVec.ofNat 8 n } })
  | "page" => some (natWriter 0 255 fun n => .gate { x with cfg := { x.cfg with page := BitVec.ofNat 8 n } })
  | "passback" =>
    some (wordWriter [("ON", true), ("OFF", false)] fun b => .gate { x with cfg := { x.cfg with passback := b } })
  | "release_time" => some (clampedWriter 1 30 fun n => .gate { x with cfg := { x.cfg with release := n } })
  | "mode" => some (wordWriter gateModeWords fun m => .gate { x with cfg := { x.cfg with mode := m } })
  | _ => none

def levelWriter (x : Row (Fin 16)) : String → Option Writer
  | "level" => some (clampedWriter 0 15 fun n => .level { x with val := Fin.ofNat 16 n })
  | _ => none

def portWriter (x : Row Nat) : String → Option Writer
  | "threshold" => some (clampedWriter 1 15 fun n => .port { x with val := n })
  | _ => none

def credStateWords : List (String × CredState) := [("FREE", .free), ("ACTIVE", .active), ("REVOKED", .revoked)]

def credKindWords : List (String × CredKind) := [("VESSEL", .vessel), ("STAFF", .staff)]

def credWriter (x : Credential) : String → Option Writer
  | "state" => some (wordWriter credStateWords fun w => .cred { x with state := w })
  | "site_code" => some (natWriter 0 65535 fun n => .cred { x with key := { x.key with site := n } })
  | "id" => some (natWriter 0 4294967295 fun n => .cred { x with key := { x.key with id := n } })
  | "kind" => some (wordWriter credKindWords fun k => .cred { x with kind := k })
  | "account" => some (linkWriter 512 fun a => .cred { x with account := a })
  | "access_class" => some (natWriter 0 255 fun n => .cred { x with accessClass := BitVec.ofNat 8 n })
  | _ => none

def accountWriter (x : Account) : String → Option Writer
  | "name" => some (nameWriter fun n => .account { x with name := n })
  | "class" => some (idWriter 4 fun n => .account { x with cls := n })
  | "loa" => some (natWriter 200 12000 fun n => .account { x with loa := n })
  | "beam" => some (natWriter 100 3000 fun n => .account { x with beam := n })
  | "draft" => some (natWriter 50 1200 fun n => .account { x with draft := n })
  | "planned_departure" => some (dateWriter fun d => .account { x with planned := d })
  | _ => none

/-- The writer of a field of an entry; none for a field that a STORE does not write. -/
def Entry.writer : Entry → String → Option Writer
  | .site x => siteWriter x
  | .cls x => classWriter x
  | .rate x => rateWriter x
  | .hourband x => hourbandWriter x
  | .berth x => berthWriter x
  | .pedestal x => pedestalWriter x
  | .feeder x => feederWriter x
  | .pump x => pumpWriter x
  | .tank x => tankWriter x
  | .format x => formatWriter x
  | .access x => accessWriter x
  | .gate x => gateWriter x
  | .level x => levelWriter x
  | .port x => portWriter x
  | .cred x => credWriter x
  | .account x => accountWriter x
  | .power _ => fun _ => none
  | .water _ => fun _ => none
  | .sale _ => fun _ => none
  | .passage _ => fun _ => none

/-- The tables that are read only (R169). -/
def Entry.readOnly : Entry → Bool
  | .power _ => true
  | .water _ => true
  | .sale _ => true
  | .passage _ => true
  | _ => false

/-- The field is a field of the entry's table.
DESIGN CHOICE (log 37): a pedestal's readings, which READ shows (R169), count as fields that are read only, and so does the edition in every table, also where the table's own list does not name it (SITE, CLASS, RATE, HOURBAND, FORMAT, ACCESS, LEVEL, PORT); PUT to one is refused STATE, not RANGE. -/
def Entry.hasField (e : Entry) (name : String) : Bool :=
  name = "edition" || e.shown.any fun f => f.1 = name

/-- A PUT into a holding record that is not EMPTY and not read only: the last three checks of R171. -/
def Entry.put (e : Entry) (name value : String) : Except Refuse Written :=
  match e.writer name with
  | none => if e.hasField name then .error .state else .error .range
  | some w =>
    match w value with
    | none => .error .range
    | some x => .ok x

end Sys2Proof.Machine
end

