-- ==== Sys2Proof/Machine/Stores.lean ====
section
/-! DEFINITION. STORE: the owner's checks and effects, table by table (R172 and the rules R169 names). -/

namespace Sys2Proof.Machine

/-- A STORE's outcome at its owner: a refusal, or the state after the writing. -/
abbrev Stored := Except Refuse State

/-- Refuses when a check fails. -/
def check (ok : Bool) (r : Refuse) (next : Stored) : Stored := if ok then next else .error r

/-! ### Site, class, rates, bands, levels, thresholds -/

/-- SITE: R43 and R62, taken at every STORE of the entry (log 11); the start condition is tested (R65). -/
def storeSite (x : Row SiteCfg) (s : State) : Stored :=
  check x.val.inRange .range <|
  check s.rollover.isNone .busy <|
  check (!s.clockSet || notBeforeLast s x.val.rolloverHour s.clock) .range <|
  .ok (testRollover { s with site := Row.settled s.site { s.site with val := x.val } })

/-- The standing of every open account of a class, in ascending number (R4). -/
def evaluateClass (b : State) (c : ClassId) (s : State) : State :=
  eachId 512 (fun a t => if (t.account a).cls = c then evaluateStanding b a t else t) s

/-- CLASS (R4). -/
def storeClass (c : ClassId) (x : Row ClassCfg) (s : State) : Stored :=
  let old := s.classes.get c
  let t := { s with classes := s.classes.put c (old.settled { old with val := x.val }) }
  check x.val.inRange .range (.ok (if x.val.floor = old.val.floor then t else evaluateClass s c t))

/-- RATE (R26). -/
def storeRate (i : Fin 96) (x : Row Nat) (s : State) : Stored :=
  let old := s.rates.get i
  check (rateInRange x.val) .range (.ok { s with rates := s.rates.put i (old.settled { old with val := x.val }) })

/-- HOURBAND (R24). -/
def storeHourband (h : Fin 24) (x : Row Band) (s : State) : Stored :=
  let old := s.bands.get h
  .ok { s with bands := s.bands.put h (old.settled { old with val := x.val }) }

/-- LEVEL (R175). -/
def storeLevel (i : Fin 28) (x : Row (Fin 16)) (s : State) : Stored :=
  let old := s.levels.get i
  .ok { s with levels := s.levels.put i (old.settled { old with val := x.val }) }

/-- PORT (R175). -/
def storePort (i : Fin 3) (x : Row Nat) (s : State) : Stored :=
  let old := s.thresholds.get i
  check (thresholdInRange x.val) .range
    (.ok { s with thresholds := s.thresholds.put i (old.settled { old with val := x.val }) })

/-! ### Berths (R41, R42) -/

/-- FREE or OUT_OF_SERVICE, or the state the entry holds. -/
def berthStateAllowed (old new : BerthState) : Bool := new = .free || new = .outOfService || new = old

def Berth.taken (x : Berth) : Bool := x.state = .reserved || x.state = .occupied

/-- Berths other than `n` for which a property holds. -/
def otherBerths (s : State) (n : BerthId) (p : Berth → Bool) : Nat :=
  ((List.finRange 512).filter fun m => m ≠ n && p (s.berth m)).length

/-- The socket named is present; one left as it stands passes (R42). -/
def socketRefOk (s : State) (old new : Option SocketId) : Bool :=
  match new with
  | none => true
  | some k => new = old || socketPresent s k

def tapRefOk (s : State) (old new : Option TapId) : Bool :=
  match new with
  | none => true
  | some t => new = old || tapPresent s t

/-- No other berth names the socket. -/
def socketUnshared (s : State) (n : BerthId) (old new : Option SocketId) : Bool :=
  match new with
  | none => true
  | some _ => new = old || otherBerths s n (fun y => y.cfg.socket = new) = 0

/-- Fewer than two other berths name the tap. -/
def tapHasRoom (s : State) (n : BerthId) (old new : Option TapId) : Bool :=
  match new with
  | none => true
  | some _ => new = old || otherBerths s n (fun y => y.cfg.tap = new) < 2

def storeBerth (n : BerthId) (x : Berth) (s : State) : Stored :=
  let old := s.berth n
  check (x.cfg.inRange && berthStateAllowed old.state x.state) .range <|
  check (!old.taken || (x.state = old.state && x.cfg = old.cfg)) .inUse <|
  check (socketRefOk s old.cfg.socket x.cfg.socket) .range <|
  check (tapRefOk s old.cfg.tap x.cfg.tap) .range <|
  check (socketUnshared s n old.cfg.socket x.cfg.socket) .duplicate <|
  check (tapHasRoom s n old.cfg.tap x.cfg.tap) .full <|
  .ok (putBerth s n { old with state := x.state, cfg := x.cfg } s)

/-! ### Pedestals (R77, R78) -/

/-- Every other installed pedestal has a property. -/
def everyOtherInstalled (s : State) (n : PedestalId) (p : PedestalCfg → Bool) : Bool :=
  (List.finRange 256).all fun m => m = n || !(s.pedestal m).cfg.installed || p (s.pedestal m).cfg

/-- The four fields that identify a pedestal change. -/
def identityChanges (old new : PedestalCfg) : Bool := old.identity ≠ new.identity

/-- A power session of any state is on a socket whose identity, feeder or rating the STORE changes. -/
def powerInWay (s : State) (n : PedestalId) (old new : PedestalCfg) (i : Fin 2) : Bool :=
  (s.power.get (socketAt n i)).isSome
    && (identityChanges old new || old.feeder ≠ new.feeder || old.ratings.get i ≠ new.ratings.get i)

/-- A water session of any state is on the tap, and the STORE changes the identity. -/
def waterInWay (s : State) (n : PedestalId) (old new : PedestalCfg) : Bool :=
  (s.water.get n).isSome && identityChanges old new

/-- The configuration has the socket or tap that a berth names on pedestal `n`. -/
def keepsNamed (n : PedestalId) (c : PedestalCfg) (b : BerthCfg) : Bool :=
  (match b.socket with
    | none => true
    | some k => pedestalOf k ≠ n || (c.installed && c.kind.hasSocket (positionOf k)))
  && (match b.tap with
    | none => true
    | some t => t ≠ n || (c.installed && c.kind.hasTap))

/-- Fresh readings, tag NONE and UNKNOWN: a pedestal newly installed, or with a new identity (R78). -/
def Pedestal.fresh (p : Pedestal) : Pedestal :=
  { p with link := .unknown, misses := 0, tag := none, tagIdentity := p.cfg.identity
           reported := Table.build fun _ => freshReported, reportedValve := false, lastOutcome := none }

/-- A stray counter written 0 becomes 0; any other value leaves it (R78). -/
def strayAfter (old new : Nat) : Nat := if new = 0 then 0 else old

/-- The record after a STORE (R78). -/
def Pedestal.stored (old new : Pedestal) : Pedestal :=
  let p : Pedestal :=
    { old with cfg := new.cfg, strayEnergy := strayAfter old.strayEnergy new.strayEnergy
               strayWater := strayAfter old.strayWater new.strayWater }
  match old.cfg.installed, new.cfg.installed with
  | false, true => p.fresh
  | true, false => { p with link := .absent }
  | true, true => if identityChanges old.cfg new.cfg then p.fresh else p
  | false, false => p

/-- The outstanding poll of a segment is abandoned when it is to pedestal `n`. -/
def Segment.without (n : PedestalId) (x : Segment) : Segment :=
  match x.outstanding with
  | none => x
  | some poll => if poll.pedestal = n then x.closed else x

def storePedestal (n : PedestalId) (x : Pedestal) (s : State) : Stored :=
  let old := s.pedestal n
  let c := x.cfg
  check (!c.installed || everyOtherInstalled s n fun d => d.feeder ≠ c.feeder || d.segment = c.segment) .range <|
  check (!c.installed || everyOtherInstalled s n fun d => d.segment ≠ c.segment || d.address ≠ c.address) .duplicate <|
  check (!powerInWay s n old.cfg c 0 && !powerInWay s n old.cfg c 1 && !waterInWay s n old.cfg c) .inUse <|
  check ((List.finRange 512).all fun m => keepsNamed n c (s.berth m).cfg) .inUse <|
  let t := putPedestal s n (old.stored x) s
  .ok (if old.cfg.installed && identityChanges old.cfg c then { t with segments := t.segments.map (Segment.without n) }
       else t)

/-! ### Feeders (R96) -/

def storeFeeder (f : FeederId) (x : Feeder) (s : State) : Stored :=
  let old := s.feeder f
  let t := putFeeder s f { old with cfg := x.cfg } s
  check x.cfg.inRange .range <|
  check (old.heldSum ≤ x.cfg.cap) .inUse <|
  .ok (if old.cfg.cap < x.cfg.cap then serve s f t else t)

/-! ### Pumps and tanks (R122, R123) -/

/-- A pump newly installed: OFFLINE, misses 3, order CANCEL, no readings. -/
def Pump.joined (p : Pump) : Pump :=
  { p with online := false, misses := Config.missLimit, order := .cancel, readings := none, lastOutcome := none }

/-- The record after a STORE. -/
def Pump.stored (old new : Pump) : Pump :=
  let p : Pump := { old with cfg := new.cfg }
  match old.cfg.installed, new.cfg.installed with
  | false, true => p.joined
  | true, false => { p with online := false }
  | _, _ => p

/-- The outstanding poll of the pump line is abandoned when it is to pump `n`. -/
def PumpLine.without (n : PumpId) (x : PumpLine) : PumpLine :=
  if x.outstanding = some n then { x with outstanding := none } else x

def storePump (n : PumpId) (x : Pump) (s : State) : Stored :=
  let old := s.pump n
  let t := putPump s n (old.stored x) s
  check x.cfg.inRange .range <|
  check (old.sale.isNone || (x.cfg.installed = old.cfg.installed && x.cfg.product = old.cfg.product)) .inUse <|
  .ok (if old.cfg.installed && !x.cfg.installed then { t with pumpLine := t.pumpLine.without n } else t)

def storeTank (i : ProductId) (x : Tank) (s : State) : Stored :=
  let old := s.tank i
  check x.cfg.inRange .range <|
  check (old.book ≤ x.cfg.capacity) .inUse <|
  .ok (settleLow s i { old with cfg := x.cfg } s)

/-! ### Formats, access entries, gates (R148, R154, R155) -/

/-- Another enabled format has the length. -/
def lengthTaken (s : State) (i : Fin 8) (length : Nat) : Bool :=
  (List.finRange 8).any fun j => j ≠ i && (s.formats.get j).val.enabled && (s.formats.get j).val.length = length

def storeFormat (i : Fin 8) (x : Row FormatCfg) (s : State) : Stored :=
  let old := s.formats.get i
  check x.val.inRange .range <|
  check (!(x.val.enabled && lengthTaken s i x.val.length)) .duplicate <|
  .ok { s with formats := s.formats.put i (old.settled { old with val := x.val }) }

def storeAccess (i : Fin 256) (x : Row AccessCfg) (s : State) : Stored :=
  let old := s.access.get i
  check x.val.inRange .range (.ok { s with access := s.access.put i (old.settled { old with val := x.val }) })

/-- A changed mode takes effect as HOLD_GATE gives (R155, R161). -/
def Gate.stored (d : DeviceState) (g : GateId) (old new : Gate) : Gate :=
  let y : Gate := { old with cfg := new.cfg }
  if new.cfg.mode = old.cfg.mode then y else (y.inMode g new.cfg.mode).locked d g

def storeGate (g : GateId) (x : Gate) (s : State) : Stored :=
  check (x.cfg.inRange g) .range (.ok (putGate s g ((s.gate g).stored s.device g x) s))

/-! ### Credentials (R150, R151) -/

/-- The account whose list a credential belongs to: that of an ACTIVE VESSEL credential. -/
def Credential.listed? (x : Credential) : Option AccountId := if x.state = .active then x.vessel? else none

/-- Another ACTIVE entry has the key. -/
def keyTaken (s : State) (c : CredId) (k : Key) : Bool :=
  (List.finRange 1024).any fun d => d ≠ c && (s.cred d).state = .active && (s.cred d).key = k

/-- The account of an issue to a VESSEL is not FREE. -/
def issueAllowed (s : State) (x : Credential) : Bool :=
  match x.listed? with
  | none => true
  | some a => (s.account a).state ≠ .free

/-- The account has room for one more credential, or lists this one already. -/
def listHasRoom (s : State) (old new : Credential) : Bool :=
  match new.listed? with
  | none => true
  | some a => old.listed? = some a || (s.account a).credentials.length < Config.credentialsRoom

/-- The entry after a STORE (R151 steps 3 and 4). -/
def Credential.stored (old new : Credential) : Credential :=
  let x : Credential :=
    { old with state := new.state, key := new.key, kind := new.kind, account := new.account
               accessClass := new.accessClass }
  match new.state with
  | .free => { x with inside := false, lastGate := none, lastTime := none }
  | .active => if old.state = .active then x else { x with inside := false }
  | .revoked => x

/-- A credential joins the end of an account's list that does not name it. -/
def enlist (b : State) (c : CredId) (a : AccountId) (s : State) : State :=
  modAccount b a (fun x =>
    if c ∈ x.credentials then x else { x with credentials := x.credentials ++ [c] }) s

/-- R151 steps 1 and 2. -/
def relist (b : State) (c : CredId) (old new : Option AccountId) (s : State) : State :=
  let t := match old with
    | none => s
    | some a => if new = some a then s else unlist b c a s
  match new with
  | none => t
  | some a => enlist b c a t

def storeCred (c : CredId) (x : Credential) (s : State) : Stored :=
  let old := s.cred c
  let y := old.stored x
  check x.inRange .range <|
  check (issueAllowed s y) .state <|
  check (!(x.state = .active && keyTaken s c x.key)) .duplicate <|
  check (listHasRoom s old y) .full <|
  .ok (s |> putCred s c y |> relist s c old.listed? y.listed?)

/-! ### Accounts (R3) -/

/-- The account is RESERVED or BERTHED. -/
def Account.hasBerth (x : Account) : Bool := x.state = .reserved || x.state = .berthed

def storeAccount (a : AccountId) (x : Account) (s : State) : Stored :=
  let old := s.account a
  let t := putAccount s a
    { old with name := x.name, cls := x.cls, loa := x.loa, beam := x.beam, draft := x.draft, planned := x.planned } s
  check x.inRange .range <|
  check (!old.hasBerth || (x.loa = old.loa && x.beam = old.beam && x.draft = old.draft)) .inUse <|
  .ok (if x.cls = old.cls then t else evaluateStanding s a t)

/-! ### The owner of an entry -/

/-- An owner's STORE at an index of its table; the index of a cursor is always in range. -/
def atIndex (k ix : Nat) (f : Fin k → Stored) : Stored :=
  match ident k ix with
  | none => .error .state
  | some i => f i

/-- The owner's checks and writing of a holding record. -/
def ownerStore (e : Entry) (ix : Nat) (s : State) : Stored :=
  match e with
  | .site x => storeSite x s
  | .cls x => atIndex 4 ix fun i => storeClass i x s
  | .rate x => atIndex 96 ix fun i => storeRate i x s
  | .hourband x => atIndex 24 ix fun i => storeHourband i x s
  | .berth x => atIndex 512 ix fun i => storeBerth i x s
  | .pedestal x => atIndex 256 ix fun i => storePedestal i x s
  | .feeder x => atIndex 16 ix fun i => storeFeeder i x s
  | .pump x => atIndex 4 ix fun i => storePump i x s
  | .tank x => atIndex 2 ix fun i => storeTank i x s
  | .format x => atIndex 8 ix fun i => storeFormat i x s
  | .access x => atIndex 256 ix fun i => storeAccess i x s
  | .gate x => atIndex 20 ix fun i => storeGate i x s
  | .level x => atIndex 28 ix fun i => storeLevel i x s
  | .port x => atIndex 3 ix fun i => storePort i x s
  | .cred x => atIndex 1024 ix fun i => storeCred i x s
  | .account x => atIndex 512 ix fun i => storeAccount i x s
  | .power _ => .error .state
  | .water _ => .error .state
  | .sale _ => .error .state
  | .passage _ => .error .state

end Sys2Proof.Machine
end

