-- ==== Sys2Proof/Machine/Ports.lean ====
section
/-! DEFINITION. The command ports (09): table access, LIST, NEXT, STATUS, and the characters of a line. -/

namespace Sys2Proof.Machine

/-! ### Entries of the tables (R169) -/

/-- How many entries a table has. -/
def tableSize (s : State) : TableName → Nat
  | .site => 1
  | .cls => 4
  | .rate => 96
  | .hourband => 24
  | .berth => 512
  | .pedestal => 256
  | .feeder => 16
  | .pump => 4
  | .tank => 2
  | .format => 8
  | .access => 256
  | .gate => 20
  | .level => 28
  | .port => 3
  | .cred => 1024
  | .account => 512
  | .power => 512
  | .water => 256
  | .sale => s.saleLog.length
  | .passage => s.passages.length

/-- A copy of an entry as it stands; none at an index outside the table. -/
def entryAt (s : State) (t : TableName) (ix : Nat) : Option Entry :=
  match t with
  | .site => if ix = 0 then some (.site s.site) else none
  | .cls => (ident 4 ix).map fun i => .cls (s.classes.get i)
  | .rate => (ident 96 ix).map fun i => .rate (s.rates.get i)
  | .hourband => (ident 24 ix).map fun i => .hourband (s.bands.get i)
  | .berth => (ident 512 ix).map fun i => .berth (s.berth i)
  | .pedestal => (ident 256 ix).map fun i => .pedestal (s.pedestal i)
  | .feeder => (ident 16 ix).map fun i => .feeder (s.feeder i)
  | .pump => (ident 4 ix).map fun i => .pump (s.pump i)
  | .tank => (ident 2 ix).map fun i => .tank (s.tank i)
  | .format => (ident 8 ix).map fun i => .format (s.formats.get i)
  | .access => (ident 256 ix).map fun i => .access (s.access.get i)
  | .gate => (ident 20 ix).map fun i => .gate (s.gate i)
  | .level => (ident 28 ix).map fun i => .level (s.levels.get i)
  | .port => (ident 3 ix).map fun i => .port (s.thresholds.get i)
  | .cred => (ident 1024 ix).map fun i => .cred (s.cred i)
  | .account => (ident 512 ix).map fun i => .account (s.account i)
  | .power => (ident 512 ix).map fun i => .power (s.power.get i)
  | .water => (ident 256 ix).map fun i => .water (s.water.get i)
  | .sale => s.saleLog[ix]?.map Entry.sale
  | .passage => s.passages[ix]?.map Entry.passage

/-- The port's cursor goes to an entry and its holding record is loaded from it; EMPTY where there is none. -/
def loadHolding (p : PortId) (t : TableName) (ix : Nat) (s : State) : State :=
  putPort p { s.port p with cursor := { table := t, index := ix }, holding := entryAt s t ix } s

/-- The next index of a table, wrapping to 0. -/
def nextIndex (s : State) (t : TableName) (ix : Nat) : Nat := if ix + 1 < tableSize s t then ix + 1 else 0

/-- Steps 2 and 3 of R172. -/
def advanceCursor (p : PortId) (s : State) : State :=
  let c := (s.port p).cursor
  loadHolding p c.table (nextIndex s c.table c.index) s

/-- Table, index and edition, as SELECT and READ write them (R187). -/
def cursorItems (t : TableName) (ix : Nat) (e : Entry) : List Item :=
  [wordItem (tableWord t), numItem ix, .val (editionAtom e.edition?)]

/-! ### SELECT (R170), PUT (R171), STORE (R172), READ (R173) -/

def selectOwner (p : PortId) (table : TableName) (index : Nat) (s : State) : Answer :=
  match entryAt s table index with
  | none => .error .range
  | some e => done (loadHolding p table index s) (cursorItems table index e)

def execSelect (o : Origin) (table : TableName) (index : Nat) (s : State) : Host.Outcome State Fault Refusal :=
  .next (portCommand (.select o table index) o portsAll .anyTime (selectOwner o.port table index) s)

def putOwner (p : PortId) (field value : String) (s : State) : Answer :=
  match (s.port p).holding with
  | none => .error .state
  | some e =>
    if e.readOnly then .error .state
    else
      match e.put field value with
      | .error r => .error r
      | .ok w =>
        done (putPort p { s.port p with holding := some w.entry } s)
          (.val w.value :: (if w.clamped then [wordItem "CLAMPED"] else []))

def execPut (o : Origin) (field value : String) (s : State) : Host.Outcome State Fault Refusal :=
  .next (portCommand (.put o field value) o portO .anyTime (putOwner o.port field value) s)

/-- The configuration tables, which a SAVE in flight locks (R172); CRED and ACCOUNT are retained tables. -/
def isConfigurationTable : TableName → Bool
  | .cred => false
  | .account => false
  | .power => false
  | .water => false
  | .sale => false
  | .passage => false
  | _ => true

def storeOwner (p : PortId) (s : State) : Answer :=
  let c := (s.port p).cursor
  match (s.port p).holding, entryAt s c.table c.index with
  | some e, some now =>
    if e.readOnly then .error .state
    else if isConfigurationTable c.table && s.save.isSome then .error .busy
    else if e.edition? ≠ now.edition? then .error .stale
    else
      match ownerStore e c.index s with
      | .error r => .error r
      | .ok t =>
        done (advanceCursor p t)
          [numItem c.index, .val (editionAtom ((entryAt t c.table c.index).bind Entry.edition?))]
  | _, _ => .error .state

def execStore (o : Origin) (s : State) : Host.Outcome State Fault Refusal :=
  .next (portCommand (.store o) o portO .anyTime (storeOwner o.port) s)

def readOwner (p : PortId) (s : State) : Answer :=
  let c := (s.port p).cursor
  match (s.port p).holding with
  | none => done s [wordItem "EMPTY"]
  | some e => done (advanceCursor p s) (cursorItems c.table c.index e ++ shownItems e.shown)

def execRead (o : Origin) (s : State) : Host.Outcome State Fault Refusal :=
  .next (portCommand (.read o) o portsAll .anyTime (readOwner o.port) s)

/-! ### LIST (R174) -/

/-- The sessions of a table, by ascending slot. -/
def sessionsOf {α : Type} {n : Nat} (t : Table (Option α) n) : List α := t.toList.filterMap id

/-- An item of a wait list: socket, account, wish, and whether amps of a shed grant are still held. -/
def waitShown (s : State) (k : SocketId) : List Shown :=
  match s.power.get k with
  | none => [("socket", numAtom k)]
  | some x =>
    [ ("socket", numAtom k), ("account", numAtom x.account), ("wish", natAtom x.wish.amps)
    , ("holds_amps", flagAtom (x.held ≠ 0)) ]

/-- One MORE line for each record, then DONE with their number. -/
def listReply (records : List (List Shown)) : List ReplyLine :=
  (records.map fun r => ReplyLine.more (shownItems r)) ++ [.done [numItem records.length]]

def listOwner (what : ListName) (s : State) : Answer :=
  match what with
  | .sale => .ok (s, listReply (s.saleLog.map Sale.shown))
  | .passage => .ok (s, listReply (s.passages.map Passage.shown))
  | .power => .ok (s, listReply ((sessionsOf s.power).map PowerSession.shown))
  | .water => .ok (s, listReply ((sessionsOf s.water).map WaterSession.shown))
  | .wait f =>
    match ident 16 f with
    | none => .error .range
    | some i => .ok (s, listReply ((s.feeder i).waitList.map (waitShown s)))

def execList (o : Origin) (what : ListName) (s : State) : Host.Outcome State Fault Refusal :=
  .next (portCommand (.list o what) o portsAll .anyTime (listOwner what) s)

/-! ### NEXT (R177) -/

def nextOwner (p : PortId) (s : State) : Answer :=
  match (s.port p).queue with
  | [] => done s [wordItem "EMPTY"]
  | n :: rest => done (putPort p { s.port p with queue := rest, attn := !rest.isEmpty } s) n.items

def execNext (o : Origin) (s : State) : Host.Outcome State Fault Refusal :=
  .next (portCommand (.next o) o portsAll .anyTime (nextOwner o.port) s)

/-! ### STATUS (R178) -/

/-- NONE, or the rollover date and the cursor. -/
def rolloverItems : Option Rollover → List Item
  | none => [.val .absent]
  | some r => [dateItem r.date, numItem r.cursor]

/-- The length of the asking port's queue, and GAP when any notice has its gap flag set. -/
def queueItems (q : List Notice) : List Item :=
  numItem q.length :: (if q.any Notice.gap then [wordItem "GAP"] else [])

def openAccounts (s : State) : Nat := (s.accounts.toList.filter fun x => x.state ≠ .free).length

def statusItems (p : PortId) (s : State) : List Item :=
  [ wordItem s.device.word, dateItem s.clock.date, .val (.time s.clock.time), wordItem (yesNo s.clockSet)
  , dateItem (rolloverDate s), .val (dateAtom s.lastRollover) ]
  ++ rolloverItems s.rollover
  ++ [ wordItem (yesNo s.rolloverPending), wordItem (yesNo s.save.isSome)
     , wordItem (if s.mainsOk then "OK" else "LOST") ]
  ++ queueItems (s.port p).queue
  ++ [ numItem (openAccounts s), numItem (sessionsOf s.power).length, numItem (sessionsOf s.water).length
     , numItem (openSales s).length ]

def execStatus (o : Origin) (s : State) : Host.Outcome State Fault Refusal :=
  .next (portCommand (.status o) o portsAll .anyTime (fun t => done t (statusItems o.port t)) s)

/-! ### Lines (R164 to R166) -/

/-- The line is empty or holds only spaces. -/
def blankLine (line : List Byte) : Bool := line.all (· = space)

/-- A character at a port in IDLE. The overlong mark is looked at before the blanks (log 6). -/
def Port.character (ch : Byte) (p : Port) : Port :=
  if ch = lineFeed then p
  else if ch = carriageReturn then
    if blankLine p.line && !p.overlong then { p with line := [] } else { p with state := .lineEnded }
  else if p.line.length < Config.lineRoom && !p.overlong then { p with line := p.line ++ [ch] }
  else { p with overlong := true }

/-- A character: in ANSWERING it is discarded. -/
def portCharacter (port : PortId) (ch : Byte) (s : State) : State :=
  let p := s.port port
  if p.state = .idle then putPort port (p.character ch) s else s

def execPortCharacter (port : PortId) (ch : Byte) (s : State) : Host.Outcome State Fault Refusal :=
  .next (event (portCharacter port ch) s)

/-- The partial line is discarded (R164). -/
def lineTimeout (port : PortId) (s : State) : State :=
  let p := s.port port
  if p.state = .idle then putPort port { p with line := [], overlong := false } s else s

def execLineTimeout (port : PortId) (s : State) : Host.Outcome State Fault Refusal :=
  .next (event (lineTimeout port) s)

/-- The last line of the reply has been sent: IDLE with an empty assembler (R164). -/
def replySent (port : PortId) (s : State) : State :=
  let p := s.port port
  if p.state = .replying then putPort port { p with state := .idle, line := [], overlong := false } s else s

def execReplySent (port : PortId) (s : State) : Host.Outcome State Fault Refusal :=
  .next (event (replySent port) s)

/-- A line that a check fails is answered BAD; a line that is a command is not this row's. -/
def answerBad (port : PortId) (c : LineCheck) (s : State) : State :=
  match c with
  | .bad b suffix => reply port suffix [.bad b] s
  | .command _ => s

/-- An ended line that fails checks 1 to 3 of R166: it arrives whole at an IDLE port, or it is the line the port has ended (log 3). -/
def unknownLine (port : PortId) (line : List Byte) (s : State) : State :=
  let p := s.port port
  match p.state with
  | .idle => if lineForm line then answerBad port (checkLine port line) s else s
  | .lineEnded => if line = p.line then answerBad port (checkHeldLine port p) s else s
  | .replying => s

def execUnknownCommandLine (port : PortId) (line : List Byte) (s : State) : Host.Outcome State Fault Refusal :=
  .next (event (unknownLine port line) s)

end Sys2Proof.Machine
end

