-- ==== Sys2Proof/Machine/Power.lean ====
section
/-! DEFINITION. The commands of shore power and water (06, R97, R106, R107, R113, R115, R118). -/

namespace Sys2Proof.Machine

/-! ### REQUEST_POWER (R97) -/

/-- A session as R97 makes it, before admission. R97 names its wish, start time, energy and flags.
DESIGN CHOICE (log 33): the grant stamp and the last current, of which R97 says nothing, begin at 0; nothing is granted or held before the first grant (R99, R101). -/
def newSession (s : State) (a : AccountId) (wish : Rating) : PowerSession :=
  { state := .waiting, account := a, wish := wish, fallback32 := false, granted := 0, held := 0, grantStamp := 0
    lastCurrent := 0, energy := 0, start := s.clock, cause := none, shed := false, stepped := false
    confirmMisses := 0, fault := false, closeReason := none }

/-- The checks of R97 after the device state: the socket of the session to be, or the refusal. -/
def powerSocket (s : State) (a : AccountId) : Except Refuse SocketId :=
  let x := s.account a
  match x.state, x.berth with
  | .berthed, some n =>
    match (s.berth n).cfg.socket with
    | none => .error .noEntry
    | some k =>
      if x.standing ≠ .good then .error .standing
      else if x.power ≠ none ∨ s.power.get k ≠ none then .error .inUse
      else if pedestalOffline s (pedestalOf k) then .error .offline
      else .ok k
  | _, _ => .error .state

/-- What the reply says of a session after its admission: SWITCHING with the granted rating, or WAITING with the position (R99). -/
def admittedItems (t : State) (k : SocketId) : List Item :=
  match t.power.get k with
  | none => []
  | some x =>
    if x.state = .waiting then [wordItem x.state.word, numItem (t.feeder (feederOf t k)).waitList.length]
    else [wordItem x.state.word, numItem x.granted]

/-- A request for power: the checks, the session, its admission. -/
def requestPower (b : State) (a : AccountId) (wish : Rating) (s : State) : Except Refuse (State × List Item) :=
  match powerSocket s a with
  | .error e => .error e
  | .ok k =>
    match enterAdmission b k (newSession s a wish) s with
    | none => .error .full
    | some t => .ok (modAccount b a (fun x => { x with power := some k }) t, admittedItems t k)

def requestPowerOwner (account wish : Nat) (s : State) : Answer :=
  match ident 512 account, ratingOf wish with
  | some a, some w =>
    if s.device ≠ .opened then .error .holdover
    else
      match requestPower s a w s with
      | .error e => .error e
      | .ok (t, items) => done t items
  | _, _ => .error .range

def execRequestPower (o : Origin) (account wish : Nat) (s : State) : Host.Outcome State Fault Refusal :=
  .next (portCommand (.requestPower o account wish) o portsOP .trade (requestPowerOwner account wish) s)

/-! ### RESET_SOCKET (R106) -/

/-- R106 step 1. -/
def requestClearTrip (b : State) (k : SocketId) (s : State) : State :=
  modPedestal b (pedestalOf k) (fun p =>
    { p with desired := p.desired.put (positionOf k) { p.desired.get (positionOf k) with clearTrip := true } }) s

/-- The account is still BERTHED on a berth naming the socket. -/
def berthedOn (s : State) (a : AccountId) (k : SocketId) : Bool :=
  match (s.account a).state, (s.account a).berth with
  | .berthed, some n => (s.berth n).cfg.socket = some k
  | _, _ => false

/-- R106 steps 2 and 3 for the TRIPPED session `x` of the slot: it ends, and its account asks again. -/
def resetTripped (b : State) (k : SocketId) (x : PowerSession) (s : State) : State × List Item :=
  let t := endPower b k .reset s
  if berthedOn t x.account k then
    match requestPower b x.account x.wish t with
    | .error e => (t, [wordItem e.word])
    | .ok r => r
  else (t, [wordItem "NONE"])

def resetSocketThis (k : SocketId) (s : State) : Answer :=
  if !socketPresent s k then .error .noEntry
  else
    match s.power.get k with
    | none => done (requestClearTrip s k s) [wordItem "NONE"]
    | some x =>
      if x.state = .tripped then
        let r := resetTripped s k x (requestClearTrip s k s)
        done r.1 r.2
      else .error .state

def resetSocketOwner (socket : Nat) (s : State) : Answer :=
  match ident 512 socket with
  | none => .error .range
  | some k => if s.device ≠ .opened then .error .holdover else resetSocketThis k s

def execResetSocket (o : Origin) (socket : Nat) (s : State) : Host.Outcome State Fault Refusal :=
  .next (portCommand (.resetSocket o socket) o portsOP .trade (resetSocketOwner socket) s)

/-! ### END_POWER (R107) -/

/-- The resulting state of END_POWER and END_WATER. -/
def endingWord (stillThere : Bool) : Item := wordItem (if stillThere then "CLOSING" else "ENDED")

def endPowerOwner (account : Nat) (s : State) : Answer :=
  match ident 512 account with
  | none => .error .range
  | some a =>
    match (s.account a).power with
    | none => .error .state
    | some k =>
      let t := closePower s k .finished true s
      done t [endingWord ((t.account a).power.isSome)]

def execEndPower (o : Origin) (account : Nat) (s : State) : Host.Outcome State Fault Refusal :=
  .next (portCommand (.endPower o account) o portsOP .trade (endPowerOwner account) s)

/-! ### RELIEF_HOLD_EXPIRY (R113) -/

/-- The hold is removed and the list is served. In LOADING no hold runs: the warm start removes it (R121, log 4). -/
def reliefExpiry (f : FeederId) (s : State) : State :=
  if s.device = .loading ∨ (s.feeder f).relief = none then s
  else s |> modFeeder s f (fun x => { x with relief := none }) |> serve s f

def execReliefHoldExpiry (feeder : FeederId) (s : State) : Host.Outcome State Fault Refusal :=
  .next (event (reliefExpiry feeder) s)

/-! ### REQUEST_WATER (R115) -/

def requestWaterThis (a : AccountId) (s : State) : Answer :=
  let x := s.account a
  if s.device ≠ .opened then .error .holdover
  else
    match x.state, x.berth with
    | .berthed, some n =>
      match (s.berth n).cfg.tap with
      | none => .error .noEntry
      | some t =>
        if x.standing = .barred then .error .standing
        else if x.water ≠ none then .error .inUse
        else if s.water.get t ≠ none then .error .inUse
        else if pedestalOffline s t then .error .offline
        else
          done (s |> putWater s t (some
                      { state := .opening, account := a, berth := n, volume := 0, confirmMisses := 0
                        fault := false, closeReason := none })
                  |> modAccount s a (fun y => { y with water := some t })) []
    | _, _ => .error .state

def requestWaterOwner (account : Nat) (s : State) : Answer :=
  match ident 512 account with
  | none => .error .range
  | some a => requestWaterThis a s

def execRequestWater (o : Origin) (account : Nat) (s : State) : Host.Outcome State Fault Refusal :=
  .next (portCommand (.requestWater o account) o portsOP .trade (requestWaterOwner account) s)

/-! ### END_WATER (R118) -/

def endWaterOwner (account : Nat) (s : State) : Answer :=
  match ident 512 account with
  | none => .error .range
  | some a =>
    match (s.account a).water with
    | none => .error .state
    | some t =>
      let u := closeWater s t .finished true s
      done u [endingWord ((u.account a).water.isSome)]

def execEndWater (o : Origin) (account : Nat) (s : State) : Host.Outcome State Fault Refusal :=
  .next (portCommand (.endWater o account) o portsOP .trade (endWaterOwner account) s)

end Sys2Proof.Machine
end

