-- ==== Sys2Proof/Machine/Image.lean ====
section
/-! DEFINITION. The site image (11 "Site image", R189): the bytes of the tables, the loader's judgement (R181), and the marker. Bit packings inside a byte and the gate kind codes are log 30. -/

namespace Sys2Proof.Machine

/-! ### Writing -/

/-- A signed number in two's complement. -/
def intBytes (k : Nat) (z : Int) : List Byte := natToBytes k (z % (256 ^ k : Nat)).toNat

/-- Flags in one byte, the first named the least significant bit (log 30). -/
def flagsNat : List Bool → Nat
  | [] => 0
  | b :: bs => b.toNat + 2 * flagsNat bs

/-- An absent socket or tap is written as 65,535 (R189). -/
def optBytes {k : Nat} : Option (Fin k) → List Byte
  | none => natToBytes 2 65535
  | some i => natToBytes 2 i.val

def SiteCfg.bytes (x : SiteCfg) : List Byte :=
  natToBytes 1 x.rolloverHour ++ natToBytes 2 x.clearance ++ intBytes 2 x.leastWater ++ natToBytes 1 x.graceDays
    ++ natToBytes 2 x.pollInterval

def ClassCfg.bytes (x : ClassCfg) : List Byte :=
  intBytes 4 x.floor ++ natToBytes 1 x.grace ++ natToBytes 1 x.maxRating.amps ++ natToBytes 1 x.fuelOnAccount.toNat
    ++ natToBytes 2 x.waterCap ++ natToBytes 1 x.revokeAtDeparture.toNat

def BerthImage.bytes (x : BerthImage) : List Byte :=
  natToBytes 1 x.cfg.pontoon.val ++ natToBytes 2 x.cfg.loaMin ++ natToBytes 2 x.cfg.loaMax ++ natToBytes 2 x.cfg.beamMax
    ++ natToBytes 1 (flagsNat [x.cfg.alongside, x.outOfService]) ++ natToBytes 2 x.cfg.depth
    ++ optBytes x.cfg.socket ++ optBytes x.cfg.tap

def PedestalCfg.bytes (x : PedestalCfg) : List Byte :=
  natToBytes 1 (x.installed.toNat + 2 * kindCode x.kind + 8 * x.segment.val) ++ natToBytes 1 x.address.val
    ++ natToBytes 1 x.feeder.val ++ natToBytes 1 (x.ratings.get 0).amps ++ natToBytes 1 (x.ratings.get 1).amps

def FeederCfg.bytes (x : FeederCfg) : List Byte := natToBytes 2 x.rating ++ natToBytes 2 x.diversity

def PumpCfg.bytes (x : PumpCfg) : List Byte :=
  natToBytes 1 (x.installed.toNat + 2 * x.product.val) ++ natToBytes 3 x.maxPerSale

def TankCfg.bytes (x : TankCfg) : List Byte := natToBytes 4 x.capacity ++ natToBytes 4 x.reserve ++ natToBytes 4 x.low

/-- A parity check. DESIGN CHOICE (log 30): the sense is the second flag, EVEN 0 and ODD 1. -/
def Parity.bytes (x : Parity) : List Byte :=
  natToBytes 1 (flagsNat [x.present, x.odd]) ++ natToBytes 1 x.bit ++ natToBytes 1 x.start ++ natToBytes 1 x.length

def FormatCfg.bytes (x : FormatCfg) : List Byte :=
  natToBytes 1 x.enabled.toNat ++ natToBytes 1 x.length ++ natToBytes 1 x.sitePos ++ natToBytes 1 x.siteLen
    ++ natToBytes 1 x.idPos ++ natToBytes 1 x.idLen ++ (x.parity.get 0).bytes ++ (x.parity.get 1).bytes

def AccessCfg.bytes (x : AccessCfg) : List Byte :=
  natToBytes 1 (flagsNat [x.allowed, x.ownPontoonOnly, x.inArrears]) ++ natToBytes 1 x.startHour ++ natToBytes 1 x.endHour

def gateKindCode : GateKind → Nat
  | .shore => 0
  | .pontoon => 1
  | .service => 2

/-- 0 for NORMAL, 1 for HELD_OPEN, 2 for OUT_OF_SERVICE (R189). -/
def gateModeCode : GateMode → Nat
  | .normal => 0
  | .heldOpen => 1
  | .outOfService => 2

def GateCfg.bytes (x : GateCfg) : List Byte :=
  natToBytes 1 (gateKindCode x.kind) ++ natToBytes 1 x.pontoon.val ++ [x.mask, x.page]
    ++ natToBytes 1 (x.passback.toNat + 2 * gateModeCode x.mode) ++ natToBytes 1 x.release

/-- A table's entries in index order. -/
def tableBytes {α : Type} {n : Nat} (f : α → List Byte) (t : Table α n) : List Byte := t.toList.flatMap f

/-- The 10,039 table bytes. -/
def SiteTables.bytes (t : SiteTables) : List Byte :=
  t.site.bytes ++ tableBytes ClassCfg.bytes t.classes ++ tableBytes (natToBytes 4) t.rates
    ++ tableBytes (fun b => natToBytes 1 b.val) t.bands ++ tableBytes BerthImage.bytes t.berths
    ++ tableBytes PedestalCfg.bytes t.pedestals ++ tableBytes FeederCfg.bytes t.feeders
    ++ tableBytes PumpCfg.bytes t.pumps ++ tableBytes TankCfg.bytes t.tanks ++ tableBytes FormatCfg.bytes t.formats
    ++ tableBytes AccessCfg.bytes t.access ++ tableBytes GateCfg.bytes t.gates
    ++ tableBytes (fun l => natToBytes 1 l.val) t.levels ++ tableBytes (natToBytes 1) t.thresholds

/-- One's complement of the sum, modulo 65,536, of the table bytes. -/
def sumField (body : List Byte) : Nat := 65535 - (body.map BitVec.toNat).sum % 65536

/-- Marker, version, length, sum. -/
def imageHeader (body : List Byte) : List Byte :=
  natToBytes 2 Config.imageMarker ++ natToBytes 1 Config.imageVersion ++ natToBytes 3 Config.imageTableBytes
    ++ natToBytes 2 (sumField body)

/-- The whole image of some tables. -/
def imageOf (t : SiteTables) : List Byte := imageHeader t.bytes ++ t.bytes

/-- The image with its marker erased (log 15). -/
def eraseMarker (image : List Byte) : List Byte := [255, 255] ++ image.drop 2

/-! ### Reading -/

/-- A reader of some bytes: what it read and the bytes that follow, or none. -/
abbrev Take (α : Type) := List Byte → Option (α × List Byte)

/-- A whole number of `k` bytes. -/
def takeNat (k : Nat) : Take Nat := fun bs =>
  if (bs.take k).length = k then some (bytesToNat (bs.take k), bs.drop k) else none

/-- What a reader gives, passed on when a second test gives a value for it. -/
def takeAs {α β : Type} (r : Take α) (f : α → Option β) : Take β := fun bs =>
  match r bs with
  | none => none
  | some (x, rest) => (f x).map fun y => (y, rest)

def takeFin (n k : Nat) : Take (Fin n) := takeAs (takeNat k) (ident n)

/-- A signed number in two's complement. -/
def signed (k n : Nat) : Int := if 2 * n < 256 ^ k then n else (n : Int) - (256 ^ k : Nat)

def takeInt (k : Nat) : Take Int := takeAs (takeNat k) fun n => some (signed k n)

/-- A yes/no field: 1 or 0 (R189). -/
def flagOf (n : Nat) : Option Bool := if n = 0 then some false else if n = 1 then some true else none

def takeFlag : Take Bool := takeAs (takeNat 1) flagOf

/-- `k` flags of a byte; none when a bit is set that the table does not name (R189). -/
def flagBits (k n : Nat) : Option (List Bool) :=
  if n < 2 ^ k then some ((List.range k).map fun i => n.testBit i) else none

def takeFlags (k : Nat) : Take (List Bool) := takeAs (takeNat 1) (flagBits k)

/-- A socket or tap: 65,535 reads as absent. -/
def optOf (k n : Nat) : Option (Option (Fin k)) := if n = 65535 then some none else (ident k n).map some

def takeOpt (k : Nat) : Take (Option (Fin k)) := takeAs (takeNat 2) (optOf k)

def takeRating : Take Rating := takeAs (takeNat 1) ratingOf

def takeByte : Take Byte := takeAs (takeNat 1) fun n => some (BitVec.ofNat 8 n)

def takeSite : Take SiteCfg := fun bs => do
  let (hour, bs) ← takeNat 1 bs
  let (clearance, bs) ← takeNat 2 bs
  let (water, bs) ← takeInt 2 bs
  let (grace, bs) ← takeNat 1 bs
  let (interval, bs) ← takeNat 2 bs
  pure ({ rolloverHour := hour, clearance := clearance, leastWater := water, graceDays := grace
          pollInterval := interval }, bs)

def takeClass : Take ClassCfg := fun bs => do
  let (floor, bs) ← takeInt 4 bs
  let (grace, bs) ← takeNat 1 bs
  let (rating, bs) ← takeRating bs
  let (fuel, bs) ← takeFlag bs
  let (cap, bs) ← takeNat 2 bs
  let (revoke, bs) ← takeFlag bs
  pure ({ floor := floor, grace := grace, maxRating := rating, fuelOnAccount := fuel, waterCap := cap
          revokeAtDeparture := revoke }, bs)

def takeBerth : Take BerthImage := fun bs => do
  let (pontoon, bs) ← takeFin 16 1 bs
  let (loaMin, bs) ← takeNat 2 bs
  let (loaMax, bs) ← takeNat 2 bs
  let (beamMax, bs) ← takeNat 2 bs
  let (flags, bs) ← takeFlags 2 bs
  let (depth, bs) ← takeNat 2 bs
  let (socket, bs) ← takeOpt 512 bs
  let (tap, bs) ← takeOpt 256 bs
  pure ({ cfg := { pontoon := pontoon, loaMin := loaMin, loaMax := loaMax, beamMax := beamMax
                   alongside := flags.getD 0 false, depth := depth, socket := socket, tap := tap }
          outOfService := flags.getD 1 false }, bs)

def kindOf (n : Nat) : PedestalKind :=
  match n % 4 with
  | 0 => .twin
  | 1 => .single
  | 2 => .power2
  | _ => .tap

/-- The first byte of a pedestal: bits above the segment's are not named. -/
def below32 (n : Nat) : Option Nat := if n < 32 then some n else none

def takePedestal : Take PedestalCfg := fun bs => do
  let (head, bs) ← takeAs (takeNat 1) below32 bs
  let (address, bs) ← takeFin 64 1 bs
  let (feeder, bs) ← takeFin 16 1 bs
  let (ratingA, bs) ← takeRating bs
  let (ratingB, bs) ← takeRating bs
  pure ({ installed := head % 2 = 1, kind := kindOf (head / 2), segment := Fin.ofNat 4 (head / 8)
          address := address, feeder := feeder
          ratings := Table.build fun i => if i = 0 then ratingA else ratingB }, bs)

def takeFeeder : Take FeederCfg := fun bs => do
  let (rating, bs) ← takeNat 2 bs
  let (diversity, bs) ← takeNat 2 bs
  pure ({ rating := rating, diversity := diversity }, bs)

def takePump : Take PumpCfg := fun bs => do
  let (head, bs) ← takeFlags 2 bs
  let (most, bs) ← takeNat 3 bs
  pure ({ installed := head.getD 0 false, product := if head.getD 1 false then 1 else 0, maxPerSale := most }, bs)

def takeTank : Take TankCfg := fun bs => do
  let (capacity, bs) ← takeNat 4 bs
  let (reserve, bs) ← takeNat 4 bs
  let (low, bs) ← takeNat 4 bs
  pure ({ capacity := capacity, reserve := reserve, low := low }, bs)

def takeParity : Take Parity := fun bs => do
  let (flags, bs) ← takeFlags 2 bs
  let (bit, bs) ← takeNat 1 bs
  let (start, bs) ← takeNat 1 bs
  let (length, bs) ← takeNat 1 bs
  pure ({ present := flags.getD 0 false, odd := flags.getD 1 false, bit := bit, start := start, length := length }, bs)

def takeFormat : Take FormatCfg := fun bs => do
  let (enabled, bs) ← takeFlag bs
  let (length, bs) ← takeNat 1 bs
  let (sitePos, bs) ← takeNat 1 bs
  let (siteLen, bs) ← takeNat 1 bs
  let (idPos, bs) ← takeNat 1 bs
  let (idLen, bs) ← takeNat 1 bs
  let (p, bs) ← takeParity bs
  let (q, bs) ← takeParity bs
  pure ({ enabled := enabled, length := length, sitePos := sitePos, siteLen := siteLen, idPos := idPos, idLen := idLen
          parity := Table.build fun i => if i = 0 then p else q }, bs)

def takeAccess : Take AccessCfg := fun bs => do
  let (flags, bs) ← takeFlags 3 bs
  let (start, bs) ← takeNat 1 bs
  let (stop, bs) ← takeNat 1 bs
  pure ({ allowed := flags.getD 0 false, ownPontoonOnly := flags.getD 1 false, inArrears := flags.getD 2 false
          startHour := start, endHour := stop }, bs)

/-- The kind a code names. -/
def gateKindOf (n : Nat) : Option GateKind :=
  match n with
  | 0 => some .shore
  | 1 => some .pontoon
  | 2 => some .service
  | _ => none

/-- Passback and mode: bit 0, then the mode's code. -/
def gateModeOf (n : Nat) : Option (Bool × GateMode) :=
  match n / 2 with
  | 0 => some (n % 2 = 1, .normal)
  | 1 => some (n % 2 = 1, .heldOpen)
  | 2 => some (n % 2 = 1, .outOfService)
  | _ => none

def takeGate : Take GateCfg := fun bs => do
  let (kind, bs) ← takeAs (takeNat 1) gateKindOf bs
  let (pontoon, bs) ← takeFin 16 1 bs
  let (mask, bs) ← takeByte bs
  let (page, bs) ← takeByte bs
  let (mode, bs) ← takeAs (takeNat 1) gateModeOf bs
  let (time, bs) ← takeNat 1 bs
  pure ({ kind := kind, pontoon := pontoon, mask := mask, page := page, passback := mode.1, release := time
          mode := mode.2 }, bs)

/-- `n` entries, one after the other. -/
def takeMany {α : Type} (r : Take α) : Nat → Take (List α)
  | 0 => fun bs => some ([], bs)
  | n + 1 => fun bs => do
    let (x, bs) ← r bs
    let (xs, bs) ← takeMany r n bs
    pure (x :: xs, bs)

/-- A table from the list of its entries. -/
def tableOf {α : Type} (n : Nat) (xs : List α) : Option (Table α n) :=
  if h : xs.length = n then some ⟨⟨⟨xs⟩, by simpa using h⟩⟩ else none

def takeTable {α : Type} (n : Nat) (r : Take α) : Take (Table α n) := takeAs (takeMany r n) (tableOf n)

def takeTables : Take SiteTables := fun bs => do
  let (site, bs) ← takeSite bs
  let (classes, bs) ← takeTable 4 takeClass bs
  let (rates, bs) ← takeTable 96 (takeNat 4) bs
  let (bands, bs) ← takeTable 24 (takeFin 4 1) bs
  let (berths, bs) ← takeTable 512 takeBerth bs
  let (pedestals, bs) ← takeTable 256 takePedestal bs
  let (feeders, bs) ← takeTable 16 takeFeeder bs
  let (pumps, bs) ← takeTable 4 takePump bs
  let (tanks, bs) ← takeTable 2 takeTank bs
  let (formats, bs) ← takeTable 8 takeFormat bs
  let (access, bs) ← takeTable 256 takeAccess bs
  let (gates, bs) ← takeTable 20 takeGate bs
  let (levels, bs) ← takeTable 28 (takeFin 16 1) bs
  let (thresholds, bs) ← takeTable 3 (takeNat 1) bs
  pure ({ site := site, classes := classes, rates := rates, bands := bands, berths := berths, pedestals := pedestals
          feeders := feeders, pumps := pumps, tanks := tanks, formats := formats, access := access, gates := gates
          levels := levels, thresholds := thresholds }, bs)

/-! ### The judgement (R181) -/

/-- Check 6: every entry passes the range checks of its table's STORE rule; what a type holds in range needs no test. -/
def SiteTables.inRange (t : SiteTables) : Bool :=
  t.site.inRange && t.classes.toList.all ClassCfg.inRange && t.rates.toList.all rateInRange
    && t.berths.toList.all (fun b => b.cfg.inRange) && t.feeders.toList.all FeederCfg.inRange
    && t.pumps.toList.all PumpCfg.inRange && t.tanks.toList.all TankCfg.inRange
    && t.formats.toList.all FormatCfg.inRange && t.access.toList.all AccessCfg.inRange
    && (List.finRange 20).all (fun g => (t.gates.get g).inRange g) && t.thresholds.toList.all thresholdInRange

/-- The installed pedestals, in order. -/
def SiteTables.installed (t : SiteTables) : List PedestalCfg := t.pedestals.toList.filter PedestalCfg.installed

/-- A property of every two of a list, the earlier first. -/
def everyTwo {α : Type} (p : α → α → Bool) : List α → Bool
  | [] => true
  | x :: xs => xs.all (p x) && everyTwo p xs

/-- The socket exists on an installed pedestal of a kind that has it. -/
def SiteTables.hasSocket (t : SiteTables) (k : SocketId) : Bool :=
  let c := t.pedestals.get (pedestalOf k)
  c.installed && c.kind.hasSocket (positionOf k)

def SiteTables.hasTap (t : SiteTables) (n : TapId) : Bool :=
  let c := t.pedestals.get n
  c.installed && c.kind.hasTap

def SiteTables.sockets (t : SiteTables) : List SocketId := t.berths.toList.filterMap fun b => b.cfg.socket

def SiteTables.taps (t : SiteTables) : List TapId := t.berths.toList.filterMap fun b => b.cfg.tap

/-- Check 7: the tables agree with one another. -/
def SiteTables.agree (t : SiteTables) : Bool :=
  everyTwo (fun c d => c.feeder ≠ d.feeder || c.segment = d.segment) t.installed
    && everyTwo (fun c d => c.segment ≠ d.segment || c.address ≠ d.address) t.installed
    && everyTwo (fun f g => f.length ≠ g.length) (t.formats.toList.filter FormatCfg.enabled)
    && (List.finRange 20).all (fun g => decide (((t.gates.get g).kind = .shore) = (g = 0)))
    && t.sockets.all t.hasSocket && t.taps.all t.hasTap
    && everyTwo (fun j k => j ≠ k) t.sockets && t.taps.all (fun n => t.taps.count n ≤ 2)

/-- Checks 2 to 5: the table bytes of an image whose header holds. -/
def imageBody (image : List Byte) : Option (List Byte) := do
  let (marker, bs) ← takeNat 2 image
  let (version, bs) ← takeNat 1 bs
  let (length, bs) ← takeNat 3 bs
  let (sum, bs) ← takeNat 2 bs
  let body := bs.take Config.imageTableBytes
  if marker = Config.imageMarker ∧ version = Config.imageVersion ∧ length = Config.imageTableBytes
      ∧ body.length = Config.imageTableBytes ∧ sumField body = sum then
    some body
  else none

/-- The tables of a valid image; none for a failed load. -/
def loadTables (image : List Byte) : Option SiteTables :=
  match imageBody image with
  | none => none
  | some body =>
    match takeTables body with
    | none => none
    | some (t, _) => if t.inRange && t.agree then some t else none

/-! ### The tables as they stand (R185, R189) -/

def Berth.image (x : Berth) : BerthImage := { cfg := x.cfg, outOfService := x.state = .outOfService }

/-- A copy of every configuration table. -/
def copyTables (s : State) : SiteTables :=
  { site := s.site.val, classes := s.classes.map Row.val, rates := s.rates.map Row.val, bands := s.bands.map Row.val
    berths := s.berths.map Berth.image, pedestals := s.pedestals.map Pedestal.cfg, feeders := s.feeders.map Feeder.cfg
    pumps := s.pumps.map Pump.cfg, tanks := s.tanks.map Tank.cfg, formats := s.formats.map Row.val
    access := s.access.map Row.val, gates := s.gates.map Gate.cfg, levels := s.levels.map Row.val
    thresholds := s.thresholds.map Row.val }

end Sys2Proof.Machine
end

