-- ==== Sys2Proof/Machine/Start.lean ====
section
/-! DEFINITION. Device states, loading, cold and warm starts, SAVE, mains holdover (10). -/

namespace Sys2Proof.Machine

/-! ### Entering a device state (R180) -/

/-- STATE_CHANGED, with the new state as its reason, and a value at the end of LOADING. -/
def stateChanged (value : Option Int) (s : State) : State :=
  raise .stateChanged { value := value, reason := some (.device s.device) } s

/-- The device state changes: every lock is set afresh (R160), and the rollover start condition is tested at an entry to OPEN or HOLDOVER (R65). -/
def enterState (b : State) (d : DeviceState) (s : State) : State :=
  let t := relockAll b { s with device := d }
  if d.trading then testRollover t else t

/-- Polling begins, or resumes after holdover: the round position is none and the first poll falls due at once (R75); the first pump poll goes to the lowest installed pump (R131).
DESIGN CHOICE (log 26): a segment with no installed pedestal has nothing to poll and gets no due mark; the STORE that installs its first sets none either, so its first poll falls due at a POLL_DUE. -/
def beginPolling (s : State) : State :=
  { s with
    segments := Table.build fun g =>
      { s.segment g with position := none, due := !(installedOn s g).isEmpty, outstanding := none }
    pumpLine := { s.pumpLine with last := none, outstanding := none } }

/-- Polling stops; an outstanding poll is abandoned without a judgement (R93, R145). -/
def stopPolling (s : State) : State :=
  { s with
    segments := s.segments.map fun x => { x with due := false, outstanding := none }
    pumpLine := { s.pumpLine with outstanding := none } }

/-! ### The start of LOADING (R181, R179) -/

/-- What an abandoned SAVE leaves of the image (R185). -/
def abandonedImage (stage : SaveStage) (s : State) : List Byte :=
  match s.save, stage with
  | none, _ => s.image
  | some _, .beforeErase => s.image
  | some _, .erased => eraseMarker s.image
  | some t, .headerWritten => imageOf t

/-- Each block takes its LOADING values; notices held by an abandoned load are discarded. -/
def enterLoading (stage : SaveStage) (s : State) : State :=
  { s with
    image := abandonedImage stage s, save := none, rollover := none, rolloverPending := false
    segments := Table.build fun _ => idleSegment
    pumpLine := idlePumpLine
    readers := Table.build fun _ => emptyReader
    ports := Table.build fun _ => loadingPort
    heldNotices := [] }
    |> enterState s .loading
    |> stateChanged none

/-- Power-on; the only row that a stopped part takes (log 16). -/
def execPowerOn (stage : SaveStage) (s : State) : Host.Outcome State Fault Refusal :=
  .next (enterLoading stage { s with stopped := false })

def execResetInput (stage : SaveStage) (s : State) : Host.Outcome State Fault Refusal :=
  .next (event (enterLoading stage) s)

/-- The part enters LOADING after the reply of RESTART, which its port keeps as the last it wrote (log 24). -/
def restartAfterReply (o : Origin) (s : State) : State :=
  let t := enterLoading .beforeErase s
  putPort o.port { t.port o.port with suffix := (s.port o.port).suffix, reply := (s.port o.port).reply } t

def restartOwner (s : State) : Answer := if s.save.isSome then .error .busy else done s []

/-- RESTART (R184). -/
def execRestart (o : Origin) (s : State) : Host.Outcome State Fault Refusal :=
  .next (portCommandThen (.restart o) o portO .restart restartOwner (restartAfterReply o) s)

/-! ### Cold start (R182) -/

/-- Every live record at its cold-start value, under the configuration that stands. -/
def clearRecords (s : State) : State :=
  { s with
    clock := coldClock, clockSet := false, lastRollover := none, rollover := none, rolloverPending := false
    accounts := Table.build coldAccount
    berths := s.berths.map fun x => coldBerth x.image
    pedestals := s.pedestals.map fun x => coldPedestal x.cfg
    power := Table.build fun _ => none
    water := Table.build fun _ => none
    feeders := s.feeders.map fun x => coldFeeder x.cfg
    grantCount := 0
    pumps := s.pumps.map fun x => coldPump x.cfg
    tanks := s.tanks.map fun x => coldTank x.cfg
    saleCounter := 0, saleLog := []
    creds := Table.build fun _ => coldCredential
    passages := [] }

/-- The configuration tables as loaded, their editions 0 (R181); berths, pedestals, feeders, pumps and tanks keep their live parts, gates are locked for LOADING with no expiry (R163, R183 step 6). -/
def takeConfiguration (t : SiteTables) (s : State) : State :=
  { s with
    site := loadedRow t.site, classes := t.classes.map loadedRow, rates := t.rates.map loadedRow
    bands := t.bands.map loadedRow, formats := t.formats.map loadedRow, access := t.access.map loadedRow
    levels := t.levels.map loadedRow, thresholds := t.thresholds.map loadedRow
    berths := Table.zipWith (fun x i => { x with cfg := i.cfg }) s.berths t.berths
    pedestals := Table.zipWith (fun x c => { x with cfg := c }) s.pedestals t.pedestals
    feeders := Table.zipWith (fun x c => { x with cfg := c }) s.feeders t.feeders
    pumps := Table.zipWith (fun x c => { x with cfg := c }) s.pumps t.pumps
    tanks := Table.zipWith (fun x c => { x with cfg := c }) s.tanks t.tanks
    gates := Table.build fun g => loadingGate g (t.gates.get g) }

/-- Cold values under the tables `t`: a berth is in service as the image records it (R60). -/
def coldRecords (t : SiteTables) (s : State) : State :=
  { clearRecords (takeConfiguration t s) with berths := t.berths.map coldBerth }

/-- The held notices are copied into the queues, in the order they were raised (R179). -/
def flushHeld (s : State) : State :=
  { s.heldNotices.foldl (fun t n => routeNotice n t) s with heldNotices := [] }

/-- Each port loads its holding record from SITE 0 (R179). -/
def loadPorts (s : State) : State :=
  s |> loadHolding .office .site 0 |> loadHolding .fuel .site 0 |> loadHolding .patrol .site 0

/-- The change that ends LOADING: reader queues empty (R147), the state entered with its locks and rollover test, ports, notices.
DESIGN CHOICE (log 31): where a start empties a reader's queue, its end timer stops too, so bits pulsed before never end a credential. -/
def endLoading (b : State) (d : DeviceState) (value : Int) (s : State) : State :=
  { s with readers := Table.build fun _ => emptyReader }
    |> enterState b d
    |> (if d.polls then beginPolling else id)
    |> loadPorts
    |> flushHeld
    |> stateChanged (some value)

def coldStart (t : SiteTables) (value : Int) (s : State) : State :=
  let b := { coldRecords t s with valid := false }
  endLoading b .setup value b

/-! ### Warm start (R183, R121, R146, R19) -/

/-- The retained pedestal under its loaded configuration: the tag is kept when the identity is the one it was accounted under (R94). -/
def Pedestal.reloaded (p : Pedestal) : Pedestal :=
  { p with link := if p.cfg.installed then .unknown else .absent, misses := 0
           tag := if p.tagIdentity = p.cfg.identity then p.tag else none, tagIdentity := p.cfg.identity
           reported := Table.build fun _ => freshReported, reportedValve := false, lastOutcome := none }

/-- The retained pump (R146). -/
def Pump.reloaded (p : Pump) : Pump :=
  { p with online := false, misses := Config.missLimit, readings := none, lastOutcome := none }

/-- The retained records under the loaded configuration, with no rollover in flight and none pending (R73). It is the base of the changes that follow, so their editions count from the retained ones. -/
def warmRecords (t : SiteTables) (s : State) : State :=
  let u := takeConfiguration t s
  { u with
    pedestals := u.pedestals.map Pedestal.reloaded, pumps := u.pumps.map Pump.reloaded
    rollover := none, rolloverPending := false }

/-- A session whose socket is no longer present ends with reason RESTART; its feeder is set right afterwards (R121 step 1). -/
def endAbsentPower (b : State) (k : SocketId) (s : State) : State :=
  match s.power.get k with
  | none => s
  | some x =>
    if socketPresent s k then s
    else
      { s with power := s.power.put k none }
        |> modAccount b x.account (fun a => { a with power := none })
        |> raise .powerEnded
            { account := some x.account, outlet := some (.socket k), value := some (x.energy : Int)
              reason := some (.powerEnd .restart), fault := x.fault }

def endAbsentWater (b : State) (t : TapId) (s : State) : State :=
  if tapPresent s t then s else endWater b t .restart s

/-- The session on a socket is WAITING. -/
def waitsOn (s : State) (k : SocketId) : Bool := isWaiting (s.power.get k)

/-- A feeder's held sum and wait list under the loaded table: the sum of its sessions' held amps, and the entries that still wait on it; no relief hold, readings 0. -/
def agreeFeeder (b : State) (f : FeederId) (s : State) : State :=
  modFeeder b f (fun x =>
    { x with heldSum := ((feederSockets s f).map fun k => heldOf (s.power.get k)).sum
             waitList := x.waitList.filter fun k => waitsOn s k && feederOf s k = f
             relief := none, measured := 0, overload := 0 }) s

/-- A WAITING session that is on no list of its feeder joins its tail, or ends FULL. -/
def rejoin (b : State) (k : SocketId) (s : State) : State :=
  let f := s.feeder (feederOf s k)
  if waitsOn s k && !f.waitList.contains k then
    if f.waitList.length < Config.waitListRoom then
      modFeeder b (feederOf s k) (fun x => { x with waitList := x.waitList ++ [k] }) s
    else endPower b k .full s
  else s

/-- LIVE and SWITCHING become RESTORING (R120, R121). -/
def PowerState.restored (x : PowerState) : PowerState :=
  match x with
  | .live => .restoring
  | .switching => .restoring
  | y => y

/-- RESTORING, with confirm misses 0 where `all` or where the state changes, and last current 0 (R120, R121). -/
def PowerSession.restored (all : Bool) (x : PowerSession) : PowerSession :=
  { x with state := x.state.restored, lastCurrent := 0
           confirmMisses := if all || x.state = .live || x.state = .switching then 0 else x.confirmMisses }

/-- The sessions as the warm start leaves them before the outputs are set. -/
def restoreSessions (s : State) : State :=
  { s with power := s.power.map fun x => x.map (PowerSession.restored true)
           water := s.water.map fun x => x.map fun w => { w with confirmMisses := 0 } }

/-- Each desired output as its session requires; clear-trip requests are kept (R121 step 2). -/
def setOutputs (b : State) (n : PedestalId) (s : State) : State :=
  s |> syncSocket b (socketAt n 0) |> syncSocket b (socketAt n 1)
    |> modPedestal b n (fun p => { p with desiredValve := ((s.water.get n).map fun w => w.state.on).getD false })

/-- Steps 1 and 2 of R121. -/
def reconcileSessions (b : State) (s : State) : State :=
  s |> eachId 512 (endAbsentPower b)
    |> eachId 256 (endAbsentWater b)
    |> eachId 16 (agreeFeeder b)
    |> eachId 512 (rejoin b)
    |> restoreSessions
    |> eachId 256 (setOutputs b)

/-- An open sale ends RESTART (R146). -/
def endSaleAt (b : State) (why : SaleEnd) (n : PumpId) (s : State) : State :=
  match (s.pump n).sale with
  | none => s
  | some x => endSale b n x why s

/-- The book is clamped to the loaded capacity, and the low flag evaluated (R146). The content of its TANK_DISCREPANCY is log 34. -/
def clampTank (b : State) (t : ProductId) (s : State) : State :=
  let x := s.tank t
  let excess := x.book - x.cfg.capacity
  let y : Tank := { x with book := min x.book x.cfg.capacity, discrepancy := addCounter x.discrepancy excess }
  settleLow b t y (if excess ≠ 0 then discrepancyNotice t excess s else s)

/-- The RESTORING session relief takes at a warm start (R121 step 4): stepped down, its amps 32 at once; or shed, its amps released at once. -/
def relieveOne (b : State) (f : FeederId) (s : State) : Option State :=
  match mostRecent s f .restoring true with
  | some k =>
    match s.power.get k with
    | none => none
    | some x =>
      some (s |> putPower b k (some { x with granted := 32, held := 32, stepped := true })
              |> reliefNotice f (some k) .stepDown)
  | none =>
    match mostRecent s f .restoring false with
    | none => none
    | some k =>
      match s.power.get k with
      | none => none
      | some x =>
        if (s.feeder f).waitList.length < Config.waitListRoom then
          some (s |> putPower b k (some { x with state := .waiting, held := 0, shed := true, confirmMisses := 0 })
                  |> reliefNotice f (some k) .shed)
        else some (s |> endPower b k .full |> reliefNotice f (some k) .shed)

/-- Relief of a feeder over its loaded cap. Each round steps down or sheds one of at most 512 sessions. -/
def relieveLoaded (b : State) (f : FeederId) : Nat → State → State
  | 0, s => s
  | fuel + 1, s =>
    if (s.feeder f).heldSum ≤ (s.feeder f).cfg.cap then s
    else (relieveOne b f s).elim s (relieveLoaded b f fuel)

/-- The steps of R183 up to the entry. -/
def reconcile (b : State) (s : State) : State :=
  s |> reconcileSessions b
    |> eachId 4 (endSaleAt b .restart)
    |> eachId 2 (clampTank b)
    |> eachId 512 (evaluateStanding b)
    |> eachId 16 (fun f => relieveLoaded b f 1024)

/-- OPEN or HOLDOVER, as MAINS_OK stands. -/
def tradingState (s : State) : DeviceState := if s.mainsOk then .opened else .holdover

/-- Every wait list is served. -/
def serveAll (b : State) (s : State) : State := eachId 16 (fun f => serve b f) s

/-- A warm start. The lists are served in the state entered, and no notice rises from that (R101). -/
def warmStart (t : SiteTables) (s : State) : State :=
  let b := warmRecords t s
  let u := reconcile b b
  let d := tradingState u
  serveAll b { u with device := d } |> endLoading b d 1

/-- LOAD_COMPLETE (R181, R182): the image as it stands, when the memory answers every read. -/
def loadComplete (answers : Bool) (s : State) : State :=
  if s.device ≠ .loading then s
  else
    match (if answers then loadTables s.image else none) with
    | none => coldStart defaultTables (-1) s
    | some t => if s.valid then warmStart t s else coldStart t 0 s

def execLoadComplete (answers : Bool) (s : State) : Host.Outcome State Fault Refusal :=
  .next (event (loadComplete answers) s)

/-! ### SAVE (R185) -/

def saveOwner (s : State) : Answer :=
  if s.save.isSome then .error .busy else done { s with save := some (copyTables s) } []

def execSave (o : Origin) (s : State) : Host.Outcome State Fault Refusal :=
  .next (portCommand (.save o) o portO .save saveOwner s)

/-- The offset SAVE_FAILED carries: the first disagreement, or −1. -/
def ReadBack.failure : ReadBack → Option Int
  | .agrees => none
  | .differs offset => some offset
  | .noAnswer => some (-1)

/-- The SAVE in flight ends. -/
def saveComplete (result : ReadBack) (s : State) : State :=
  match s.save with
  | none => s
  | some t =>
    match ReadBack.failure result with
    | none => raise .saveDone {} { s with save := none, image := imageOf t }
    | some v => raise .saveFailed { value := some v } { s with save := none, image := eraseMarker (imageOf t) }

def execSaveComplete (result : ReadBack) (s : State) : Host.Outcome State Fault Refusal :=
  .next (event (saveComplete result) s)

/-! ### Holdover (R186, R93, R145, R120) -/

/-- The entry to HOLDOVER: MAINS_LOST, STATE_CHANGED, then polling stops and every open sale ends MAINS_LOST. -/
def enterHoldover (b : State) (s : State) : State :=
  s |> raise .mainsLost {}
    |> enterState b .holdover
    |> stateChanged none
    |> stopPolling
    |> eachId 4 (endSaleAt b .mainsLost)

/-- An installed pedestal at the return (R93). -/
def returnPedestal (b : State) (n : PedestalId) (s : State) : State :=
  modPedestal b n (fun p =>
    if p.cfg.installed then
      { p with link := .unknown, misses := 0, reported := p.reported.map fun r => { r with current := 0 } }
    else p) s

/-- A power session at the return (R120 steps 1 and 2). -/
def returnSession (b : State) (k : SocketId) (s : State) : State :=
  match s.power.get k with
  | none => s
  | some x => putPower b k (some (x.restored false)) s

/-- A feeder at the return: its list is served where a relief hold is removed (R120 step 3, R113, R101). -/
def returnFeeder (b : State) (f : FeederId) (s : State) : State :=
  let t := modFeeder b f (fun x => { x with measured := 0, overload := 0, relief := none }) s
  if (s.feeder f).relief = none then t else serve b f t

/-- An installed pump at the return (R145). -/
def returnPump (b : State) (n : PumpId) (s : State) : State :=
  let p := s.pump n
  if p.cfg.installed then putPump b n { p with online := false, misses := Config.missLimit } s else s

/-- The return to OPEN: MAINS_BACK, STATE_CHANGED, then the return effects.
DESIGN CHOICE (log 20): R120 orders its steps but not the records within one; each step takes them in ascending number, so the feeders whose relief hold is removed are served, and their grants stamped, in that order. -/
def returnToOpen (b : State) (s : State) : State :=
  s |> raise .mainsBack {}
    |> enterState b .opened
    |> stateChanged none
    |> eachId 256 (returnPedestal b)
    |> eachId 512 (returnSession b)
    |> eachId 16 (returnFeeder b)
    |> eachId 4 (returnPump b)
    |> beginPolling

/-- MAINS_OK falls; it does nothing while the level is low already (log 22), and a stopped part does not follow the level (log 16). -/
def mainsFall (s : State) : State :=
  if !s.mainsOk then s
  else
    let t := { s with mainsOk := false }
    match s.device with
    | .loading => t
    | .setup => raise .mainsLost {} t
    | .opened => enterHoldover s t
    | .holdover => t

def execMainsLost (s : State) : Host.Outcome State Fault Refusal := .next (event mainsFall s)

/-- MAINS_OK rises; it does nothing while the level is high already (log 22). -/
def mainsRise (s : State) : State :=
  if s.mainsOk then s
  else
    let t := { s with mainsOk := true }
    match s.device with
    | .loading => t
    | .setup => raise .mainsBack {} t
    | .opened => t
    | .holdover => returnToOpen s t

def execMainsBack (s : State) : Host.Outcome State Fault Refusal := .next (event mainsRise s)

/-- The battery of the retained store runs out: the part stops, and records and validity word are lost (R186, R182, log 16). -/
def execBatteryExhausted (s : State) : Host.Outcome State Fault Refusal :=
  .next (event (fun s => { clearRecords s with valid := false, stopped := true }) s)

/-! ### OPEN and SETUP (R184) -/

def openOwner (s : State) : Answer :=
  if !s.clockSet then .error .state
  else
    let t := { s with valid := true }
    let u :=
      if s.mainsOk then t |> enterState s .opened |> stateChanged none
      else enterHoldover s t
    done u [wordItem u.device.word]

def execOpenDevice (o : Origin) (s : State) : Host.Outcome State Fault Refusal :=
  .next (portCommand (.openDevice o) o portO .openDevice openOwner s)

/-- A power session, a water session or an open sale exists. -/
def anyService (s : State) : Bool :=
  !(sessionsOf s.power).isEmpty || !(sessionsOf s.water).isEmpty || !(openSales s).isEmpty

def setupOwner (s : State) : Answer :=
  if anyService s then .error .inUse else done (s |> enterState s .setup |> stateChanged none) []

def execSetup (o : Origin) (s : State) : Host.Outcome State Fault Refusal :=
  .next (portCommand (.setup o) o portO .setup setupOwner s)

end Sys2Proof.Machine
end

