-- ==== Sys2Proof/Machine/Dispatch.lean ====
section
/-! DEFINITION. One arm per row of opcode_table.json: each row's meaning, called directly. -/

namespace Sys2Proof.Machine

/-- The effect of a command on everything but the queue. -/
def exec (i : Instr) (s : State) : Host.Outcome State Fault Refusal :=
  match i with
  | .openAccount o account => Sys2Proof.Machine.execOpenAccount o account s
  | .closeAccount o account => Sys2Proof.Machine.execCloseAccount o account s
  | .credit o account amount => Sys2Proof.Machine.execCredit o account amount s
  | .debit o account amount => Sys2Proof.Machine.execDebit o account amount s
  | .bar o account => Sys2Proof.Machine.execBar o account s
  | .unbar o account => Sys2Proof.Machine.execUnbar o account s
  | .allocate o account pontoons arrival planned => Sys2Proof.Machine.execAllocate o account pontoons arrival planned s
  | .reserve o account berth arrival planned force => Sys2Proof.Machine.execReserve o account berth arrival planned force s
  | .cancel o account => Sys2Proof.Machine.execCancel o account s
  | .arrive o account berth planned force => Sys2Proof.Machine.execArrive o account berth planned force s
  | .move o account berth force => Sys2Proof.Machine.execMove o account berth force s
  | .depart o account => Sys2Proof.Machine.execDepart o account s
  | .setClock o date time => Sys2Proof.Machine.execSetClock o date time s
  | .clockAdvance => Sys2Proof.Machine.execClockAdvance s
  | .rolloverStep => Sys2Proof.Machine.execRolloverStep s
  | .rolloverComplete => Sys2Proof.Machine.execRolloverComplete s
  | .pollDue seg => Sys2Proof.Machine.execPollDue seg s
  | .pollSend seg => Sys2Proof.Machine.execPollSend seg s
  | .lineBusy seg => Sys2Proof.Machine.execLineBusy seg s
  | .pedestalReply seg => Sys2Proof.Machine.execPedestalReply seg s
  | .noReply seg => Sys2Proof.Machine.execNoReply seg s
  | .reliefHoldExpiry feeder => Sys2Proof.Machine.execReliefHoldExpiry feeder s
  | .requestPower o account wish => Sys2Proof.Machine.execRequestPower o account wish s
  | .resetSocket o socket => Sys2Proof.Machine.execResetSocket o socket s
  | .endPower o account => Sys2Proof.Machine.execEndPower o account s
  | .requestWater o account => Sys2Proof.Machine.execRequestWater o account s
  | .endWater o account => Sys2Proof.Machine.execEndWater o account s
  | .sell o pump kind preset => Sys2Proof.Machine.execSell o pump kind preset s
  | .pumpPoll => Sys2Proof.Machine.execPumpPoll s
  | .pumpReply bytes => Sys2Proof.Machine.execPumpReply bytes s
  | .noLiftTimerExpiry pump => Sys2Proof.Machine.execNoLiftTimerExpiry pump s
  | .stallTimerExpiry pump => Sys2Proof.Machine.execStallTimerExpiry pump s
  | .stopSale o pump => Sys2Proof.Machine.execStopSale o pump s
  | .sale o number => Sys2Proof.Machine.execSale o number s
  | .tankDip o product volume => Sys2Proof.Machine.execTankDip o product volume s
  | .tankFill o product added => Sys2Proof.Machine.execTankFill o product added s
  | .credentialEnded reader => Sys2Proof.Machine.execCredentialEnded reader s
  | .releaseExpiry gate => Sys2Proof.Machine.execReleaseExpiry gate s
  | .holdGate o gate mode => Sys2Proof.Machine.execHoldGate o gate mode s
  | .revoke o credential => Sys2Proof.Machine.execRevoke o credential s
  | .clearPassback o credential => Sys2Proof.Machine.execClearPassback o credential s
  | .select o table index => Sys2Proof.Machine.execSelect o table index s
  | .put o field value => Sys2Proof.Machine.execPut o field value s
  | .store o => Sys2Proof.Machine.execStore o s
  | .read o => Sys2Proof.Machine.execRead o s
  | .list o what => Sys2Proof.Machine.execList o what s
  | .next o => Sys2Proof.Machine.execNext o s
  | .status o => Sys2Proof.Machine.execStatus o s
  | .unknownCommandLine port line => Sys2Proof.Machine.execUnknownCommandLine port line s
  | .lineTimeout port => Sys2Proof.Machine.execLineTimeout port s
  | .replySent port => Sys2Proof.Machine.execReplySent port s
  | .save o => Sys2Proof.Machine.execSave o s
  | .saveComplete result => Sys2Proof.Machine.execSaveComplete result s
  | .openDevice o => Sys2Proof.Machine.execOpenDevice o s
  | .setup o => Sys2Proof.Machine.execSetup o s
  | .restart o => Sys2Proof.Machine.execRestart o s
  | .powerOn stage => Sys2Proof.Machine.execPowerOn stage s
  | .resetInput stage => Sys2Proof.Machine.execResetInput stage s
  | .loadComplete answers => Sys2Proof.Machine.execLoadComplete answers s
  | .mainsLost => Sys2Proof.Machine.execMainsLost s
  | .mainsBack => Sys2Proof.Machine.execMainsBack s
  | .batteryExhausted => Sys2Proof.Machine.execBatteryExhausted s
  | .readerPulse reader bit => Sys2Proof.Machine.execReaderPulse reader bit s
  | .pedestalReplyByte seg byte => Sys2Proof.Machine.execPedestalReplyByte seg byte s
  | .portCharacter port ch => Sys2Proof.Machine.execPortCharacter port ch s

end Sys2Proof.Machine
end

