-- ==== Sys2Proof/Safety.lean ====
section
/-! DEFINITION. What the rules promise of every state the part can reach, in the terms the obligations use. -/

namespace Sys2Proof.Machine

/-! ### Ports (R164, R176) -/

/-- A notice queue holds at most 32 notices, and ATTN is high exactly while it holds one (R176). -/
def Port.queueOk (p : Port) : Prop :=
  p.queue.length ≤ Config.noticeRoom ∧ p.attn = !p.queue.isEmpty

/-- The line assembler holds at most 200 characters (R164). -/
def Port.lineOk (p : Port) : Prop := p.line.length ≤ Config.lineRoom

def QueuesOk (s : State) : Prop := ∀ i, (s.ports.get i).queueOk

def LinesOk (s : State) : Prop := ∀ i, (s.ports.get i).lineOk

/-- In LOADING the queues stay empty and ATTN stays low (R176, R179). -/
def LoadingQuiet (s : State) : Prop :=
  s.device = .loading → ∀ i, (s.ports.get i).queue = [] ∧ (s.ports.get i).attn = false

/-! ### Logs and buffers (R142, R147, R162, R81) -/

def LogsOk (s : State) : Prop :=
  s.saleLog.length ≤ Config.saleLogRoom ∧ s.passages.length ≤ Config.passageLogRoom

/-- A reader's bit queue holds at most 64 bits (R147). -/
def ReadersOk (s : State) : Prop := ∀ r, (s.readers.get r).bits.length ≤ Config.readerRoom

/-! ### Accounts (R5, R8, R9, R70) -/

/-- The balance lies within its limits (R5), the residues below a cent (R8), the counts of nights below their limits (R57, R68, R70). -/
def Account.moneyOk (x : Account) : Prop :=
  -Config.balanceLimit ≤ x.balance ∧ x.balance ≤ Config.balanceLimit
    ∧ (∀ v, x.residues.get v < Config.residueUnit)
    ∧ x.nights ≤ Config.nightsLimit ∧ x.arrearsNights ≤ Config.arrearsLimit

def MoneyOk (s : State) : Prop := ∀ a, (s.accounts.get a).moneyOk

/-- An open account's standing is the one R9 gives for its flag, balance and class floor. -/
def StandingsOk (s : State) : Prop :=
  ∀ a, (s.accounts.get a).state ≠ .free →
    (s.accounts.get a).standing =
      standingOf (s.accounts.get a).barredFlag (s.accounts.get a).balance (s.classOf (s.accounts.get a)).floor

/-- No class floor is above 0 (R4). -/
def FloorsOk (s : State) : Prop := ∀ c, (s.classes.get c).val.floor ≤ 0

/-! ### Links between records -/

/-- A berth is RESERVED or OCCUPIED exactly while an account holds it, and holder and account name each other (R40). -/
def BerthsLinked (s : State) : Prop :=
  (∀ n, match (s.berths.get n).state, (s.berths.get n).holder with
    | .reserved, some a => (s.accounts.get a).state = .reserved ∧ (s.accounts.get a).berth = some n
    | .occupied, some a => (s.accounts.get a).state = .berthed ∧ (s.accounts.get a).berth = some n
    | .free, none => True
    | .outOfService, none => True
    | _, _ => False)
  ∧ ∀ a, match (s.accounts.get a).state, (s.accounts.get a).berth with
    | .reserved, some n => (s.berths.get n).holder = some a
    | .berthed, some n => (s.berths.get n).holder = some a
    | .opened, none => True
    | .free, none => True
    | _, _ => False

/-- A power session and its account name each other (R95). -/
def PowerLinked (s : State) : Prop :=
  (∀ k, match s.power.get k with
    | none => True
    | some x => (s.accounts.get x.account).power = some k)
  ∧ ∀ a, match (s.accounts.get a).power with
    | none => True
    | some k => ((s.power.get k).map PowerSession.account) = some a

/-- A water session and its account name each other (R95, R115). -/
def WaterLinked (s : State) : Prop :=
  (∀ t, match s.water.get t with
    | none => True
    | some x => (s.accounts.get x.account).water = some t)
  ∧ ∀ a, match (s.accounts.get a).water with
    | none => True
    | some t => ((s.water.get t).map WaterSession.account) = some a

/-- Each desired relay is ON only while its session is SWITCHING, LIVE or RESTORING, each valve OPEN only while its session is OPENING or FLOWING (R87). -/
def OutputsOk (s : State) : Prop :=
  (∀ n : PedestalId, ∀ i : Fin 2, ((s.pedestals.get n).desired.get i).relay = true →
    (∃ x, s.power.get (socketAt n i) = some x ∧ x.state.on = true))
  ∧ ∀ n : PedestalId, (s.pedestals.get n).desiredValve = true → ∃ x, s.water.get n = some x ∧ x.state.on = true

/-- A feeder's held sum is the sum of its sessions' held amps (06 "Feeders"). -/
def FeederSumsOk (s : State) : Prop :=
  ∀ f, (s.feeders.get f).heldSum = ((feederSockets s f).map fun k => heldOf (s.power.get k)).sum

/-- Sessions and accounts name each other, and a FREE account has no session (R14, R95, R115). -/
def SessionsLinked (s : State) : Prop :=
  PowerLinked s ∧ WaterLinked s
    ∧ ∀ a, (s.accounts.get a).state = .free → (s.accounts.get a).power = none ∧ (s.accounts.get a).water = none

/-- Every socket that a berth names is present (R77), and so is the socket of every power session (R121). -/
def SocketsPresent (s : State) : Prop :=
  (∀ n k, (s.berths.get n).cfg.socket = some k → socketPresent s k = true)
    ∧ ∀ k x, s.power.get k = some x → socketPresent s k = true

/-- A feeder's wait list holds each of its WAITING sessions exactly once and no other, at most 64 (R101). -/
def WaitListsOk (s : State) : Prop :=
  ∀ f, (s.feeders.get f).waitList.Nodup ∧ (s.feeders.get f).waitList.length ≤ Config.waitListRoom
    ∧ ∀ k, k ∈ (s.feeders.get f).waitList ↔ feederOf s k = f ∧ ∃ x, s.power.get k = some x ∧ x.state = .waiting

/-- The feeders' law: held sums and wait lists are what the sessions make them (R95, R99, R101). -/
def FeedersOk (s : State) : Prop := SocketsPresent s ∧ FeederSumsOk s ∧ WaitListsOk s

/-- An account's holds are the money hold of its one open sale, and 0 without one; sale and account name each other, and a FREE account has none (R7, R14). -/
def AccountHoldsOk (s : State) : Prop :=
  (∀ n, match (s.pumps.get n).sale with
    | none => True
    | some x => match x.buyer with
      | .prepay _ => True
      | .account a => (s.accounts.get a).sale = some n)
  ∧ ∀ a, match (s.accounts.get a).sale with
    | none => (s.accounts.get a).holds = 0
    | some n => (s.accounts.get a).state ≠ .free
      ∧ ∃ x, (s.pumps.get n).sale = some x ∧ x.buyer = .account a ∧ (s.accounts.get a).holds = x.moneyHold

/-- No two ACTIVE credentials share a key; an ACTIVE VESSEL credential stands in the list of a non-FREE account, which lists it once and nothing else, at most four (R150). -/
def CredentialsOk (s : State) : Prop :=
  (∀ c d, (s.creds.get c).state = .active → (s.creds.get d).state = .active →
    (s.creds.get c).key = (s.creds.get d).key → c = d)
  ∧ (∀ c, (s.creds.get c).state = .active → (s.creds.get c).kind = .vessel →
      ∃ a, (s.creds.get c).account = some a ∧ (s.accounts.get a).state ≠ .free ∧ c ∈ (s.accounts.get a).credentials)
  ∧ ∀ a, (s.accounts.get a).credentials.Nodup ∧ (s.accounts.get a).credentials.length ≤ Config.credentialsRoom
      ∧ ∀ c, c ∈ (s.accounts.get a).credentials → (s.creds.get c).state = .active ∧ (s.creds.get c).kind = .vessel
          ∧ (s.creds.get c).account = some a

/-- The tanks' law: 0 ≤ holds ≤ book ≤ capacity (R124). -/
def TanksOk (s : State) : Prop :=
  ∀ t, (s.tanks.get t).holds ≤ (s.tanks.get t).book ∧ (s.tanks.get t).book ≤ (s.tanks.get t).cfg.capacity

/-! ### Gates and device states (R160, R168, R180) -/

/-- Gate 0 is RELEASED in LOADING and in SETUP, and the others are LOCKED in LOADING (R160). -/
def ShoreOpen (s : State) : Prop :=
  (s.device = .loading ∨ s.device = .setup → (s.gates.get 0).released = true)
  ∧ (s.device = .loading → ∀ g : GateId, g ≠ 0 → (s.gates.get g).released = false)

/-- The validity word is good only with the clock set, and it is good while the part is OPEN or in HOLDOVER and runs (R182, R184). -/
def TradingReady (s : State) : Prop :=
  (s.valid = true → s.clockSet = true)
  ∧ (s.device = .opened ∨ s.device = .holdover → s.stopped = false → s.valid = true)

/-! ### What the Service Manager may touch -/

/-- Between `s` and `t` only the Service Manager acted and notices were raised: sessions, feeders, desired outputs, the session links and editions of accounts, and notice queues may differ; nothing else does. -/
def OnlySessions (s t : State) : Prop :=
  t = { s with
        accounts := t.accounts, pedestals := t.pedestals, power := t.power, water := t.water
        feeders := t.feeders, grantCount := t.grantCount, ports := t.ports, heldNotices := t.heldNotices }
  ∧ (∀ a, t.account a =
      { s.account a with
        power := (t.account a).power, water := (t.account a).water, edition := (t.account a).edition })
  ∧ (∀ n, t.pedestal n =
      { s.pedestal n with
        desired := (t.pedestal n).desired, desiredValve := (t.pedestal n).desiredValve
        edition := (t.pedestal n).edition })
  ∧ (∀ f, (t.feeder f).cfg = (s.feeder f).cfg)
  ∧ ∀ i, t.ports.get i =
      { s.ports.get i with queue := (t.ports.get i).queue, attn := (t.ports.get i).attn }

/-! ### Berths (R44, R49) -/

/-- The fit test of R44, as its three inequalities. -/
def Fits (s : State) (x : Account) (c : BerthCfg) : Prop :=
  (c.loaMin ≤ x.loa ∧ x.loa ≤ c.loaMax)
    ∧ (c.alongside = true ∨ x.beam ≤ c.beamMax)
    ∧ (x.draft : Int) + s.site.val.clearance ≤ c.depth + s.site.val.leastWater

/-- A reservation's effect (R49): the two records, each with its edition advanced, and nothing else. -/
def reserved (s : State) (a : AccountId) (n : BerthId) (day : Int) (plan : Option Int) : State :=
  { s with
    berths := s.berths.put n
      { s.berth n with state := .reserved, holder := some a, edition := (s.berth n).edition + 1 }
    accounts := s.accounts.put a
      { s.account a with
        state := .reserved, berth := some n, arrival := some day
        planned := if plan.isSome then plan else (s.account a).planned, edition := (s.account a).edition + 1 } }

/-! ### Fuel (R124, 07 "Tanks") -/

/-- The volume held on a tank by the open sales. -/
def volumeHeld (s : State) (t : ProductId) : Nat :=
  (((openSales s).filter fun x => x.product = t).map Sale.volumeHold).sum

/-- A tank's holds are the sum of the volume holds of its open sales. -/
def HoldsOk (s : State) : Prop := ∀ t, (s.tanks.get t).holds = volumeHeld s t

/-! ### A command line at its port (R164 to R168) -/

/-- The port takes the command: the part runs, and its line arrives at the port in IDLE or is the line the port has ended (log 3). -/
def Takes (i : Instr) (o : Origin) (s : State) : Prop :=
  s.stopped = false ∧
    ((s.port o.port).state = .idle ∨
      ((s.port o.port).state = .lineEnded ∧ checkHeldLine o.port (s.port o.port) = .command i))

/-- The origin of a row that is a command line; none for an event, and for a line that is no command. -/
def originOf : Instr → Option Origin
  | .openAccount o _ => some o
  | .closeAccount o _ => some o
  | .credit o _ _ => some o
  | .debit o _ _ => some o
  | .bar o _ => some o
  | .unbar o _ => some o
  | .allocate o _ _ _ _ => some o
  | .reserve o _ _ _ _ _ => some o
  | .cancel o _ => some o
  | .arrive o _ _ _ _ => some o
  | .move o _ _ _ => some o
  | .depart o _ => some o
  | .setClock o _ _ => some o
  | .requestPower o _ _ => some o
  | .resetSocket o _ => some o
  | .endPower o _ => some o
  | .requestWater o _ => some o
  | .endWater o _ => some o
  | .sell o _ _ _ => some o
  | .stopSale o _ => some o
  | .sale o _ => some o
  | .tankDip o _ _ => some o
  | .tankFill o _ _ => some o
  | .holdGate o _ _ => some o
  | .revoke o _ => some o
  | .clearPassback o _ => some o
  | .select o _ _ => some o
  | .put o _ _ => some o
  | .store o => some o
  | .read o => some o
  | .list o _ => some o
  | .next o => some o
  | .status o => some o
  | .save o => some o
  | .openDevice o => some o
  | .setup o => some o
  | .restart o => some o
  | .clockAdvance | .rolloverStep | .rolloverComplete | .pollDue _ | .pollSend _ | .lineBusy _ | .pedestalReply _
  | .noReply _ | .reliefHoldExpiry _ | .pumpPoll | .pumpReply _ | .noLiftTimerExpiry _ | .stallTimerExpiry _
  | .credentialEnded _ | .releaseExpiry _ | .unknownCommandLine _ _ | .lineTimeout _ | .replySent _ | .saveComplete _
  | .powerOn _ | .resetInput _ | .loadComplete _ | .mainsLost | .mainsBack | .batteryExhausted | .readerPulse _ _
  | .pedestalReplyByte _ _ | .portCharacter _ _ => none

/-- Port F may use these commands (R167). -/
def fuelCommand : Instr → Bool
  | .sell .. | .stopSale .. | .sale .. | .tankDip .. | .tankFill .. | .credit .. | .debit .. | .select .. | .read ..
  | .list .. | .next .. | .status .. => true
  | _ => false

/-- Port P may use these commands (R167). -/
def patrolCommand : Instr → Bool
  | .arrive .. | .depart .. | .move .. | .requestPower .. | .endPower .. | .requestWater .. | .endWater ..
  | .resetSocket .. | .holdGate .. | .clearPassback .. | .select .. | .read .. | .list .. | .next .. | .status .. => true
  | _ => false

/-- The command is permitted on the port (R167). -/
def permitted (c : Instr) : PortId → Bool
  | .office => true
  | .fuel => fuelCommand c
  | .patrol => patrolCommand c

/-- The commands of the second last row of R168, taken in SETUP too. -/
def setupCommand : Instr → Bool
  | .setClock .. | .sale .. | .tankDip .. | .tankFill .. | .revoke .. | .clearPassback .. | .select .. | .put ..
  | .store .. | .read .. | .list .. | .next .. | .status .. => true
  | _ => false

/-- The device state admits the command (R168, and the table of the four device commands in 10 "Device states"). -/
def admitted (c : Instr) : DeviceState → Bool
  | .loading => false
  | .setup =>
    match c with
    | .save _ | .openDevice _ | .restart _ => true
    | .setup _ => false
    | _ => setupCommand c
  | .opened =>
    match c with
    | .openDevice _ => false
    | _ => true
  | .holdover =>
    match c with
    | .save _ | .openDevice _ | .setup _ => false
    | _ => true

/-- The reply to a command that the device state does not admit (R168): RETRY in LOADING; otherwise CLOSED, but STATE for OPEN and SETUP. -/
def notAdmittedReply (c : Instr) : DeviceState → ReplyLine
  | .loading => .retry
  | _ =>
    match c with
    | .openDevice _ | .setup _ => .refused .state
    | _ => .refused .closed

/-- The commands that start a service, which their owner refuses in HOLDOVER (R168). -/
def startsService : Instr → Bool
  | .requestPower .. | .requestWater .. | .resetSocket .. | .sell .. => true
  | _ => false

/-- The command words of the part (R166 check 2). -/
def commandWords : List String :=
  [ "OPEN_ACCOUNT", "CLOSE_ACCOUNT", "CREDIT", "DEBIT", "BAR", "UNBAR", "ALLOCATE", "RESERVE", "CANCEL", "ARRIVE"
  , "MOVE", "DEPART", "SETCLOCK", "REQUEST_POWER", "RESET_SOCKET", "END_POWER", "REQUEST_WATER", "END_WATER", "SELL"
  , "STOP_SALE", "SALE", "TANK_DIP", "TANK_FILL", "HOLD_GATE", "REVOKE", "CLEAR_PASSBACK", "SELECT", "PUT", "STORE"
  , "READ", "LIST", "NEXT", "STATUS", "SAVE", "OPEN", "SETUP", "RESTART" ]

/-- What may stand in one place of a line (11 "Command and reply lines"). -/
inductive FieldForm where
  | number
  | date
  | time
  | word (w : String)
  | any
deriving DecidableEq, Repr

def isDigit (c : Char) : Bool := 48 ≤ c.toNat && c.toNat ≤ 57

/-- The characters follow a pattern in which each 0 stands for a digit and every other character for itself. -/
def follows : List Char → List Char → Bool
  | [], [] => true
  | p :: ps, c :: cs => (if p = '0' then isDigit c else c = p) && follows ps cs
  | _, _ => false

def FieldForm.fits : FieldForm → String → Bool
  | .number, f => f.toList ≠ [] && f.toList.all isDigit
  | .date, f => follows "0000-00-00".toList f.toList
  | .time, f => follows "00:00:00".toList f.toList
  | .word w, f => f = w
  | .any, _ => true

/-- The fields that may stand in a place of a syntax table: one of these rows of forms; an optional place has the empty row among them. -/
abbrev Place := List (List FieldForm)

def numberPlace : Place := [[.number]]
def datePlace : Place := [[.date]]
def optionalDate : Place := [[], [.date]]
def optionalForce : Place := [[], [.word "FORCE"]]
def wordPlace (ws : List String) : Place := ws.map fun w => [.word w]

/-- The places after the command word, as the syntax table of each command gives them; a word without a table has none. -/
def syntaxTable : String → List Place
  | "OPEN_ACCOUNT" => [[[], [.number]]]
  | "CLOSE_ACCOUNT" | "BAR" | "UNBAR" | "CANCEL" | "DEPART" | "RESET_SOCKET" | "END_POWER" | "REQUEST_WATER" | "END_WATER"
  | "STOP_SALE" | "SALE" | "REVOKE" | "CLEAR_PASSBACK" => [numberPlace]
  | "CREDIT" | "DEBIT" | "REQUEST_POWER" | "TANK_DIP" | "TANK_FILL" => [numberPlace, numberPlace]
  | "ALLOCATE" =>
    [ numberPlace
    , [[.word "ANY"], [.number], [.number, .number], [.number, .number, .number], [.number, .number, .number, .number]]
    , datePlace, optionalDate ]
  | "RESERVE" => [numberPlace, numberPlace, datePlace, optionalDate, optionalForce]
  | "ARRIVE" => [numberPlace, [[], [.number]], optionalDate, optionalForce]
  | "MOVE" => [numberPlace, numberPlace, optionalForce]
  | "SETCLOCK" => [datePlace, [[.time]]]
  | "SELL" =>
    [ numberPlace, wordPlace ["ACCOUNT", "PREPAY"], numberPlace
    , [[], [.word "VOLUME", .number], [.word "AMOUNT", .number]] ]
  | "HOLD_GATE" => [numberPlace, wordPlace ["NORMAL", "HELD_OPEN", "OUT_OF_SERVICE"]]
  | "SELECT" =>
    [ wordPlace
        [ "SITE", "CLASS", "RATE", "HOURBAND", "BERTH", "PEDESTAL", "FEEDER", "PUMP", "TANK", "FORMAT", "ACCESS", "GATE"
        , "LEVEL", "PORT", "CRED", "ACCOUNT", "POWER", "WATER", "SALE", "PASSAGE" ]
    , numberPlace ]
  | "PUT" => [[[.any]], [[.any]]]
  | "LIST" => [wordPlace ["SALE", "PASSAGE", "POWER", "WATER"] ++ [[.word "WAIT", .number]]]
  | _ => []

/-- The fields fill the places, each by one of its rows, and nothing is left over. -/
def fills : List Place → List String → Bool
  | [], fields => fields.isEmpty
  | place :: places, fields => place.any fun row =>
      row.length ≤ fields.length && (List.zipWith FieldForm.fits row fields).all id
        && fills places (fields.drop row.length)

/-- The fields are of the number, form and kind that the syntax table of the word gives (R166 check 3). -/
def fieldsFit (word : String) (fields : List String) : Bool := fills (syntaxTable word) fields

/-- How many entries each table has (R169). -/
def entriesOf (s : State) : TableName → Nat
  | .site => 1 | .cls => 4 | .rate => 96 | .hourband => 24 | .berth => 512 | .pedestal => 256 | .feeder => 16
  | .pump => 4 | .tank => 2 | .format => 8 | .access => 256 | .gate => 20 | .level => 28 | .port => 3
  | .cred => 1024 | .account => 512 | .power => 512 | .water => 256
  | .sale => s.saleLog.length | .passage => s.passages.length

/-- From `t`, the state after the owner's writing, STORE answers the index and the entry's edition, the cursor moves on, and the holding record is loaded there (R172). -/
def storeDone (o : Origin) (table : TableName) (i count : Nat) (e : Edition) (t : State) : State :=
  let j := if i + 1 < count then i + 1 else 0
  reply o.port o.suffix [.done [.val (.num i), .val (.num e.toNat)]]
    (putPort o.port { t.port o.port with cursor := { table := table, index := j }, holding := entryAt t table j } t)

/-- The command stands at its port, spells a line that passes check 3, is permitted there and admitted: checks 1 to 5 of R166 pass. -/
def Ready (c : Instr) (o : Origin) (s : State) : Prop :=
  originOf c = some o ∧ Takes c o s ∧ c.wellFormed = true ∧ permitted c o.port = true ∧ admitted c s.device = true

/-! ### The nightly rollover (R65) -/

/-- From `s` the test of R65 leaves `t`: the rollover starts, or the pending flag is set, or nothing is due. -/
def RolloverTested (s t : State) : Prop :=
  let day := if s.site.val.rolloverHour * 3600 ≤ s.clock.time then s.clock.date else s.clock.date - 1
  let due := s.clockSet = true ∧ ∃ last, s.lastRollover = some last ∧ last < day
  let mayStart := (s.device = .opened ∨ s.device = .holdover) ∧ s.rollover = none
  (due ∧ mayStart ∧
    t = { s with rollover := some { date := day, cursor := 0, total := 0 }, rolloverPending := false })
  ∨ (due ∧ ¬ mayStart ∧ t = { s with rolloverPending := true })
  ∨ (¬ due ∧ t = s)

/-! ### The poll round (R75, R83) and the replies (R80) -/

def onSegment (s : State) (g : SegmentId) (n : PedestalId) : Prop :=
  (s.pedestal n).cfg.installed = true ∧ (s.pedestal n).cfg.segment = g

/-- The pedestal stands before the other in the round: at the lower address, or at an equal one with the lower number. -/
def precedes (s : State) (n m : PedestalId) : Prop :=
  (s.pedestal n).cfg.address < (s.pedestal m).cfg.address
    ∨ (s.pedestal n).cfg.address = (s.pedestal m).cfg.address ∧ n ≤ m

/-- The pedestal that a due poll goes to (R75): the lowest address above the round position, else the lowest. -/
def NextPolled (s : State) (g : SegmentId) (n : PedestalId) : Prop :=
  let above := fun m => onSegment s g m ∧ ∀ p, (s.segment g).position = some p → p < (s.pedestal m).cfg.address
  (above n ∧ ∀ m, above m → precedes s n m)
  ∨ ((∀ m, ¬ above m) ∧ onSegment s g n ∧ ∀ m, onSegment s g m → precedes s n m)

/-- From `s` a miss of pedestal `n` leaves `t` (R83): one more consecutive miss up to 3, the outcome kept, and at 3 the link OFFLINE, with PEDESTAL_OFFLINE where it was not; the notice carries the berth that names the pedestal's first socket. -/
def Missed (n : PedestalId) (o : PollOutcome) (s t : State) : Prop :=
  let p := s.pedestal n
  let m := min (p.misses + 1) 3
  let falls := m = 3 ∧ p.link ≠ .offline
  let u := fun link edition =>
    { s with pedestals := s.pedestals.put n { p with misses := m, lastOutcome := some o, link := link, edition := edition } }
  (¬ falls ∧ t = u p.link p.edition)
  ∨ (falls ∧ ∃ b : Option BerthId,
      t = raise .pedestalOffline { berth := b, value := some n.val } (u .offline (p.edition + 1))
      ∧ (∀ i, b = some i → (s.berth i).cfg.socket = some (socketAt n 0))
      ∧ (b = none → ∀ i, (s.berth i).cfg.socket ≠ some (socketAt n 0)))

/-- A valid reply to `poll` waits to be handed on (R82). -/
def ValidReply (g : SegmentId) (poll : Poll) (s : State) : Prop :=
  s.stopped = false ∧ (s.segment g).outstanding = some poll ∧ (s.segment g).unpacker.byteCount ≠ 0
    ∧ judge (s.pedestal poll.pedestal).cfg (s.segment g).unpacker = .valid

/-- The reported states agree with what is desired of socket `i` (R88). -/
def SocketAgrees (p : Pedestal) (i : Fin 2) (r : Reported) : Prop :=
  r.relay = (p.desired.get i).relay
    ∧ (p.cfg.ratings.get i = .a63 → r.relay = true → r.limit = (p.desired.get i).limit)

/-- `b` is a berth that names socket `k`, or none where no berth does. -/
def BerthNames (s : State) (k : SocketId) (b : Option BerthId) : Prop :=
  (∀ i, b = some i → (s.berth i).cfg.socket = some k) ∧ (b = none → ∀ i, (s.berth i).cfg.socket ≠ some k)

/-- A valid reply to `poll` that repeats the last accounted tag (R86), of a pedestal that was not OFFLINE, on a feeder whose relief does not act at this report (R111). -/
def RepeatReply (g : SegmentId) (poll : Poll) (s : State) : Prop :=
  let p := s.pedestal poll.pedestal
  ValidReply g poll s ∧ p.tag = some (replyTag (s.segment g).unpacker.fields) ∧ p.link ≠ .offline
    ∧ (s.feeder p.cfg.feeder).overload < 7

/-- A reply on segment `g` changes nothing but the segment's poll and what the bus and the sessions own. -/
def ReplyTaken (g : SegmentId) (s t : State) : Prop :=
  t = { s with
        segments := s.segments.put g { s.segment g with outstanding := none }
        accounts := t.accounts, pedestals := t.pedestals, power := t.power, water := t.water
        feeders := t.feeders, grantCount := t.grantCount, ports := t.ports, heldNotices := t.heldNotices }

/-- The notices of `t` are those of `u`. -/
def SameNotices (t u : State) : Prop := t.ports = u.ports ∧ t.heldNotices = u.heldNotices

/-- A session of feeder `f` in state `st` (R96). -/
def SessionOn (st : PowerState) (s : State) (f : FeederId) (k : SocketId) (y : PowerSession) : Prop :=
  (s.pedestal (pedestalOf k)).cfg.installed = true ∧ (s.pedestal (pedestalOf k)).cfg.feeder = f
    ∧ s.power.get k = some y ∧ y.state = st

/-- Of the sessions of feeder `f` in state `st` that meet `P`, the most recent grant: the highest stamp, and at equal stamps the highest socket (R96, R112). -/
def NewestOn (st : PowerState) (s : State) (f : FeederId) (P : PowerSession → Prop) (k : SocketId) (y : PowerSession) :
    Prop :=
  SessionOn st s f k y ∧ P y
    ∧ ∀ m z, SessionOn st s f m z → P z → z.grantStamp < y.grantStamp ∨ z.grantStamp = y.grantStamp ∧ m ≤ k

/-- A LIVE session of feeder `f`. -/
abbrev LiveOn := SessionOn .live

/-- The most recent grant among the LIVE sessions of feeder `f`. -/
abbrev NewestLive := NewestOn .live

/-- The bits of a socket block of a reply (R80). -/
def socketBlock (r : SocketReport) : List Bool :=
  [r.reported.relay, r.reported.limit = .l32, r.reported.trip]
    ++ natToBits 10 r.reported.current ++ natToBits 16 r.energy

/-- The bits of a tap block (R80). -/
def tapBlock (r : TapReport) : List Bool := r.valve :: natToBits 16 r.water

/-- A reply's bits before its check byte, padding included (R80, 11 "Pedestal frames"). -/
def replyBits (c : PedestalCfg) (tag : Fin 4) (a b : SocketReport) (w : TapReport) : List Bool :=
  let header := fun k => natToBits 6 c.address.val ++ k ++ natToBits 2 tag.val
  match c.kind with
  | .twin => header [false, false] ++ socketBlock a ++ socketBlock b ++ tapBlock w ++ [false, false, false]
  | .single => header [false, true] ++ socketBlock a ++ tapBlock w
  | .power2 => header [true, false] ++ socketBlock a ++ socketBlock b ++ [false, false, false, false]
  | .tap => header [true, true] ++ tapBlock w ++ [false, false, false, false, false]

/-- A socket block's numbers fit their fields. -/
def SocketReport.fitsBlock (r : SocketReport) : Prop := r.reported.current < 1024 ∧ r.energy < 65536

/-! ### One record after another -/

/-- `P 0`, `P 1`, … lead from `s` to `t`, each taken once and in that order. -/
def InTurn (n : Nat) (P : Fin n → State → State → Prop) (s t : State) : Prop :=
  ∃ v : Nat → State, v 0 = s ∧ v n = t ∧ ∀ i : Fin n, P i (v i.val) (v (i.val + 1))

/-! ### What the Service Manager does, change by change (06)
Each of these says everything that leads from `s` to `t` but the editions of the records written. -/

/-- Account `a` is written. -/
def AccountWritten (a : AccountId) (x : Account) (s t : State) : Prop :=
  ∃ e : Edition, t = { s with accounts := s.accounts.put a { x with edition := e } }

/-- The slot of socket `k` is written, and in the same change its feeder's held sum and wait list and the socket's desired outputs follow (R95, R99, R101): the relay is ON while the session is SWITCHING, LIVE or RESTORING, the limit 32 while such a session has 32 A of a socket rated 63. -/
def PowerWritten (k : SocketId) (x : Option PowerSession) (s t : State) : Prop :=
  let p := s.pedestal (pedestalOf k)
  let f := s.feeder p.cfg.feeder
  let was := s.power.get k
  let on : Bool := x.any fun y => y.state.on
  let narrow : Bool := on && p.cfg.ratings.get (positionOf k) = .a63 && x.any fun y => y.granted = 32
  ∃ e d : Edition, t =
    { s with
      power := s.power.put k x
      feeders := s.feeders.put p.cfg.feeder
        { f with
          heldSum := f.heldSum - heldOf was + heldOf x
          waitList :=
            if isWaiting x = isWaiting was then f.waitList
            else if isWaiting x then f.waitList ++ [k] else f.waitList.filter (· ≠ k)
          edition := e }
      pedestals := s.pedestals.put (pedestalOf k)
        { p with
          desired := p.desired.put (positionOf k)
            { relay := on, limit := if narrow then .l32 else .l63, clearTrip := (p.desired.get (positionOf k)).clearTrip }
          edition := d } }

/-- The slot of tap `k` is written and its desired valve follows: OPEN while the session is OPENING or FLOWING (R116). -/
def WaterWritten (k : TapId) (x : Option WaterSession) (s t : State) : Prop :=
  ∃ e : Edition, t =
    { s with
      water := s.water.put k x
      pedestals := s.pedestals.put k { s.pedestal k with desiredValve := x.any fun y => y.state.on, edition := e } }

/-- The effective wish of session `x` on socket `k`, in amps (R98). -/
def wishNow (s : State) (k : SocketId) (x : PowerSession) : Nat :=
  min x.wish.amps
    (min ((s.pedestal (pedestalOf k)).cfg.ratings.get (positionOf k)).amps (s.classOf (s.account x.account)).maxRating.amps)

/-- The cap of feeder `f` (R96). -/
def capOf (s : State) (f : FeederId) : Nat := (s.feeder f).cfg.rating * (s.feeder f).cfg.diversity / 100

/-- The feeder of socket `k` has room for session `x` at `amps`: its effective wish, else 32 where that was 63 (R99, R101). -/
def RoomAt (s : State) (k : SocketId) (x : PowerSession) (amps : Nat) : Prop :=
  let f := (s.pedestal (pedestalOf k)).cfg.feeder
  let fits := fun n : Nat => (s.feeder f).heldSum + n ≤ capOf s f
  fits (wishNow s k x) ∧ amps = wishNow s k x
    ∨ ¬ fits (wishNow s k x) ∧ wishNow s k x = 63 ∧ fits 32 ∧ amps = 32

/-- Session `x` is granted `amps` on socket `k` (R100): the grant count moves on and stamps it. -/
def Granted (k : SocketId) (x : PowerSession) (amps : Nat) (s t : State) : Prop :=
  let count := min (s.grantCount + 1) 4294967295
  PowerWritten k
    (some { x with
      state := .switching, fallback32 := decide (wishNow s k x = 63), granted := amps, held := amps, grantStamp := count
      confirmMisses := 0, shed := false })
    { s with grantCount := count } t

/-- The head of the wait list of feeder `f` holds no amps, has room and is granted. -/
def HeadGranted (f : FeederId) (s t : State) : Prop :=
  ∃ k x amps, (s.feeder f).waitList.head? = some k ∧ s.power.get k = some x ∧ x.held = 0 ∧ RoomAt s k x amps
    ∧ Granted k x amps s t

/-- Service of the wait list of feeder `f` stops: it is empty, or its head holds amps or has no room, and then the fallback of that attempt is all that is written (R98, R101). -/
def HeadStays (f : FeederId) (s t : State) : Prop :=
  match (s.feeder f).waitList.head? with
  | none => t = s
  | some k =>
    match s.power.get k with
    | none => t = s
    | some x =>
      (x.held ≠ 0 ∨ ∀ amps, ¬ RoomAt s k x amps)
        ∧ PowerWritten k (some { x with fallback32 := decide (wishNow s k x = 63) }) s t

/-- The wait list of feeder `f` is served, strictly first in, first out (R101): not in LOADING nor while a relief hold runs (R113, R121); else its heads are granted one by one until service stops or each that stood in it had its grant. -/
def ListServed (f : FeederId) (s t : State) : Prop :=
  (s.device = .loading ∨ (s.feeder f).relief ≠ none → t = s)
  ∧ (s.device ≠ .loading → (s.feeder f).relief = none →
      ∃ (n : Nat) (v : Nat → State), n ≤ (s.feeder f).waitList.length ∧ v 0 = s
        ∧ (∀ i, i < n → HeadGranted f (v i) (v (i + 1)))
        ∧ (HeadStays f (v n) t ∨ n = (s.feeder f).waitList.length ∧ t = v n))

/-- The power session of socket `k` ends (R108): slot and account's link cleared, POWER_ENDED with energy and reason, the list served. -/
def PowerEnded (k : SocketId) (why : PowerEnd) (s t : State) : Prop :=
  ∀ x, s.power.get k = some x →
    ∃ u v, PowerWritten k none s u ∧ AccountWritten x.account { u.account x.account with power := none } u v
      ∧ ListServed (s.pedestal (pedestalOf k)).cfg.feeder
          (raise .powerEnded
            { account := some x.account, outlet := some (.socket k), value := some x.energy, reason := some (.powerEnd why)
              fault := x.fault } v) t

/-- The water session of tap `k` ends (R116): slot and account's link cleared, WATER_ENDED with volume and reason. -/
def WaterEnded (k : TapId) (why : WaterEnd) (s t : State) : Prop :=
  ∀ x, s.water.get k = some x →
    ∃ u v, WaterWritten k none s u ∧ AccountWritten x.account { u.account x.account with water := none } u v
      ∧ t = raise .waterEnded
          { account := some x.account, outlet := some (.tap k), value := some x.volume, reason := some (.waterEnd why) } v

/-- The power session of socket `k` is asked to suspend (R109): SUSPENDED with the cause and POWER_SUSPENDED, and its list served where it was WAITING at the head; one that is SUSPENDED takes the cause; TRIPPED and CLOSING stay. -/
def PowerSuspended (k : SocketId) (cause : Cause) (s t : State) : Prop :=
  let f := (s.pedestal (pedestalOf k)).cfg.feeder
  match s.power.get k with
  | none => t = s
  | some x =>
    let suspended := fun u =>
      PowerWritten k (some { x with state := .suspended, cause := some cause, confirmMisses := 0 }) s u
    let told := raise .powerSuspended
      { account := some x.account, outlet := some (.socket k), reason := some (.cause cause) }
    match x.state with
    | .tripped => t = s
    | .closing => t = s
    | .suspended => PowerWritten k (some { x with cause := some cause }) s t
    | .waiting =>
      ∃ u, suspended u
        ∧ if (s.feeder f).waitList.head? = some k then ListServed f (told u) t else t = told u
    | .switching => ∃ u, suspended u ∧ t = told u
    | .live => ∃ u, suspended u ∧ t = told u
    | .restoring => ∃ u, suspended u ∧ t = told u

/-- The power session of socket `k` is asked to resume (R110), which only a SUSPENDED one does: with amps held it is SWITCHING at its granted rating; with none it enters admission with its own wish (R98 to R101): a grant, else the tail of the list with POWER_WAITING and its position, else it ends FULL. -/
def PowerResumed (k : SocketId) (s t : State) : Prop :=
  let f := (s.pedestal (pedestalOf k)).cfg.feeder
  let free := (s.feeder f).waitList = [] ∧ (s.feeder f).relief = none
  match s.power.get k with
  | none => t = s
  | some x =>
    (x.state ≠ .suspended → t = s)
    ∧ (x.state = .suspended → x.held ≠ 0 →
        PowerWritten k (some { x with state := .switching, cause := none, confirmMisses := 0 }) s t)
    ∧ (x.state = .suspended → x.held = 0 →
        (∀ amps, free → RoomAt s k x amps → Granted k { x with cause := none } amps s t)
        ∧ ((¬ free ∨ ∀ amps, ¬ RoomAt s k x amps) →
            ((s.feeder f).waitList.length < 64 →
              ∃ u, PowerWritten k
                  (some { x with
                    state := .waiting, cause := none, fallback32 := decide (wishNow s k x = 63), confirmMisses := 0 }) s u
                ∧ t = raise .powerWaiting
                    { account := some x.account, outlet := some (.socket k)
                      value := some (((s.feeder f).waitList.length + 1 : Nat) : Int) } u)
            ∧ (64 ≤ (s.feeder f).waitList.length → PowerEnded k .full s t)))

/-- The water session of tap `k` is asked to suspend (R118). -/
def WaterSuspended (k : TapId) (s t : State) : Prop :=
  match s.water.get k with
  | none => t = s
  | some x =>
    (x.state.on = false → t = s)
    ∧ (x.state.on = true → WaterWritten k (some { x with state := .suspended, confirmMisses := 0 }) s t)

/-- The water session of tap `k` is asked to resume (R118): a SUSPENDED one is OPENING, or at or above its class's cap CLOSING for CAP. -/
def WaterResumed (k : TapId) (s t : State) : Prop :=
  match s.water.get k with
  | none => t = s
  | some x =>
    let cap := (s.classOf (s.account x.account)).waterCap
    (x.state ≠ .suspended → t = s)
    ∧ (x.state = .suspended → (cap = 0 ∨ x.volume < cap) →
        WaterWritten k (some { x with state := .opening, confirmMisses := 0 }) s t)
    ∧ (x.state = .suspended → cap ≠ 0 → cap ≤ x.volume →
        WaterWritten k (some { x with state := .closing, closeReason := some .cap, confirmMisses := 0 }) s t)

/-- What a change of standing asks of the account's power session (R10). -/
def PowerAsked (a : AccountId) (was is : Standing) (s t : State) : Prop :=
  let x := s.account a
  match x.power with
  | none => t = s
  | some k =>
    let suspendedFor := fun c => ∃ y, s.power.get k = some y ∧ y.state = .suspended ∧ y.cause = some c
    match was, is with
    | .good, .barred => PowerSuspended k .barred s t
    | .arrears, .barred => PowerSuspended k .barred s t
    | .barred, .good => PowerResumed k s t
    | .barred, .arrears =>
      (¬ suspendedFor .barred → t = s)
      ∧ (suspendedFor .barred → x.arrearsNights < (s.classOf x).grace → PowerResumed k s t)
      ∧ (suspendedFor .barred → (s.classOf x).grace ≤ x.arrearsNights → PowerSuspended k .arrears s t)
    | .arrears, .good => (¬ suspendedFor .arrears → t = s) ∧ (suspendedFor .arrears → PowerResumed k s t)
    | _, _ => t = s

/-- What a change of standing asks of the account's water session (R10). -/
def WaterAsked (a : AccountId) (was is : Standing) (s t : State) : Prop :=
  match (s.account a).water with
  | none => t = s
  | some k =>
    match was, is with
    | .good, .barred => WaterSuspended k s t
    | .arrears, .barred => WaterSuspended k s t
    | .barred, .good => WaterResumed k s t
    | .barred, .arrears => WaterResumed k s t
    | _, _ => t = s

/-- The standing of account `a` is evaluated (R9, R10): one that is FREE, or whose standing holds, stays; else the standing and the arrears nights are written, STANDING_CHANGED raised, and the sessions asked what R10 asks of them. -/
def StandingSettled (a : AccountId) (s t : State) : Prop :=
  let x := s.account a
  let new := standingOf x.barredFlag x.balance (s.classOf x).floor
  ((x.state = .free ∨ new = x.standing) → t = s)
  ∧ (x.state ≠ .free → new ≠ x.standing →
      ∃ u v,
        AccountWritten a { x with standing := new, arrearsNights := arrearsNightsAfter x.standing new x.arrearsNights } s u
        ∧ let told := raise .standingChanged
            { account := some a, value := some x.balance, reason := some (.standing new) } u
          let waterFirst := x.standing = .barred ∧ new = .arrears
          (waterFirst → WaterAsked a x.standing new told v ∧ PowerAsked a x.standing new v t)
          ∧ (¬ waterFirst → PowerAsked a x.standing new told v ∧ WaterAsked a x.standing new v t))

/-- Account `a`, written as `x` but for its balance, pays `cents` (R6): the balance is lowered, or clamped at −99,999,999 with its flag set and BALANCE_CLAMPED raised, and the standing evaluated. -/
def Charged (a : AccountId) (x : Account) (cents : Nat) (s t : State) : Prop :=
  ∃ u,
    (-99999999 ≤ x.balance - cents →
      AccountWritten a { x with balance := x.balance - cents } s u ∧ StandingSettled a u t)
    ∧ (x.balance - cents < -99999999 →
        AccountWritten a { x with balance := -99999999, clamped := true } s u
        ∧ StandingSettled a
            (raise .balanceClamped { account := some a, value := some (cents - x.balance - 99999999) } u) t)

/-- A charge of quantity `q` of service `v` reaches account `a` (R27): the rate of its class and of the band now, on its residue. -/
def QuantityCharged (a : AccountId) (v : Service) (q : Nat) (s t : State) : Prop :=
  let x := s.account a
  let total := x.residues.get (serviceIx v) + q * rateOf s x.cls v (bandNow s)
  Charged a { x with residues := x.residues.put (serviceIx v) (total % 10000) } (total / 10000) s t

/-! ### What a valid reply hands on (R89), delivery by delivery -/

/-- Amps held on socket `k` are released, and the list is served. -/
def AmpsReleased (k : SocketId) (x : PowerSession) (s t : State) : Prop :=
  ∃ u, PowerWritten k (some x) s u ∧ ListServed (s.pedestal (pedestalOf k)).cfg.feeder u t

/-- An energy field, `d` its quantity or none for the fault marker (R90, R91, R114): added to the session and charged to its account; its fault flag and METER_FAULT; or the stray counter, where there is no session. -/
def EnergyTaken (k : SocketId) (d : Option Nat) (s t : State) : Prop :=
  let n := pedestalOf k
  let p := s.pedestal n
  match s.power.get k, d with
  | some x, some q =>
    ∃ u, PowerWritten k (some { x with energy := min (x.energy + q) 4294967295 }) s u
      ∧ QuantityCharged x.account .energy q u t
  | some x, none =>
    ∃ u, PowerWritten k (some { x with fault := true }) s u
      ∧ t = raise .meterFault { account := some x.account, outlet := some (.socket k) } u
  | none, some q =>
    t = { s with
      pedestals := s.pedestals.put n
        { p with
          strayEnergy := min (p.strayEnergy + q) 4294967295, edition := if q = 0 then p.edition else p.edition + 1 } }
  | none, none => t = raise .meterFault { outlet := some (.socket k) } s

/-- A reported trip of socket `k` (R105). -/
def TripTaken (k : SocketId) (s t : State) : Prop :=
  match s.power.get k with
  | none => t = s
  | some x =>
    ((x.state = .switching ∨ x.state = .live ∨ x.state = .restoring) →
      ∃ u b, BerthNames s k b
        ∧ PowerWritten k (some { x with state := .tripped, held := 0, confirmMisses := 0 }) s u
        ∧ ListServed (s.pedestal (pedestalOf k)).cfg.feeder
            (raise .socketTripped
              { account := some x.account, berth := b, outlet := some (.socket k), value := some x.energy } u) t)
    ∧ (x.state = .closing → x.held ≠ 0 → PowerEnded k (x.closeReason.getD .finished) s t)
    ∧ ((x.state = .suspended ∨ x.state = .waiting) → x.held ≠ 0 → AmpsReleased k { x with held := 0 } s t)
    ∧ ((x.state = .tripped ∨ (x.state = .closing ∨ x.state = .suspended ∨ x.state = .waiting) ∧ x.held = 0) → t = s)

/-- An agreement of socket `i` of pedestal `n`, formed when its turn comes (R88, R102 to R104; its turn is log 12). An agreement confirms SWITCHING and RESTORING as LIVE, settles a LIVE one's amps at its granted rating, ends a CLOSING one and releases what a SUSPENDED or WAITING one holds; a failure is counted, and the third is a fault; a LIVE relay that reports OFF is SWITCHING again. -/
def SocketAgreed (n : PedestalId) (i : Fin 2) (s t : State) : Prop :=
  let k := socketAt n i
  let p := s.pedestal n
  let agrees := SocketAgrees p i (p.reported.get i)
  match s.power.get k with
  | none => t = s
  | some x =>
    let settled : PowerSession := { x with state := .live, held := min x.held x.granted, confirmMisses := 0 }
    let missed : PowerSession := { x with confirmMisses := min (x.confirmMisses + 1) 3 }
    let third := x.confirmMisses = 2
    let faulted := fun w => raise .socketFault
      { account := some x.account, outlet := some (.socket k), reason := some (.fault w) }
    let served := fun u => if x.granted < x.held then ListServed p.cfg.feeder u t else t = u
    let marked := fun w => ∃ u, PowerWritten k (some { missed with fault := true }) s u ∧ t = faulted w u
    let rising := x.state = .switching ∨ x.state = .restoring
    let falling := x.state = .closing ∨ (x.state = .suspended ∨ x.state = .waiting) ∧ x.held ≠ 0
    (rising → agrees → ∃ u, PowerWritten k (some settled) s u
      ∧ served (raise .powerLive { account := some x.account, outlet := some (.socket k), value := some x.granted } u))
    ∧ (rising → ¬ agrees → third → ∃ u, PowerEnded k .fault s u ∧ t = faulted .switchOn u)
    ∧ (rising → ¬ agrees → ¬ third → PowerWritten k (some missed) s t)
    ∧ (x.state = .live → agrees → ∃ u, PowerWritten k (some settled) s u ∧ served u)
    ∧ (x.state = .live → ¬ agrees → (p.reported.get i).relay = false →
        PowerWritten k (some { x with state := .switching, confirmMisses := 1 }) s t)
    ∧ (x.state = .live → ¬ agrees → (p.reported.get i).relay = true →
        (third → marked .limit) ∧ (¬ third → PowerWritten k (some missed) s t))
    ∧ (x.state = .closing → agrees → PowerEnded k (x.closeReason.getD .finished) s t)
    ∧ (falling → x.state ≠ .closing → agrees → AmpsReleased k { x with held := 0 } s t)
    ∧ (falling → ¬ agrees → (third → marked .switchOff) ∧ (¬ third → PowerWritten k (some missed) s t))
    ∧ (¬ rising → x.state ≠ .live → ¬ falling → t = s)

/-- The deliveries of socket `i` of a kind, in the order of R89 step 2, from a reply with fields `f`; `isNews` where it is accounted. -/
def SocketDelivered (kind : PedestalKind) (n : PedestalId) (isNews : Prop) (f : List Nat) (i : Fin 2) (s t : State) : Prop :=
  let has := kind.hasSocket i = true
  let r := socketReport f i
  (¬ has → t = s)
  ∧ (has → ∃ u v,
      (isNews → EnergyTaken (socketAt n i) (unpack r.energy) s u) ∧ (¬ isNews → u = s)
      ∧ (r.reported.trip = true → TripTaken (socketAt n i) u v) ∧ (r.reported.trip = false → v = u)
      ∧ SocketAgreed n i v t)

/-- A water field (R90, R91, R117): added to the volume and charged, and then an OPENING or FLOWING session at or above its class's cap is CLOSING for CAP; or the fault flag, or the stray counter. -/
def WaterTaken (n : TapId) (d : Option Nat) (s t : State) : Prop :=
  let p := s.pedestal n
  match s.water.get n, d with
  | some x, some q =>
    ∃ u v, WaterWritten n (some { x with volume := min (x.volume + q) 4294967295 }) s u
      ∧ QuantityCharged x.account .water q u v
      ∧ (v.water.get n = none → t = v)
      ∧ ∀ y, v.water.get n = some y →
          let cap := (v.classOf (v.account y.account)).waterCap
          let capped := y.state.on = true ∧ cap ≠ 0 ∧ cap ≤ y.volume
          (¬ capped → t = v)
          ∧ (capped →
              WaterWritten n (some { y with state := .closing, closeReason := some .cap, confirmMisses := 0 }) v t)
  | some x, none =>
    ∃ u, WaterWritten n (some { x with fault := true }) s u
      ∧ t = raise .meterFault { account := some x.account, outlet := some (.tap n) } u
  | none, some q =>
    t = { s with
      pedestals := s.pedestals.put n
        { p with
          strayWater := min (p.strayWater + q) 4294967295, edition := if q = 0 then p.edition else p.edition + 1 } }
  | none, none => t = raise .meterFault { outlet := some (.tap n) } s

/-- The agreement of tap `n` (R88, R116; its turn is log 12). -/
def ValveAgreed (n : TapId) (s t : State) : Prop :=
  let agrees := (s.pedestal n).reportedValve = (s.pedestal n).desiredValve
  match s.water.get n with
  | none => t = s
  | some x =>
    let clear : WaterSession := { x with confirmMisses := 0 }
    let missed : WaterSession := { x with confirmMisses := min (x.confirmMisses + 1) 3 }
    let third := x.confirmMisses = 2
    let faulted := fun w => raise .socketFault
      { account := some x.account, outlet := some (.tap n), reason := some (.fault w) }
    let shut := x.state = .suspended ∨ x.state = .closing
    (x.state.on = true → agrees → WaterWritten n (some { clear with state := .flowing }) s t)
    ∧ (x.state = .flowing → ¬ agrees → WaterWritten n (some { x with state := .opening, confirmMisses := 1 }) s t)
    ∧ (x.state = .opening → ¬ agrees → third → ∃ u, WaterEnded n .fault s u ∧ t = faulted .valveOpen u)
    ∧ (x.state = .suspended → agrees → WaterWritten n (some clear) s t)
    ∧ (x.state = .closing → agrees → WaterEnded n (x.closeReason.getD .finished) s t)
    ∧ (shut → ¬ agrees → third →
        ∃ u, WaterWritten n (some { missed with fault := true }) s u ∧ t = faulted .valveClose u)
    ∧ (shut ∨ x.state = .opening → ¬ agrees → ¬ third → WaterWritten n (some missed) s t)

/-- Relief of feeder `f` (R112): the most recent LIVE grant at 63 is stepped down, else the most recent LIVE grant is shed, or closed FULL where the list is full, else none is taken; the overload count is 0, a hold of 60 s runs, and FEEDER_RELIEF says which. -/
def ReliefActed (f : FeederId) (s t : State) : Prop :=
  ∃ (u : State) (taken : Option SocketId) (w : ReliefWord) (e : Edition),
    (∀ k y, NewestLive s f (fun z => z.granted = 63) k y →
      taken = some k ∧ w = .stepDown ∧ PowerWritten k (some { y with granted := 32, stepped := true }) s u)
    ∧ (∀ k y, (∀ m z, LiveOn s f m z → z.granted ≠ 63) → NewestLive s f (fun _ => True) k y →
        taken = some k ∧ w = .shed
        ∧ ((s.feeder f).waitList.length < 64 →
            PowerWritten k (some { y with state := .waiting, shed := true, confirmMisses := 0 }) s u)
        ∧ (64 ≤ (s.feeder f).waitList.length →
            PowerWritten k
              (some { y with state := .closing, shed := true, closeReason := some .full, confirmMisses := 0 }) s u))
    ∧ ((∀ m z, ¬ LiveOn s f m z) → taken = none ∧ w = .nothing ∧ u = s)
    ∧ t = raise .feederRelief { outlet := taken.map Outlet.socket, value := some f.val, reason := some (.relief w) }
        { u with
          feeders := u.feeders.put f
            { u.feeder f with overload := 0, relief := some (s.clock.plus 60), edition := e } }

/-- The last currents of the sessions of feeder `f` that hold amps, added (R111). -/
def drawnOn (s : State) (f : FeederId) : Nat :=
  ((feederSockets s f).map fun k => match s.power.get k with
    | some y => if y.held = 0 then 0 else y.lastCurrent
    | none => 0).sum

/-- The currents of a reply of pedestal `n` (R111): each session takes the reported current as its last, the feeder's sum is computed afresh over its sessions that hold amps, an excess over its rating is counted, and the eighth in a row relieves it. -/
def CurrentsTaken (n : PedestalId) (s t : State) : Prop :=
  let c := (s.pedestal n).cfg
  let p := s.pedestal n
  ∃ u v, InTurn 2
      (fun i a b =>
        let k := socketAt n i
        ((c.kind.hasSocket i = false ∨ a.power.get k = none) → b = a)
        ∧ ∀ x, c.kind.hasSocket i = true → a.power.get k = some x →
            PowerWritten k (some { x with lastCurrent := (p.reported.get i).current }) a b) s u
    ∧ let f := u.feeder c.feeder
      let sum := drawnOn u c.feeder
      let count := if f.cfg.rating * 10 < sum then f.overload + 1 else 0
      (∃ e : Edition,
        v = { u with feeders := u.feeders.put c.feeder { f with measured := sum, overload := count, edition := e } })
      ∧ (count < 8 → t = v) ∧ (8 ≤ count → ReliefActed c.feeder v t)

/-- From `s` a valid reply of pedestal `n` with the fields `f` leaves `t` (R89): the pedestal's record, with PEDESTAL_BACK where it was OFFLINE, then the deliveries of its sockets, of its tap, and of its currents; the quantities only where its tag is news (R86). -/
def ReplyHandled (n : PedestalId) (f : List Nat) (s t : State) : Prop :=
  let p := s.pedestal n
  let kind := p.cfg.kind
  let isNews := p.tag ≠ some (replyTag f)
  let has := fun i => kind.hasSocket i = true
  ∃ (e : Edition) (b : Option BerthId) (u v w : State),
    let answered := { s with
      pedestals := s.pedestals.put n
        { p with
          misses := 0, link := .online, lastOutcome := some .valid, tag := some (replyTag f), tagIdentity := p.cfg.identity
          reported := Table.build fun i => if has i then (socketReport f i).reported else p.reported.get i
          reportedValve := if kind.hasTap then (tapReport kind f).valve else p.reportedValve
          desired := Table.build fun i =>
            { p.desired.get i with
              clearTrip := (p.desired.get i).clearTrip && (!kind.hasSocket i || (socketReport f i).reported.trip) }
          edition := e } }
    BerthNames s (socketAt n 0) b
    ∧ u = (if p.link = .offline then raise .pedestalBack { berth := b, value := some n.val } answered else answered)
    ∧ InTurn 2 (SocketDelivered kind n isNews f) u v
    ∧ (kind.hasTap = false → w = v)
    ∧ (kind.hasTap = true → ∃ x,
        (isNews → WaterTaken n (unpack (tapReport kind f).water) v x) ∧ (¬ isNews → x = v) ∧ ValveAgreed n x w)
    ∧ CurrentsTaken n w t

/-! ### Fuel sales and tanks (R124, R140 to R142) -/

/-- From `s` the tank record `y` is written at `t` (R124): its low flag is evaluated, its edition advances where the record differs, and TANK_LOW is raised where the flag was clear. -/
def tankWritten (t : ProductId) (y : Tank) (s : State) : State :=
  let old := s.tank t
  let available := y.book - y.holds
  let low := decide (available < y.cfg.low)
  let z : Tank := { y with lowFlag := low, edition := old.edition }
  let u := { s with tanks := s.tanks.put t { z with edition := if z = old then old.edition else old.edition + 1 } }
  if low = true ∧ y.lowFlag = false then raise .tankLow { value := some available, reason := some (.product t) } u else u

/-- The rate of a sale now: at its account's class, or at class 0 for PREPAY (R32, R34, R36, R37). -/
def rateNow (s : State) (b : Buyer) (p : ProductId) : Nat :=
  rateOf s (match b with | .account a => (s.account a).cls | .prepay _ => 0) (fuelService p) (bandNow s)

/-- Tank `k` is written as `y`, which keeps the low flag it had: the flag is evaluated, and TANK_LOW raised where it was clear (R124). -/
def TankSettled (k : ProductId) (y : Tank) (s t : State) : Prop :=
  let available := y.book - y.holds
  let low : Bool := available < y.cfg.low
  ∃ e : Edition,
    let u := { s with tanks := s.tanks.put k { y with lowFlag := low, edition := e } }
    t = if low = true ∧ y.lowFlag = false
      then raise .tankLow { value := some available, reason := some (.product k) } u else u

/-- TANK_DISCREPANCY with the amount, where there is one (R141, R146; its content at a clamp is log 34). -/
def discrepant (k : ProductId) (amount : Nat) (s : State) : State :=
  if amount = 0 then s
  else raise .tankDiscrepancy { value := some amount, reason := some (.product k) } s

/-- From `s` the end of sale `x` of pump `n` leaves `t`: its record in the log (R140, R142), the tank settled with its notices (R141), the hold and the link gone and the charge applied with what that brings (R36, R6, R9, R10), or the refund found (R37), and SALE_ENDED last (log 14). The first five clauses say what each record becomes, the last the whole change. -/
def SaleEnded (n : PumpId) (x : Sale) (why : SaleEnd) (s t : State) : Prop :=
  let rate := rateNow s x.buyer x.product
  let tank := s.tank x.product
  let holds := tank.holds - x.volumeHold
  let short := holds + x.delivered - tank.book
  let settled : Tank :=
    { tank with
      book := max (tank.book - x.delivered) holds, holds := holds, discrepancy := min (tank.discrepancy + short) 4294967295 }
  let record := fun charge refund : Nat =>
    { x with
      state := .ended, endReason := some why, finish := some s.clock, charge := charge, refund := refund
      overRun := x.overRun || decide (x.limit < x.delivered) }
  let logged := fun y : Sale =>
    s.saleLog.length ≤ 64 → t.saleLog = (if s.saleLog.length < 64 then s.saleLog else s.saleLog.tail) ++ [y]
  let closes := fun (charge refund : Nat) (buyer : Option AccountId) (v : State) =>
    ∃ e : Edition, t = raise .saleEnded
      { account := buyer, pump := some n, value := some (charge : Int), reason := some (.saleEnd why) }
      { v with
        pumps := v.pumps.put n { s.pump n with sale := none, order := .cancel, timer := none, edition := e }
        saleLog := (if v.saleLog.length < 64 then v.saleLog else v.saleLog.drop (v.saleLog.length - 63))
          ++ [record charge refund] }
  t = { s with
        pumps := t.pumps, tanks := t.tanks, accounts := t.accounts, saleLog := t.saleLog, pedestals := t.pedestals
        power := t.power, water := t.water, feeders := t.feeders, grantCount := t.grantCount, ports := t.ports
        heldNotices := t.heldNotices }
  ∧ t.pumps = s.pumps.put n
      { s.pump n with sale := none, order := .cancel, timer := none, edition := (t.pump n).edition }
  ∧ t.tanks = s.tanks.put x.product
      { settled with
        lowFlag := decide (settled.book - holds < tank.cfg.low), edition := (t.tank x.product).edition }
  ∧ (match x.buyer with
    | .prepay paid =>
      let charge := min (x.delivered * rate / 10000) paid
      logged (record charge (paid - charge)) ∧ t.accounts = s.accounts
    | .account a =>
      let y := s.account a
      let total := y.residues.get (serviceIx (fuelService x.product)) + x.delivered * rate
      let clamps : Bool := y.balance - ((total / 10000 : Nat) : Int) < -99999999
      logged (record (total / 10000) 0)
      ∧ t.account a =
          { y with
            balance := if clamps then -99999999 else y.balance - ((total / 10000 : Nat) : Int)
            clamped := y.clamped || clamps
            residues := y.residues.put (serviceIx (fuelService x.product)) (total % 10000)
            holds := y.holds - x.moneyHold, sale := none, standing := (t.account a).standing
            arrearsNights := (t.account a).arrearsNights, power := (t.account a).power, water := (t.account a).water
            edition := (t.account a).edition }
      ∧ (y.state ≠ .free → (t.account a).standing =
          standingOf y.barredFlag (t.account a).balance (s.classOf y).floor)
      ∧ ∀ i, i ≠ a → t.account i =
          { s.account i with
            power := (t.account i).power, water := (t.account i).water, edition := (t.account i).edition })
  ∧ ∃ u, TankSettled x.product settled (discrepant x.product short s) u
    ∧ match x.buyer with
      | .prepay paid =>
        let charge := min (x.delivered * rate / 10000) paid
        closes charge (paid - charge) none u
      | .account a =>
        let y := s.account a
        let service := serviceIx (fuelService x.product)
        let total := y.residues.get service + x.delivered * rate
        ∃ v,
          Charged a
            { y with
              holds := y.holds - x.moneyHold, sale := none, residues := y.residues.put service (total % 10000) }
            (total / 10000) u v
          ∧ closes (total / 10000) 0 (some a) v

/-- The open sales end, pump by pump. -/
def SalesEnded (why : SaleEnd) : State → State → Prop :=
  InTurn 4 fun n s t => ((s.pump n).sale = none → t = s) ∧ ∀ x, (s.pump n).sale = some x → SaleEnded n x why s t

/-- From `s` a valid reply of pump `n` is taken: its readings, with what it makes of the pump's record, `q`, and the poll is closed (R133, R134). The edition is `e`. -/
def pumpAnswered (n : PumpId) (q : Pump) (r : PumpReading) (e : Edition) (s : State) : State :=
  { s with
    pumpLine := { s.pumpLine with outstanding := none }
    pumps := s.pumps.put n
      { q with readings := some r, misses := 0, online := true, lastOutcome := some .valid, edition := e } }

/-! ### Credentials (R149, R154) -/

/-- The bits are of the enabled format `f` (R148: at most one has a length). -/
def FormatIs (s : State) (bits : List Bool) (f : FormatCfg) : Prop :=
  f.enabled = true ∧ f.length = bits.length
    ∧ ∃ i : Fin 8, (s.formats.get i).val = f
      ∧ ∀ j : Fin 8, (s.formats.get j).val.enabled = true → (s.formats.get j).val.length = bits.length → i ≤ j

/-- Both parity checks of a format hold (R149). -/
def ParityHolds (f : FormatCfg) (bits : List Bool) : Prop :=
  ∀ i : Fin 2, let p := f.parity.get i
    p.present = true →
      (((bits.drop p.start).take p.length).count true + (bits.getD p.bit false).toNat) % 2 = if p.odd then 1 else 0

/-- The key that the two fields of a format spell (R149). -/
def spelledKey (f : FormatCfg) (bits : List Bool) : Key :=
  { site := bitsToNat ((bits.drop f.sitePos).take f.siteLen), id := bitsToNat ((bits.drop f.idPos).take f.idLen) }

/-- Credential `c` is the ACTIVE one with the key (R150: at most one has it). -/
def ActiveWith (s : State) (k : Key) (c : CredId) : Prop :=
  (s.cred c).state = .active ∧ (s.cred c).key = k ∧ ∀ d, (s.cred d).state = .active → (s.cred d).key = k → c ≤ d

/-- The window of an access entry admits the hour (R154). -/
def WindowAdmits (s : State) (x : AccessCfg) : Prop :=
  let hour := s.clock.time / 3600 % 24
  s.clockSet = false ∨ x.startHour = x.endHour
    ∨ x.startHour < x.endHour ∧ x.startHour ≤ hour ∧ hour < x.endHour
    ∨ x.endHour < x.startHour ∧ (x.startHour ≤ hour ∨ hour < x.endHour)

/-- A decision joins the passage log, which keeps the newest 128 (R162). -/
def withPassage (r : ReaderId) (result : GateResult) (who : Passer) (s : State) : State :=
  { s with
    passages := (if s.passages.length < 128 then s.passages else s.passages.drop (s.passages.length - 127))
      ++ [{ at_ := s.clock, reader := r, gate := gateOf r, result := result, passer := who }] }

/-! ### Device states (R160, R179 to R186) -/

/-- The gates of `s` with every lock set for device state `d` (R160), and editions advanced where a lock changed. -/
def Relocked (d : DeviceState) (s : State) (gates : Table Gate 20) : Prop :=
  ∀ g : GateId,
    let x := s.gate g
    let byMode : Bool :=
      match x.cfg.mode with
      | .heldOpen => true
      | .outOfService => g = 0 && x.byExit && x.expiry.isSome
      | .normal => x.expiry.isSome
    let released : Bool :=
      match d with
      | .loading => g = 0
      | .setup => g = 0 || byMode
      | .opened => byMode
      | .holdover => byMode
    gates.get g =
      { x with released := released, edition := if x.released = released then x.edition else x.edition + 1 }

/-- From `s` the entry to LOADING leaves `t` (R181, R179, R185), with what an abandoned SAVE left of the image: the table, state and lines of every port and block that LOADING empties; all else is retained. -/
def EntersLoading (stage : SaveStage) (s t : State) : Prop :=
  Relocked .loading s t.gates
  ∧ t = { s with
          device := .loading, gates := t.gates, save := none, rollover := none, rolloverPending := false
          image := match s.save, stage with
            | none, _ => s.image
            | some _, .beforeErase => s.image
            | some _, .erased => [255, 255] ++ s.image.drop 2
            | some x, .headerWritten => imageOf x
          segments := Table.build fun _ => idleSegment, pumpLine := idlePumpLine
          readers := Table.build fun _ => emptyReader, ports := Table.build fun _ => loadingPort
          heldNotices :=
            [{ cls := .stateChanged, raised := s.clock, info := { reason := some (.device .loading) }, gap := false }] }

/-- From `s`, with `u` the level or the validity word written, the entry to HOLDOVER leaves `t`: MAINS_LOST, the rollover test, STATE_CHANGED, the end of polling, and the open sales end MAINS_LOST; with no open sale to end, nothing else. -/
def HoldoverEntered (s u t : State) : Prop :=
  ∃ v, RolloverTested { raise .mainsLost {} u with device := .holdover, gates := t.gates } v
    ∧ t.rollover = v.rollover ∧ t.rolloverPending = v.rolloverPending
    ∧ let polled : State :=
        { raise .stateChanged { reason := some (.device .holdover) } v with
          segments := s.segments.map fun x => { x with due := false, outstanding := none }
          pumpLine := { s.pumpLine with outstanding := none } }
      SalesEnded .mainsLost polled t ∧ ((∀ n, (s.pump n).sale = none) → t = polled)

/-! ### The end of LOADING (R181, R182, R183, R179) -/

/-- `t` has the configuration of the tables `c`, each entry with no live part at edition 0, and the gates locked as LOADING has them (R181, R163). -/
def LoadedTables (c : SiteTables) (t : State) : Prop :=
  t.site = { val := c.site, edition := 0 }
  ∧ (∀ i, t.classes.get i = { val := c.classes.get i, edition := 0 })
  ∧ (∀ i, t.rates.get i = { val := c.rates.get i, edition := 0 })
  ∧ (∀ i, t.bands.get i = { val := c.bands.get i, edition := 0 })
  ∧ (∀ i, t.formats.get i = { val := c.formats.get i, edition := 0 })
  ∧ (∀ i, t.access.get i = { val := c.access.get i, edition := 0 })
  ∧ (∀ i, t.levels.get i = { val := c.levels.get i, edition := 0 })
  ∧ (∀ i, t.thresholds.get i = { val := c.thresholds.get i, edition := 0 })
  ∧ (∀ n, (t.berth n).cfg = (c.berths.get n).cfg) ∧ (∀ n, (t.pedestal n).cfg = c.pedestals.get n)
  ∧ (∀ f, (t.feeder f).cfg = c.feeders.get f) ∧ (∀ n, (t.pump n).cfg = c.pumps.get n)
  ∧ (∀ k, (t.tank k).cfg = c.tanks.get k)
  ∧ ∀ g, t.gate g =
      { cfg := c.gates.get g, released := decide (g = 0), expiry := none, byExit := false, edition := 0 }

/-- Every live record of `t` is at its cold value under the configuration that `t` has (R19, R60, R73, R94, R96, R142, R146, R162, R163). -/
def RecordsCold (t : State) : Prop :=
  t.clock = { date := 0, time := 0 } ∧ t.clockSet = false ∧ t.lastRollover = none ∧ t.rollover = none
  ∧ t.rolloverPending = false
  ∧ (∀ a, t.account a =
      { state := .free, name := coldName a.val, cls := 0, loa := 1000, beam := 350, draft := 150
        berth := none, arrival := none, planned := none, lastCharged := none, nights := 0, lastStepped := none
        balance := 0, holds := 0, standing := .good, barredFlag := false, arrearsNights := 0, clamped := false
        residues := Table.build fun _ => 0, credentials := [], power := none, water := none, sale := none
        edition := 0 })
  ∧ (∀ n, ((t.berth n).state = .free ∨ (t.berth n).state = .outOfService) ∧ (t.berth n).holder = none
      ∧ (t.berth n).edition = 0)
  ∧ (∀ n, t.pedestal n =
      { cfg := (t.pedestal n).cfg, link := if (t.pedestal n).cfg.installed then .unknown else .absent
        desired := Table.build fun _ => { relay := false, limit := .l63, clearTrip := false }, desiredValve := false
        strayEnergy := 0, strayWater := 0, edition := 0, misses := 0, tag := none, tagIdentity := (t.pedestal n).cfg.identity
        reported := Table.build fun _ => { relay := false, limit := .l63, trip := false, current := 0 }
        reportedValve := false, lastOutcome := none })
  ∧ (∀ k, t.power.get k = none) ∧ (∀ k, t.water.get k = none)
  ∧ (∀ f, t.feeder f =
      { cfg := (t.feeder f).cfg, heldSum := 0, waitList := [], relief := none, edition := 0, measured := 0, overload := 0 })
  ∧ t.grantCount = 0
  ∧ (∀ n, t.pump n =
      { cfg := (t.pump n).cfg, online := false, misses := 3, order := .cancel, sale := none, timer := none
        readings := none, lastOutcome := none, edition := 0 })
  ∧ (∀ k, t.tank k =
      { cfg := (t.tank k).cfg, book := 0, holds := 0, lowFlag := decide (0 < (t.tank k).cfg.low), discrepancy := 0
        edition := 0 })
  ∧ t.saleCounter = 0 ∧ t.saleLog = []
  ∧ (∀ c, t.cred c =
      { state := .free, key := { site := 0, id := 0 }, kind := .staff, account := none, accessClass := 0
        inside := false, lastGate := none, lastTime := none, edition := 0 })
  ∧ t.passages = []

/-- From `s` the records are lost and `t` has them at their cold values; configuration, device, ports, lines, gates, readers, image and queue stay. Which berths are in service is said where this is used. -/
def RecordsLost (s t : State) : Prop :=
  RecordsCold t
  ∧ (∀ n, (t.berth n).cfg = (s.berth n).cfg) ∧ (∀ n, (t.pedestal n).cfg = (s.pedestal n).cfg)
  ∧ (∀ f, (t.feeder f).cfg = (s.feeder f).cfg) ∧ (∀ n, (t.pump n).cfg = (s.pump n).cfg)
  ∧ (∀ k, (t.tank k).cfg = (s.tank k).cfg)
  ∧ t = { s with
          clock := t.clock, clockSet := t.clockSet, lastRollover := t.lastRollover, rollover := t.rollover
          rolloverPending := t.rolloverPending, accounts := t.accounts, berths := t.berths, pedestals := t.pedestals
          power := t.power, water := t.water, feeders := t.feeders, grantCount := t.grantCount, pumps := t.pumps
          tanks := t.tanks, saleCounter := t.saleCounter, saleLog := t.saleLog, creds := t.creds, passages := t.passages }

/-- `t` is `s` but for the configuration tables and what else stands in a table of which a part is configuration. -/
def SameButTables (s t : State) : Prop :=
  t = { s with
        site := t.site, classes := t.classes, rates := t.rates, bands := t.bands, formats := t.formats
        access := t.access, levels := t.levels, thresholds := t.thresholds, berths := t.berths
        pedestals := t.pedestals, feeders := t.feeders, pumps := t.pumps, tanks := t.tanks, gates := t.gates }

/-- From `u`, the records as the start leaves them, LOADING ends in state `d` at `t`: the readers' queues are emptied (R147; their end timers log 31), every lock is set (R160), an entry to OPEN or HOLDOVER tests the rollover (R65), polling begins in SETUP and OPEN (R75, R131; the due mark is log 26), every port loads its holding record from SITE 0, the held notices are copied in their order (R179), and STATE_CHANGED with the value is the last notice. -/
def LoadingEnded (d : DeviceState) (value : Int) (u t : State) : Prop :=
  Relocked d u t.gates
  ∧ ∃ v segments,
    let entered : State :=
      { u with readers := Table.build fun _ => { bits := [], overflow := false, timer := false }, device := d, gates := t.gates }
    (d = .opened ∨ d = .holdover → RolloverTested entered v)
    ∧ (d = .loading ∨ d = .setup → v = entered)
    ∧ (d = .loading ∨ d = .holdover → segments = u.segments)
    ∧ (d = .setup ∨ d = .opened → ∀ g,
        segments.get g =
          { u.segment g with position := none, due := (segments.get g).due, outstanding := none }
        ∧ ((segments.get g).due = true ↔ ∃ n, onSegment u g n))
    ∧ t = raise .stateChanged { value := some value, reason := some (.device d) }
        { u.heldNotices.foldl (fun w n => routeNotice n w)
            { v with
              segments := segments
              pumpLine := if d = .setup ∨ d = .opened then { u.pumpLine with last := none, outstanding := none } else u.pumpLine
              ports := u.ports.map fun p =>
                { p with cursor := { table := .site, index := 0 }, holding := entryAt u .site 0 } } with
          heldNotices := [] }

/-- From `s` the cold start under the tables `c` leaves `t`, in SETUP with no good validity word (R182): every record at its cold value, a berth in service as the image records it (R60). -/
def ColdStarted (c : SiteTables) (value : Int) (s t : State) : Prop :=
  ∃ u v, SameButTables { s with valid := false } u ∧ LoadedTables c u ∧ RecordsLost u v
    ∧ (∀ n, (v.berth n).state = if (c.berths.get n).outOfService then .outOfService else .free)
    ∧ LoadingEnded .setup value v t

/-- From `s` the retained records are taken under the tables `c` (R183): berths and feeders keep all but their configuration; a pedestal's link, misses, reported states and outcome are fresh, its desired outputs and strays stay, and its tag stays where it was accounted under the identity loaded (R94); pumps are OFFLINE with no readings (R146); no rollover is in flight or pending (R73). -/
def RecordsRetained (c : SiteTables) (s t : State) : Prop :=
  SameButTables { s with rollover := none, rolloverPending := false } t
  ∧ LoadedTables c t
  ∧ (∀ n, t.berth n = { s.berth n with cfg := (c.berths.get n).cfg })
  ∧ (∀ n, let p := s.pedestal n
      let d := c.pedestals.get n
      t.pedestal n =
        { p with
          cfg := d, link := if d.installed then .unknown else .absent, misses := 0
          tag := if p.tagIdentity = d.identity then p.tag else none, tagIdentity := d.identity
          reported := Table.build fun _ => { relay := false, limit := .l63, trip := false, current := 0 }
          reportedValve := false, lastOutcome := none })
  ∧ (∀ f, t.feeder f = { s.feeder f with cfg := c.feeders.get f })
  ∧ (∀ n, t.pump n =
      { s.pump n with cfg := c.pumps.get n, online := false, misses := 3, readings := none, lastOutcome := none })
  ∧ ∀ k, t.tank k = { s.tank k with cfg := c.tanks.get k }

/-- R121 step 1: the session of socket `k` ends RESTART where the socket is no longer present. -/
def AbsentPowerEnded (k : SocketId) (s t : State) : Prop :=
  let gone := fun x => s.power.get k = some x ∧ socketPresent s k = false
  ((∀ x, ¬ gone x) → t = s)
  ∧ ∀ x, gone x →
      ∃ v, AccountWritten x.account { s.account x.account with power := none } { s with power := s.power.put k none } v
        ∧ t = raise .powerEnded
            { account := some x.account, outlet := some (.socket k), value := some x.energy
              reason := some (.powerEnd .restart), fault := x.fault } v

/-- R121 step 1: the session of tap `k` ends RESTART where the tap is no longer present. -/
def AbsentWaterEnded (k : TapId) (s t : State) : Prop :=
  let gone := tapPresent s k = false ∧ s.water.get k ≠ none
  (¬ gone → t = s) ∧ (gone → WaterEnded k .restart s t)

/-- Every feeder's held sum is the sum of its sessions' held amps and its list keeps the entries that still wait on it; no relief hold runs and the readings are 0 (R121). -/
def FeedersAgreed (s t : State) : Prop :=
  t = { s with feeders := t.feeders }
  ∧ ∀ f, t.feeder f =
      { s.feeder f with
        heldSum := ((feederSockets s f).map fun k => heldOf (s.power.get k)).sum
        waitList := (s.feeder f).waitList.filter fun k =>
          isWaiting (s.power.get k) && feederOf s k = f
        relief := none, measured := 0, overload := 0, edition := (t.feeder f).edition }

/-- A WAITING session of socket `k` that is on no list of its feeder joins its tail, or at a full list ends FULL (R121 step 1). -/
def Rejoined (k : SocketId) (s t : State) : Prop :=
  let n := (s.pedestal (pedestalOf k)).cfg.feeder
  let f := s.feeder n
  let joins := isWaiting (s.power.get k) = true ∧ k ∉ f.waitList
  (¬ joins → t = s)
  ∧ (joins → f.waitList.length < 64 → ∃ e : Edition,
      t = { s with feeders := s.feeders.put n { f with waitList := f.waitList ++ [k], edition := e } })
  ∧ (joins → 64 ≤ f.waitList.length → PowerEnded k .full s t)

/-- Every LIVE and SWITCHING session is RESTORING and every power session's confirm misses and last current are 0, every water session's confirm misses are 0, and each desired output is what its session requires; clear-trip requests stay (R121 steps 1 and 2). -/
def SessionsRestored (s t : State) : Prop :=
  t = { s with power := t.power, water := t.water, pedestals := t.pedestals }
  ∧ (∀ k, t.power.get k = (s.power.get k).map fun x =>
      { x with
        state := if x.state = .live ∨ x.state = .switching then .restoring else x.state
        lastCurrent := 0, confirmMisses := 0 })
  ∧ (∀ k, t.water.get k = (s.water.get k).map fun x => { x with confirmMisses := 0 })
  ∧ ∀ n, let p := s.pedestal n
      t.pedestal n =
        { p with
          desired := Table.build fun i =>
            let x := t.power.get (socketAt n i)
            let on : Bool := x.any fun y => y.state.on
            let narrow : Bool := on && p.cfg.ratings.get i = .a63 && x.any fun y => y.granted = 32
            { relay := on, limit := if narrow then .l32 else .l63, clearTrip := (p.desired.get i).clearTrip }
          desiredValve := (t.water.get n).any fun y => y.state.on
          edition := (t.pedestal n).edition }

/-- The book of tank `k` is clamped to the loaded capacity, what it lost is counted and told, and the low flag evaluated (R146). -/
def TankClamped (k : ProductId) (s t : State) : Prop :=
  let x := s.tank k
  let lost := x.book - x.cfg.capacity
  TankSettled k
    { x with book := min x.book x.cfg.capacity, discrepancy := min (x.discrepancy + lost) 4294967295 }
    (discrepant k lost s) t

/-- R121 step 4: relief takes one RESTORING session of feeder `f`: the most recent grant at 63, stepped down with its amps 32 at once; else the most recent grant, shed with its amps released at once, or ended FULL where the list is full. -/
def RestoringRelieved (f : FeederId) (s t : State) : Prop :=
  let told := fun k w => raise .feederRelief
    { outlet := some (.socket k), value := some f.val, reason := some (.relief w) }
  (∃ k y v, NewestOn .restoring s f (fun z => z.granted = 63) k y
    ∧ PowerWritten k (some { y with granted := 32, held := 32, stepped := true }) s v ∧ t = told k .stepDown v)
  ∨ ∃ k y v, (∀ m z, SessionOn .restoring s f m z → z.granted ≠ 63) ∧ NewestOn .restoring s f (fun _ => True) k y
    ∧ ((s.feeder f).waitList.length < 64 →
        PowerWritten k (some { y with state := .waiting, held := 0, shed := true, confirmMisses := 0 }) s v)
    ∧ (64 ≤ (s.feeder f).waitList.length → PowerEnded k .full s v)
    ∧ t = told k .shed v

/-- R121 step 4: while the held sum of feeder `f` exceeds the loaded cap, relief takes one session after another, until it fits or no session is RESTORING. -/
def ReliefTaken (f : FeederId) (s t : State) : Prop :=
  ∃ (n : Nat) (v : Nat → State), v 0 = s ∧ v n = t
    ∧ (∀ i, i < n → capOf (v i) f < ((v i).feeder f).heldSum ∧ RestoringRelieved f (v i) (v (i + 1)))
    ∧ ((t.feeder f).heldSum ≤ capOf t f ∨ ∀ k y, ¬ SessionOn .restoring t f k y)

/-- From `s` the warm start under the tables `c` leaves `t`, in OPEN or in HOLDOVER as MAINS_OK stands (R183): the retained records, the sessions (R121), the open sales ended RESTART and the tanks clamped (R146), every standing evaluated under the loaded floors (R19), relief, service of the lists, and the end of LOADING with the value 1. That within a step the records are taken in ascending number is log 20. -/
def WarmStarted (c : SiteTables) (s t : State) : Prop :=
  ∃ v : Nat → State,
    RecordsRetained c s (v 0)
    ∧ InTurn 512 AbsentPowerEnded (v 0) (v 1)
    ∧ InTurn 256 AbsentWaterEnded (v 1) (v 2)
    ∧ FeedersAgreed (v 2) (v 3)
    ∧ InTurn 512 Rejoined (v 3) (v 4)
    ∧ SessionsRestored (v 4) (v 5)
    ∧ SalesEnded .restart (v 5) (v 6)
    ∧ InTurn 2 TankClamped (v 6) (v 7)
    ∧ InTurn 512 StandingSettled (v 7) (v 8)
    ∧ InTurn 16 ReliefTaken (v 8) (v 9)
    ∧ let d : DeviceState := if s.mainsOk then .opened else .holdover
      InTurn 16 ListServed { v 9 with device := d } (v 10) ∧ LoadingEnded d 1 (v 10) t

/-! ### The return of the mains (R186, R93, R120, R145) -/

/-- Session of socket `k` at the return: LIVE and SWITCHING become RESTORING with confirm misses 0, and last current is 0 (R120 steps 1 and 2). -/
def SessionReturned (k : SocketId) (s t : State) : Prop :=
  (s.power.get k = none → t = s)
  ∧ ∀ x, s.power.get k = some x →
      let drops := x.state = .live ∨ x.state = .switching
      PowerWritten k
        (some { x with
          state := if drops then .restoring else x.state, lastCurrent := 0
          confirmMisses := if drops then 0 else x.confirmMisses }) s t

/-- Feeder `f` at the return: readings 0, and a relief hold is removed, with the list served (R120 step 3, R113). -/
def FeederReturned (f : FeederId) (s t : State) : Prop :=
  ∃ e : Edition,
    let u := { s with
      feeders := s.feeders.put f { s.feeder f with measured := 0, overload := 0, relief := none, edition := e } }
    ((s.feeder f).relief = none → t = u) ∧ ((s.feeder f).relief ≠ none → ListServed f u t)

/-- From `u`, OPEN entered and told, the effects of the return leave `t`: installed pedestals UNKNOWN with no misses and current 0 (R93), the sessions, the feeders, installed pumps OFFLINE (R145), and polling from the first pedestal and pump (R75, R131). -/
def MainsReturned (u t : State) : Prop :=
  ∃ v w x : State,
    v = { u with pedestals := v.pedestals }
    ∧ (∀ n, let p := u.pedestal n
        (p.cfg.installed = false → v.pedestal n = p)
        ∧ (p.cfg.installed = true → v.pedestal n =
            { p with
              link := .unknown, misses := 0, reported := p.reported.map fun r => { r with current := 0 }
              edition := if p.link = .unknown then p.edition else p.edition + 1 }))
    ∧ InTurn 512 SessionReturned v w
    ∧ InTurn 16 FeederReturned w x
    ∧ t = { x with segments := t.segments, pumpLine := { u.pumpLine with last := none, outstanding := none }, pumps := t.pumps }
    ∧ (∀ n, let p := u.pump n
        (p.cfg.installed = false → t.pump n = p)
        ∧ (p.cfg.installed = true → t.pump n =
            { p with online := false, misses := 3, edition := if p.online then p.edition + 1 else p.edition }))
    ∧ ∀ g, t.segment g =
        { u.segment g with position := none, due := (t.segment g).due, outstanding := none }

/-- The numbers of a format that an ignored field may hold fit their byte. -/
def FormatCfg.fitsBytes (x : FormatCfg) : Prop :=
  x.sitePos < 256 ∧ ∀ i, (x.parity.get i).bit < 256 ∧ (x.parity.get i).start < 256 ∧ (x.parity.get i).length < 256

end Sys2Proof.Machine
end

