-- ==== Sys2Proof/Certificates/Slice0/Obligations.lean ====
section
/-! DEFINITION. The statements for the provers. Each docstring names the rule a statement formalises, or the log entry it rests on. Frames are written as equations of whole states: a field that an equation does not name is unchanged. -/

open Sys2Proof Sys2Proof.Machine

/-! ### The queue and the steps -/

/-- The model's form of the block (log 2): a step takes the command at the front of the queue and runs it with the queue's rest; on an empty queue the block idles. -/
def Obligations.StepExecutesTheFrontCommand : Prop :=
  ∀ (c : Instr) (q : List Instr) (s : State),
    step (s.withPending (c :: q)) = exec c (s.withPending q) ∧ step (s.withPending []) = .next (s.withPending [])

/-- Every command of the table is taken, none ends in a fault or a refusal, and none touches the waiting commands. The queue is log 2. -/
def Obligations.EveryCommandIsTakenAndLeavesTheQueue : Prop :=
  ∀ (c : Instr) (s : State), ∃ t, exec c s = .next t ∧ t.pending = s.pending

/-! ### Command ports (09) -/

/-- R167. A command off its ports is refused NOT_HERE after its syntax is checked, with nothing else changed; on a port that may use it, it is not. When a row is taken at its port is log 3; the reply kept in the port is log 23. -/
def Obligations.CommandOffItsPortsIsRefusedNotHere : Prop :=
  ∀ (c : Instr) (o : Origin) (s : State), originOf c = some o → Takes c o s → c.wellFormed = true →
    (permitted c o.port = false → exec c s = .next (reply o.port o.suffix [.refused .notHere] s))
    ∧ (permitted c o.port = true →
        ∃ t, exec c s = .next t ∧ (t.port o.port).reply ≠ [.refused .notHere])

/-- R168. A command that the device state does not admit is answered RETRY in LOADING and refused otherwise, with nothing else changed; one that it admits is not turned away so. In HOLDOVER the four that start a service are refused by their owner. When a row is taken at its port is log 3. -/
def Obligations.CommandTheStateDoesNotAdmitIsTurnedAway : Prop :=
  ∀ (c : Instr) (o : Origin) (s : State), originOf c = some o → Takes c o s → c.wellFormed = true →
    permitted c o.port = true →
    (admitted c s.device = false →
      exec c s = .next (reply o.port o.suffix [notAdmittedReply c s.device] s))
    ∧ (admitted c s.device = true →
        ∃ t, exec c s = .next t ∧ (t.port o.port).reply ≠ [.retry] ∧ (t.port o.port).reply ≠ [.refused .closed])
    ∧ (startsService c = true → s.device = .holdover →
        exec c s = .next (reply o.port o.suffix [.refused .holdover] s)
        ∨ exec c s = .next (reply o.port o.suffix [.refused .range] s))

/-- A command answered REFUSED, RETRY or BAD has changed nothing but the port that answers. That the port keeps its reply is log 23. -/
def Obligations.RefusedCommandChangesNothing : Prop :=
  ∀ (c : Instr) (o : Origin) (s t : State) (l : ReplyLine), originOf c = some o → exec c s = .next t →
    (t.port o.port).reply = [l] → (∀ items, l ≠ .done items) →
    t = (putPort o.port
            { s.port o.port with
              state := (t.port o.port).state, line := (t.port o.port).line, overlong := (t.port o.port).overlong
              suffix := (t.port o.port).suffix, reply := [l] } s)

/-- R164 to R166, for a line that arrives whole at an idle port and is no command: overlong, a character that is not printable, an asterisk that two hexadecimal digits and the end do not follow, a suffix whose value is wrong, a first field that is no command word, and a command word whose fields are not of the number, form and kind that its syntax table gives, with a right suffix or none; and for a command row that no line could spell. The line is answered and nothing else changes. The order of the checks is log 6, the arrival of a whole line and of a row log 3, the forms of numbers log 27. -/
def Obligations.LineThatFailsItsChecksIsAnsweredBad : Prop :=
  (∀ (p : PortId) (line : List Byte) (s : State), s.stopped = false → (s.port p).state = .idle → lineForm line = true →
    (200 < line.length →
      exec (.unknownCommandLine p line) s = .next (reply p false [.bad .syntaxWord] s))
    ∧ (line.length ≤ 200 → line.contains 42 = false → line.any (fun c => c.toNat < 32 || 126 < c.toNat) = true →
      exec (.unknownCommandLine p line) s = .next (reply p false [.bad .syntaxWord] s))
    ∧ (line.length ≤ 200 → line.contains 42 = false → line.all (fun c => 32 ≤ c.toNat && c.toNat ≤ 126) = true →
      (∀ word args, fieldsOfLine line = word :: args → word ∉ commandWords) →
      exec (.unknownCommandLine p line) s = .next (reply p false [.bad .unknown] s))
    ∧ (∀ body h l x y, line = body ++ [42, h, l] → line.length ≤ 200 → body.contains 42 = false →
        hexValue h = some x → hexValue l = some y → (byteSum body).toNat + 16 * x + y ≠ 0 →
        ((byteSum body).toNat + 16 * x + y) ≠ 256 →
        exec (.unknownCommandLine p line) s = .next (reply p false [.bad .check] s))
    ∧ (∀ body rest, line = body ++ 42 :: rest → line.length ≤ 200 → body.contains 42 = false → rest.length ≠ 2 →
        exec (.unknownCommandLine p line) s = .next (reply p false [.bad .syntaxWord] s))
    ∧ (∀ body h l, line = body ++ [42, h, l] → line.length ≤ 200 → body.contains 42 = false →
        (hexValue h = none ∨ hexValue l = none) →
        exec (.unknownCommandLine p line) s = .next (reply p false [.bad .syntaxWord] s))
    ∧ (∀ body h l x y, line = body ++ [42, h, l] → line.length ≤ 200 → body.contains 42 = false →
        hexValue h = some x → hexValue l = some y →
        ((byteSum body).toNat + 16 * x + y = 0 ∨ (byteSum body).toNat + 16 * x + y = 256) →
        body.all (fun c => 32 ≤ c.toNat && c.toNat ≤ 126) = true →
        (∀ word args, fieldsOfLine body = word :: args → word ∉ commandWords) →
        exec (.unknownCommandLine p line) s = .next (reply p true [.bad .unknown] s))
    ∧ (∀ word fields, line.length ≤ 200 → line.contains 42 = false →
        line.all (fun c => 32 ≤ c.toNat && c.toNat ≤ 126) = true → fieldsOfLine line = word :: fields →
        word ∈ commandWords → fieldsFit word fields = false →
        exec (.unknownCommandLine p line) s = .next (reply p false [.bad .syntaxWord] s))
    ∧ (∀ body h l x y word fields, line = body ++ [42, h, l] → line.length ≤ 200 → body.contains 42 = false →
        hexValue h = some x → hexValue l = some y →
        ((byteSum body).toNat + 16 * x + y = 0 ∨ (byteSum body).toNat + 16 * x + y = 256) →
        body.all (fun c => 32 ≤ c.toNat && c.toNat ≤ 126) = true → fieldsOfLine body = word :: fields →
        word ∈ commandWords → fieldsFit word fields = false →
        exec (.unknownCommandLine p line) s = .next (reply p true [.bad .syntaxWord] s)))
  ∧ ∀ (c : Instr) (o : Origin) (s : State), originOf c = some o → Takes c o s → c.wellFormed = false →
    exec c s = .next (reply o.port o.suffix [.bad .syntaxWord] s)

/-- R164, one event at a port. IDLE: a line feed is ignored; a carriage return empties a blank line and otherwise ends the line; any other character is appended up to 200, and the 201st sets the overlong mark; 2 s of silence discard a partial line. ANSWERING: the character is discarded. The last line of a reply sent makes the port IDLE with an empty assembler. None touches anything else. That an overlong line is looked at before a blank one is log 6; that a carriage return leaves the port in a state of its own is log 3; that a timeout outside IDLE and an end of reply outside a reply do nothing is log 4. -/
def Obligations.CharactersAssembleALine : Prop :=
  ∀ (p : PortId) (ch : Byte) (s : State), s.stopped = false →
    let x := s.port p
    ((s.port p).state ≠ .idle → exec (.portCharacter p ch) s = .next s)
    ∧ (x.state = .idle → ch = 10 → exec (.portCharacter p ch) s = .next s)
    ∧ (x.state = .idle → ch = 13 → x.overlong = false → x.line.all (· = 32) = true →
        exec (.portCharacter p ch) s = .next (putPort p { x with line := [] } s))
    ∧ (x.state = .idle → ch = 13 → (x.overlong = true ∨ x.line.all (· = 32) = false) →
        exec (.portCharacter p ch) s = .next (putPort p { x with state := .lineEnded } s))
    ∧ (x.state = .idle → ch ≠ 10 → ch ≠ 13 → x.overlong = false → x.line.length < 200 →
        exec (.portCharacter p ch) s =
          .next (putPort p { x with line := x.line ++ [ch] } s))
    ∧ (x.state = .idle → ch ≠ 10 → ch ≠ 13 → (x.overlong = true ∨ 200 ≤ x.line.length) →
        exec (.portCharacter p ch) s =
          .next (putPort p { x with overlong := true } s))
    ∧ (x.state = .idle → exec (.lineTimeout p) s = .next (putPort p { x with line := [], overlong := false } s))
    ∧ (x.state ≠ .idle → exec (.lineTimeout p) s = .next s)
    ∧ (x.state = .replying →
        exec (.replySent p) s = .next (putPort p { x with state := .idle, line := [], overlong := false } s))
    ∧ (x.state ≠ .replying → exec (.replySent p) s = .next s)

/-- R170. SELECT copies the entry into the holding record and answers table, index and captured edition; an index outside the table is refused RANGE. The tables have the sizes of R169. That POWER, WATER, SALE and PASSAGE answer NONE for the edition is log 8. -/
def Obligations.SelectCopiesTheEntry : Prop :=
  ∀ (o : Origin) (table : TableName) (index : Nat) (s : State), Ready (.select o table index) o s →
    ((entryAt s table index).isSome = decide (index < entriesOf s table))
    ∧ (entryAt s table index = none →
        exec (.select o table index) s = .next (reply o.port o.suffix [.refused .range] s))
    ∧ ∀ e, entryAt s table index = some e →
        exec (.select o table index) s = .next (reply o.port o.suffix
          [.done [.val (.word (tableWord table)), .val (.num index),
                  .val (match e.edition? with | none => .absent | some n => .num n.toNat)]]
          (putPort o.port
              { s.port o.port with cursor := { table := table, index := index }, holding := some e } s))

/-- R171. PUT on an EMPTY holding record or a read-only table is refused STATE; a PUT that passes changes the holding record alone. Each of the four clamped fields takes the nearer bound and the reply says CLAMPED. The field names used are log 7. -/
def Obligations.PutChangesTheHoldingRecordAlone : Prop :=
  ∀ (o : Origin) (field value : String) (s : State), Ready (.put o field value) o s →
    let x := s.port o.port
    (x.holding = none → exec (.put o field value) s = .next (reply o.port o.suffix [.refused .state] s))
    ∧ (∀ e, x.holding = some e → e.readOnly = true →
        exec (.put o field value) s = .next (reply o.port o.suffix [.refused .state] s))
    ∧ (∀ r n, x.holding = some (.site r) → field = "poll_interval" → natField value = some n →
        let m := if n < 30 then 30 else if 500 < n then 500 else n
        exec (.put o field value) s = .next (reply o.port o.suffix
          [.done (.val (.num m) :: if m = n then [] else [.val (.word "CLAMPED")])]
          (putPort o.port
              { x with holding := some (.site { r with val := { r.val with pollInterval := m } }) } s)))
    ∧ (∀ g n, x.holding = some (.gate g) → field = "release_time" → natField value = some n →
        let m := if n < 1 then 1 else if 30 < n then 30 else n
        exec (.put o field value) s = .next (reply o.port o.suffix
          [.done (.val (.num m) :: if m = n then [] else [.val (.word "CLAMPED")])]
          (putPort o.port
              { x with holding := some (.gate { g with cfg := { g.cfg with release := m } }) } s)))
    ∧ (∀ r n (m : Fin 16), x.holding = some (.level r) → field = "level" → natField value = some n → m.val = min n 15 →
        exec (.put o field value) s = .next (reply o.port o.suffix
          [.done (.val (.num m.val) :: if m.val = n then [] else [.val (.word "CLAMPED")])]
          (putPort o.port { x with holding := some (.level { r with val := m }) } s)))
    ∧ (∀ r n, x.holding = some (.port r) → field = "threshold" → natField value = some n →
        let m := if n < 1 then 1 else if 15 < n then 15 else n
        exec (.put o field value) s = .next (reply o.port o.suffix
          [.done (.val (.num m) :: if m = n then [] else [.val (.word "CLAMPED")])]
          (putPort o.port { x with holding := some (.port { r with val := m }) } s)))
    ∧ (∀ r n, x.holding = some (.rate r) → field = "rate" → natField value = some n →
        if n ≤ 1000000 then
          exec (.put o field value) s = .next (reply o.port o.suffix [.done [.val (.num n)]]
            (putPort o.port { x with holding := some (.rate { r with val := n }) } s))
        else exec (.put o field value) s = .next (reply o.port o.suffix [.refused .range] s))
    ∧ ∃ t, exec (.put o field value) s = .next t
        ∧ t = (putPort o.port
                  { x with state := .replying, line := [], overlong := false, suffix := o.suffix
                           holding := (t.port o.port).holding, reply := (t.port o.port).reply } s)

/-- R172, and the owners' rules: R43, R62 (SITE), R4 (CLASS), R26 (RATE), R24 (HOURBAND), R41, R42 (BERTH), R77, R78 (PEDESTAL), R96 (FEEDER), R122 (PUMP), R123 (TANK), R148 (FORMAT), R154 (ACCESS), R155, R161 (GATE), R175 (LEVEL, PORT), R150, R151 (CRED), R3 (ACCOUNT). The checks of STORE common to every table, then those of the owner in their order, and what it writes; an edition advances where a counted field changes (log 5). The checks of SITE at every STORE are log 11, a gate's exit mark log 18; that the STORE which installs a segment's first pedestal makes no poll due is log 26. -/
def Obligations.StoreChecksTheEditionThenWrites : Prop :=
  ∀ (o : Origin) (s : State), Ready (.store o) o s →
    let x := s.port o.port
    (x.holding = none ∨ entryAt s x.cursor.table x.cursor.index = none →
        exec (.store o) s = .next (reply o.port o.suffix [.refused .state] s))
    ∧ (∀ e now, x.holding = some e → entryAt s x.cursor.table x.cursor.index = some now →
        (e.readOnly = true → exec (.store o) s = .next (reply o.port o.suffix [.refused .state] s))
        ∧ (e.readOnly = false → isConfigurationTable x.cursor.table = true → s.save ≠ none →
            exec (.store o) s = .next (reply o.port o.suffix [.refused .busy] s))
        ∧ (e.readOnly = false → (isConfigurationTable x.cursor.table = false ∨ s.save = none) →
            e.edition? ≠ now.edition? →
            exec (.store o) s = .next (reply o.port o.suffix [.refused .stale] s)))
    ∧ (∀ (i : Fin 96) (r : Row Nat), x.cursor = { table := .rate, index := i.val } → x.holding = some (.rate r) →
        s.save = none → r.edition = (s.rates.get i).edition → r.val ≤ 1000000 →
        let old := s.rates.get i
        let new : Row Nat := { val := r.val, edition := if r.val = old.val then old.edition else old.edition + 1 }
        let j := if i.val = 95 then 0 else i.val + 1
        let t : State := { s with rates := s.rates.put i new }
        exec (.store o) s = .next (reply o.port o.suffix
          [.done [.val (.num i.val), .val (.num new.edition.toNat)]]
          (putPort o.port
              { x with cursor := { table := .rate, index := j }, holding := entryAt t .rate j } t)))
    ∧ let held := fun (table : TableName) (i : Nat) (e : Entry) =>
        x.cursor = { table := table, index := i } ∧ x.holding = some e ∧ (isConfigurationTable table = true → s.save = none)
      let refuses := fun r => exec (.store o) s = .next (reply o.port o.suffix [.refused r] s)
      let stores := fun (table : TableName) (i count : Nat) (e : Edition) (t : State) =>
        exec (.store o) s = .next (storeDone o table i count e t)
      let next := fun (same : Bool) (e : Edition) => if same then e else e + 1
      -- SITE
      (∀ r : Row SiteCfg, held .site 0 (.site r) → r.edition = s.site.edition →
        let c := r.val
        let ranged := c.rolloverHour ≤ 23 ∧ c.clearance ≤ 300 ∧ -200 ≤ c.leastWater ∧ c.leastWater ≤ 500 ∧ c.graceDays ≤ 7
          ∧ 30 ≤ c.pollInterval ∧ c.pollInterval ≤ 500
        let day := if c.rolloverHour * 3600 ≤ s.clock.time then s.clock.date else s.clock.date - 1
        let back := s.clockSet = true ∧ ∃ last, s.lastRollover = some last ∧ day < last
        let e := next (c = s.site.val) s.site.edition
        (¬ ranged → refuses .range) ∧ (ranged → s.rollover ≠ none → refuses .busy)
        ∧ (ranged → s.rollover = none → back → refuses .range)
        ∧ (ranged → s.rollover = none → ¬ back →
            ∃ t, stores .site 0 1 e t ∧ RolloverTested { s with site := { val := c, edition := e } } t))
      -- CLASS
      ∧ (∀ (i : ClassId) (r : Row ClassCfg), held .cls i.val (.cls r) → r.edition = (s.classes.get i).edition →
        let old := s.classes.get i
        let c := r.val
        let ranged := -9999999 ≤ c.floor ∧ c.floor ≤ 0 ∧ c.grace ≤ 30 ∧ c.waterCap ≤ 50000
        let e := next (c = old.val) old.edition
        let u : State := { s with classes := s.classes.put i { val := c, edition := e } }
        (¬ ranged → refuses .range) ∧ (ranged → c.floor = old.val.floor → stores .cls i.val 4 e u)
        ∧ (ranged → c.floor ≠ old.val.floor →
            ∃ t, stores .cls i.val 4 e t
              ∧ t = { u with
                      accounts := t.accounts, pedestals := t.pedestals, power := t.power, water := t.water
                      feeders := t.feeders, grantCount := t.grantCount, ports := t.ports, heldNotices := t.heldNotices }
              ∧ ∀ a, let y := s.account a
                let new := if y.cls = i ∧ y.state ≠ .free then standingOf y.barredFlag y.balance c.floor else y.standing
                t.account a =
                  { y with
                    standing := new, arrearsNights := arrearsNightsAfter y.standing new y.arrearsNights
                    power := (t.account a).power, water := (t.account a).water, edition := (t.account a).edition }))
      -- RATE, HOURBAND, LEVEL, PORT
      ∧ (∀ (i : Fin 96) (r : Row Nat), held .rate i.val (.rate r) → r.edition = (s.rates.get i).edition →
          1000000 < r.val → refuses .range)
      ∧ (∀ (i : Fin 24) (r : Row Band), held .hourband i.val (.hourband r) → r.edition = (s.bands.get i).edition →
        let e := next (r.val = (s.bands.get i).val) r.edition
        stores .hourband i.val 24 e { s with bands := s.bands.put i { val := r.val, edition := e } })
      ∧ (∀ (i : Fin 28) (r : Row (Fin 16)), held .level i.val (.level r) → r.edition = (s.levels.get i).edition →
        let e := next (r.val = (s.levels.get i).val) r.edition
        stores .level i.val 28 e { s with levels := s.levels.put i { val := r.val, edition := e } })
      ∧ (∀ (i : Fin 3) (r : Row Nat), held .port i.val (.port r) → r.edition = (s.thresholds.get i).edition →
        let e := next (r.val = (s.thresholds.get i).val) r.edition
        1 ≤ r.val → r.val ≤ 15 →
          stores .port i.val 3 e { s with thresholds := s.thresholds.put i { val := r.val, edition := e } })
      -- BERTH
      ∧ (∀ (n : BerthId) (r : Berth), held .berth n.val (.berth r) → r.edition = (s.berth n).edition →
        let old := s.berth n
        let c := r.cfg
        let ranged := 200 ≤ c.loaMin ∧ c.loaMin ≤ c.loaMax ∧ c.loaMax ≤ 12000 ∧ 100 ≤ c.beamMax ∧ c.beamMax ≤ 3000
          ∧ c.depth ≤ 2000 ∧ (r.state = .free ∨ r.state = .outOfService ∨ r.state = old.state)
        let taken := (old.state = .reserved ∨ old.state = .occupied) ∧ (r.state ≠ old.state ∨ c ≠ old.cfg)
        let absent := (∃ k, c.socket = some k ∧ old.cfg.socket ≠ some k ∧ socketPresent s k = false)
          ∨ ∃ k, c.tap = some k ∧ old.cfg.tap ≠ some k ∧ tapPresent s k = false
        let shared := ∃ k m, c.socket = some k ∧ old.cfg.socket ≠ some k ∧ m ≠ n ∧ (s.berth m).cfg.socket = some k
        let crowded := ∃ k i j, c.tap = some k ∧ old.cfg.tap ≠ some k ∧ i ≠ n ∧ j ≠ n ∧ i ≠ j
          ∧ (s.berth i).cfg.tap = some k ∧ (s.berth j).cfg.tap = some k
        let y : Berth := { old with state := r.state, cfg := c }
        let e := next (y = old) old.edition
        (¬ ranged → refuses .range) ∧ (ranged → taken → refuses .inUse) ∧ (ranged → ¬ taken → absent → refuses .range)
        ∧ (ranged → ¬ taken → ¬ absent → shared → refuses .duplicate)
        ∧ (ranged → ¬ taken → ¬ absent → ¬ shared → crowded → refuses .full)
        ∧ (ranged → ¬ taken → ¬ absent → ¬ shared → ¬ crowded →
            stores .berth n.val 512 e { s with berths := s.berths.put n { y with edition := e } }))
      -- PEDESTAL
      ∧ (∀ (n : PedestalId) (r : Pedestal), held .pedestal n.val (.pedestal r) → r.edition = (s.pedestal n).edition →
        let old := s.pedestal n
        let c := r.cfg
        let same : Bool := c.installed = old.cfg.installed && c.segment = old.cfg.segment && c.address = old.cfg.address
          && c.kind = old.cfg.kind
        let other := fun d : PedestalCfg => ∃ m, m ≠ n ∧ (s.pedestal m).cfg = d ∧ d.installed = true
        let split := c.installed = true ∧ ∃ d, other d ∧ d.feeder = c.feeder ∧ d.segment ≠ c.segment
        let doubled := c.installed = true ∧ ∃ d, other d ∧ d.segment = c.segment ∧ d.address = c.address
        let serves := (∃ i, s.power.get (socketAt n i) ≠ none
            ∧ (same = false ∨ c.feeder ≠ old.cfg.feeder ∨ c.ratings.get i ≠ old.cfg.ratings.get i))
          ∨ s.water.get n ≠ none ∧ same = false
        let named := (∃ m i, (s.berth m).cfg.socket = some (socketAt n i)
            ∧ (c.installed = false ∨ c.kind.hasSocket i = false))
          ∨ ∃ m, (s.berth m).cfg.tap = some n ∧ (c.installed = false ∨ c.kind.hasTap = false)
        let fresh : Bool := c.installed && !same
        let y : Pedestal :=
          { old with
            cfg := c
            strayEnergy := if r.strayEnergy = 0 then 0 else old.strayEnergy
            strayWater := if r.strayWater = 0 then 0 else old.strayWater
            link := if fresh then .unknown else if old.cfg.installed && !c.installed then .absent else old.link
            misses := if fresh then 0 else old.misses
            tag := if fresh then none else old.tag
            tagIdentity := if fresh then c.identity else old.tagIdentity
            reported := if fresh then Table.build fun _ => { relay := false, limit := .l63, trip := false, current := 0 }
              else old.reported
            reportedValve := !fresh && old.reportedValve
            lastOutcome := if fresh then none else old.lastOutcome }
        let e := next (c = old.cfg && y.strayEnergy = old.strayEnergy && y.strayWater = old.strayWater) old.edition
        (split → refuses .range) ∧ (¬ split → doubled → refuses .duplicate)
        ∧ (¬ split → ¬ doubled → (serves ∨ named) → refuses .inUse)
        ∧ (¬ split → ¬ doubled → ¬ serves → ¬ named →
            ∃ t, stores .pedestal n.val 256 e t
              ∧ t = { s with pedestals := s.pedestals.put n { y with edition := e }, segments := t.segments }
              ∧ ∀ g, ((∃ at_, old.cfg.installed = true ∧ same = false
                    ∧ (s.segment g).outstanding = some { pedestal := n, sentAt := at_ }) →
                  t.segment g = { s.segment g with outstanding := none })
                ∧ ((old.cfg.installed = false ∨ same = true
                    ∨ ∀ at_, (s.segment g).outstanding ≠ some { pedestal := n, sentAt := at_ }) →
                  t.segment g = s.segment g)))
      -- FEEDER
      ∧ (∀ (f : FeederId) (r : Feeder), held .feeder f.val (.feeder r) → r.edition = (s.feeder f).edition →
        let old := s.feeder f
        let c := r.cfg
        let ranged := c.rating ≤ 1000 ∧ 100 ≤ c.diversity ∧ c.diversity ≤ 300
        let cap := c.rating * c.diversity / 100
        let rises := old.cfg.rating * old.cfg.diversity / 100 < cap
        let e := next (c = old.cfg) old.edition
        let u : State := { s with feeders := s.feeders.put f { old with cfg := c, edition := e } }
        (¬ ranged → refuses .range) ∧ (ranged → cap < old.heldSum → refuses .inUse)
        ∧ (ranged → old.heldSum ≤ cap → (¬ rises ∨ old.waitList = [] ∨ old.relief ≠ none) → stores .feeder f.val 16 e u)
        ∧ ∀ k rest y, ranged → old.heldSum ≤ cap → rises → old.relief = none → old.waitList = k :: rest →
            s.power.get k = some y → y.state = .waiting → y.held = 0 → (s.pedestal (pedestalOf k)).cfg.feeder = f →
            let eff := min y.wish.amps (min ((s.pedestal (pedestalOf k)).cfg.ratings.get (positionOf k)).amps
              (s.classOf (s.account y.account)).maxRating.amps)
            ∃ t e, stores .feeder f.val 16 e t ∧ (t.feeder f).edition = e ∧ OnlySessions u t
              ∧ (old.heldSum + eff ≤ cap → ∃ z, t.power.get k = some z
                  ∧ z.state = .switching ∧ z.granted = eff ∧ z.held = eff ∧ z.account = y.account))
      -- PUMP, TANK
      ∧ (∀ (n : PumpId) (r : Pump), held .pump n.val (.pump r) → r.edition = (s.pump n).edition →
        let old := s.pump n
        let c := r.cfg
        let serves := old.sale ≠ none ∧ (c.installed ≠ old.cfg.installed ∨ c.product ≠ old.cfg.product)
        let joins : Bool := c.installed && !old.cfg.installed
        let leaves : Bool := old.cfg.installed && !c.installed
        let e := next (c = old.cfg) old.edition
        let y : Pump :=
          { old with
            cfg := c, online := old.online && !joins && !leaves, misses := if joins then 3 else old.misses
            order := if joins then .cancel else old.order, readings := if joins then none else old.readings
            lastOutcome := if joins then none else old.lastOutcome, edition := e }
        (200000 < c.maxPerSale → refuses .range) ∧ (c.maxPerSale ≤ 200000 → serves → refuses .inUse)
        ∧ (c.maxPerSale ≤ 200000 → ¬ serves → stores .pump n.val 4 e
            { s with
              pumps := s.pumps.put n y
              pumpLine := { s.pumpLine with
                outstanding :=
                  if leaves ∧ s.pumpLine.outstanding = some n then none else s.pumpLine.outstanding } }))
      ∧ (∀ (i : ProductId) (r : Tank), held .tank i.val (.tank r) → r.edition = (s.tank i).edition →
        let old := s.tank i
        let c := r.cfg
        let ranged := c.capacity ≤ 10000000 ∧ c.reserve ≤ c.capacity ∧ c.low ≤ c.capacity
        let t := tankWritten i { old with cfg := c } s
        (¬ ranged → refuses .range) ∧ (ranged → c.capacity < old.book → refuses .inUse)
        ∧ (ranged → old.book ≤ c.capacity → stores .tank i.val 2 (t.tank i).edition t))
      -- FORMAT, ACCESS
      ∧ (∀ (i : Fin 8) (r : Row FormatCfg), held .format i.val (.format r) → r.edition = (s.formats.get i).edition →
        let c := r.val
        let checked := fun p : Parity => p.present = true → p.bit < c.length ∧ 1 ≤ p.length ∧ p.start + p.length ≤ c.length
          ∧ (p.bit < p.start ∨ p.start + p.length ≤ p.bit)
        let ranged := 26 ≤ c.length ∧ c.length ≤ 64 ∧ c.siteLen ≤ 16 ∧ 1 ≤ c.idLen ∧ c.idLen ≤ 32
          ∧ (c.siteLen = 0 ∨ c.sitePos + c.siteLen ≤ c.length) ∧ c.idPos + c.idLen ≤ c.length
          ∧ checked (c.parity.get 0) ∧ checked (c.parity.get 1)
        let doubled := c.enabled = true
          ∧ ∃ j, j ≠ i ∧ (s.formats.get j).val.enabled = true ∧ (s.formats.get j).val.length = c.length
        let e := next (c = (s.formats.get i).val) r.edition
        (¬ ranged → refuses .range) ∧ (ranged → doubled → refuses .duplicate)
        ∧ (ranged → ¬ doubled →
            stores .format i.val 8 e { s with formats := s.formats.put i { val := c, edition := e } }))
      ∧ (∀ (i : Fin 256) (r : Row AccessCfg), held .access i.val (.access r) → r.edition = (s.access.get i).edition →
        let ranged := r.val.startHour ≤ 23 ∧ r.val.endHour ≤ 23
        let e := next (r.val = (s.access.get i).val) r.edition
        (¬ ranged → refuses .range)
        ∧ (ranged → stores .access i.val 256 e { s with access := s.access.put i { val := r.val, edition := e } }))
      -- GATE
      ∧ (∀ (g : GateId) (r : Gate), held .gate g.val (.gate r) → r.edition = (s.gate g).edition →
        1 ≤ r.cfg.release → r.cfg.release ≤ 30 →
        let old := s.gate g
        let c := r.cfg
        let ranged := (c.kind = .shore ↔ g = 0) ∧ (c.passback = true → c.kind = .shore)
        let drops : Bool := c.mode = .outOfService && !(g = 0 && old.byExit)
        let released : Bool := (s.device = .setup && g = 0) || c.mode = .heldOpen || (!drops && old.expiry.isSome)
        let e := next (c = old.cfg) old.edition
        (¬ ranged → refuses .range)
        ∧ (ranged → c.mode = old.cfg.mode → stores .gate g.val 20 e
            { s with gates := s.gates.put g { old with cfg := c, edition := e } })
        ∧ (ranged → c.mode ≠ old.cfg.mode → stores .gate g.val 20 e
            { s with gates := s.gates.put g
                      { old with
                        cfg := c, released := released, expiry := if drops then none else old.expiry
                        byExit := old.byExit && !drops, edition := e } }))
      -- CRED
      ∧ (∀ (c : CredId) (r : Credential), held .cred c.val (.cred r) → r.edition = (s.cred c).edition →
        let old := s.cred c
        let listed := fun (y : Credential) (a : AccountId) => decide (y.state = .active ∧ y.kind = .vessel ∧ y.account = some a)
        let ranged := r.key.site ≤ 65535 ∧ r.key.id ≤ 4294967295 ∧ (r.kind = .vessel ↔ r.account ≠ none)
        let unknown := ∃ a, listed r a = true ∧ (s.account a).state = .free
        let shared := r.state = .active ∧ ∃ d, d ≠ c ∧ (s.cred d).state = .active ∧ (s.cred d).key = r.key
        let full := ∃ a, listed r a = true ∧ listed old a = false ∧ 4 ≤ (s.account a).credentials.length
        let leaves : Bool := r.state = .free
        let y : Credential :=
          { old with
            state := r.state, key := r.key, kind := r.kind, account := r.account, accessClass := r.accessClass
            inside := old.inside && !leaves && !decide (r.state = .active ∧ old.state ≠ .active)
            lastGate := if leaves then none else old.lastGate, lastTime := if leaves then none else old.lastTime }
        let e := next (y = old) old.edition
        (¬ ranged → refuses .range) ∧ (ranged → unknown → refuses .state)
        ∧ (ranged → ¬ unknown → shared → refuses .duplicate)
        ∧ (ranged → ¬ unknown → ¬ shared → full → refuses .full)
        ∧ (ranged → ¬ unknown → ¬ shared → ¬ full →
            ∃ t, stores .cred c.val 1024 e t
              ∧ t = { s with creds := s.creds.put c { y with edition := e }, accounts := t.accounts }
              ∧ ∀ a, let was := (s.account a).credentials
                let kept := if listed old a && !listed r a then was.filter fun d => decide (d ≠ c) else was
                let is := if listed r a && !kept.contains c then kept ++ [c] else kept
                t.account a = { s.account a with credentials := is, edition := next (is = was) (s.account a).edition }))
      -- ACCOUNT
      ∧ ∀ (a : AccountId) (r : Account), held .account a.val (.account r) → r.edition = (s.account a).edition →
        let old := s.account a
        let letters := r.name.toList
        let ranged := 1 ≤ letters.length ∧ letters.length ≤ 16 ∧ (∀ ch ∈ letters, 32 ≤ ch.toNat ∧ ch.toNat ≤ 126)
          ∧ 200 ≤ r.loa ∧ r.loa ≤ 12000 ∧ 100 ≤ r.beam ∧ r.beam ≤ 3000 ∧ 50 ≤ r.draft ∧ r.draft ≤ 1200
          ∧ ∀ d, r.planned = some d → 0 ≤ d ∧ d ≤ 36524
        let berthed := (old.state = .reserved ∨ old.state = .berthed)
          ∧ (r.loa ≠ old.loa ∨ r.beam ≠ old.beam ∨ r.draft ≠ old.draft)
        let y : Account :=
          { old with name := r.name, cls := r.cls, loa := r.loa, beam := r.beam, draft := r.draft, planned := r.planned }
        let new := standingOf old.barredFlag old.balance (s.classes.get r.cls).val.floor
        let moves := r.cls ≠ old.cls ∧ old.state ≠ .free ∧ new ≠ old.standing
        let e := next (y = old) old.edition
        (¬ ranged → refuses .range) ∧ (ranged → berthed → refuses .inUse)
        ∧ (ranged → ¬ berthed → ¬ moves →
            stores .account a.val 512 e { s with accounts := s.accounts.put a { y with edition := e } })
        ∧ (ranged → ¬ berthed → moves →
            ∃ t e, stores .account a.val 512 e t ∧ (t.account a).edition = e
              ∧ OnlySessions
                  { s with accounts := s.accounts.put a
                            { y with
                              standing := new
                              arrearsNights := arrearsNightsAfter old.standing new old.arrearsNights } } t)

/-- R173. READ answers the copy as the holding record shows it and moves the cursor to the next entry, wrapping to 0; an EMPTY holding record is answered EMPTY. The names and compound values of the pairs are log 7 and log 8, the cap of a changed FEEDER record is log 38. -/
def Obligations.ReadAnswersTheCopyAndMovesOn : Prop :=
  ∀ (o : Origin) (s : State), Ready (.read o) o s →
    let x := s.port o.port
    (x.holding = none → exec (.read o) s = .next (reply o.port o.suffix [.done [.val (.word "EMPTY")]] s))
    ∧ ∀ e, x.holding = some e →
        let next := if x.cursor.index + 1 < entriesOf s x.cursor.table then x.cursor.index + 1 else 0
        exec (.read o) s = .next (reply o.port o.suffix
          [.done ([.val (.word (tableWord x.cursor.table)), .val (.num x.cursor.index),
                   .val (match e.edition? with | none => .absent | some n => .num n.toNat)]
                  ++ e.shown.map fun f => .pair f.1 f.2)]
          (putPort o.port
              { x with cursor := { table := x.cursor.table, index := next }
                       holding := entryAt s x.cursor.table next } s))

/-- R174. LIST answers one MORE line for each item, then DONE with their number, and changes nothing but its port. That no slot number stands in a line is log 9, the pairs of WAIT log 7. -/
def Obligations.ListAnswersEveryItem : Prop :=
  ∀ (o : Origin) (what : ListName) (s : State), Ready (.list o what) o s →
    ∃ t, exec (.list o what) s = .next t
      ∧ t = (putPort o.port
                { s.port o.port with
                  state := .replying, line := [], overlong := false, suffix := o.suffix
                  reply := (t.port o.port).reply } s)
      ∧ match what with
        | .sale => (t.port o.port).reply =
            s.saleLog.map (fun x => .more (shownItems x.shown)) ++ [.done [.val (.num s.saleLog.length)]]
        | .passage => (t.port o.port).reply =
            s.passages.map (fun x => .more (shownItems x.shown)) ++ [.done [.val (.num s.passages.length)]]
        | .power => (t.port o.port).reply =
            (s.power.toList.filterMap id).map (fun x => .more (shownItems x.shown))
              ++ [.done [.val (.num (s.power.toList.filterMap id).length)]]
        | .water => (t.port o.port).reply =
            (s.water.toList.filterMap id).map (fun x => .more (shownItems x.shown))
              ++ [.done [.val (.num (s.water.toList.filterMap id).length)]]
        | .wait f =>
          if h : f < 16 then
            (t.port o.port).reply.length = (s.feeder ⟨f, h⟩).waitList.length + 1
              ∧ (t.port o.port).reply.getLast? = some (.done [.val (.num (s.feeder ⟨f, h⟩).waitList.length)])
              ∧ ∀ (i : Nat) (k : SocketId) (x : PowerSession), (s.feeder ⟨f, h⟩).waitList[i]? = some k →
                  s.power.get k = some x →
                  (t.port o.port).reply[i]? = some (.more
                    [ .pair "socket" (.num k.val), .pair "account" (.num x.account.val)
                    , .pair "wish" (.num x.wish.amps)
                    , .pair "holds_amps" (.word (if x.held = 0 then "NO" else "YES")) ])
          else (t.port o.port).reply = [.refused .range]

/-- R177. NEXT removes the oldest notice and answers its fields; ATTN falls when the queue becomes empty. An empty queue is answered EMPTY. The fault flag of a POWER_ENDED is not among the eleven values (log 32). -/
def Obligations.NextTakesTheOldestNotice : Prop :=
  ∀ (o : Origin) (s : State), Ready (.next o) o s →
    let x := s.port o.port
    (x.queue = [] → exec (.next o) s = .next (reply o.port o.suffix [.done [.val (.word "EMPTY")]] s))
    ∧ ∀ n rest, x.queue = n :: rest →
        exec (.next o) s = .next (reply o.port o.suffix [.done n.items]
          (putPort o.port
              { x with queue := rest, attn := decide (rest ≠ []) } s))

/-- R178. STATUS answers its values in their order and changes nothing but its port. -/
def Obligations.StatusReportsAndChangesNothing : Prop :=
  ∀ (o : Origin) (s : State), Ready (.status o) o s →
    exec (.status o) s = .next (reply o.port o.suffix
      [.done (
        [ .val (.word (match s.device with
            | .setup => "SETUP" | .opened => "OPEN" | .holdover => "HOLDOVER" | .loading => "LOADING"))
        , .val (.date s.clock.date), .val (.time s.clock.time)
        , .val (.word (if s.clockSet then "YES" else "NO")), .val (.date (rolloverDate s))
        , .val (match s.lastRollover with | none => .absent | some d => .date d) ]
        ++ (match s.rollover with
            | none => [.val .absent]
            | some r => [.val (.date r.date), .val (.num r.cursor)])
        ++ [ .val (.word (if s.rolloverPending then "YES" else "NO"))
           , .val (.word (if s.save = none then "NO" else "YES"))
           , .val (.word (if s.mainsOk then "OK" else "LOST"))
           , .val (.num (s.port o.port).queue.length) ]
        ++ (if (s.port o.port).queue.any (fun n => n.gap) then [.val (.word "GAP")] else [])
        ++ [ .val (.num (s.accounts.toList.filter fun x => x.state ≠ .free).length)
           , .val (.num (s.power.toList.filterMap id).length), .val (.num (s.water.toList.filterMap id).length)
           , .val (.num (openSales s).length) ])] s)

/-! ### Notices (09) -/

/-- R175, R176. Outside LOADING a notice raised is queued, clear of a gap, at each port whose threshold is at or below its class's level while the queue holds fewer than 32; at a full queue it is discarded and the newest notice is marked. In LOADING it is held and no queue changes. -/
def Obligations.NoticeReachesEachPortAtItsLevel : Prop :=
  ∀ (cls : NoticeClass) (info : NoticeInfo) (s : State) (i : Fin 3),
    let n : Notice := { cls := cls, raised := s.clock, info := info, gap := false }
    let x := s.ports.get i
    let y := (raise cls info s).ports.get i
    (s.device = .loading → raise cls info s = { s with heldNotices := s.heldNotices ++ [n] })
    ∧ (s.device ≠ .loading → (s.levels.get cls.ix).val.val < (s.thresholds.get i).val → y = x)
    ∧ (s.device ≠ .loading → (s.thresholds.get i).val ≤ (s.levels.get cls.ix).val.val → x.queue.length < 32 →
        y = { x with queue := x.queue ++ [n], attn := true })
    ∧ (s.device ≠ .loading → (s.thresholds.get i).val ≤ (s.levels.get cls.ix).val.val → 32 ≤ x.queue.length →
        ∃ older newest, x.queue = older ++ [newest] ∧ y = { x with queue := older ++ [{ newest with gap := true }] })
    ∧ raise cls info s = { s with ports := (raise cls info s).ports, heldNotices := (raise cls info s).heldNotices }

/-- R176. Every step keeps the law of every notice queue: at most 32 notices, ATTN high exactly while it holds one; in LOADING every queue is empty and ATTN is low. Each line assembler holds at most 200 characters (R164), each reader's queue 64 bits (R147), the sale log 64 records (R142) and the passage log 128 (R162). -/
def Obligations.EveryStepKeepsTheQueueLaw : Prop :=
  (∀ s t : State, QueuesOk s → LoadingQuiet s → step s = .next t → QueuesOk t ∧ LoadingQuiet t)
  ∧ ∀ s t : State, step s = .next t →
    (LinesOk s → LinesOk t) ∧ (ReadersOk s → ReadersOk t) ∧ (LogsOk s → LogsOk t)

/-! ### Vessel accounts (01) -/

/-- R13. The account given, when it is FREE, or the lowest-numbered FREE account becomes OPEN with its money, standing, dates, list and links cleared; name, class, dimensions and planned departure stay. Nothing else changes. -/
def Obligations.OpenAccountClearsTheAccount : Prop :=
  ∀ (o : Origin) (n : Option Nat) (s : State), Ready (.openAccount o n) o s →
    (∀ a : AccountId,
      (n = some a.val ∧ (s.account a).state = .free
        ∨ n = none ∧ (s.account a).state = .free ∧ ∀ i : AccountId, i < a → (s.account i).state ≠ .free) →
      let x := s.account a
      exec (.openAccount o n) s = .next (reply o.port o.suffix [.done [.val (.num a.val)]]
        { s with accounts := s.accounts.put a
                  { state := .opened, name := x.name, cls := x.cls, loa := x.loa, beam := x.beam, draft := x.draft
                    berth := none, arrival := none, planned := x.planned, lastCharged := none, nights := 0
                    lastStepped := none, balance := 0, holds := 0, standing := .good, barredFlag := false
                    arrearsNights := 0, clamped := false, residues := Table.build fun _ => 0, credentials := []
                    power := none, water := none, sale := none, edition := x.edition + 1 } }))
    ∧ (∀ a : AccountId, n = some a.val → (s.account a).state ≠ .free →
        exec (.openAccount o n) s = .next (reply o.port o.suffix [.refused .state] s))
    ∧ (∀ k, n = some k → 512 ≤ k →
        exec (.openAccount o n) s = .next (reply o.port o.suffix [.refused .range] s))
    ∧ (n = none → (∀ a : AccountId, (s.account a).state ≠ .free) →
        exec (.openAccount o n) s = .next (reply o.port o.suffix [.refused .full] s))

/-- R14. The four checks in their order; when they pass, every credential of the account's list is REVOKED with its inside flag cleared, and the account becomes FREE with its list empty, residues 0, flags and arrears nights cleared and standing GOOD. Nothing else changes. -/
def Obligations.CloseAccountFreesTheAccount : Prop :=
  ∀ (o : Origin) (a : AccountId) (s : State), Ready (.closeAccount o a.val) o s →
    let x := s.account a
    (x.state ≠ .opened →
      exec (.closeAccount o a.val) s = .next (reply o.port o.suffix [.refused .state] s))
    ∧ (x.state = .opened → (x.balance ≠ 0 ∨ x.holds ≠ 0) →
        exec (.closeAccount o a.val) s = .next (reply o.port o.suffix [.refused .unsettled] s))
    ∧ (x.state = .opened → x.balance = 0 → x.holds = 0 → (x.power ≠ none ∨ x.water ≠ none) →
        exec (.closeAccount o a.val) s = .next (reply o.port o.suffix [.refused .inUse] s))
    ∧ (x.state = .opened → x.balance = 0 → x.holds = 0 → x.power = none → x.water = none → x.sale ≠ none →
        exec (.closeAccount o a.val) s = .next (reply o.port o.suffix [.refused .saleOpen] s))
    ∧ (x.state = .opened → x.balance = 0 → x.holds = 0 → x.power = none → x.water = none → x.sale = none →
        ∃ creds : Table Credential 1024,
          (∀ c, c ∉ x.credentials → creds.get c = s.cred c)
          ∧ (∀ c, c ∈ x.credentials →
              creds.get c = { s.cred c with state := .revoked, inside := false, edition := (creds.get c).edition })
          ∧ exec (.closeAccount o a.val) s =
              .next (reply o.port o.suffix [.done [.val (.num x.credentials.length)]]
                { s with
                  creds := creds
                  accounts := s.accounts.put a
                    { x with state := .free, residues := Table.build fun _ => 0, barredFlag := false, clamped := false
                             arrearsNights := 0, standing := .good, credentials := []
                             edition := x.edition + 1 } }))

/-- R15, R9, R10, R110, R118. An amount outside 1 to 99,999,999 is refused RANGE, one that would carry the balance above the limit is refused LIMIT. Otherwise balance up and clamped flag clear, and the standing evaluated: where it changes, STANDING_CHANGED is raised and the sessions are asked what R10 asks of them, so a power session SUSPENDED for ARREARS resumes when the account becomes GOOD. Beyond that nothing changes; where the standing stays, nothing else at all. The place of STANDING_CHANGED before the notices of the sessions is log 14. -/
def Obligations.CreditRaisesTheBalance : Prop :=
  ∀ (o : Origin) (a : AccountId) (amount : Nat) (s : State), Ready (.credit o a.val amount) o s →
    (s.account a).state ≠ .free →
    let x := s.account a
    let standing := standingOf x.barredFlag (x.balance + amount) (s.classOf x).floor
    ((amount = 0 ∨ 99999999 < amount) →
      exec (.credit o a.val amount) s = .next (reply o.port o.suffix [.refused .range] s))
    ∧ (1 ≤ amount → amount ≤ 99999999 → 99999999 < x.balance + amount →
        exec (.credit o a.val amount) s = .next (reply o.port o.suffix [.refused .limit] s))
    ∧ (1 ≤ amount → amount ≤ 99999999 → x.balance + amount ≤ 99999999 →
        ∃ t, exec (.credit o a.val amount) s =
            .next (reply o.port o.suffix [.done [.val (.num (x.balance + amount))]] t)
          ∧ StandingSettled a
              { s with accounts := s.accounts.put a
                        { x with balance := x.balance + amount, clamped := false, edition := x.edition + 1 } } t
          ∧ OnlySessions
              { s with accounts := s.accounts.put a
                        { x with balance := x.balance + amount, clamped := false, standing := standing
                                 arrearsNights := arrearsNightsAfter x.standing standing x.arrearsNights } } t
          ∧ (standing = x.standing →
              t = { s with accounts := s.accounts.put a
                            { x with balance := x.balance + amount, clamped := false, edition := x.edition + 1 } }))

/-- R16, R6, R9, R10. An amount outside 1 to 9,999,999 is refused RANGE. Otherwise the balance is lowered, or clamped at −99,999,999 with the flag set, BALANCE_CLAMPED raised and CLAMPED answered; no residue changes; the standing is evaluated, with STANDING_CHANGED and what R10 asks of the sessions, and nothing else changes. The order of the notices is log 14. -/
def Obligations.DebitLowersOrClampsTheBalance : Prop :=
  ∀ (o : Origin) (a : AccountId) (amount : Nat) (s : State), Ready (.debit o a.val amount) o s →
    (s.account a).state ≠ .free →
    let x := s.account a
    let clamps : Bool := x.balance - amount < -99999999
    let balance := if clamps then -99999999 else x.balance - amount
    let standing := standingOf x.barredFlag balance (s.classOf x).floor
    let y : Account := { x with balance := balance, clamped := x.clamped || clamps }
    ((amount = 0 ∨ 9999999 < amount) →
      exec (.debit o a.val amount) s = .next (reply o.port o.suffix [.refused .range] s))
    ∧ (1 ≤ amount → amount ≤ 9999999 →
        ∃ t, exec (.debit o a.val amount) s = .next (reply o.port o.suffix
            [.done (.val (.num balance) :: if clamps then [.val (.word "CLAMPED")] else [])] t)
          ∧ Charged a x amount s t
          ∧ OnlySessions
              { s with accounts := s.accounts.put a
                        { y with standing := standing
                                 arrearsNights := arrearsNightsAfter x.standing standing x.arrearsNights } } t
          ∧ (standing = x.standing → clamps = false →
              t = { s with accounts := s.accounts.put a { y with edition := x.edition + 1 } })
          ∧ (standing = x.standing → clamps = true → (x.balance ≠ -99999999 ∨ x.clamped = false) →
              t = raise .balanceClamped
                    { account := some a, value := some (amount - x.balance - 99999999) }
                    { s with accounts := s.accounts.put a { y with edition := x.edition + 1 } }))

/-- R17. BAR of an account whose flag is set leaves it as it was. Otherwise the flag is set and the standing becomes BARRED; a power session is SUSPENDED with cause BARRED unless it is TRIPPED or CLOSING, and an OPENING or FLOWING water session is SUSPENDED; balance, holds, arrears nights and state stay. -/
def Obligations.BarSuspendsTheSessions : Prop :=
  ∀ (o : Origin) (a : AccountId) (s : State), Ready (.bar o a.val) o s → (s.account a).state ≠ .free →
    let x := s.account a
    (x.barredFlag = true → exec (.bar o a.val) s = .next (reply o.port o.suffix [.done []] s))
    ∧ (x.barredFlag = false → x.standing ≠ .barred →
        ∃ t, exec (.bar o a.val) s = .next (reply o.port o.suffix [.done []] t)
          ∧ OnlySessions
              { s with accounts := s.accounts.put a { x with barredFlag := true, standing := .barred } } t
          ∧ (∀ k y, x.power = some k → s.power.get k = some y →
              (y.state = .tripped ∨ y.state = .closing → t.power.get k = some y)
              ∧ (y.state ≠ .tripped → y.state ≠ .closing → ∃ z, t.power.get k = some z
                  ∧ z.state = .suspended ∧ z.cause = some .barred ∧ z.held = y.held ∧ z.account = y.account))
          ∧ (∀ k y, x.water = some k → s.water.get k = some y →
              ((y.state = .suspended ∨ y.state = .closing) → t.water.get k = some y)
              ∧ ((y.state = .opening ∨ y.state = .flowing) →
                  t.water.get k = some { y with state := .suspended, confirmMisses := 0 }))
          ∧ (x.power = none → x.water = none →
              t = raise .standingChanged
                    { account := some a, value := some x.balance, reason := some (.standing .barred) }
                    { s with accounts := s.accounts.put a
                              { x with barredFlag := true, standing := .barred, edition := x.edition + 1 } }))

/-- R18, with R10, R98 to R101, R108, R110 and R118. UNBAR of an account whose flag is clear leaves it as it was. Otherwise the flag is cleared and the standing becomes GOOD or ARREARS by R9. A SUSPENDED water session resumes as OPENING, or at or above its class's cap as CLOSING for CAP. A SUSPENDED power session resumes where the standing is GOOD, or where its cause is BARRED and the arrears nights are below the class grace; with amps held it becomes SWITCHING at its granted rating; with none it enters admission with its own wish: a grant at the effective wish, else at 32 where that was 63, else the tail of the list with POWER_WAITING, else it ends FULL. One suspended for BARRED at or past the grace stays SUSPENDED with cause ARREARS. The order of the notices is log 14, the fault flag in POWER_ENDED log 32; that fields no rule names keep their values is log 21. -/
def Obligations.UnbarEvaluatesTheStanding : Prop :=
  ∀ (o : Origin) (a : AccountId) (s : State), Ready (.unbar o a.val) o s → (s.account a).state ≠ .free →
    let x := s.account a
    let standing : Standing := if x.balance < (s.classOf x).floor then .arrears else .good
    let nights := if standing = .good then 0 else x.arrearsNights
    let told := raise .standingChanged
      { account := some a, value := some x.balance, reason := some (.standing standing) } s
    (x.barredFlag = false → exec (.unbar o a.val) s = .next (reply o.port o.suffix [.done []] s))
    ∧ (x.barredFlag = true → x.standing = .barred →
        ∃ t, exec (.unbar o a.val) s = .next (reply o.port o.suffix
            [.done [.val (.word (match standing with | .good => "GOOD" | .arrears => "ARREARS" | .barred => "BARRED"))]] t)
          ∧ OnlySessions
              { s with accounts := s.accounts.put a
                        { x with barredFlag := false, standing := standing, arrearsNights := nights } } t
          ∧ (∀ k y, x.water = some k → s.water.get k = some y → y.state = .suspended → y.account = a →
              t.water.get k = some (if (s.classOf x).waterCap = 0 ∨ y.volume < (s.classOf x).waterCap
                then { y with state := .opening, confirmMisses := 0 }
                else { y with state := .closing, closeReason := some .cap, confirmMisses := 0 }))
          ∧ (∀ k y, x.power = some k → s.power.get k = some y → y.state = .suspended → y.cause = some .barred →
              standing = .arrears → (s.classOf x).grace ≤ x.arrearsNights →
              t.power.get k = some { y with cause := some .arrears } ∧ SameNotices t told)
          ∧ (∀ k y, x.power = some k → s.power.get k = some y → y.state = .suspended →
              (standing = .good ∨ y.cause = some .barred ∧ x.arrearsNights < (s.classOf x).grace) →
              (y.held ≠ 0 →
                t.power.get k = some { y with state := .switching, cause := none, confirmMisses := 0 }
                ∧ t.grantCount = s.grantCount ∧ SameNotices t told)
              ∧ (y.held = 0 → y.account = a →
                let p := s.pedestal (pedestalOf k)
                let f := s.feeder p.cfg.feeder
                let eff := min y.wish.amps (min (p.cfg.ratings.get (positionOf k)).amps (s.classOf x).maxRating.amps)
                let cap := f.cfg.rating * f.cfg.diversity / 100
                let free := f.waitList = [] ∧ f.relief = none
                let noRoom := ¬ free ∨ cap < f.heldSum + eff ∧ (eff ≠ 63 ∨ cap < f.heldSum + 32)
                let resumed : PowerSession := { y with cause := none, fallback32 := decide (eff = 63), confirmMisses := 0 }
                (∀ amps, free →
                  (f.heldSum + eff ≤ cap ∧ amps = eff
                    ∨ cap < f.heldSum + eff ∧ eff = 63 ∧ f.heldSum + 32 ≤ cap ∧ amps = 32) →
                  t.power = s.power.put k (some
                      { resumed with
                        state := .switching, granted := amps, held := amps, shed := false
                        grantStamp := min (s.grantCount + 1) 4294967295 })
                  ∧ t.grantCount = min (s.grantCount + 1) 4294967295
                  ∧ t.feeders = s.feeders.put p.cfg.feeder
                      { f with heldSum := f.heldSum + amps, edition := f.edition + 1 }
                  ∧ (t.pedestal (pedestalOf k)).desired = p.desired.put (positionOf k)
                      { relay := true, clearTrip := (p.desired.get (positionOf k)).clearTrip
                        limit := if p.cfg.ratings.get (positionOf k) = .a63 ∧ amps = 32 then .l32 else .l63 }
                  ∧ SameNotices t told)
                ∧ (noRoom → f.waitList.length < 64 →
                  t.power = s.power.put k (some { resumed with state := .waiting })
                  ∧ t.feeders = s.feeders.put p.cfg.feeder
                      { f with waitList := f.waitList ++ [k], edition := f.edition + 1 }
                  ∧ t.grantCount = s.grantCount
                  ∧ SameNotices t (raise .powerWaiting
                      { account := some a, outlet := some (.socket k)
                        value := some ((f.waitList.length + 1 : Nat) : Int) } told))
                ∧ (noRoom → 64 ≤ f.waitList.length →
                  t.power.get k = none ∧ (t.account a).power = none
                  ∧ SameNotices t (raise .powerEnded
                      { account := some a, outlet := some (.socket k), value := some y.energy
                        reason := some (.powerEnd .full), fault := y.fault } told)))))

/-- R5, R8, and the saturations of R57 and R70. Every step keeps every account's balance within ±99,999,999 cents, its residues below a cent and its counts of nights below their limits. -/
def Obligations.EveryStepKeepsMoneyWithinLimits : Prop :=
  ∀ s t : State, MoneyOk s → step s = .next t → MoneyOk t

/-- R9. Where no class floor is above 0 (R4), every step keeps the standing of every account that is not FREE the one that its barred flag, balance and class floor give, and keeps the floors so. -/
def Obligations.EveryStepKeepsStandingsEvaluated : Prop :=
  ∀ s t : State, StandingsOk s → FloorsOk s → step s = .next t → StandingsOk t ∧ FloorsOk t

/-! ### Tariff arithmetic (02) -/

/-- R21, and the marker of R22. The value of every code; no two codes carry the same quantity; the largest is 134,184,960; a quantity of 0 gives a charge of 0 cents that leaves the residue as it was. -/
def Obligations.PackedQuantityIsUnpackedByItsExponent : Prop :=
  (∀ w : Nat, w < 65536 →
    (w = 65535 → unpack w = none)
    ∧ (w ≠ 65535 → w / 4096 = 0 → unpack w = some (w % 4096))
    ∧ (w ≠ 65535 → w / 4096 = 1 → unpack w = some (4096 + w % 4096))
    ∧ (w ≠ 65535 → 2 ≤ w / 4096 → unpack w = some ((4096 + w % 4096) * 2 ^ (w / 4096 - 1))))
  ∧ (∀ v w q : Nat, v < 65536 → w < 65536 → unpack v = some q → unpack w = some q → v = w)
  ∧ (∀ w q : Nat, w < 65536 → unpack w = some q → q ≤ 134184960)
  ∧ unpack 65534 = some 134184960
  ∧ ∀ rho r : Nat, rho < 10000 → chargeOf rho 0 r = (0, rho)

/-- R27, R6, R9, R10, with the index of R26 and the band 0 of an unset clock (R24). A charge takes the rate at class × 24 + service × 4 + band, adds the product to the residue, lowers or clamps the balance by the whole cents, with BALANCE_CLAMPED at a clamp, and keeps the rest; then the standing is evaluated, with STANDING_CHANGED and what R10 asks of the sessions, and nothing else changes. The order of the notices is log 14. -/
def Obligations.ChargeAppliesWholeCentsAndKeepsTheRest : Prop :=
  (∀ (s : State) (time : Nat), bandAt s time = if s.clockSet then (s.bands.get (hourOf time)).val else 0)
  ∧ ∀ (s : State) (a : AccountId) (v : Service) (q : Nat) (d : Band) (i : Fin 96),
    (s.account a).state ≠ .free → i.val = (s.account a).cls.val * 24 + (serviceIx v).val * 4 + d.val →
    let x := s.account a
    let total := x.residues.get (serviceIx v) + q * (s.rates.get i).val
    let cents := total / 10000
    let clamps : Bool := x.balance - cents < -99999999
    let balance := if clamps then -99999999 else x.balance - cents
    let standing := standingOf x.barredFlag balance (s.classOf x).floor
    accountCharge s a v q d = (cents, total % 10000)
    ∧ Charged a { x with residues := x.residues.put (serviceIx v) (total % 10000) } cents s (charge s a v q d s)
    ∧ OnlySessions
        { s with accounts := s.accounts.put a
                  { x with residues := x.residues.put (serviceIx v) (total % 10000), balance := balance
                           clamped := x.clamped || clamps, standing := standing
                           arrearsNights := arrearsNightsAfter x.standing standing x.arrearsNights } }
        (charge s a v q d s)

/-- R28. Two charges of one service, each a change of its own, leave one balance and one residue in either order when neither meets the lower limit: together they take floor((ρ + a + b) / 10,000) cents. -/
def Obligations.ChargesOfOneServiceCommute : Prop :=
  ∀ (s : State) (a : AccountId) (v : Service) (q₁ q₂ : Nat) (d₁ d₂ : Band),
    (s.account a).state ≠ .free →
    let x := s.account a
    let t := charge s a v q₁ d₁ s
    let u := charge t a v q₂ d₂ t
    let t' := charge s a v q₂ d₂ s
    let u' := charge t' a v q₁ d₁ t'
    let total := x.residues.get (serviceIx v) + q₁ * rateOf s x.cls v d₁ + q₂ * rateOf s x.cls v d₂
    x.balance - (total / 10000 : Nat) ≥ -99999999 →
    (u.account a).balance = x.balance - (total / 10000 : Nat)
    ∧ (u.account a).residues = x.residues.put (serviceIx v) (total % 10000)
    ∧ (u'.account a).balance = (u.account a).balance ∧ (u'.account a).residues = (u.account a).residues
    ∧ (u'.account a).standing = (u.account a).standing

/-- R29. The parts of a night charge together cost what one computation would give, and leave its residue. -/
def Obligations.NightPartsCostOneComputation : Prop :=
  ∀ (s : State) (a : AccountId) (n : Nat) (d : Band), 1 ≤ n →
    let x := s.account a
    let total := x.residues.get (serviceIx .berthNight) + x.loa * n * rateOf s x.cls .berthNight d
    nightCharge s a n d = (total / 10000, total % 10000)

/-- R32, R33, R35, R37. At every rate above 0 money buys a volume, floor(cents × 10,000 / rate), the largest whole volume it pays for, and at rate 0 it places no limit; the money hold is the least whole number of cents that covers the limit, and never more than the money the limit was bought with; a PREPAY charge never passes the paid amount. -/
def Obligations.FuelMoneyCoversTheLimit : Prop :=
  (∀ cents r v : Nat, volumeFor cents r = some v → v * r ≤ cents * 10000 ∧ cents * 10000 < (v + 1) * r)
  ∧ (∀ cents r : Nat, r ≠ 0 → volumeFor cents r = some (cents * 10000 / r))
  ∧ (∀ cents : Nat, volumeFor cents 0 = none)
  ∧ (∀ limit r : Nat, limit * r ≤ moneyHoldFor limit r * 10000
      ∧ ∀ c : Nat, limit * r ≤ c * 10000 → moneyHoldFor limit r ≤ c)
  ∧ (∀ cents r v limit : Nat, volumeFor cents r = some v → limit ≤ v → moneyHoldFor limit r ≤ cents)
  ∧ (∀ delivered r paid : Nat, prepayCharge delivered r paid ≤ paid
      ∧ (delivered * r / 10000 ≤ paid → prepayCharge delivered r paid = delivered * r / 10000))

/-! ### Berths, reservations and arrivals (03) -/

/-- R46, R47, R49. ALLOCATE takes the first pontoon of its list that has a candidate, there the candidate with the smallest LOA maximum and of equals the lowest number, and reserves it; with no candidate it is refused NO_FIT. A date before today is refused RANGE, an account that is not OPEN STATE. Nothing but the two records changes. -/
def Obligations.AllocateReservesTheTightestFit : Prop :=
  ∀ (o : Origin) (a : AccountId) (ps : Pontoons) (arrival : DateField) (planned : Option DateField) (s : State)
    (l : List PontoonId) (day : Int) (plan : Option Int),
    let c : Instr := .allocate o a.val ps arrival planned
    Ready c o s → (ps = .any ∧ l = List.finRange 16 ∨ ps = .listed (l.map Fin.val) ∧ l.Nodup) →
    dateOf arrival = some day → optDate planned = some plan →
    let x := s.account a
    let candidate := fun (p : PontoonId) (n : BerthId) =>
      (s.berth n).cfg.pontoon = p ∧ (s.berth n).state = .free ∧ Fits s x (s.berth n).cfg
    (day < s.clock.date → exec c s = .next (reply o.port o.suffix [.refused .range] s))
    ∧ (s.clock.date ≤ day → x.state ≠ .opened → exec c s = .next (reply o.port o.suffix [.refused .state] s))
    ∧ (s.clock.date ≤ day → x.state = .opened → (∀ p ∈ l, ∀ n, ¬ candidate p n) →
        exec c s = .next (reply o.port o.suffix [.refused .noFit] s))
    ∧ (∀ (before after : List PontoonId) (p : PontoonId) (n : BerthId),
        s.clock.date ≤ day → x.state = .opened → l = before ++ p :: after → (∀ p' ∈ before, ∀ m, ¬ candidate p' m) →
        candidate p n →
        (∀ m, candidate p m → (s.berth n).cfg.loaMax < (s.berth m).cfg.loaMax
          ∨ (s.berth n).cfg.loaMax = (s.berth m).cfg.loaMax ∧ n ≤ m) →
        exec c s = .next (reply o.port o.suffix [.done [.val (.num n.val)]] (reserved s a n day plan)))

/-- R48, R49. The checks of RESERVE in their order, the fit waived by FORCE alone, and its effect on the two records. -/
def Obligations.ReserveTakesTheNamedBerth : Prop :=
  ∀ (o : Origin) (a : AccountId) (n : BerthId) (arrival : DateField) (planned : Option DateField) (force : Bool)
    (s : State) (day : Int) (plan : Option Int),
    let c : Instr := .reserve o a.val n.val arrival planned force
    Ready c o s → dateOf arrival = some day → optDate planned = some plan →
    let x := s.account a
    (day < s.clock.date → exec c s = .next (reply o.port o.suffix [.refused .range] s))
    ∧ (s.clock.date ≤ day → x.state ≠ .opened → exec c s = .next (reply o.port o.suffix [.refused .state] s))
    ∧ (s.clock.date ≤ day → x.state = .opened → (s.berth n).state ≠ .free →
        exec c s = .next (reply o.port o.suffix [.refused .state] s))
    ∧ (s.clock.date ≤ day → x.state = .opened → (s.berth n).state = .free → force = false →
        ¬ Fits s x (s.berth n).cfg → exec c s = .next (reply o.port o.suffix [.refused .noFit] s))
    ∧ (s.clock.date ≤ day → x.state = .opened → (s.berth n).state = .free →
        (force = true ∨ Fits s x (s.berth n).cfg) →
        exec c s = .next (reply o.port o.suffix [.done [.val (.num n.val)]] (reserved s a n day plan)))

/-- R50. CANCEL of an account that is not RESERVED is refused STATE; otherwise berth and account are released, the planned departure kept, both editions advanced, and nothing else changes. -/
def Obligations.CancelReleasesTheBerth : Prop :=
  ∀ (o : Origin) (a : AccountId) (n : BerthId) (s : State), Ready (.cancel o a.val) o s →
    let x := s.account a
    (x.state ≠ .reserved → exec (.cancel o a.val) s = .next (reply o.port o.suffix [.refused .state] s))
    ∧ (x.state = .reserved → x.berth = some n → (s.berth n).state = .reserved →
        exec (.cancel o a.val) s = .next (reply o.port o.suffix [.done [.val (.num n.val)]]
          { s with
            berths := s.berths.put n
              { s.berth n with state := .free, holder := none, edition := (s.berth n).edition + 1 }
            accounts := s.accounts.put a
              { x with state := .opened, berth := none, arrival := none, edition := x.edition + 1 } }))

/-- R51, R52. The checks of ARRIVE by the account's state, and its effect: berth OCCUPIED, account BERTHED with today as arrival date, the current rollover date as last-charged date and no nights; ARRIVED is raised and nothing else changes. -/
def Obligations.ArriveBerthsTheAccount : Prop :=
  ∀ (o : Origin) (a : AccountId) (n : BerthId) (given : Option BerthId) (planned : Option DateField) (force : Bool)
    (s : State) (plan : Option Int),
    let c : Instr := .arrive o a.val (given.map Fin.val) planned force
    Ready c o s → optDate planned = some plan →
    let x := s.account a
    ((x.state = .free ∨ x.state = .berthed) → exec c s = .next (reply o.port o.suffix [.refused .state] s))
    ∧ (x.state = .reserved → x.berth = some n → given ≠ none → given ≠ some n →
        exec c s = .next (reply o.port o.suffix [.refused .state] s))
    ∧ (x.state = .opened → given = none → exec c s = .next (reply o.port o.suffix [.refused .state] s))
    ∧ (x.state = .opened → given = some n → (s.berth n).state ≠ .free →
        exec c s = .next (reply o.port o.suffix [.refused .state] s))
    ∧ (x.state = .opened → given = some n → (s.berth n).state = .free → force = false →
        ¬ Fits s x (s.berth n).cfg → exec c s = .next (reply o.port o.suffix [.refused .noFit] s))
    ∧ ((x.state = .reserved ∧ x.berth = some n ∧ (given = none ∨ given = some n) ∧ (s.berth n).state = .reserved
          ∨ x.state = .opened ∧ given = some n ∧ (s.berth n).state = .free
            ∧ (force = true ∨ Fits s x (s.berth n).cfg)) →
        exec c s = .next (reply o.port o.suffix [.done [.val (.num n.val)]]
          (raise .arrived { account := some a, berth := some n }
            { s with
              berths := s.berths.put n
                { s.berth n with state := .occupied, holder := some a, edition := (s.berth n).edition + 1 }
              accounts := s.accounts.put a
                { x with state := .berthed, berth := some n, arrival := some s.clock.date
                         lastCharged := some (if s.site.val.rolloverHour * 3600 ≤ s.clock.time then s.clock.date
                                              else s.clock.date - 1)
                         nights := 0, planned := if plan.isSome then plan else x.planned
                         edition := x.edition + 1 } })))

/-- R54, R55. The checks of MOVE in their order, and its effect on the account and the two berths, each edition once; the stay's dates and nights stay. -/
def Obligations.MoveKeepsTheStay : Prop :=
  ∀ (o : Origin) (a : AccountId) (n m : BerthId) (force : Bool) (s : State),
    let c : Instr := .move o a.val m.val force
    Ready c o s →
    let x := s.account a
    (x.state ≠ .berthed → exec c s = .next (reply o.port o.suffix [.refused .state] s))
    ∧ (x.state = .berthed → x.berth = some n → (s.berth m).state ≠ .free →
        exec c s = .next (reply o.port o.suffix [.refused .state] s))
    ∧ (x.state = .berthed → x.berth = some n → (s.berth m).state = .free → (x.power ≠ none ∨ x.water ≠ none) →
        exec c s = .next (reply o.port o.suffix [.refused .inUse] s))
    ∧ (x.state = .berthed → x.berth = some n → (s.berth m).state = .free → x.power = none → x.water = none →
        force = false → ¬ Fits s x (s.berth m).cfg → exec c s = .next (reply o.port o.suffix [.refused .noFit] s))
    ∧ (x.state = .berthed → x.berth = some n → (s.berth n).state = .occupied → (s.berth m).state = .free →
        x.power = none → x.water = none → (force = true ∨ Fits s x (s.berth m).cfg) →
        exec c s = .next (reply o.port o.suffix [.done [.val (.num m.val)]]
          { s with
            berths := (s.berths.put n
                { s.berth n with state := .free, holder := none, edition := (s.berth n).edition + 1 }).put m
                { s.berth m with state := .occupied, holder := some a, edition := (s.berth m).edition + 1 }
            accounts := s.accounts.put a { x with berth := some m, edition := x.edition + 1 } }))

/-- R56 to R59. DEPART is refused STATE or SALE_OPEN; otherwise it hands in the nights owed, or a short stay when none was ever charged, closes the sessions, revokes the credentials where the class says so, frees the berth and returns the account to OPEN. What the statement does not name is unchanged, but for what the Service Manager does and the notices raised. -/
def Obligations.DepartSettlesTheStayAndFreesTheBerth : Prop :=
  ∀ (o : Origin) (a : AccountId) (n : BerthId) (s : State), Ready (.depart o a.val) o s →
    let c : Instr := .depart o a.val
    let x := s.account a
    (x.state ≠ .berthed → exec c s = .next (reply o.port o.suffix [.refused .state] s))
    ∧ (x.state = .berthed → x.berth = some n → x.sale ≠ none →
        exec c s = .next (reply o.port o.suffix [.refused .saleOpen] s))
    ∧ ∀ last : Int, x.state = .berthed → x.berth = some n → x.sale = none → x.lastCharged = some last →
        x.standing = standingOf x.barredFlag x.balance (s.classOf x).floor → (s.berth n).state = .occupied →
        let nights := (rolloverDate s - last).toNat
        let nightTotal := x.residues.get (serviceIx .berthNight)
          + x.loa * nights * rateOf s x.cls .berthNight (bandNow s)
        let stayTotal := x.residues.get (serviceIx .shortStay) + x.loa * rateOf s x.cls .shortStay (bandNow s)
        let short : Bool := nights = 0 && x.nights = 0
        let cents := (if nights = 0 then 0 else nightTotal / 10000) + (if short then stayTotal / 10000 else 0)
        let revokes := (s.classOf x).revokeAtDeparture
        x.balance - (cents : Int) ≥ -99999999 →
        ∃ t, exec c s = .next (reply o.port o.suffix
              [.done [.val (.num nights), .val (.num cents),
                      .val (.num (if revokes then x.credentials.length else 0))]] t)
          ∧ t = { s with
                  accounts := t.accounts, berths := t.berths, creds := t.creds, pedestals := t.pedestals
                  power := t.power, water := t.water, feeders := t.feeders, grantCount := t.grantCount
                  ports := t.ports, heldNotices := t.heldNotices }
          ∧ t.account a =
              { x with state := .opened, berth := none, arrival := none, lastCharged := none, nights := 0
                       balance := x.balance - cents
                       residues := if short then x.residues.put (serviceIx .shortStay) (stayTotal % 10000)
                         else if nights = 0 then x.residues
                         else x.residues.put (serviceIx .berthNight) (nightTotal % 10000)
                       standing := (t.account a).standing, arrearsNights := (t.account a).arrearsNights
                       credentials := if revokes then [] else x.credentials
                       power := (t.account a).power, water := (t.account a).water, edition := (t.account a).edition }
          ∧ (t.account a).standing = standingOf x.barredFlag (x.balance - cents) (s.classOf x).floor
          ∧ (∀ i, i ≠ a → t.account i =
              { s.account i with
                power := (t.account i).power, water := (t.account i).water, edition := (t.account i).edition })
          ∧ t.berths = s.berths.put n
              { s.berth n with state := .free, holder := none, edition := (s.berth n).edition + 1 }
          ∧ (∀ i, revokes = false ∨ i ∉ x.credentials → t.cred i = s.cred i)
          ∧ (∀ i, revokes = true → i ∈ x.credentials →
              (t.cred i).state = .revoked ∧ (t.cred i).inside = false ∧ (t.cred i).key = (s.cred i).key)
          ∧ (∀ k y, x.power = some k → s.power.get k = some y → y.account = a →
              ((y.state = .switching ∨ y.state = .live ∨ y.state = .restoring) → t.power.get k =
                some { y with state := .closing, closeReason := some .departed, confirmMisses := 0 })
              ∧ ((y.state = .waiting ∨ y.state = .suspended ∨ y.state = .tripped) →
                  t.power.get k = none ∧ (t.account a).power = none)
              ∧ (y.state = .closing → t.power.get k = some y))
          ∧ (∀ k y, x.water = some k → s.water.get k = some y → y.account = a →
              ((y.state = .opening ∨ y.state = .flowing) → t.water.get k =
                some { y with state := .closing, closeReason := some .departed, confirmMisses := 0 })
              ∧ (y.state = .suspended → t.water.get k = none ∧ (t.account a).water = none)
              ∧ (y.state = .closing → t.water.get k = some y))

/-- R40, R150, with the account's side of R2. Every step keeps berths and accounts linked: a berth is RESERVED or OCCUPIED exactly while an account holds it, and holder and account name each other. For its own sake, every step keeps the credentials' law: no two ACTIVE ones share a key, and an account lists exactly its ACTIVE VESSEL credentials, once each, at most four. -/
def Obligations.EveryStepKeepsBerthsAndAccountsLinked : Prop :=
  (∀ s t : State, BerthsLinked s → step s = .next t → BerthsLinked t)
  ∧ ∀ s t : State, CredentialsOk s → step s = .next t → CredentialsOk t
/-! ### Site clock and nightly rollover (04) -/

/-- R61, R65. One second: the time of day advances, past 86,399 it returns to 0 with the next date, and at 2099-12-31 23:59:59 the clock stops; then the rollover's start is tested. That a second at the stopped clock makes that test too is the model's choice (log 10). Nothing else changes. -/
def Obligations.ClockAdvanceTestsTheRollover : Prop :=
  ∀ (s : State) (now : Stamp), s.stopped = false →
    (s.clock.time < 86399 ∧ now = { s.clock with time := s.clock.time + 1 }
      ∨ 86399 ≤ s.clock.time ∧ s.clock.date < 36524 ∧ now = { date := s.clock.date + 1, time := 0 }
      ∨ 86399 ≤ s.clock.time ∧ 36524 ≤ s.clock.date ∧ now = s.clock) →
    ∃ t, exec .clockAdvance s = .next t ∧ RolloverTested { s with clock := now } t

/-- R63, R64. The checks of SETCLOCK in their order; when they pass the clock is set with its flag, an absent last completed rollover date becomes the new current rollover date, and a due rollover starts or is pending. -/
def Obligations.SetClockSetsTheClock : Prop :=
  ∀ (o : Origin) (date : DateField) (time : TimeField) (s : State), Ready (.setClock o date time) o s →
    ((dateOf date = none ∨ secondOf time = none) →
      exec (.setClock o date time) s = .next (reply o.port o.suffix [.refused .range] s))
    ∧ ∀ d n, dateOf date = some d → secondOf time = some n →
        let day := if s.site.val.rolloverHour * 3600 ≤ n then d else d - 1
        (s.rollover ≠ none → exec (.setClock o date time) s = .next (reply o.port o.suffix [.refused .busy] s))
        ∧ (∀ last, s.rollover = none → s.lastRollover = some last → day < last →
            exec (.setClock o date time) s = .next (reply o.port o.suffix [.refused .range] s))
        ∧ (s.rollover = none → (∀ last, s.lastRollover = some last → last ≤ day) →
            ∃ t, exec (.setClock o date time) s = .next (reply o.port o.suffix [.done [.val (.date day)]] t)
              ∧ RolloverTested
                  { s with
                    clock := { date := d, time := n }, clockSet := true
                    lastRollover := some (s.lastRollover.getD day) } t)

/-- R66 to R71. A step passes a FREE or stamped account; otherwise it charges a BERTHED account the nights owed at the band of the rollover hour, expires an overdue reservation, counts an arrears night, stamps the account and moves the cursor. After account 511 the rollover completes and the start is tested again. A row that finds no rollover to step does nothing (log 4). -/
def Obligations.RolloverStepsEachAccountOnce : Prop :=
  ∀ (s : State) (r : Rollover), s.stopped = false → s.rollover = some r →
    (r.cursor = 512 → ∃ t, exec .rolloverComplete s = .next t
      ∧ RolloverTested
          (raise .rolloverDone { value := some r.total } { s with lastRollover := some r.date, rollover := none }) t)
    ∧ (r.cursor ≠ 512 → exec .rolloverComplete s = .next s)
    ∧ ∀ a : AccountId, r.cursor = a.val →
        let x := s.account a
        let moved : State := { s with rollover := some { r with cursor := r.cursor + 1 } }
        let nights := min (x.arrearsNights + 1) 255
        let stamped : Account := { x with lastStepped := some r.date, edition := x.edition + 1 }
        ((x.state = .free ∨ x.lastStepped = some r.date) → exec .rolloverStep s = .next moved)
        ∧ (x.state = .opened → x.lastStepped ≠ some r.date → x.standing ≠ .arrears →
            exec .rolloverStep s = .next { moved with accounts := s.accounts.put a stamped })
        ∧ (x.state = .opened → x.lastStepped ≠ some r.date → x.standing = .arrears →
            (x.power = none ∨ nights < (s.classOf x).grace) →
            exec .rolloverStep s =
              .next { moved with accounts := s.accounts.put a { stamped with arrearsNights := nights } })
        ∧ (∀ k y, x.state = .opened → x.lastStepped ≠ some r.date → x.standing = .arrears →
            (s.classOf x).grace ≤ nights → x.power = some k → s.power.get k = some y →
            ∃ t, exec .rolloverStep s = .next t
              ∧ OnlySessions
                  { moved with
                    accounts := s.accounts.put a { x with lastStepped := some r.date, arrearsNights := nights } } t
              ∧ ((y.state = .switching ∨ y.state = .live ∨ y.state = .restoring ∨ y.state = .waiting) →
                  ∃ z, t.power.get k = some z ∧ z.state = .suspended ∧ z.cause = some .arrears ∧ z.held = y.held)
              ∧ (y.state = .suspended → t.power.get k = some { y with cause := some .arrears })
              ∧ ((y.state = .tripped ∨ y.state = .closing) → t.power.get k = some y))
        ∧ (∀ n, x.state = .reserved → x.lastStepped ≠ some r.date → x.standing ≠ .arrears → x.berth = some n →
            (s.berth n).state = .reserved →
            (∀ d, x.arrival = some d → d + s.site.val.graceDays < r.date →
              exec .rolloverStep s = .next
                (raise .reservationExpired { account := some a, berth := some n }
                  { moved with
                    berths := s.berths.put n
                      { s.berth n with state := .free, holder := none, edition := (s.berth n).edition + 1 }
                    accounts := s.accounts.put a
                      { stamped with state := .opened, berth := none, arrival := none } }))
            ∧ (∀ d, x.arrival = some d → r.date ≤ d + s.site.val.graceDays →
                exec .rolloverStep s = .next { moved with accounts := s.accounts.put a stamped }))
        ∧ (∀ last, x.state = .berthed → x.lastStepped ≠ some r.date → x.lastCharged = some last → r.date ≤ last →
            x.standing ≠ .arrears →
            ((∀ d, x.planned = some d → r.date ≤ d) →
              exec .rolloverStep s = .next { moved with accounts := s.accounts.put a stamped })
            ∧ (∀ d, x.planned = some d → d < r.date →
                exec .rolloverStep s = .next
                  (raise .overstay { account := some a, berth := x.berth, value := some (r.date - d) }
                    { moved with accounts := s.accounts.put a stamped })))
        ∧ ∀ last, x.state = .berthed → x.lastStepped ≠ some r.date → x.lastCharged = some last → last < r.date →
            let n := (r.date - last).toNat
            let rate := rateOf s x.cls .berthNight (bandAt s (s.site.val.rolloverHour * 3600))
            let total := x.residues.get (serviceIx .berthNight) + x.loa * n * rate
            let cents := total / 10000
            let standing := standingOf x.barredFlag (x.balance - (cents : Int)) (s.classOf x).floor
            let arrears := arrearsNightsAfter x.standing standing x.arrearsNights
            x.balance - (cents : Int) ≥ -99999999 →
            ∃ t, exec .rolloverStep s = .next t
              ∧ OnlySessions
                  { s with
                    rollover := some { r with cursor := r.cursor + 1, total := r.total + cents }
                    accounts := s.accounts.put a
                      { x with balance := x.balance - cents
                               residues := x.residues.put (serviceIx .berthNight) (total % 10000)
                               standing := standing
                               arrearsNights := if standing = .arrears then min (arrears + 1) 255 else arrears
                               lastCharged := some r.date, nights := min (x.nights + n) 9999
                               lastStepped := some r.date } } t

/-! ### Pontoon bus (05) -/

/-- R74, R75, R76, R83. A poll falls due and is sent only in SETUP and OPEN, on a segment with an installed pedestal, to the lowest address above the round position, else the lowest; the frame carries address, acknowledgement and desired outputs in the order of the kind and sums to 0; a due poll that the line does not let go is a miss of LINE_BUSY and moves the round on. The due mark and the frame kept are log 26 and log 23; a row without its precondition does nothing (log 4). -/
def Obligations.EachPollGoesToTheNextPedestal : Prop :=
  ∀ (g : SegmentId) (s : State), s.stopped = false →
    let x := s.segment g
    let polls := s.device = .setup ∨ s.device = .opened
    (polls → (∃ n, onSegment s g n) → exec (.pollDue g) s = .next (putSegment g { x with due := true } s))
    ∧ ((¬ polls ∨ ∀ n, ¬ onSegment s g n) → exec (.pollDue g) s = .next s)
    ∧ ((¬ polls ∨ x.due = false ∨ x.outstanding ≠ none) → exec (.pollSend g) s = .next s)
    ∧ (∀ n, polls → x.due = true → x.outstanding = none → NextPolled s g n →
        let p := s.pedestal n
        let head := natToBits 6 p.cfg.address.val
          ++ (match p.tag with | none => [false, false, false] | some t => true :: natToBits 2 t.val)
        let socket := fun i : Fin 2 =>
          [ (p.desired.get i).relay, decide (p.cfg.ratings.get i = .a63 ∧ (p.desired.get i).limit = .l32)
          , (p.desired.get i).clearTrip ]
        ∃ a b c, exec (.pollSend g) s = .next (putSegment g
              { position := some p.cfg.address, due := false, outstanding := some { pedestal := n, sentAt := s.clock }
                unpacker := emptyUnpacker, sent := [a, b, c] } s)
          ∧ a + b + c = 0
          ∧ byteBits a ++ byteBits b = match p.cfg.kind with
            | .twin => head ++ socket 0 ++ socket 1 ++ [p.desiredValve]
            | .single => head ++ socket 0 ++ [p.desiredValve] ++ List.replicate 3 false
            | .power2 => head ++ socket 0 ++ socket 1 ++ [false]
            | .tap => head ++ [p.desiredValve] ++ List.replicate 6 false)
    ∧ ((¬ polls ∨ x.due = false) → exec (.lineBusy g) s = .next s)
    ∧ (∀ n, polls → x.due = true → NextPolled s g n →
        ∃ t, exec (.lineBusy g) s = .next t
          ∧ Missed n .lineBusy
              (putSegment g { x with position := some (s.pedestal n).cfg.address, due := false } s) t)

/-- R80, R81, R82. The bytes of a poll's reply are unpacked as they arrive, the first 16 of them. A whole reply of the pedestal, of any kind, tag, states and quantities, whose bytes sum to 0 is judged VALID, and every field reads back as sent; the same bytes with another sum are judged CHECK, fewer SHORT, more LONG, and a first byte that is not the pedestal's address and kind makes the outcome KIND. A byte that no poll waits for is ignored (log 4). -/
def Obligations.AReplyReadsBackAsItWasSent : Prop :=
  (∀ (g : SegmentId) (byte : Byte) (poll : Poll) (s : State), s.stopped = false →
    (s.segment g).outstanding = some poll → (s.segment g).unpacker.byteCount < 16 →
    exec (.pedestalReplyByte g byte) s = .next (putSegment g
      { s.segment g with unpacker := (s.segment g).unpacker.take (s.pedestal poll.pedestal).cfg byte } s))
  ∧ (∀ (g : SegmentId) (byte : Byte) (s : State), s.stopped = false →
    ((s.segment g).outstanding = none ∨ 16 ≤ (s.segment g).unpacker.byteCount) →
    exec (.pedestalReplyByte g byte) s = .next s)
  ∧ ∀ (c : PedestalCfg) (tag : Fin 4) (a b : SocketReport) (w : TapReport) (body : List Byte) (check : Byte),
    a.fitsBlock → b.fitsBlock → w.water < 65536 → body.flatMap byteBits = replyBits c tag a b w →
    let read := fun bytes : List Byte => bytes.foldl (Unpacker.take c) emptyUnpacker
    let u := read (body ++ [check])
    (byteSum (body ++ [check]) = 0 →
      judge c u = .valid ∧ replyTag u.fields = tag
      ∧ (c.kind ≠ .tap → socketReport u.fields 0 = a)
      ∧ (c.kind = .twin ∨ c.kind = .power2 → socketReport u.fields 1 = b)
      ∧ (c.kind ≠ .power2 → tapReport c.kind u.fields = w))
    ∧ (byteSum (body ++ [check]) ≠ 0 → judge c u = .check)
    ∧ (∀ n, n ≤ body.length → judge c (read ((body ++ [check]).take n)) = .short)
    ∧ (∀ more, more ≠ [] → judge c (read (body ++ check :: more)) = .long)
    ∧ ∀ (byte : Byte) (rest : List Byte), [byte] ≠ body.take 1 → judge c (read (byte :: rest)) = .kind

/-- R82, R83, R86, R88 to R91, R105, R111, R112, R117. A judged reply closes the poll. A reply that is not VALID, or none at all, is a miss. A VALID one leaves the pedestal ONLINE with no misses, its tag and its reported states as the reply gave them. A repeated tag charges nothing to any account; a new one adds the quantity to the session and charges it to its account, or adds it to the stray counter where there is no session; a fault marker sets the session's fault flag or adds nothing, with METER_FAULT. The currents are summed over the feeder, and the eighth report in a row above its rating steps down or sheds the most recent grant, or takes none, with FEEDER_RELIEF and a relief hold of 60 s; under the feeders' law the held sum stays. With every standing evaluated (R9) no charge moves a valve, so the other pedestals keep all but their desired sockets. For a reply of any kind with any sessions, the deliveries of R89 are stated one after the other: the quantity of each socket, its trip and its agreement, then the tap's quantity, with the cap of R117 (reached, the session is CLOSING for CAP), and its agreement, then the currents and the relief they bring. That an agreement is judged at its turn is log 12. A stray quantity above 0 advances the edition. That the reply of a TAP, which has no socket, is a current report is log 13. A row without its precondition does nothing (log 4). -/
def Obligations.AValidReplyIsAccountedOnce : Prop :=
  ∀ (g : SegmentId) (poll : Poll) (s : State), s.stopped = false → (s.segment g).outstanding = some poll →
    let n := poll.pedestal
    let p := s.pedestal n
    let u := (s.segment g).unpacker
    let f := u.fields
    let closed := putSegment g { s.segment g with outstanding := none } s
    (u.byteCount ≠ 0 → judge p.cfg u ≠ .valid →
      ∃ t, exec (.pedestalReply g) s = .next t ∧ Missed n (judge p.cfg u) closed t)
    ∧ (u.byteCount = 0 → ∃ t, exec (.noReply g) s = .next t ∧ Missed n .noReply closed t)
    ∧ (u.byteCount ≠ 0 → exec (.noReply g) s = .next s)
    ∧ (u.byteCount ≠ 0 → judge p.cfg u = .valid →
        ∃ t, exec (.pedestalReply g) s = .next t ∧ ReplyHandled n f closed t
          ∧ (t.pedestal n).misses = 0 ∧ (t.pedestal n).link = .online ∧ (t.pedestal n).lastOutcome = some .valid
          ∧ (t.pedestal n).tag = some (replyTag f) ∧ (t.pedestal n).cfg = p.cfg
          ∧ (∀ i, p.cfg.kind.hasSocket i = true → (t.pedestal n).reported.get i = (socketReport f i).reported)
          ∧ (p.cfg.kind ≠ .power2 → (t.pedestal n).reportedValve = (tapReport p.cfg.kind f).valve)
          ∧ ReplyTaken g s t
          ∧ (StandingsOk s → ∀ m, m ≠ n → t.pedestal m =
              { s.pedestal m with desired := (t.pedestal m).desired, edition := (t.pedestal m).edition })
          ∧ (p.tag = some (replyTag f) →
              (∀ a, (t.account a).balance = (s.account a).balance ∧ (t.account a).residues = (s.account a).residues)
              ∧ (t.pedestal n).strayEnergy = p.strayEnergy ∧ (t.pedestal n).strayWater = p.strayWater)
          ∧ (∀ y q, p.tag ≠ some (replyTag f) → p.cfg.kind = .tap → s.water.get n = some y → y.state = .flowing →
              (tapReport .tap f).valve = true → p.desiredValve = true → unpack (tapReport .tap f).water = some q →
              (s.account y.account).state ≠ .free →
              let x := s.account y.account
              let cap := (s.classOf x).waterCap
              let volume := min (y.volume + q) 4294967295
              let total := x.residues.get (serviceIx .water) + q * rateOf s x.cls .water (bandNow s)
              x.balance - ((total / 10000 : Nat) : Int) ≥ -99999999 →
              x.standing = standingOf x.barredFlag x.balance (s.classOf x).floor →
              t.water.get n = some (if cap = 0 ∨ volume < cap then { y with volume := volume, confirmMisses := 0 }
                else { y with volume := volume, state := .closing, closeReason := some .cap, confirmMisses := 1 })
              ∧ (t.account y.account).balance = x.balance - ((total / 10000 : Nat) : Int)
              ∧ (t.account y.account).residues = x.residues.put (serviceIx .water) (total % 10000))
          ∧ (∀ y q, p.tag ≠ some (replyTag f) → p.cfg.kind = .single → s.power.get (socketAt n 0) = some y →
              y.state = .live → y.held = y.granted → s.water.get n = none →
              (socketReport f 0).reported.trip = false →
              (socketReport f 0).reported.relay = true →
              (socketReport f 0).reported.limit = (if p.cfg.ratings.get 0 = .a63 ∧ y.granted = 32 then .l32 else .l63) →
              (s.feeder p.cfg.feeder).overload = 0 → unpack (socketReport f 0).energy = some q →
              (s.account y.account).state ≠ .free →
              let x := s.account y.account
              let total := x.residues.get (serviceIx .energy) + q * rateOf s x.cls .energy (bandNow s)
              x.balance - ((total / 10000 : Nat) : Int) ≥ -99999999 →
              x.standing = standingOf x.barredFlag x.balance (s.classOf x).floor →
              t.power.get (socketAt n 0) = some
                { y with energy := min (y.energy + q) 4294967295, confirmMisses := 0
                         lastCurrent := (socketReport f 0).reported.current }
              ∧ (t.account y.account).balance = x.balance - ((total / 10000 : Nat) : Int)
              ∧ (t.account y.account).residues = x.residues.put (serviceIx .energy) (total % 10000)))
    ∧ ((∀ i, s.power.get (socketAt n i) = none) → s.water.get n = none → ValidReply g poll s → p.link ≠ .offline →
        (s.feeder p.cfg.feeder).overload < 7 → p.tag ≠ some (replyTag f) →
        let add := fun (c : Nat) (d : Option Nat) => match d with | some q => min (c + q) 4294967295 | none => c
        let energy := fun i : Fin 2 => unpack (socketReport f i).energy
        let water := unpack (tapReport p.cfg.kind f).water
        let marked := fun (d : Option Nat) (o : Outlet) (u : State) =>
          if d = none then raise .meterFault { outlet := some o } u else u
        ∃ t, exec (.pedestalReply g) s = .next t ∧ ReplyTaken g s t ∧ t.accounts = s.accounts ∧ t.power = s.power
          ∧ t.water = s.water ∧ t.grantCount = s.grantCount
          ∧ (t.pedestal n).strayEnergy = (match p.cfg.kind with
              | .tap => p.strayEnergy
              | .single => add p.strayEnergy (energy 0)
              | .twin => add (add p.strayEnergy (energy 0)) (energy 1)
              | .power2 => add (add p.strayEnergy (energy 0)) (energy 1))
          ∧ (t.pedestal n).strayWater = (if p.cfg.kind = .power2 then p.strayWater else add p.strayWater water)
          ∧ (∀ q, p.cfg.kind = .tap → p.link = .online → water = some q →
              (t.pedestal n).edition = if q = 0 then p.edition else p.edition + 1)
          ∧ SameNotices t (match p.cfg.kind with
              | .tap => marked water (.tap n) s
              | .single => marked water (.tap n) (marked (energy 0) (.socket (socketAt n 0)) s)
              | .twin => marked water (.tap n)
                  (marked (energy 1) (.socket (socketAt n 1)) (marked (energy 0) (.socket (socketAt n 0)) s))
              | .power2 => marked (energy 1) (.socket (socketAt n 1)) (marked (energy 0) (.socket (socketAt n 0)) s)))
    ∧ (∀ y, ValidReply g poll s → p.link ≠ .offline → (s.feeder p.cfg.feeder).overload < 7 →
        p.tag ≠ some (replyTag f) → p.cfg.kind = .single → s.power.get (socketAt n 0) = some y → y.state = .tripped →
        s.water.get n = none → unpack (socketReport f 0).energy = none → unpack (tapReport .single f).water ≠ none →
        ∃ t, exec (.pedestalReply g) s = .next t ∧ ReplyTaken g s t ∧ t.accounts = s.accounts
          ∧ t.power.get (socketAt n 0) = some
              { y with fault := true, lastCurrent := (socketReport f 0).reported.current }
          ∧ (t.pedestal n).strayEnergy = p.strayEnergy
          ∧ SameNotices t
              (raise .meterFault { account := some y.account, outlet := some (.socket (socketAt n 0)) } s))
    ∧ (∀ y, ValidReply g poll s → p.link ≠ .offline → (s.feeder p.cfg.feeder).overload < 7 →
        p.tag ≠ some (replyTag f) → p.cfg.kind = .tap → (∀ i, s.power.get (socketAt n i) = none) →
        s.water.get n = some y → y.state = .flowing → (tapReport .tap f).valve = true → p.desiredValve = true →
        unpack (tapReport .tap f).water = none →
        ∃ t, exec (.pedestalReply g) s = .next t ∧ ReplyTaken g s t ∧ t.accounts = s.accounts
          ∧ t.water = s.water.put n (some { y with fault := true, confirmMisses := 0 })
          ∧ (t.pedestal n).strayWater = p.strayWater
          ∧ SameNotices t (raise .meterFault { account := some y.account, outlet := some (.tap n) } s))
    ∧ (ValidReply g poll s → p.cfg.kind = .tap → p.tag = some (replyTag f) → s.water.get n = none →
        let F := p.cfg.feeder
        let x := s.feeder F
        let sum := ((feederSockets s F).map fun k => match s.power.get k with
          | some y => if y.held = 0 then 0 else y.lastCurrent
          | none => 0).sum
        let exceeds := x.cfg.rating * 10 < sum
        ∃ (t u : State) (b : Option BerthId), exec (.pedestalReply g) s = .next t ∧ ReplyTaken g s t
          ∧ t.accounts = s.accounts ∧ t.water = s.water ∧ t.grantCount = s.grantCount ∧ BerthNames s (socketAt n 0) b
          ∧ u = (if p.link = .offline then raise .pedestalBack { berth := b, value := some n.val } s else s)
          ∧ ((¬ exceeds ∨ x.overload < 7) → t.power = s.power ∧ SameNotices t u
              ∧ t.feeders = s.feeders.put F { x with measured := sum, overload := if exceeds then x.overload + 1 else 0 })
          ∧ (exceeds → 7 ≤ x.overload →
              (t.feeder F).measured = sum ∧ (t.feeder F).overload = 0 ∧ (t.feeder F).relief = some (s.clock.plus 60)
              ∧ (FeedersOk s → (t.feeder F).heldSum = x.heldSum) ∧ (t.feeder F).cfg = x.cfg
              ∧ (x.relief ≠ some (s.clock.plus 60) → (t.feeder F).edition = x.edition + 1)
              ∧ (∀ k y, NewestLive s F (fun z => z.granted = 63) k y →
                  t.power = s.power.put k (some { y with granted := 32, stepped := true })
                  ∧ (t.feeder F).waitList = x.waitList
                  ∧ ((s.pedestal (pedestalOf k)).cfg.ratings.get (positionOf k) = .a63 →
                      ((t.pedestal (pedestalOf k)).desired.get (positionOf k)).limit = .l32)
                  ∧ SameNotices t (raise .feederRelief
                      { outlet := some (.socket k), value := some F.val, reason := some (.relief .stepDown) } u))
              ∧ (∀ k y, (∀ m z, LiveOn s F m z → z.granted ≠ 63) → NewestLive s F (fun _ => True) k y →
                  let full := 64 ≤ x.waitList.length
                  t.power = s.power.put k (some (if full
                    then { y with state := .closing, shed := true, closeReason := some .full, confirmMisses := 0 }
                    else { y with state := .waiting, shed := true, confirmMisses := 0 }))
                  ∧ (t.feeder F).waitList = (if full then x.waitList else x.waitList ++ [k])
                  ∧ ((t.pedestal (pedestalOf k)).desired.get (positionOf k)).relay = false
                  ∧ SameNotices t (raise .feederRelief
                      { outlet := some (.socket k), value := some F.val, reason := some (.relief .shed) } u))
              ∧ ((∀ m z, ¬ LiveOn s F m z) → t.power = s.power ∧ (t.feeder F).waitList = x.waitList
                  ∧ SameNotices t (raise .feederRelief
                      { value := some F.val, reason := some (.relief .nothing) } u))))

/-! ### Shore power and water (06) -/

/-- R97 to R100. The checks of REQUEST_POWER in their order; admission at the effective wish, else at 32 where that was 63, else the tail of the list with POWER_WAITING, else FULL. A grant raises the grant count and the held sum by the amps, sets the outputs, and links the account; what the equations do not name is unchanged. That the grant stamp, the last current and, before a grant, the amps of a session just made are 0 is log 33. -/
def Obligations.RequestPowerGrantsOrWaits : Prop :=
  ∀ (o : Origin) (a : AccountId) (wish : Rating) (s : State), Ready (.requestPower o a.val wish.amps) o s →
    s.device = .opened →
    let x := s.account a
    let answers := fun r => exec (.requestPower o a.val wish.amps) s = .next (reply o.port o.suffix [.refused r] s)
    (x.state ≠ .berthed → answers .state)
    ∧ ∀ n, x.state = .berthed → x.berth = some n →
      ((s.berth n).cfg.socket = none → answers .noEntry)
      ∧ ∀ k, (s.berth n).cfg.socket = some k →
        let p := s.pedestal (pedestalOf k)
        let f := s.feeder p.cfg.feeder
        let eff := min wish.amps (min (p.cfg.ratings.get (positionOf k)).amps (s.classOf x).maxRating.amps)
        let cap := f.cfg.rating * f.cfg.diversity / 100
        let passes := x.standing = .good ∧ x.power = none ∧ s.power.get k = none ∧ p.link ≠ .offline
        let free := f.waitList = [] ∧ f.relief = none
        let session : PowerSession :=
          { state := .waiting, account := a, wish := wish, fallback32 := decide (eff = 63), granted := 0, held := 0
            grantStamp := 0, lastCurrent := 0, energy := 0, start := s.clock, cause := none, shed := false
            stepped := false, confirmMisses := 0, fault := false, closeReason := none }
        (x.standing ≠ .good → answers .standing)
        ∧ (x.standing = .good → (x.power ≠ none ∨ s.power.get k ≠ none) → answers .inUse)
        ∧ (x.standing = .good → x.power = none → s.power.get k = none → p.link = .offline → answers .offline)
        ∧ (∀ amps, passes → free →
            (f.heldSum + eff ≤ cap ∧ amps = eff
              ∨ cap < f.heldSum + eff ∧ eff = 63 ∧ f.heldSum + 32 ≤ cap ∧ amps = 32) →
            ∃ t, exec (.requestPower o a.val wish.amps) s =
                .next (reply o.port o.suffix [.done [.val (.word "SWITCHING"), .val (.num amps)]] t)
              ∧ t = { s with
                      accounts := s.accounts.put a { x with power := some k, edition := x.edition + 1 }
                      power := s.power.put k (some
                        { session with
                          state := .switching, granted := amps, held := amps
                          grantStamp := min (s.grantCount + 1) 4294967295 })
                      feeders := s.feeders.put p.cfg.feeder
                        { f with heldSum := f.heldSum + amps, edition := f.edition + 1 }
                      grantCount := min (s.grantCount + 1) 4294967295
                      pedestals := s.pedestals.put (pedestalOf k)
                        { p with
                          edition := (t.pedestal (pedestalOf k)).edition
                          desired := p.desired.put (positionOf k)
                            { relay := true, clearTrip := (p.desired.get (positionOf k)).clearTrip
                              limit := if p.cfg.ratings.get (positionOf k) = .a63 ∧ amps = 32 then .l32 else .l63 } } })
        ∧ (passes → (¬ free ∨ cap < f.heldSum + eff ∧ (eff ≠ 63 ∨ cap < f.heldSum + 32)) → f.waitList.length < 64 →
            ∃ t, exec (.requestPower o a.val wish.amps) s =
                .next (reply o.port o.suffix
                  [.done [.val (.word "WAITING"), .val (.num ((f.waitList.length + 1 : Nat) : Int))]] t)
              ∧ OnlySessions s t
              ∧ t.accounts = s.accounts.put a { x with power := some k, edition := x.edition + 1 }
              ∧ t.power = s.power.put k (some session)
              ∧ t.feeders = s.feeders.put p.cfg.feeder
                  { f with waitList := f.waitList ++ [k], edition := f.edition + 1 }
              ∧ t.grantCount = s.grantCount
              ∧ t.ports = (raise .powerWaiting
                  { account := some a, outlet := some (.socket k)
                    value := some ((f.waitList.length + 1 : Nat) : Int) } s).ports)
        ∧ (passes → (¬ free ∨ cap < f.heldSum + eff ∧ (eff ≠ 63 ∨ cap < f.heldSum + 32)) → 64 ≤ f.waitList.length →
            answers .full)

/-- R102 to R107, R113. RESET_SOCKET sets clear-trip pending, ends a TRIPPED session and asks again for an account still berthed there; END_POWER closes a session whose relay may be on and ends the others at once; the expiry of a relief hold serves the list from its head. What the Service Manager does not own is unchanged. The expiry row is the passing of its time (log 4). A valid reply that repeats its tag, so that nothing is metered, is read as each state directs: an agreement confirms a switching or a release, three failures end a SWITCHING session or raise the fault of the others, a trip opens the circuit; a session WAITING with shed amps is taken under a relief hold, where its release serves no one. The fault flag in the notice is log 32; that POWER_ENDED comes before the SOCKET_FAULT of the same change is log 14. -/
def Obligations.PowerSessionsEndAndRestart : Prop :=
  (∀ (o : Origin) (k : SocketId) (s : State), Ready (.resetSocket o k.val) o s → s.device = .opened →
    let p := s.pedestal (pedestalOf k)
    let present := p.cfg.installed = true ∧ p.cfg.kind.hasSocket (positionOf k) = true
    (¬ present → exec (.resetSocket o k.val) s = .next (reply o.port o.suffix [.refused .noEntry] s))
    ∧ (∀ y, present → s.power.get k = some y → y.state ≠ .tripped →
        exec (.resetSocket o k.val) s = .next (reply o.port o.suffix [.refused .state] s))
    ∧ (present → s.power.get k = none →
        ∃ e, exec (.resetSocket o k.val) s = .next (reply o.port o.suffix [.done [.val (.word "NONE")]]
          { s with pedestals := s.pedestals.put (pedestalOf k)
                    { p with
                      edition := e
                      desired := p.desired.put (positionOf k) { p.desired.get (positionOf k) with clearTrip := true } } }))
    ∧ (∀ y, present → s.power.get k = some y → y.state = .tripped →
        let x := s.account y.account
        ∃ t items, exec (.resetSocket o k.val) s = .next (reply o.port o.suffix [.done items] t)
          ∧ OnlySessions s t ∧ ((t.pedestal (pedestalOf k)).desired.get (positionOf k)).clearTrip = true
          ∧ (x.state ≠ .berthed → t.power.get k = none ∧ (t.account y.account).power = none
              ∧ items = [.val (.word "NONE")])
          ∧ (∀ n, x.state = .berthed → x.berth = some n → (s.berth n).cfg.socket = some k → x.standing = .good →
              p.link ≠ .offline → (s.feeder p.cfg.feeder).waitList.length < 64 →
              ∃ z, t.power.get k = some z ∧ z.account = y.account ∧ z.wish = y.wish ∧ z.energy = 0 ∧ z.start = s.clock
                ∧ (z.state = .switching ∧ items = [.val (.word "SWITCHING"), .val (.num z.granted)]
                    ∨ z.state = .waiting ∧ z.held = 0))))
  ∧ (∀ (o : Origin) (a : AccountId) (s : State), Ready (.endPower o a.val) o s →
    ((s.account a).power = none → exec (.endPower o a.val) s = .next (reply o.port o.suffix [.refused .state] s))
    ∧ ∀ k y, (s.account a).power = some k → s.power.get k = some y → y.account = a →
        let offline := (s.pedestal (pedestalOf k)).link = .offline
        ((y.state = .switching ∨ y.state = .live ∨ y.state = .restoring) →
          ∃ t, exec (.endPower o a.val) s = .next (reply o.port o.suffix [.done [.val (.word "CLOSING")]] t)
            ∧ OnlySessions s t ∧ t.accounts = s.accounts
            ∧ t.power = s.power.put k
                (some { y with state := .closing, closeReason := some .finished, confirmMisses := 0 }))
        ∧ ((y.state = .waiting ∨ y.state = .suspended ∨ y.state = .tripped ∨ y.state = .closing ∧ offline) →
            ∃ t, exec (.endPower o a.val) s = .next (reply o.port o.suffix [.done [.val (.word "ENDED")]] t)
              ∧ OnlySessions s t ∧ t.power.get k = none ∧ (t.account a).power = none)
        ∧ (y.state = .closing → ¬ offline →
            exec (.endPower o a.val) s = .next (reply o.port o.suffix [.done [.val (.word "CLOSING")]] s)))
  ∧ (∀ (f : FeederId) (s : State), s.stopped = false → s.device ≠ .loading →
    let x := s.feeder f
    (x.relief = none → exec (.reliefHoldExpiry f) s = .next s)
    ∧ (x.relief ≠ none → x.waitList = [] →
        exec (.reliefHoldExpiry f) s =
          .next { s with feeders := s.feeders.put f { x with relief := none, edition := x.edition + 1 } })
    ∧ ∀ k rest y, x.relief ≠ none → x.waitList = k :: rest → s.power.get k = some y → y.state = .waiting → y.held = 0 →
        (s.pedestal (pedestalOf k)).cfg.feeder = f →
        let eff := min y.wish.amps (min ((s.pedestal (pedestalOf k)).cfg.ratings.get (positionOf k)).amps
          (s.classOf (s.account y.account)).maxRating.amps)
        let cap := x.cfg.rating * x.cfg.diversity / 100
        ∃ t, exec (.reliefHoldExpiry f) s = .next t ∧ OnlySessions s t ∧ (t.feeder f).relief = none
          ∧ (x.heldSum + eff ≤ cap → ∃ z, t.power.get k = some z
              ∧ z.state = .switching ∧ z.granted = eff ∧ z.held = eff ∧ z.account = y.account ∧ z.energy = y.energy)
          ∧ (cap < x.heldSum + eff → (eff ≠ 63 ∨ cap < x.heldSum + 32) → (t.feeder f).waitList = x.waitList
              ∧ t.power.get k = some { y with fallback32 := decide (eff = 63) }))
  ∧ ∀ (g : SegmentId) (poll : Poll) (i : Fin 2) (y : PowerSession) (s : State), RepeatReply g poll s →
    let n := poll.pedestal
    let p := s.pedestal n
    let k := socketAt n i
    let x := s.feeder p.cfg.feeder
    let r := (socketReport (s.segment g).unpacker.fields i).reported
    let agrees := SocketAgrees p i r
    p.cfg.kind.hasSocket i = true → s.power.get k = some y → (∀ j, j ≠ i → s.power.get (socketAt n j) = none) →
    s.water.get n = none → y.held ≤ x.heldSum → (y.state ≠ .waiting → k ∉ x.waitList) →
    (y.state = .waiting → y.held ≠ 0 → x.relief ≠ none) →
    ∃ t, exec (.pedestalReply g) s = .next t ∧ ReplyTaken g s t ∧ t.water = s.water
      ∧ ((t.pedestal n).desired.get i).relay = (match t.power.get k with | some z => z.state.on | none => false)
      ∧ (x.waitList = [] → (∀ m, m ≠ k → t.power.get m = s.power.get m)
          ∧ (t.feeder p.cfg.feeder).heldSum + y.held = x.heldSum + heldOf (t.power.get k))
      ∧ (let becomes := fun (z : PowerSession) (u : State) =>
          t.power.get k = some { z with lastCurrent := r.current } ∧ t.accounts = s.accounts ∧ SameNotices t u
        let ended := fun why : PowerEnd => raise .powerEnded
          { account := some y.account, outlet := some (.socket k), value := some y.energy
            reason := some (.powerEnd why), fault := y.fault } s
        let ends := fun u : State =>
          t.power.get k = none ∧ (t.account y.account).power = none ∧ SameNotices t u
            ∧ ∀ a, a ≠ y.account → t.account a = s.account a
        let faulted := fun (w : FaultWord) (u : State) => raise .socketFault
          { account := some y.account, outlet := some (.socket k), reason := some (.fault w) } u
        let missed : PowerSession := { y with confirmMisses := min (y.confirmMisses + 1) 3 }
        let third := y.confirmMisses = 2
        let releasing := y.state = .closing ∨ (y.state = .suspended ∨ y.state = .waiting) ∧ y.held ≠ 0
        ((y.state = .switching ∨ y.state = .restoring) → r.trip = false →
          (agrees → becomes { y with state := .live, held := min y.held y.granted, confirmMisses := 0 }
            (raise .powerLive
              { account := some y.account, outlet := some (.socket k), value := some y.granted } s))
          ∧ (¬ agrees → ¬ third → becomes missed s)
          ∧ (¬ agrees → third → ends (faulted .switchOn (ended .fault))))
        ∧ (y.state = .live → r.trip = false →
            (agrees → becomes { y with held := min y.held y.granted, confirmMisses := 0 } s)
            ∧ (¬ agrees → r.relay = false → becomes { y with state := .switching, confirmMisses := 1 } s)
            ∧ (¬ agrees → r.relay = true → ¬ third → becomes missed s)
            ∧ (¬ agrees → r.relay = true → third → becomes { missed with fault := true } (faulted .limit s)))
        ∧ (releasing → (r.trip = false ∨ y.held = 0) →
            (∀ why, agrees → y.state = .closing → y.closeReason = some why → ends (ended why))
            ∧ (agrees → y.state ≠ .closing → becomes { y with held := 0 } s)
            ∧ (¬ agrees → ¬ third → becomes missed s)
            ∧ (¬ agrees → third → becomes { missed with fault := true } (faulted .switchOff s)))
        ∧ ((y.state = .tripped ∨ (y.state = .suspended ∨ y.state = .waiting) ∧ y.held = 0) → becomes y s)
        ∧ (r.trip = true → (y.state = .switching ∨ y.state = .live ∨ y.state = .restoring) →
            ∃ b, BerthNames s k b ∧ becomes { y with state := .tripped, held := 0, confirmMisses := 0 }
              (raise .socketTripped
                { account := some y.account, berth := b, outlet := some (.socket k), value := some y.energy } s))
        ∧ (∀ why, r.trip = true → y.state = .closing → y.held ≠ 0 → y.closeReason = some why → ends (ended why))
        ∧ (r.trip = true → (y.state = .suspended ∨ y.state = .waiting) → y.held ≠ 0 → becomes { y with held := 0 } s))

/-- R115, R116, R118. The checks of REQUEST_WATER in their order, the session it opens and the valve; END_WATER closes an OPENING or FLOWING session and ends a SUSPENDED one, or a CLOSING one whose pedestal is OFFLINE. Nothing else changes. A valid reply that repeats its tag, so that nothing is metered, confirms the valve: an agreement lets an OPENING session flow and ends a CLOSING one, a failure is counted, and the third ends an OPENING session or sets the fault flag of the others, with SOCKET_FAULT. That WATER_ENDED comes before the SOCKET_FAULT of the same change is log 14. -/
def Obligations.WaterIsRequestedAndEnded : Prop :=
  (∀ (o : Origin) (a : AccountId) (s : State), Ready (.requestWater o a.val) o s → s.device = .opened →
    let x := s.account a
    let answers := fun r => exec (.requestWater o a.val) s = .next (reply o.port o.suffix [.refused r] s)
    (x.state ≠ .berthed → answers .state)
    ∧ ∀ n, x.state = .berthed → x.berth = some n →
      ((s.berth n).cfg.tap = none → answers .noEntry)
      ∧ ∀ k, (s.berth n).cfg.tap = some k →
        let p := s.pedestal k
        (x.standing = .barred → answers .standing)
        ∧ (x.standing ≠ .barred → (x.water ≠ none ∨ s.water.get k ≠ none) → answers .inUse)
        ∧ (x.standing ≠ .barred → x.water = none → s.water.get k = none → p.link = .offline → answers .offline)
        ∧ (x.standing ≠ .barred → x.water = none → s.water.get k = none → p.link ≠ .offline →
            exec (.requestWater o a.val) s = .next (reply o.port o.suffix [.done []]
              { s with
                water := s.water.put k (some
                  { state := .opening, account := a, berth := n, volume := 0, confirmMisses := 0
                    fault := false, closeReason := none })
                pedestals := s.pedestals.put k
                  { p with desiredValve := true, edition := if p.desiredValve then p.edition else p.edition + 1 }
                accounts := s.accounts.put a { x with water := some k, edition := x.edition + 1 } })))
  ∧ (∀ (o : Origin) (a : AccountId) (s : State), Ready (.endWater o a.val) o s →
    let x := s.account a
    (x.water = none → exec (.endWater o a.val) s = .next (reply o.port o.suffix [.refused .state] s))
    ∧ ∀ k y, x.water = some k → s.water.get k = some y → y.account = a →
        let p := s.pedestal k
        let shut : Table Pedestal 256 := s.pedestals.put k
          { p with desiredValve := false, edition := if p.desiredValve then p.edition + 1 else p.edition }
        ((y.state = .opening ∨ y.state = .flowing) →
          exec (.endWater o a.val) s = .next (reply o.port o.suffix [.done [.val (.word "CLOSING")]]
            { s with
              pedestals := shut
              water := s.water.put k
                (some { y with state := .closing, closeReason := some .finished, confirmMisses := 0 }) }))
        ∧ (∀ why, (y.state = .suspended ∧ why = .finished
              ∨ y.state = .closing ∧ p.link = .offline ∧ y.closeReason = some why) →
            exec (.endWater o a.val) s = .next (reply o.port o.suffix [.done [.val (.word "ENDED")]]
              (raise .waterEnded
                { account := some a, outlet := some (.tap k), value := some y.volume, reason := some (.waterEnd why) }
                { s with
                  pedestals := shut
                  water := s.water.put k none
                  accounts := s.accounts.put a { x with water := none, edition := x.edition + 1 } })))
        ∧ (y.state = .closing → p.link ≠ .offline →
            exec (.endWater o a.val) s = .next (reply o.port o.suffix [.done [.val (.word "CLOSING")]] s)))
  ∧ ∀ (g : SegmentId) (poll : Poll) (y : WaterSession) (s : State), RepeatReply g poll s →
    let n := poll.pedestal
    let p := s.pedestal n
    let agrees := (tapReport p.cfg.kind (s.segment g).unpacker.fields).valve = p.desiredValve
    p.cfg.kind ≠ .power2 → s.water.get n = some y → (∀ i, s.power.get (socketAt n i) = none) →
    ∃ t, exec (.pedestalReply g) s = .next t ∧ ReplyTaken g s t ∧ t.power = s.power ∧ t.grantCount = s.grantCount
      ∧ (t.pedestal n).desiredValve = (match t.water.get n with | some z => z.state.on | none => false)
      ∧ (let becomes := fun (z : WaterSession) (u : State) =>
          t.water = s.water.put n (some z) ∧ t.accounts = s.accounts ∧ SameNotices t u
        let ended := fun why : WaterEnd => raise .waterEnded
          { account := some y.account, outlet := some (.tap n), value := some y.volume
            reason := some (.waterEnd why) } s
        let ends := fun u : State =>
          t.water = s.water.put n none ∧ (t.account y.account).water = none ∧ SameNotices t u
            ∧ ∀ a, a ≠ y.account → t.account a = s.account a
        let faulted := fun (w : FaultWord) (u : State) => raise .socketFault
          { account := some y.account, outlet := some (.tap n), reason := some (.fault w) } u
        let missed : WaterSession := { y with confirmMisses := min (y.confirmMisses + 1) 3 }
        let third := y.confirmMisses = 2
        (agrees → y.state = .opening → becomes { y with state := .flowing, confirmMisses := 0 } s)
        ∧ (agrees → (y.state = .flowing ∨ y.state = .suspended) → becomes { y with confirmMisses := 0 } s)
        ∧ (∀ why, agrees → y.state = .closing → y.closeReason = some why → ends (ended why))
        ∧ (¬ agrees → y.state = .flowing → becomes { y with state := .opening, confirmMisses := 1 } s)
        ∧ (¬ agrees → y.state ≠ .flowing → ¬ third → becomes missed s)
        ∧ (¬ agrees → y.state = .opening → third → ends (faulted .valveOpen (ended .fault)))
        ∧ (¬ agrees → (y.state = .suspended ∨ y.state = .closing) → third →
            becomes { missed with fault := true } (faulted .valveClose s)))

/-- R87, R95, R99, R101. Every step keeps every desired relay ON only while its session is SWITCHING, LIVE or RESTORING, and every valve desired OPEN only while its session is OPENING or FLOWING; sessions and accounts naming each other; each feeder's held sum the sum of its sessions' held amps, and its wait list the WAITING sessions once each, at most 64. Each law is kept for its own sake. -/
def Obligations.EveryStepKeepsOutputsToTheirSessions : Prop :=
  (∀ s t : State, OutputsOk s → step s = .next t → OutputsOk t)
  ∧ (∀ s t : State, SessionsLinked s → step s = .next t → SessionsLinked t)
  ∧ ∀ s t : State, FeedersOk s → step s = .next t → FeedersOk t
/-! ### Fuel dock (07) -/

/-- R126, R127, R128, with R31 to R35. The checks of SELL in their order, the limit as the least of its terms, and the effect of a SELL that passes: volume and money held, the sale AUTHORISED under the next number with its no-lift timer, the pump's order. Nothing else changes. That its refund and its stop misses begin at 0 is log 35. -/
def Obligations.SellHoldsVolumeAndMoney : Prop :=
  ∀ (o : Origin) (n : PumpId) (kind : SellKind) (preset : Option Preset) (buyer : Buyer) (s : State),
    let c : Instr := .sell o n.val kind preset
    Ready c o s → s.device = .opened →
    ((∃ a : AccountId, kind = .account a.val ∧ buyer = .account a)
      ∨ ∃ paid, kind = .prepay paid ∧ buyer = .prepay paid ∧ 100 ≤ paid ∧ paid ≤ 500000) →
    (preset = none ∨ (∃ v, preset = some (.volume v) ∧ 1 ≤ v ∧ v ≤ 200000)
      ∨ ∃ m, preset = some (.amount m) ∧ 1 ≤ m ∧ m ≤ 9999999) →
    let p := s.pump n
    let tank := s.tank p.cfg.product
    let rate := rateNow s buyer p.cfg.product
    let ready := p.cfg.installed = true ∧ p.online = true ∧ p.sale = none ∧ ∀ r, p.readings = some r → r.fault = false
    let affordable := fun x : Account => x.balance - (s.classOf x).floor - (x.holds : Int)
    let solvent := match buyer with
      | .account a =>
        let x := s.account a
        x.state ≠ .free ∧ x.standing = .good ∧ (s.classOf x).fuelOnAccount = true ∧ x.sale = none ∧ 0 < affordable x
      | .prepay _ => rate ≠ 0
    let money := match buyer with | .account a => (affordable (s.account a)).toNat | .prepay paid => paid
    let terms : List Nat :=
      [tank.book - tank.holds - tank.cfg.reserve, p.cfg.maxPerSale] ++ (volumeFor money rate).toList
        ++ (match preset with | none => [] | some (.volume v) => [v] | some (.amount m) => (volumeFor m rate).toList)
    let answers := fun r => exec c s = .next (reply o.port o.suffix [.refused r] s)
    (¬ ready → answers .state)
    ∧ (∀ a, ready → buyer = .account a →
        let x := s.account a
        (x.state = .free → answers .state)
        ∧ (x.state ≠ .free → (x.standing ≠ .good ∨ (s.classOf x).fuelOnAccount = false) → answers .standing)
        ∧ (x.state ≠ .free → x.standing = .good → (s.classOf x).fuelOnAccount = true →
            (x.sale ≠ none → answers .saleOpen) ∧ (x.sale = none → affordable x ≤ 0 → answers .funds)))
    ∧ (∀ paid, ready → buyer = .prepay paid → rate = 0 → answers .state)
    ∧ ∀ limit, ready → solvent → terms.min? = some limit →
        (limit < 200 → answers .limitLow)
        ∧ (200 ≤ limit →
          let hold := match buyer with | .account _ => (limit * rate + 9999) / 10000 | .prepay _ => 0
          let sale : Sale :=
            { number := s.saleCounter, pump := n, product := p.cfg.product, buyer := buyer, preset := preset
              limit := limit, volumeHold := limit, moneyHold := hold, rate := rate, delivered := 0, charge := 0
              refund := 0, start := s.clock, lift := none, finish := none, state := .authorised, stop := none
              stopMisses := 0, endReason := none, overRun := false }
          exec c s = .next (reply o.port o.suffix
            [.done [.val (.num s.saleCounter.toNat), .val (.num limit)]]
            (tankWritten p.cfg.product { tank with holds := tank.holds + limit }
              { s with
                saleCounter := s.saleCounter + 1
                accounts := match buyer with
                  | .prepay _ => s.accounts
                  | .account a => s.accounts.put a
                      { s.account a with
                        holds := (s.account a).holds + hold, sale := some n, edition := (s.account a).edition + 1 }
                pumps := s.pumps.put n
                  { p with
                    sale := some sale, order := .authorise s.saleCounter limit, timer := some (s.clock.plus 120)
                    edition := p.edition + 1 } })))

/-- R131 to R136. The installed pumps are polled in turn, one at a time, with the order in the frame. A reply that is none or bad is a miss, and the third makes an ONLINE pump OFFLINE and ends its sale PUMP_LOST. A valid one is read and moves the sale on: one that does not hold an AUTHORISED sale leaves it, one that holds it makes it DELIVERING at the lift of the nozzle or at a volume, the delivered volume is taken, and the sale ends at the nozzle's return, at a fault, and, when DELIVERING, at a falling count or where the reply no longer holds it. Each end is the whole of R140 and R141: tank, hold, charge with what the standing brings, log record, and the notices TANK_DISCREPANCY, TANK_LOW, BALANCE_CLAMPED and SALE_ENDED, in the order of log 14. A stop requested is R137, stated with the stops. A poll while one is outstanding, and a reply without one, do nothing (log 4); the frame kept is log 23. -/
def Obligations.PumpRepliesMoveTheSaleOn : Prop :=
  ∀ s : State, s.stopped = false →
    let polls := s.device = .setup ∨ s.device = .opened
    let after := fun m : PumpId => (s.pump m).cfg.installed = true ∧ ∀ l, s.pumpLine.last = some l → l < m
    let closed : State := { s with pumpLine := { s.pumpLine with outstanding := none } }
    ((¬ polls ∨ s.pumpLine.outstanding ≠ none ∨ ∀ m, (s.pump m).cfg.installed = false) → exec .pumpPoll s = .next s)
    ∧ (∀ n, polls → s.pumpLine.outstanding = none →
        (after n ∧ (∀ m, after m → n ≤ m)
          ∨ (∀ m, ¬ after m) ∧ (s.pump n).cfg.installed = true ∧ ∀ m, (s.pump m).cfg.installed = true → n ≤ m) →
        ∃ b0 b1 b2 b3 b4 b5 b6, exec .pumpPoll s =
            .next { s with
              pumpLine := { last := some n, outstanding := some n, sent := [b0, b1, b2, b3, b4, b5, b6] } }
          ∧ b0 + b1 + b2 + b3 + b4 + b5 + b6 = 0
          ∧ match (s.pump n).order with
            | .cancel => b0.toNat = n.val ∧ bytesToNat [b1, b2] = 0 ∧ bytesToNat [b3, b4, b5] = 0
            | .authorise number limit =>
              b0.toNat = 16 + n.val ∧ bytesToNat [b1, b2] = number.toNat ∧ bytesToNat [b3, b4, b5] = limit % 16777216
            | .stop number => b0.toNat = 32 + n.val ∧ bytesToNat [b1, b2] = number.toNat ∧ bytesToNat [b3, b4, b5] = 0)
    ∧ (∀ bytes, s.pumpLine.outstanding = none → exec (.pumpReply bytes) s = .next s)
    ∧ (∀ n bytes, s.pumpLine.outstanding = some n →
        (bytes.length ≠ 8 ∨ byteSum bytes ≠ 0 ∨ ∀ b, bytes.head? = some b → b.toNat % 16 ≠ n.val) →
        let p := s.pump n
        let outcome := if bytes = [] then PumpOutcome.noReply else .badFrame
        (p.online = false ∨ p.misses < 2 →
          exec (.pumpReply bytes) s = .next { closed with
            pumps := s.pumps.put n { p with misses := min (p.misses + 1) 3, lastOutcome := some outcome } })
        ∧ (p.online = true → 2 ≤ p.misses →
            let lost : State :=
              raise .pumpOffline { pump := some n }
                { closed with
                  pumps := s.pumps.put n
                    { p with misses := 3, lastOutcome := some outcome, online := false, edition := p.edition + 1 } }
            (p.sale = none → exec (.pumpReply bytes) s = .next lost)
            ∧ ∀ x, p.sale = some x → ∃ t, exec (.pumpReply bytes) s = .next t ∧ SaleEnded n x .pumpLost lost t))
    ∧ ∀ n b0 b1 b2 b3 b4 b5 b6 b7, s.pumpLine.outstanding = some n →
        let bytes := [b0, b1, b2, b3, b4, b5, b6, b7]
        byteSum bytes = 0 → b0.toNat % 16 = n.val →
        let p := s.pump n
        let held := b1.toNat.testBit 7
        let up := b1.toNat.testBit 6
        let fault := b1.toNat.testBit 4
        let number := bytesToNat [b2, b3]
        let volume := bytesToNat [b4, b5, b6]
        let reading : PumpReading :=
          { nozzleUp := up, running := b1.toNat.testBit 5, fault := fault, delivered := volume
            held := if held then some (BitVec.ofNat 16 number) else none }
        let writes := fun (q : Pump) (e : Edition) =>
          { closed with
            pumps := s.pumps.put n
              { q with readings := some reading, misses := 0, online := true, lastOutcome := some .valid, edition := e } }
        (p.sale = none → exec (.pumpReply bytes) s = .next (writes p (if p.online then p.edition else p.edition + 1)))
        ∧ (∀ x, p.sale = some x → x.state = .authorised → held = true → number = x.number.toNat → fault = false →
            up = true →
            let lifted : Sale := { x with state := .delivering, lift := some s.clock, delivered := volume }
            exec (.pumpReply bytes) s =
              .next (writes { p with sale := some lifted, timer := some (s.clock.plus 300) } (p.edition + 1)))
        ∧ (∀ x, p.sale = some x → x.state = .delivering → x.stop = none → held = true → number = x.number.toNat →
            fault = false → x.delivered ≤ volume →
            let y : Sale := { x with delivered := volume }
            (up = true → ∃ e, exec (.pumpReply bytes) s = .next (writes
              { p with sale := some y, timer := if x.delivered < volume then some (s.clock.plus 300) else p.timer } e))
            ∧ (up = false → ∃ t e, exec (.pumpReply bytes) s = .next t
                ∧ SaleEnded n y (if x.limit ≤ volume then .limitReached else .nozzleDown)
                    (writes { p with sale := some y } e) t))
        ∧ (∀ x, p.sale = some x → x.state = .delivering → x.stop = none →
            (held = false ∨ number ≠ x.number.toNat ∨ fault = true ∨ volume < x.delivered) →
            ∃ t e, exec (.pumpReply bytes) s = .next t ∧ SaleEnded n x .pumpFault (writes p e) t)
        ∧ ∀ x, p.sale = some x → x.state = .authorised →
            let kept := exec (.pumpReply bytes) s = .next (writes p (if p.online then p.edition else p.edition + 1))
            let lifted : Sale := { x with state := .delivering, lift := some s.clock, delivered := volume }
            let never : Sale := { x with delivered := 0 }
            ((held = false ∨ number ≠ x.number.toNat) → kept)
            ∧ (held = true → number = x.number.toNat → fault = true →
                ∃ t e, exec (.pumpReply bytes) s = .next t
                  ∧ SaleEnded n never .pumpFault (writes { p with sale := some never } e) t)
            ∧ (held = true → number = x.number.toNat → fault = false → up = false →
                (volume = 0 → kept)
                ∧ (0 < volume → ∃ t e, exec (.pumpReply bytes) s = .next t
                    ∧ SaleEnded n lifted (if x.limit ≤ volume then .limitReached else .nozzleDown)
                        (writes { p with sale := some lifted } e) t))

/-- R137 to R141. The no-lift timer ends an AUTHORISED sale, the stall timer and STOP_SALE ask a DELIVERING one to stop, STOP_SALE cancels an AUTHORISED one. A valid reply to a pump asked to stop takes the delivered volume and ends the sale STOPPED or STALLED where the pump no longer runs or holds the sale, PUMP_FAULT at a fault, a falling count or the third reply that still reports it running. Each end is the whole of R140 and R141: tank, hold, charge with what the standing brings, log record, and the notices TANK_DISCREPANCY, TANK_LOW, BALANCE_CLAMPED and SALE_ENDED, in the order of log 14. The expiry rows are the passing of their times (log 4). -/
def Obligations.SalesAreStoppedAndEnded : Prop :=
  (∀ (n : PumpId) (s : State), s.stopped = false →
    let p := s.pump n
    (p.sale = none → exec (.noLiftTimerExpiry n) s = .next s ∧ exec (.stallTimerExpiry n) s = .next s)
    ∧ ∀ x, p.sale = some x → s.device ≠ .loading →
      (x.state = .authorised →
        (∃ t, exec (.noLiftTimerExpiry n) s = .next t ∧ SaleEnded n { x with delivered := 0 } .noLift s t)
        ∧ exec (.stallTimerExpiry n) s = .next s)
      ∧ (x.state = .delivering → exec (.noLiftTimerExpiry n) s = .next s
          ∧ (x.stop ≠ none → exec (.stallTimerExpiry n) s = .next s)
          ∧ (x.stop = none → exec (.stallTimerExpiry n) s = .next
              { s with pumps := s.pumps.put n
                        { p with
                          sale := some { x with stop := some .stalled, stopMisses := 0 }, order := .stop x.number
                          timer := none, edition := p.edition + 1 } })))
  ∧ (∀ (o : Origin) (n : PumpId) (s : State), Ready (.stopSale o n.val) o s →
    let p := s.pump n
    (p.sale = none → exec (.stopSale o n.val) s = .next (reply o.port o.suffix [.refused .state] s))
    ∧ ∀ x, p.sale = some x →
      (x.state = .authorised →
        ∃ t, exec (.stopSale o n.val) s = .next (reply o.port o.suffix [.done [.val (.word "ENDED")]] t)
          ∧ SaleEnded n { x with delivered := 0 } .cancelled s t)
      ∧ (x.state = .delivering → x.stop ≠ none →
          exec (.stopSale o n.val) s = .next (reply o.port o.suffix [.done [.val (.word "STOPPING")]] s))
      ∧ (x.state = .delivering → x.stop = none →
          exec (.stopSale o n.val) s = .next (reply o.port o.suffix [.done [.val (.word "STOPPING")]]
            { s with pumps := s.pumps.put n
                      { p with
                        sale := some { x with stop := some .stopped, stopMisses := 0 }, order := .stop x.number
                        timer := none, edition := p.edition + 1 } })))
  ∧ ∀ (n : PumpId) (b0 b1 b2 b3 b4 b5 b6 b7 : Byte) (x : Sale) (stop : StopReason) (s : State), s.stopped = false →
    s.pumpLine.outstanding = some n →
    let p := s.pump n
    let bytes := [b0, b1, b2, b3, b4, b5, b6, b7]
    let holds := b1.toNat.testBit 7 = true ∧ bytesToNat [b2, b3] = x.number.toNat
    let fault := b1.toNat.testBit 4
    let running := b1.toNat.testBit 5
    let volume := bytesToNat [b4, b5, b6]
    let reading : PumpReading :=
      { nozzleUp := b1.toNat.testBit 6, running := running, fault := fault, delivered := volume
        held := if b1.toNat.testBit 7 then some (BitVec.ofNat 16 (bytesToNat [b2, b3])) else none }
    let reason := match stop with | .stopped => SaleEnd.stopped | .stalled => SaleEnd.stalled
    let ends := fun (y : Sale) (why : SaleEnd) =>
      ∃ t e, exec (.pumpReply bytes) s = .next t
        ∧ SaleEnded n y why (pumpAnswered n { p with sale := some y } reading e s) t
    byteSum bytes = 0 → b0.toNat % 16 = n.val → p.sale = some x → x.state = .delivering → x.stop = some stop →
    let taken : Sale := { x with delivered := volume }
    (¬ holds → ends x reason)
    ∧ (holds → (fault = true ∨ volume < x.delivered) → ends x .pumpFault)
    ∧ (holds → fault = false → x.delivered ≤ volume →
        (running = false → ends taken reason)
        ∧ (running = true → x.stopMisses < 2 → exec (.pumpReply bytes) s = .next (pumpAnswered n
            { p with sale := some { taken with stopMisses := x.stopMisses + 1 } } reading (p.edition + 1) s))
        ∧ (running = true → 2 ≤ x.stopMisses → ends { taken with stopMisses := 3 } .pumpFault))

/-- R142, R143, R144, R187. SALE shows the open sale of a number, else the newest record of it, under the names and words of log 7; TANK_DIP sets the book to the dip, raised to the holds where it is less, with TANK_DISCREPANCY (its product word is log 34); TANK_FILL adds up to the capacity. Nothing but the tank changes. -/
def Obligations.TanksAreDippedAndFilled : Prop :=
  (∀ (o : Origin) (number : Nat) (s : State), Ready (.sale o number) o s →
    let answers := fun r => exec (.sale o number) s = .next (reply o.port o.suffix [.refused r] s)
    let shows := fun x : Sale =>
      exec (.sale o number) s = .next (reply o.port o.suffix [.done (shownItems x.shown)] s)
    let closedSale := ∀ n x, (s.pump n).sale = some x → x.number.toNat ≠ number
    (65535 < number → answers .range)
    ∧ (number ≤ 65535 → closedSale → (∀ x ∈ s.saleLog, x.number.toNat ≠ number) → answers .noEntry)
    ∧ (∀ n x, number ≤ 65535 → (s.pump n).sale = some x → x.number.toNat = number →
        (∀ m y, m < n → (s.pump m).sale = some y → y.number.toNat ≠ number) → shows x)
    ∧ (∀ older x newer, number ≤ 65535 → closedSale → s.saleLog = older ++ x :: newer → x.number.toNat = number →
        (∀ y ∈ newer, y.number.toNat ≠ number) → shows x))
  ∧ (∀ (o : Origin) (t : ProductId) (volume : Nat) (s : State), Ready (.tankDip o t.val volume) o s →
    let x := s.tank t
    let raised := x.holds - volume
    (x.cfg.capacity < volume →
      exec (.tankDip o t.val volume) s = .next (reply o.port o.suffix [.refused .range] s))
    ∧ (volume ≤ x.cfg.capacity →
        exec (.tankDip o t.val volume) s = .next (reply o.port o.suffix
          [.done (.val (.num ((max volume x.holds : Nat) - (x.book : Int)))
            :: if raised = 0 then [] else [.val (.word "RAISED")])]
          (tankWritten t
            { x with book := max volume x.holds, discrepancy := min (x.discrepancy + raised) 4294967295 }
            (if raised = 0 then s
             else raise .tankDiscrepancy { value := some raised, reason := some (.product t) } s)))))
  ∧ ∀ (o : Origin) (t : ProductId) (added : Nat) (s : State), Ready (.tankFill o t.val added) o s →
    let x := s.tank t
    let book := min (x.book + added) x.cfg.capacity
    ((added = 0 ∨ 10000000 < added) →
      exec (.tankFill o t.val added) s = .next (reply o.port o.suffix [.refused .range] s))
    ∧ (1 ≤ added → added ≤ 10000000 →
        exec (.tankFill o t.val added) s = .next (reply o.port o.suffix
          [.done [.val (.num book), .val (.num ((x.book + added - book : Nat) : Int))]]
          (tankWritten t { x with book := book } s)))

/-- R124, R7. Every step keeps both tanks' law, 0 ≤ holds ≤ book ≤ capacity, and the holds of a tank the sum of the volume holds of its open sales; and, for its own sake, the holds of an account the money hold of its open sale, sale and account naming each other. -/
def Obligations.EveryStepKeepsTheTanksLaw : Prop :=
  (∀ s t : State, TanksOk s → HoldsOk s → step s = .next t → TanksOk t ∧ HoldsOk t)
  ∧ ∀ s t : State, AccountHoldsOk s → step s = .next t → AccountHoldsOk t
/-! ### Gates and credentials (08) -/

/-- R147, R149, R151, R154 to R160, R162. A pulse deposits its bit, up to 64; the end of a credential empties its input. At a reader but reader 1 the decision takes its steps in their order and either releases the gate for its release time and stamps the credential and advances its edition, or raises GATE_REFUSED; at reader 1 gate 0 is released and a credential read leaves. In LOADING the end of a credential at reader 1 is logged EXIT_UNREAD with no key, and no gate changes. Each joins the passage log; nothing else changes. That the state remembers who released gate 0 is log 18; the end timer is a running mark (log 4). -/
def Obligations.AReadCredentialDecidesThePassage : Prop :=
  (∀ (r : ReaderId) (bit : Bool) (s : State), s.stopped = false →
    let x := s.reader r
    (s.device = .loading → r ≠ 1 → exec (.readerPulse r bit) s = .next s)
    ∧ ((s.device ≠ .loading ∨ r = 1) → x.bits.length < 64 → x.overflow = false →
        exec (.readerPulse r bit) s = .next (putReader r { bits := x.bits ++ [bit], overflow := false, timer := true } s))
    ∧ ((s.device ≠ .loading ∨ r = 1) → (64 ≤ x.bits.length ∨ x.overflow = true) →
        exec (.readerPulse r bit) s = .next (putReader r { x with overflow := true, timer := true } s)))
  ∧ ∀ (r : ReaderId) (s : State), s.stopped = false →
    let x := s.reader r
    let g := gateOf r
    let t := putReader r { bits := [], overflow := false, timer := false } s
    let refused := fun (why : GateResult) (who : Passer) (a : Option AccountId) (c : Option CredId) =>
      exec (.credentialEnded r) s = .next
        (raise .gateRefused
          { account := a, gate := some g, value := c.map fun i => (i.val : Int), reason := some (.gate why) }
          (withPassage r why who t))
    let exits := fun (why : GateResult) (who : Passer) (u : State) =>
      exec (.credentialEnded r) s = .next (withPassage r why who
        { u with gates := s.gates.put 0
                  { s.gate 0 with
                    released := true, expiry := some (s.clock.plus (s.gate 0).cfg.release), byExit := true
                    edition := if (s.gate 0).released then (s.gate 0).edition else (s.gate 0).edition + 1 } })
    (x.timer = false → exec (.credentialEnded r) s = .next s)
    ∧ (x.timer = true → s.device = .loading →
        (r = 1 → exec (.credentialEnded r) s = .next (withPassage r .exitUnread .nobody t))
        ∧ (r ≠ 1 → exec (.credentialEnded r) s = .next t))
    ∧ (x.timer = true → s.device ≠ .loading → r ≠ 1 →
        (x.overflow = true → refused .tooLong .nobody none none)
        ∧ (x.overflow = false → (∀ f, ¬ FormatIs s x.bits f) → refused .unknownFormat .nobody none none)
        ∧ ∀ f, x.overflow = false → FormatIs s x.bits f →
          let k := spelledKey f x.bits
          (¬ ParityHolds f x.bits → refused .badRead .nobody none none)
          ∧ (ParityHolds f x.bits → (∀ c, ¬ ActiveWith s k c) → refused .unknownCard (.key k) none none)
          ∧ ∀ c, ParityHolds f x.bits → ActiveWith s k c →
            let y := s.cred c
            let gate := s.gate g
            let vessel := if y.kind = .vessel then y.account else none
            let entry := (s.access.get ((y.accessClass &&& gate.cfg.mask) ||| (gate.cfg.page &&& ~~~gate.cfg.mask)).toFin).val
            let stands := fun st : Standing => ∃ a, vessel = some a ∧ (s.account a).standing = st
            let own := ∃ a n, vessel = some a ∧ (s.account a).berth = some n
              ∧ ((s.account a).state = .reserved ∨ (s.account a).state = .berthed)
              ∧ (s.berth n).cfg.pontoon = gate.cfg.pontoon
            let outOfService := gate.cfg.mode = .outOfService
            let heldOpen := gate.cfg.mode = .heldOpen
            let closedTo := s.device = .setup ∧ y.kind ≠ .staff
            let barred := stands .barred
            let notAllowed := entry.allowed = false ∨ ¬ WindowAdmits s entry
              ∨ gate.cfg.kind = .pontoon ∧ entry.ownPontoonOnly = true ∧ ¬ own
            let inArrears := stands .arrears ∧ entry.inArrears = false
            let passback := r = 0 ∧ gate.cfg.passback = true ∧ y.inside = true
            let normal := ¬ outOfService ∧ ¬ heldOpen
            (outOfService → refused .outOfService (.credential c) vessel (some c))
            ∧ (normal → closedTo → refused .closed (.credential c) vessel (some c))
            ∧ (normal → ¬ closedTo → barred → refused .barred (.credential c) vessel (some c))
            ∧ (normal → ¬ closedTo → ¬ barred → notAllowed → refused .notAllowed (.credential c) vessel (some c))
            ∧ (normal → ¬ closedTo → ¬ barred → ¬ notAllowed → inArrears →
                refused .arrears (.credential c) vessel (some c))
            ∧ (normal → ¬ closedTo → ¬ barred → ¬ notAllowed → ¬ inArrears → passback →
                refused .passback (.credential c) vessel (some c))
            ∧ ∀ result,
                (heldOpen ∧ result = .heldOpen
                  ∨ normal ∧ ¬ closedTo ∧ ¬ barred ∧ ¬ notAllowed ∧ ¬ inArrears ∧ ¬ passback ∧ result = .granted) →
                exec (.credentialEnded r) s = .next (withPassage r result (.credential c)
                  { t with
                    gates := s.gates.put g
                      { gate with
                        released := true, expiry := some (s.clock.plus gate.cfg.release), byExit := false
                        edition := if gate.released then gate.edition else gate.edition + 1 }
                    creds := s.creds.put c
                      { y with
                        inside := y.inside || decide (r = 0), lastGate := some g, lastTime := some s.clock
                        edition := y.edition + 1 } }))
    ∧ (x.timer = true → s.device ≠ .loading → r = 1 →
        ((x.overflow = true ∨ (∀ f, ¬ FormatIs s x.bits f) ∨ ∃ f, FormatIs s x.bits f ∧ ¬ ParityHolds f x.bits) →
          exits .exitUnread .nobody t)
        ∧ ∀ f, x.overflow = false → FormatIs s x.bits f → ParityHolds f x.bits →
          let k := spelledKey f x.bits
          ((∀ c, ¬ ActiveWith s k c) → exits .exitUnread (.key k) t)
          ∧ ∀ c, ActiveWith s k c →
            exits .exited (.credential c)
              { t with creds := s.creds.put c
                        { s.cred c with
                          inside := false, lastGate := some 0, lastTime := some s.clock
                          edition := (s.cred c).edition + 1 } })

/-- R152, R153, R160, R161. A release expiry locks its gate again, but gate 0 in LOADING and SETUP and a gate held open; HOLD_GATE sets the mode and the lock it gives; REVOKE revokes an ACTIVE credential and takes it off its account's list; CLEAR_PASSBACK clears its inside flag. Nothing else changes. An expiry with no release running does nothing (log 4); the exit mark is log 18. -/
def Obligations.GateAndCredentialCommandsTakeEffect : Prop :=
  (∀ (g : GateId) (s : State), s.stopped = false →
    let x := s.gate g
    let held : Bool :=
      (s.device = .loading && g = 0) || (s.device = .setup && g = 0)
        || (s.device ≠ .loading && x.cfg.mode = .heldOpen)
    (x.expiry = none → exec (.releaseExpiry g) s = .next s)
    ∧ (x.expiry ≠ none → exec (.releaseExpiry g) s = .next
        { s with gates := s.gates.put g
                  { x with
                    expiry := none, byExit := false, released := held
                    edition := if x.released = held then x.edition else x.edition + 1 } }))
  ∧ (∀ (o : Origin) (g : GateId) (m : GateMode) (s : State), Ready (.holdGate o g.val m) o s →
    let x := s.gate g
    let drops : Bool := m = .outOfService && !(g = 0 && x.byExit)
    let released : Bool := m = .heldOpen || (!drops && x.expiry.isSome)
    exec (.holdGate o g.val m) s = .next (reply o.port o.suffix
      [.done [.val (.word (if released then "RELEASED" else "LOCKED"))]]
      { s with gates := s.gates.put g
                { x with
                  cfg := { x.cfg with mode := m }, released := released
                  expiry := if drops then none else x.expiry, byExit := x.byExit && !drops
                  edition := if x.cfg.mode = m ∧ x.released = released then x.edition else x.edition + 1 } }))
  ∧ (∀ (o : Origin) (c : CredId) (s : State), Ready (.revoke o c.val) o s →
    let x := s.cred c
    let t : State :=
      { s with creds := s.creds.put c { x with state := .revoked, inside := false, edition := x.edition + 1 } }
    (x.state ≠ .active → exec (.revoke o c.val) s = .next (reply o.port o.suffix [.refused .state] s))
    ∧ (x.state = .active → (x.kind = .staff ∨ x.account = none) →
        exec (.revoke o c.val) s = .next (reply o.port o.suffix [.done []] t))
    ∧ ∀ a, x.state = .active → x.kind = .vessel → x.account = some a → c ∈ (s.account a).credentials →
        exec (.revoke o c.val) s = .next (reply o.port o.suffix [.done []]
          { t with accounts := s.accounts.put a
                    { s.account a with
                      credentials := (s.account a).credentials.filter fun d => decide (d ≠ c)
                      edition := (s.account a).edition + 1 } }))
  ∧ ∀ (o : Origin) (c : CredId) (s : State), Ready (.clearPassback o c.val) o s →
    let x := s.cred c
    (x.state = .free → exec (.clearPassback o c.val) s = .next (reply o.port o.suffix [.refused .state] s))
    ∧ (x.state ≠ .free → exec (.clearPassback o c.val) s = .next (reply o.port o.suffix [.done []]
        { s with creds := s.creds.put c
                  { x with inside := false, edition := if x.inside then x.edition + 1 else x.edition } }))

/-! ### Start-up, site image and holdover (10, 11) -/

/-- R185. SAVE while one runs is refused BUSY; otherwise a copy of every configuration table is taken. Its completion writes the copy as the image with SAVE_DONE, or with its marker erased and SAVE_FAILED where the read back fails. Nothing else changes. A SAVE_COMPLETE with no SAVE in flight does nothing (log 4). That the image is written whole at the completion, with an erased marker of 65,535, is log 15; the read-back result is log 28; the packings are log 30. -/
def Obligations.SaveWritesTheTables : Prop :=
  (∀ (o : Origin) (s : State), Ready (.save o) o s →
    (s.save ≠ none → exec (.save o) s = .next (reply o.port o.suffix [.refused .busy] s))
    ∧ (s.save = none → ∃ c, exec (.save o) s = .next (reply o.port o.suffix [.done []] { s with save := some c })
        ∧ c.site = s.site.val ∧ (∀ i, c.classes.get i = (s.classes.get i).val) ∧ (∀ i, c.rates.get i = (s.rates.get i).val)
        ∧ (∀ i, c.bands.get i = (s.bands.get i).val)
        ∧ (∀ n, (c.berths.get n).cfg = (s.berth n).cfg
            ∧ ((c.berths.get n).outOfService = true ↔ (s.berth n).state = .outOfService))
        ∧ (∀ n, c.pedestals.get n = (s.pedestal n).cfg) ∧ (∀ f, c.feeders.get f = (s.feeder f).cfg)
        ∧ (∀ n, c.pumps.get n = (s.pump n).cfg) ∧ (∀ t, c.tanks.get t = (s.tank t).cfg)
        ∧ (∀ i, c.formats.get i = (s.formats.get i).val) ∧ (∀ i, c.access.get i = (s.access.get i).val)
        ∧ (∀ g, c.gates.get g = (s.gate g).cfg) ∧ (∀ i, c.levels.get i = (s.levels.get i).val)
        ∧ (∀ i, c.thresholds.get i = (s.thresholds.get i).val)))
  ∧ ∀ s : State, s.stopped = false →
    (∀ r, s.save = none → exec (.saveComplete r) s = .next s)
    ∧ ∀ c, s.save = some c →
      exec (.saveComplete .agrees) s = .next (raise .saveDone {} { s with save := none, image := imageOf c })
      ∧ (∀ n : Nat, exec (.saveComplete (.differs n)) s = .next (raise .saveFailed { value := some n }
          { s with save := none, image := [255, 255] ++ (imageOf c).drop 2 }))
      ∧ exec (.saveComplete .noAnswer) s = .next (raise .saveFailed { value := some (-1) }
          { s with save := none, image := [255, 255] ++ (imageOf c).drop 2 })

/-- R181, R189, with the packings of log 30. The image of tables that pass every check loads back as those tables; it holds 10,047 bytes, and with any one byte changed, or with its marker erased to 65,535 (log 15), it fails to load. -/
def Obligations.ASavedImageLoadsBack : Prop :=
  ∀ t : SiteTables, t.inRange = true → t.agree = true → (∀ i, (t.formats.get i).fitsBytes) →
    loadTables (imageOf t) = some t
    ∧ (imageOf t).length = 10047
    ∧ (∀ (i : Nat) (b c : Byte), (imageOf t)[i]? = some b → c ≠ b → loadTables ((imageOf t).set i c) = none)
    ∧ loadTables (eraseMarker (imageOf t)) = none

/-- R179, R181, R182, R184, R185, R186. Power-on, the RESET input and RESTART enter LOADING; RESTART is refused BUSY while a SAVE runs, and its port keeps its reply (log 24). What an abandoned SAVE leaves of the image, as the row's stage says, is log 15; that the end timers of the readers stop with their queues is log 31. When the battery runs out the validity word and every record are lost, each record at its cold value under the configuration that stands, berths in service as they were, and the part stops until power-on (log 16). -/
def Obligations.RestartsEnterLoading : Prop :=
  (∀ (stage : SaveStage) (s : State),
    (∃ t, exec (.powerOn stage) s = .next t ∧ EntersLoading stage { s with stopped := false } t)
    ∧ (s.stopped = false → ∃ t, exec (.resetInput stage) s = .next t ∧ EntersLoading stage s t))
  ∧ (∀ (o : Origin) (s : State), Ready (.restart o) o s →
    (s.save ≠ none → exec (.restart o) s = .next (reply o.port o.suffix [.refused .busy] s))
    ∧ (s.save = none → ∃ t, exec (.restart o) s =
          .next (putPort o.port { loadingPort with suffix := o.suffix, reply := [.done []] } t)
        ∧ EntersLoading .beforeErase s t))
  ∧ ∀ s : State, s.stopped = false →
    ∃ t, exec .batteryExhausted s = .next t ∧ RecordsLost { s with valid := false, stopped := true } t
      ∧ (∀ n, (t.berth n).state = if (s.berth n).state = .outOfService then .outOfService else .free)
      ∧ ∀ c : Instr, (∀ stage, c ≠ .powerOn stage) → exec c t = .next t

/-- R181, R182, R183, R179, with R19, R60, R65, R73, R75, R94, R101, R112, R121, R146, R147, R160, R163. LOADING ends in SETUP with every record at its cold value under the tables when the image fails (the defaults, value −1), or the validity word is not good (value 0); otherwise in OPEN or HOLDOVER, as the mains stand, with the value 1 and the retained records under the loaded tables. The warm start is stated step by step: sessions of absent sockets and taps end RESTART, feeders get their held sums, lists, no relief hold and readings 0, WAITING sessions on no list join one, the rest are RESTORING with their outputs, open sales end RESTART, tanks are clamped, standings evaluated, relief taken, lists served. Then locks, rollover test, polling, ports and notices, STATE_CHANGED last. A LOAD_COMPLETE outside LOADING does nothing (log 4). The order of records within a step is log 20, of notices log 14; that the memory answers is log 28; one copy of the records is log 17; the due mark is log 26; the readers' end timers log 31; the notice of a clamp log 34. -/
def Obligations.LoadCompleteStartsColdOrWarm : Prop :=
  ∀ (answers : Bool) (s : State), s.stopped = false →
    (s.device ≠ .loading → exec (.loadComplete answers) s = .next s)
    ∧ (∀ tables, s.device = .loading →
        (answers = true ∧ loadTables s.image = some tables ∧ s.valid = false
          ∨ (answers = false ∨ loadTables s.image = none) ∧ tables = defaultTables) →
        ∃ t, exec (.loadComplete answers) s = .next t ∧ t.device = .setup ∧ t.valid = false ∧ copyTables t = tables
          ∧ ColdStarted tables (if answers = true ∧ loadTables s.image ≠ none then 0 else -1) s t)
    ∧ ∀ tables, s.device = .loading → answers = true → loadTables s.image = some tables → s.valid = true →
        ∃ t, exec (.loadComplete answers) s = .next t ∧ WarmStarted tables s t
          ∧ t.device = (if s.mainsOk then .opened else .holdover) ∧ t.valid = true ∧ t.image = s.image
          ∧ t.clock = s.clock ∧ t.clockSet = s.clockSet ∧ t.lastRollover = s.lastRollover
          ∧ t.site.val = tables.site ∧ (∀ i, (t.classes.get i).val = tables.classes.get i)
          ∧ (∀ i, (t.rates.get i).val = tables.rates.get i) ∧ (∀ n, (t.pedestal n).cfg = tables.pedestals.get n)
          ∧ (∀ n, (t.berth n).cfg = (tables.berths.get n).cfg ∧ (t.berth n).state = (s.berth n).state
              ∧ (t.berth n).holder = (s.berth n).holder)
          ∧ (∀ f, (t.feeder f).cfg = tables.feeders.get f) ∧ (∀ g, (t.gate g).cfg = tables.gates.get g)
          ∧ t.creds = s.creds ∧ t.passages = s.passages ∧ t.saleCounter = s.saleCounter
          ∧ (∀ n, (t.pump n).sale = none ∧ (t.pump n).online = false)
          ∧ (∀ k x, t.power.get k = some x → x.state ≠ .live)
          ∧ ((∀ n, (s.pump n).sale = none) → t.saleLog = s.saleLog ∧ ∀ a,
              (t.account a).state = (s.account a).state ∧ (t.account a).balance = (s.account a).balance
              ∧ (t.account a).residues = (s.account a).residues ∧ (t.account a).berth = (s.account a).berth
              ∧ ((s.account a).state ≠ .free → (t.account a).standing = standingOf (s.account a).barredFlag
                  (s.account a).balance (tables.classes.get (s.account a).cls).floor))
          ∧ ∀ p, (t.port p).cursor = { table := .site, index := 0 } ∧ (t.port p).holding = entryAt t .site 0

/-- R180, R184, R186, R93, R113, R120, R145. OPEN wants the clock set and makes the validity word good; SETUP wants no session and no open sale; MAINS_OK low takes OPEN to HOLDOVER, where polling stops and open sales end; its return takes HOLDOVER to OPEN, and under the feeders' law (only WAITING sessions stand in a wait list) the LIVE and SWITCHING sessions become RESTORING. The other sessions keep all but their last current, unless they are WAITING on a feeder whose relief hold the return removes and whose list is then served; water sessions, accounts, credentials, tanks and all else not named stay. The feeders are taken in ascending number (log 20). Every change relocks the gates, an entry to OPEN or HOLDOVER tests the rollover and then raises STATE_CHANGED, and the edges raise MAINS_LOST and MAINS_BACK before it. That an edge acts only where the level changes is log 22; that a segment with nothing installed gets no due mark is log 26. -/
def Obligations.DeviceStatesChangeAsCommanded : Prop :=
  (∀ (o : Origin) (s : State), Ready (.openDevice o) o s →
    (s.clockSet = false → exec (.openDevice o) s = .next (reply o.port o.suffix [.refused .state] s))
    ∧ (s.clockSet = true → s.mainsOk = true →
        ∃ t gates, Relocked .opened s gates
          ∧ RolloverTested { s with device := .opened, valid := true, gates := gates } t
          ∧ exec (.openDevice o) s = .next (reply o.port o.suffix [.done [.val (.word "OPEN")]]
              (raise .stateChanged { reason := some (.device .opened) } t)))
    ∧ (s.clockSet = true → s.mainsOk = false →
        ∃ t, exec (.openDevice o) s = .next (reply o.port o.suffix [.done [.val (.word "HOLDOVER")]] t)
          ∧ t.device = .holdover ∧ t.valid = true ∧ Relocked .holdover s t.gates ∧ (∀ n, (t.pump n).sale = none)
          ∧ HoldoverEntered s { s with valid := true } t))
  ∧ (∀ (o : Origin) (s : State), Ready (.setup o) o s →
    let idle := (∀ k, s.power.get k = none) ∧ (∀ k, s.water.get k = none) ∧ ∀ n, (s.pump n).sale = none
    (¬ idle → exec (.setup o) s = .next (reply o.port o.suffix [.refused .inUse] s))
    ∧ (idle → ∃ gates, Relocked .setup s gates
        ∧ exec (.setup o) s = .next (reply o.port o.suffix [.done []]
            (raise .stateChanged { reason := some (.device .setup) } { s with device := .setup, gates := gates }))))
  ∧ ∀ s : State, s.stopped = false →
    (s.mainsOk = false → exec .mainsLost s = .next s)
    ∧ (s.mainsOk = true → (s.device = .loading ∨ s.device = .holdover) →
        exec .mainsLost s = .next { s with mainsOk := false })
    ∧ (s.mainsOk = true → s.device = .setup → exec .mainsLost s = .next (raise .mainsLost {} { s with mainsOk := false }))
    ∧ (s.mainsOk = true → s.device = .opened →
        ∃ t, exec .mainsLost s = .next t ∧ t.device = .holdover ∧ t.mainsOk = false ∧ Relocked .holdover s t.gates
          ∧ HoldoverEntered s { s with mainsOk := false } t
          ∧ (∀ g, t.segment g = { s.segment g with due := false, outstanding := none })
          ∧ t.pumpLine = { s.pumpLine with outstanding := none }
          ∧ (∀ n, (t.pump n).sale = none)
          ∧ ((∀ n, (s.pump n).sale = none) → t.accounts = s.accounts ∧ t.power = s.power ∧ t.water = s.water
              ∧ t.pedestals = s.pedestals ∧ t.feeders = s.feeders ∧ t.pumps = s.pumps ∧ t.tanks = s.tanks)
          ∧ (∀ n x, (s.pump n).sale = some x → ∃ y ∈ t.saleLog, y.number = x.number ∧ y.endReason = some .mainsLost
              ∧ y.delivered = x.delivered ∧ y.buyer = x.buyer))
    ∧ (s.mainsOk = true → exec .mainsBack s = .next s)
    ∧ (s.mainsOk = false → (s.device = .loading ∨ s.device = .opened) →
        exec .mainsBack s = .next { s with mainsOk := true })
    ∧ (s.mainsOk = false → s.device = .setup → exec .mainsBack s = .next (raise .mainsBack {} { s with mainsOk := true }))
    ∧ (s.mainsOk = false → s.device = .holdover →
        ∃ t, exec .mainsBack s = .next t ∧ t.device = .opened ∧ t.mainsOk = true ∧ Relocked .opened s t.gates
          ∧ (∃ u, RolloverTested { raise .mainsBack {} { s with mainsOk := true } with
                device := .opened, gates := t.gates } u
              ∧ t.rollover = u.rollover ∧ t.rolloverPending = u.rolloverPending
              ∧ SameNotices t (raise .stateChanged { reason := some (.device .opened) } u)
              ∧ MainsReturned (raise .stateChanged { reason := some (.device .opened) } u) t)
          ∧ t = { s with
                  device := .opened, mainsOk := true, gates := t.gates, rollover := t.rollover
                  rolloverPending := t.rolloverPending, pedestals := t.pedestals, power := t.power, feeders := t.feeders
                  grantCount := t.grantCount, segments := t.segments, pumpLine := t.pumpLine, pumps := t.pumps
                  ports := t.ports, heldNotices := t.heldNotices }
          ∧ (∀ g, (t.segment g).position = none ∧ (t.segment g).outstanding = none
              ∧ ((t.segment g).due = true ↔ ∃ n, onSegment s g n))
          ∧ t.pumpLine.last = none ∧ t.pumpLine.outstanding = none
          ∧ (∀ n, (s.pedestal n).cfg.installed = true → (t.pedestal n).link = .unknown ∧ (t.pedestal n).misses = 0
              ∧ (t.pedestal n).tag = (s.pedestal n).tag ∧ ∀ i, ((t.pedestal n).reported.get i).current = 0)
          ∧ (∀ n, (s.pump n).cfg.installed = true → (t.pump n).online = false ∧ (t.pump n).misses = 3)
          ∧ (∀ f, (t.feeder f).relief = none ∧ (t.feeder f).overload = 0 ∧ (t.feeder f).measured = 0)
          ∧ (FeedersOk s → ∀ k x, s.power.get k = some x → (x.state = .live ∨ x.state = .switching) → x.held ≠ 0 →
              t.power.get k = some { x with state := .restoring, confirmMisses := 0, lastCurrent := 0 })
          ∧ (FeedersOk s → ∀ k x, s.power.get k = some x → x.state ≠ .live → x.state ≠ .switching →
              (x.state ≠ .waiting ∨ (s.feeder (feederOf s k)).relief = none) →
              t.power.get k = some { x with lastCurrent := 0 }))

/-- R160, R182, R184. Every step keeps gate 0 RELEASED in LOADING and SETUP and every other gate LOCKED in LOADING, and keeps a part that trades with its clock set and its validity word good. -/
def Obligations.EveryStepKeepsTheExitOpenAndTheClockSet : Prop :=
  ∀ s t : State, ShoreOpen s → TradingReady s → step s = .next t → ShoreOpen t ∧ TradingReady t

/-- Log 1, with R19, R60, R94, R96, R146, R160, R163, R176, R182. The state after reset meets every law that the steps keep. -/
def Obligations.TheStateAfterResetMeetsEveryLaw : Prop :=
  QueuesOk State.reset ∧ LoadingQuiet State.reset ∧ LinesOk State.reset ∧ ReadersOk State.reset ∧ LogsOk State.reset
    ∧ MoneyOk State.reset ∧ StandingsOk State.reset ∧ FloorsOk State.reset ∧ BerthsLinked State.reset
    ∧ CredentialsOk State.reset ∧ OutputsOk State.reset ∧ SessionsLinked State.reset ∧ FeedersOk State.reset
    ∧ TanksOk State.reset ∧ HoldsOk State.reset ∧ AccountHoldsOk State.reset ∧ ShoreOpen State.reset
    ∧ TradingReady State.reset
end

