-- ==== Sys2Proof/Laws/State.lean ====
section
/-! SUPPORT. One lemma per field for each update of State and for each settling of a record, true by unfolding once, so that no proof opens a record update. -/

namespace Sys2Proof.Machine

/-! ### putAccount -/

@[simp] theorem putAccount_device (b : State) (a : AccountId) (x : Account) (s : State) : (putAccount b a x s).device = s.device := rfl
@[simp] theorem putAccount_stopped (b : State) (a : AccountId) (x : Account) (s : State) : (putAccount b a x s).stopped = s.stopped := rfl
@[simp] theorem putAccount_mainsOk (b : State) (a : AccountId) (x : Account) (s : State) : (putAccount b a x s).mainsOk = s.mainsOk := rfl
@[simp] theorem putAccount_valid (b : State) (a : AccountId) (x : Account) (s : State) : (putAccount b a x s).valid = s.valid := rfl
@[simp] theorem putAccount_image (b : State) (a : AccountId) (x : Account) (s : State) : (putAccount b a x s).image = s.image := rfl
@[simp] theorem putAccount_save (b : State) (a : AccountId) (x : Account) (s : State) : (putAccount b a x s).save = s.save := rfl
@[simp] theorem putAccount_clock (b : State) (a : AccountId) (x : Account) (s : State) : (putAccount b a x s).clock = s.clock := rfl
@[simp] theorem putAccount_clockSet (b : State) (a : AccountId) (x : Account) (s : State) : (putAccount b a x s).clockSet = s.clockSet := rfl
@[simp] theorem putAccount_lastRollover (b : State) (a : AccountId) (x : Account) (s : State) : (putAccount b a x s).lastRollover = s.lastRollover := rfl
@[simp] theorem putAccount_rollover (b : State) (a : AccountId) (x : Account) (s : State) : (putAccount b a x s).rollover = s.rollover := rfl
@[simp] theorem putAccount_rolloverPending (b : State) (a : AccountId) (x : Account) (s : State) : (putAccount b a x s).rolloverPending = s.rolloverPending := rfl
@[simp] theorem putAccount_site (b : State) (a : AccountId) (x : Account) (s : State) : (putAccount b a x s).site = s.site := rfl
@[simp] theorem putAccount_classes (b : State) (a : AccountId) (x : Account) (s : State) : (putAccount b a x s).classes = s.classes := rfl
@[simp] theorem putAccount_rates (b : State) (a : AccountId) (x : Account) (s : State) : (putAccount b a x s).rates = s.rates := rfl
@[simp] theorem putAccount_bands (b : State) (a : AccountId) (x : Account) (s : State) : (putAccount b a x s).bands = s.bands := rfl
@[simp] theorem putAccount_accounts (b : State) (a : AccountId) (x : Account) (s : State) :
    (putAccount b a x s).accounts = s.accounts.put a ((b.account a).settled x) := rfl
@[simp] theorem putAccount_berths (b : State) (a : AccountId) (x : Account) (s : State) : (putAccount b a x s).berths = s.berths := rfl
@[simp] theorem putAccount_pedestals (b : State) (a : AccountId) (x : Account) (s : State) : (putAccount b a x s).pedestals = s.pedestals := rfl
@[simp] theorem putAccount_segments (b : State) (a : AccountId) (x : Account) (s : State) : (putAccount b a x s).segments = s.segments := rfl
@[simp] theorem putAccount_power (b : State) (a : AccountId) (x : Account) (s : State) : (putAccount b a x s).power = s.power := rfl
@[simp] theorem putAccount_water (b : State) (a : AccountId) (x : Account) (s : State) : (putAccount b a x s).water = s.water := rfl
@[simp] theorem putAccount_feeders (b : State) (a : AccountId) (x : Account) (s : State) : (putAccount b a x s).feeders = s.feeders := rfl
@[simp] theorem putAccount_grantCount (b : State) (a : AccountId) (x : Account) (s : State) : (putAccount b a x s).grantCount = s.grantCount := rfl
@[simp] theorem putAccount_pumps (b : State) (a : AccountId) (x : Account) (s : State) : (putAccount b a x s).pumps = s.pumps := rfl
@[simp] theorem putAccount_tanks (b : State) (a : AccountId) (x : Account) (s : State) : (putAccount b a x s).tanks = s.tanks := rfl
@[simp] theorem putAccount_saleCounter (b : State) (a : AccountId) (x : Account) (s : State) : (putAccount b a x s).saleCounter = s.saleCounter := rfl
@[simp] theorem putAccount_saleLog (b : State) (a : AccountId) (x : Account) (s : State) : (putAccount b a x s).saleLog = s.saleLog := rfl
@[simp] theorem putAccount_pumpLine (b : State) (a : AccountId) (x : Account) (s : State) : (putAccount b a x s).pumpLine = s.pumpLine := rfl
@[simp] theorem putAccount_readers (b : State) (a : AccountId) (x : Account) (s : State) : (putAccount b a x s).readers = s.readers := rfl
@[simp] theorem putAccount_formats (b : State) (a : AccountId) (x : Account) (s : State) : (putAccount b a x s).formats = s.formats := rfl
@[simp] theorem putAccount_access (b : State) (a : AccountId) (x : Account) (s : State) : (putAccount b a x s).access = s.access := rfl
@[simp] theorem putAccount_gates (b : State) (a : AccountId) (x : Account) (s : State) : (putAccount b a x s).gates = s.gates := rfl
@[simp] theorem putAccount_creds (b : State) (a : AccountId) (x : Account) (s : State) : (putAccount b a x s).creds = s.creds := rfl
@[simp] theorem putAccount_passages (b : State) (a : AccountId) (x : Account) (s : State) : (putAccount b a x s).passages = s.passages := rfl
@[simp] theorem putAccount_ports (b : State) (a : AccountId) (x : Account) (s : State) : (putAccount b a x s).ports = s.ports := rfl
@[simp] theorem putAccount_levels (b : State) (a : AccountId) (x : Account) (s : State) : (putAccount b a x s).levels = s.levels := rfl
@[simp] theorem putAccount_thresholds (b : State) (a : AccountId) (x : Account) (s : State) : (putAccount b a x s).thresholds = s.thresholds := rfl
@[simp] theorem putAccount_heldNotices (b : State) (a : AccountId) (x : Account) (s : State) : (putAccount b a x s).heldNotices = s.heldNotices := rfl
@[simp] theorem putAccount_pending (b : State) (a : AccountId) (x : Account) (s : State) : (putAccount b a x s).pending = s.pending := rfl

/-! ### modAccount -/

@[simp] theorem modAccount_device (b : State) (a : AccountId) (f : Account → Account) (s : State) : (modAccount b a f s).device = s.device := rfl
@[simp] theorem modAccount_stopped (b : State) (a : AccountId) (f : Account → Account) (s : State) : (modAccount b a f s).stopped = s.stopped := rfl
@[simp] theorem modAccount_mainsOk (b : State) (a : AccountId) (f : Account → Account) (s : State) : (modAccount b a f s).mainsOk = s.mainsOk := rfl
@[simp] theorem modAccount_valid (b : State) (a : AccountId) (f : Account → Account) (s : State) : (modAccount b a f s).valid = s.valid := rfl
@[simp] theorem modAccount_image (b : State) (a : AccountId) (f : Account → Account) (s : State) : (modAccount b a f s).image = s.image := rfl
@[simp] theorem modAccount_save (b : State) (a : AccountId) (f : Account → Account) (s : State) : (modAccount b a f s).save = s.save := rfl
@[simp] theorem modAccount_clock (b : State) (a : AccountId) (f : Account → Account) (s : State) : (modAccount b a f s).clock = s.clock := rfl
@[simp] theorem modAccount_clockSet (b : State) (a : AccountId) (f : Account → Account) (s : State) : (modAccount b a f s).clockSet = s.clockSet := rfl
@[simp] theorem modAccount_lastRollover (b : State) (a : AccountId) (f : Account → Account) (s : State) : (modAccount b a f s).lastRollover = s.lastRollover := rfl
@[simp] theorem modAccount_rollover (b : State) (a : AccountId) (f : Account → Account) (s : State) : (modAccount b a f s).rollover = s.rollover := rfl
@[simp] theorem modAccount_rolloverPending (b : State) (a : AccountId) (f : Account → Account) (s : State) : (modAccount b a f s).rolloverPending = s.rolloverPending := rfl
@[simp] theorem modAccount_site (b : State) (a : AccountId) (f : Account → Account) (s : State) : (modAccount b a f s).site = s.site := rfl
@[simp] theorem modAccount_classes (b : State) (a : AccountId) (f : Account → Account) (s : State) : (modAccount b a f s).classes = s.classes := rfl
@[simp] theorem modAccount_rates (b : State) (a : AccountId) (f : Account → Account) (s : State) : (modAccount b a f s).rates = s.rates := rfl
@[simp] theorem modAccount_bands (b : State) (a : AccountId) (f : Account → Account) (s : State) : (modAccount b a f s).bands = s.bands := rfl
@[simp] theorem modAccount_accounts (b : State) (a : AccountId) (f : Account → Account) (s : State) :
    (modAccount b a f s).accounts = s.accounts.put a ((b.account a).settled (f (s.account a))) := rfl
@[simp] theorem modAccount_berths (b : State) (a : AccountId) (f : Account → Account) (s : State) : (modAccount b a f s).berths = s.berths := rfl
@[simp] theorem modAccount_pedestals (b : State) (a : AccountId) (f : Account → Account) (s : State) : (modAccount b a f s).pedestals = s.pedestals := rfl
@[simp] theorem modAccount_segments (b : State) (a : AccountId) (f : Account → Account) (s : State) : (modAccount b a f s).segments = s.segments := rfl
@[simp] theorem modAccount_power (b : State) (a : AccountId) (f : Account → Account) (s : State) : (modAccount b a f s).power = s.power := rfl
@[simp] theorem modAccount_water (b : State) (a : AccountId) (f : Account → Account) (s : State) : (modAccount b a f s).water = s.water := rfl
@[simp] theorem modAccount_feeders (b : State) (a : AccountId) (f : Account → Account) (s : State) : (modAccount b a f s).feeders = s.feeders := rfl
@[simp] theorem modAccount_grantCount (b : State) (a : AccountId) (f : Account → Account) (s : State) : (modAccount b a f s).grantCount = s.grantCount := rfl
@[simp] theorem modAccount_pumps (b : State) (a : AccountId) (f : Account → Account) (s : State) : (modAccount b a f s).pumps = s.pumps := rfl
@[simp] theorem modAccount_tanks (b : State) (a : AccountId) (f : Account → Account) (s : State) : (modAccount b a f s).tanks = s.tanks := rfl
@[simp] theorem modAccount_saleCounter (b : State) (a : AccountId) (f : Account → Account) (s : State) : (modAccount b a f s).saleCounter = s.saleCounter := rfl
@[simp] theorem modAccount_saleLog (b : State) (a : AccountId) (f : Account → Account) (s : State) : (modAccount b a f s).saleLog = s.saleLog := rfl
@[simp] theorem modAccount_pumpLine (b : State) (a : AccountId) (f : Account → Account) (s : State) : (modAccount b a f s).pumpLine = s.pumpLine := rfl
@[simp] theorem modAccount_readers (b : State) (a : AccountId) (f : Account → Account) (s : State) : (modAccount b a f s).readers = s.readers := rfl
@[simp] theorem modAccount_formats (b : State) (a : AccountId) (f : Account → Account) (s : State) : (modAccount b a f s).formats = s.formats := rfl
@[simp] theorem modAccount_access (b : State) (a : AccountId) (f : Account → Account) (s : State) : (modAccount b a f s).access = s.access := rfl
@[simp] theorem modAccount_gates (b : State) (a : AccountId) (f : Account → Account) (s : State) : (modAccount b a f s).gates = s.gates := rfl
@[simp] theorem modAccount_creds (b : State) (a : AccountId) (f : Account → Account) (s : State) : (modAccount b a f s).creds = s.creds := rfl
@[simp] theorem modAccount_passages (b : State) (a : AccountId) (f : Account → Account) (s : State) : (modAccount b a f s).passages = s.passages := rfl
@[simp] theorem modAccount_ports (b : State) (a : AccountId) (f : Account → Account) (s : State) : (modAccount b a f s).ports = s.ports := rfl
@[simp] theorem modAccount_levels (b : State) (a : AccountId) (f : Account → Account) (s : State) : (modAccount b a f s).levels = s.levels := rfl
@[simp] theorem modAccount_thresholds (b : State) (a : AccountId) (f : Account → Account) (s : State) : (modAccount b a f s).thresholds = s.thresholds := rfl
@[simp] theorem modAccount_heldNotices (b : State) (a : AccountId) (f : Account → Account) (s : State) : (modAccount b a f s).heldNotices = s.heldNotices := rfl
@[simp] theorem modAccount_pending (b : State) (a : AccountId) (f : Account → Account) (s : State) : (modAccount b a f s).pending = s.pending := rfl

/-! ### putBerth -/

@[simp] theorem putBerth_device (b : State) (n : BerthId) (x : Berth) (s : State) : (putBerth b n x s).device = s.device := rfl
@[simp] theorem putBerth_stopped (b : State) (n : BerthId) (x : Berth) (s : State) : (putBerth b n x s).stopped = s.stopped := rfl
@[simp] theorem putBerth_mainsOk (b : State) (n : BerthId) (x : Berth) (s : State) : (putBerth b n x s).mainsOk = s.mainsOk := rfl
@[simp] theorem putBerth_valid (b : State) (n : BerthId) (x : Berth) (s : State) : (putBerth b n x s).valid = s.valid := rfl
@[simp] theorem putBerth_image (b : State) (n : BerthId) (x : Berth) (s : State) : (putBerth b n x s).image = s.image := rfl
@[simp] theorem putBerth_save (b : State) (n : BerthId) (x : Berth) (s : State) : (putBerth b n x s).save = s.save := rfl
@[simp] theorem putBerth_clock (b : State) (n : BerthId) (x : Berth) (s : State) : (putBerth b n x s).clock = s.clock := rfl
@[simp] theorem putBerth_clockSet (b : State) (n : BerthId) (x : Berth) (s : State) : (putBerth b n x s).clockSet = s.clockSet := rfl
@[simp] theorem putBerth_lastRollover (b : State) (n : BerthId) (x : Berth) (s : State) : (putBerth b n x s).lastRollover = s.lastRollover := rfl
@[simp] theorem putBerth_rollover (b : State) (n : BerthId) (x : Berth) (s : State) : (putBerth b n x s).rollover = s.rollover := rfl
@[simp] theorem putBerth_rolloverPending (b : State) (n : BerthId) (x : Berth) (s : State) : (putBerth b n x s).rolloverPending = s.rolloverPending := rfl
@[simp] theorem putBerth_site (b : State) (n : BerthId) (x : Berth) (s : State) : (putBerth b n x s).site = s.site := rfl
@[simp] theorem putBerth_classes (b : State) (n : BerthId) (x : Berth) (s : State) : (putBerth b n x s).classes = s.classes := rfl
@[simp] theorem putBerth_rates (b : State) (n : BerthId) (x : Berth) (s : State) : (putBerth b n x s).rates = s.rates := rfl
@[simp] theorem putBerth_bands (b : State) (n : BerthId) (x : Berth) (s : State) : (putBerth b n x s).bands = s.bands := rfl
@[simp] theorem putBerth_accounts (b : State) (n : BerthId) (x : Berth) (s : State) : (putBerth b n x s).accounts = s.accounts := rfl
@[simp] theorem putBerth_berths (b : State) (n : BerthId) (x : Berth) (s : State) :
    (putBerth b n x s).berths = s.berths.put n ((b.berth n).settled x) := rfl
@[simp] theorem putBerth_pedestals (b : State) (n : BerthId) (x : Berth) (s : State) : (putBerth b n x s).pedestals = s.pedestals := rfl
@[simp] theorem putBerth_segments (b : State) (n : BerthId) (x : Berth) (s : State) : (putBerth b n x s).segments = s.segments := rfl
@[simp] theorem putBerth_power (b : State) (n : BerthId) (x : Berth) (s : State) : (putBerth b n x s).power = s.power := rfl
@[simp] theorem putBerth_water (b : State) (n : BerthId) (x : Berth) (s : State) : (putBerth b n x s).water = s.water := rfl
@[simp] theorem putBerth_feeders (b : State) (n : BerthId) (x : Berth) (s : State) : (putBerth b n x s).feeders = s.feeders := rfl
@[simp] theorem putBerth_grantCount (b : State) (n : BerthId) (x : Berth) (s : State) : (putBerth b n x s).grantCount = s.grantCount := rfl
@[simp] theorem putBerth_pumps (b : State) (n : BerthId) (x : Berth) (s : State) : (putBerth b n x s).pumps = s.pumps := rfl
@[simp] theorem putBerth_tanks (b : State) (n : BerthId) (x : Berth) (s : State) : (putBerth b n x s).tanks = s.tanks := rfl
@[simp] theorem putBerth_saleCounter (b : State) (n : BerthId) (x : Berth) (s : State) : (putBerth b n x s).saleCounter = s.saleCounter := rfl
@[simp] theorem putBerth_saleLog (b : State) (n : BerthId) (x : Berth) (s : State) : (putBerth b n x s).saleLog = s.saleLog := rfl
@[simp] theorem putBerth_pumpLine (b : State) (n : BerthId) (x : Berth) (s : State) : (putBerth b n x s).pumpLine = s.pumpLine := rfl
@[simp] theorem putBerth_readers (b : State) (n : BerthId) (x : Berth) (s : State) : (putBerth b n x s).readers = s.readers := rfl
@[simp] theorem putBerth_formats (b : State) (n : BerthId) (x : Berth) (s : State) : (putBerth b n x s).formats = s.formats := rfl
@[simp] theorem putBerth_access (b : State) (n : BerthId) (x : Berth) (s : State) : (putBerth b n x s).access = s.access := rfl
@[simp] theorem putBerth_gates (b : State) (n : BerthId) (x : Berth) (s : State) : (putBerth b n x s).gates = s.gates := rfl
@[simp] theorem putBerth_creds (b : State) (n : BerthId) (x : Berth) (s : State) : (putBerth b n x s).creds = s.creds := rfl
@[simp] theorem putBerth_passages (b : State) (n : BerthId) (x : Berth) (s : State) : (putBerth b n x s).passages = s.passages := rfl
@[simp] theorem putBerth_ports (b : State) (n : BerthId) (x : Berth) (s : State) : (putBerth b n x s).ports = s.ports := rfl
@[simp] theorem putBerth_levels (b : State) (n : BerthId) (x : Berth) (s : State) : (putBerth b n x s).levels = s.levels := rfl
@[simp] theorem putBerth_thresholds (b : State) (n : BerthId) (x : Berth) (s : State) : (putBerth b n x s).thresholds = s.thresholds := rfl
@[simp] theorem putBerth_heldNotices (b : State) (n : BerthId) (x : Berth) (s : State) : (putBerth b n x s).heldNotices = s.heldNotices := rfl
@[simp] theorem putBerth_pending (b : State) (n : BerthId) (x : Berth) (s : State) : (putBerth b n x s).pending = s.pending := rfl

/-! ### putPedestal -/

@[simp] theorem putPedestal_device (b : State) (n : PedestalId) (x : Pedestal) (s : State) : (putPedestal b n x s).device = s.device := rfl
@[simp] theorem putPedestal_stopped (b : State) (n : PedestalId) (x : Pedestal) (s : State) : (putPedestal b n x s).stopped = s.stopped := rfl
@[simp] theorem putPedestal_mainsOk (b : State) (n : PedestalId) (x : Pedestal) (s : State) : (putPedestal b n x s).mainsOk = s.mainsOk := rfl
@[simp] theorem putPedestal_valid (b : State) (n : PedestalId) (x : Pedestal) (s : State) : (putPedestal b n x s).valid = s.valid := rfl
@[simp] theorem putPedestal_image (b : State) (n : PedestalId) (x : Pedestal) (s : State) : (putPedestal b n x s).image = s.image := rfl
@[simp] theorem putPedestal_save (b : State) (n : PedestalId) (x : Pedestal) (s : State) : (putPedestal b n x s).save = s.save := rfl
@[simp] theorem putPedestal_clock (b : State) (n : PedestalId) (x : Pedestal) (s : State) : (putPedestal b n x s).clock = s.clock := rfl
@[simp] theorem putPedestal_clockSet (b : State) (n : PedestalId) (x : Pedestal) (s : State) : (putPedestal b n x s).clockSet = s.clockSet := rfl
@[simp] theorem putPedestal_lastRollover (b : State) (n : PedestalId) (x : Pedestal) (s : State) : (putPedestal b n x s).lastRollover = s.lastRollover := rfl
@[simp] theorem putPedestal_rollover (b : State) (n : PedestalId) (x : Pedestal) (s : State) : (putPedestal b n x s).rollover = s.rollover := rfl
@[simp] theorem putPedestal_rolloverPending (b : State) (n : PedestalId) (x : Pedestal) (s : State) : (putPedestal b n x s).rolloverPending = s.rolloverPending := rfl
@[simp] theorem putPedestal_site (b : State) (n : PedestalId) (x : Pedestal) (s : State) : (putPedestal b n x s).site = s.site := rfl
@[simp] theorem putPedestal_classes (b : State) (n : PedestalId) (x : Pedestal) (s : State) : (putPedestal b n x s).classes = s.classes := rfl
@[simp] theorem putPedestal_rates (b : State) (n : PedestalId) (x : Pedestal) (s : State) : (putPedestal b n x s).rates = s.rates := rfl
@[simp] theorem putPedestal_bands (b : State) (n : PedestalId) (x : Pedestal) (s : State) : (putPedestal b n x s).bands = s.bands := rfl
@[simp] theorem putPedestal_accounts (b : State) (n : PedestalId) (x : Pedestal) (s : State) : (putPedestal b n x s).accounts = s.accounts := rfl
@[simp] theorem putPedestal_berths (b : State) (n : PedestalId) (x : Pedestal) (s : State) : (putPedestal b n x s).berths = s.berths := rfl
@[simp] theorem putPedestal_pedestals (b : State) (n : PedestalId) (x : Pedestal) (s : State) :
    (putPedestal b n x s).pedestals = s.pedestals.put n ((b.pedestal n).settled x) := rfl
@[simp] theorem putPedestal_segments (b : State) (n : PedestalId) (x : Pedestal) (s : State) : (putPedestal b n x s).segments = s.segments := rfl
@[simp] theorem putPedestal_power (b : State) (n : PedestalId) (x : Pedestal) (s : State) : (putPedestal b n x s).power = s.power := rfl
@[simp] theorem putPedestal_water (b : State) (n : PedestalId) (x : Pedestal) (s : State) : (putPedestal b n x s).water = s.water := rfl
@[simp] theorem putPedestal_feeders (b : State) (n : PedestalId) (x : Pedestal) (s : State) : (putPedestal b n x s).feeders = s.feeders := rfl
@[simp] theorem putPedestal_grantCount (b : State) (n : PedestalId) (x : Pedestal) (s : State) : (putPedestal b n x s).grantCount = s.grantCount := rfl
@[simp] theorem putPedestal_pumps (b : State) (n : PedestalId) (x : Pedestal) (s : State) : (putPedestal b n x s).pumps = s.pumps := rfl
@[simp] theorem putPedestal_tanks (b : State) (n : PedestalId) (x : Pedestal) (s : State) : (putPedestal b n x s).tanks = s.tanks := rfl
@[simp] theorem putPedestal_saleCounter (b : State) (n : PedestalId) (x : Pedestal) (s : State) : (putPedestal b n x s).saleCounter = s.saleCounter := rfl
@[simp] theorem putPedestal_saleLog (b : State) (n : PedestalId) (x : Pedestal) (s : State) : (putPedestal b n x s).saleLog = s.saleLog := rfl
@[simp] theorem putPedestal_pumpLine (b : State) (n : PedestalId) (x : Pedestal) (s : State) : (putPedestal b n x s).pumpLine = s.pumpLine := rfl
@[simp] theorem putPedestal_readers (b : State) (n : PedestalId) (x : Pedestal) (s : State) : (putPedestal b n x s).readers = s.readers := rfl
@[simp] theorem putPedestal_formats (b : State) (n : PedestalId) (x : Pedestal) (s : State) : (putPedestal b n x s).formats = s.formats := rfl
@[simp] theorem putPedestal_access (b : State) (n : PedestalId) (x : Pedestal) (s : State) : (putPedestal b n x s).access = s.access := rfl
@[simp] theorem putPedestal_gates (b : State) (n : PedestalId) (x : Pedestal) (s : State) : (putPedestal b n x s).gates = s.gates := rfl
@[simp] theorem putPedestal_creds (b : State) (n : PedestalId) (x : Pedestal) (s : State) : (putPedestal b n x s).creds = s.creds := rfl
@[simp] theorem putPedestal_passages (b : State) (n : PedestalId) (x : Pedestal) (s : State) : (putPedestal b n x s).passages = s.passages := rfl
@[simp] theorem putPedestal_ports (b : State) (n : PedestalId) (x : Pedestal) (s : State) : (putPedestal b n x s).ports = s.ports := rfl
@[simp] theorem putPedestal_levels (b : State) (n : PedestalId) (x : Pedestal) (s : State) : (putPedestal b n x s).levels = s.levels := rfl
@[simp] theorem putPedestal_thresholds (b : State) (n : PedestalId) (x : Pedestal) (s : State) : (putPedestal b n x s).thresholds = s.thresholds := rfl
@[simp] theorem putPedestal_heldNotices (b : State) (n : PedestalId) (x : Pedestal) (s : State) : (putPedestal b n x s).heldNotices = s.heldNotices := rfl
@[simp] theorem putPedestal_pending (b : State) (n : PedestalId) (x : Pedestal) (s : State) : (putPedestal b n x s).pending = s.pending := rfl

/-! ### modPedestal -/

@[simp] theorem modPedestal_device (b : State) (n : PedestalId) (f : Pedestal → Pedestal) (s : State) : (modPedestal b n f s).device = s.device := rfl
@[simp] theorem modPedestal_stopped (b : State) (n : PedestalId) (f : Pedestal → Pedestal) (s : State) : (modPedestal b n f s).stopped = s.stopped := rfl
@[simp] theorem modPedestal_mainsOk (b : State) (n : PedestalId) (f : Pedestal → Pedestal) (s : State) : (modPedestal b n f s).mainsOk = s.mainsOk := rfl
@[simp] theorem modPedestal_valid (b : State) (n : PedestalId) (f : Pedestal → Pedestal) (s : State) : (modPedestal b n f s).valid = s.valid := rfl
@[simp] theorem modPedestal_image (b : State) (n : PedestalId) (f : Pedestal → Pedestal) (s : State) : (modPedestal b n f s).image = s.image := rfl
@[simp] theorem modPedestal_save (b : State) (n : PedestalId) (f : Pedestal → Pedestal) (s : State) : (modPedestal b n f s).save = s.save := rfl
@[simp] theorem modPedestal_clock (b : State) (n : PedestalId) (f : Pedestal → Pedestal) (s : State) : (modPedestal b n f s).clock = s.clock := rfl
@[simp] theorem modPedestal_clockSet (b : State) (n : PedestalId) (f : Pedestal → Pedestal) (s : State) : (modPedestal b n f s).clockSet = s.clockSet := rfl
@[simp] theorem modPedestal_lastRollover (b : State) (n : PedestalId) (f : Pedestal → Pedestal) (s : State) : (modPedestal b n f s).lastRollover = s.lastRollover := rfl
@[simp] theorem modPedestal_rollover (b : State) (n : PedestalId) (f : Pedestal → Pedestal) (s : State) : (modPedestal b n f s).rollover = s.rollover := rfl
@[simp] theorem modPedestal_rolloverPending (b : State) (n : PedestalId) (f : Pedestal → Pedestal) (s : State) : (modPedestal b n f s).rolloverPending = s.rolloverPending := rfl
@[simp] theorem modPedestal_site (b : State) (n : PedestalId) (f : Pedestal → Pedestal) (s : State) : (modPedestal b n f s).site = s.site := rfl
@[simp] theorem modPedestal_classes (b : State) (n : PedestalId) (f : Pedestal → Pedestal) (s : State) : (modPedestal b n f s).classes = s.classes := rfl
@[simp] theorem modPedestal_rates (b : State) (n : PedestalId) (f : Pedestal → Pedestal) (s : State) : (modPedestal b n f s).rates = s.rates := rfl
@[simp] theorem modPedestal_bands (b : State) (n : PedestalId) (f : Pedestal → Pedestal) (s : State) : (modPedestal b n f s).bands = s.bands := rfl
@[simp] theorem modPedestal_accounts (b : State) (n : PedestalId) (f : Pedestal → Pedestal) (s : State) : (modPedestal b n f s).accounts = s.accounts := rfl
@[simp] theorem modPedestal_berths (b : State) (n : PedestalId) (f : Pedestal → Pedestal) (s : State) : (modPedestal b n f s).berths = s.berths := rfl
@[simp] theorem modPedestal_pedestals (b : State) (n : PedestalId) (f : Pedestal → Pedestal) (s : State) :
    (modPedestal b n f s).pedestals = s.pedestals.put n ((b.pedestal n).settled (f (s.pedestal n))) := rfl
@[simp] theorem modPedestal_segments (b : State) (n : PedestalId) (f : Pedestal → Pedestal) (s : State) : (modPedestal b n f s).segments = s.segments := rfl
@[simp] theorem modPedestal_power (b : State) (n : PedestalId) (f : Pedestal → Pedestal) (s : State) : (modPedestal b n f s).power = s.power := rfl
@[simp] theorem modPedestal_water (b : State) (n : PedestalId) (f : Pedestal → Pedestal) (s : State) : (modPedestal b n f s).water = s.water := rfl
@[simp] theorem modPedestal_feeders (b : State) (n : PedestalId) (f : Pedestal → Pedestal) (s : State) : (modPedestal b n f s).feeders = s.feeders := rfl
@[simp] theorem modPedestal_grantCount (b : State) (n : PedestalId) (f : Pedestal → Pedestal) (s : State) : (modPedestal b n f s).grantCount = s.grantCount := rfl
@[simp] theorem modPedestal_pumps (b : State) (n : PedestalId) (f : Pedestal → Pedestal) (s : State) : (modPedestal b n f s).pumps = s.pumps := rfl
@[simp] theorem modPedestal_tanks (b : State) (n : PedestalId) (f : Pedestal → Pedestal) (s : State) : (modPedestal b n f s).tanks = s.tanks := rfl
@[simp] theorem modPedestal_saleCounter (b : State) (n : PedestalId) (f : Pedestal → Pedestal) (s : State) : (modPedestal b n f s).saleCounter = s.saleCounter := rfl
@[simp] theorem modPedestal_saleLog (b : State) (n : PedestalId) (f : Pedestal → Pedestal) (s : State) : (modPedestal b n f s).saleLog = s.saleLog := rfl
@[simp] theorem modPedestal_pumpLine (b : State) (n : PedestalId) (f : Pedestal → Pedestal) (s : State) : (modPedestal b n f s).pumpLine = s.pumpLine := rfl
@[simp] theorem modPedestal_readers (b : State) (n : PedestalId) (f : Pedestal → Pedestal) (s : State) : (modPedestal b n f s).readers = s.readers := rfl
@[simp] theorem modPedestal_formats (b : State) (n : PedestalId) (f : Pedestal → Pedestal) (s : State) : (modPedestal b n f s).formats = s.formats := rfl
@[simp] theorem modPedestal_access (b : State) (n : PedestalId) (f : Pedestal → Pedestal) (s : State) : (modPedestal b n f s).access = s.access := rfl
@[simp] theorem modPedestal_gates (b : State) (n : PedestalId) (f : Pedestal → Pedestal) (s : State) : (modPedestal b n f s).gates = s.gates := rfl
@[simp] theorem modPedestal_creds (b : State) (n : PedestalId) (f : Pedestal → Pedestal) (s : State) : (modPedestal b n f s).creds = s.creds := rfl
@[simp] theorem modPedestal_passages (b : State) (n : PedestalId) (f : Pedestal → Pedestal) (s : State) : (modPedestal b n f s).passages = s.passages := rfl
@[simp] theorem modPedestal_ports (b : State) (n : PedestalId) (f : Pedestal → Pedestal) (s : State) : (modPedestal b n f s).ports = s.ports := rfl
@[simp] theorem modPedestal_levels (b : State) (n : PedestalId) (f : Pedestal → Pedestal) (s : State) : (modPedestal b n f s).levels = s.levels := rfl
@[simp] theorem modPedestal_thresholds (b : State) (n : PedestalId) (f : Pedestal → Pedestal) (s : State) : (modPedestal b n f s).thresholds = s.thresholds := rfl
@[simp] theorem modPedestal_heldNotices (b : State) (n : PedestalId) (f : Pedestal → Pedestal) (s : State) : (modPedestal b n f s).heldNotices = s.heldNotices := rfl
@[simp] theorem modPedestal_pending (b : State) (n : PedestalId) (f : Pedestal → Pedestal) (s : State) : (modPedestal b n f s).pending = s.pending := rfl

/-! ### strayPedestal -/

@[simp] theorem strayPedestal_device (b : State) (n : PedestalId) (q : Nat) (f : Pedestal → Pedestal) (s : State) : (strayPedestal b n q f s).device = s.device := rfl
@[simp] theorem strayPedestal_stopped (b : State) (n : PedestalId) (q : Nat) (f : Pedestal → Pedestal) (s : State) : (strayPedestal b n q f s).stopped = s.stopped := rfl
@[simp] theorem strayPedestal_mainsOk (b : State) (n : PedestalId) (q : Nat) (f : Pedestal → Pedestal) (s : State) : (strayPedestal b n q f s).mainsOk = s.mainsOk := rfl
@[simp] theorem strayPedestal_valid (b : State) (n : PedestalId) (q : Nat) (f : Pedestal → Pedestal) (s : State) : (strayPedestal b n q f s).valid = s.valid := rfl
@[simp] theorem strayPedestal_image (b : State) (n : PedestalId) (q : Nat) (f : Pedestal → Pedestal) (s : State) : (strayPedestal b n q f s).image = s.image := rfl
@[simp] theorem strayPedestal_save (b : State) (n : PedestalId) (q : Nat) (f : Pedestal → Pedestal) (s : State) : (strayPedestal b n q f s).save = s.save := rfl
@[simp] theorem strayPedestal_clock (b : State) (n : PedestalId) (q : Nat) (f : Pedestal → Pedestal) (s : State) : (strayPedestal b n q f s).clock = s.clock := rfl
@[simp] theorem strayPedestal_clockSet (b : State) (n : PedestalId) (q : Nat) (f : Pedestal → Pedestal) (s : State) : (strayPedestal b n q f s).clockSet = s.clockSet := rfl
@[simp] theorem strayPedestal_lastRollover (b : State) (n : PedestalId) (q : Nat) (f : Pedestal → Pedestal) (s : State) : (strayPedestal b n q f s).lastRollover = s.lastRollover := rfl
@[simp] theorem strayPedestal_rollover (b : State) (n : PedestalId) (q : Nat) (f : Pedestal → Pedestal) (s : State) : (strayPedestal b n q f s).rollover = s.rollover := rfl
@[simp] theorem strayPedestal_rolloverPending (b : State) (n : PedestalId) (q : Nat) (f : Pedestal → Pedestal) (s : State) : (strayPedestal b n q f s).rolloverPending = s.rolloverPending := rfl
@[simp] theorem strayPedestal_site (b : State) (n : PedestalId) (q : Nat) (f : Pedestal → Pedestal) (s : State) : (strayPedestal b n q f s).site = s.site := rfl
@[simp] theorem strayPedestal_classes (b : State) (n : PedestalId) (q : Nat) (f : Pedestal → Pedestal) (s : State) : (strayPedestal b n q f s).classes = s.classes := rfl
@[simp] theorem strayPedestal_rates (b : State) (n : PedestalId) (q : Nat) (f : Pedestal → Pedestal) (s : State) : (strayPedestal b n q f s).rates = s.rates := rfl
@[simp] theorem strayPedestal_bands (b : State) (n : PedestalId) (q : Nat) (f : Pedestal → Pedestal) (s : State) : (strayPedestal b n q f s).bands = s.bands := rfl
@[simp] theorem strayPedestal_accounts (b : State) (n : PedestalId) (q : Nat) (f : Pedestal → Pedestal) (s : State) : (strayPedestal b n q f s).accounts = s.accounts := rfl
@[simp] theorem strayPedestal_berths (b : State) (n : PedestalId) (q : Nat) (f : Pedestal → Pedestal) (s : State) : (strayPedestal b n q f s).berths = s.berths := rfl
@[simp] theorem strayPedestal_pedestals (b : State) (n : PedestalId) (q : Nat) (f : Pedestal → Pedestal) (s : State) :
    (strayPedestal b n q f s).pedestals = s.pedestals.put n
      { f (s.pedestal n) with edition := editionAfter (b.pedestal n).edition (q = 0) } := rfl
@[simp] theorem strayPedestal_segments (b : State) (n : PedestalId) (q : Nat) (f : Pedestal → Pedestal) (s : State) : (strayPedestal b n q f s).segments = s.segments := rfl
@[simp] theorem strayPedestal_power (b : State) (n : PedestalId) (q : Nat) (f : Pedestal → Pedestal) (s : State) : (strayPedestal b n q f s).power = s.power := rfl
@[simp] theorem strayPedestal_water (b : State) (n : PedestalId) (q : Nat) (f : Pedestal → Pedestal) (s : State) : (strayPedestal b n q f s).water = s.water := rfl
@[simp] theorem strayPedestal_feeders (b : State) (n : PedestalId) (q : Nat) (f : Pedestal → Pedestal) (s : State) : (strayPedestal b n q f s).feeders = s.feeders := rfl
@[simp] theorem strayPedestal_grantCount (b : State) (n : PedestalId) (q : Nat) (f : Pedestal → Pedestal) (s : State) : (strayPedestal b n q f s).grantCount = s.grantCount := rfl
@[simp] theorem strayPedestal_pumps (b : State) (n : PedestalId) (q : Nat) (f : Pedestal → Pedestal) (s : State) : (strayPedestal b n q f s).pumps = s.pumps := rfl
@[simp] theorem strayPedestal_tanks (b : State) (n : PedestalId) (q : Nat) (f : Pedestal → Pedestal) (s : State) : (strayPedestal b n q f s).tanks = s.tanks := rfl
@[simp] theorem strayPedestal_saleCounter (b : State) (n : PedestalId) (q : Nat) (f : Pedestal → Pedestal) (s : State) : (strayPedestal b n q f s).saleCounter = s.saleCounter := rfl
@[simp] theorem strayPedestal_saleLog (b : State) (n : PedestalId) (q : Nat) (f : Pedestal → Pedestal) (s : State) : (strayPedestal b n q f s).saleLog = s.saleLog := rfl
@[simp] theorem strayPedestal_pumpLine (b : State) (n : PedestalId) (q : Nat) (f : Pedestal → Pedestal) (s : State) : (strayPedestal b n q f s).pumpLine = s.pumpLine := rfl
@[simp] theorem strayPedestal_readers (b : State) (n : PedestalId) (q : Nat) (f : Pedestal → Pedestal) (s : State) : (strayPedestal b n q f s).readers = s.readers := rfl
@[simp] theorem strayPedestal_formats (b : State) (n : PedestalId) (q : Nat) (f : Pedestal → Pedestal) (s : State) : (strayPedestal b n q f s).formats = s.formats := rfl
@[simp] theorem strayPedestal_access (b : State) (n : PedestalId) (q : Nat) (f : Pedestal → Pedestal) (s : State) : (strayPedestal b n q f s).access = s.access := rfl
@[simp] theorem strayPedestal_gates (b : State) (n : PedestalId) (q : Nat) (f : Pedestal → Pedestal) (s : State) : (strayPedestal b n q f s).gates = s.gates := rfl
@[simp] theorem strayPedestal_creds (b : State) (n : PedestalId) (q : Nat) (f : Pedestal → Pedestal) (s : State) : (strayPedestal b n q f s).creds = s.creds := rfl
@[simp] theorem strayPedestal_passages (b : State) (n : PedestalId) (q : Nat) (f : Pedestal → Pedestal) (s : State) : (strayPedestal b n q f s).passages = s.passages := rfl
@[simp] theorem strayPedestal_ports (b : State) (n : PedestalId) (q : Nat) (f : Pedestal → Pedestal) (s : State) : (strayPedestal b n q f s).ports = s.ports := rfl
@[simp] theorem strayPedestal_levels (b : State) (n : PedestalId) (q : Nat) (f : Pedestal → Pedestal) (s : State) : (strayPedestal b n q f s).levels = s.levels := rfl
@[simp] theorem strayPedestal_thresholds (b : State) (n : PedestalId) (q : Nat) (f : Pedestal → Pedestal) (s : State) : (strayPedestal b n q f s).thresholds = s.thresholds := rfl
@[simp] theorem strayPedestal_heldNotices (b : State) (n : PedestalId) (q : Nat) (f : Pedestal → Pedestal) (s : State) : (strayPedestal b n q f s).heldNotices = s.heldNotices := rfl
@[simp] theorem strayPedestal_pending (b : State) (n : PedestalId) (q : Nat) (f : Pedestal → Pedestal) (s : State) : (strayPedestal b n q f s).pending = s.pending := rfl

/-! ### putSegment -/

@[simp] theorem putSegment_device (g : SegmentId) (x : Segment) (s : State) : (putSegment g x s).device = s.device := rfl
@[simp] theorem putSegment_stopped (g : SegmentId) (x : Segment) (s : State) : (putSegment g x s).stopped = s.stopped := rfl
@[simp] theorem putSegment_mainsOk (g : SegmentId) (x : Segment) (s : State) : (putSegment g x s).mainsOk = s.mainsOk := rfl
@[simp] theorem putSegment_valid (g : SegmentId) (x : Segment) (s : State) : (putSegment g x s).valid = s.valid := rfl
@[simp] theorem putSegment_image (g : SegmentId) (x : Segment) (s : State) : (putSegment g x s).image = s.image := rfl
@[simp] theorem putSegment_save (g : SegmentId) (x : Segment) (s : State) : (putSegment g x s).save = s.save := rfl
@[simp] theorem putSegment_clock (g : SegmentId) (x : Segment) (s : State) : (putSegment g x s).clock = s.clock := rfl
@[simp] theorem putSegment_clockSet (g : SegmentId) (x : Segment) (s : State) : (putSegment g x s).clockSet = s.clockSet := rfl
@[simp] theorem putSegment_lastRollover (g : SegmentId) (x : Segment) (s : State) : (putSegment g x s).lastRollover = s.lastRollover := rfl
@[simp] theorem putSegment_rollover (g : SegmentId) (x : Segment) (s : State) : (putSegment g x s).rollover = s.rollover := rfl
@[simp] theorem putSegment_rolloverPending (g : SegmentId) (x : Segment) (s : State) : (putSegment g x s).rolloverPending = s.rolloverPending := rfl
@[simp] theorem putSegment_site (g : SegmentId) (x : Segment) (s : State) : (putSegment g x s).site = s.site := rfl
@[simp] theorem putSegment_classes (g : SegmentId) (x : Segment) (s : State) : (putSegment g x s).classes = s.classes := rfl
@[simp] theorem putSegment_rates (g : SegmentId) (x : Segment) (s : State) : (putSegment g x s).rates = s.rates := rfl
@[simp] theorem putSegment_bands (g : SegmentId) (x : Segment) (s : State) : (putSegment g x s).bands = s.bands := rfl
@[simp] theorem putSegment_accounts (g : SegmentId) (x : Segment) (s : State) : (putSegment g x s).accounts = s.accounts := rfl
@[simp] theorem putSegment_berths (g : SegmentId) (x : Segment) (s : State) : (putSegment g x s).berths = s.berths := rfl
@[simp] theorem putSegment_pedestals (g : SegmentId) (x : Segment) (s : State) : (putSegment g x s).pedestals = s.pedestals := rfl
@[simp] theorem putSegment_segments (g : SegmentId) (x : Segment) (s : State) :
    (putSegment g x s).segments = s.segments.put g x := rfl
@[simp] theorem putSegment_power (g : SegmentId) (x : Segment) (s : State) : (putSegment g x s).power = s.power := rfl
@[simp] theorem putSegment_water (g : SegmentId) (x : Segment) (s : State) : (putSegment g x s).water = s.water := rfl
@[simp] theorem putSegment_feeders (g : SegmentId) (x : Segment) (s : State) : (putSegment g x s).feeders = s.feeders := rfl
@[simp] theorem putSegment_grantCount (g : SegmentId) (x : Segment) (s : State) : (putSegment g x s).grantCount = s.grantCount := rfl
@[simp] theorem putSegment_pumps (g : SegmentId) (x : Segment) (s : State) : (putSegment g x s).pumps = s.pumps := rfl
@[simp] theorem putSegment_tanks (g : SegmentId) (x : Segment) (s : State) : (putSegment g x s).tanks = s.tanks := rfl
@[simp] theorem putSegment_saleCounter (g : SegmentId) (x : Segment) (s : State) : (putSegment g x s).saleCounter = s.saleCounter := rfl
@[simp] theorem putSegment_saleLog (g : SegmentId) (x : Segment) (s : State) : (putSegment g x s).saleLog = s.saleLog := rfl
@[simp] theorem putSegment_pumpLine (g : SegmentId) (x : Segment) (s : State) : (putSegment g x s).pumpLine = s.pumpLine := rfl
@[simp] theorem putSegment_readers (g : SegmentId) (x : Segment) (s : State) : (putSegment g x s).readers = s.readers := rfl
@[simp] theorem putSegment_formats (g : SegmentId) (x : Segment) (s : State) : (putSegment g x s).formats = s.formats := rfl
@[simp] theorem putSegment_access (g : SegmentId) (x : Segment) (s : State) : (putSegment g x s).access = s.access := rfl
@[simp] theorem putSegment_gates (g : SegmentId) (x : Segment) (s : State) : (putSegment g x s).gates = s.gates := rfl
@[simp] theorem putSegment_creds (g : SegmentId) (x : Segment) (s : State) : (putSegment g x s).creds = s.creds := rfl
@[simp] theorem putSegment_passages (g : SegmentId) (x : Segment) (s : State) : (putSegment g x s).passages = s.passages := rfl
@[simp] theorem putSegment_ports (g : SegmentId) (x : Segment) (s : State) : (putSegment g x s).ports = s.ports := rfl
@[simp] theorem putSegment_levels (g : SegmentId) (x : Segment) (s : State) : (putSegment g x s).levels = s.levels := rfl
@[simp] theorem putSegment_thresholds (g : SegmentId) (x : Segment) (s : State) : (putSegment g x s).thresholds = s.thresholds := rfl
@[simp] theorem putSegment_heldNotices (g : SegmentId) (x : Segment) (s : State) : (putSegment g x s).heldNotices = s.heldNotices := rfl
@[simp] theorem putSegment_pending (g : SegmentId) (x : Segment) (s : State) : (putSegment g x s).pending = s.pending := rfl

/-! ### putFeeder -/

@[simp] theorem putFeeder_device (b : State) (f : FeederId) (x : Feeder) (s : State) : (putFeeder b f x s).device = s.device := rfl
@[simp] theorem putFeeder_stopped (b : State) (f : FeederId) (x : Feeder) (s : State) : (putFeeder b f x s).stopped = s.stopped := rfl
@[simp] theorem putFeeder_mainsOk (b : State) (f : FeederId) (x : Feeder) (s : State) : (putFeeder b f x s).mainsOk = s.mainsOk := rfl
@[simp] theorem putFeeder_valid (b : State) (f : FeederId) (x : Feeder) (s : State) : (putFeeder b f x s).valid = s.valid := rfl
@[simp] theorem putFeeder_image (b : State) (f : FeederId) (x : Feeder) (s : State) : (putFeeder b f x s).image = s.image := rfl
@[simp] theorem putFeeder_save (b : State) (f : FeederId) (x : Feeder) (s : State) : (putFeeder b f x s).save = s.save := rfl
@[simp] theorem putFeeder_clock (b : State) (f : FeederId) (x : Feeder) (s : State) : (putFeeder b f x s).clock = s.clock := rfl
@[simp] theorem putFeeder_clockSet (b : State) (f : FeederId) (x : Feeder) (s : State) : (putFeeder b f x s).clockSet = s.clockSet := rfl
@[simp] theorem putFeeder_lastRollover (b : State) (f : FeederId) (x : Feeder) (s : State) : (putFeeder b f x s).lastRollover = s.lastRollover := rfl
@[simp] theorem putFeeder_rollover (b : State) (f : FeederId) (x : Feeder) (s : State) : (putFeeder b f x s).rollover = s.rollover := rfl
@[simp] theorem putFeeder_rolloverPending (b : State) (f : FeederId) (x : Feeder) (s : State) : (putFeeder b f x s).rolloverPending = s.rolloverPending := rfl
@[simp] theorem putFeeder_site (b : State) (f : FeederId) (x : Feeder) (s : State) : (putFeeder b f x s).site = s.site := rfl
@[simp] theorem putFeeder_classes (b : State) (f : FeederId) (x : Feeder) (s : State) : (putFeeder b f x s).classes = s.classes := rfl
@[simp] theorem putFeeder_rates (b : State) (f : FeederId) (x : Feeder) (s : State) : (putFeeder b f x s).rates = s.rates := rfl
@[simp] theorem putFeeder_bands (b : State) (f : FeederId) (x : Feeder) (s : State) : (putFeeder b f x s).bands = s.bands := rfl
@[simp] theorem putFeeder_accounts (b : State) (f : FeederId) (x : Feeder) (s : State) : (putFeeder b f x s).accounts = s.accounts := rfl
@[simp] theorem putFeeder_berths (b : State) (f : FeederId) (x : Feeder) (s : State) : (putFeeder b f x s).berths = s.berths := rfl
@[simp] theorem putFeeder_pedestals (b : State) (f : FeederId) (x : Feeder) (s : State) : (putFeeder b f x s).pedestals = s.pedestals := rfl
@[simp] theorem putFeeder_segments (b : State) (f : FeederId) (x : Feeder) (s : State) : (putFeeder b f x s).segments = s.segments := rfl
@[simp] theorem putFeeder_power (b : State) (f : FeederId) (x : Feeder) (s : State) : (putFeeder b f x s).power = s.power := rfl
@[simp] theorem putFeeder_water (b : State) (f : FeederId) (x : Feeder) (s : State) : (putFeeder b f x s).water = s.water := rfl
@[simp] theorem putFeeder_feeders (b : State) (f : FeederId) (x : Feeder) (s : State) :
    (putFeeder b f x s).feeders = s.feeders.put f ((b.feeder f).settled x) := rfl
@[simp] theorem putFeeder_grantCount (b : State) (f : FeederId) (x : Feeder) (s : State) : (putFeeder b f x s).grantCount = s.grantCount := rfl
@[simp] theorem putFeeder_pumps (b : State) (f : FeederId) (x : Feeder) (s : State) : (putFeeder b f x s).pumps = s.pumps := rfl
@[simp] theorem putFeeder_tanks (b : State) (f : FeederId) (x : Feeder) (s : State) : (putFeeder b f x s).tanks = s.tanks := rfl
@[simp] theorem putFeeder_saleCounter (b : State) (f : FeederId) (x : Feeder) (s : State) : (putFeeder b f x s).saleCounter = s.saleCounter := rfl
@[simp] theorem putFeeder_saleLog (b : State) (f : FeederId) (x : Feeder) (s : State) : (putFeeder b f x s).saleLog = s.saleLog := rfl
@[simp] theorem putFeeder_pumpLine (b : State) (f : FeederId) (x : Feeder) (s : State) : (putFeeder b f x s).pumpLine = s.pumpLine := rfl
@[simp] theorem putFeeder_readers (b : State) (f : FeederId) (x : Feeder) (s : State) : (putFeeder b f x s).readers = s.readers := rfl
@[simp] theorem putFeeder_formats (b : State) (f : FeederId) (x : Feeder) (s : State) : (putFeeder b f x s).formats = s.formats := rfl
@[simp] theorem putFeeder_access (b : State) (f : FeederId) (x : Feeder) (s : State) : (putFeeder b f x s).access = s.access := rfl
@[simp] theorem putFeeder_gates (b : State) (f : FeederId) (x : Feeder) (s : State) : (putFeeder b f x s).gates = s.gates := rfl
@[simp] theorem putFeeder_creds (b : State) (f : FeederId) (x : Feeder) (s : State) : (putFeeder b f x s).creds = s.creds := rfl
@[simp] theorem putFeeder_passages (b : State) (f : FeederId) (x : Feeder) (s : State) : (putFeeder b f x s).passages = s.passages := rfl
@[simp] theorem putFeeder_ports (b : State) (f : FeederId) (x : Feeder) (s : State) : (putFeeder b f x s).ports = s.ports := rfl
@[simp] theorem putFeeder_levels (b : State) (f : FeederId) (x : Feeder) (s : State) : (putFeeder b f x s).levels = s.levels := rfl
@[simp] theorem putFeeder_thresholds (b : State) (f : FeederId) (x : Feeder) (s : State) : (putFeeder b f x s).thresholds = s.thresholds := rfl
@[simp] theorem putFeeder_heldNotices (b : State) (f : FeederId) (x : Feeder) (s : State) : (putFeeder b f x s).heldNotices = s.heldNotices := rfl
@[simp] theorem putFeeder_pending (b : State) (f : FeederId) (x : Feeder) (s : State) : (putFeeder b f x s).pending = s.pending := rfl

/-! ### modFeeder -/

@[simp] theorem modFeeder_device (b : State) (f : FeederId) (g : Feeder → Feeder) (s : State) : (modFeeder b f g s).device = s.device := rfl
@[simp] theorem modFeeder_stopped (b : State) (f : FeederId) (g : Feeder → Feeder) (s : State) : (modFeeder b f g s).stopped = s.stopped := rfl
@[simp] theorem modFeeder_mainsOk (b : State) (f : FeederId) (g : Feeder → Feeder) (s : State) : (modFeeder b f g s).mainsOk = s.mainsOk := rfl
@[simp] theorem modFeeder_valid (b : State) (f : FeederId) (g : Feeder → Feeder) (s : State) : (modFeeder b f g s).valid = s.valid := rfl
@[simp] theorem modFeeder_image (b : State) (f : FeederId) (g : Feeder → Feeder) (s : State) : (modFeeder b f g s).image = s.image := rfl
@[simp] theorem modFeeder_save (b : State) (f : FeederId) (g : Feeder → Feeder) (s : State) : (modFeeder b f g s).save = s.save := rfl
@[simp] theorem modFeeder_clock (b : State) (f : FeederId) (g : Feeder → Feeder) (s : State) : (modFeeder b f g s).clock = s.clock := rfl
@[simp] theorem modFeeder_clockSet (b : State) (f : FeederId) (g : Feeder → Feeder) (s : State) : (modFeeder b f g s).clockSet = s.clockSet := rfl
@[simp] theorem modFeeder_lastRollover (b : State) (f : FeederId) (g : Feeder → Feeder) (s : State) : (modFeeder b f g s).lastRollover = s.lastRollover := rfl
@[simp] theorem modFeeder_rollover (b : State) (f : FeederId) (g : Feeder → Feeder) (s : State) : (modFeeder b f g s).rollover = s.rollover := rfl
@[simp] theorem modFeeder_rolloverPending (b : State) (f : FeederId) (g : Feeder → Feeder) (s : State) : (modFeeder b f g s).rolloverPending = s.rolloverPending := rfl
@[simp] theorem modFeeder_site (b : State) (f : FeederId) (g : Feeder → Feeder) (s : State) : (modFeeder b f g s).site = s.site := rfl
@[simp] theorem modFeeder_classes (b : State) (f : FeederId) (g : Feeder → Feeder) (s : State) : (modFeeder b f g s).classes = s.classes := rfl
@[simp] theorem modFeeder_rates (b : State) (f : FeederId) (g : Feeder → Feeder) (s : State) : (modFeeder b f g s).rates = s.rates := rfl
@[simp] theorem modFeeder_bands (b : State) (f : FeederId) (g : Feeder → Feeder) (s : State) : (modFeeder b f g s).bands = s.bands := rfl
@[simp] theorem modFeeder_accounts (b : State) (f : FeederId) (g : Feeder → Feeder) (s : State) : (modFeeder b f g s).accounts = s.accounts := rfl
@[simp] theorem modFeeder_berths (b : State) (f : FeederId) (g : Feeder → Feeder) (s : State) : (modFeeder b f g s).berths = s.berths := rfl
@[simp] theorem modFeeder_pedestals (b : State) (f : FeederId) (g : Feeder → Feeder) (s : State) : (modFeeder b f g s).pedestals = s.pedestals := rfl
@[simp] theorem modFeeder_segments (b : State) (f : FeederId) (g : Feeder → Feeder) (s : State) : (modFeeder b f g s).segments = s.segments := rfl
@[simp] theorem modFeeder_power (b : State) (f : FeederId) (g : Feeder → Feeder) (s : State) : (modFeeder b f g s).power = s.power := rfl
@[simp] theorem modFeeder_water (b : State) (f : FeederId) (g : Feeder → Feeder) (s : State) : (modFeeder b f g s).water = s.water := rfl
@[simp] theorem modFeeder_feeders (b : State) (f : FeederId) (g : Feeder → Feeder) (s : State) :
    (modFeeder b f g s).feeders = s.feeders.put f ((b.feeder f).settled (g (s.feeder f))) := rfl
@[simp] theorem modFeeder_grantCount (b : State) (f : FeederId) (g : Feeder → Feeder) (s : State) : (modFeeder b f g s).grantCount = s.grantCount := rfl
@[simp] theorem modFeeder_pumps (b : State) (f : FeederId) (g : Feeder → Feeder) (s : State) : (modFeeder b f g s).pumps = s.pumps := rfl
@[simp] theorem modFeeder_tanks (b : State) (f : FeederId) (g : Feeder → Feeder) (s : State) : (modFeeder b f g s).tanks = s.tanks := rfl
@[simp] theorem modFeeder_saleCounter (b : State) (f : FeederId) (g : Feeder → Feeder) (s : State) : (modFeeder b f g s).saleCounter = s.saleCounter := rfl
@[simp] theorem modFeeder_saleLog (b : State) (f : FeederId) (g : Feeder → Feeder) (s : State) : (modFeeder b f g s).saleLog = s.saleLog := rfl
@[simp] theorem modFeeder_pumpLine (b : State) (f : FeederId) (g : Feeder → Feeder) (s : State) : (modFeeder b f g s).pumpLine = s.pumpLine := rfl
@[simp] theorem modFeeder_readers (b : State) (f : FeederId) (g : Feeder → Feeder) (s : State) : (modFeeder b f g s).readers = s.readers := rfl
@[simp] theorem modFeeder_formats (b : State) (f : FeederId) (g : Feeder → Feeder) (s : State) : (modFeeder b f g s).formats = s.formats := rfl
@[simp] theorem modFeeder_access (b : State) (f : FeederId) (g : Feeder → Feeder) (s : State) : (modFeeder b f g s).access = s.access := rfl
@[simp] theorem modFeeder_gates (b : State) (f : FeederId) (g : Feeder → Feeder) (s : State) : (modFeeder b f g s).gates = s.gates := rfl
@[simp] theorem modFeeder_creds (b : State) (f : FeederId) (g : Feeder → Feeder) (s : State) : (modFeeder b f g s).creds = s.creds := rfl
@[simp] theorem modFeeder_passages (b : State) (f : FeederId) (g : Feeder → Feeder) (s : State) : (modFeeder b f g s).passages = s.passages := rfl
@[simp] theorem modFeeder_ports (b : State) (f : FeederId) (g : Feeder → Feeder) (s : State) : (modFeeder b f g s).ports = s.ports := rfl
@[simp] theorem modFeeder_levels (b : State) (f : FeederId) (g : Feeder → Feeder) (s : State) : (modFeeder b f g s).levels = s.levels := rfl
@[simp] theorem modFeeder_thresholds (b : State) (f : FeederId) (g : Feeder → Feeder) (s : State) : (modFeeder b f g s).thresholds = s.thresholds := rfl
@[simp] theorem modFeeder_heldNotices (b : State) (f : FeederId) (g : Feeder → Feeder) (s : State) : (modFeeder b f g s).heldNotices = s.heldNotices := rfl
@[simp] theorem modFeeder_pending (b : State) (f : FeederId) (g : Feeder → Feeder) (s : State) : (modFeeder b f g s).pending = s.pending := rfl

/-! ### putPump -/

@[simp] theorem putPump_device (b : State) (p : PumpId) (x : Pump) (s : State) : (putPump b p x s).device = s.device := rfl
@[simp] theorem putPump_stopped (b : State) (p : PumpId) (x : Pump) (s : State) : (putPump b p x s).stopped = s.stopped := rfl
@[simp] theorem putPump_mainsOk (b : State) (p : PumpId) (x : Pump) (s : State) : (putPump b p x s).mainsOk = s.mainsOk := rfl
@[simp] theorem putPump_valid (b : State) (p : PumpId) (x : Pump) (s : State) : (putPump b p x s).valid = s.valid := rfl
@[simp] theorem putPump_image (b : State) (p : PumpId) (x : Pump) (s : State) : (putPump b p x s).image = s.image := rfl
@[simp] theorem putPump_save (b : State) (p : PumpId) (x : Pump) (s : State) : (putPump b p x s).save = s.save := rfl
@[simp] theorem putPump_clock (b : State) (p : PumpId) (x : Pump) (s : State) : (putPump b p x s).clock = s.clock := rfl
@[simp] theorem putPump_clockSet (b : State) (p : PumpId) (x : Pump) (s : State) : (putPump b p x s).clockSet = s.clockSet := rfl
@[simp] theorem putPump_lastRollover (b : State) (p : PumpId) (x : Pump) (s : State) : (putPump b p x s).lastRollover = s.lastRollover := rfl
@[simp] theorem putPump_rollover (b : State) (p : PumpId) (x : Pump) (s : State) : (putPump b p x s).rollover = s.rollover := rfl
@[simp] theorem putPump_rolloverPending (b : State) (p : PumpId) (x : Pump) (s : State) : (putPump b p x s).rolloverPending = s.rolloverPending := rfl
@[simp] theorem putPump_site (b : State) (p : PumpId) (x : Pump) (s : State) : (putPump b p x s).site = s.site := rfl
@[simp] theorem putPump_classes (b : State) (p : PumpId) (x : Pump) (s : State) : (putPump b p x s).classes = s.classes := rfl
@[simp] theorem putPump_rates (b : State) (p : PumpId) (x : Pump) (s : State) : (putPump b p x s).rates = s.rates := rfl
@[simp] theorem putPump_bands (b : State) (p : PumpId) (x : Pump) (s : State) : (putPump b p x s).bands = s.bands := rfl
@[simp] theorem putPump_accounts (b : State) (p : PumpId) (x : Pump) (s : State) : (putPump b p x s).accounts = s.accounts := rfl
@[simp] theorem putPump_berths (b : State) (p : PumpId) (x : Pump) (s : State) : (putPump b p x s).berths = s.berths := rfl
@[simp] theorem putPump_pedestals (b : State) (p : PumpId) (x : Pump) (s : State) : (putPump b p x s).pedestals = s.pedestals := rfl
@[simp] theorem putPump_segments (b : State) (p : PumpId) (x : Pump) (s : State) : (putPump b p x s).segments = s.segments := rfl
@[simp] theorem putPump_power (b : State) (p : PumpId) (x : Pump) (s : State) : (putPump b p x s).power = s.power := rfl
@[simp] theorem putPump_water (b : State) (p : PumpId) (x : Pump) (s : State) : (putPump b p x s).water = s.water := rfl
@[simp] theorem putPump_feeders (b : State) (p : PumpId) (x : Pump) (s : State) : (putPump b p x s).feeders = s.feeders := rfl
@[simp] theorem putPump_grantCount (b : State) (p : PumpId) (x : Pump) (s : State) : (putPump b p x s).grantCount = s.grantCount := rfl
@[simp] theorem putPump_pumps (b : State) (p : PumpId) (x : Pump) (s : State) :
    (putPump b p x s).pumps = s.pumps.put p ((b.pump p).settled x) := rfl
@[simp] theorem putPump_tanks (b : State) (p : PumpId) (x : Pump) (s : State) : (putPump b p x s).tanks = s.tanks := rfl
@[simp] theorem putPump_saleCounter (b : State) (p : PumpId) (x : Pump) (s : State) : (putPump b p x s).saleCounter = s.saleCounter := rfl
@[simp] theorem putPump_saleLog (b : State) (p : PumpId) (x : Pump) (s : State) : (putPump b p x s).saleLog = s.saleLog := rfl
@[simp] theorem putPump_pumpLine (b : State) (p : PumpId) (x : Pump) (s : State) : (putPump b p x s).pumpLine = s.pumpLine := rfl
@[simp] theorem putPump_readers (b : State) (p : PumpId) (x : Pump) (s : State) : (putPump b p x s).readers = s.readers := rfl
@[simp] theorem putPump_formats (b : State) (p : PumpId) (x : Pump) (s : State) : (putPump b p x s).formats = s.formats := rfl
@[simp] theorem putPump_access (b : State) (p : PumpId) (x : Pump) (s : State) : (putPump b p x s).access = s.access := rfl
@[simp] theorem putPump_gates (b : State) (p : PumpId) (x : Pump) (s : State) : (putPump b p x s).gates = s.gates := rfl
@[simp] theorem putPump_creds (b : State) (p : PumpId) (x : Pump) (s : State) : (putPump b p x s).creds = s.creds := rfl
@[simp] theorem putPump_passages (b : State) (p : PumpId) (x : Pump) (s : State) : (putPump b p x s).passages = s.passages := rfl
@[simp] theorem putPump_ports (b : State) (p : PumpId) (x : Pump) (s : State) : (putPump b p x s).ports = s.ports := rfl
@[simp] theorem putPump_levels (b : State) (p : PumpId) (x : Pump) (s : State) : (putPump b p x s).levels = s.levels := rfl
@[simp] theorem putPump_thresholds (b : State) (p : PumpId) (x : Pump) (s : State) : (putPump b p x s).thresholds = s.thresholds := rfl
@[simp] theorem putPump_heldNotices (b : State) (p : PumpId) (x : Pump) (s : State) : (putPump b p x s).heldNotices = s.heldNotices := rfl
@[simp] theorem putPump_pending (b : State) (p : PumpId) (x : Pump) (s : State) : (putPump b p x s).pending = s.pending := rfl

/-! ### putTank -/

@[simp] theorem putTank_device (b : State) (t : ProductId) (x : Tank) (s : State) : (putTank b t x s).device = s.device := rfl
@[simp] theorem putTank_stopped (b : State) (t : ProductId) (x : Tank) (s : State) : (putTank b t x s).stopped = s.stopped := rfl
@[simp] theorem putTank_mainsOk (b : State) (t : ProductId) (x : Tank) (s : State) : (putTank b t x s).mainsOk = s.mainsOk := rfl
@[simp] theorem putTank_valid (b : State) (t : ProductId) (x : Tank) (s : State) : (putTank b t x s).valid = s.valid := rfl
@[simp] theorem putTank_image (b : State) (t : ProductId) (x : Tank) (s : State) : (putTank b t x s).image = s.image := rfl
@[simp] theorem putTank_save (b : State) (t : ProductId) (x : Tank) (s : State) : (putTank b t x s).save = s.save := rfl
@[simp] theorem putTank_clock (b : State) (t : ProductId) (x : Tank) (s : State) : (putTank b t x s).clock = s.clock := rfl
@[simp] theorem putTank_clockSet (b : State) (t : ProductId) (x : Tank) (s : State) : (putTank b t x s).clockSet = s.clockSet := rfl
@[simp] theorem putTank_lastRollover (b : State) (t : ProductId) (x : Tank) (s : State) : (putTank b t x s).lastRollover = s.lastRollover := rfl
@[simp] theorem putTank_rollover (b : State) (t : ProductId) (x : Tank) (s : State) : (putTank b t x s).rollover = s.rollover := rfl
@[simp] theorem putTank_rolloverPending (b : State) (t : ProductId) (x : Tank) (s : State) : (putTank b t x s).rolloverPending = s.rolloverPending := rfl
@[simp] theorem putTank_site (b : State) (t : ProductId) (x : Tank) (s : State) : (putTank b t x s).site = s.site := rfl
@[simp] theorem putTank_classes (b : State) (t : ProductId) (x : Tank) (s : State) : (putTank b t x s).classes = s.classes := rfl
@[simp] theorem putTank_rates (b : State) (t : ProductId) (x : Tank) (s : State) : (putTank b t x s).rates = s.rates := rfl
@[simp] theorem putTank_bands (b : State) (t : ProductId) (x : Tank) (s : State) : (putTank b t x s).bands = s.bands := rfl
@[simp] theorem putTank_accounts (b : State) (t : ProductId) (x : Tank) (s : State) : (putTank b t x s).accounts = s.accounts := rfl
@[simp] theorem putTank_berths (b : State) (t : ProductId) (x : Tank) (s : State) : (putTank b t x s).berths = s.berths := rfl
@[simp] theorem putTank_pedestals (b : State) (t : ProductId) (x : Tank) (s : State) : (putTank b t x s).pedestals = s.pedestals := rfl
@[simp] theorem putTank_segments (b : State) (t : ProductId) (x : Tank) (s : State) : (putTank b t x s).segments = s.segments := rfl
@[simp] theorem putTank_power (b : State) (t : ProductId) (x : Tank) (s : State) : (putTank b t x s).power = s.power := rfl
@[simp] theorem putTank_water (b : State) (t : ProductId) (x : Tank) (s : State) : (putTank b t x s).water = s.water := rfl
@[simp] theorem putTank_feeders (b : State) (t : ProductId) (x : Tank) (s : State) : (putTank b t x s).feeders = s.feeders := rfl
@[simp] theorem putTank_grantCount (b : State) (t : ProductId) (x : Tank) (s : State) : (putTank b t x s).grantCount = s.grantCount := rfl
@[simp] theorem putTank_pumps (b : State) (t : ProductId) (x : Tank) (s : State) : (putTank b t x s).pumps = s.pumps := rfl
@[simp] theorem putTank_tanks (b : State) (t : ProductId) (x : Tank) (s : State) :
    (putTank b t x s).tanks = s.tanks.put t ((b.tank t).settled x) := rfl
@[simp] theorem putTank_saleCounter (b : State) (t : ProductId) (x : Tank) (s : State) : (putTank b t x s).saleCounter = s.saleCounter := rfl
@[simp] theorem putTank_saleLog (b : State) (t : ProductId) (x : Tank) (s : State) : (putTank b t x s).saleLog = s.saleLog := rfl
@[simp] theorem putTank_pumpLine (b : State) (t : ProductId) (x : Tank) (s : State) : (putTank b t x s).pumpLine = s.pumpLine := rfl
@[simp] theorem putTank_readers (b : State) (t : ProductId) (x : Tank) (s : State) : (putTank b t x s).readers = s.readers := rfl
@[simp] theorem putTank_formats (b : State) (t : ProductId) (x : Tank) (s : State) : (putTank b t x s).formats = s.formats := rfl
@[simp] theorem putTank_access (b : State) (t : ProductId) (x : Tank) (s : State) : (putTank b t x s).access = s.access := rfl
@[simp] theorem putTank_gates (b : State) (t : ProductId) (x : Tank) (s : State) : (putTank b t x s).gates = s.gates := rfl
@[simp] theorem putTank_creds (b : State) (t : ProductId) (x : Tank) (s : State) : (putTank b t x s).creds = s.creds := rfl
@[simp] theorem putTank_passages (b : State) (t : ProductId) (x : Tank) (s : State) : (putTank b t x s).passages = s.passages := rfl
@[simp] theorem putTank_ports (b : State) (t : ProductId) (x : Tank) (s : State) : (putTank b t x s).ports = s.ports := rfl
@[simp] theorem putTank_levels (b : State) (t : ProductId) (x : Tank) (s : State) : (putTank b t x s).levels = s.levels := rfl
@[simp] theorem putTank_thresholds (b : State) (t : ProductId) (x : Tank) (s : State) : (putTank b t x s).thresholds = s.thresholds := rfl
@[simp] theorem putTank_heldNotices (b : State) (t : ProductId) (x : Tank) (s : State) : (putTank b t x s).heldNotices = s.heldNotices := rfl
@[simp] theorem putTank_pending (b : State) (t : ProductId) (x : Tank) (s : State) : (putTank b t x s).pending = s.pending := rfl

/-! ### putGate -/

@[simp] theorem putGate_device (b : State) (g : GateId) (x : Gate) (s : State) : (putGate b g x s).device = s.device := rfl
@[simp] theorem putGate_stopped (b : State) (g : GateId) (x : Gate) (s : State) : (putGate b g x s).stopped = s.stopped := rfl
@[simp] theorem putGate_mainsOk (b : State) (g : GateId) (x : Gate) (s : State) : (putGate b g x s).mainsOk = s.mainsOk := rfl
@[simp] theorem putGate_valid (b : State) (g : GateId) (x : Gate) (s : State) : (putGate b g x s).valid = s.valid := rfl
@[simp] theorem putGate_image (b : State) (g : GateId) (x : Gate) (s : State) : (putGate b g x s).image = s.image := rfl
@[simp] theorem putGate_save (b : State) (g : GateId) (x : Gate) (s : State) : (putGate b g x s).save = s.save := rfl
@[simp] theorem putGate_clock (b : State) (g : GateId) (x : Gate) (s : State) : (putGate b g x s).clock = s.clock := rfl
@[simp] theorem putGate_clockSet (b : State) (g : GateId) (x : Gate) (s : State) : (putGate b g x s).clockSet = s.clockSet := rfl
@[simp] theorem putGate_lastRollover (b : State) (g : GateId) (x : Gate) (s : State) : (putGate b g x s).lastRollover = s.lastRollover := rfl
@[simp] theorem putGate_rollover (b : State) (g : GateId) (x : Gate) (s : State) : (putGate b g x s).rollover = s.rollover := rfl
@[simp] theorem putGate_rolloverPending (b : State) (g : GateId) (x : Gate) (s : State) : (putGate b g x s).rolloverPending = s.rolloverPending := rfl
@[simp] theorem putGate_site (b : State) (g : GateId) (x : Gate) (s : State) : (putGate b g x s).site = s.site := rfl
@[simp] theorem putGate_classes (b : State) (g : GateId) (x : Gate) (s : State) : (putGate b g x s).classes = s.classes := rfl
@[simp] theorem putGate_rates (b : State) (g : GateId) (x : Gate) (s : State) : (putGate b g x s).rates = s.rates := rfl
@[simp] theorem putGate_bands (b : State) (g : GateId) (x : Gate) (s : State) : (putGate b g x s).bands = s.bands := rfl
@[simp] theorem putGate_accounts (b : State) (g : GateId) (x : Gate) (s : State) : (putGate b g x s).accounts = s.accounts := rfl
@[simp] theorem putGate_berths (b : State) (g : GateId) (x : Gate) (s : State) : (putGate b g x s).berths = s.berths := rfl
@[simp] theorem putGate_pedestals (b : State) (g : GateId) (x : Gate) (s : State) : (putGate b g x s).pedestals = s.pedestals := rfl
@[simp] theorem putGate_segments (b : State) (g : GateId) (x : Gate) (s : State) : (putGate b g x s).segments = s.segments := rfl
@[simp] theorem putGate_power (b : State) (g : GateId) (x : Gate) (s : State) : (putGate b g x s).power = s.power := rfl
@[simp] theorem putGate_water (b : State) (g : GateId) (x : Gate) (s : State) : (putGate b g x s).water = s.water := rfl
@[simp] theorem putGate_feeders (b : State) (g : GateId) (x : Gate) (s : State) : (putGate b g x s).feeders = s.feeders := rfl
@[simp] theorem putGate_grantCount (b : State) (g : GateId) (x : Gate) (s : State) : (putGate b g x s).grantCount = s.grantCount := rfl
@[simp] theorem putGate_pumps (b : State) (g : GateId) (x : Gate) (s : State) : (putGate b g x s).pumps = s.pumps := rfl
@[simp] theorem putGate_tanks (b : State) (g : GateId) (x : Gate) (s : State) : (putGate b g x s).tanks = s.tanks := rfl
@[simp] theorem putGate_saleCounter (b : State) (g : GateId) (x : Gate) (s : State) : (putGate b g x s).saleCounter = s.saleCounter := rfl
@[simp] theorem putGate_saleLog (b : State) (g : GateId) (x : Gate) (s : State) : (putGate b g x s).saleLog = s.saleLog := rfl
@[simp] theorem putGate_pumpLine (b : State) (g : GateId) (x : Gate) (s : State) : (putGate b g x s).pumpLine = s.pumpLine := rfl
@[simp] theorem putGate_readers (b : State) (g : GateId) (x : Gate) (s : State) : (putGate b g x s).readers = s.readers := rfl
@[simp] theorem putGate_formats (b : State) (g : GateId) (x : Gate) (s : State) : (putGate b g x s).formats = s.formats := rfl
@[simp] theorem putGate_access (b : State) (g : GateId) (x : Gate) (s : State) : (putGate b g x s).access = s.access := rfl
@[simp] theorem putGate_gates (b : State) (g : GateId) (x : Gate) (s : State) :
    (putGate b g x s).gates = s.gates.put g ((b.gate g).settled x) := rfl
@[simp] theorem putGate_creds (b : State) (g : GateId) (x : Gate) (s : State) : (putGate b g x s).creds = s.creds := rfl
@[simp] theorem putGate_passages (b : State) (g : GateId) (x : Gate) (s : State) : (putGate b g x s).passages = s.passages := rfl
@[simp] theorem putGate_ports (b : State) (g : GateId) (x : Gate) (s : State) : (putGate b g x s).ports = s.ports := rfl
@[simp] theorem putGate_levels (b : State) (g : GateId) (x : Gate) (s : State) : (putGate b g x s).levels = s.levels := rfl
@[simp] theorem putGate_thresholds (b : State) (g : GateId) (x : Gate) (s : State) : (putGate b g x s).thresholds = s.thresholds := rfl
@[simp] theorem putGate_heldNotices (b : State) (g : GateId) (x : Gate) (s : State) : (putGate b g x s).heldNotices = s.heldNotices := rfl
@[simp] theorem putGate_pending (b : State) (g : GateId) (x : Gate) (s : State) : (putGate b g x s).pending = s.pending := rfl

/-! ### putCred -/

@[simp] theorem putCred_device (b : State) (c : CredId) (x : Credential) (s : State) : (putCred b c x s).device = s.device := rfl
@[simp] theorem putCred_stopped (b : State) (c : CredId) (x : Credential) (s : State) : (putCred b c x s).stopped = s.stopped := rfl
@[simp] theorem putCred_mainsOk (b : State) (c : CredId) (x : Credential) (s : State) : (putCred b c x s).mainsOk = s.mainsOk := rfl
@[simp] theorem putCred_valid (b : State) (c : CredId) (x : Credential) (s : State) : (putCred b c x s).valid = s.valid := rfl
@[simp] theorem putCred_image (b : State) (c : CredId) (x : Credential) (s : State) : (putCred b c x s).image = s.image := rfl
@[simp] theorem putCred_save (b : State) (c : CredId) (x : Credential) (s : State) : (putCred b c x s).save = s.save := rfl
@[simp] theorem putCred_clock (b : State) (c : CredId) (x : Credential) (s : State) : (putCred b c x s).clock = s.clock := rfl
@[simp] theorem putCred_clockSet (b : State) (c : CredId) (x : Credential) (s : State) : (putCred b c x s).clockSet = s.clockSet := rfl
@[simp] theorem putCred_lastRollover (b : State) (c : CredId) (x : Credential) (s : State) : (putCred b c x s).lastRollover = s.lastRollover := rfl
@[simp] theorem putCred_rollover (b : State) (c : CredId) (x : Credential) (s : State) : (putCred b c x s).rollover = s.rollover := rfl
@[simp] theorem putCred_rolloverPending (b : State) (c : CredId) (x : Credential) (s : State) : (putCred b c x s).rolloverPending = s.rolloverPending := rfl
@[simp] theorem putCred_site (b : State) (c : CredId) (x : Credential) (s : State) : (putCred b c x s).site = s.site := rfl
@[simp] theorem putCred_classes (b : State) (c : CredId) (x : Credential) (s : State) : (putCred b c x s).classes = s.classes := rfl
@[simp] theorem putCred_rates (b : State) (c : CredId) (x : Credential) (s : State) : (putCred b c x s).rates = s.rates := rfl
@[simp] theorem putCred_bands (b : State) (c : CredId) (x : Credential) (s : State) : (putCred b c x s).bands = s.bands := rfl
@[simp] theorem putCred_accounts (b : State) (c : CredId) (x : Credential) (s : State) : (putCred b c x s).accounts = s.accounts := rfl
@[simp] theorem putCred_berths (b : State) (c : CredId) (x : Credential) (s : State) : (putCred b c x s).berths = s.berths := rfl
@[simp] theorem putCred_pedestals (b : State) (c : CredId) (x : Credential) (s : State) : (putCred b c x s).pedestals = s.pedestals := rfl
@[simp] theorem putCred_segments (b : State) (c : CredId) (x : Credential) (s : State) : (putCred b c x s).segments = s.segments := rfl
@[simp] theorem putCred_power (b : State) (c : CredId) (x : Credential) (s : State) : (putCred b c x s).power = s.power := rfl
@[simp] theorem putCred_water (b : State) (c : CredId) (x : Credential) (s : State) : (putCred b c x s).water = s.water := rfl
@[simp] theorem putCred_feeders (b : State) (c : CredId) (x : Credential) (s : State) : (putCred b c x s).feeders = s.feeders := rfl
@[simp] theorem putCred_grantCount (b : State) (c : CredId) (x : Credential) (s : State) : (putCred b c x s).grantCount = s.grantCount := rfl
@[simp] theorem putCred_pumps (b : State) (c : CredId) (x : Credential) (s : State) : (putCred b c x s).pumps = s.pumps := rfl
@[simp] theorem putCred_tanks (b : State) (c : CredId) (x : Credential) (s : State) : (putCred b c x s).tanks = s.tanks := rfl
@[simp] theorem putCred_saleCounter (b : State) (c : CredId) (x : Credential) (s : State) : (putCred b c x s).saleCounter = s.saleCounter := rfl
@[simp] theorem putCred_saleLog (b : State) (c : CredId) (x : Credential) (s : State) : (putCred b c x s).saleLog = s.saleLog := rfl
@[simp] theorem putCred_pumpLine (b : State) (c : CredId) (x : Credential) (s : State) : (putCred b c x s).pumpLine = s.pumpLine := rfl
@[simp] theorem putCred_readers (b : State) (c : CredId) (x : Credential) (s : State) : (putCred b c x s).readers = s.readers := rfl
@[simp] theorem putCred_formats (b : State) (c : CredId) (x : Credential) (s : State) : (putCred b c x s).formats = s.formats := rfl
@[simp] theorem putCred_access (b : State) (c : CredId) (x : Credential) (s : State) : (putCred b c x s).access = s.access := rfl
@[simp] theorem putCred_gates (b : State) (c : CredId) (x : Credential) (s : State) : (putCred b c x s).gates = s.gates := rfl
@[simp] theorem putCred_creds (b : State) (c : CredId) (x : Credential) (s : State) :
    (putCred b c x s).creds = s.creds.put c ((b.cred c).settled x) := rfl
@[simp] theorem putCred_passages (b : State) (c : CredId) (x : Credential) (s : State) : (putCred b c x s).passages = s.passages := rfl
@[simp] theorem putCred_ports (b : State) (c : CredId) (x : Credential) (s : State) : (putCred b c x s).ports = s.ports := rfl
@[simp] theorem putCred_levels (b : State) (c : CredId) (x : Credential) (s : State) : (putCred b c x s).levels = s.levels := rfl
@[simp] theorem putCred_thresholds (b : State) (c : CredId) (x : Credential) (s : State) : (putCred b c x s).thresholds = s.thresholds := rfl
@[simp] theorem putCred_heldNotices (b : State) (c : CredId) (x : Credential) (s : State) : (putCred b c x s).heldNotices = s.heldNotices := rfl
@[simp] theorem putCred_pending (b : State) (c : CredId) (x : Credential) (s : State) : (putCred b c x s).pending = s.pending := rfl

/-! ### passCred -/

@[simp] theorem passCred_device (b : State) (c : CredId) (x : Credential) (s : State) : (passCred b c x s).device = s.device := rfl
@[simp] theorem passCred_stopped (b : State) (c : CredId) (x : Credential) (s : State) : (passCred b c x s).stopped = s.stopped := rfl
@[simp] theorem passCred_mainsOk (b : State) (c : CredId) (x : Credential) (s : State) : (passCred b c x s).mainsOk = s.mainsOk := rfl
@[simp] theorem passCred_valid (b : State) (c : CredId) (x : Credential) (s : State) : (passCred b c x s).valid = s.valid := rfl
@[simp] theorem passCred_image (b : State) (c : CredId) (x : Credential) (s : State) : (passCred b c x s).image = s.image := rfl
@[simp] theorem passCred_save (b : State) (c : CredId) (x : Credential) (s : State) : (passCred b c x s).save = s.save := rfl
@[simp] theorem passCred_clock (b : State) (c : CredId) (x : Credential) (s : State) : (passCred b c x s).clock = s.clock := rfl
@[simp] theorem passCred_clockSet (b : State) (c : CredId) (x : Credential) (s : State) : (passCred b c x s).clockSet = s.clockSet := rfl
@[simp] theorem passCred_lastRollover (b : State) (c : CredId) (x : Credential) (s : State) : (passCred b c x s).lastRollover = s.lastRollover := rfl
@[simp] theorem passCred_rollover (b : State) (c : CredId) (x : Credential) (s : State) : (passCred b c x s).rollover = s.rollover := rfl
@[simp] theorem passCred_rolloverPending (b : State) (c : CredId) (x : Credential) (s : State) : (passCred b c x s).rolloverPending = s.rolloverPending := rfl
@[simp] theorem passCred_site (b : State) (c : CredId) (x : Credential) (s : State) : (passCred b c x s).site = s.site := rfl
@[simp] theorem passCred_classes (b : State) (c : CredId) (x : Credential) (s : State) : (passCred b c x s).classes = s.classes := rfl
@[simp] theorem passCred_rates (b : State) (c : CredId) (x : Credential) (s : State) : (passCred b c x s).rates = s.rates := rfl
@[simp] theorem passCred_bands (b : State) (c : CredId) (x : Credential) (s : State) : (passCred b c x s).bands = s.bands := rfl
@[simp] theorem passCred_accounts (b : State) (c : CredId) (x : Credential) (s : State) : (passCred b c x s).accounts = s.accounts := rfl
@[simp] theorem passCred_berths (b : State) (c : CredId) (x : Credential) (s : State) : (passCred b c x s).berths = s.berths := rfl
@[simp] theorem passCred_pedestals (b : State) (c : CredId) (x : Credential) (s : State) : (passCred b c x s).pedestals = s.pedestals := rfl
@[simp] theorem passCred_segments (b : State) (c : CredId) (x : Credential) (s : State) : (passCred b c x s).segments = s.segments := rfl
@[simp] theorem passCred_power (b : State) (c : CredId) (x : Credential) (s : State) : (passCred b c x s).power = s.power := rfl
@[simp] theorem passCred_water (b : State) (c : CredId) (x : Credential) (s : State) : (passCred b c x s).water = s.water := rfl
@[simp] theorem passCred_feeders (b : State) (c : CredId) (x : Credential) (s : State) : (passCred b c x s).feeders = s.feeders := rfl
@[simp] theorem passCred_grantCount (b : State) (c : CredId) (x : Credential) (s : State) : (passCred b c x s).grantCount = s.grantCount := rfl
@[simp] theorem passCred_pumps (b : State) (c : CredId) (x : Credential) (s : State) : (passCred b c x s).pumps = s.pumps := rfl
@[simp] theorem passCred_tanks (b : State) (c : CredId) (x : Credential) (s : State) : (passCred b c x s).tanks = s.tanks := rfl
@[simp] theorem passCred_saleCounter (b : State) (c : CredId) (x : Credential) (s : State) : (passCred b c x s).saleCounter = s.saleCounter := rfl
@[simp] theorem passCred_saleLog (b : State) (c : CredId) (x : Credential) (s : State) : (passCred b c x s).saleLog = s.saleLog := rfl
@[simp] theorem passCred_pumpLine (b : State) (c : CredId) (x : Credential) (s : State) : (passCred b c x s).pumpLine = s.pumpLine := rfl
@[simp] theorem passCred_readers (b : State) (c : CredId) (x : Credential) (s : State) : (passCred b c x s).readers = s.readers := rfl
@[simp] theorem passCred_formats (b : State) (c : CredId) (x : Credential) (s : State) : (passCred b c x s).formats = s.formats := rfl
@[simp] theorem passCred_access (b : State) (c : CredId) (x : Credential) (s : State) : (passCred b c x s).access = s.access := rfl
@[simp] theorem passCred_gates (b : State) (c : CredId) (x : Credential) (s : State) : (passCred b c x s).gates = s.gates := rfl
@[simp] theorem passCred_creds (b : State) (c : CredId) (x : Credential) (s : State) :
    (passCred b c x s).creds = s.creds.put c { x with edition := (b.cred c).edition + 1 } := rfl
@[simp] theorem passCred_passages (b : State) (c : CredId) (x : Credential) (s : State) : (passCred b c x s).passages = s.passages := rfl
@[simp] theorem passCred_ports (b : State) (c : CredId) (x : Credential) (s : State) : (passCred b c x s).ports = s.ports := rfl
@[simp] theorem passCred_levels (b : State) (c : CredId) (x : Credential) (s : State) : (passCred b c x s).levels = s.levels := rfl
@[simp] theorem passCred_thresholds (b : State) (c : CredId) (x : Credential) (s : State) : (passCred b c x s).thresholds = s.thresholds := rfl
@[simp] theorem passCred_heldNotices (b : State) (c : CredId) (x : Credential) (s : State) : (passCred b c x s).heldNotices = s.heldNotices := rfl
@[simp] theorem passCred_pending (b : State) (c : CredId) (x : Credential) (s : State) : (passCred b c x s).pending = s.pending := rfl

/-! ### putReader -/

@[simp] theorem putReader_device (r : ReaderId) (x : ReaderInput) (s : State) : (putReader r x s).device = s.device := rfl
@[simp] theorem putReader_stopped (r : ReaderId) (x : ReaderInput) (s : State) : (putReader r x s).stopped = s.stopped := rfl
@[simp] theorem putReader_mainsOk (r : ReaderId) (x : ReaderInput) (s : State) : (putReader r x s).mainsOk = s.mainsOk := rfl
@[simp] theorem putReader_valid (r : ReaderId) (x : ReaderInput) (s : State) : (putReader r x s).valid = s.valid := rfl
@[simp] theorem putReader_image (r : ReaderId) (x : ReaderInput) (s : State) : (putReader r x s).image = s.image := rfl
@[simp] theorem putReader_save (r : ReaderId) (x : ReaderInput) (s : State) : (putReader r x s).save = s.save := rfl
@[simp] theorem putReader_clock (r : ReaderId) (x : ReaderInput) (s : State) : (putReader r x s).clock = s.clock := rfl
@[simp] theorem putReader_clockSet (r : ReaderId) (x : ReaderInput) (s : State) : (putReader r x s).clockSet = s.clockSet := rfl
@[simp] theorem putReader_lastRollover (r : ReaderId) (x : ReaderInput) (s : State) : (putReader r x s).lastRollover = s.lastRollover := rfl
@[simp] theorem putReader_rollover (r : ReaderId) (x : ReaderInput) (s : State) : (putReader r x s).rollover = s.rollover := rfl
@[simp] theorem putReader_rolloverPending (r : ReaderId) (x : ReaderInput) (s : State) : (putReader r x s).rolloverPending = s.rolloverPending := rfl
@[simp] theorem putReader_site (r : ReaderId) (x : ReaderInput) (s : State) : (putReader r x s).site = s.site := rfl
@[simp] theorem putReader_classes (r : ReaderId) (x : ReaderInput) (s : State) : (putReader r x s).classes = s.classes := rfl
@[simp] theorem putReader_rates (r : ReaderId) (x : ReaderInput) (s : State) : (putReader r x s).rates = s.rates := rfl
@[simp] theorem putReader_bands (r : ReaderId) (x : ReaderInput) (s : State) : (putReader r x s).bands = s.bands := rfl
@[simp] theorem putReader_accounts (r : ReaderId) (x : ReaderInput) (s : State) : (putReader r x s).accounts = s.accounts := rfl
@[simp] theorem putReader_berths (r : ReaderId) (x : ReaderInput) (s : State) : (putReader r x s).berths = s.berths := rfl
@[simp] theorem putReader_pedestals (r : ReaderId) (x : ReaderInput) (s : State) : (putReader r x s).pedestals = s.pedestals := rfl
@[simp] theorem putReader_segments (r : ReaderId) (x : ReaderInput) (s : State) : (putReader r x s).segments = s.segments := rfl
@[simp] theorem putReader_power (r : ReaderId) (x : ReaderInput) (s : State) : (putReader r x s).power = s.power := rfl
@[simp] theorem putReader_water (r : ReaderId) (x : ReaderInput) (s : State) : (putReader r x s).water = s.water := rfl
@[simp] theorem putReader_feeders (r : ReaderId) (x : ReaderInput) (s : State) : (putReader r x s).feeders = s.feeders := rfl
@[simp] theorem putReader_grantCount (r : ReaderId) (x : ReaderInput) (s : State) : (putReader r x s).grantCount = s.grantCount := rfl
@[simp] theorem putReader_pumps (r : ReaderId) (x : ReaderInput) (s : State) : (putReader r x s).pumps = s.pumps := rfl
@[simp] theorem putReader_tanks (r : ReaderId) (x : ReaderInput) (s : State) : (putReader r x s).tanks = s.tanks := rfl
@[simp] theorem putReader_saleCounter (r : ReaderId) (x : ReaderInput) (s : State) : (putReader r x s).saleCounter = s.saleCounter := rfl
@[simp] theorem putReader_saleLog (r : ReaderId) (x : ReaderInput) (s : State) : (putReader r x s).saleLog = s.saleLog := rfl
@[simp] theorem putReader_pumpLine (r : ReaderId) (x : ReaderInput) (s : State) : (putReader r x s).pumpLine = s.pumpLine := rfl
@[simp] theorem putReader_readers (r : ReaderId) (x : ReaderInput) (s : State) :
    (putReader r x s).readers = s.readers.put r x := rfl
@[simp] theorem putReader_formats (r : ReaderId) (x : ReaderInput) (s : State) : (putReader r x s).formats = s.formats := rfl
@[simp] theorem putReader_access (r : ReaderId) (x : ReaderInput) (s : State) : (putReader r x s).access = s.access := rfl
@[simp] theorem putReader_gates (r : ReaderId) (x : ReaderInput) (s : State) : (putReader r x s).gates = s.gates := rfl
@[simp] theorem putReader_creds (r : ReaderId) (x : ReaderInput) (s : State) : (putReader r x s).creds = s.creds := rfl
@[simp] theorem putReader_passages (r : ReaderId) (x : ReaderInput) (s : State) : (putReader r x s).passages = s.passages := rfl
@[simp] theorem putReader_ports (r : ReaderId) (x : ReaderInput) (s : State) : (putReader r x s).ports = s.ports := rfl
@[simp] theorem putReader_levels (r : ReaderId) (x : ReaderInput) (s : State) : (putReader r x s).levels = s.levels := rfl
@[simp] theorem putReader_thresholds (r : ReaderId) (x : ReaderInput) (s : State) : (putReader r x s).thresholds = s.thresholds := rfl
@[simp] theorem putReader_heldNotices (r : ReaderId) (x : ReaderInput) (s : State) : (putReader r x s).heldNotices = s.heldNotices := rfl
@[simp] theorem putReader_pending (r : ReaderId) (x : ReaderInput) (s : State) : (putReader r x s).pending = s.pending := rfl

/-! ### putPort -/

@[simp] theorem putPort_device (p : PortId) (x : Port) (s : State) : (putPort p x s).device = s.device := rfl
@[simp] theorem putPort_stopped (p : PortId) (x : Port) (s : State) : (putPort p x s).stopped = s.stopped := rfl
@[simp] theorem putPort_mainsOk (p : PortId) (x : Port) (s : State) : (putPort p x s).mainsOk = s.mainsOk := rfl
@[simp] theorem putPort_valid (p : PortId) (x : Port) (s : State) : (putPort p x s).valid = s.valid := rfl
@[simp] theorem putPort_image (p : PortId) (x : Port) (s : State) : (putPort p x s).image = s.image := rfl
@[simp] theorem putPort_save (p : PortId) (x : Port) (s : State) : (putPort p x s).save = s.save := rfl
@[simp] theorem putPort_clock (p : PortId) (x : Port) (s : State) : (putPort p x s).clock = s.clock := rfl
@[simp] theorem putPort_clockSet (p : PortId) (x : Port) (s : State) : (putPort p x s).clockSet = s.clockSet := rfl
@[simp] theorem putPort_lastRollover (p : PortId) (x : Port) (s : State) : (putPort p x s).lastRollover = s.lastRollover := rfl
@[simp] theorem putPort_rollover (p : PortId) (x : Port) (s : State) : (putPort p x s).rollover = s.rollover := rfl
@[simp] theorem putPort_rolloverPending (p : PortId) (x : Port) (s : State) : (putPort p x s).rolloverPending = s.rolloverPending := rfl
@[simp] theorem putPort_site (p : PortId) (x : Port) (s : State) : (putPort p x s).site = s.site := rfl
@[simp] theorem putPort_classes (p : PortId) (x : Port) (s : State) : (putPort p x s).classes = s.classes := rfl
@[simp] theorem putPort_rates (p : PortId) (x : Port) (s : State) : (putPort p x s).rates = s.rates := rfl
@[simp] theorem putPort_bands (p : PortId) (x : Port) (s : State) : (putPort p x s).bands = s.bands := rfl
@[simp] theorem putPort_accounts (p : PortId) (x : Port) (s : State) : (putPort p x s).accounts = s.accounts := rfl
@[simp] theorem putPort_berths (p : PortId) (x : Port) (s : State) : (putPort p x s).berths = s.berths := rfl
@[simp] theorem putPort_pedestals (p : PortId) (x : Port) (s : State) : (putPort p x s).pedestals = s.pedestals := rfl
@[simp] theorem putPort_segments (p : PortId) (x : Port) (s : State) : (putPort p x s).segments = s.segments := rfl
@[simp] theorem putPort_power (p : PortId) (x : Port) (s : State) : (putPort p x s).power = s.power := rfl
@[simp] theorem putPort_water (p : PortId) (x : Port) (s : State) : (putPort p x s).water = s.water := rfl
@[simp] theorem putPort_feeders (p : PortId) (x : Port) (s : State) : (putPort p x s).feeders = s.feeders := rfl
@[simp] theorem putPort_grantCount (p : PortId) (x : Port) (s : State) : (putPort p x s).grantCount = s.grantCount := rfl
@[simp] theorem putPort_pumps (p : PortId) (x : Port) (s : State) : (putPort p x s).pumps = s.pumps := rfl
@[simp] theorem putPort_tanks (p : PortId) (x : Port) (s : State) : (putPort p x s).tanks = s.tanks := rfl
@[simp] theorem putPort_saleCounter (p : PortId) (x : Port) (s : State) : (putPort p x s).saleCounter = s.saleCounter := rfl
@[simp] theorem putPort_saleLog (p : PortId) (x : Port) (s : State) : (putPort p x s).saleLog = s.saleLog := rfl
@[simp] theorem putPort_pumpLine (p : PortId) (x : Port) (s : State) : (putPort p x s).pumpLine = s.pumpLine := rfl
@[simp] theorem putPort_readers (p : PortId) (x : Port) (s : State) : (putPort p x s).readers = s.readers := rfl
@[simp] theorem putPort_formats (p : PortId) (x : Port) (s : State) : (putPort p x s).formats = s.formats := rfl
@[simp] theorem putPort_access (p : PortId) (x : Port) (s : State) : (putPort p x s).access = s.access := rfl
@[simp] theorem putPort_gates (p : PortId) (x : Port) (s : State) : (putPort p x s).gates = s.gates := rfl
@[simp] theorem putPort_creds (p : PortId) (x : Port) (s : State) : (putPort p x s).creds = s.creds := rfl
@[simp] theorem putPort_passages (p : PortId) (x : Port) (s : State) : (putPort p x s).passages = s.passages := rfl
@[simp] theorem putPort_ports (p : PortId) (x : Port) (s : State) :
    (putPort p x s).ports = s.ports.put (portIx p) x := rfl
@[simp] theorem putPort_levels (p : PortId) (x : Port) (s : State) : (putPort p x s).levels = s.levels := rfl
@[simp] theorem putPort_thresholds (p : PortId) (x : Port) (s : State) : (putPort p x s).thresholds = s.thresholds := rfl
@[simp] theorem putPort_heldNotices (p : PortId) (x : Port) (s : State) : (putPort p x s).heldNotices = s.heldNotices := rfl
@[simp] theorem putPort_pending (p : PortId) (x : Port) (s : State) : (putPort p x s).pending = s.pending := rfl

/-! ### reply -/

@[simp] theorem reply_device (p : PortId) (suffix : Bool) (lines : List ReplyLine) (s : State) : (reply p suffix lines s).device = s.device := rfl
@[simp] theorem reply_stopped (p : PortId) (suffix : Bool) (lines : List ReplyLine) (s : State) : (reply p suffix lines s).stopped = s.stopped := rfl
@[simp] theorem reply_mainsOk (p : PortId) (suffix : Bool) (lines : List ReplyLine) (s : State) : (reply p suffix lines s).mainsOk = s.mainsOk := rfl
@[simp] theorem reply_valid (p : PortId) (suffix : Bool) (lines : List ReplyLine) (s : State) : (reply p suffix lines s).valid = s.valid := rfl
@[simp] theorem reply_image (p : PortId) (suffix : Bool) (lines : List ReplyLine) (s : State) : (reply p suffix lines s).image = s.image := rfl
@[simp] theorem reply_save (p : PortId) (suffix : Bool) (lines : List ReplyLine) (s : State) : (reply p suffix lines s).save = s.save := rfl
@[simp] theorem reply_clock (p : PortId) (suffix : Bool) (lines : List ReplyLine) (s : State) : (reply p suffix lines s).clock = s.clock := rfl
@[simp] theorem reply_clockSet (p : PortId) (suffix : Bool) (lines : List ReplyLine) (s : State) : (reply p suffix lines s).clockSet = s.clockSet := rfl
@[simp] theorem reply_lastRollover (p : PortId) (suffix : Bool) (lines : List ReplyLine) (s : State) : (reply p suffix lines s).lastRollover = s.lastRollover := rfl
@[simp] theorem reply_rollover (p : PortId) (suffix : Bool) (lines : List ReplyLine) (s : State) : (reply p suffix lines s).rollover = s.rollover := rfl
@[simp] theorem reply_rolloverPending (p : PortId) (suffix : Bool) (lines : List ReplyLine) (s : State) : (reply p suffix lines s).rolloverPending = s.rolloverPending := rfl
@[simp] theorem reply_site (p : PortId) (suffix : Bool) (lines : List ReplyLine) (s : State) : (reply p suffix lines s).site = s.site := rfl
@[simp] theorem reply_classes (p : PortId) (suffix : Bool) (lines : List ReplyLine) (s : State) : (reply p suffix lines s).classes = s.classes := rfl
@[simp] theorem reply_rates (p : PortId) (suffix : Bool) (lines : List ReplyLine) (s : State) : (reply p suffix lines s).rates = s.rates := rfl
@[simp] theorem reply_bands (p : PortId) (suffix : Bool) (lines : List ReplyLine) (s : State) : (reply p suffix lines s).bands = s.bands := rfl
@[simp] theorem reply_accounts (p : PortId) (suffix : Bool) (lines : List ReplyLine) (s : State) : (reply p suffix lines s).accounts = s.accounts := rfl
@[simp] theorem reply_berths (p : PortId) (suffix : Bool) (lines : List ReplyLine) (s : State) : (reply p suffix lines s).berths = s.berths := rfl
@[simp] theorem reply_pedestals (p : PortId) (suffix : Bool) (lines : List ReplyLine) (s : State) : (reply p suffix lines s).pedestals = s.pedestals := rfl
@[simp] theorem reply_segments (p : PortId) (suffix : Bool) (lines : List ReplyLine) (s : State) : (reply p suffix lines s).segments = s.segments := rfl
@[simp] theorem reply_power (p : PortId) (suffix : Bool) (lines : List ReplyLine) (s : State) : (reply p suffix lines s).power = s.power := rfl
@[simp] theorem reply_water (p : PortId) (suffix : Bool) (lines : List ReplyLine) (s : State) : (reply p suffix lines s).water = s.water := rfl
@[simp] theorem reply_feeders (p : PortId) (suffix : Bool) (lines : List ReplyLine) (s : State) : (reply p suffix lines s).feeders = s.feeders := rfl
@[simp] theorem reply_grantCount (p : PortId) (suffix : Bool) (lines : List ReplyLine) (s : State) : (reply p suffix lines s).grantCount = s.grantCount := rfl
@[simp] theorem reply_pumps (p : PortId) (suffix : Bool) (lines : List ReplyLine) (s : State) : (reply p suffix lines s).pumps = s.pumps := rfl
@[simp] theorem reply_tanks (p : PortId) (suffix : Bool) (lines : List ReplyLine) (s : State) : (reply p suffix lines s).tanks = s.tanks := rfl
@[simp] theorem reply_saleCounter (p : PortId) (suffix : Bool) (lines : List ReplyLine) (s : State) : (reply p suffix lines s).saleCounter = s.saleCounter := rfl
@[simp] theorem reply_saleLog (p : PortId) (suffix : Bool) (lines : List ReplyLine) (s : State) : (reply p suffix lines s).saleLog = s.saleLog := rfl
@[simp] theorem reply_pumpLine (p : PortId) (suffix : Bool) (lines : List ReplyLine) (s : State) : (reply p suffix lines s).pumpLine = s.pumpLine := rfl
@[simp] theorem reply_readers (p : PortId) (suffix : Bool) (lines : List ReplyLine) (s : State) : (reply p suffix lines s).readers = s.readers := rfl
@[simp] theorem reply_formats (p : PortId) (suffix : Bool) (lines : List ReplyLine) (s : State) : (reply p suffix lines s).formats = s.formats := rfl
@[simp] theorem reply_access (p : PortId) (suffix : Bool) (lines : List ReplyLine) (s : State) : (reply p suffix lines s).access = s.access := rfl
@[simp] theorem reply_gates (p : PortId) (suffix : Bool) (lines : List ReplyLine) (s : State) : (reply p suffix lines s).gates = s.gates := rfl
@[simp] theorem reply_creds (p : PortId) (suffix : Bool) (lines : List ReplyLine) (s : State) : (reply p suffix lines s).creds = s.creds := rfl
@[simp] theorem reply_passages (p : PortId) (suffix : Bool) (lines : List ReplyLine) (s : State) : (reply p suffix lines s).passages = s.passages := rfl
@[simp] theorem reply_levels (p : PortId) (suffix : Bool) (lines : List ReplyLine) (s : State) : (reply p suffix lines s).levels = s.levels := rfl
@[simp] theorem reply_thresholds (p : PortId) (suffix : Bool) (lines : List ReplyLine) (s : State) : (reply p suffix lines s).thresholds = s.thresholds := rfl
@[simp] theorem reply_heldNotices (p : PortId) (suffix : Bool) (lines : List ReplyLine) (s : State) : (reply p suffix lines s).heldNotices = s.heldNotices := rfl
@[simp] theorem reply_pending (p : PortId) (suffix : Bool) (lines : List ReplyLine) (s : State) : (reply p suffix lines s).pending = s.pending := rfl

/-! ### withPending -/

@[simp] theorem withPending_device (s : State) (q : List Instr) : (s.withPending q).device = s.device := rfl
@[simp] theorem withPending_stopped (s : State) (q : List Instr) : (s.withPending q).stopped = s.stopped := rfl
@[simp] theorem withPending_mainsOk (s : State) (q : List Instr) : (s.withPending q).mainsOk = s.mainsOk := rfl
@[simp] theorem withPending_valid (s : State) (q : List Instr) : (s.withPending q).valid = s.valid := rfl
@[simp] theorem withPending_image (s : State) (q : List Instr) : (s.withPending q).image = s.image := rfl
@[simp] theorem withPending_save (s : State) (q : List Instr) : (s.withPending q).save = s.save := rfl
@[simp] theorem withPending_clock (s : State) (q : List Instr) : (s.withPending q).clock = s.clock := rfl
@[simp] theorem withPending_clockSet (s : State) (q : List Instr) : (s.withPending q).clockSet = s.clockSet := rfl
@[simp] theorem withPending_lastRollover (s : State) (q : List Instr) : (s.withPending q).lastRollover = s.lastRollover := rfl
@[simp] theorem withPending_rollover (s : State) (q : List Instr) : (s.withPending q).rollover = s.rollover := rfl
@[simp] theorem withPending_rolloverPending (s : State) (q : List Instr) : (s.withPending q).rolloverPending = s.rolloverPending := rfl
@[simp] theorem withPending_site (s : State) (q : List Instr) : (s.withPending q).site = s.site := rfl
@[simp] theorem withPending_classes (s : State) (q : List Instr) : (s.withPending q).classes = s.classes := rfl
@[simp] theorem withPending_rates (s : State) (q : List Instr) : (s.withPending q).rates = s.rates := rfl
@[simp] theorem withPending_bands (s : State) (q : List Instr) : (s.withPending q).bands = s.bands := rfl
@[simp] theorem withPending_accounts (s : State) (q : List Instr) : (s.withPending q).accounts = s.accounts := rfl
@[simp] theorem withPending_berths (s : State) (q : List Instr) : (s.withPending q).berths = s.berths := rfl
@[simp] theorem withPending_pedestals (s : State) (q : List Instr) : (s.withPending q).pedestals = s.pedestals := rfl
@[simp] theorem withPending_segments (s : State) (q : List Instr) : (s.withPending q).segments = s.segments := rfl
@[simp] theorem withPending_power (s : State) (q : List Instr) : (s.withPending q).power = s.power := rfl
@[simp] theorem withPending_water (s : State) (q : List Instr) : (s.withPending q).water = s.water := rfl
@[simp] theorem withPending_feeders (s : State) (q : List Instr) : (s.withPending q).feeders = s.feeders := rfl
@[simp] theorem withPending_grantCount (s : State) (q : List Instr) : (s.withPending q).grantCount = s.grantCount := rfl
@[simp] theorem withPending_pumps (s : State) (q : List Instr) : (s.withPending q).pumps = s.pumps := rfl
@[simp] theorem withPending_tanks (s : State) (q : List Instr) : (s.withPending q).tanks = s.tanks := rfl
@[simp] theorem withPending_saleCounter (s : State) (q : List Instr) : (s.withPending q).saleCounter = s.saleCounter := rfl
@[simp] theorem withPending_saleLog (s : State) (q : List Instr) : (s.withPending q).saleLog = s.saleLog := rfl
@[simp] theorem withPending_pumpLine (s : State) (q : List Instr) : (s.withPending q).pumpLine = s.pumpLine := rfl
@[simp] theorem withPending_readers (s : State) (q : List Instr) : (s.withPending q).readers = s.readers := rfl
@[simp] theorem withPending_formats (s : State) (q : List Instr) : (s.withPending q).formats = s.formats := rfl
@[simp] theorem withPending_access (s : State) (q : List Instr) : (s.withPending q).access = s.access := rfl
@[simp] theorem withPending_gates (s : State) (q : List Instr) : (s.withPending q).gates = s.gates := rfl
@[simp] theorem withPending_creds (s : State) (q : List Instr) : (s.withPending q).creds = s.creds := rfl
@[simp] theorem withPending_passages (s : State) (q : List Instr) : (s.withPending q).passages = s.passages := rfl
@[simp] theorem withPending_ports (s : State) (q : List Instr) : (s.withPending q).ports = s.ports := rfl
@[simp] theorem withPending_levels (s : State) (q : List Instr) : (s.withPending q).levels = s.levels := rfl
@[simp] theorem withPending_thresholds (s : State) (q : List Instr) : (s.withPending q).thresholds = s.thresholds := rfl
@[simp] theorem withPending_heldNotices (s : State) (q : List Instr) : (s.withPending q).heldNotices = s.heldNotices := rfl
@[simp] theorem withPending_pending (s : State) (q : List Instr) : (s.withPending q).pending = q := rfl

/-! ### A settled record differs from what was written in its edition alone -/

@[simp] theorem Account.settled_state (base x : Account) : (base.settled x).state = x.state := rfl
@[simp] theorem Account.settled_name (base x : Account) : (base.settled x).name = x.name := rfl
@[simp] theorem Account.settled_cls (base x : Account) : (base.settled x).cls = x.cls := rfl
@[simp] theorem Account.settled_loa (base x : Account) : (base.settled x).loa = x.loa := rfl
@[simp] theorem Account.settled_beam (base x : Account) : (base.settled x).beam = x.beam := rfl
@[simp] theorem Account.settled_draft (base x : Account) : (base.settled x).draft = x.draft := rfl
@[simp] theorem Account.settled_berth (base x : Account) : (base.settled x).berth = x.berth := rfl
@[simp] theorem Account.settled_arrival (base x : Account) : (base.settled x).arrival = x.arrival := rfl
@[simp] theorem Account.settled_planned (base x : Account) : (base.settled x).planned = x.planned := rfl
@[simp] theorem Account.settled_lastCharged (base x : Account) : (base.settled x).lastCharged = x.lastCharged := rfl
@[simp] theorem Account.settled_nights (base x : Account) : (base.settled x).nights = x.nights := rfl
@[simp] theorem Account.settled_lastStepped (base x : Account) : (base.settled x).lastStepped = x.lastStepped := rfl
@[simp] theorem Account.settled_balance (base x : Account) : (base.settled x).balance = x.balance := rfl
@[simp] theorem Account.settled_holds (base x : Account) : (base.settled x).holds = x.holds := rfl
@[simp] theorem Account.settled_standing (base x : Account) : (base.settled x).standing = x.standing := rfl
@[simp] theorem Account.settled_barredFlag (base x : Account) : (base.settled x).barredFlag = x.barredFlag := rfl
@[simp] theorem Account.settled_arrearsNights (base x : Account) : (base.settled x).arrearsNights = x.arrearsNights := rfl
@[simp] theorem Account.settled_clamped (base x : Account) : (base.settled x).clamped = x.clamped := rfl
@[simp] theorem Account.settled_residues (base x : Account) : (base.settled x).residues = x.residues := rfl
@[simp] theorem Account.settled_credentials (base x : Account) : (base.settled x).credentials = x.credentials := rfl
@[simp] theorem Account.settled_power (base x : Account) : (base.settled x).power = x.power := rfl
@[simp] theorem Account.settled_water (base x : Account) : (base.settled x).water = x.water := rfl
@[simp] theorem Account.settled_sale (base x : Account) : (base.settled x).sale = x.sale := rfl

@[simp] theorem Berth.settled_state (base x : Berth) : (base.settled x).state = x.state := rfl
@[simp] theorem Berth.settled_cfg (base x : Berth) : (base.settled x).cfg = x.cfg := rfl
@[simp] theorem Berth.settled_holder (base x : Berth) : (base.settled x).holder = x.holder := rfl

@[simp] theorem Pedestal.settled_cfg (base x : Pedestal) : (base.settled x).cfg = x.cfg := rfl
@[simp] theorem Pedestal.settled_link (base x : Pedestal) : (base.settled x).link = x.link := rfl
@[simp] theorem Pedestal.settled_desired (base x : Pedestal) : (base.settled x).desired = x.desired := rfl
@[simp] theorem Pedestal.settled_desiredValve (base x : Pedestal) : (base.settled x).desiredValve = x.desiredValve := rfl
@[simp] theorem Pedestal.settled_strayEnergy (base x : Pedestal) : (base.settled x).strayEnergy = x.strayEnergy := rfl
@[simp] theorem Pedestal.settled_strayWater (base x : Pedestal) : (base.settled x).strayWater = x.strayWater := rfl
@[simp] theorem Pedestal.settled_misses (base x : Pedestal) : (base.settled x).misses = x.misses := rfl
@[simp] theorem Pedestal.settled_tag (base x : Pedestal) : (base.settled x).tag = x.tag := rfl
@[simp] theorem Pedestal.settled_tagIdentity (base x : Pedestal) : (base.settled x).tagIdentity = x.tagIdentity := rfl
@[simp] theorem Pedestal.settled_reported (base x : Pedestal) : (base.settled x).reported = x.reported := rfl
@[simp] theorem Pedestal.settled_reportedValve (base x : Pedestal) : (base.settled x).reportedValve = x.reportedValve := rfl
@[simp] theorem Pedestal.settled_lastOutcome (base x : Pedestal) : (base.settled x).lastOutcome = x.lastOutcome := rfl

@[simp] theorem Feeder.settled_cfg (base x : Feeder) : (base.settled x).cfg = x.cfg := rfl
@[simp] theorem Feeder.settled_heldSum (base x : Feeder) : (base.settled x).heldSum = x.heldSum := rfl
@[simp] theorem Feeder.settled_waitList (base x : Feeder) : (base.settled x).waitList = x.waitList := rfl
@[simp] theorem Feeder.settled_relief (base x : Feeder) : (base.settled x).relief = x.relief := rfl
@[simp] theorem Feeder.settled_measured (base x : Feeder) : (base.settled x).measured = x.measured := rfl
@[simp] theorem Feeder.settled_overload (base x : Feeder) : (base.settled x).overload = x.overload := rfl

@[simp] theorem Pump.settled_cfg (base x : Pump) : (base.settled x).cfg = x.cfg := rfl
@[simp] theorem Pump.settled_online (base x : Pump) : (base.settled x).online = x.online := rfl
@[simp] theorem Pump.settled_misses (base x : Pump) : (base.settled x).misses = x.misses := rfl
@[simp] theorem Pump.settled_order (base x : Pump) : (base.settled x).order = x.order := rfl
@[simp] theorem Pump.settled_sale (base x : Pump) : (base.settled x).sale = x.sale := rfl
@[simp] theorem Pump.settled_timer (base x : Pump) : (base.settled x).timer = x.timer := rfl
@[simp] theorem Pump.settled_readings (base x : Pump) : (base.settled x).readings = x.readings := rfl
@[simp] theorem Pump.settled_lastOutcome (base x : Pump) : (base.settled x).lastOutcome = x.lastOutcome := rfl

@[simp] theorem Tank.settled_cfg (base x : Tank) : (base.settled x).cfg = x.cfg := rfl
@[simp] theorem Tank.settled_book (base x : Tank) : (base.settled x).book = x.book := rfl
@[simp] theorem Tank.settled_holds (base x : Tank) : (base.settled x).holds = x.holds := rfl
@[simp] theorem Tank.settled_lowFlag (base x : Tank) : (base.settled x).lowFlag = x.lowFlag := rfl
@[simp] theorem Tank.settled_discrepancy (base x : Tank) : (base.settled x).discrepancy = x.discrepancy := rfl

@[simp] theorem Gate.settled_cfg (base x : Gate) : (base.settled x).cfg = x.cfg := rfl
@[simp] theorem Gate.settled_released (base x : Gate) : (base.settled x).released = x.released := rfl
@[simp] theorem Gate.settled_expiry (base x : Gate) : (base.settled x).expiry = x.expiry := rfl
@[simp] theorem Gate.settled_byExit (base x : Gate) : (base.settled x).byExit = x.byExit := rfl

@[simp] theorem Credential.settled_state (base x : Credential) : (base.settled x).state = x.state := rfl
@[simp] theorem Credential.settled_key (base x : Credential) : (base.settled x).key = x.key := rfl
@[simp] theorem Credential.settled_kind (base x : Credential) : (base.settled x).kind = x.kind := rfl
@[simp] theorem Credential.settled_account (base x : Credential) : (base.settled x).account = x.account := rfl
@[simp] theorem Credential.settled_accessClass (base x : Credential) : (base.settled x).accessClass = x.accessClass := rfl
@[simp] theorem Credential.settled_inside (base x : Credential) : (base.settled x).inside = x.inside := rfl
@[simp] theorem Credential.settled_lastGate (base x : Credential) : (base.settled x).lastGate = x.lastGate := rfl
@[simp] theorem Credential.settled_lastTime (base x : Credential) : (base.settled x).lastTime = x.lastTime := rfl

@[simp] theorem Row.settled_val {α : Type} [BEq α] (base x : Row α) : (base.settled x).val = x.val := rfl

/-! ### Reading one record of a table -/

theorem State.account_eq (s : State) (i : AccountId) : s.account i = s.accounts.get i := rfl
theorem State.berth_eq (s : State) (i : BerthId) : s.berth i = s.berths.get i := rfl
theorem State.pedestal_eq (s : State) (i : PedestalId) : s.pedestal i = s.pedestals.get i := rfl
theorem State.segment_eq (s : State) (i : SegmentId) : s.segment i = s.segments.get i := rfl
theorem State.feeder_eq (s : State) (i : FeederId) : s.feeder i = s.feeders.get i := rfl
theorem State.pump_eq (s : State) (i : PumpId) : s.pump i = s.pumps.get i := rfl
theorem State.tank_eq (s : State) (i : ProductId) : s.tank i = s.tanks.get i := rfl
theorem State.gate_eq (s : State) (i : GateId) : s.gate i = s.gates.get i := rfl
theorem State.cred_eq (s : State) (i : CredId) : s.cred i = s.creds.get i := rfl
theorem State.reader_eq (s : State) (i : ReaderId) : s.reader i = s.readers.get i := rfl
theorem State.port_eq (s : State) (p : PortId) : s.port p = s.ports.get (portIx p) := rfl

/-- What a record reads after a write to record `i`. -/
theorem putAccount_account (b : State) (i j : AccountId) (x : Account) (s : State) :
    (putAccount b i x s).account j = if i = j then (b.account i).settled x else s.account j :=
  Table.get_put _ i j _

/-- What a record reads after a write to record `i`. -/
theorem putBerth_berth (b : State) (i j : BerthId) (x : Berth) (s : State) :
    (putBerth b i x s).berth j = if i = j then (b.berth i).settled x else s.berth j :=
  Table.get_put _ i j _

/-- What a record reads after a write to record `i`. -/
theorem putPedestal_pedestal (b : State) (i j : PedestalId) (x : Pedestal) (s : State) :
    (putPedestal b i x s).pedestal j = if i = j then (b.pedestal i).settled x else s.pedestal j :=
  Table.get_put _ i j _

/-- What a record reads after a write to record `i`. -/
theorem putFeeder_feeder (b : State) (i j : FeederId) (x : Feeder) (s : State) :
    (putFeeder b i x s).feeder j = if i = j then (b.feeder i).settled x else s.feeder j :=
  Table.get_put _ i j _

/-- What a record reads after a write to record `i`. -/
theorem putPump_pump (b : State) (i j : PumpId) (x : Pump) (s : State) :
    (putPump b i x s).pump j = if i = j then (b.pump i).settled x else s.pump j :=
  Table.get_put _ i j _

/-- What a record reads after a write to record `i`. -/
theorem putTank_tank (b : State) (i j : ProductId) (x : Tank) (s : State) :
    (putTank b i x s).tank j = if i = j then (b.tank i).settled x else s.tank j :=
  Table.get_put _ i j _

/-- What a record reads after a write to record `i`. -/
theorem putGate_gate (b : State) (i j : GateId) (x : Gate) (s : State) :
    (putGate b i x s).gate j = if i = j then (b.gate i).settled x else s.gate j :=
  Table.get_put _ i j _

/-- What a credential reads after a passage of credential `i`. -/
theorem passCred_cred (b : State) (i j : CredId) (x : Credential) (s : State) :
    (passCred b i x s).cred j = if i = j then { x with edition := (b.cred i).edition + 1 } else s.cred j :=
  Table.get_put _ i j _

/-- What a record reads after a write to record `i`. -/
theorem putCred_cred (b : State) (i j : CredId) (x : Credential) (s : State) :
    (putCred b i x s).cred j = if i = j then (b.cred i).settled x else s.cred j :=
  Table.get_put _ i j _

theorem modAccount_account (b : State) (i j : AccountId) (f : Account → Account) (s : State) :
    (modAccount b i f s).account j = if i = j then (b.account i).settled (f (s.account i)) else s.account j :=
  Table.get_put _ i j _

theorem modPedestal_pedestal (b : State) (i j : PedestalId) (f : Pedestal → Pedestal) (s : State) :
    (modPedestal b i f s).pedestal j = if i = j then (b.pedestal i).settled (f (s.pedestal i)) else s.pedestal j :=
  Table.get_put _ i j _

theorem strayPedestal_pedestal (b : State) (i j : PedestalId) (q : Nat) (f : Pedestal → Pedestal) (s : State) :
    (strayPedestal b i q f s).pedestal j =
      if i = j then { f (s.pedestal i) with edition := editionAfter (b.pedestal i).edition (q = 0) }
      else s.pedestal j :=
  Table.get_put _ i j _

theorem modFeeder_feeder (b : State) (i j : FeederId) (f : Feeder → Feeder) (s : State) :
    (modFeeder b i f s).feeder j = if i = j then (b.feeder i).settled (f (s.feeder i)) else s.feeder j :=
  Table.get_put _ i j _

/-- Writing back what a record reads changes nothing. -/
theorem Table.put_get_self {α : Type} {n : Nat} (t : Table α n) (i : Fin n) : t.put i (t.get i) = t := by
  apply Table.ext_get
  intro j
  rw [Table.get_put]
  split
  · next e => rw [e]
  · rfl

theorem putPort_self (p : PortId) (s : State) : putPort p (s.port p) s = s := by
  show { s with ports := s.ports.put (portIx p) (s.ports.get (portIx p)) } = s
  rw [Table.put_get_self]

theorem putSegment_segment (i j : SegmentId) (x : Segment) (s : State) :
    (putSegment i x s).segment j = if i = j then x else s.segment j :=
  Table.get_put _ i j _

theorem putReader_reader (i j : ReaderId) (x : ReaderInput) (s : State) :
    (putReader i x s).reader j = if i = j then x else s.reader j :=
  Table.get_put _ i j _

theorem portIx_injective {p q : PortId} (h : portIx p = portIx q) : p = q := by
  cases p <;> cases q <;> first | rfl | exact absurd h (by decide)

theorem putPort_port (p q : PortId) (x : Port) (s : State) :
    (putPort p x s).port q = if p = q then x else s.port q := by
  show (s.ports.put (portIx p) x).get (portIx q) = _
  rw [Table.get_put]
  by_cases h : p = q
  · simp [h]
  · have : ¬ portIx p = portIx q := fun e => h (portIx_injective e)
    simp [h, this, State.port_eq]

end Sys2Proof.Machine
end

