-- ==== Sys2Proof/Laws/Notices.lean ====
section
/-! SUPPORT. What raising a notice can do: it touches the notice queues, their ATTN lines and, in LOADING, the held notices; nothing else. -/

namespace Sys2Proof.Machine

/-! ### One port's queue (R176) -/

theorem markGap_length : ∀ q : List Notice, (markGap q).length = q.length
  | [] => rfl
  | [_] => rfl
  | n :: m :: rest => by
    show (markGap (m :: rest)).length + 1 = _
    rw [markGap_length (m :: rest)]; rfl

theorem markGap_isEmpty (q : List Notice) : (markGap q).isEmpty = q.isEmpty := by
  cases q with
  | nil => rfl
  | cons n rest => cases rest <;> rfl

/-- A copy taken at a queue changes the queue and ATTN alone. -/
theorem Port.queueCopy_rest (n : Notice) (p : Port) :
    p.queueCopy n = { p with queue := (p.queueCopy n).queue, attn := (p.queueCopy n).attn } := by
  unfold Port.queueCopy; split <;> rfl

theorem Port.queueCopy_queueOk (n : Notice) {p : Port} (h : p.queueOk) : (p.queueCopy n).queueOk := by
  unfold Port.queueCopy
  split
  · rename_i hl
    refine ⟨?_, by simp⟩
    simp only [List.length_append, List.length_singleton]
    omega
  · exact ⟨by simpa [markGap_length] using h.1, by simpa [markGap_isEmpty] using h.2⟩

/-! ### The relations that raising notices keeps -/

/-- From `s` to `t` the ports and the held notices change as raised notices change them. -/
structure Queued (s t : State) : Prop where
  device : t.device = s.device
  /-- A port changes in its queue and ATTN alone. -/
  rest : ∀ i, t.ports.get i = { s.ports.get i with queue := (t.ports.get i).queue, attn := (t.ports.get i).attn }
  /-- The law of a queue is kept (R176). -/
  ok : ∀ i, (s.ports.get i).queueOk → (t.ports.get i).queueOk
  /-- In LOADING no port changes (R179). -/
  quiet : s.device = .loading → t.ports = s.ports
  /-- Outside LOADING no notice is held (R179). -/
  held : s.device ≠ .loading → t.heldNotices = s.heldNotices

theorem Queued.refl (s : State) : Queued s s := ⟨rfl, fun _ => rfl, fun _ h => h, fun _ => rfl, fun _ => rfl⟩

theorem Queued.trans {s t u : State} (h : Queued s t) (k : Queued t u) : Queued s u where
  device := k.device.trans h.device
  rest i := by rw [k.rest i, h.rest i]
  ok i w := k.ok i (h.ok i w)
  quiet w := (k.quiet (h.device.trans w)).trans (h.quiet w)
  held w := (k.held (by rw [h.device]; exact w)).trans (h.held w)

/-- A change of neither ports, held notices nor device state. -/
theorem Queued.same {s t : State} (d : t.device = s.device) (p : t.ports = s.ports)
    (n : t.heldNotices = s.heldNotices) : Queued s t :=
  ⟨d, fun i => by rw [p], fun i w => by rw [p]; exact w, fun _ => p, fun _ => n⟩

/-- From `s` to `t` only notices were raised. -/
structure Noticed (s t : State) : Prop extends Queued s t where
  /-- Every field but the ports and the held notices is as it was. -/
  eq : t = { s with ports := t.ports, heldNotices := t.heldNotices }

theorem Noticed.refl (s : State) : Noticed s s := ⟨.refl s, rfl⟩

theorem Noticed.trans {s t u : State} (h : Noticed s t) (k : Noticed t u) : Noticed s u where
  toQueued := h.toQueued.trans k.toQueued
  eq := by rw [k.eq, h.eq]

theorem routeNotice_eq (n : Notice) (s : State) :
    routeNotice n s = { s with ports := (routeNotice n s).ports } := rfl

/-- What a routed notice does at each port (R175). -/
theorem routeNotice_port (n : Notice) (s : State) (i : Fin 3) :
    (routeNotice n s).ports.get i =
      if (s.thresholds.get i).val ≤ (s.levels.get n.cls.ix).val.val then (s.ports.get i).queueCopy n
      else s.ports.get i := by
  simp [routeNotice]

theorem routeNotice_port_rest (n : Notice) (s : State) (i : Fin 3) :
    (routeNotice n s).ports.get i =
      { s.ports.get i with
        queue := ((routeNotice n s).ports.get i).queue, attn := ((routeNotice n s).ports.get i).attn } := by
  rw [routeNotice_port]
  split
  · exact Port.queueCopy_rest n _
  · rfl

theorem routeNotice_port_ok (n : Notice) (s : State) (i : Fin 3) (h : (s.ports.get i).queueOk) :
    ((routeNotice n s).ports.get i).queueOk := by
  rw [routeNotice_port]
  split
  · exact Port.queueCopy_queueOk n h
  · exact h

theorem raise_loading (c : NoticeClass) (i : NoticeInfo) {s : State} (h : s.device = .loading) :
    raise c i s =
      { s with heldNotices := s.heldNotices ++ [{ cls := c, raised := s.clock, info := i, gap := false }] } := by
  simp [raise, h]

theorem raise_routed (c : NoticeClass) (i : NoticeInfo) {s : State} (h : s.device ≠ .loading) :
    raise c i s = routeNotice { cls := c, raised := s.clock, info := i, gap := false } s := by
  simp [raise, h]

/-- All that raising a notice can do. -/
theorem raise_noticed_self (c : NoticeClass) (i : NoticeInfo) (s : State) : Noticed s (raise c i s) := by
  by_cases h : s.device = .loading
  · rw [raise_loading c i h]
    exact ⟨⟨rfl, fun _ => rfl, fun _ w => w, fun _ => rfl, fun w => absurd h w⟩, rfl⟩
  · rw [raise_routed c i h]
    exact ⟨⟨rfl, routeNotice_port_rest _ s, routeNotice_port_ok _ s, fun w => absurd w h, fun _ => rfl⟩, rfl⟩

theorem raise_noticed {s t : State} (c : NoticeClass) (i : NoticeInfo) (h : Noticed s t) :
    Noticed s (raise c i t) := h.trans (raise_noticed_self c i t)

/-! ### Raising a notice, field by field -/

@[simp] theorem raise_device (c : NoticeClass) (i : NoticeInfo) (s : State) : (raise c i s).device = s.device := by
  rw [(raise_noticed_self c i s).eq]
@[simp] theorem raise_stopped (c : NoticeClass) (i : NoticeInfo) (s : State) : (raise c i s).stopped = s.stopped := by
  rw [(raise_noticed_self c i s).eq]
@[simp] theorem raise_mainsOk (c : NoticeClass) (i : NoticeInfo) (s : State) : (raise c i s).mainsOk = s.mainsOk := by
  rw [(raise_noticed_self c i s).eq]
@[simp] theorem raise_valid (c : NoticeClass) (i : NoticeInfo) (s : State) : (raise c i s).valid = s.valid := by
  rw [(raise_noticed_self c i s).eq]
@[simp] theorem raise_image (c : NoticeClass) (i : NoticeInfo) (s : State) : (raise c i s).image = s.image := by
  rw [(raise_noticed_self c i s).eq]
@[simp] theorem raise_save (c : NoticeClass) (i : NoticeInfo) (s : State) : (raise c i s).save = s.save := by
  rw [(raise_noticed_self c i s).eq]
@[simp] theorem raise_clock (c : NoticeClass) (i : NoticeInfo) (s : State) : (raise c i s).clock = s.clock := by
  rw [(raise_noticed_self c i s).eq]
@[simp] theorem raise_clockSet (c : NoticeClass) (i : NoticeInfo) (s : State) : (raise c i s).clockSet = s.clockSet := by
  rw [(raise_noticed_self c i s).eq]
@[simp] theorem raise_lastRollover (c : NoticeClass) (i : NoticeInfo) (s : State) : (raise c i s).lastRollover = s.lastRollover := by
  rw [(raise_noticed_self c i s).eq]
@[simp] theorem raise_rollover (c : NoticeClass) (i : NoticeInfo) (s : State) : (raise c i s).rollover = s.rollover := by
  rw [(raise_noticed_self c i s).eq]
@[simp] theorem raise_rolloverPending (c : NoticeClass) (i : NoticeInfo) (s : State) : (raise c i s).rolloverPending = s.rolloverPending := by
  rw [(raise_noticed_self c i s).eq]
@[simp] theorem raise_site (c : NoticeClass) (i : NoticeInfo) (s : State) : (raise c i s).site = s.site := by
  rw [(raise_noticed_self c i s).eq]
@[simp] theorem raise_classes (c : NoticeClass) (i : NoticeInfo) (s : State) : (raise c i s).classes = s.classes := by
  rw [(raise_noticed_self c i s).eq]
@[simp] theorem raise_rates (c : NoticeClass) (i : NoticeInfo) (s : State) : (raise c i s).rates = s.rates := by
  rw [(raise_noticed_self c i s).eq]
@[simp] theorem raise_bands (c : NoticeClass) (i : NoticeInfo) (s : State) : (raise c i s).bands = s.bands := by
  rw [(raise_noticed_self c i s).eq]
@[simp] theorem raise_accounts (c : NoticeClass) (i : NoticeInfo) (s : State) : (raise c i s).accounts = s.accounts := by
  rw [(raise_noticed_self c i s).eq]
@[simp] theorem raise_berths (c : NoticeClass) (i : NoticeInfo) (s : State) : (raise c i s).berths = s.berths := by
  rw [(raise_noticed_self c i s).eq]
@[simp] theorem raise_pedestals (c : NoticeClass) (i : NoticeInfo) (s : State) : (raise c i s).pedestals = s.pedestals := by
  rw [(raise_noticed_self c i s).eq]
@[simp] theorem raise_segments (c : NoticeClass) (i : NoticeInfo) (s : State) : (raise c i s).segments = s.segments := by
  rw [(raise_noticed_self c i s).eq]
@[simp] theorem raise_power (c : NoticeClass) (i : NoticeInfo) (s : State) : (raise c i s).power = s.power := by
  rw [(raise_noticed_self c i s).eq]
@[simp] theorem raise_water (c : NoticeClass) (i : NoticeInfo) (s : State) : (raise c i s).water = s.water := by
  rw [(raise_noticed_self c i s).eq]
@[simp] theorem raise_feeders (c : NoticeClass) (i : NoticeInfo) (s : State) : (raise c i s).feeders = s.feeders := by
  rw [(raise_noticed_self c i s).eq]
@[simp] theorem raise_grantCount (c : NoticeClass) (i : NoticeInfo) (s : State) : (raise c i s).grantCount = s.grantCount := by
  rw [(raise_noticed_self c i s).eq]
@[simp] theorem raise_pumps (c : NoticeClass) (i : NoticeInfo) (s : State) : (raise c i s).pumps = s.pumps := by
  rw [(raise_noticed_self c i s).eq]
@[simp] theorem raise_tanks (c : NoticeClass) (i : NoticeInfo) (s : State) : (raise c i s).tanks = s.tanks := by
  rw [(raise_noticed_self c i s).eq]
@[simp] theorem raise_saleCounter (c : NoticeClass) (i : NoticeInfo) (s : State) : (raise c i s).saleCounter = s.saleCounter := by
  rw [(raise_noticed_self c i s).eq]
@[simp] theorem raise_saleLog (c : NoticeClass) (i : NoticeInfo) (s : State) : (raise c i s).saleLog = s.saleLog := by
  rw [(raise_noticed_self c i s).eq]
@[simp] theorem raise_pumpLine (c : NoticeClass) (i : NoticeInfo) (s : State) : (raise c i s).pumpLine = s.pumpLine := by
  rw [(raise_noticed_self c i s).eq]
@[simp] theorem raise_readers (c : NoticeClass) (i : NoticeInfo) (s : State) : (raise c i s).readers = s.readers := by
  rw [(raise_noticed_self c i s).eq]
@[simp] theorem raise_formats (c : NoticeClass) (i : NoticeInfo) (s : State) : (raise c i s).formats = s.formats := by
  rw [(raise_noticed_self c i s).eq]
@[simp] theorem raise_access (c : NoticeClass) (i : NoticeInfo) (s : State) : (raise c i s).access = s.access := by
  rw [(raise_noticed_self c i s).eq]
@[simp] theorem raise_gates (c : NoticeClass) (i : NoticeInfo) (s : State) : (raise c i s).gates = s.gates := by
  rw [(raise_noticed_self c i s).eq]
@[simp] theorem raise_creds (c : NoticeClass) (i : NoticeInfo) (s : State) : (raise c i s).creds = s.creds := by
  rw [(raise_noticed_self c i s).eq]
@[simp] theorem raise_passages (c : NoticeClass) (i : NoticeInfo) (s : State) : (raise c i s).passages = s.passages := by
  rw [(raise_noticed_self c i s).eq]
@[simp] theorem raise_levels (c : NoticeClass) (i : NoticeInfo) (s : State) : (raise c i s).levels = s.levels := by
  rw [(raise_noticed_self c i s).eq]
@[simp] theorem raise_thresholds (c : NoticeClass) (i : NoticeInfo) (s : State) : (raise c i s).thresholds = s.thresholds := by
  rw [(raise_noticed_self c i s).eq]
@[simp] theorem raise_pending (c : NoticeClass) (i : NoticeInfo) (s : State) : (raise c i s).pending = s.pending := by
  rw [(raise_noticed_self c i s).eq]

@[simp] theorem raise_account (c : NoticeClass) (i : NoticeInfo) (s : State) (n : AccountId) :
    (raise c i s).account n = s.account n := by
  rw [(raise_noticed_self c i s).eq]; rfl
@[simp] theorem raise_berth (c : NoticeClass) (i : NoticeInfo) (s : State) (n : BerthId) :
    (raise c i s).berth n = s.berth n := by
  rw [(raise_noticed_self c i s).eq]; rfl
@[simp] theorem raise_pedestal (c : NoticeClass) (i : NoticeInfo) (s : State) (n : PedestalId) :
    (raise c i s).pedestal n = s.pedestal n := by
  rw [(raise_noticed_self c i s).eq]; rfl
@[simp] theorem raise_segment (c : NoticeClass) (i : NoticeInfo) (s : State) (n : SegmentId) :
    (raise c i s).segment n = s.segment n := by
  rw [(raise_noticed_self c i s).eq]; rfl
@[simp] theorem raise_feeder (c : NoticeClass) (i : NoticeInfo) (s : State) (n : FeederId) :
    (raise c i s).feeder n = s.feeder n := by
  rw [(raise_noticed_self c i s).eq]; rfl
@[simp] theorem raise_pump (c : NoticeClass) (i : NoticeInfo) (s : State) (n : PumpId) :
    (raise c i s).pump n = s.pump n := by
  rw [(raise_noticed_self c i s).eq]; rfl
@[simp] theorem raise_tank (c : NoticeClass) (i : NoticeInfo) (s : State) (n : ProductId) :
    (raise c i s).tank n = s.tank n := by
  rw [(raise_noticed_self c i s).eq]; rfl
@[simp] theorem raise_gate (c : NoticeClass) (i : NoticeInfo) (s : State) (n : GateId) :
    (raise c i s).gate n = s.gate n := by
  rw [(raise_noticed_self c i s).eq]; rfl
@[simp] theorem raise_cred (c : NoticeClass) (i : NoticeInfo) (s : State) (n : CredId) :
    (raise c i s).cred n = s.cred n := by
  rw [(raise_noticed_self c i s).eq]; rfl
@[simp] theorem raise_reader (c : NoticeClass) (i : NoticeInfo) (s : State) (n : ReaderId) :
    (raise c i s).reader n = s.reader n := by
  rw [(raise_noticed_self c i s).eq]; rfl

/-- What a notice does to the queues depends on the device state, the clock, the levels and the thresholds alone. -/
theorem raise_sameNotices {s t : State} (c : NoticeClass) (i : NoticeInfo) (h : SameNotices s t)
    (hd : s.device = t.device) (hc : s.clock = t.clock) (hl : s.levels = t.levels) (ht : s.thresholds = t.thresholds) :
    SameNotices (raise c i s) (raise c i t) := by
  obtain ⟨hp, hh⟩ := h
  by_cases e : t.device = .loading <;> simp [raise, routeNotice, SameNotices, e, hd, hc, hl, ht, hp, hh]

end Sys2Proof.Machine
end

