-- ==== Sys2Proof/Laws/Service.lean ====
section
/-! SUPPORT. What the shared operations of the Service Manager can do, said once: they touch sessions, feeders, desired outputs, the links of accounts and notice queues, and nothing else. -/

namespace Sys2Proof.Machine

/-- What the Service Manager may change between `s` and `t`. -/
structure Served (s t : State) : Prop extends Queued s t where
  /-- Every other field is as it was. -/
  eq : t =
    { s with
      accounts := t.accounts, pedestals := t.pedestals, power := t.power, water := t.water
      feeders := t.feeders, grantCount := t.grantCount, ports := t.ports, heldNotices := t.heldNotices }
  /-- An account changes in its session links alone, and in its edition. -/
  links : ∀ a, t.account a =
    { s.account a with
      power := (t.account a).power, water := (t.account a).water, edition := (t.account a).edition }
  /-- A pedestal changes in its desired outputs alone, and in its edition. -/
  outputs : ∀ n, t.pedestal n =
    { s.pedestal n with
      desired := (t.pedestal n).desired, desiredValve := (t.pedestal n).desiredValve
      edition := (t.pedestal n).edition }
  /-- A feeder keeps its configuration. -/
  feederCfg : ∀ f, (t.feeder f).cfg = (s.feeder f).cfg

theorem Served.refl (s : State) : Served s s := ⟨.refl s, rfl, fun _ => rfl, fun _ => rfl, fun _ => rfl⟩

theorem Served.trans {s t u : State} (h : Served s t) (k : Served t u) : Served s u where
  toQueued := h.toQueued.trans k.toQueued
  eq := by rw [k.eq, h.eq]
  links a := by rw [k.links a, h.links a]
  outputs n := by rw [k.outputs n, h.outputs n]
  feederCfg f := (k.feederCfg f).trans (h.feederCfg f)

theorem Noticed.served {s t : State} (h : Noticed s t) : Served s t where
  toQueued := h.toQueued
  eq := by rw [h.eq]
  links a := by rw [h.eq]; rfl
  outputs n := by rw [h.eq]; rfl
  feederCfg f := by rw [h.eq]; rfl

/-! ### Single writes -/

theorem raise_served {s t : State} (c : NoticeClass) (i : NoticeInfo) (h : Served s t) :
    Served s (raise c i t) := h.trans (raise_noticed_self c i t).served

theorem power_served {s t : State} (p : Table (Option PowerSession) 512) (h : Served s t) :
    Served s { t with power := p } :=
  h.trans ⟨.same rfl rfl rfl, rfl, fun _ => rfl, fun _ => rfl, fun _ => rfl⟩

theorem water_served {s t : State} (p : Table (Option WaterSession) 256) (h : Served s t) :
    Served s { t with water := p } :=
  h.trans ⟨.same rfl rfl rfl, rfl, fun _ => rfl, fun _ => rfl, fun _ => rfl⟩

theorem grantCount_served {s t : State} (n : Nat) (h : Served s t) : Served s { t with grantCount := n } :=
  h.trans ⟨.same rfl rfl rfl, rfl, fun _ => rfl, fun _ => rfl, fun _ => rfl⟩

theorem modFeeder_served {s t : State} (b : State) (f : FeederId) (g : Feeder → Feeder)
    (hg : ∀ x, (g x).cfg = x.cfg) (h : Served s t) : Served s (modFeeder b f g t) :=
  h.trans ⟨.same rfl rfl rfl, rfl, fun _ => rfl, fun _ => rfl, fun i => by
    rw [modFeeder_feeder]; split
    · next e => subst e; exact hg _
    · rfl⟩

theorem modAccount_served {s t : State} (b : State) (a : AccountId) (f : Account → Account)
    (hf : ∀ x, f x = { x with power := (f x).power, water := (f x).water }) (h : Served s t) :
    Served s (modAccount b a f t) :=
  h.trans ⟨.same rfl rfl rfl, rfl, fun i => by
    rw [modAccount_account]; split
    · next e => subst e; unfold Account.settled; rw [hf]
    · rfl, fun _ => rfl, fun _ => rfl⟩

theorem modPedestal_served {s t : State} (b : State) (n : PedestalId) (f : Pedestal → Pedestal)
    (hf : ∀ x, f x = { x with desired := (f x).desired, desiredValve := (f x).desiredValve })
    (h : Served s t) : Served s (modPedestal b n f t) :=
  h.trans ⟨.same rfl rfl rfl, rfl, fun _ => rfl, fun i => by
    rw [modPedestal_pedestal]; split
    · next e => subst e; unfold Pedestal.settled; rw [hf]
    · rfl, fun _ => rfl⟩

/-! ### Slots -/

theorem syncSocket_served {s t : State} (b : State) (k : SocketId) (h : Served s t) :
    Served s (syncSocket b k t) := modPedestal_served b _ _ (fun _ => rfl) h

theorem putPower_served {s t : State} (b : State) (k : SocketId) (x : Option PowerSession) (h : Served s t) :
    Served s (putPower b k x t) :=
  syncSocket_served b k (modFeeder_served b _ _ (fun _ => rfl) (power_served _ h))

/-- A written power slot reads as written, and no other slot changes. -/
theorem putPower_power (b : State) (k : SocketId) (x : Option PowerSession) (s : State) :
    (putPower b k x s).power = s.power.put k x := rfl

/-- The feeder of a written slot: its held sum and wait list follow the session (R99, R101). -/
theorem putPower_feeder (b : State) (k : SocketId) (x : Option PowerSession) (s : State) (f : FeederId) :
    (putPower b k x s).feeder f =
      if feederOf s k = f then
        (b.feeder f).settled
          { s.feeder f with
            heldSum := (s.feeder f).heldSum - heldOf (s.power.get k) + heldOf x
            waitList := waitListAfter (s.feeder f).waitList k (isWaiting (s.power.get k)) (isWaiting x) }
      else s.feeder f := by
  refine (modFeeder_feeder b (feederOf s k) f (fun f =>
    { f with heldSum := f.heldSum - heldOf (s.power.get k) + heldOf x
             waitList := waitListAfter f.waitList k (isWaiting (s.power.get k)) (isWaiting x) }) s).trans ?_
  split
  · next e => subst e; rfl
  · rfl

theorem putPower_accounts (b : State) (k : SocketId) (x : Option PowerSession) (s : State) :
    (putPower b k x s).accounts = s.accounts := rfl

theorem putWater_served {s t : State} (b : State) (k : TapId) (x : Option WaterSession) (h : Served s t) :
    Served s (putWater b k x t) := modPedestal_served b _ _ (fun _ => rfl) (water_served _ h)

theorem putWater_water (b : State) (k : TapId) (x : Option WaterSession) (s : State) :
    (putWater b k x s).water = s.water.put k x := rfl

/-! ### Admission and service of the wait list (R99 to R101) -/

theorem grant_served {s t : State} (b : State) (k : SocketId) (x : PowerSession) (amps : Nat) (h : Served s t) :
    Served s (grant b k x amps t) := putPower_served b k _ (grantCount_served _ h)

theorem joinWaitList_served {s t : State} (b : State) (k : SocketId) (x : PowerSession) (h : Served s t) :
    Served s (joinWaitList b k x t) := raise_served _ _ (putPower_served b k _ h)

theorem enterAdmission_served {s t u : State} (b : State) (k : SocketId) (x : PowerSession)
    (e : enterAdmission b k x t = some u) (h : Served s t) : Served s u := by
  unfold enterAdmission at e
  split at e
  · cases e; exact grant_served _ _ _ _ h
  · cases e; exact joinWaitList_served _ _ _ h
  · cases e

theorem serveLoop_served {s : State} (b : State) (f : FeederId) :
    ∀ (n : Nat) {t : State}, Served s t → Served s (serveLoop b f n t)
  | 0, _, h => h
  | n + 1, t, h => by
    unfold serveLoop
    split
    · exact h
    · split
      · exact h
      · split
        · exact serveLoop_served b f n (grant_served _ _ _ _ h)
        · exact putPower_served _ _ _ h

theorem serve_served {s t : State} (b : State) (f : FeederId) (h : Served s t) : Served s (serve b f t) := by
  unfold serve; split
  · exact h
  · exact serveLoop_served b f _ h

/-! ### Ending, suspending, resuming (R107 to R110, R116, R118) -/

theorem endPower_served {s t : State} (b : State) (k : SocketId) (why : PowerEnd) (h : Served s t) :
    Served s (endPower b k why t) := by
  unfold endPower; split
  · exact h
  · exact serve_served _ _ (raise_served _ _ (modAccount_served _ _ _ (fun _ => rfl) (putPower_served _ _ _ h)))

theorem closePower_served {s t : State} (b : State) (k : SocketId) (why : PowerEnd) (c : Bool) (h : Served s t) :
    Served s (closePower b k why c t) := by
  unfold closePower
  split
  · exact h
  · split
    all_goals first
      | exact putPower_served _ _ _ h
      | exact endPower_served _ _ _ h
      | (split; exacts [endPower_served _ _ _ h, h])

theorem powerSuspendedNotice_served {s t : State} (k : SocketId) (x : PowerSession) (c : Cause) (h : Served s t) :
    Served s (powerSuspendedNotice k x c t) := raise_served _ _ h

theorem suspendPower_served {s t : State} (b : State) (k : SocketId) (c : Cause) (h : Served s t) :
    Served s (suspendPower b k c t) := by
  unfold suspendPower
  split
  · exact h
  · have w := fun x y => powerSuspendedNotice_served k y c (putPower_served b k x h)
    split
    all_goals first
      | exact w _ _
      | (dsimp only; split; exacts [serve_served _ _ (w _ _), w _ _])
      | exact putPower_served _ _ _ h
      | exact h

theorem resumePower_served {s t : State} (b : State) (k : SocketId) (h : Served s t) :
    Served s (resumePower b k t) := by
  unfold resumePower
  split
  · exact h
  · split
    · split
      · exact putPower_served _ _ _ h
      · split
        · next e => exact enterAdmission_served _ _ _ e h
        · exact endPower_served _ _ _ h
    · exact h

theorem endWater_served {s t : State} (b : State) (k : TapId) (why : WaterEnd) (h : Served s t) :
    Served s (endWater b k why t) := by
  unfold endWater; split
  · exact h
  · exact raise_served _ _ (modAccount_served _ _ _ (fun _ => rfl) (putWater_served _ _ _ h))

theorem closeWater_served {s t : State} (b : State) (k : TapId) (why : WaterEnd) (c : Bool) (h : Served s t) :
    Served s (closeWater b k why c t) := by
  unfold closeWater
  split
  · exact h
  · split
    all_goals first
      | exact putWater_served _ _ _ h
      | exact endWater_served _ _ _ h
      | (split; exacts [endWater_served _ _ _ h, h])

theorem suspendWater_served {s t : State} (b : State) (k : TapId) (h : Served s t) :
    Served s (suspendWater b k t) := by
  unfold suspendWater
  split
  · exact h
  · split
    · exact putWater_served _ _ _ h
    · exact h

theorem resumeWater_served {s t : State} (b : State) (k : TapId) (h : Served s t) :
    Served s (resumeWater b k t) := by
  unfold resumeWater
  split
  · exact h
  · split
    · split <;> exact putWater_served _ _ _ h
    · exact h

/-! ### The requests of a standing change (R10) -/

theorem toPower_served {s t : State} (a : AccountId) {f : SocketId → State → State}
    (hf : ∀ k {u}, Served s u → Served s (f k u)) (h : Served s t) : Served s (toPower a f t) := by
  unfold toPower; split
  · exact h
  · exact hf _ h

theorem toWater_served {s t : State} (a : AccountId) {f : TapId → State → State}
    (hf : ∀ k {u}, Served s u → Served s (f k u)) (h : Served s t) : Served s (toWater a f t) := by
  unfold toWater; split
  · exact h
  · exact hf _ h

theorem unbarIntoArrears_served {s t : State} (b : State) (a : AccountId) (k : SocketId) (h : Served s t) :
    Served s (unbarIntoArrears b a k t) := by
  unfold unbarIntoArrears
  split
  · split
    · exact resumePower_served _ _ h
    · exact suspendPower_served _ _ _ h
  · exact h

theorem standingRequests_served {s t : State} (b : State) (a : AccountId) (old new : Standing) (h : Served s t) :
    Served s (standingRequests b a old new t) := by
  have sp := fun k c {u} (w : Served s u) => suspendPower_served b k c w
  have rp := fun k {u} (w : Served s u) => resumePower_served b k w
  have sw := fun k {u} (w : Served s u) => suspendWater_served b k w
  have rw' := fun k {u} (w : Served s u) => resumeWater_served b k w
  unfold standingRequests
  split
  · exact h
  · exact toWater_served a (fun k _ w => sw k w) (toPower_served a (fun k _ w => sp k _ w) h)
  · exact toWater_served a (fun k _ w => rw' k w) (toPower_served a (fun k _ w => rp k w) h)
  · exact toPower_served a (fun k _ w => unbarIntoArrears_served b a k w) (toWater_served a (fun k _ w => rw' k w) h)
  · refine toPower_served a (fun k _ w => ?_) h
    split
    · exact rp k w
    · exact w
  · exact h

/-! ### Steps at every record -/

theorem eachOf_keeps {α : Type} {P : State → Prop} {f : α → State → State}
    (hf : ∀ i {t}, P t → P (f i t)) : ∀ (ids : List α) {t : State}, P t → P (eachOf ids f t)
  | [], _, h => h
  | i :: rest, _, h => eachOf_keeps hf rest (hf i h)

theorem eachId_keeps {P : State → Prop} {n : Nat} {f : Fin n → State → State}
    (hf : ∀ i {t}, P t → P (f i t)) {t : State} (h : P t) : P (eachId n f t) := eachOf_keeps hf _ h

end Sys2Proof.Machine
end

