-- ==== Sys2Proof/Laws/Money.lean ====
section
/-! SUPPORT. What a standing evaluation, a debit and a charge can do to the accounts, and the wider relation that every change of money, berths and sessions keeps. -/

namespace Sys2Proof.Machine

/-! ### Standing (R9) -/

/-- An account's standing is the one R9 gives, unless it is FREE. -/
def standingOkAt (s : State) (a : AccountId) : Prop :=
  (s.account a).state ≠ .free →
    (s.account a).standing =
      standingOf (s.account a).barredFlag (s.account a).balance (s.classOf (s.account a)).floor

theorem Served.moneyOk {s t : State} (h : Served s t) (a : AccountId) (w : (s.account a).moneyOk) :
    (t.account a).moneyOk := by rw [h.links a]; exact w

theorem Served.classes {s t : State} (h : Served s t) : t.classes = s.classes := by rw [h.eq]

theorem Served.standingOkAt {s t : State} (h : Served s t) (a : AccountId) (w : standingOkAt s a) :
    standingOkAt t a := by
  unfold Machine.standingOkAt State.classOf at *
  rw [h.links a, h.classes]; exact w

theorem arrearsNightsAfter_le (old new : Standing) {n : Nat} (h : n ≤ Config.arrearsLimit) :
    arrearsNightsAfter old new n ≤ Config.arrearsLimit := by
  unfold arrearsNightsAfter; split
  · exact h
  · exact Nat.zero_le _
  · exact Nat.zero_le _
  · exact h

/-- The account as a standing evaluation writes it, before the requests. -/
def evaluatedAccount (s : State) (a : AccountId) : Account :=
  let x := s.account a
  let new := standingOf x.barredFlag x.balance (s.classOf x).floor
  { x with standing := new, arrearsNights := arrearsNightsAfter x.standing new x.arrearsNights }

/-- All that a standing evaluation can do: nothing, or a write of standing and arrears nights after which only the Service Manager acts. -/
theorem evaluateStanding_cases (b : State) (a : AccountId) (s : State) :
    (evaluateStanding b a s = s ∧
      ((s.account a).state = .free ∨
        (s.account a).standing =
          standingOf (s.account a).barredFlag (s.account a).balance (s.classOf (s.account a)).floor))
    ∨ Served (putAccount b a (evaluatedAccount s a) s) (evaluateStanding b a s) := by
  unfold evaluateStanding
  dsimp only
  split
  · next h =>
    refine .inl ⟨rfl, ?_⟩
    rcases h with h | h
    · exact .inl h
    · exact .inr h.symm
  · refine .inr (standingRequests_served _ _ _ _ (raise_served _ _ (.refl _)))

/-! ### The relation of all such changes -/

/-- Every field but those of accounts, berths, credentials, sessions and notice queues is as it was. -/
abbrev WorkEq (s t : State) : Prop :=
  t =
    { s with
      accounts := t.accounts, berths := t.berths, creds := t.creds, pedestals := t.pedestals, power := t.power
      water := t.water, feeders := t.feeders, grantCount := t.grantCount, ports := t.ports
      heldNotices := t.heldNotices }

theorem WorkEq.trans {s t u : State} (h : WorkEq s t) (k : WorkEq t u) : WorkEq s u := by
  rw [k, h]

/-- What a change of money, berths, credentials and sessions may touch between `s` and `t`, and the laws it keeps. -/
structure Worked (s t : State) : Prop extends Queued s t where
  /-- Every other field is as it was. -/
  eq : WorkEq s t
  feederCfg : ∀ f, (t.feeder f).cfg = (s.feeder f).cfg
  pedestalCfg : ∀ n, (t.pedestal n).cfg = (s.pedestal n).cfg
  money : MoneyOk s → MoneyOk t
  standing : (∀ a, standingOkAt s a) → ∀ a, standingOkAt t a

theorem Worked.refl (s : State) : Worked s s := ⟨.refl s, rfl, fun _ => rfl, fun _ => rfl, id, id⟩

theorem Worked.trans {s t u : State} (h : Worked s t) (k : Worked t u) : Worked s u where
  toQueued := h.toQueued.trans k.toQueued
  eq := by rw [k.eq, h.eq]
  feederCfg f := (k.feederCfg f).trans (h.feederCfg f)
  pedestalCfg n := (k.pedestalCfg n).trans (h.pedestalCfg n)
  money w := k.money (h.money w)
  standing w := k.standing (h.standing w)

theorem Served.worked {s t : State} (h : Served s t) : Worked s t where
  toQueued := h.toQueued
  eq := by rw [h.eq]
  feederCfg := h.feederCfg
  pedestalCfg n := by rw [h.outputs n]
  money w a := h.moneyOk a (w a)
  standing w a := h.standingOkAt a (w a)

theorem Worked.served {s t u : State} (h : Worked s t) (k : Served t u) : Worked s u := h.trans k.worked

theorem raise_worked {s t : State} (c : NoticeClass) (i : NoticeInfo) (h : Worked s t) :
    Worked s (raise c i t) := h.served (raise_served c i (.refl t))

theorem putAccount_moneyOk {b s : State} {a : AccountId} {x : Account} (hx : x.moneyOk) (h : MoneyOk s) :
    MoneyOk (putAccount b a x s) := by
  intro i
  show ((putAccount b a x s).account i).moneyOk
  rw [putAccount_account]; split
  · exact hx
  · exact h i

theorem putAccount_standing {b s : State} {a : AccountId} {x : Account}
    (hx : x.state ≠ .free → x.standing = standingOf x.barredFlag x.balance (s.classes.get x.cls).val.floor)
    (h : ∀ i, i ≠ a → standingOkAt s i) (i : AccountId) : standingOkAt (putAccount b a x s) i := by
  unfold standingOkAt
  rw [putAccount_account]; split
  · exact hx
  · next e => exact h i fun e' => e e'.symm

/-- A write of an account that keeps the laws when the account it replaces does. -/
theorem putAccount_worked {s t : State} (b : State) (a : AccountId) (x : Account)
    (hm : (t.account a).moneyOk → x.moneyOk)
    (hs : standingOkAt t a → x.state ≠ .free →
      x.standing = standingOf x.barredFlag x.balance (t.classes.get x.cls).val.floor)
    (h : Worked s t) : Worked s (putAccount b a x t) :=
  h.trans
    { toQueued := .same rfl rfl rfl
      eq := rfl
      feederCfg := fun _ => rfl
      pedestalCfg := fun _ => rfl
      money := fun w => putAccount_moneyOk (hm (w a)) w
      standing := fun w => putAccount_standing (hs (w a)) fun i _ => w i }

/-- A write that leaves the money and the standing of an account as they are. -/
theorem modAccount_worked {s t : State} (b : State) (a : AccountId) (f : Account → Account)
    (hm : (t.account a).moneyOk → (f (t.account a)).moneyOk)
    (hs : standingOkAt t a → (f (t.account a)).state ≠ .free →
      (f (t.account a)).standing =
        standingOf (f (t.account a)).barredFlag (f (t.account a)).balance
          (t.classes.get (f (t.account a)).cls).val.floor)
    (h : Worked s t) : Worked s (modAccount b a f t) := putAccount_worked b a _ hm hs h

theorem putBerth_worked {s t : State} (b : State) (n : BerthId) (x : Berth) (h : Worked s t) :
    Worked s (putBerth b n x t) := h.trans ⟨.same rfl rfl rfl, rfl, fun _ => rfl, fun _ => rfl, id, id⟩

theorem putCred_worked {s t : State} (b : State) (c : CredId) (x : Credential) (h : Worked s t) :
    Worked s (putCred b c x t) := h.trans ⟨.same rfl rfl rfl, rfl, fun _ => rfl, fun _ => rfl, id, id⟩

theorem strayPedestal_worked {s t : State} (b : State) (n : PedestalId) (q : Nat) (f : Pedestal → Pedestal)
    (hf : ∀ x, (f x).cfg = x.cfg) (h : Worked s t) : Worked s (strayPedestal b n q f t) :=
  h.trans ⟨.same rfl rfl rfl, rfl, fun _ => rfl, fun i => by
    rw [strayPedestal_pedestal]; split
    · next e => subst e; exact hf _
    · rfl, id, id⟩

/-! ### Standing evaluation, debits, charges -/

/-- As `Worked`, but the standing of account `a` is still to be evaluated. -/
structure Unevaluated (a : AccountId) (s t : State) : Prop extends Queued s t where
  eq : WorkEq s t
  feederCfg : ∀ f, (t.feeder f).cfg = (s.feeder f).cfg
  pedestalCfg : ∀ n, (t.pedestal n).cfg = (s.pedestal n).cfg
  money : MoneyOk s → MoneyOk t
  standing : (∀ i, standingOkAt s i) → ∀ i, i ≠ a → standingOkAt t i

theorem putAccount_unevaluated {s t : State} (b : State) (a : AccountId) (x : Account)
    (hm : (t.account a).moneyOk → x.moneyOk) (h : Worked s t) : Unevaluated a s (putAccount b a x t) where
  toQueued := h.toQueued.trans (.same rfl rfl rfl)
  eq := h.eq.trans rfl
  feederCfg := h.feederCfg
  pedestalCfg := h.pedestalCfg
  money w := putAccount_moneyOk (hm (h.money w a)) (h.money w)
  standing w i hi := by
    unfold standingOkAt
    rw [putAccount_account, if_neg fun e => hi e.symm]
    exact h.standing w i

theorem raise_unevaluated {s t : State} {a : AccountId} (c : NoticeClass) (i : NoticeInfo)
    (h : Unevaluated a s t) : Unevaluated a s (raise c i t) where
  toQueued := h.toQueued.trans (raise_noticed_self c i t).toQueued
  eq := h.eq.trans (raise_worked c i (.refl t)).eq
  feederCfg f := by rw [raise_feeder]; exact h.feederCfg f
  pedestalCfg n := by rw [raise_pedestal]; exact h.pedestalCfg n
  money w a := (raise_served c i (.refl t)).moneyOk a (h.money w a)
  standing w j hj := (raise_served c i (.refl t)).standingOkAt j (h.standing w j hj)

/-- After its evaluation an account's standing is right, whatever it was before. -/
theorem evaluateStanding_unevaluated {s t : State} (b : State) (a : AccountId) (h : Unevaluated a s t) :
    Worked s (evaluateStanding b a t) := by
  rcases evaluateStanding_cases b a t with ⟨e, w⟩ | w
  · rw [e]
    refine ⟨h.toQueued, h.eq, h.feederCfg, h.pedestalCfg, h.money, fun k i => ?_⟩
    by_cases hi : i = a
    · subst hi
      intro hf
      rcases w with w | w
      · exact absurd w hf
      · exact w
    · exact h.standing k i hi
  · refine Worked.served ?_ w
    refine ⟨h.toQueued.trans (.same rfl rfl rfl), h.eq.trans rfl, h.feederCfg, h.pedestalCfg, fun k => ?_, fun k => ?_⟩
    · have q := h.money k a
      exact putAccount_moneyOk ⟨q.1, q.2.1, q.2.2.1, q.2.2.2.1, arrearsNightsAfter_le _ _ q.2.2.2.2⟩ (h.money k)
    · exact putAccount_standing (fun _ => rfl) (h.standing k)

/-- An evaluation of an account that stands as it is. -/
theorem evaluateStanding_worked {s t : State} (b : State) (a : AccountId) (h : Worked s t) :
    Worked s (evaluateStanding b a t) :=
  evaluateStanding_unevaluated b a
    ⟨h.toQueued, h.eq, h.feederCfg, h.pedestalCfg, h.money, fun w i _ => h.standing w i⟩

theorem debitAccount_worked {s t : State} (b : State) (a : AccountId) (cents : Nat) (h : Worked s t) :
    Worked s (debitAccount b a cents t) := by
  unfold debitAccount
  refine evaluateStanding_unevaluated b a ?_
  split
  · next hc =>
    refine putAccount_unevaluated b a _ (fun q => ⟨hc, ?_, q.2.2.1, q.2.2.2⟩) h
    have := q.2.1
    show (t.account a).balance - (cents : Int) ≤ _
    omega
  · refine raise_unevaluated _ _ (putAccount_unevaluated b a _ (fun q => ⟨Int.le_refl _, ?_, q.2.2.1, q.2.2.2⟩) h)
    show (-Config.balanceLimit : Int) ≤ Config.balanceLimit
    decide

/-- A residue written below a cent (R27) keeps the residues' law. -/
theorem applyCharge_worked {s t : State} (b : State) (a : AccountId) (v : Service) (cents residue : Nat)
    (hr : residue < Config.residueUnit) (h : Worked s t) : Worked s (applyCharge b a v cents residue t) := by
  refine debitAccount_worked b a cents (modAccount_worked b a _ (fun q => ?_) (fun k => k) h)
  refine ⟨q.1, q.2.1, fun w => ?_, q.2.2.2⟩
  show (((t.account a).residues.put _ residue).get w) < _
  rw [Table.get_put]
  split
  · exact hr
  · exact q.2.2.1 w

theorem chargeOf_residue_lt (rho q r : Nat) : (chargeOf rho q r).2 < Config.residueUnit :=
  Nat.mod_lt _ (by decide)

theorem nightParts_residue_lt (loa r : Nat) : ∀ (fuel rho n : Nat), (nightParts loa r fuel rho n).2 < Config.residueUnit
  | 0, rho, n => chargeOf_residue_lt _ _ _
  | fuel + 1, rho, n => by
    unfold nightParts; split
    · exact chargeOf_residue_lt _ _ _
    · exact nightParts_residue_lt loa r fuel _ _

theorem charge_worked {s t : State} (b : State) (a : AccountId) (v : Service) (q : Nat) (d : Band) (h : Worked s t) :
    Worked s (charge b a v q d t) := applyCharge_worked b a v _ _ (chargeOf_residue_lt _ _ _) h

/-! ### Credentials and departures -/

theorem revokeAll_worked {s t : State} (b : State) (a : AccountId) (h : Worked s t) :
    Worked s (revokeAll b a t) :=
  modAccount_worked b a _ (fun q => q) (fun k => k)
    (eachOf_keeps (P := Worked s) (fun c _ w => putCred_worked b c _ w) _ h)

theorem freeBerth_worked {s t : State} (b : State) (n : BerthId) (h : Worked s t) : Worked s (freeBerth b n t) :=
  putBerth_worked b n _ h

theorem chargeNights_worked {s t : State} (b : State) (a : AccountId) (day : Int) (d : Band) (h : Worked s t) :
    Worked s (chargeNights b a day d t) := by
  unfold chargeNights
  dsimp only
  split
  · exact h
  · refine modAccount_worked b a _ (fun q => ⟨q.1, q.2.1, q.2.2.1, Nat.min_le_right _ _, q.2.2.2.2⟩) (fun k => k) ?_
    exact applyCharge_worked b a _ _ _ (nightParts_residue_lt _ _ _ _ _) h

theorem settleStay_worked {s t : State} (b : State) (a : AccountId) (h : Worked s t) :
    Worked s (settleStay b a t).1 := by
  unfold settleStay
  dsimp only
  split
  · exact charge_worked _ _ _ _ _ (chargeNights_worked _ _ _ _ h)
  · exact chargeNights_worked _ _ _ _ h

theorem closeSessions_worked {s t : State} (b : State) (a : AccountId) (h : Worked s t) :
    Worked s (closeSessions b a t) :=
  h.served (toWater_served a (fun _ _ w => closeWater_served _ _ _ _ w)
    (toPower_served a (fun _ _ w => closePower_served _ _ _ _ w) (.refl t)))

theorem eachOf_revokeOne_accounts (b : State) (ids : List CredId) (s : State) :
    (eachOf ids (revokeOne b) s).accounts = s.accounts :=
  eachOf_keeps (f := revokeOne b) (P := fun t => t.accounts = s.accounts) (fun _ _ h => h) ids rfl

/-- The revocation of an account's credentials touches its list and its edition alone. -/
theorem revokeAll_account (b : State) (a i : AccountId) (s : State) :
    (revokeAll b a s).account i =
      if a = i then (b.account a).settled { s.account a with credentials := [] } else s.account i := by
  unfold revokeAll
  rw [modAccount_account]
  simp only [State.account_eq, eachOf_revokeOne_accounts]

theorem completeDeparture_worked {s t : State} (b : State) (a : AccountId) (n : BerthId) (cents : Nat)
    (hf : (t.account a).state ≠ .free) (h : Worked s t) : Worked s (completeDeparture b a n cents t) := by
  unfold completeDeparture
  refine raise_worked _ _ (modAccount_worked b a _ (fun q => ⟨q.1, q.2.1, q.2.2.1, Nat.zero_le _, q.2.2.2.2⟩) ?_ ?_)
  · intro k _
    refine k ?_
    show (((if (t.classOf (t.account a)).revokeAtDeparture then revokeAll b a else id) t).account a).state ≠ _
    split
    · rw [revokeAll_account, if_pos rfl]; exact hf
    · exact hf
  · refine freeBerth_worked _ _ ?_
    split
    · exact revokeAll_worked _ _ h
    · exact h

end Sys2Proof.Machine
end

