-- ==== Sys2Proof/Laws/Delivery.lean ====
section
/-! SUPPORT. What a valid pedestal reply, a miss and a rollover step can do: each keeps `Worked`. -/

namespace Sys2Proof.Machine

/-! ### Agreements and trips (R102 to R105, R116) -/

theorem socketFault_served {s t : State} (k : SocketId) (x : PowerSession) (w : FaultWord) (h : Served s t) :
    Served s (socketFault k x w t) := raise_served _ _ h

theorem confirmOn_served {s t : State} (b : State) (k : SocketId) (x : PowerSession) (g : Bool) (h : Served s t) :
    Served s (confirmOn b k x g t) := by
  unfold confirmOn
  dsimp only
  have w := fun y => putPower_served b k y h
  split
  · split
    · exact serve_served _ _ (raise_served _ _ (w _))
    · exact raise_served _ _ (w _)
  · split
    · exact socketFault_served _ _ _ (endPower_served _ _ _ h)
    · exact w _

theorem liveAgreement_served {s t : State} (b : State) (k : SocketId) (x : PowerSession) (g r : Bool)
    (h : Served s t) : Served s (liveAgreement b k x g r t) := by
  unfold liveAgreement
  dsimp only
  have w := fun y => putPower_served b k y h
  split
  · split
    · exact serve_served _ _ (w _)
    · exact w _
  · split
    · exact w _
    · split
      · exact socketFault_served _ _ _ (w _)
      · exact w _

theorem releaseHeld_served {s t : State} (b : State) (k : SocketId) (x : PowerSession) (h : Served s t) :
    Served s (releaseHeld b k x t) := serve_served _ _ (putPower_served _ _ _ h)

theorem confirmOff_served {s t : State} (b : State) (k : SocketId) (x : PowerSession) (g : Bool) (h : Served s t) :
    Served s (confirmOff b k x g t) := by
  unfold confirmOff
  split
  · split
    · exact endPower_served _ _ _ h
    · exact releaseHeld_served _ _ _ h
  · split
    · exact socketFault_served _ _ _ (putPower_served _ _ _ h)
    · exact putPower_served _ _ _ h

theorem powerAgreement_served {s t : State} (b : State) (k : SocketId) (h : Served s t) :
    Served s (powerAgreement b k t) := by
  unfold powerAgreement
  dsimp only
  split
  · exact h
  · split
    all_goals first
      | exact confirmOn_served _ _ _ _ h
      | exact liveAgreement_served _ _ _ _ _ h
      | exact confirmOff_served _ _ _ _ h
      | exact h
      | (split; exacts [confirmOff_served _ _ _ _ h, h])

theorem powerTrip_served {s t : State} (b : State) (k : SocketId) (h : Served s t) :
    Served s (powerTrip b k t) := by
  unfold powerTrip
  split
  · exact h
  · split
    all_goals first
      | exact serve_served _ _ (raise_served _ _ (putPower_served _ _ _ h))
      | exact h
      | (split; exacts [endPower_served _ _ _ h, h])
      | (split; exacts [releaseHeld_served _ _ _ h, h])

theorem valveFault_served {s t : State} (k : TapId) (x : WaterSession) (w : FaultWord) (h : Served s t) :
    Served s (valveFault k x w t) := raise_served _ _ h

theorem countValveMiss_served {s t : State} (b : State) (k : TapId) (x : WaterSession) (h : Served s t) :
    Served s (countValveMiss b k x t) := by
  unfold countValveMiss
  split
  · exact valveFault_served _ _ _ (putWater_served _ _ _ h)
  · exact putWater_served _ _ _ h

theorem valveAgreement_served {s t : State} (b : State) (k : TapId) (h : Served s t) :
    Served s (valveAgreement b k t) := by
  unfold valveAgreement
  split
  · exact h
  · split
    all_goals first
      | exact putWater_served _ _ _ h
      | exact endWater_served _ _ _ h
      | exact countValveMiss_served _ _ _ h
      | (split; exacts [valveFault_served _ _ _ (endWater_served _ _ _ h), putWater_served _ _ _ h])

theorem applyWaterCap_served {s t : State} (b : State) (k : TapId) (h : Served s t) :
    Served s (applyWaterCap b k t) := by
  unfold applyWaterCap
  split
  · exact h
  · split
    · exact putWater_served _ _ _ h
    · exact h

/-! ### Currents and relief (R111, R112) -/

theorem reliefNotice_served {s t : State} (f : FeederId) (k : Option SocketId) (w : ReliefWord) (h : Served s t) :
    Served s (reliefNotice f k w t) := raise_served _ _ h

theorem stepDown_served {s t : State} (b : State) (k : SocketId) (h : Served s t) : Served s (stepDown b k t) := by
  unfold stepDown; split
  · exact h
  · exact putPower_served _ _ _ h

theorem shedSession_served {s t : State} (b : State) (k : SocketId) (h : Served s t) :
    Served s (shedSession b k t) := by
  unfold shedSession; split
  · exact h
  · split <;> exact putPower_served _ _ _ h

theorem takeRelief_served {s t : State} (b : State) (f : FeederId) (h : Served s t) :
    Served s (takeRelief b f t).1 := by
  unfold takeRelief; split
  · exact stepDown_served _ _ h
  · split
    · exact shedSession_served _ _ h
    · exact h

theorem relieve_served {s t : State} (b : State) (f : FeederId) (h : Served s t) : Served s (relieve b f t) :=
  reliefNotice_served _ _ _ (modFeeder_served _ _ _ (fun _ => rfl) (takeRelief_served _ _ h))

theorem takeCurrent_served {s t : State} (b : State) (k : SocketId) (n : Nat) (h : Served s t) :
    Served s (takeCurrent b k n t) := by
  unfold takeCurrent; split
  · exact h
  · exact putPower_served _ _ _ h

theorem measureFeeder_served {s t : State} (b : State) (f : FeederId) (h : Served s t) :
    Served s (measureFeeder b f t) := by
  have w : ∀ sum count : Nat, Served s (modFeeder b f (fun x => { x with measured := sum, overload := count }) t) :=
    fun _ _ => modFeeder_served b f _ (fun _ => rfl) h
  unfold measureFeeder
  generalize measuredSum t f = sum
  dsimp only
  generalize (if (t.feeder f).cfg.rating * 10 < sum then (t.feeder f).overload + 1 else 0) = count
  split
  · exact relieve_served _ _ (w _ _)
  · exact w _ _

theorem currentReport_served {s t : State} (b : State) (n : PedestalId) (ks : List (Fin 2)) (h : Served s t) :
    Served s (currentReport b n ks t) :=
  measureFeeder_served _ _ (eachOf_keeps (P := Served s) (fun _ _ w => takeCurrent_served _ _ _ w) _ h)

/-! ### Deltas (R90, R91, R114, R117) -/

theorem energyDelta_worked {s t : State} (b : State) (k : SocketId) (q : Option Nat) (h : Worked s t) :
    Worked s (energyDelta b k q t) := by
  unfold energyDelta
  split
  · exact charge_worked _ _ _ _ _ (h.served (putPower_served _ _ _ (.refl _)))
  · exact raise_worked _ _ (h.served (putPower_served _ _ _ (.refl _)))
  · exact strayPedestal_worked b _ _ _ (fun _ => rfl) h
  · exact raise_worked _ _ h

theorem waterDelta_worked {s t : State} (b : State) (k : TapId) (q : Option Nat) (h : Worked s t) :
    Worked s (waterDelta b k q t) := by
  unfold waterDelta
  split
  · exact (charge_worked b _ _ _ _ (h.served (putWater_served b k _ (.refl _)))).served
      (applyWaterCap_served b k (.refl _))
  · exact raise_worked _ _ (h.served (putWater_served _ _ _ (.refl _)))
  · exact strayPedestal_worked b _ _ _ (fun _ => rfl) h
  · exact raise_worked _ _ h

/-! ### A whole reply, and a miss (R82, R83, R89) -/

theorem putPedestal_worked {s t : State} (b : State) (n : PedestalId) (x : Pedestal)
    (hx : x.cfg = (t.pedestal n).cfg) (h : Worked s t) : Worked s (putPedestal b n x t) :=
  h.trans ⟨.same rfl rfl rfl, rfl, fun _ => rfl, fun i => by
    rw [putPedestal_pedestal]; split
    · next e => subst e; exact hx
    · rfl, id, id⟩

theorem deliverSocket_worked {s t : State} (n : PedestalId) (w : Bool) (fs : List Nat) (i : Fin 2) (h : Worked s t) :
    Worked s (deliverSocket n w fs i t) := by
  unfold deliverSocket
  dsimp only
  refine Worked.served ?_ (powerAgreement_served _ _ (.refl _))
  split
  · refine Worked.served ?_ (powerTrip_served _ _ (.refl _))
    split
    · exact energyDelta_worked _ _ _ h
    · exact h
  · split
    · exact energyDelta_worked _ _ _ h
    · exact h

theorem deliverTap_worked {s t : State} (n : PedestalId) (w : Bool) (fs : List Nat) (h : Worked s t) :
    Worked s (deliverTap n w fs t) := by
  unfold deliverTap
  dsimp only
  split
  · refine Worked.served ?_ (valveAgreement_served _ _ (.refl _))
    split
    · exact waterDelta_worked _ _ _ h
    · exact h
  · exact h

theorem reportSocket_cfg (fs : List Nat) (ks : List (Fin 2)) (p : Pedestal) :
    (ks.foldl (Pedestal.reportSocket fs) p).cfg = p.cfg := by
  induction ks generalizing p with
  | nil => rfl
  | cons k ks ih => exact (ih _).trans rfl

theorem answered_cfg (fs : List Nat) (p : Pedestal) : (p.answered fs).cfg = p.cfg := by
  unfold Pedestal.answered Pedestal.reportTap
  dsimp only
  split <;> exact reportSocket_cfg fs _ p

theorem linkNotice_worked {s t : State} (c : NoticeClass) (n : PedestalId) (h : Worked s t) :
    Worked s (linkNotice c n t) := raise_worked _ _ h

theorem deliver_worked {s t : State} (n : PedestalId) (fs : List Nat) (h : Worked s t) :
    Worked s (deliver n fs t) := by
  unfold deliver
  dsimp only
  refine Worked.served (deliverTap_worked _ _ _ (eachOf_keeps (P := Worked s)
    (fun i _ w => deliverSocket_worked _ _ _ i w) _ ?_)) (currentReport_served _ _ _ (.refl _))
  have w := putPedestal_worked t n ((t.pedestal n).answered fs) (answered_cfg fs _) h
  split
  · exact linkNotice_worked _ _ w
  · exact w

theorem miss_worked {s t : State} (n : PedestalId) (o : PollOutcome) (h : Worked s t) :
    Worked s (miss n o t) := by
  unfold miss
  dsimp only
  have w := putPedestal_worked t n ((t.pedestal n).missed o) rfl h
  split
  · exact linkNotice_worked _ _ w
  · exact w

/-! ### A rollover step (R67 to R70) -/

theorem releaseReservation_worked {s t : State} (b : State) (a : AccountId) (n : BerthId)
    (hf : (t.account a).state ≠ .free) (h : Worked s t) : Worked s (releaseReservation b a n t) :=
  modAccount_worked b a _ (fun q => q) (fun k _ => k hf) (freeBerth_worked b n h)

theorem arrearsPart_worked {s t : State} (b : State) (a : AccountId) (h : Worked s t) :
    Worked s (arrearsPart b a t) := by
  unfold arrearsPart
  dsimp only
  split
  · have w := putAccount_worked b a
      { t.account a with arrearsNights := min ((t.account a).arrearsNights + 1) Config.arrearsLimit }
      (fun q => ⟨q.1, q.2.1, q.2.2.1, q.2.2.2.1, Nat.min_le_right _ _⟩) (fun k => k) h
    split
    · exact w.served (toPower_served a (fun _ _ v => suspendPower_served _ _ _ v) (.refl _))
    · exact w
  · exact h

theorem rolloverStatePart_worked {s t : State} (b : State) (a : AccountId) (day : Int) (h : Worked s t) :
    Worked s (rolloverStatePart b a day t) := by
  unfold rolloverStatePart
  split
  · unfold raiseOverstay
    dsimp only
    have w := chargeNights_worked b a day (bandOfRollover t) h
    split
    · exact w
    · split
      · exact raise_worked _ _ w
      · exact w
  · next e =>
    unfold expireReservation
    dsimp only
    split
    · exact h
    · split
      · exact raise_worked _ _ (releaseReservation_worked b a _ (by rw [e]; decide) h)
      · exact h
  · exact h
  · exact h

theorem stepAccount_worked {s t : State} (b : State) (a : AccountId) (day : Int) (h : Worked s t) :
    Worked s (stepAccount b a day t) := by
  unfold stepAccount
  dsimp only
  split
  · exact h
  · exact modAccount_worked b a _ (fun q => q) (fun k => k)
      (arrearsPart_worked b a (rolloverStatePart_worked b a day h))

end Sys2Proof.Machine
end

