-- ==== Sys2Proof/Laws/Fuel.lean ====
section
/-! SUPPORT. What the end of a sale, a tank change and a pump reply can do. -/

namespace Sys2Proof.Machine

/-! ### Logs (R142, R162) -/

theorem logAfter_length {α : Type} {room : Nat} (hr : 0 < room) (l : List α) (x : α) (h : l.length ≤ room) :
    (logAfter room l x).length ≤ room := by
  unfold logAfter
  split
  · simp only [List.length_append, List.length_singleton]; omega
  · simp only [List.length_append, List.length_drop, List.length_singleton]; omega

/-! ### Tanks (R124, R141) -/

/-- A tank change with its low-flag evaluation writes that tank and raises notices; nothing else. -/
theorem settleLow_eq (b : State) (t : ProductId) (x : Tank) (s : State) :
    Noticed (putTank b t x.evaluated s) (settleLow b t x s) := by
  unfold settleLow
  dsimp only
  split
  · exact raise_noticed_self _ _ _
  · exact .refl _

/-- The tank as the settlement of an ended sale leaves it (R141). -/
def settledTank (t : Tank) (x : Sale) : Tank :=
  let holds := t.holds - x.volumeHold
  ({ t with holds := holds, book := settledBook t.book holds x.delivered
            discrepancy := addCounter t.discrepancy (shortfallOf t.book holds x.delivered) } : Tank).evaluated

theorem settleTank_tanks (b : State) (x : Sale) (s : State) :
    (settleTank b x s).tanks = s.tanks.put x.product ((b.tank x.product).settled (settledTank (s.tank x.product) x)) := by
  unfold settleTank
  dsimp only
  rw [(settleLow_eq _ _ _ _).eq]
  dsimp only [putTank_tanks]
  split
  · unfold discrepancyNotice; rw [raise_tanks]; rfl
  · rfl

/-- Every field but tanks and notice queues is as it was. -/
abbrev TankEq (s t : State) : Prop := t = { s with tanks := t.tanks, ports := t.ports, heldNotices := t.heldNotices }

theorem TankEq.trans {s t u : State} (h : TankEq s t) (k : TankEq t u) : TankEq s u := by rw [k, h]

theorem Noticed.tankEq {s t : State} (h : Noticed s t) : TankEq s t := by rw [TankEq, h.eq]

theorem settleLow_tankEq (b : State) (t : ProductId) (x : Tank) (s : State) : TankEq s (settleLow b t x s) :=
  TankEq.trans (t := putTank b t x.evaluated s) rfl (settleLow_eq b t x s).tankEq

/-- The settlement of a tank touches the tanks and raises notices; nothing else. -/
theorem settleTank_tankEq (b : State) (x : Sale) (s : State) : TankEq s (settleTank b x s) := by
  unfold settleTank
  dsimp only
  split
  · exact TankEq.trans (raise_noticed_self _ _ _).tankEq (settleLow_tankEq _ _ _ _)
  · exact settleLow_tankEq _ _ _ _

/-! ### The relation of all fuel changes -/

/-- Every field but those of `WorkEq`, pumps, tanks and the sale log is as it was. -/
abbrev FuelEq (s t : State) : Prop :=
  t =
    { s with
      accounts := t.accounts, berths := t.berths, creds := t.creds, pedestals := t.pedestals, power := t.power
      water := t.water, feeders := t.feeders, grantCount := t.grantCount, ports := t.ports
      heldNotices := t.heldNotices, pumps := t.pumps, tanks := t.tanks, saleLog := t.saleLog }

theorem FuelEq.trans {s t u : State} (h : FuelEq s t) (k : FuelEq t u) : FuelEq s u := by rw [k, h]

/-- What a fuel change may touch between `s` and `t`, and the laws it keeps. -/
structure Fuelled (s t : State) : Prop extends Queued s t where
  eq : FuelEq s t
  feederCfg : ∀ f, (t.feeder f).cfg = (s.feeder f).cfg
  pedestalCfg : ∀ n, (t.pedestal n).cfg = (s.pedestal n).cfg
  money : MoneyOk s → MoneyOk t
  standing : (∀ a, standingOkAt s a) → ∀ a, standingOkAt t a
  log : s.saleLog.length ≤ Config.saleLogRoom → t.saleLog.length ≤ Config.saleLogRoom

theorem Fuelled.trans {s t u : State} (h : Fuelled s t) (k : Fuelled t u) : Fuelled s u where
  toQueued := h.toQueued.trans k.toQueued
  eq := h.eq.trans k.eq
  feederCfg f := (k.feederCfg f).trans (h.feederCfg f)
  pedestalCfg n := (k.pedestalCfg n).trans (h.pedestalCfg n)
  money w := k.money (h.money w)
  standing w := k.standing (h.standing w)
  log w := k.log (h.log w)

theorem Worked.fuelled {s t : State} (h : Worked s t) : Fuelled s t :=
  ⟨h.toQueued, by rw [FuelEq, h.eq], h.feederCfg, h.pedestalCfg, h.money, h.standing, fun w => by rw [h.eq]; exact w⟩

theorem Fuelled.refl (s : State) : Fuelled s s := (Worked.refl s).fuelled

theorem Fuelled.worked {s t u : State} (h : Fuelled s t) (k : Worked t u) : Fuelled s u := h.trans k.fuelled

theorem raise_fuelled {s t : State} (c : NoticeClass) (i : NoticeInfo) (h : Fuelled s t) :
    Fuelled s (raise c i t) := h.worked (raise_worked c i (.refl t))

theorem putTank_fuelled {s t : State} (b : State) (p : ProductId) (x : Tank) (h : Fuelled s t) :
    Fuelled s (putTank b p x t) := h.trans ⟨.same rfl rfl rfl, rfl, fun _ => rfl, fun _ => rfl, id, id, id⟩

theorem putPump_fuelled {s t : State} (b : State) (n : PumpId) (x : Pump) (h : Fuelled s t) :
    Fuelled s (putPump b n x t) := h.trans ⟨.same rfl rfl rfl, rfl, fun _ => rfl, fun _ => rfl, id, id, id⟩

theorem saleLog_fuelled {s t : State} (x : Sale) (h : Fuelled s t) :
    Fuelled s { t with saleLog := logAfter Config.saleLogRoom t.saleLog x } :=
  h.trans ⟨.same rfl rfl rfl, rfl, fun _ => rfl, fun _ => rfl, id, id, logAfter_length (by decide) _ x⟩

theorem settleLow_fuelled {s t : State} (b : State) (p : ProductId) (x : Tank) (h : Fuelled s t) :
    Fuelled s (settleLow b p x t) := by
  unfold settleLow
  dsimp only
  split
  · exact raise_fuelled _ _ (putTank_fuelled _ _ _ h)
  · exact putTank_fuelled _ _ _ h

theorem settleTank_fuelled {s t : State} (b : State) (x : Sale) (h : Fuelled s t) :
    Fuelled s (settleTank b x t) := by
  unfold settleTank
  dsimp only
  split
  · exact settleLow_fuelled _ _ _ (raise_fuelled _ _ h)
  · exact settleLow_fuelled _ _ _ h

/-! ### The end of a sale (R140) -/

theorem settleBuyer_worked {s t : State} (b : State) (x : Sale) (cents residue : Nat)
    (hr : residue < Config.residueUnit) (h : Worked s t) : Worked s (settleBuyer b x cents residue t) := by
  unfold settleBuyer
  split
  · exact applyCharge_worked _ _ _ _ _ hr (modAccount_worked b _ _ (fun q => q) (fun k => k) h)
  · exact h

theorem saleCharge_residue_lt (s : State) (x : Sale) : (saleCharge s x).2 < Config.residueUnit := by
  unfold saleCharge
  split
  · exact chargeOf_residue_lt _ _ _
  · exact (by decide : 0 < Config.residueUnit)

theorem endSale_fuelled {s t : State} (b : State) (n : PumpId) (x : Sale) (why : SaleEnd) (h : Fuelled s t) :
    Fuelled s (endSale b n x why t) := by
  unfold endSale
  dsimp only
  refine raise_fuelled _ _ ?_
  exact saleLog_fuelled _ (putPump_fuelled b n _
    (Fuelled.worked (settleTank_fuelled b x h) (settleBuyer_worked b x _ _ (saleCharge_residue_lt t x) (.refl _))))

/-- The pump of an ended sale has no sale, the order CANCEL and no timer; the other pumps are as they were. -/
theorem endSale_pumps (b : State) (n : PumpId) (x : Sale) (why : SaleEnd) (s : State) :
    (endSale b n x why s).pumps =
      s.pumps.put n ((b.pump n).settled { s.pump n with sale := none, order := .cancel, timer := none }) := by
  have h1 : (settleTank b x s).pumps = s.pumps := by rw [settleTank_tankEq b x s]
  have h2 := (settleBuyer_worked b x (saleCharge s x).1 (saleCharge s x).2 (saleCharge_residue_lt s x)
    (.refl (settleTank b x s))).eq
  have e : (settleBuyer b x (saleCharge s x).1 (saleCharge s x).2 (settleTank b x s)).pumps = s.pumps := by
    rw [h2]; exact h1
  unfold endSale
  dsimp only
  rw [raise_pumps]
  simp only [putPump_pumps, State.pump_eq, e]

/-- The tank of an ended sale is settled (R141); the other tank is as it was. -/
theorem endSale_tanks (b : State) (n : PumpId) (x : Sale) (why : SaleEnd) (s : State) :
    (endSale b n x why s).tanks =
      s.tanks.put x.product ((b.tank x.product).settled (settledTank (s.tank x.product) x)) := by
  have h2 := (settleBuyer_worked b x (saleCharge s x).1 (saleCharge s x).2 (saleCharge_residue_lt s x)
    (.refl (settleTank b x s))).eq
  unfold endSale
  dsimp only
  rw [raise_tanks]
  simp only [putPump_tanks]
  rw [h2]
  exact settleTank_tanks b x s

/-- The record of the ended sale joins the log (R142). -/
theorem endSale_saleLog (b : State) (n : PumpId) (x : Sale) (why : SaleEnd) (s : State) :
    (endSale b n x why s).saleLog = logAfter Config.saleLogRoom s.saleLog (endedSale s x why) := by
  have h1 : (settleTank b x s).saleLog = s.saleLog := by rw [settleTank_tankEq b x s]
  have h2 := (settleBuyer_worked b x (saleCharge s x).1 (saleCharge s x).2 (saleCharge_residue_lt s x)
    (.refl (settleTank b x s))).eq
  have e : (settleBuyer b x (saleCharge s x).1 (saleCharge s x).2 (settleTank b x s)).saleLog = s.saleLog := by
    rw [h2]; exact h1
  unfold endSale
  dsimp only
  rw [raise_saleLog]
  simp only [e]

/-! ### Pump replies (R133 to R137) -/

theorem pumpMiss_fuelled {s t : State} (n : PumpId) (o : PumpOutcome) (h : Fuelled s t) :
    Fuelled s (pumpMiss n o t) := by
  unfold pumpMiss
  dsimp only
  split
  · split
    · exact raise_fuelled _ _ (putPump_fuelled _ _ _ h)
    · exact endSale_fuelled _ _ _ _ (raise_fuelled _ _ (putPump_fuelled _ _ _ h))
  · exact putPump_fuelled _ _ _ h

theorem pumpAnswer_fuelled {s t : State} (n : PumpId) (r : PumpReading) (h : Fuelled s t) :
    Fuelled s (pumpAnswer n r t) := by
  unfold pumpAnswer
  dsimp only
  split
  · exact putPump_fuelled _ _ _ h
  · split
    · exact putPump_fuelled _ _ _ h
    · exact endSale_fuelled _ _ _ _ (putPump_fuelled _ _ _ h)

theorem requestStop_fuelled {s t : State} (b : State) (n : PumpId) (x : Sale) (w : StopReason) (h : Fuelled s t) :
    Fuelled s (requestStop b n x w t) := putPump_fuelled _ _ _ h

theorem endSaleAt_fuelled {s t : State} (b : State) (w : SaleEnd) (n : PumpId) (h : Fuelled s t) :
    Fuelled s (endSaleAt b w n t) := by
  unfold endSaleAt
  split
  · exact h
  · exact endSale_fuelled _ _ _ _ h

theorem holdMoney_worked {s t : State} (b : State) (y : Buyer) (n : PumpId) (c : Nat) (h : Worked s t) :
    Worked s (holdMoney b y n c t) := by
  unfold holdMoney
  split
  · exact modAccount_worked b _ _ (fun q => q) (fun k => k) h
  · exact h

end Sys2Proof.Machine
end

