-- ==== Sys2Proof/Laws/Changes.lean ====
section
/-! SUPPORT. All that a session, a charge, a standing, a tank and the end of a sale do, said once in the terms of Safety.lean: each lemma holds in every state. -/

namespace Sys2Proof.Machine

/-- The wait list after a session enters or leaves WAITING. -/
theorem waitListAfter_eq (l : List SocketId) (k : SocketId) (was is : Bool) :
    waitListAfter l k was is = if is = was then l else if is then l ++ [k] else l.filter (· ≠ k) := by
  cases was <;> cases is <;> rfl

/-- The desired relay and limit of a session (R87). -/
theorem desiredFor_eq (r : Rating) (x : Option PowerSession) :
    desiredFor r x =
      (x.any fun y => y.state.on,
       if ((x.any fun y => y.state.on) && r = .a63 && x.any fun y => y.granted = 32) = true then .l32 else .l63) := by
  cases x with
  | none => rfl
  | some y => cases h : y.state.on <;> simp [desiredFor, h]

/-- A power slot is written with all that follows it (R95, R99, R101). -/
theorem putPower_written (b : State) (k : SocketId) (x : Option PowerSession) (s : State) :
    PowerWritten k x s (putPower b k x s) := by
  refine ⟨((putPower b k x s).feeder (feederOf s k)).edition, ((putPower b k x s).pedestal (pedestalOf k)).edition, ?_⟩
  simp only [putPower, syncSocket, modFeeder, modPedestal, putFeeder, putPedestal, State.pedestal, State.feeder, feederOf, desiredFor_eq,
    waitListAfter_eq, Table.get_put_self]
  rfl

theorem putAccount_written (b : State) (a : AccountId) (x : Account) (s : State) :
    AccountWritten a x s (putAccount b a x s) := ⟨_, rfl⟩

theorem modAccount_written (b : State) (a : AccountId) (f : Account → Account) (s : State) :
    AccountWritten a (f (s.account a)) s (modAccount b a f s) := ⟨_, rfl⟩

/-- A water slot is written with its desired valve (R116). -/
theorem putWater_written (b : State) (k : TapId) (x : Option WaterSession) (s : State) :
    WaterWritten k x s (putWater b k x s) := by
  refine ⟨((putWater b k x s).pedestal k).edition, ?_⟩
  cases x <;> simp [putWater, modPedestal, putPedestal, State.pedestal] <;> rfl

/-! ### Grants and service -/

theorem roomFor_some {s : State} {k : SocketId} {x : PowerSession} {n : Nat} (h : roomFor s k x = some n) :
    RoomAt s k x n := by
  simp only [roomFor] at h
  simp only [RoomAt]
  split at h
  · cases h; exact .inl ⟨‹_›, rfl⟩
  · split at h
    · cases h; exact .inr ⟨‹_›, ‹_ ∧ _›.1, ‹_ ∧ _›.2, rfl⟩
    · cases h

/-- The room that admission finds is the room of R99 and R101. -/
theorem roomAt_iff (s : State) (k : SocketId) (x : PowerSession) (n : Nat) : RoomAt s k x n ↔ roomFor s k x = some n := by
  refine ⟨fun h => ?_, roomFor_some⟩
  obtain ⟨h, rfl⟩ | ⟨h, g, j, rfl⟩ := h
  · exact if_pos h
  · exact (if_neg h).trans (if_pos ⟨g, j⟩)

/-- A grant is R100's. -/
theorem grant_granted (b : State) (k : SocketId) (x : PowerSession) (n : Nat) (s : State) :
    Granted k x n s (grant b k (attempted s k x) n s) :=
  putPower_written ..

/-- Service grants heads until one stays or each had its grant. -/
theorem serveLoop_listServed (b : State) (f : FeederId) (n : Nat) (s : State) :
    ∃ (m : Nat) (v : Nat → State), m ≤ n ∧ v 0 = s ∧ (∀ i, i < m → HeadGranted f (v i) (v (i + 1)))
      ∧ (HeadStays f (v m) (serveLoop b f n s) ∨ m = n ∧ serveLoop b f n s = v m) := by
  induction n generalizing s with
  | zero => exact ⟨0, fun _ => s, Nat.le_refl _, rfl, fun i h => absurd h (by omega), .inr ⟨rfl, rfl⟩⟩
  | succ n ih =>
    have stop : ∀ t, HeadStays f s t → serveLoop b f (n + 1) s = t → _ := fun t h e =>
      (⟨0, fun _ => s, Nat.zero_le _, rfl, fun i h => absurd h (by omega), .inl (e ▸ h)⟩ :
        ∃ (m : Nat) (v : Nat → State), m ≤ n + 1 ∧ v 0 = s ∧ (∀ i, i < m → HeadGranted f (v i) (v (i + 1)))
          ∧ (HeadStays f (v m) (serveLoop b f (n + 1) s) ∨ m = n + 1 ∧ serveLoop b f (n + 1) s = v m))
    cases hl : (s.feeder f).waitList with
    | nil => exact stop s (by simp [HeadStays, hl]) (by simp [serveLoop, hl])
    | cons k rest =>
      cases hx : s.power.get k with
      | none => exact stop s (by simp [HeadStays, hl, hx]) (by simp [serveLoop, hl, hx])
      | some x =>
        cases hr : (if x.held = 0 then roomFor s k x else none) with
        | none =>
          refine stop (putPower b k (some (attempted s k x)) s) ?_ (by simp [serveLoop, hl, hx, hr])
          simp only [HeadStays, hl, List.head?_cons, hx]
          refine ⟨?_, putPower_written ..⟩
          split at hr
          · exact .inr fun n h => by rw [(roomAt_iff ..).1 h] at hr; cases hr
          · exact .inl ‹_›
        | some amps =>
          have hh : x.held = 0 ∧ roomFor s k x = some amps := by
            split at hr
            · exact ⟨‹_›, hr⟩
            · cases hr
          obtain ⟨m, v, hm, h0, hv, he⟩ := ih (grant b k (attempted s k x) amps s)
          have e : serveLoop b f (n + 1) s = serveLoop b f n (grant b k (attempted s k x) amps s) := by
            rw [serveLoop, hl]; simp only [hx, hr]
          refine ⟨m + 1, fun i => match i with | 0 => s | i + 1 => v i, by omega, rfl, ?_, ?_⟩
          · rintro (_ | i) hi
            · exact ⟨k, x, amps, by rw [hl]; rfl, hx, hh.1, (roomAt_iff ..).2 hh.2, by
                show Granted k x amps s (v 0)
                rw [h0]; exact grant_granted ..⟩
            · exact hv i (by omega)
          · rw [e]
            obtain he | ⟨rfl, he⟩ := he
            · exact .inl he
            · exact .inr ⟨rfl, he⟩

/-- Service of a wait list (R101). -/
theorem serve_listServed (b : State) (f : FeederId) (s : State) : ListServed f s (serve b f s) := by
  refine ⟨fun h => if_pos h, fun h g => ?_⟩
  have e : serve b f s = serveLoop b f (s.feeder f).waitList.length s := if_neg (by simp [h, g])
  rw [e]; exact serveLoop_listServed b f _ s

/-- The end of a power session (R108). -/
theorem endPower_ended (b : State) (k : SocketId) (why : PowerEnd) (s : State) : PowerEnded k why s (endPower b k why s) := by
  intro x hx
  refine ⟨_, _, putPower_written b k none s, modAccount_written b x.account (fun a => { a with power := none }) _, ?_⟩
  have e : endPower b k why s = serve b (feederOf s k) (raise .powerEnded
      { account := some x.account, outlet := some (.socket k), value := some (x.energy : Int)
        reason := some (.powerEnd why), fault := x.fault }
      (modAccount b x.account (fun a => { a with power := none }) (putPower b k none s))) := by
    simp only [endPower, hx]
  rw [e]; exact serve_listServed ..

/-- The end of a water session (R116). -/
theorem endWater_ended (b : State) (k : TapId) (why : WaterEnd) (s : State) : WaterEnded k why s (endWater b k why s) := by
  intro x hx
  exact ⟨_, _, putWater_written b k none s, modAccount_written b x.account (fun a => { a with water := none }) _,
    by simp only [endWater, hx]⟩

/-! ### Requests and standing -/

/-- A request to suspend a power session (R109). -/
theorem suspendPower_suspended (b : State) (k : SocketId) (c : Cause) (s : State) :
    PowerSuspended k c s (suspendPower b k c s) := by
  unfold PowerSuspended suspendPower
  cases hx : s.power.get k with
  | none => rfl
  | some x =>
    cases hs : x.state <;> simp only [hs]
    case suspended => exact putPower_written ..
    case waiting =>
      refine ⟨_, putPower_written b k _ s, ?_⟩
      by_cases h : (s.feeder (feederOf s k)).waitList.head? = some k
      · refine Eq.mpr (if_pos h) ?_
        rw [if_pos h]; exact serve_listServed ..
      · refine Eq.mpr (if_neg h) ?_
        rw [if_neg h]; rfl
    all_goals exact ⟨_, putPower_written b k _ s, rfl⟩

theorem joined_length (b : State) (k : SocketId) (x y : PowerSession) (s : State) (hx : s.power.get k = some x)
    (hs : x.state ≠ .waiting) (hy : y.state = .waiting) :
    ((putPower b k (some y) s).feeder (feederOf (putPower b k (some y) s) k)).waitList.length
      = (s.feeder (feederOf s k)).waitList.length + 1 := by
  obtain ⟨e, d, h⟩ := putPower_written b k (some y) s
  rw [h]
  simp [State.feeder, feederOf, State.pedestal, hx, isWaiting, hs, hy]

/-- A request to resume a power session (R110). -/
theorem resumePower_resumed (b : State) (k : SocketId) (s : State) : PowerResumed k s (resumePower b k s) := by
  unfold PowerResumed
  cases hx : s.power.get k with
  | none => simp [resumePower, hx]
  | some x =>
    refine ⟨fun h => by simp [resumePower, hx, h], fun h g => ?_, fun h g => ?_⟩
    · have e : resumePower b k s = putPower b k (some { x with state := .switching, cause := none, confirmMisses := 0 }) s := by
        simp [resumePower, hx, h, g]
      rw [e]; exact putPower_written ..
    · have e : resumePower b k s = (enterAdmission b k { x with cause := none } s).getD (endPower b k .full s) := by
        simp only [resumePower, hx]
        rw [if_pos h, if_neg (by simp [g])]
        cases enterAdmission b k { x with cause := none } s <;> rfl
      rw [e]
      refine ⟨fun amps hf hr => ?_, fun hn => ?_⟩
      · have hr' : roomFor s k { x with cause := none } = some amps := (roomAt_iff ..).1 hr
        have : enterAdmission b k { x with cause := none } s
            = some (grant b k (attempted s k { x with cause := none }) amps s) := by
          unfold enterAdmission admissionTest
          simp only [feederOf, hf.1, hf.2, hr', and_self, ite_true]
        rw [this]; exact grant_granted ..
      · have hn' : (if (s.feeder (feederOf s k)).waitList = [] ∧ (s.feeder (feederOf s k)).relief = none
            then roomFor s k { x with cause := none } else none) = none := by
          obtain hn | hn := hn
          · exact if_neg hn
          · split
            · cases hr : roomFor s k { x with cause := none } with
              | none => rfl
              | some n => exact absurd (roomFor_some hr) (hn n)
            · rfl
        refine ⟨fun hl => ?_, fun hl => ?_⟩
        · have : enterAdmission b k { x with cause := none } s
              = some (joinWaitList b k (attempted s k { x with cause := none }) s) := by
            unfold enterAdmission admissionTest
            simp only [hn']
            rw [if_pos (show (s.feeder (feederOf s k)).waitList.length < Config.waitListRoom from hl)]
          rw [this]
          refine ⟨_, putPower_written b k _ s, ?_⟩
          simp only [joinWaitList]
          rw [joined_length b k x _ s hx (by simp [h]) rfl]
          rfl
        · have : enterAdmission b k { x with cause := none } s = none := by
            unfold enterAdmission admissionTest
            simp only [hn']
            rw [if_neg (show ¬ (s.feeder (feederOf s k)).waitList.length < Config.waitListRoom from Nat.not_lt.2 hl)]
          rw [this]; exact endPower_ended b k .full s

/-- A request to suspend a water session (R118). -/
theorem suspendWater_suspended (b : State) (k : TapId) (s : State) : WaterSuspended k s (suspendWater b k s) := by
  unfold WaterSuspended suspendWater
  cases hx : s.water.get k with
  | none => rfl
  | some x =>
    refine ⟨fun h => by simp [h], fun h => ?_⟩
    simp only [h, ite_true]; exact putWater_written ..

/-- A request to resume a water session (R118). -/
theorem resumeWater_resumed (b : State) (k : TapId) (s : State) : WaterResumed k s (resumeWater b k s) := by
  unfold WaterResumed resumeWater
  cases hx : s.water.get k with
  | none => rfl
  | some x =>
    refine ⟨fun h => by simp [h], fun h g => ?_, fun h g l => ?_⟩
    · have : capReached s x = false := by simp only [capReached]; simp; omega
      simp only [h, this, ite_true]; exact putWater_written ..
    · have : capReached s x = true := by simp only [capReached]; simp; omega
      simp only [h, this, ite_true]; exact putWater_written ..

theorem powerAsked_of (b : State) (a : AccountId) (was is : Standing) (s t : State)
    (h : ∀ k, (s.account a).power = some k → t = match was, is with
      | .good, .barred => suspendPower b k .barred s
      | .arrears, .barred => suspendPower b k .barred s
      | .barred, .good => resumePower b k s
      | .barred, .arrears => unbarIntoArrears b a k s
      | .arrears, .good => if suspendedFor s k .arrears then resumePower b k s else s
      | _, _ => s)
    (hn : (s.account a).power = none → t = s) : PowerAsked a was is s t := by
  simp only [PowerAsked]
  cases hp : (s.account a).power with
  | none => exact hn hp
  | some k =>
    have sus : ∀ c, suspendedFor s k c = true ↔ ∃ y, s.power.get k = some y ∧ y.state = .suspended ∧ y.cause = some c := by
      intro c
      unfold suspendedFor
      cases s.power.get k <;> simp
    have e := h k hp
    cases was <;> cases is <;> simp only at e ⊢ <;> subst e
    case good.barred => exact suspendPower_suspended ..
    case arrears.barred => exact suspendPower_suspended ..
    case barred.good => exact resumePower_resumed ..
    case barred.arrears =>
      refine ⟨fun g => ?_, fun g l => ?_, fun g l => ?_⟩
      · exact if_neg fun h => g ((sus _).1 h)
      · have : unbarIntoArrears b a k s = resumePower b k s := by
          unfold unbarIntoArrears; rw [if_pos ((sus _).2 g), if_pos l]
        rw [this]; exact resumePower_resumed ..
      · have : unbarIntoArrears b a k s = suspendPower b k .arrears s := by
          unfold unbarIntoArrears; rw [if_pos ((sus _).2 g), if_neg (Nat.not_lt.2 l)]
        rw [this]; exact suspendPower_suspended ..
    case arrears.good =>
      refine ⟨fun g => if_neg fun h => g ((sus _).1 h), fun g => ?_⟩
      rw [if_pos ((sus _).2 g)]; exact resumePower_resumed ..
    all_goals rfl

theorem waterAsked_of (b : State) (a : AccountId) (was is : Standing) (s t : State)
    (h : ∀ k, (s.account a).water = some k → t = match was, is with
      | .good, .barred => suspendWater b k s
      | .arrears, .barred => suspendWater b k s
      | .barred, .good => resumeWater b k s
      | .barred, .arrears => resumeWater b k s
      | _, _ => s)
    (hn : (s.account a).water = none → t = s) : WaterAsked a was is s t := by
  simp only [WaterAsked]
  cases hp : (s.account a).water with
  | none => exact hn hp
  | some k =>
    have e := h k hp
    cases was <;> cases is <;> simp only at e ⊢ <;> subst e
    all_goals first
      | exact suspendWater_suspended ..
      | exact resumeWater_resumed ..
      | rfl

theorem toPower_asked (b : State) (a : AccountId) (was is : Standing) (f : SocketId → State → State) (s : State)
    (h : ∀ k, f k s = match was, is with
      | .good, .barred => suspendPower b k .barred s
      | .arrears, .barred => suspendPower b k .barred s
      | .barred, .good => resumePower b k s
      | .barred, .arrears => unbarIntoArrears b a k s
      | .arrears, .good => if suspendedFor s k .arrears then resumePower b k s else s
      | _, _ => s) : PowerAsked a was is s (toPower a f s) :=
  powerAsked_of b a was is s _ (fun k hk => by simp only [toPower, hk, h]) (fun hn => by simp only [toPower, hn])

theorem toWater_asked (b : State) (a : AccountId) (was is : Standing) (f : TapId → State → State) (s : State)
    (h : ∀ k, f k s = match was, is with
      | .good, .barred => suspendWater b k s
      | .arrears, .barred => suspendWater b k s
      | .barred, .good => resumeWater b k s
      | .barred, .arrears => resumeWater b k s
      | _, _ => s) : WaterAsked a was is s (toWater a f s) :=
  waterAsked_of b a was is s _ (fun k hk => by simp only [toWater, hk, h]) (fun hn => by simp only [toWater, hn])

/-- The requests that a change of standing makes (R10). -/
theorem standingRequests_asked (b : State) (a : AccountId) (was is : Standing) (s : State) (h : is ≠ was) :
    ∃ v, (was = .barred ∧ is = .arrears → WaterAsked a was is s v ∧ PowerAsked a was is v (standingRequests b a was is s))
      ∧ (¬ (was = .barred ∧ is = .arrears) →
          PowerAsked a was is s v ∧ WaterAsked a was is v (standingRequests b a was is s)) := by
  have power := fun f s => toPower_asked b a was is f s
  have water := fun f s => toWater_asked b a was is f s
  have stays : ∀ s, (¬ ∃ k, ∃ _ : (s.account a).water = some k, is ≠ was ∧ (was = .barred ∨ is = .barred)) →
      WaterAsked a was is s s := by
    intro s hs
    refine waterAsked_of b a was is s s (fun k hk => ?_) fun _ => rfl
    cases was <;> cases is <;> first | rfl | (exact absurd ⟨k, hk, by simp⟩ hs)
  cases was <;> cases is <;> first | (exact absurd rfl h) | skip
  case good.arrears =>
    exact ⟨s, fun h => by simp at h, fun _ => ⟨power (fun _ s => s) s (fun _ => rfl) |> cast (by
      congr 1; unfold toPower; split <;> rfl), stays s (by simp)⟩⟩
  case arrears.good =>
    exact ⟨_, fun h => by simp at h, fun _ => ⟨power _ s fun _ => rfl, stays _ (by simp)⟩⟩
  case barred.arrears => exact ⟨_, fun _ => ⟨water _ s fun _ => rfl, power _ _ fun _ => rfl⟩, fun h => by simp at h⟩
  all_goals exact ⟨_, fun h => by simp at h, fun _ => ⟨power _ s fun _ => rfl, water _ _ fun _ => rfl⟩⟩

/-- An evaluation of standing (R9, R10). -/
theorem evaluateStanding_settled (b : State) (a : AccountId) (s : State) : StandingSettled a s (evaluateStanding b a s) := by
  simp only [StandingSettled]
  refine ⟨fun h => if_pos h, fun hf hn => ?_⟩
  have e : evaluateStanding b a s = standingRequests b a (s.account a).standing _ _ := if_neg (not_or.2 ⟨hf, hn⟩)
  rw [e]
  exact ⟨_, (standingRequests_asked b a _ _ _ hn).choose, putAccount_written b a _ s,
    (standingRequests_asked b a _ _ _ hn).choose_spec⟩

theorem Table.put_put {α : Type} {n : Nat} (t : Table α n) (i : Fin n) (x y : α) : (t.put i x).put i y = t.put i y :=
  Table.ext_get fun j => by by_cases h : i = j <;> simp [Table.get_put, h]

/-- A record already written in this change is written again. -/
theorem putAccount_again {s r : State} {a : AccountId} {x : Account} (b : State) (y : Account)
    (h : AccountWritten a x s r) : AccountWritten a y s (putAccount b a y r) := by
  obtain ⟨e, rfl⟩ := h
  exact ⟨_, by simp only [putAccount, Table.put_put]; rfl⟩

theorem AccountWritten.get {s r : State} {a : AccountId} {x : Account} (h : AccountWritten a x s r) :
    ∃ e, r.account a = { x with edition := e } := by
  obtain ⟨e, rfl⟩ := h; exact ⟨e, by simp [State.account]⟩

theorem modAccount_again {s r : State} {a : AccountId} {x : Account} (b : State) (f : Account → Account)
    (hf : ∀ e, f { x with edition := e } = { f x with edition := e }) (h : AccountWritten a x s r) :
    AccountWritten a (f x) s (modAccount b a f r) := by
  obtain ⟨e, rfl⟩ := h
  refine ⟨((b.account a).settled (f { x with edition := e })).edition, ?_⟩
  simp only [modAccount, putAccount, Table.put_put, State.account, Table.get_put_self]
  rw [hf]; rfl

/-- A debit of an account just written (R6). -/
theorem debitAccount_charged {s r : State} {a : AccountId} {x : Account} (b : State) (cents : Nat)
    (h : AccountWritten a x s r) : Charged a x cents s (debitAccount b a cents r) := by
  obtain ⟨e, hx⟩ := h.get
  unfold debitAccount
  simp only [hx]
  by_cases hc : -99999999 ≤ x.balance - cents
  · rw [if_pos (show -Config.balanceLimit ≤ x.balance - cents from hc)]
    exact ⟨_, fun _ => ⟨putAccount_again b _ h, evaluateStanding_settled ..⟩, fun g => by omega⟩
  · rw [if_neg (show ¬ -Config.balanceLimit ≤ x.balance - cents from hc)]
    exact ⟨_, fun g => absurd g hc, fun _ => ⟨putAccount_again b { x with balance := -99999999, clamped := true } h,
      evaluateStanding_settled ..⟩⟩

/-- A charge of a quantity (R27). -/
theorem charge_charged (b : State) (a : AccountId) (v : Service) (q : Nat) (s : State) :
    QuantityCharged a v q s (charge b a v q (bandNow s) s) :=
  debitAccount_charged b _ (modAccount_written b a (fun x => { x with residues := x.residues.put (serviceIx v) _ }) s)

/-! ### Tanks and sales -/

/-- A tank written with its low flag (R124). -/
theorem settleLow_settled (b : State) (k : ProductId) (x : Tank) (s : State) : TankSettled k x s (settleLow b k x s) := by
  refine ⟨((b.tank k).settled x.evaluated).edition, ?_⟩
  have e : x.raisesLow = true ↔ decide (x.book - x.holds < x.cfg.low) = true ∧ x.lowFlag = false := by
    simp only [Tank.raisesLow, Tank.available, Bool.and_eq_true, Bool.not_eq_true']; exact and_comm
  simp only [settleLow]
  by_cases h : x.raisesLow = true
  · rw [if_pos h, if_pos (e.1 h)]; rfl
  · rw [if_neg h, if_neg fun g => h (e.2 g)]; rfl

theorem discrepant_eq (k : ProductId) (n : Nat) (s : State) :
    (if n ≠ 0 then discrepancyNotice k n s else s) = discrepant k n s := by
  by_cases h : n = 0 <;> simp [h, discrepant, discrepancyNotice]

/-- The clamp of a tank at a warm start (R146). -/
theorem clampTank_clamped (b : State) (k : ProductId) (s : State) : TankClamped k s (clampTank b k s) := by
  simp only [TankClamped, clampTank, discrepant_eq]
  exact settleLow_settled ..

/-- The tank at the end of a sale (R141). -/
theorem settleTank_settled (b : State) (x : Sale) (s : State) :
    let tank := s.tank x.product
    let holds := tank.holds - x.volumeHold
    let short := holds + x.delivered - tank.book
    TankSettled x.product
      { tank with
        book := max (tank.book - x.delivered) holds, holds := holds
        discrepancy := min (tank.discrepancy + short) 4294967295 }
      (discrepant x.product short s) (settleTank b x s) := by
  intro tank holds short
  simp only [settleTank, discrepant_eq]
  exact settleLow_settled ..

theorem TankSettled.accounts {k : ProductId} {y : Tank} {s t : State} (h : TankSettled k y s t) :
    t = { s with tanks := t.tanks, ports := t.ports, heldNotices := t.heldNotices } := by
  obtain ⟨e, h⟩ := h
  rw [h]; split
  · simp only [raise, routeNotice]; split <;> rfl
  · rfl

theorem saleLog_eq {α : Type} (l : List α) (x : α) :
    logAfter Config.saleLogRoom l x = (if l.length < 64 then l else l.drop (l.length - 63)) ++ [x] := by
  unfold logAfter
  by_cases h : l.length < 64
  · rw [if_pos (show l.length < Config.saleLogRoom from h), if_pos h]
  · rw [if_neg (show ¬ l.length < Config.saleLogRoom from h), if_neg h]
    have : l.length + 1 - Config.saleLogRoom = l.length - 63 := by show l.length + 1 - 64 = _; omega
    rw [this]

/-- The last clause of `SaleEnded`. -/
theorem endSale_changes (b : State) (n : PumpId) (x : Sale) (why : SaleEnd) (s : State) :
    ∃ u, TankSettled x.product
        { s.tank x.product with
          book := max ((s.tank x.product).book - x.delivered) ((s.tank x.product).holds - x.volumeHold)
          holds := (s.tank x.product).holds - x.volumeHold
          discrepancy := min ((s.tank x.product).discrepancy
            + ((s.tank x.product).holds - x.volumeHold + x.delivered - (s.tank x.product).book)) 4294967295 }
        (discrepant x.product ((s.tank x.product).holds - x.volumeHold + x.delivered - (s.tank x.product).book) s) u
      ∧ (∀ paid, x.buyer = .prepay paid → settleBuyer b x (saleCharge s x).1 (saleCharge s x).2 u = u)
      ∧ (∀ a, x.buyer = .account a →
          ∃ r, AccountWritten a
              { s.account a with
                holds := (s.account a).holds - x.moneyHold, sale := none
                residues := (s.account a).residues.put (serviceIx (fuelService x.product)) (saleCharge s x).2 } u r
            ∧ settleBuyer b x (saleCharge s x).1 (saleCharge s x).2 u = debitAccount b a (saleCharge s x).1 r)
      ∧ ∃ e : Edition, endSale b n x why s = raise .saleEnded
          { account := x.buyer.account?, pump := some n, value := some ((saleCharge s x).1 : Int)
            reason := some (.saleEnd why) }
          (let v := settleBuyer b x (saleCharge s x).1 (saleCharge s x).2 u
           { v with
             pumps := v.pumps.put n { s.pump n with sale := none, order := .cancel, timer := none, edition := e }
             saleLog := (if v.saleLog.length < 64 then v.saleLog else v.saleLog.drop (v.saleLog.length - 63))
               ++ [endedSale s x why] }) := by
  have acc : ∀ a, (settleTank b x s).account a = s.account a := fun a => by
    rw [settleTank_tankEq b x s]; rfl
  have pump : (settleBuyer b x (saleCharge s x).1 (saleCharge s x).2 (settleTank b x s)).pump n = s.pump n := by
    have h2 := (settleBuyer_worked b x (saleCharge s x).1 (saleCharge s x).2 (saleCharge_residue_lt s x)
      (.refl (settleTank b x s))).eq
    rw [h2, settleTank_tankEq b x s]; rfl
  refine ⟨settleTank b x s, settleTank_settled b x s, fun paid h => ?_, fun a h => ?_, ?_⟩
  · simp only [settleBuyer, h]
  · simp only [settleBuyer, h, applyCharge]
    refine ⟨_, ?_, rfl⟩
    have w := modAccount_written b a (fun y => { y with holds := y.holds - x.moneyHold, sale := none }) (settleTank b x s)
    rw [acc] at w
    exact modAccount_again b (fun y => { y with residues := y.residues.put (serviceIx (fuelService x.product)) (saleCharge s x).2 })
      (fun _ => rfl) w
  · refine ⟨((b.pump n).settled { s.pump n with sale := none, order := .cancel, timer := none }).edition, ?_⟩
    simp only [endSale, saleLog_eq, pump]
    rfl

/-- What an evaluation leaves of the accounts. -/
theorem evaluateStanding_account (b : State) (a : AccountId) (s : State) :
    let t := evaluateStanding b a s
    t.account a =
        { s.account a with
          standing := (t.account a).standing, arrearsNights := (t.account a).arrearsNights
          power := (t.account a).power, water := (t.account a).water, edition := (t.account a).edition }
      ∧ ((s.account a).state ≠ .free → (t.account a).standing =
          standingOf (s.account a).barredFlag (s.account a).balance (s.classOf (s.account a)).floor)
      ∧ ∀ i, i ≠ a → t.account i =
          { s.account i with
            power := (t.account i).power, water := (t.account i).water, edition := (t.account i).edition } := by
  dsimp only
  rcases evaluateStanding_cases b a s with ⟨e, w⟩ | w
  · rw [e]
    exact ⟨rfl, fun h => w.resolve_left h, fun _ _ => rfl⟩
  · have g := w.links a
    refine ⟨by rw [g, putAccount_account, if_pos rfl]; rfl, fun _ => ?_, fun i hi => ?_⟩
    · rw [g, putAccount_account, if_pos rfl]; rfl
    · rw [w.links i, putAccount_account, if_neg fun e => hi e.symm]

/-- What a debit leaves of the accounts. -/
theorem debitAccount_account (b : State) (cents : Nat) {a : AccountId} {x : Account} {s r : State}
    (h : AccountWritten a x s r) :
    let t := debitAccount b a cents r
    let clamps : Bool := x.balance - cents < -99999999
    t.account a =
        { x with
          balance := if clamps then -99999999 else x.balance - cents, clamped := x.clamped || clamps
          standing := (t.account a).standing, arrearsNights := (t.account a).arrearsNights
          power := (t.account a).power, water := (t.account a).water, edition := (t.account a).edition }
      ∧ (x.state ≠ .free → (t.account a).standing = standingOf x.barredFlag (t.account a).balance (s.classOf x).floor)
      ∧ ∀ i, i ≠ a → t.account i =
          { s.account i with
            power := (t.account i).power, water := (t.account i).water, edition := (t.account i).edition } := by
  obtain ⟨e, rfl⟩ := h
  dsimp only
  simp only [debitAccount, State.account, Table.get_put_self]
  by_cases hc : -99999999 ≤ x.balance - cents
  · rw [if_pos (show -Config.balanceLimit ≤ x.balance - cents from hc)]
    generalize hu : putAccount b a _ _ = u
    have ha : u.account a = { x with balance := x.balance - cents, edition := (u.account a).edition } := by
      rw [← hu, putAccount_account, if_pos rfl]; rfl
    have hi : ∀ i, i ≠ a → u.account i = s.account i := fun i hi => by
      rw [← hu, putAccount_account, if_neg fun e => hi e.symm]
      exact Table.get_put_ne _ _ fun e => hi e.symm
    have hk : u.classes = s.classes := by rw [← hu]; rfl
    have d : decide (x.balance - cents < -99999999) = false := by simp; omega
    obtain ⟨h1, h2, h3⟩ := evaluateStanding_account b a u
    rw [ha] at h1 h2
    refine ⟨?_, fun hf => ?_, fun i hne => ?_⟩
    · simp only [d, Bool.or_false]; exact h1
    · have := h2 hf
      rw [show ((evaluateStanding b a u).accounts.get a).balance = x.balance - cents from by
        have := congrArg Account.balance h1; exact this]
      rw [State.classOf, hk] at this; exact this
    · have := h3 i hne; rw [hi i hne] at this; exact this
  · rw [if_neg (show ¬ -Config.balanceLimit ≤ x.balance - cents from hc)]
    generalize hu : raise _ _ (putAccount b a _ _) = u
    have ha : u.account a = { x with balance := -99999999, clamped := true, edition := (u.account a).edition } := by
      rw [← hu, raise_account, putAccount_account, if_pos rfl]; rfl
    have hi : ∀ i, i ≠ a → u.account i = s.account i := fun i hi => by
      rw [← hu, raise_account, putAccount_account, if_neg fun e => hi e.symm]
      exact Table.get_put_ne _ _ fun e => hi e.symm
    have hk : u.classes = s.classes := by rw [← hu, raise_classes]; rfl
    have d : decide (x.balance - cents < -99999999) = true := by simp; omega
    obtain ⟨h1, h2, h3⟩ := evaluateStanding_account b a u
    rw [ha] at h1 h2
    refine ⟨?_, fun hf => ?_, fun i hne => ?_⟩
    · simp only [d, Bool.or_true]; exact h1
    · have := h2 hf
      rw [show ((evaluateStanding b a u).accounts.get a).balance = -99999999 from by
        have := congrArg Account.balance h1; exact this]
      rw [State.classOf, hk] at this; exact this
    · have := h3 i hne; rw [hi i hne] at this; exact this

theorem saleCharge_account (s : State) (x : Sale) (a : AccountId) (h : x.buyer = .account a) :
    saleCharge s x =
      (((s.account a).residues.get (serviceIx (fuelService x.product)) + x.delivered * rateNow s x.buyer x.product) / 10000,
       ((s.account a).residues.get (serviceIx (fuelService x.product)) + x.delivered * rateNow s x.buyer x.product) % 10000) := by
  simp only [saleCharge, h]; rfl

theorem saleCharge_prepay (s : State) (x : Sale) (paid : Nat) (h : x.buyer = .prepay paid) :
    saleCharge s x = (min (x.delivered * rateNow s x.buyer x.product / 10000) paid, 0) := by
  simp only [saleCharge, h]; rfl

/-- Every field but those of accounts, sessions and notice queues is as it was. -/
abbrev PaidEq (s t : State) : Prop :=
  t =
    { s with
      accounts := t.accounts, pedestals := t.pedestals, power := t.power, water := t.water, feeders := t.feeders
      grantCount := t.grantCount, ports := t.ports, heldNotices := t.heldNotices }

theorem evaluateStanding_eq (b : State) (a : AccountId) (s : State) : PaidEq s (evaluateStanding b a s) := by
  rcases evaluateStanding_cases b a s with ⟨e, _⟩ | w
  · rw [PaidEq, e]
  · have := w.eq
    exact this

theorem PaidEq.trans {s t u : State} (h : PaidEq s t) (k : PaidEq t u) : PaidEq s u := by rw [k, h]

theorem debitAccount_eq (b : State) (a : AccountId) (cents : Nat) (s : State) : PaidEq s (debitAccount b a cents s) := by
  unfold debitAccount
  dsimp only
  refine PaidEq.trans ?_ (evaluateStanding_eq b a _)
  split
  · rfl
  · exact PaidEq.trans (t := putAccount b a _ s) rfl (by rw [PaidEq, (raise_noticed_self _ _ _).eq])

theorem settleBuyer_eq (b : State) (x : Sale) (cents residue : Nat) (s : State) : PaidEq s (settleBuyer b x cents residue s) := by
  unfold settleBuyer
  split
  · exact PaidEq.trans (t := modAccount b _ _ s) rfl
      (PaidEq.trans (t := modAccount b _ _ (modAccount b _ _ s)) rfl (debitAccount_eq b _ _ _))
  · rfl

/-- All that the end of a sale does. -/
theorem endSale_ended (b : State) (n : PumpId) (x : Sale) (why : SaleEnd) (s : State) :
    SaleEnded n x why s (endSale b n x why s) := by
  obtain ⟨u, hu, hp, ha, e, ht⟩ := endSale_changes b n x why s
  have hlog := endSale_saleLog b n x why s
  have hlogged : s.saleLog.length ≤ 64 → (endSale b n x why s).saleLog
      = (if s.saleLog.length < 64 then s.saleLog else s.saleLog.tail) ++ [endedSale s x why] := fun h => by
    rw [hlog, saleLog_eq]
    split
    · rfl
    · rw [show s.saleLog.length - 63 = 1 by omega, List.drop_one]
  have hacc : (endSale b n x why s).accounts
      = (settleBuyer b x (saleCharge s x).1 (saleCharge s x).2 u).accounts := by rw [ht, raise_accounts]
  have hu' : u.accounts = s.accounts := by
    rw [hu.accounts]; unfold discrepant; split
    · rfl
    · rw [raise_accounts]
  refine ⟨?_, ?_, ?_, ?_, u, hu, ?_⟩
  · have e1 : PaidEq u _ := settleBuyer_eq b x (saleCharge s x).1 (saleCharge s x).2 u
    generalize settleBuyer b x (saleCharge s x).1 (saleCharge s x).2 u = v at *
    have e2 := hu.accounts
    generalize hd : discrepant _ _ s = w at *
    have e3 : w = { s with ports := w.ports, heldNotices := w.heldNotices } := by
      rw [← hd]; unfold discrepant; split
      · rfl
      · exact (raise_noticed_self _ _ _).eq
    have e4 := (raise_noticed_self .saleEnded
          { account := x.buyer.account?, pump := some n, value := some ((saleCharge s x).1 : Int)
            reason := some (.saleEnd why) } { v with
             pumps := v.pumps.put n { s.pump n with sale := none, order := .cancel, timer := none, edition := e }
             saleLog := (if v.saleLog.length < 64 then v.saleLog else v.saleLog.drop (v.saleLog.length - 63))
               ++ [endedSale s x why] }).eq
    rw [← ht] at e4
    rw [e4, e1, e2, e3]
  · rw [endSale_pumps]
    refine Table.ext_get fun i => ?_
    simp only [State.pump, endSale_pumps, Table.get_put_self, Table.get_put]
    split
    · rfl
    · rfl
  · rw [endSale_tanks]
    refine Table.ext_get fun i => ?_
    simp only [State.tank, endSale_tanks, Table.get_put_self, Table.get_put]
    split
    · rfl
    · rfl
  · split
    · next paid hb =>
      have hc := saleCharge_prepay s x paid hb
      refine ⟨fun h => ?_, by rw [hacc, hp paid hb, hu']⟩
      rw [hlogged h]
      simp only [endedSale, hc, hb]
    · next a hb =>
      have hc := saleCharge_account s x a hb
      have hw := ha a hb
      refine ⟨fun h => ?_, ?_⟩
      · rw [hlogged h]
        simp only [endedSale, hc, hb]
      · obtain ⟨r, hr, he⟩ := hw
        have hv : ∀ i, (endSale b n x why s).account i = (debitAccount b a (saleCharge s x).1 r).account i := fun i => by
          simp only [State.account, hacc, he]
        obtain ⟨h1, h2, h3⟩ := debitAccount_account b (saleCharge s x).1 hr
        have hu2 : u.classes = s.classes := by
          rw [hu.accounts]; unfold discrepant; split
          · rfl
          · rw [raise_classes]
        simp only [hv]
        rw [State.classOf, hu2] at h2
        simp only [hc] at h1 h2 h3 ⊢
        refine ⟨?_, h2, fun i hi => ?_⟩
        · rw [h1]
        · rw [h3 i hi, State.account, hu']; rfl
  · split
    · next paid hb =>
      have hc := saleCharge_prepay s x paid hb
      refine ⟨e, ?_⟩
      have hs := hp paid hb
      rw [hs] at ht
      rw [ht]
      simp only [endedSale, hc, hb]
      rfl
    · next a hb =>
      have hc := saleCharge_account s x a hb
      obtain ⟨r, hr, he⟩ := ha a hb
      have hd := debitAccount_charged b (saleCharge s x).1 hr
      rw [← he] at hd
      refine ⟨settleBuyer b x (saleCharge s x).1 (saleCharge s x).2 u, ?_, e, ?_⟩
      · simp only [hc, hb] at hd ⊢; exact hd
      · rw [ht]
        simp only [endedSale, hc, hb]
        rfl

/-! ### Record after record -/

/-- What holds of each step holds of the steps in turn. -/
theorem eachId_inTurn {n : Nat} (f : Fin n → State → State) {P : Fin n → State → State → Prop}
    (h : ∀ i s, P i s (f i s)) (s : State) : InTurn n P s (eachId n f s) := by
  refine ⟨fun j => ((List.finRange n).take j).foldl (fun s i => f i s) s, rfl, ?_, fun i => ?_⟩
  · show ((List.finRange n).take n).foldl _ s = _
    rw [List.take_of_length_le (by simp)]; rfl
  · have : (List.finRange n).take (i.val + 1) = (List.finRange n).take i.val ++ [i] := by
      rw [List.take_add_one]
      simp
    show P i _ (((List.finRange n).take (i.val + 1)).foldl _ s)
    rw [this, List.foldl_append]
    exact h i _

/-- The open sales end, pump by pump (R140). -/
theorem endSaleAt_ended (b : State) (why : SaleEnd) (s : State) : SalesEnded why s (eachId 4 (endSaleAt b why) s) :=
  eachId_inTurn _ (fun n s => by
    constructor
    · intro h; simp only [endSaleAt, h]
    · intro x h; simp only [endSaleAt, h]; exact endSale_ended ..) s

end Sys2Proof.Machine
end

