-- ==== Sys2Proof/Laws/Ports.lean ====
section
/-! SUPPORT. What a command line at a port can do (R164 to R168), and what the port operations write. -/

namespace Sys2Proof.Machine

/-! ### Replies and holding records -/

/-- A reply puts its port in ANSWERING with an empty assembler and its lines on the line; queue, cursor and holding record stay. -/
theorem reply_port (p q : PortId) (suffix : Bool) (lines : List ReplyLine) (s : State) :
    (reply p suffix lines s).port q =
      if p = q then
        { s.port p with state := .replying, line := [], overlong := false, suffix := suffix, reply := lines }
      else s.port q := putPort_port p q _ s

theorem reply_eq (p : PortId) (suffix : Bool) (lines : List ReplyLine) (s : State) :
    reply p suffix lines s = { s with ports := (reply p suffix lines s).ports } := rfl

/-- A port whose notice queue and ATTN are those of the port it replaces keeps the law of queues. -/
theorem putPort_queuesOk {p : PortId} {x : Port} {s : State} (hx : x.queueOk) (h : QueuesOk s) :
    QueuesOk (putPort p x s) := by
  intro i
  show ((s.ports.put (portIx p) x).get i).queueOk
  rw [Table.get_put]
  split
  · exact hx
  · exact h i

theorem reply_queuesOk (p : PortId) (suffix : Bool) (lines : List ReplyLine) {s : State} (h : QueuesOk s) :
    QueuesOk (reply p suffix lines s) := putPort_queuesOk (h (portIx p)) h

theorem loadHolding_port (p q : PortId) (t : TableName) (ix : Nat) (s : State) :
    (loadHolding p t ix s).port q =
      if p = q then { s.port p with cursor := { table := t, index := ix }, holding := entryAt s t ix }
      else s.port q := putPort_port p q _ s

theorem loadHolding_eq (p : PortId) (t : TableName) (ix : Nat) (s : State) :
    loadHolding p t ix s = { s with ports := (loadHolding p t ix s).ports } := rfl

theorem loadHolding_queuesOk (p : PortId) (t : TableName) (ix : Nat) {s : State} (h : QueuesOk s) :
    QueuesOk (loadHolding p t ix s) := putPort_queuesOk (h (portIx p)) h

theorem advanceCursor_queuesOk (p : PortId) {s : State} (h : QueuesOk s) : QueuesOk (advanceCursor p s) :=
  loadHolding_queuesOk _ _ _ h

/-! ### A command line -/

/-- Everything checks 3 to 6 can make of a command: one refusal with nothing changed, or the owner's state and its reply. -/
theorem takeCommand_cases (i : Instr) (o : Origin) (ports : List PortId) (adm : Admission)
    (owner : State → Answer) (after : State → State) (s : State) :
    (∃ r, takeCommand i o ports adm owner after s = reply o.port o.suffix [r] s)
    ∨ ∃ t lines, owner s = .ok (t, lines) ∧
        takeCommand i o ports adm owner after s = after (reply o.port o.suffix lines t) := by
  unfold takeCommand
  split
  · exact .inl ⟨_, rfl⟩
  · split
    · exact .inl ⟨_, rfl⟩
    · split
      · exact .inl ⟨_, rfl⟩
      · split
        · exact .inl ⟨_, rfl⟩
        · next t lines e => exact .inr ⟨t, lines, e, rfl⟩

/-- A command whose checks 3 to 5 pass gives its owner's answer. -/
theorem takeCommand_taken {i : Instr} {o : Origin} {ports : List PortId} {adm : Admission}
    {owner : State → Answer} {after : State → State} {s t : State} {lines : List ReplyLine}
    (hw : i.wellFormed = true) (hp : ports.contains o.port = true) (ha : adm.answer s.device = none)
    (ho : owner s = .ok (t, lines)) :
    takeCommand i o ports adm owner after s = after (reply o.port o.suffix lines t) := by
  unfold takeCommand; rw [hw, hp, ha, ho]; rfl

/-- A command whose checks 3 to 5 pass is refused as its owner refuses it. -/
theorem takeCommand_refused {i : Instr} {o : Origin} {ports : List PortId} {adm : Admission}
    {owner : State → Answer} {after : State → State} {s : State} {r : Refuse}
    (hw : i.wellFormed = true) (hp : ports.contains o.port = true) (ha : adm.answer s.device = none)
    (ho : owner s = .error r) :
    takeCommand i o ports adm owner after s = reply o.port o.suffix [.refused r] s := by
  unfold takeCommand; rw [hw, hp, ha, ho]; rfl

/-- A port whose line is the command takes it. -/
theorem portCommandThen_takes {i : Instr} {o : Origin} {ports : List PortId} {adm : Admission}
    {owner : State → Answer} {after : State → State} {s : State} (h : Takes i o s) :
    portCommandThen i o ports adm owner after s = takeCommand i o ports adm owner after s := by
  obtain ⟨h0, h | ⟨h, e⟩⟩ := h
  · simp [portCommandThen, h0, h]
  · simp [portCommandThen, h0, h, e]

/-- A port that does not take the command changes nothing. -/
theorem portCommandThen_cases (i : Instr) (o : Origin) (ports : List PortId) (adm : Admission)
    (owner : State → Answer) (after : State → State) (s : State) :
    portCommandThen i o ports adm owner after s = s
    ∨ portCommandThen i o ports adm owner after s = takeCommand i o ports adm owner after s := by
  unfold portCommandThen
  split
  · exact .inl rfl
  · split
    · exact .inr rfl
    · split
      · exact .inr rfl
      · exact .inl rfl
    · exact .inl rfl

/-- A law that replies keep is kept by a command when its owner keeps it. -/
theorem portCommandThen_keeps {P : State → Prop} {i : Instr} {o : Origin} {ports : List PortId} {adm : Admission}
    {owner : State → Answer} {after : State → State} {s : State}
    (hr : ∀ lines {t}, P t → P (reply o.port o.suffix lines t))
    (ho : ∀ {t lines}, owner s = .ok (t, lines) → P t)
    (ha : ∀ {t}, P t → P (after t)) (h : P s) : P (portCommandThen i o ports adm owner after s) := by
  rcases portCommandThen_cases i o ports adm owner after s with e | e
  · rw [e]; exact h
  · rcases takeCommand_cases i o ports adm owner after s with ⟨r, e'⟩ | ⟨t, lines, e', e''⟩
    · rw [e, e']; exact hr _ h
    · rw [e, e'']; exact ha (hr _ (ho e'))

theorem portCommand_keeps {P : State → Prop} {i : Instr} {o : Origin} {ports : List PortId} {adm : Admission}
    {owner : State → Answer} {s : State}
    (hr : ∀ lines {t}, P t → P (reply o.port o.suffix lines t))
    (ho : ∀ {t lines}, owner s = .ok (t, lines) → P t) (h : P s) : P (portCommand i o ports adm owner s) :=
  portCommandThen_keeps hr ho (fun h => h) h

/-- A law is kept by an event when what the event does keeps it. -/
theorem event_keeps {P : State → Prop} {f : State → State} {s : State} (hf : P s → P (f s)) (h : P s) :
    P (event f s) := by
  unfold event; split
  · exact h
  · exact hf h

/-- An event at a part that has not stopped. -/
theorem event_running {f : State → State} {s : State} (h : s.stopped = false) : event f s = f s := by
  simp [event, h]

end Sys2Proof.Machine
end

