-- ==== Sys2Proof/Laws/Commands.lean ====
section
/-! SUPPORT. The form every command line has: one call of the port, with the ports of R167, the admission of R168 and an owner. -/

namespace Sys2Proof.Machine

/-- The form of a command row: its ports and its admission are those of R167 and R168. -/
structure CommandForm (c : Instr) (o : Origin) (ports : List PortId) (adm : Admission) (owner : State → Answer)
    (after : State → State) : Prop where
  runs : ∀ s, exec c s = .next (portCommandThen c o ports adm owner after s)
  ports : ∀ p, ports.contains p = permitted c p
  admits : ∀ d, admitted c d = true → adm.answer d = none
  turnsAway : ∀ d, admitted c d = false → adm.answer d = some (notAdmittedReply c d)

/-- A command that passes checks 1 to 5 gives its owner's answer. -/
theorem CommandForm.taken {c : Instr} {o : Origin} {ports : List PortId} {adm : Admission} {owner : State → Answer}
    {after : State → State} (f : CommandForm c o ports adm owner after) {s t : State} {lines : List ReplyLine}
    (h : Ready c o s) (ho : owner s = .ok (t, lines)) :
    exec c s = .next (after (reply o.port o.suffix lines t)) := by
  obtain ⟨_, ht, hw, hp, ha⟩ := h
  rw [f.runs, portCommandThen_takes ht, takeCommand_taken hw ((f.ports _).trans hp) (f.admits _ ha) ho]

/-- A command that passes checks 1 to 5 is refused as its owner refuses it. -/
theorem CommandForm.refused {c : Instr} {o : Origin} {ports : List PortId} {adm : Admission} {owner : State → Answer}
    {after : State → State} (f : CommandForm c o ports adm owner after) {s : State} {r : Refuse}
    (h : Ready c o s) (ho : owner s = .error r) :
    exec c s = .next (reply o.port o.suffix [.refused r] s) := by
  obtain ⟨_, ht, hw, hp, ha⟩ := h
  rw [f.runs, portCommandThen_takes ht, takeCommand_refused hw ((f.ports _).trans hp) (f.admits _ ha) ho]

/-! ### One lemma per command -/

theorem openAccount_form (o : Origin) (account : Option Nat) :
    CommandForm (.openAccount o account) o portO .trade (openAccountOwner account) id where
  runs _ := rfl
  ports p := by cases p <;> rfl
  admits d h := by cases d <;> first | rfl | cases h
  turnsAway d h := by cases d <;> first | rfl | cases h

theorem closeAccount_form (o : Origin) (account : Nat) :
    CommandForm (.closeAccount o account) o portO .trade (onOpenAccount account closeThis) id where
  runs _ := rfl
  ports p := by cases p <;> rfl
  admits d h := by cases d <;> first | rfl | cases h
  turnsAway d h := by cases d <;> first | rfl | cases h

theorem credit_form (o : Origin) (account amount : Nat) :
    CommandForm (.credit o account amount) o portsOF .trade (onOpenAccount account (creditThis amount)) id where
  runs _ := rfl
  ports p := by cases p <;> rfl
  admits d h := by cases d <;> first | rfl | cases h
  turnsAway d h := by cases d <;> first | rfl | cases h

theorem debit_form (o : Origin) (account amount : Nat) :
    CommandForm (.debit o account amount) o portsOF .trade (onOpenAccount account (debitThis amount)) id where
  runs _ := rfl
  ports p := by cases p <;> rfl
  admits d h := by cases d <;> first | rfl | cases h
  turnsAway d h := by cases d <;> first | rfl | cases h

theorem bar_form (o : Origin) (account : Nat) :
    CommandForm (.bar o account) o portO .trade (onOpenAccount account barThis) id where
  runs _ := rfl
  ports p := by cases p <;> rfl
  admits d h := by cases d <;> first | rfl | cases h
  turnsAway d h := by cases d <;> first | rfl | cases h

theorem unbar_form (o : Origin) (account : Nat) :
    CommandForm (.unbar o account) o portO .trade (onOpenAccount account unbarThis) id where
  runs _ := rfl
  ports p := by cases p <;> rfl
  admits d h := by cases d <;> first | rfl | cases h
  turnsAway d h := by cases d <;> first | rfl | cases h

theorem allocate_form (o : Origin) (account : Nat) (pontoons : Pontoons) (arrival : DateField) (planned : Option DateField) :
    CommandForm (.allocate o account pontoons arrival planned) o portO .trade (allocateOwner account pontoons arrival planned) id where
  runs _ := rfl
  ports p := by cases p <;> rfl
  admits d h := by cases d <;> first | rfl | cases h
  turnsAway d h := by cases d <;> first | rfl | cases h

theorem reserve_form (o : Origin) (account berth : Nat) (arrival : DateField) (planned : Option DateField) (force : Bool) :
    CommandForm (.reserve o account berth arrival planned force) o portO .trade (reserveOwner account berth arrival planned force) id where
  runs _ := rfl
  ports p := by cases p <;> rfl
  admits d h := by cases d <;> first | rfl | cases h
  turnsAway d h := by cases d <;> first | rfl | cases h

theorem cancel_form (o : Origin) (account : Nat) :
    CommandForm (.cancel o account) o portO .trade (onAccount account cancelThis) id where
  runs _ := rfl
  ports p := by cases p <;> rfl
  admits d h := by cases d <;> first | rfl | cases h
  turnsAway d h := by cases d <;> first | rfl | cases h

theorem arrive_form (o : Origin) (account : Nat) (berth : Option Nat) (planned : Option DateField) (force : Bool) :
    CommandForm (.arrive o account berth planned force) o portsOP .trade (arriveOwner account berth planned force) id where
  runs _ := rfl
  ports p := by cases p <;> rfl
  admits d h := by cases d <;> first | rfl | cases h
  turnsAway d h := by cases d <;> first | rfl | cases h

theorem move_form (o : Origin) (account berth : Nat) (force : Bool) :
    CommandForm (.move o account berth force) o portsOP .trade (moveOwner account berth force) id where
  runs _ := rfl
  ports p := by cases p <;> rfl
  admits d h := by cases d <;> first | rfl | cases h
  turnsAway d h := by cases d <;> first | rfl | cases h

theorem depart_form (o : Origin) (account : Nat) :
    CommandForm (.depart o account) o portsOP .trade (onAccount account departThis) id where
  runs _ := rfl
  ports p := by cases p <;> rfl
  admits d h := by cases d <;> first | rfl | cases h
  turnsAway d h := by cases d <;> first | rfl | cases h

theorem setClock_form (o : Origin) (date : DateField) (time : TimeField) :
    CommandForm (.setClock o date time) o portO .anyTime (setClockOwner date time) id where
  runs _ := rfl
  ports p := by cases p <;> rfl
  admits d h := by cases d <;> first | rfl | cases h
  turnsAway d h := by cases d <;> first | rfl | cases h

theorem sell_form (o : Origin) (pump : Nat) (kind : SellKind) (preset : Option Preset) :
    CommandForm (.sell o pump kind preset) o portsOF .trade (sellOwner pump kind preset) id where
  runs _ := rfl
  ports p := by cases p <;> rfl
  admits d h := by cases d <;> first | rfl | cases h
  turnsAway d h := by cases d <;> first | rfl | cases h

theorem stopSale_form (o : Origin) (pump : Nat) :
    CommandForm (.stopSale o pump) o portsOF .trade (stopSaleOwner pump) id where
  runs _ := rfl
  ports p := by cases p <;> rfl
  admits d h := by cases d <;> first | rfl | cases h
  turnsAway d h := by cases d <;> first | rfl | cases h

theorem sale_form (o : Origin) (number : Nat) :
    CommandForm (.sale o number) o portsOF .anyTime (saleOwner number) id where
  runs _ := rfl
  ports p := by cases p <;> rfl
  admits d h := by cases d <;> first | rfl | cases h
  turnsAway d h := by cases d <;> first | rfl | cases h

theorem tankDip_form (o : Origin) (product volume : Nat) :
    CommandForm (.tankDip o product volume) o portsOF .anyTime (tankDipOwner product volume) id where
  runs _ := rfl
  ports p := by cases p <;> rfl
  admits d h := by cases d <;> first | rfl | cases h
  turnsAway d h := by cases d <;> first | rfl | cases h

theorem tankFill_form (o : Origin) (product added : Nat) :
    CommandForm (.tankFill o product added) o portsOF .anyTime (tankFillOwner product added) id where
  runs _ := rfl
  ports p := by cases p <;> rfl
  admits d h := by cases d <;> first | rfl | cases h
  turnsAway d h := by cases d <;> first | rfl | cases h

theorem holdGate_form (o : Origin) (gate : Nat) (mode : GateMode) :
    CommandForm (.holdGate o gate mode) o portsOP .trade (holdGateOwner gate mode) id where
  runs _ := rfl
  ports p := by cases p <;> rfl
  admits d h := by cases d <;> first | rfl | cases h
  turnsAway d h := by cases d <;> first | rfl | cases h

theorem revoke_form (o : Origin) (credential : Nat) :
    CommandForm (.revoke o credential) o portO .anyTime (revokeOwner credential) id where
  runs _ := rfl
  ports p := by cases p <;> rfl
  admits d h := by cases d <;> first | rfl | cases h
  turnsAway d h := by cases d <;> first | rfl | cases h

theorem clearPassback_form (o : Origin) (credential : Nat) :
    CommandForm (.clearPassback o credential) o portsOP .anyTime (clearPassbackOwner credential) id where
  runs _ := rfl
  ports p := by cases p <;> rfl
  admits d h := by cases d <;> first | rfl | cases h
  turnsAway d h := by cases d <;> first | rfl | cases h

theorem select_form (o : Origin) (table : TableName) (index : Nat) :
    CommandForm (.select o table index) o portsAll .anyTime (selectOwner o.port table index) id where
  runs _ := rfl
  ports p := by cases p <;> rfl
  admits d h := by cases d <;> first | rfl | cases h
  turnsAway d h := by cases d <;> first | rfl | cases h

theorem put_form (o : Origin) (field value : String) :
    CommandForm (.put o field value) o portO .anyTime (putOwner o.port field value) id where
  runs _ := rfl
  ports p := by cases p <;> rfl
  admits d h := by cases d <;> first | rfl | cases h
  turnsAway d h := by cases d <;> first | rfl | cases h

theorem store_form (o : Origin) :
    CommandForm (.store o) o portO .anyTime (storeOwner o.port) id where
  runs _ := rfl
  ports p := by cases p <;> rfl
  admits d h := by cases d <;> first | rfl | cases h
  turnsAway d h := by cases d <;> first | rfl | cases h

theorem read_form (o : Origin) :
    CommandForm (.read o) o portsAll .anyTime (readOwner o.port) id where
  runs _ := rfl
  ports p := by cases p <;> rfl
  admits d h := by cases d <;> first | rfl | cases h
  turnsAway d h := by cases d <;> first | rfl | cases h

theorem list_form (o : Origin) (what : ListName) :
    CommandForm (.list o what) o portsAll .anyTime (listOwner what) id where
  runs _ := rfl
  ports p := by cases p <;> rfl
  admits d h := by cases d <;> first | rfl | cases h
  turnsAway d h := by cases d <;> first | rfl | cases h

theorem next_form (o : Origin) :
    CommandForm (.next o) o portsAll .anyTime (nextOwner o.port) id where
  runs _ := rfl
  ports p := by cases p <;> rfl
  admits d h := by cases d <;> first | rfl | cases h
  turnsAway d h := by cases d <;> first | rfl | cases h

theorem status_form (o : Origin) :
    CommandForm (.status o) o portsAll .anyTime (fun t => done t (statusItems o.port t)) id where
  runs _ := rfl
  ports p := by cases p <;> rfl
  admits d h := by cases d <;> first | rfl | cases h
  turnsAway d h := by cases d <;> first | rfl | cases h

theorem requestPower_form (o : Origin) (account wish : Nat) :
    CommandForm (.requestPower o account wish) o portsOP .trade (requestPowerOwner account wish) id where
  runs _ := rfl
  ports p := by cases p <;> rfl
  admits d h := by cases d <;> first | rfl | cases h
  turnsAway d h := by cases d <;> first | rfl | cases h

theorem resetSocket_form (o : Origin) (socket : Nat) :
    CommandForm (.resetSocket o socket) o portsOP .trade (resetSocketOwner socket) id where
  runs _ := rfl
  ports p := by cases p <;> rfl
  admits d h := by cases d <;> first | rfl | cases h
  turnsAway d h := by cases d <;> first | rfl | cases h

theorem endPower_form (o : Origin) (account : Nat) :
    CommandForm (.endPower o account) o portsOP .trade (endPowerOwner account) id where
  runs _ := rfl
  ports p := by cases p <;> rfl
  admits d h := by cases d <;> first | rfl | cases h
  turnsAway d h := by cases d <;> first | rfl | cases h

theorem requestWater_form (o : Origin) (account : Nat) :
    CommandForm (.requestWater o account) o portsOP .trade (requestWaterOwner account) id where
  runs _ := rfl
  ports p := by cases p <;> rfl
  admits d h := by cases d <;> first | rfl | cases h
  turnsAway d h := by cases d <;> first | rfl | cases h

theorem endWater_form (o : Origin) (account : Nat) :
    CommandForm (.endWater o account) o portsOP .trade (endWaterOwner account) id where
  runs _ := rfl
  ports p := by cases p <;> rfl
  admits d h := by cases d <;> first | rfl | cases h
  turnsAway d h := by cases d <;> first | rfl | cases h

theorem restart_form (o : Origin) :
    CommandForm (.restart o) o portO .restart restartOwner (restartAfterReply o) where
  runs _ := rfl
  ports p := by cases p <;> rfl
  admits d h := by cases d <;> first | rfl | cases h
  turnsAway d h := by cases d <;> first | rfl | cases h

theorem save_form (o : Origin) :
    CommandForm (.save o) o portO .save saveOwner id where
  runs _ := rfl
  ports p := by cases p <;> rfl
  admits d h := by cases d <;> first | rfl | cases h
  turnsAway d h := by cases d <;> first | rfl | cases h

theorem openDevice_form (o : Origin) :
    CommandForm (.openDevice o) o portO .openDevice openOwner id where
  runs _ := rfl
  ports p := by cases p <;> rfl
  admits d h := by cases d <;> first | rfl | cases h
  turnsAway d h := by cases d <;> first | rfl | cases h

theorem setup_form (o : Origin) :
    CommandForm (.setup o) o portO .setup setupOwner id where
  runs _ := rfl
  ports p := by cases p <;> rfl
  admits d h := by cases d <;> first | rfl | cases h
  turnsAway d h := by cases d <;> first | rfl | cases h

/-- Every command row has its form. -/
theorem command_form {c : Instr} {o : Origin} (h : originOf c = some o) :
    ∃ ports adm owner after, CommandForm c o ports adm owner after := by
  cases c <;> first | cases h; done | cases h
  all_goals first

    | exact ⟨_, _, _, _, openAccount_form _ _⟩
    | exact ⟨_, _, _, _, closeAccount_form _ _⟩
    | exact ⟨_, _, _, _, credit_form _ _ _⟩
    | exact ⟨_, _, _, _, debit_form _ _ _⟩
    | exact ⟨_, _, _, _, bar_form _ _⟩
    | exact ⟨_, _, _, _, unbar_form _ _⟩
    | exact ⟨_, _, _, _, allocate_form _ _ _ _ _⟩
    | exact ⟨_, _, _, _, reserve_form _ _ _ _ _ _⟩
    | exact ⟨_, _, _, _, cancel_form _ _⟩
    | exact ⟨_, _, _, _, arrive_form _ _ _ _ _⟩
    | exact ⟨_, _, _, _, move_form _ _ _ _⟩
    | exact ⟨_, _, _, _, depart_form _ _⟩
    | exact ⟨_, _, _, _, setClock_form _ _ _⟩
    | exact ⟨_, _, _, _, sell_form _ _ _ _⟩
    | exact ⟨_, _, _, _, stopSale_form _ _⟩
    | exact ⟨_, _, _, _, sale_form _ _⟩
    | exact ⟨_, _, _, _, tankDip_form _ _ _⟩
    | exact ⟨_, _, _, _, tankFill_form _ _ _⟩
    | exact ⟨_, _, _, _, holdGate_form _ _ _⟩
    | exact ⟨_, _, _, _, revoke_form _ _⟩
    | exact ⟨_, _, _, _, clearPassback_form _ _⟩
    | exact ⟨_, _, _, _, select_form _ _ _⟩
    | exact ⟨_, _, _, _, put_form _ _ _⟩
    | exact ⟨_, _, _, _, store_form _⟩
    | exact ⟨_, _, _, _, read_form _⟩
    | exact ⟨_, _, _, _, list_form _ _⟩
    | exact ⟨_, _, _, _, next_form _⟩
    | exact ⟨_, _, _, _, status_form _⟩
    | exact ⟨_, _, _, _, requestPower_form _ _ _⟩
    | exact ⟨_, _, _, _, resetSocket_form _ _⟩
    | exact ⟨_, _, _, _, endPower_form _ _⟩
    | exact ⟨_, _, _, _, requestWater_form _ _⟩
    | exact ⟨_, _, _, _, endWater_form _ _⟩
    | exact ⟨_, _, _, _, restart_form _⟩
    | exact ⟨_, _, _, _, save_form _⟩
    | exact ⟨_, _, _, _, openDevice_form _⟩
    | exact ⟨_, _, _, _, setup_form _⟩

/-! ### STORE: what it answers once its common checks pass -/

/-- The owner writes: the entry's index and edition are answered and the cursor moves on (R172). -/
theorem store_done {o : Origin} {s t : State} {e now : Entry} {table : TableName} {i count : Nat} {new : Entry}
    (hr : Ready (.store o) o s) (hc : (s.port o.port).cursor = { table := table, index := i })
    (hh : (s.port o.port).holding = some e) (hs : isConfigurationTable table = true → s.save = none)
    (hn : entryAt s table i = some now) (hro : e.readOnly = false) (he : e.edition? = now.edition?)
    (ho : ownerStore e i s = .ok t) (hp : (t.port o.port).cursor = { table := table, index := i })
    (ht : entryAt t table i = some new) {ed : Edition} (hed : new.edition? = some ed) (hsz : tableSize t table = count) :
    exec (.store o) s = .next (storeDone o table i count ed t) := by
  refine (store_form _).taken hr ?_
  simp only [storeOwner, hc, hh, hn, hro, he, ho]
  have : (isConfigurationTable table && s.save.isSome) = false := by
    cases h : isConfigurationTable table
    · rfl
    · rw [hs h]; rfl
  simp [this, done, advanceCursor, hp, loadHolding, nextIndex, hsz, ht, hed, numItem, editionAtom, orAbsent, natAtom]

/-- The owner refuses. -/
theorem store_refused {o : Origin} {s : State} {e now : Entry} {table : TableName} {i : Nat} {r : Refuse}
    (hr : Ready (.store o) o s) (hc : (s.port o.port).cursor = { table := table, index := i })
    (hh : (s.port o.port).holding = some e) (hs : isConfigurationTable table = true → s.save = none)
    (hn : entryAt s table i = some now) (hro : e.readOnly = false) (he : e.edition? = now.edition?)
    (ho : ownerStore e i s = .error r) :
    exec (.store o) s = .next (reply o.port o.suffix [.refused r] s) := by
  refine (store_form _).refused hr ?_
  simp only [storeOwner, hc, hh, hn, hro, he, ho]
  have : (isConfigurationTable table && s.save.isSome) = false := by
    cases h : isConfigurationTable table
    · rfl
    · rw [hs h]; rfl
  simp [this]

theorem ident_val {n : Nat} (i : Fin n) : ident n i.val = some i := by simp [ident]

end Sys2Proof.Machine
end

