-- ==== Sys2Proof/Laws/Device.lean ====
section
/-! SUPPORT. What a change of device state can do: it sets the state, the locks and the rollover marks, and raises its notice. -/

namespace Sys2Proof.Machine

/-! ### Steps at every record of a table -/

/-- A table rewritten record by record, each from its own record alone, ends as if all were rewritten at once. -/
theorem foldl_put_get {α : Type} {n : Nat} (f : Fin n → α → α) (ids : List (Fin n)) (hn : ids.Nodup)
    (t : Table α n) (i : Fin n) :
    (ids.foldl (fun t j => t.put j (f j (t.get j))) t).get i = if i ∈ ids then f i (t.get i) else t.get i := by
  induction ids generalizing t with
  | nil => simp
  | cons j rest ih =>
    obtain ⟨hj, hr⟩ := List.nodup_cons.mp hn
    rw [List.foldl_cons, ih hr]
    by_cases e : i = j
    · subst e
      simp [hj]
    · have e' : ¬ j = i := fun w => e w.symm
      simp [e, Table.get_put, e']

/-- Every lock is set afresh for the device state; nothing else changes (R160). -/
theorem relockAll_gates (b s : State) :
    (relockAll b s).gates = (List.finRange 20).foldl
      (fun t g => t.put g ((b.gate g).settled ((t.get g).locked s.device g))) s.gates ∧
    relockAll b s = { s with gates := (relockAll b s).gates } := by
  have key : ∀ (ids : List GateId) (t : State), t.device = s.device →
      (eachOf ids (fun g s => putGate b g ((s.gate g).locked s.device g) s) t).gates =
        ids.foldl (fun t g => t.put g ((b.gate g).settled ((t.get g).locked s.device g))) t.gates ∧
      eachOf ids (fun g s => putGate b g ((s.gate g).locked s.device g) s) t =
        { t with gates := (eachOf ids (fun g s => putGate b g ((s.gate g).locked s.device g) s) t).gates } := by
    intro ids
    induction ids with
    | nil => intro t _; exact ⟨rfl, rfl⟩
    | cons g rest ih =>
      intro t ht
      have := ih (putGate b g ((t.gate g).locked t.device g) t) ht
      refine ⟨?_, ?_⟩
      · refine this.1.trans ?_
        rw [List.foldl_cons, ← ht]; rfl
      · exact this.2
  exact key _ s rfl

/-- A gate after the relock. -/
theorem relockAll_gate (b s : State) (g : GateId) :
    (relockAll b s).gate g = (b.gate g).settled ((s.gate g).locked s.device g) := by
  show (relockAll b s).gates.get g = _
  rw [(relockAll_gates b s).1, foldl_put_get (fun g x => (b.gate g).settled (x.locked s.device g)) _
    (List.nodup_finRange 20), if_pos (List.mem_finRange g)]
  rfl

theorem relockAll_eq (b s : State) : relockAll b s = { s with gates := (relockAll b s).gates } :=
  (relockAll_gates b s).2

/-! ### Rollover test and device state -/

/-- The test of the start condition writes the rollover and its pending flag; nothing else (R65). -/
theorem testRollover_eq (s : State) :
    testRollover s = { s with rollover := (testRollover s).rollover, rolloverPending := (testRollover s).rolloverPending } := by
  unfold testRollover; split
  · split <;> rfl
  · rfl

/-- A change of device state touches the state, the gates and the rollover marks; nothing else. -/
theorem enterState_eq (b : State) (d : DeviceState) (s : State) :
    enterState b d s =
      { s with
        device := d, gates := (enterState b d s).gates, rollover := (enterState b d s).rollover
        rolloverPending := (enterState b d s).rolloverPending } := by
  unfold enterState
  dsimp only
  split
  · rw [testRollover_eq, relockAll_eq]
  · rw [relockAll_eq]

/-- The locks after a change of device state are those R160 gives for it. -/
theorem enterState_gate (b : State) (d : DeviceState) (s : State) (g : GateId) :
    (enterState b d s).gate g = (b.gate g).settled ((s.gate g).locked d g) := by
  unfold enterState
  dsimp only
  split
  · rw [State.gate_eq, testRollover_eq]; exact relockAll_gate b { s with device := d } g
  · exact relockAll_gate b { s with device := d } g

theorem enterState_device (b : State) (d : DeviceState) (s : State) : (enterState b d s).device = d := by
  rw [enterState_eq]

theorem stateChanged_noticed (v : Option Int) (s : State) : Noticed s (stateChanged v s) :=
  raise_noticed_self _ _ s

/-! ### The end of LOADING (R179) -/

theorem routeNotice_queuesOk (n : Notice) {s : State} (h : QueuesOk s) : QueuesOk (routeNotice n s) :=
  fun i => routeNotice_port_ok n s i (h i)

/-- The held notices reach the queues; nothing but ports and held notices changes. -/
theorem foldl_routeNotice_eq (l : List Notice) (s : State) :
    l.foldl (fun t n => routeNotice n t) s =
      { s with ports := (l.foldl (fun t n => routeNotice n t) s).ports } := by
  induction l generalizing s with
  | nil => rfl
  | cons n rest ih => exact (ih (routeNotice n s)).trans rfl

theorem flushHeld_eq (s : State) : flushHeld s = { s with ports := (flushHeld s).ports, heldNotices := [] } := by
  unfold flushHeld
  rw [foldl_routeNotice_eq]

theorem flushHeld_queuesOk {s : State} (h : QueuesOk s) : QueuesOk (flushHeld s) := by
  have key : ∀ (l : List Notice) {t : State}, QueuesOk t → QueuesOk (l.foldl (fun t n => routeNotice n t) t) := by
    intro l
    induction l with
    | nil => intro t h; exact h
    | cons n rest ih => intro t h; exact ih (routeNotice_queuesOk n h)
  exact key _ h

theorem loadPorts_eq (s : State) : loadPorts s = { s with ports := (loadPorts s).ports } := rfl

theorem loadPorts_queuesOk {s : State} (h : QueuesOk s) : QueuesOk (loadPorts s) :=
  loadHolding_queuesOk _ _ _ (loadHolding_queuesOk _ _ _ (loadHolding_queuesOk _ _ _ h))

/-- The state that an end of LOADING enters. -/
theorem endLoading_device (b : State) (d : DeviceState) (v : Int) (s : State) : (endLoading b d v s).device = d := by
  unfold endLoading stateChanged
  rw [raise_device, flushHeld_eq, loadPorts_eq]
  dsimp only
  split
  · exact enterState_device b d _
  · exact enterState_device b d _

/-- Every field but readers, device state, gates, rollover marks, segments, pump line, ports and held notices is as it was. -/
abbrev StartEq (s t : State) : Prop :=
  t =
    { s with
      readers := t.readers, device := t.device, gates := t.gates, rollover := t.rollover
      rolloverPending := t.rolloverPending, segments := t.segments, pumpLine := t.pumpLine, ports := t.ports
      heldNotices := t.heldNotices }

theorem StartEq.trans {s t u : State} (h : StartEq s t) (k : StartEq t u) : StartEq s u := by rw [k, h]

theorem Noticed.startEq {s t : State} (h : Noticed s t) : StartEq s t := by rw [StartEq, h.eq]

theorem enterState_startEq (b : State) (d : DeviceState) (s : State) : StartEq s (enterState b d s) := by
  rw [StartEq, enterState_eq]

theorem flushHeld_startEq (s : State) : StartEq s (flushHeld s) := by
  rw [StartEq, flushHeld_eq]

/-- All that an end of LOADING touches. -/
theorem endLoading_startEq (b : State) (d : DeviceState) (v : Int) (s : State) :
    StartEq s (endLoading b d v s) := by
  have h : ∀ u : State, StartEq u (stateChanged (some v) (flushHeld (loadPorts u))) := fun u =>
    StartEq.trans (t := loadPorts u) rfl ((flushHeld_startEq _).trans (stateChanged_noticed _ _).startEq)
  have k : StartEq s (enterState b d { s with readers := Table.build fun _ => emptyReader }) :=
    StartEq.trans (t := { s with readers := Table.build fun _ => emptyReader }) rfl (enterState_startEq b d _)
  unfold endLoading
  split
  · exact (k.trans (StartEq.trans (t := beginPolling _) rfl (h _)))
  · exact k.trans (h _)

/-- All that a start of LOADING touches, beyond what an end of LOADING does: the image and a SAVE in flight. -/
theorem enterLoading_eq (stage : SaveStage) (s : State) :
    StartEq { s with image := (enterLoading stage s).image, save := none } (enterLoading stage s) := by
  unfold enterLoading
  refine StartEq.trans (StartEq.trans ?_ (enterState_startEq s .loading _)) (stateChanged_noticed _ _).startEq
  have e : (stateChanged none (enterState s .loading
      { s with
        image := abandonedImage stage s, save := none, rollover := none, rolloverPending := false
        segments := Table.build fun _ => idleSegment, pumpLine := idlePumpLine
        readers := Table.build fun _ => emptyReader, ports := Table.build fun _ => loadingPort
        heldNotices := [] })).image = abandonedImage stage s := by
    unfold stateChanged; rw [raise_image, enterState_eq]
  rw [e]

end Sys2Proof.Machine
end

