-- ==== Sys2Proof/Laws/Replies.lean ====
section
/-! SUPPORT. All that a valid reply of a pedestal does (R89): its deliveries, its agreements, its currents and the relief they bring. -/

namespace Sys2Proof.Machine

/-! ### A valid reply (R89) -/

theorem releaseHeld_released (b : State) (k : SocketId) (x : PowerSession) (s : State) :
    AmpsReleased k { x with held := 0 } s (releaseHeld b k x s) :=
  ⟨_, putPower_written .., serve_listServed ..⟩

/-- An energy field (R90, R91). -/
theorem energyDelta_taken (b : State) (k : SocketId) (d : Option Nat) (s : State) (hb : b.pedestals = s.pedestals) :
    EnergyTaken k d s (energyDelta b k d s) := by
  unfold EnergyTaken energyDelta
  cases hx : s.power.get k <;> cases d <;> simp only
  · rfl
  · next q =>
    simp only [strayPedestal, State.pedestal, hb, editionAfter]
    by_cases hq : q = 0 <;> simp only [hq, decide_true, decide_false, if_true, if_false, Bool.false_eq_true] <;> rfl
  · exact ⟨_, putPower_written b k _ s, rfl⟩
  · refine ⟨_, putPower_written b k _ s, ?_⟩
    exact charge_charged b _ .energy _ (putPower b k _ s)

theorem berthNaming_names (s : State) (k : SocketId) : BerthNames s k (berthNaming s k) := by
  constructor
  · intro i h
    have := List.find?_some h
    simpa using this
  · intro h i
    have := List.find?_eq_none.1 h i (List.mem_finRange i)
    simpa using this

/-- A reported trip (R105). -/
theorem powerTrip_taken (b : State) (k : SocketId) (s : State) : TripTaken k s (powerTrip b k s) := by
  unfold TripTaken powerTrip
  cases hx : s.power.get k with
  | none => rfl
  | some x =>
    have live : ∃ u c, BerthNames s k c ∧ PowerWritten k (some { x with state := .tripped, held := 0, confirmMisses := 0 }) s u
        ∧ ListServed (s.pedestal (pedestalOf k)).cfg.feeder
            (raise .socketTripped { account := some x.account, berth := c, outlet := some (.socket k), value := some x.energy } u)
            (serve b (feederOf s k) (raise .socketTripped { account := some x.account, berth := berthNaming s k, outlet := some (.socket k), value := some (x.energy : Int) } (putPower b k (some { x with state := .tripped, held := 0, confirmMisses := 0 }) s))) :=
      ⟨_, _, berthNaming_names s k, putPower_written .., serve_listServed ..⟩
    by_cases hh : x.held = 0 <;> cases hs : x.state <;> simp [hs, hh]
    all_goals first
      | exact live
      | exact endPower_ended b k _ s
      | (have := releaseHeld_released b k x s; rw [hs] at this; exact this)

theorem socketAgrees_iff (p : Pedestal) (i : Fin 2) : socketAgrees p i = true ↔ SocketAgrees p i (p.reported.get i) := by
  simp only [socketAgrees, SocketAgrees, Bool.and_eq_true, Bool.or_eq_true, Bool.not_eq_true', decide_eq_true_eq,
    Bool.and_eq_false_iff, decide_eq_false_iff_not]
  by_cases h : p.cfg.ratings.get i = .a63 <;> cases hr : (p.reported.get i).relay <;> simp [h]

theorem pedestalOf_socketAt (n : PedestalId) (i : Fin 2) : pedestalOf (socketAt n i) = n := by
  apply Fin.ext; simp [pedestalOf, socketAt]; omega

theorem positionOf_socketAt (n : PedestalId) (i : Fin 2) : positionOf (socketAt n i) = i := by
  apply Fin.ext; simp [positionOf, socketAt]; omega

theorem confirmOff_cases (b : State) (k : SocketId) (x : PowerSession) (s : State) :
    (x.state ≠ .closing → AmpsReleased k { x with held := 0 } s (confirmOff b k x true s))
    ∧ (x.state = .closing → PowerEnded k (x.closeReason.getD .finished) s (confirmOff b k x true s))
    ∧ (x.confirmMisses = 2 → ∃ u,
        PowerWritten k (some { x with confirmMisses := min (x.confirmMisses + 1) 3, fault := true }) s u
        ∧ confirmOff b k x false s = socketFault k x .switchOff u)
    ∧ (x.confirmMisses ≠ 2 →
        PowerWritten k (some { x with confirmMisses := min (x.confirmMisses + 1) 3 }) s (confirmOff b k x false s)) := by
  refine ⟨fun h => ?_, fun h => ?_, fun h => ⟨_, putPower_written b k _ s, ?_⟩, fun h => ?_⟩
  · have : confirmOff b k x true s = releaseHeld b k x s := by simp [confirmOff, h]
    rw [this]; exact releaseHeld_released ..
  · have : confirmOff b k x true s = endPower b k (x.closeReason.getD .finished) s := by simp [confirmOff, h]
    rw [this]; exact endPower_ended b k _ s
  · simp [confirmOff, h, reachesLimit, Config.missLimit]; rfl
  · have : confirmOff b k x false s = putPower b k (some { x with confirmMisses := moreMisses x.confirmMisses }) s := by
      simp [confirmOff, h, reachesLimit, Config.missLimit]
    rw [this]; exact putPower_written ..

/-- The list is served exactly where held amps were released. -/
theorem served_if (b : State) (f : FeederId) (n m : Nat) (u : State) :
    if n < m then ListServed f u (if min m n < m then serve b f u else u) else (if min m n < m then serve b f u else u) = u := by
  by_cases h : n < m
  · rw [if_pos h, if_pos (by omega)]; exact serve_listServed ..
  · rw [if_neg h, if_neg (by omega)]

theorem confirmOn_cases (b : State) (k : SocketId) (x : PowerSession) (s : State) :
    let f := (s.pedestal (pedestalOf k)).cfg.feeder
    (∃ u, PowerWritten k (some { x with state := .live, held := min x.held x.granted, confirmMisses := 0 }) s u
      ∧ let told := raise .powerLive { account := some x.account, outlet := some (.socket k), value := some x.granted } u
        if x.granted < x.held then ListServed f told (confirmOn b k x true s) else confirmOn b k x true s = told)
    ∧ (x.confirmMisses = 2 → ∃ u, PowerEnded k .fault s u ∧ confirmOn b k x false s = socketFault k x .switchOn u)
    ∧ (x.confirmMisses ≠ 2 →
        PowerWritten k (some { x with confirmMisses := min (x.confirmMisses + 1) 3 }) s (confirmOn b k x false s)) := by
  refine ⟨⟨_, putPower_written b k _ s, served_if b _ _ _ _⟩, fun h => ⟨_, endPower_ended b k .fault s, ?_⟩, fun h => ?_⟩
  · simp [confirmOn, h, reachesLimit, Config.missLimit]
  · have : confirmOn b k x false s = putPower b k (some { x with confirmMisses := moreMisses x.confirmMisses }) s := by
      simp [confirmOn, h, reachesLimit, Config.missLimit]
    rw [this]; exact putPower_written ..

theorem liveAgreement_cases (b : State) (k : SocketId) (x : PowerSession) (s : State) :
    let f := (s.pedestal (pedestalOf k)).cfg.feeder
    (∀ r, ∃ u, PowerWritten k (some { x with held := min x.held x.granted, confirmMisses := 0 }) s u
      ∧ if x.granted < x.held then ListServed f u (liveAgreement b k x true r s) else liveAgreement b k x true r s = u)
    ∧ PowerWritten k (some { x with state := .switching, confirmMisses := 1 }) s (liveAgreement b k x false false s)
    ∧ (x.confirmMisses = 2 → ∃ u,
        PowerWritten k (some { x with confirmMisses := min (x.confirmMisses + 1) 3, fault := true }) s u
        ∧ liveAgreement b k x false true s = socketFault k x .limit u)
    ∧ (x.confirmMisses ≠ 2 → PowerWritten k (some { x with confirmMisses := min (x.confirmMisses + 1) 3 }) s
        (liveAgreement b k x false true s)) := by
  refine ⟨fun r => ⟨_, putPower_written b k _ s, served_if b _ _ _ _⟩, putPower_written .., fun h => ⟨_, putPower_written b k _ s, ?_⟩, fun h => ?_⟩
  · simp [liveAgreement, h, reachesLimit, Config.missLimit]; rfl
  · have : liveAgreement b k x false true s = putPower b k (some { x with confirmMisses := moreMisses x.confirmMisses }) s := by
      simp [liveAgreement, h, reachesLimit, Config.missLimit]
    rw [this]; exact putPower_written ..

/-- The agreement of a socket (R88, R102 to R104). -/
theorem powerAgreement_agreed (b : State) (n : PedestalId) (i : Fin 2) (s : State) :
    SocketAgreed n i s (powerAgreement b (socketAt n i) s) := by
  simp only [SocketAgreed, powerAgreement, pedestalOf_socketAt, positionOf_socketAt, ← socketAgrees_iff]
  generalize hk : socketAt n i = k
  have hn : pedestalOf k = n := by rw [← hk, pedestalOf_socketAt]
  cases hx : s.power.get k with
  | none => rfl
  | some x =>
    have hon := confirmOn_cases b k x s
    have hoff := confirmOff_cases b k x s
    have hlive := liveAgreement_cases b k x s
    simp only [hn] at hon hlive
    generalize socketAgrees (s.pedestal n) i = g
    generalize ((s.pedestal n).reported.get i).relay = relay
    clear hx
    obtain ⟨st, ac, wi, fb, gr, he, gs, lc, en, start, ca, sh, ste, cm, fa, cr⟩ := x
    rcases he with _ | he <;> cases st <;> cases g <;>
      simp only [reduceCtorEq, false_implies, false_or, or_false, true_and, not_true_eq_false, not_false_eq_true,
        ne_eq, forall_const, and_true, Nat.succ_ne_zero, Bool.false_eq_true, if_true, if_false, and_self, or_self, implies_true]
    all_goals first
      | exact hon.1
      | exact hon.2
      | exact hoff.1 (by simp)
      | exact hoff.2.1 rfl
      | exact hoff.2.2
      | exact hlive.1 relay
      | exact ⟨fun h => h ▸ hlive.2.1, fun h => h ▸ hlive.2.2⟩

/-! ### The tap -/

theorem applyWaterCap_none (b : State) (n : TapId) (v : State) (h : v.water.get n = none) : applyWaterCap b n v = v := by
  simp only [applyWaterCap, h]

theorem applyWaterCap_some (b : State) (n : TapId) (v : State) (y : WaterSession) (hy : v.water.get n = some y) :
    let cap := (v.classOf (v.account y.account)).waterCap
    let capped := y.state.on = true ∧ cap ≠ 0 ∧ cap ≤ y.volume
    (¬ capped → applyWaterCap b n v = v)
    ∧ (capped → WaterWritten n (some { y with state := .closing, closeReason := some .cap, confirmMisses := 0 }) v
        (applyWaterCap b n v)) := by
  have hc : (y.state.on && capReached v y) = true
      ↔ y.state.on = true ∧ (v.classOf (v.account y.account)).waterCap ≠ 0
        ∧ (v.classOf (v.account y.account)).waterCap ≤ y.volume := by
    simp [capReached, Nat.pos_iff_ne_zero]
  refine ⟨fun h => ?_, fun h => ?_⟩
  · simp only [applyWaterCap, hy]; exact if_neg fun g => h (hc.1 g)
  · have e : applyWaterCap b n v
        = putWater b n (some { y with state := .closing, closeReason := some .cap, confirmMisses := 0 }) v := by
      simp only [applyWaterCap, hy]; exact if_pos (hc.2 h)
    rw [e]; exact putWater_written ..

/-- A water field (R90, R91, R117). -/
theorem waterDelta_taken (b : State) (n : TapId) (d : Option Nat) (s : State) (hb : b.pedestals = s.pedestals) :
    WaterTaken n d s (waterDelta b n d s) := by
  unfold WaterTaken waterDelta
  cases hx : s.water.get n <;> cases d <;> simp only
  · rfl
  · next q =>
    simp only [strayPedestal, State.pedestal, hb, editionAfter]
    by_cases hq : q = 0 <;> simp only [hq, decide_true, decide_false, if_true, if_false, Bool.false_eq_true] <;> rfl
  · exact ⟨_, putWater_written b n _ s, rfl⟩
  · next x q =>
    refine ⟨_, _, putWater_written b n _ s, charge_charged b _ .water _ (putWater b n _ s), ?_, ?_⟩
    · exact fun h => applyWaterCap_none b n _ h
    · exact fun y hy => applyWaterCap_some b n _ y hy

/-- The agreement of a tap (R88, R116). -/
theorem valveAgreement_agreed (b : State) (n : TapId) (s : State) : ValveAgreed n s (valveAgreement b n s) := by
  simp only [ValveAgreed, valveAgreement]
  have ha : tapAgrees (s.pedestal n) = true ↔ (s.pedestal n).reportedValve = (s.pedestal n).desiredValve := by
    simp [tapAgrees]
  simp only [← ha]
  cases hx : s.water.get n with
  | none => rfl
  | some x =>
    generalize tapAgrees (s.pedestal n) = g
    have hmiss : (x.confirmMisses = 2 → ∃ u, WaterWritten n (some { x with confirmMisses := min (x.confirmMisses + 1) 3, fault := true }) s u
          ∧ countValveMiss b n x s = valveFault n x .valveClose u)
        ∧ (x.confirmMisses ≠ 2 → WaterWritten n (some { x with confirmMisses := min (x.confirmMisses + 1) 3 }) s (countValveMiss b n x s)) := by
      refine ⟨fun h => ⟨_, putWater_written b n _ s, ?_⟩, fun h => ?_⟩
      · simp [countValveMiss, h, reachesLimit, Config.missLimit]; rfl
      · have : countValveMiss b n x s = putWater b n (some { x with confirmMisses := moreMisses x.confirmMisses }) s := by
          simp [countValveMiss, h, reachesLimit, Config.missLimit]
        rw [this]; exact putWater_written ..
    clear hx
    obtain ⟨st, ac, be, vo, cm, fa, cr⟩ := x
    cases st <;> cases g <;>
      simp only [WaterState.on, reduceCtorEq, false_implies, false_or, or_false, true_and, not_true_eq_false, not_false_eq_true,
        forall_const, and_true, Bool.false_eq_true, or_self, implies_true]
    case opening.true => exact putWater_written ..
    case flowing.true => exact putWater_written ..
    case flowing.false => exact putWater_written ..
    case suspended.true => exact putWater_written ..
    case closing.true => exact endWater_ended b n _ s
    case opening.false =>
      refine ⟨fun h => ⟨_, endWater_ended b n .fault s, ?_⟩, fun h => ?_⟩
      · subst h; rfl
      · rw [if_neg (by simp [reachesLimit, Config.missLimit]; exact h)]; exact putWater_written ..
    all_goals exact hmiss

/-! ### Relief and currents -/

/-- Among the sockets of a rising list, each with a session, the fold finds the newest grant. -/
theorem foldl_laterGrant (s : State) (l : List SocketId) (hs : l.Pairwise (· < ·)) (hl : ∀ k ∈ l, ∃ x, s.power.get k = some x) :
    match l.foldl (laterGrant s) none with
    | none => l = []
    | some k => k ∈ l ∧ ∃ x, s.power.get k = some x ∧ ∀ m ∈ l, ∀ y, s.power.get m = some y →
        y.grantStamp < x.grantStamp ∨ y.grantStamp = x.grantStamp ∧ m ≤ k := by
  induction l using List.reverseRecOn with
  | nil => rfl
  | append_singleton l a ih =>
    have ih := ih (List.pairwise_append.1 hs).1 fun k hk => hl k (by simp [hk])
    have ha := fun m hm => (List.pairwise_append.1 hs).2.2 m hm a (by simp)
    obtain ⟨z, hz⟩ := hl a (by simp)
    rw [List.foldl_append]
    show match laterGrant s (l.foldl (laterGrant s) none) a with | none => _ | some k => _
    cases hf : l.foldl (laterGrant s) none with
    | none =>
      rw [hf] at ih; subst ih
      refine ⟨by simp, z, hz, fun m hm y hy => ?_⟩
      simp at hm; subst hm; rw [hz] at hy; cases hy; exact .inr ⟨rfl, Nat.le_refl _⟩
    | some k =>
      rw [hf] at ih
      obtain ⟨hk, x, hx, h⟩ := ih
      simp only [laterGrant, hx, hz]
      by_cases hle : x.grantStamp ≤ z.grantStamp
      · rw [if_pos hle]
        refine ⟨by simp, z, hz, fun m hm y hy => ?_⟩
        rcases List.mem_append.1 hm with hm | hm
        · have : m ≤ a := Fin.le_of_lt (ha m hm)
          rcases Nat.lt_or_ge y.grantStamp z.grantStamp with g | g
          · exact .inl g
          · rcases h m hm y hy with j | ⟨j, _⟩
            · omega
            · exact .inr ⟨by omega, this⟩
        · simp at hm; subst hm; rw [hz] at hy; cases hy; exact .inr ⟨rfl, Nat.le_refl _⟩
      · rw [if_neg hle]
        refine ⟨by simp [hk], x, hx, fun m hm y hy => ?_⟩
        rcases List.mem_append.1 hm with hm | hm
        · exact h m hm y hy
        · simp at hm; subst hm; rw [hz] at hy; cases hy; exact .inl (by omega)

/-- The sockets that relief looks at. -/
def reliefSockets (s : State) (f : FeederId) (st : PowerState) (at63 : Bool) : List SocketId :=
  (feederSockets s f).filter fun k =>
    match s.power.get k with
    | none => false
    | some x => x.state = st && (!at63 || x.granted = 63)

theorem mem_reliefSockets (s : State) (f : FeederId) (st : PowerState) (at63 : Bool) (k : SocketId) :
    k ∈ reliefSockets s f st at63 ↔ ∃ y, SessionOn st s f k y ∧ (at63 = true → y.granted = 63) := by
  simp only [reliefSockets, List.mem_filter, feederSockets, List.mem_finRange, true_and, Bool.and_eq_true,
    decide_eq_true_eq, SessionOn]
  cases hx : s.power.get k with
  | none => simp
  | some x => cases at63 <;> simp <;> tauto

theorem reliefSockets_rising (s : State) (f : FeederId) (st : PowerState) (at63 : Bool) :
    (reliefSockets s f st at63).Pairwise (· < ·) :=
  ((List.pairwise_lt_finRange 512).filter _).filter _

theorem foldl_laterGrant_cases (s : State) (l : List SocketId) (r : Option SocketId) (hs : l.Pairwise (· < ·))
    (hl : ∀ k ∈ l, ∃ x, s.power.get k = some x) (h : l.foldl (laterGrant s) none = r) :
    (r = none → l = []) ∧ ∀ k, r = some k → k ∈ l ∧ ∃ x, s.power.get k = some x ∧ ∀ m ∈ l, ∀ y, s.power.get m = some y →
        y.grantStamp < x.grantStamp ∨ y.grantStamp = x.grantStamp ∧ m ≤ k := by
  have := foldl_laterGrant s l hs hl
  rw [h] at this
  cases r with
  | none => exact ⟨fun _ => this, fun _ e => absurd e (by simp)⟩
  | some k => exact ⟨fun e => absurd e (by simp), fun m e => by cases e; exact this⟩

theorem mostRecent_cases (s : State) (f : FeederId) (st : PowerState) (at63 : Bool) (r : Option SocketId)
    (h : mostRecent s f st at63 = r) :
    (r = none → reliefSockets s f st at63 = [])
    ∧ ∀ k, r = some k → k ∈ reliefSockets s f st at63 ∧ ∃ x, s.power.get k = some x
      ∧ ∀ m ∈ reliefSockets s f st at63, ∀ y, s.power.get m = some y →
        y.grantStamp < x.grantStamp ∨ y.grantStamp = x.grantStamp ∧ m ≤ k := by
  refine foldl_laterGrant_cases s _ r (reliefSockets_rising s f st at63) (fun k hk => ?_) h
  obtain ⟨y, h, _⟩ := (mem_reliefSockets ..).1 hk
  exact ⟨y, h.2.2.1⟩

/-- No session of the state is on the feeder. -/
theorem mostRecent_none {s : State} {f : FeederId} {st : PowerState} {at63 : Bool} (h : mostRecent s f st at63 = none)
    (k : SocketId) (y : PowerSession) (hk : SessionOn st s f k y) : ¬ (at63 = true → y.granted = 63) := by
  intro hy
  have key := (mostRecent_cases s f st at63 none h).1 rfl
  have := (mem_reliefSockets s f st at63 k).2 ⟨y, hk, hy⟩
  rw [key] at this
  cases this

/-- The session found is the most recent grant (R96). -/
theorem mostRecent_some {s : State} {f : FeederId} {st : PowerState} {at63 : Bool} {k : SocketId}
    (h : mostRecent s f st at63 = some k) : ∃ y, NewestOn st s f (fun x => at63 = true → x.granted = 63) k y := by
  have key := (mostRecent_cases s f st at63 _ h).2 k rfl
  obtain ⟨hk, x, hx, h⟩ := key
  obtain ⟨y, hy, hyP⟩ := (mem_reliefSockets ..).1 hk
  have : y = x := by have := hy.2.2.1; rw [hx] at this; exact (Option.some.inj this).symm
  subst this
  exact ⟨y, hy, hyP, fun m z hz hzP => h m ((mem_reliefSockets ..).2 ⟨z, hz, hzP⟩) z hz.2.2.1⟩

/-- There is one most recent grant. -/
theorem NewestOn.unique {st : PowerState} {s : State} {f : FeederId} {P : PowerSession → Prop} {k m : SocketId}
    {y z : PowerSession} (h : NewestOn st s f P k y) (g : NewestOn st s f P m z) : k = m ∧ y = z := by
  have h1 := h.2.2 m z g.1 g.2.1
  have h2 := g.2.2 k y h.1 h.2.1
  have hk : k = m := by
    rcases h1 with h1 | ⟨h1, h3⟩ <;> rcases h2 with h2 | ⟨h2, h4⟩ <;> first | omega | exact Fin.le_antisymm h4 h3
  subst hk
  refine ⟨rfl, ?_⟩
  have := h.1.2.2.1
  rw [g.1.2.2.1] at this
  exact (Option.some.inj this).symm

theorem takeRelief_step (b : State) (f : FeederId) (s : State) (k : SocketId) (y : PowerSession)
    (h : NewestLive s f (fun z => z.granted = 63) k y) :
    takeRelief b f s = (putPower b k (some { y with granted := 32, stepped := true }) s, some k, .stepDown) := by
  unfold takeRelief
  cases hm : mostRecent s f .live true with
  | none => exact absurd (fun _ => h.2.1) (mostRecent_none hm k y h.1)
  | some m =>
    obtain ⟨z, hz⟩ := mostRecent_some hm
    simp only [forall_const] at hz
    obtain ⟨rfl, rfl⟩ := h.unique hz
    simp only [stepDown, h.1.2.2.1]

theorem takeRelief_shed (b : State) (f : FeederId) (s : State) (k : SocketId) (y : PowerSession)
    (hn : ∀ m z, LiveOn s f m z → z.granted ≠ 63) (h : NewestLive s f (fun _ => True) k y) :
    takeRelief b f s = (shedSession b k s, some k, .shed) := by
  unfold takeRelief
  cases hm : mostRecent s f .live true with
  | some m =>
    obtain ⟨z, hz⟩ := mostRecent_some hm
    exact absurd (hz.2.1 rfl) (hn m z hz.1)
  | none =>
    cases hm : mostRecent s f .live false with
    | none => exact absurd (fun h => nomatch h) (mostRecent_none hm k y h.1)
    | some m =>
      obtain ⟨z, hz⟩ := mostRecent_some hm
      simp only [Bool.false_eq_true, false_implies] at hz
      obtain ⟨rfl, rfl⟩ := h.unique hz
      rfl

theorem takeRelief_none (b : State) (f : FeederId) (s : State) (hn : ∀ m z, ¬ LiveOn s f m z) :
    takeRelief b f s = (s, none, .nothing) := by
  unfold takeRelief
  cases hm : mostRecent s f .live true with
  | some m => obtain ⟨z, hz⟩ := mostRecent_some hm; exact absurd hz.1 (hn m z)
  | none =>
    cases hm : mostRecent s f .live false with
    | some m => obtain ⟨z, hz⟩ := mostRecent_some hm; exact absurd hz.1 (hn m z)
    | none => rfl

/-- Relief (R112). -/
theorem relieve_acted (b : State) (f : FeederId) (s : State) : ReliefActed f s (relieve b f s) := by
  refine ⟨(takeRelief b f s).1, (takeRelief b f s).2.1, (takeRelief b f s).2.2,
    ((b.feeder f).settled { (takeRelief b f s).1.feeder f with overload := 0, relief := some (s.clock.plus 60) }).edition,
    fun k y h => ?_, fun k y hn h => ?_, fun hn => ?_, ?_⟩
  rotate_left 3
  · unfold relieve; generalize takeRelief b f s = r; rfl
  · rw [takeRelief_step b f s k y h]; exact ⟨rfl, rfl, putPower_written ..⟩
  · rw [takeRelief_shed b f s k y hn h]
    have hf : feederOf s k = f := h.1.2.1
    refine ⟨rfl, rfl, fun hl => ?_, fun hl => ?_⟩
    · have : shedSession b k s = putPower b k (some { y with state := .waiting, shed := true, confirmMisses := 0 }) s := by
        simp only [shedSession, h.1.2.2.1, hf]; exact if_pos hl
      rw [this]; exact putPower_written ..
    · have : shedSession b k s = putPower b k (some { y with state := .closing, shed := true, closeReason := some .full, confirmMisses := 0 }) s := by
        simp only [shedSession, h.1.2.2.1, hf]; exact if_neg (Nat.not_lt.2 hl)
      rw [this]; exact putPower_written ..
  · rw [takeRelief_none b f s hn]; exact ⟨rfl, rfl, rfl⟩

theorem eachOf_sockets_inTurn (c : PedestalKind) (f : Fin 2 → State → State) {P : Fin 2 → State → State → Prop}
    (h : ∀ i s, c.hasSocket i = true → P i s (f i s)) (hn : ∀ i s, c.hasSocket i = false → P i s s) (s : State) :
    InTurn 2 P s (eachOf c.sockets f s) := by
  let g : Fin 2 → State → State := fun i s => if c.hasSocket i = true then f i s else s
  have : eachOf c.sockets f s = eachId 2 g s := by
    cases c <;> rfl
  rw [this]
  refine eachId_inTurn g (fun i s => ?_) s
  show P i s (if c.hasSocket i = true then f i s else s)
  cases hh : c.hasSocket i
  · exact hn i s hh
  · exact h i s hh

theorem measuredSum_eq (s : State) (f : FeederId) : measuredSum s f = drawnOn s f := by
  unfold measuredSum drawnOn
  congr 2
  funext k
  cases s.power.get k with
  | none => rfl
  | some x => by_cases h : x.held = 0 <;> simp [measuredOf, h]

/-- The measured sum and the overload count (R111). -/
theorem measureFeeder_measured (b : State) (f : FeederId) (u : State) :
    let count := if (u.feeder f).cfg.rating * 10 < drawnOn u f then (u.feeder f).overload + 1 else 0
    ∃ v, (∃ e : Edition, v = { u with
        feeders := u.feeders.put f { u.feeder f with measured := drawnOn u f, overload := count, edition := e } })
      ∧ (count < 8 → measureFeeder b f u = v) ∧ (8 ≤ count → ReliefActed f v (measureFeeder b f u)) := by
  unfold measureFeeder
  rw [measuredSum_eq]
  generalize drawnOn u f = sum
  dsimp only
  generalize (if (u.feeder f).cfg.rating * 10 < sum then (u.feeder f).overload + 1 else 0) = count
  refine ⟨modFeeder b f (fun x => { x with measured := sum, overload := count }) u, ⟨_, rfl⟩, fun h => ?_, fun h => ?_⟩
  · exact if_neg (Nat.not_le.2 h)
  · rw [if_pos (show Config.overloadLimit ≤ count from h)]; exact relieve_acted ..

/-- A current report (R111). -/
theorem currentReport_taken (b : State) (n : PedestalId) (s : State) :
    CurrentsTaken n s (currentReport b n (s.pedestal n).cfg.kind.sockets s) := by
  obtain ⟨v, hv⟩ := measureFeeder_measured b (s.pedestal n).cfg.feeder
    (eachOf (s.pedestal n).cfg.kind.sockets
      (fun i => takeCurrent b (socketAt n i) ((s.pedestal n).reported.get i).current) s)
  refine ⟨_, v, eachOf_sockets_inTurn (s.pedestal n).cfg.kind
    (fun i => takeCurrent b (socketAt n i) ((s.pedestal n).reported.get i).current) (fun i u hi => ?_) (fun i u hi => ?_) s, ?_⟩
  · refine ⟨fun h => ?_, fun x _ hx => ?_⟩
    · rw [hi] at h; simp only [takeCurrent, h.resolve_left (by simp)]
    · simp only [takeCurrent, hx]; exact putPower_written ..
  · exact ⟨fun _ => rfl, fun x h => by rw [hi] at h; cases h⟩
  · exact hv

/-! ### The whole reply -/

/-- The pedestal record after a valid reply (R83, R89). -/
theorem answered_eq (f : List Nat) (p : Pedestal) :
    p.answered f =
      { p with
        misses := 0, link := .online, lastOutcome := some .valid, tag := some (replyTag f), tagIdentity := p.cfg.identity
        reported := Table.build fun i =>
          if p.cfg.kind.hasSocket i = true then (socketReport f i).reported else p.reported.get i
        reportedValve := if p.cfg.kind.hasTap then (tapReport p.cfg.kind f).valve else p.reportedValve
        desired := Table.build fun i =>
          { p.desired.get i with
            clearTrip := (p.desired.get i).clearTrip && (!p.cfg.kind.hasSocket i || (socketReport f i).reported.trip) } } := by
  obtain ⟨⟨ins, seg, ad, kind, fe, ra⟩, link, de, dv, se, sw, ed, mi, tag, ti, re, rv, lo⟩ := p
  have t0 : ∀ {α : Type} (t u : Table α 2), t.get 0 = u.get 0 → t.get 1 = u.get 1 → t = u := fun t u h g =>
    Table.ext_get fun i => by
      obtain rfl | rfl : i = 0 ∨ i = 1 := by omega
      · exact h
      · exact g
  cases kind <;>
    simp [Pedestal.answered, PedestalKind.sockets, Pedestal.reportSocket, Pedestal.reportTap, PedestalKind.hasTap,
      PedestalKind.hasSocket]
  all_goals refine ⟨t0 _ _ ?_ ?_, t0 _ _ ?_ ?_⟩
  all_goals simp [Table.get_put]

theorem linkNotice_eq (n : PedestalId) (s : State) :
    linkNotice .pedestalBack n s
      = raise .pedestalBack { berth := berthNaming s (socketAt n 0), value := some (n.val : Int) } s := rfl

/-- The deliveries of one socket in their order (R89). -/
theorem deliverSocket_delivered (kind : PedestalKind) (n : PedestalId) (w : Bool) (f : List Nat) (i : Fin 2) (s : State)
    (h : kind.hasSocket i = true) : SocketDelivered kind n (w = true) f i s (deliverSocket n w f i s) := by
  refine ⟨fun g => absurd h g, fun _ =>
    ⟨if w then energyDelta s (socketAt n i) (unpack (socketReport f i).energy) s else s,
     let u := if w then energyDelta s (socketAt n i) (unpack (socketReport f i).energy) s else s
     if (socketReport f i).reported.trip then powerTrip u (socketAt n i) u else u,
     fun hw => ?_, fun hw => ?_, fun ht => ?_, fun ht => ?_, powerAgreement_agreed _ n i _⟩⟩
  · rw [if_pos hw]; exact energyDelta_taken s _ _ s rfl
  · exact if_neg hw
  · dsimp only; rw [if_pos ht]; exact powerTrip_taken ..
  · dsimp only; rw [if_neg (by simp [ht])]

/-- All that a valid reply does. -/
theorem deliver_handled (n : PedestalId) (f : List Nat) (s : State) : ReplyHandled n f s (deliver n f s) := by
  have e : deliver n f s =
      (let p := s.pedestal n
       let s1 := putPedestal s n (p.answered f) s
       let s2 := if p.link = .offline then linkNotice .pedestalBack n s1 else s1
       let s3 := eachOf p.cfg.kind.sockets (deliverSocket n (accounted p f) f) s2
       let s4 := deliverTap n (accounted p f) f s3
       currentReport s4 n p.cfg.kind.sockets s4) := rfl
  rw [e]
  dsimp only
  have hw2 : Worked s (if (s.pedestal n).link = .offline then linkNotice .pedestalBack n (putPedestal s n ((s.pedestal n).answered f) s)
      else putPedestal s n ((s.pedestal n).answered f) s) := by
    have w := putPedestal_worked s n ((s.pedestal n).answered f) (answered_cfg f _) (.refl s)
    split
    · exact linkNotice_worked _ _ w
    · exact w
  generalize h2 : (if (s.pedestal n).link = .offline then linkNotice .pedestalBack n (putPedestal s n ((s.pedestal n).answered f) s)
      else putPedestal s n ((s.pedestal n).answered f) s) = s2 at *
  have hw3 : Worked s (eachOf (s.pedestal n).cfg.kind.sockets (deliverSocket n (accounted (s.pedestal n) f) f) s2) :=
    eachOf_keeps (P := Worked s) (fun i _ w => deliverSocket_worked _ _ _ i w) _ hw2
  have hi3 := eachOf_sockets_inTurn (s.pedestal n).cfg.kind (deliverSocket n (accounted (s.pedestal n) f) f)
    (P := SocketDelivered (s.pedestal n).cfg.kind n (accounted (s.pedestal n) f = true) f)
    (fun i s h => deliverSocket_delivered _ n _ f i s h) (fun i s h => ⟨fun _ => rfl, fun g => by rw [h] at g; cases g⟩) s2
  generalize h3 : eachOf (s.pedestal n).cfg.kind.sockets (deliverSocket n (accounted (s.pedestal n) f) f) s2 = s3 at *
  have hw4 := deliverTap_worked n (accounted (s.pedestal n) f) f hw3
  have hk3 := hw3.pedestalCfg n
  have hk4 := hw4.pedestalCfg n
  have hc := currentReport_taken (deliverTap n (accounted (s.pedestal n) f) f s3) n (deliverTap n (accounted (s.pedestal n) f) f s3)
  rw [hk4] at hc
  have hnews : accounted (s.pedestal n) f = true ↔ (s.pedestal n).tag ≠ some (replyTag f) := by simp [accounted]
  simp only [propext hnews] at hi3
  refine ⟨((s.pedestal n).settled ((s.pedestal n).answered f)).edition, _, s2, s3, _, berthNaming_names _ _, ?_, hi3, fun h => ?_, fun h => ?_, hc⟩
  · rw [← h2, linkNotice_eq, putPedestal, Pedestal.settled]
    rw [answered_eq]
    rfl
  · unfold deliverTap
    dsimp only
    rw [hk3, h]; rfl
  · refine ⟨if accounted (s.pedestal n) f then waterDelta s3 n (unpack (tapReport (s.pedestal n).cfg.kind f).water) s3 else s3,
      fun g => ?_, fun g => ?_, ?_⟩
    · rw [if_pos (hnews.2 g)]; exact waterDelta_taken s3 n _ s3 rfl
    · exact if_neg fun k => g (hnews.1 k)
    · unfold deliverTap
      dsimp only
      rw [hk3, if_pos h]
      exact valveAgreement_agreed ..

end Sys2Proof.Machine
end

