-- ==== Sys2Proof/Laws/Starts.lean ====
section
/-! SUPPORT. All that a cold start, a warm start, the entry to HOLDOVER and the return from it do (R182, R183, R186). -/

namespace Sys2Proof.Machine

/-! ### Relief at a warm start -/

/-- What relief can still take of a slot: a RESTORING session at 63 twice, another once. -/
def reliefLeft : Option PowerSession → Nat
  | none => 0
  | some x => if x.state = .restoring then (if x.granted = 63 then 2 else 1) else 0

theorem reliefLeft_le (x : Option PowerSession) : reliefLeft x ≤ 2 := by
  unfold reliefLeft; split
  · omega
  · split
    · split <;> omega
    · omega

/-- What relief can still take of the whole part. -/
def reliefTotal (s : State) : Nat := ∑ m, reliefLeft (s.power.get m)

theorem reliefLeft_sum_put {s t : State} {k : SocketId} {x : Option PowerSession} (h : t.power = s.power.put k x)
    (hl : reliefLeft x < reliefLeft (s.power.get k)) :
    reliefTotal t < reliefTotal s := by
  refine Finset.sum_lt_sum (fun m _ => ?_) ⟨k, Finset.mem_univ k, by rw [h, Table.get_put_self]; exact hl⟩
  rw [h, Table.get_put]
  split
  · next e => subst e; omega
  · exact Nat.le_refl _

theorem PowerWritten.power {k : SocketId} {x : Option PowerSession} {s t : State} (h : PowerWritten k x s t) :
    t.power = s.power.put k x := by
  obtain ⟨e, d, h⟩ := h; rw [h]

theorem PowerWritten.device {k : SocketId} {x : Option PowerSession} {s t : State} (h : PowerWritten k x s t) :
    t.device = s.device := by
  obtain ⟨e, d, h⟩ := h; rw [h]

theorem endPower_loading (b : State) (k : SocketId) (why : PowerEnd) (s : State) (hd : s.device = .loading)
    (x : PowerSession) (hx : s.power.get k = some x) :
    (endPower b k why s).power = s.power.put k none ∧ (endPower b k why s).device = .loading := by
  have e : endPower b k why s = serve b (feederOf s k) (raise .powerEnded
      { account := some x.account, outlet := some (.socket k), value := some (x.energy : Int)
        reason := some (.powerEnd why), fault := x.fault }
      (modAccount b x.account (fun a => { a with power := none }) (putPower b k none s))) := by
    simp only [endPower, hx]
  have hd' : (raise .powerEnded
      { account := some x.account, outlet := some (.socket k), value := some (x.energy : Int)
        reason := some (.powerEnd why), fault := x.fault }
      (modAccount b x.account (fun a => { a with power := none }) (putPower b k none s))).device = .loading := by
    rw [raise_device]; exact hd
  rw [e, show ∀ u, u.device = .loading → serve b (feederOf s k) u = u from fun u h => if_pos (.inl h)]
  · exact ⟨by rw [raise_power]; rfl, hd'⟩
  · exact hd'

/-- One round of relief at a warm start takes a RESTORING session, and leaves less to take. -/
theorem relieveOne_cases (b : State) (f : FeederId) (s : State) (hd : s.device = .loading) :
    (relieveOne b f s = none ∧ ∀ k y, ¬ SessionOn .restoring s f k y)
    ∨ ∃ t, relieveOne b f s = some t ∧ RestoringRelieved f s t ∧ t.device = .loading
        ∧ reliefTotal t < reliefTotal s := by
  unfold relieveOne
  cases hm : mostRecent s f .restoring true with
  | some k =>
    obtain ⟨y, hy⟩ := mostRecent_some hm
    simp only [forall_const] at hy
    simp only [hy.1.2.2.1]
    have hw := putPower_written b k (some { y with granted := 32, held := 32, stepped := true }) s
    refine .inr ⟨_, rfl, .inl ⟨k, y, _, hy, hw, rfl⟩, ?_, ?_⟩
    · unfold reliefNotice; rw [raise_device, hw.device]; exact hd
    · refine reliefLeft_sum_put (k := k) (by unfold reliefNotice; rw [raise_power]; exact hw.power) ?_
      rw [hy.1.2.2.1]; simp [reliefLeft, hy.1.2.2.2, hy.2.1]
  | none =>
    have hn : ∀ m z, SessionOn .restoring s f m z → z.granted ≠ 63 := fun m z hz h => mostRecent_none hm m z hz fun _ => h
    cases hm : mostRecent s f .restoring false with
    | none => exact .inl ⟨rfl, fun k y hy => mostRecent_none hm k y hy fun h => nomatch h⟩
    | some k =>
      obtain ⟨y, hy⟩ := mostRecent_some hm
      simp only [Bool.false_eq_true, false_implies] at hy
      simp only [hy.1.2.2.1]
      have hl : reliefLeft (s.power.get k) = 1 := by
        rw [hy.1.2.2.1]; simp [reliefLeft, hy.1.2.2.2, hn k y hy.1]
      by_cases hw : (s.feeder f).waitList.length < 64
      · have hp := putPower_written b k (some { y with state := .waiting, held := 0, shed := true, confirmMisses := 0 }) s
        rw [if_pos (show (s.feeder f).waitList.length < Config.waitListRoom from hw)]
        refine .inr ⟨_, rfl, .inr ⟨k, y, _, hn, hy, fun _ => hp, fun h => absurd hw (Nat.not_lt.2 h), rfl⟩, ?_, ?_⟩
        · unfold reliefNotice; rw [raise_device, hp.device]; exact hd
        · refine reliefLeft_sum_put (k := k) (by unfold reliefNotice; rw [raise_power]; exact hp.power) ?_
          rw [hl]; simp [reliefLeft]
      · rw [if_neg (show ¬ (s.feeder f).waitList.length < Config.waitListRoom from hw)]
        have hp := endPower_loading b k .full s hd y hy.1.2.2.1
        refine .inr ⟨_, rfl, .inr ⟨k, y, _, hn, hy, fun h => absurd h hw, fun _ => endPower_ended b k .full s, rfl⟩, ?_, ?_⟩
        · unfold reliefNotice; rw [raise_device]; exact hp.2
        · refine reliefLeft_sum_put (k := k) (by unfold reliefNotice; rw [raise_power]; exact hp.1) ?_
          rw [hl]; simp [reliefLeft]

/-- Relief at a warm start ends within the cap or with no session RESTORING (R121 step 4). -/
theorem relieveLoaded_taken (b : State) (f : FeederId) (fuel : Nat) (s : State) (hd : s.device = .loading)
    (hf : reliefTotal s ≤ fuel) :
    ReliefTaken f s (relieveLoaded b f fuel s) ∧ (relieveLoaded b f fuel s).device = .loading := by
  have stop : ∀ s : State, ((s.feeder f).heldSum ≤ capOf s f ∨ ∀ k y, ¬ SessionOn .restoring s f k y) →
      ReliefTaken f s s := fun s h => ⟨0, fun _ => s, rfl, rfl, fun i hi => absurd hi (by omega), h⟩
  induction fuel generalizing s with
  | zero =>
    refine ⟨stop s (.inr fun k y hy => ?_), hd⟩
    have : reliefLeft (s.power.get k) ≤ 0 :=
      Nat.le_trans (Finset.single_le_sum (f := fun m => reliefLeft (s.power.get m)) (fun _ _ => Nat.zero_le _) (Finset.mem_univ k)) hf
    rw [hy.2.2.1] at this
    simp only [reliefLeft, hy.2.2.2, if_true] at this
    split at this <;> omega
  | succ n ih =>
    by_cases hc : (s.feeder f).heldSum ≤ capOf s f
    · have : relieveLoaded b f (n + 1) s = s := if_pos hc
      rw [this]; exact ⟨stop s (.inl hc), hd⟩
    · rcases relieveOne_cases b f s hd with ⟨h, hn⟩ | ⟨t, h, hr, htd, hlt⟩
      · have : relieveLoaded b f (n + 1) s = s := by
          rw [relieveLoaded, h]; exact if_neg hc
        rw [this]; exact ⟨stop s (.inr hn), hd⟩
      · have : relieveLoaded b f (n + 1) s = relieveLoaded b f n t := by
          rw [relieveLoaded, h]; exact if_neg hc
        rw [this]
        obtain ⟨⟨m, v, h0, hm, hv, he⟩, hd'⟩ := ih t htd (Nat.le_of_lt_succ (Nat.lt_of_lt_of_le hlt hf))
        refine ⟨⟨m + 1, fun i => match i with | 0 => s | i + 1 => v i, rfl, hm, ?_, he⟩, hd'⟩
        rintro (_ | i) hi
        · refine ⟨Nat.lt_of_not_le hc, ?_⟩
          show RestoringRelieved f s (v 0)
          rw [h0]; exact hr
        · exact hv i (Nat.lt_of_succ_lt_succ hi)

theorem reliefTotal_le (s : State) : reliefTotal s ≤ 1024 := by
  refine (Finset.sum_le_card_nsmul _ _ 2 fun m _ => reliefLeft_le _).trans ?_
  simp

/-- What holds of each step under an invariant holds of the steps in turn. -/
theorem eachId_inTurn_of {n : Nat} (f : Fin n → State → State) (I : State → Prop) {P : Fin n → State → State → Prop}
    (h : ∀ i s, I s → P i s (f i s) ∧ I (f i s)) (s : State) (hs : I s) :
    InTurn n P s (eachId n f s) ∧ I (eachId n f s) := by
  have hI : ∀ l : List (Fin n), I (l.foldl (fun s i => f i s) s) := by
    intro l
    induction l using List.reverseRecOn with
    | nil => exact hs
    | append_singleton l a ih => rw [List.foldl_append]; exact (h a _ ih).2
  refine ⟨⟨fun j => ((List.finRange n).take j).foldl (fun s i => f i s) s, rfl, ?_, fun i => ?_⟩, hI _⟩
  · show ((List.finRange n).take n).foldl _ s = _
    rw [List.take_of_length_le (by simp)]; rfl
  · have : (List.finRange n).take (i.val + 1) = (List.finRange n).take i.val ++ [i] := by
      rw [List.take_add_one]
      simp
    show P i _ (((List.finRange n).take (i.val + 1)).foldl _ s)
    rw [this, List.foldl_append]
    exact (h i _ (hI _)).1

/-! ### The steps of a warm start -/

theorem endAbsentPower_ended (b : State) (k : SocketId) (s : State) : AbsentPowerEnded k s (endAbsentPower b k s) := by
  refine ⟨fun h => ?_, fun x ⟨hx, hp⟩ => ⟨_, modAccount_written b x.account (fun a => { a with power := none }) _, ?_⟩⟩
  · unfold endAbsentPower
    cases hx : s.power.get k with
    | none => rfl
    | some x =>
      refine if_pos ?_
      cases hp : socketPresent s k
      · exact absurd ⟨hx, hp⟩ (h x)
      · rfl
  · simp only [endAbsentPower, hx, hp]; rfl

theorem endAbsentWater_ended (b : State) (k : TapId) (s : State) : AbsentWaterEnded k s (endAbsentWater b k s) := by
  refine ⟨fun h => ?_, fun h => ?_⟩
  · unfold endAbsentWater
    cases hp : tapPresent s k
    · have : s.water.get k = none := by
        by_contra g; exact h ⟨hp, g⟩
      simp only [endWater, this]; rfl
    · rfl
  · have : endAbsentWater b k s = endWater b k .restart s := by
      unfold endAbsentWater; rw [h.1]; rfl
    rw [this]; exact endWater_ended b k .restart s

theorem eachId_feeders (b : State) (g : FeederId → State → Feeder → Feeder)
    (hg : ∀ f (s : State) t x, g f { s with feeders := t } x = g f s x) (s : State) :
    let t := eachId 16 (fun f u => modFeeder b f (g f u) u) s
    t = { s with feeders := t.feeders } ∧ ∀ f, t.feeder f = (b.feeder f).settled (g f s (s.feeder f)) := by
  have key : ∀ (ids : List FeederId) (u : State),
      eachOf ids (fun f u => modFeeder b f (g f u) u) u
        = { u with feeders := ids.foldl (fun t f => t.put f ((b.feeder f).settled (g f u (t.get f)))) u.feeders } := by
    intro ids
    induction ids with
    | nil => intro u; rfl
    | cons f rest ih =>
      intro u
      refine (ih _).trans ?_
      simp only [modFeeder, putFeeder, List.foldl_cons, hg, State.feeder]
  intro t
  have ht : t = _ := key (List.finRange 16) s
  refine ⟨by rw [ht], fun f => ?_⟩
  rw [ht]
  exact (foldl_put_get (fun f x => (b.feeder f).settled (g f s x)) _ (List.nodup_finRange 16) _ f).trans
    (if_pos (List.mem_finRange f))

theorem feeder_settled (x y : Feeder) : x.settled y = { y with edition := (x.settled y).edition } := rfl

theorem pedestal_settled (x y : Pedestal) : x.settled y = { y with edition := (x.settled y).edition } := rfl

/-- The feeders at a warm start (R121). -/
theorem agreeFeeder_agreed (b : State) (s : State) : FeedersAgreed s (eachId 16 (agreeFeeder b) s) := by
  have e : agreeFeeder b = fun f u => modFeeder b f (fun x =>
    { x with heldSum := ((feederSockets u f).map fun k => heldOf (u.power.get k)).sum
             waitList := x.waitList.filter fun k => waitsOn u k && feederOf u k = f
             relief := none, measured := 0, overload := 0 }) u := rfl
  rw [e]
  obtain ⟨h1, h2⟩ := eachId_feeders b (fun f u x =>
    { x with heldSum := ((feederSockets u f).map fun k => heldOf (u.power.get k)).sum
             waitList := x.waitList.filter fun k => waitsOn u k && feederOf u k = f
             relief := none, measured := 0, overload := 0 }) (fun _ _ _ _ => rfl) s
  refine ⟨h1, fun f => ?_⟩
  rw [h2 f]
  simp only [Feeder.settled, waitsOn]

/-- A WAITING session on no list joins one (R121 step 1). -/
theorem rejoin_rejoined (b : State) (k : SocketId) (s : State) : Rejoined k s (rejoin b k s) := by
  have hj : (waitsOn s k && !(s.feeder (feederOf s k)).waitList.contains k) = true
      ↔ isWaiting (s.power.get k) = true ∧ k ∉ (s.feeder (feederOf s k)).waitList := by
    simp [waitsOn]
  refine ⟨fun h => if_neg fun g => h (hj.1 g), fun h hl => ?_, fun h hl => ?_⟩
  · have e : rejoin b k s = modFeeder b (feederOf s k) (fun x => { x with waitList := x.waitList ++ [k] }) s :=
      (if_pos (hj.2 h)).trans (if_pos hl)
    rw [e]; exact ⟨_, rfl⟩
  · have e : rejoin b k s = endPower b k .full s := (if_pos (hj.2 h)).trans (if_neg (Nat.not_lt.2 hl))
    rw [e]; exact endPower_ended b k .full s

theorem eachId_pedestals (b : State) (g : PedestalId → State → Pedestal → Pedestal)
    (hg : ∀ n (s : State) t x, g n { s with pedestals := t } x = g n s x) (s : State) :
    let t := eachId 256 (fun n u => modPedestal b n (g n u) u) s
    t = { s with pedestals := t.pedestals } ∧ ∀ n, t.pedestal n = (b.pedestal n).settled (g n s (s.pedestal n)) := by
  have key : ∀ (ids : List PedestalId) (u : State),
      eachOf ids (fun n u => modPedestal b n (g n u) u) u
        = { u with pedestals := (eachOf ids (fun n u => modPedestal b n (g n u) u) u).pedestals }
      ∧ (eachOf ids (fun n u => modPedestal b n (g n u) u) u).pedestals
        = ids.foldl (fun t n => t.put n ((b.pedestal n).settled (g n u (t.get n)))) u.pedestals := by
    intro ids
    induction ids with
    | nil => intro u; exact ⟨rfl, rfl⟩
    | cons n rest ih =>
      intro u
      refine ⟨(ih _).1, (ih _).2.trans ?_⟩
      simp only [modPedestal, putPedestal, List.foldl_cons, hg, State.pedestal]
  obtain ⟨h1, h2⟩ := key (List.finRange 256) s
  refine ⟨h1, fun n => ?_⟩
  refine (congrArg (fun t => Table.get t n) h2).trans ?_
  exact (foldl_put_get (fun n x => (b.pedestal n).settled (g n s x)) _ (List.nodup_finRange 256) _ n).trans
    (if_pos (List.mem_finRange n))

/-- A pedestal with its desired outputs as its sessions require. -/
def outputsFor (s : State) (n : PedestalId) (p : Pedestal) : Pedestal :=
  { p with
    desired := Table.build fun i =>
      { relay := (desiredFor (p.cfg.ratings.get i) (s.power.get (socketAt n i))).1
        limit := (desiredFor (p.cfg.ratings.get i) (s.power.get (socketAt n i))).2
        clearTrip := (p.desired.get i).clearTrip }
    desiredValve := ((s.water.get n).map fun w => w.state.on).getD false }

theorem two_puts {α : Type} (t : Table α 2) (x y : α) : (t.put 0 x).put 1 y = Table.build fun i => if i = 0 then x else y :=
    Table.ext_get fun i => by
      obtain rfl | rfl : i = 0 ∨ i = 1 := by omega
      · simp [Table.get_put]
      · simp

theorem Table.get_put_01 {α : Type} (t : Table α 2) (x : α) : (t.put 0 x).get 1 = t.get 1 := by simp [Table.get_put]

/-- The desired outputs of a pedestal are written from its sessions. -/
theorem setOutputs_eq (b : State) (n : PedestalId) (s : State) :
    setOutputs b n s = modPedestal b n (fun p => outputsFor s n p) s := by
  unfold setOutputs syncSocket modPedestal putPedestal
  simp only [pedestalOf_socketAt, positionOf_socketAt, State.pedestal, Table.get_put_self, Table.put_put]
  refine congrArg (fun p => { s with pedestals := s.pedestals.put n p }) ?_
  generalize s.pedestals.get n = p
  generalize b.pedestals.get n = q
  have h : outputsFor s n p = { p with
    desired := ((p.desired.put 0 { p.desired.get 0 with
        relay := (desiredFor (p.cfg.ratings.get 0) (s.power.get (socketAt n 0))).1
        limit := (desiredFor (p.cfg.ratings.get 0) (s.power.get (socketAt n 0))).2 }).put 1 { p.desired.get 1 with
        relay := (desiredFor (p.cfg.ratings.get 1) (s.power.get (socketAt n 1))).1
        limit := (desiredFor (p.cfg.ratings.get 1) (s.power.get (socketAt n 1))).2 })
    desiredValve := ((s.water.get n).map fun w => w.state.on).getD false } := by
    unfold outputsFor
    rw [two_puts]
    refine congrArg (fun d => { p with
      desired := d, desiredValve := (outputsFor s n p).desiredValve }) (Table.ext_get fun i => ?_)
    obtain rfl | rfl : i = 0 ∨ i = 1 := by omega
    · simp
    · simp
  rw [h]
  simp only [Pedestal.settled, Table.get_put_01]
  rfl

/-- The sessions and outputs as the warm start leaves them (R121 steps 1 and 2). -/
theorem setOutputs_restored (b : State) (s : State) : SessionsRestored s (eachId 256 (setOutputs b) (restoreSessions s)) := by
  have e : setOutputs b = fun n u => modPedestal b n (fun p => outputsFor u n p) u := by
    funext n u; exact setOutputs_eq b n u
  rw [e]
  obtain ⟨h1, h2⟩ := eachId_pedestals b (fun n u p => outputsFor u n p) (fun _ _ _ _ => rfl) (restoreSessions s)
  generalize eachId 256 (fun n u => modPedestal b n (fun p => outputsFor u n p) u) (restoreSessions s) = t at *
  have hp : t.power = s.power.map fun x => x.map (PowerSession.restored true) := by rw [h1]; rfl
  have hw : t.water = s.water.map fun x => x.map fun w => { w with confirmMisses := 0 } := by rw [h1]; rfl
  refine ⟨by rw [h1]; rfl, fun k => ?_, fun k => ?_, fun n => ?_⟩
  · rw [hp, Table.get_map]
    cases s.power.get k with
    | none => rfl
    | some x => cases hx : x.state <;> simp [PowerSession.restored, PowerState.restored, hx]
  · rw [hw, Table.get_map]
  · have e1 : (restoreSessions s).power = t.power := hp.symm
    have e2 : (restoreSessions s).water = t.water := hw.symm
    have e3 : (restoreSessions s).pedestal n = s.pedestal n := rfl
    have e4 : ((t.water.get n).map fun w => w.state.on).getD false = (t.water.get n).any fun y => y.state.on := by
      cases t.water.get n <;> rfl
    rw [h2 n, e3, pedestal_settled]
    simp only [outputsFor, e1, e2, e4, desiredFor_eq]

/-! ### The end of LOADING -/

/-- The test of the start condition does what R65 says. -/
theorem testRollover_tested (s : State) : RolloverTested s (testRollover s) := by
  have hd : rolloverDue s = true ↔ s.clockSet = true ∧ ∃ last, s.lastRollover = some last ∧
      last < (if s.site.val.rolloverHour * 3600 ≤ s.clock.time then s.clock.date else s.clock.date - 1) := by
    unfold rolloverDue
    cases s.lastRollover with
    | none => simp
    | some d => simp only [rolloverDate, rolloverDateAt]; split <;> simp_all
  have hm : (s.device.trading && s.rollover.isNone) = true ↔
      (s.device = .opened ∨ s.device = .holdover) ∧ s.rollover = none := by
    cases s.device <;> cases s.rollover <;> simp [DeviceState.trading]
  by_cases h : rolloverDue s = true
  · by_cases g : (s.device.trading && s.rollover.isNone) = true
    · refine .inl ⟨hd.1 h, hm.1 g, ?_⟩
      exact (if_pos h).trans (if_pos g)
    · exact .inr (.inl ⟨hd.1 h, fun w => g (hm.2 w), (if_pos h).trans (if_neg g)⟩)
  · exact .inr (.inr ⟨fun w => h (hd.2 w), if_neg h⟩)

/-- The locks set from a base with the gates of `s` are the relocked gates of `s` (R160). -/
theorem relocked_of {b s : State} {d : DeviceState} {gates : Table Gate 20} (hb : b.gates = s.gates)
    (h : ∀ g, gates.get g = (b.gate g).settled ((s.gate g).locked d g)) : Relocked d s gates := by
  intro g
  have e : b.gate g = s.gate g := congrArg (fun t => t.get g) hb
  rw [h g, e]
  clear h
  generalize s.gate g = x
  have hs : ∀ r : Bool, x.settled { x with released := r }
      = { x with released := r, edition := if x.released = r then x.edition else x.edition + 1 } := by
    intro r
    cases r <;> cases hx : x.released <;> simp [Gate.settled, Gate.sameCounted, editionAfter, hx]
  refine (hs _).trans ?_
  cases d <;> cases hx : x.cfg.mode <;> by_cases h0 : g = 0 <;> simp [Gate.lockIn, Gate.lockIn.byMode, hx, h0]

/-- A change of device state sets every lock (R160). -/
theorem enterState_relocked {b s : State} (d : DeviceState) (hb : b.gates = s.gates) :
    Relocked d s (enterState b d s).gates := relocked_of hb fun g => enterState_gate b d s g

/-- Only the gates change at a relock, and then the rollover is tested in a state that trades. -/
theorem enterState_tested (b s : State) (d : DeviceState) :
    (d = .opened ∨ d = .holdover →
      RolloverTested { s with device := d, gates := (enterState b d s).gates } (enterState b d s))
    ∧ (d = .loading ∨ d = .setup → enterState b d s = { s with device := d, gates := (enterState b d s).gates }) := by
  have hr := relockAll_eq b { s with device := d }
  generalize ht : relockAll b { s with device := d } = t at hr
  have he : enterState b d s = if d.trading then testRollover t else t := by rw [← ht]; rfl
  have hg : (enterState b d s).gates = t.gates := by
    rw [he]; split
    · rw [testRollover_eq]
    · rfl
  refine ⟨fun h => ?_, fun h => ?_⟩
  · have : d.trading = true := by rcases h with rfl | rfl <;> rfl
    rw [hg, ← hr, he, this]
    exact testRollover_tested t
  · have : d.trading = false := by rcases h with rfl | rfl <;> rfl
    rw [hg, ← hr, he, this]; rfl

theorem mem_installedOn (s : State) (g : SegmentId) : (!(installedOn s g).isEmpty) = true ↔ ∃ n, onSegment s g n := by
  rw [Bool.not_eq_true', ← Bool.not_eq_true, List.isEmpty_iff]
  constructor
  · intro h
    obtain ⟨n, hn⟩ := List.exists_mem_of_ne_nil _ h
    have := List.mem_filter.1 hn
    exact ⟨n, by simpa [onSegment] using this.2⟩
  · rintro ⟨n, h1, h2⟩ h
    have : n ∈ installedOn s g := List.mem_filter.2 ⟨List.mem_finRange n, by simp [h1, h2]⟩
    rw [h] at this; cases this

theorem loadPorts_ports (s : State) : (loadPorts s).ports = s.ports.map fun p =>
    { p with cursor := { table := .site, index := 0 }, holding := entryAt s .site 0 } := by
  refine Table.ext_get fun i => ?_
  have hi : i = 0 ∨ i = 1 ∨ i = 2 := by omega
  rw [Table.get_map]
  obtain rfl | rfl | rfl := hi <;>
    simp [loadPorts, loadHolding, putPort, State.port, portIx, Table.get_put, entryAt]

/-- Loading the ports, the held notices and the last notice, after everything else. -/
theorem endLoading_last (u v : State) (value : Int) (d : DeviceState) (hd : v.device = d)
    (hp : v.ports = u.ports) (hh : v.heldNotices = u.heldNotices) (hs : v.site = u.site) :
    stateChanged (some value) (flushHeld (loadPorts v))
      = raise .stateChanged { value := some value, reason := some (.device d) }
        { u.heldNotices.foldl (fun w n => routeNotice n w)
            { v with
              ports := u.ports.map fun p =>
                { p with cursor := { table := .site, index := 0 }, holding := entryAt u .site 0 } } with
          heldNotices := [] } := by
  have e : loadPorts v = { v with
      ports := u.ports.map fun p =>
        { p with cursor := { table := .site, index := 0 }, holding := entryAt u .site 0 } } := by
    rw [loadPorts_eq v, loadPorts_ports v, hp]
    have : entryAt v .site 0 = entryAt u .site 0 := by simp only [entryAt, hs]
    rw [this]
  have k : (flushHeld (loadPorts v)).device = d := by rw [flushHeld_eq, loadPorts_eq]; exact hd
  have f : flushHeld (loadPorts v) = { u.heldNotices.foldl (fun w n => routeNotice n w) (loadPorts v) with
      heldNotices := [] } := by
    unfold flushHeld
    rw [← hh]; rfl
  unfold stateChanged
  rw [k, f, e]

theorem polls_iff (d : DeviceState) : d.polls = true ↔ d = .setup ∨ d = .opened := by
  cases d <;> simp [DeviceState.polls]

/-- The end of LOADING, from a base with the same gates. -/
theorem endLoading_ended (b : State) (d : DeviceState) (value : Int) (u : State) (hb : b.gates = u.gates) :
    LoadingEnded d value u (endLoading b d value u) := by
  have ht := enterState_tested b { u with readers := Table.build fun _ => emptyReader } d
  have hr := enterState_relocked (b := b) (s := { u with readers := Table.build fun _ => emptyReader }) d hb
  have hq := enterState_eq b d { u with readers := Table.build fun _ => emptyReader }
  generalize hv : enterState b d { u with readers := Table.build fun _ => emptyReader } = v at ht hr hq
  have hvd : v.device = d := by rw [hq]
  have key : ∀ w : State, w.device = d → w.ports = u.ports → w.heldNotices = u.heldNotices → w.site = u.site →
      (stateChanged (some value) (flushHeld (loadPorts w))).gates = w.gates := by
    intro w _ _ _ _
    unfold stateChanged
    rw [(raise_noticed_self _ _ _).eq, flushHeld_eq, loadPorts_eq]
  by_cases hpol : d.polls = true
  · have e : endLoading b d value u = stateChanged (some value) (flushHeld (loadPorts (beginPolling v))) := by
      unfold endLoading
      rw [hv, if_pos hpol]
    have h1 : (beginPolling v).device = d := hvd
    have h2 : (beginPolling v).ports = u.ports := by rw [hq]; rfl
    have h3 : (beginPolling v).heldNotices = u.heldNotices := by rw [hq]; rfl
    have h4 : (beginPolling v).site = u.site := by rw [hq]; rfl
    have hg : (endLoading b d value u).gates = v.gates := e ▸ key _ h1 h2 h3 h4
    have hd' := (polls_iff d).1 hpol
    refine ⟨by rw [hg]; exact hr, v, (beginPolling v).segments, ?_, ?_, ?_, ?_, ?_⟩
    · rw [hg]; exact ht.1
    · rw [hg]; exact ht.2
    · intro h; exfalso; rcases hd' with rfl | rfl <;> rcases h with h | h <;> cases h
    · intro _ g
      have hw : (beginPolling v).segments.get g
          = { v.segment g with position := none, due := !(installedOn v g).isEmpty, outstanding := none } := Table.get_build _ _
      refine ⟨?_, ?_⟩
      · rw [hw]
        have : v.segment g = u.segment g := by rw [hq]; rfl
        rw [this]
      · rw [hw]
        have : (∃ n, onSegment v g n) ↔ ∃ n, onSegment u g n := by rw [hq]; rfl
        exact (mem_installedOn v g).trans this
    · rw [e, endLoading_last u (beginPolling v) value d h1 h2 h3 h4, if_pos hd']
      have : v.pumpLine = u.pumpLine := by rw [hq]
      rw [← this]
      rfl
  · have e : endLoading b d value u = stateChanged (some value) (flushHeld (loadPorts v)) := by
      unfold endLoading
      rw [hv, if_neg hpol]; rfl
    have h2 : v.ports = u.ports := by rw [hq]
    have h3 : v.heldNotices = u.heldNotices := by rw [hq]
    have h4 : v.site = u.site := by rw [hq]
    have hg : (endLoading b d value u).gates = v.gates := e ▸ key _ hvd h2 h3 h4
    have hd' := fun h => hpol ((polls_iff d).2 h)
    refine ⟨by rw [hg]; exact hr, v, u.segments, ?_, ?_, fun _ => rfl, fun h => absurd h hd', ?_⟩
    · rw [hg]; exact ht.1
    · rw [hg]; exact ht.2
    · rw [e, endLoading_last u v value d hvd h2 h3 h4, if_neg hd']
      have h5 : v.pumpLine = u.pumpLine := by rw [hq]
      have h6 : v.segments = u.segments := by rw [hq]
      rw [← h5, ← h6]

/-! ### The records of a start -/

theorem takeConfiguration_same (c : SiteTables) (s : State) : SameButTables s (takeConfiguration c s) := rfl

theorem takeConfiguration_berth (c : SiteTables) (s : State) (n : BerthId) :
    (takeConfiguration c s).berth n = { s.berth n with cfg := (c.berths.get n).cfg } := Table.get_zipWith ..

theorem takeConfiguration_pedestal (c : SiteTables) (s : State) (n : PedestalId) :
    (takeConfiguration c s).pedestal n = { s.pedestal n with cfg := c.pedestals.get n } := Table.get_zipWith ..

theorem takeConfiguration_feeder (c : SiteTables) (s : State) (f : FeederId) :
    (takeConfiguration c s).feeder f = { s.feeder f with cfg := c.feeders.get f } := Table.get_zipWith ..

theorem takeConfiguration_pump (c : SiteTables) (s : State) (n : PumpId) :
    (takeConfiguration c s).pump n = { s.pump n with cfg := c.pumps.get n } := Table.get_zipWith ..

theorem takeConfiguration_tank (c : SiteTables) (s : State) (k : ProductId) :
    (takeConfiguration c s).tank k = { s.tank k with cfg := c.tanks.get k } := Table.get_zipWith ..

theorem takeConfiguration_gate (c : SiteTables) (s : State) (g : GateId) :
    (takeConfiguration c s).gate g = loadingGate g (c.gates.get g) := Table.get_build ..

/-- The loaded tables (R181). -/
theorem takeConfiguration_loaded (c : SiteTables) (s : State) : LoadedTables c (takeConfiguration c s) := by
  have hr : ∀ {α : Type} {n : Nat} (t : Table α n) i, (t.map loadedRow).get i = { val := t.get i, edition := 0 } :=
    fun t i => Table.get_map ..
  refine ⟨rfl, hr _, hr _, hr _, hr _, hr _, hr _, hr _, fun n => ?_, fun n => ?_, fun n => ?_, fun n => ?_, fun n => ?_,
    fun g => ?_⟩
  · rw [takeConfiguration_berth]
  · rw [takeConfiguration_pedestal]
  · rw [takeConfiguration_feeder]
  · rw [takeConfiguration_pump]
  · rw [takeConfiguration_tank]
  · rw [takeConfiguration_gate]
    have : decide (g.val = 0) = decide (g = 0) := by
      by_cases h : g = 0
      · subst h; rfl
      · have : ¬ g.val = 0 := fun w => h (Fin.ext w)
        simp [h, this]
    simp only [loadingGate, this]

theorem clearRecords_berth (s : State) (n : BerthId) : (clearRecords s).berth n = coldBerth (s.berth n).image := Table.get_map ..

theorem clearRecords_pedestal (s : State) (n : PedestalId) : (clearRecords s).pedestal n = coldPedestal (s.pedestal n).cfg :=
  Table.get_map ..

theorem clearRecords_feeder (s : State) (f : FeederId) : (clearRecords s).feeder f = coldFeeder (s.feeder f).cfg := Table.get_map ..

theorem clearRecords_pump (s : State) (n : PumpId) : (clearRecords s).pump n = coldPump (s.pump n).cfg := Table.get_map ..

theorem clearRecords_tank (s : State) (k : ProductId) : (clearRecords s).tank k = coldTank (s.tank k).cfg := Table.get_map ..

/-- Every record at its cold value (R182). -/
theorem clearRecords_cold (s : State) : RecordsCold (clearRecords s) := by
  have hb : ∀ {α : Type} {n : Nat} (f : Fin n → α) i, (Table.build f).get i = f i := fun f i => Table.get_build ..
  refine ⟨rfl, rfl, rfl, rfl, rfl, hb _, fun n => ?_, fun n => ?_, hb _, hb _, fun f => ?_, rfl, fun n => ?_, fun k => ?_,
    rfl, rfl, hb _, rfl⟩
  · rw [clearRecords_berth]
    unfold coldBerth
    refine ⟨?_, rfl, rfl⟩
    split <;> simp
  · rw [clearRecords_pedestal]; rfl
  · rw [clearRecords_feeder]; rfl
  · rw [clearRecords_pump]; rfl
  · rw [clearRecords_tank]; rfl

/-- The loss of the records keeps the configuration. -/
theorem clearRecords_lost (s : State) : RecordsLost s (clearRecords s) := by
  refine ⟨clearRecords_cold s, fun n => ?_, fun n => ?_, fun n => ?_, fun n => ?_, fun n => ?_, rfl⟩
  · rw [clearRecords_berth]; rfl
  · rw [clearRecords_pedestal]; rfl
  · rw [clearRecords_feeder]; rfl
  · rw [clearRecords_pump]; rfl
  · rw [clearRecords_tank]; rfl

/-- A berth is in service after the loss of the records as it was before. -/
theorem clearRecords_inService (s : State) (n : BerthId) :
    ((clearRecords s).berth n).state = if (s.berth n).state = .outOfService then .outOfService else .free := by
  rw [clearRecords_berth]
  simp only [coldBerth, Berth.image, decide_eq_true_eq]

/-- What the battery takes (R186). -/
theorem batteryExhausted_lost (s : State) :
    RecordsLost { s with valid := false, stopped := true } { clearRecords s with valid := false, stopped := true } :=
  clearRecords_lost { s with valid := false, stopped := true }

/-- A cold start, all that it does. -/
theorem coldStart_started (c : SiteTables) (value : Int) (s : State) : ColdStarted c value s (coldStart c value s) := by
  refine ⟨{ takeConfiguration c s with valid := false }, { coldRecords c s with valid := false }, rfl,
    takeConfiguration_loaded c s, ?_, fun n => ?_, endLoading_ended _ .setup value _ rfl⟩
  · have hbn : ∀ n, ({ coldRecords c s with valid := false } : State).berth n = coldBerth (c.berths.get n) :=
      fun n => Table.get_map ..
    have hcn : ∀ n, ({ takeConfiguration c s with valid := false } : State).berth n
        = { s.berth n with cfg := (c.berths.get n).cfg } := takeConfiguration_berth c s
    obtain ⟨⟨h1, h2, h3, h4, h5, h6, -, h8⟩, k1, k2, k3, k4, k5, -⟩ :=
      clearRecords_lost { takeConfiguration c s with valid := false }
    refine ⟨⟨h1, h2, h3, h4, h5, h6, fun n => ?_, h8⟩, fun n => ?_, k2, k3, k4, k5, rfl⟩
    · rw [hbn]; unfold coldBerth; refine ⟨?_, rfl, rfl⟩; split <;> simp
    · rw [hbn, hcn]; rfl
  · have hbn : ({ coldRecords c s with valid := false } : State).berth n = coldBerth (c.berths.get n) := Table.get_map ..
    rw [hbn]; rfl

/-- The retained records under the loaded tables. -/
theorem warmRecords_retained (c : SiteTables) (s : State) : RecordsRetained c s (warmRecords c s) := by
  obtain ⟨l1, l2, l3, l4, l5, l6, l7, l8, l9, l10, l11, l12, l13, l14⟩ := takeConfiguration_loaded c s
  have hp : ∀ n, (warmRecords c s).pedestal n = ((takeConfiguration c s).pedestal n).reloaded := fun n => Table.get_map ..
  have hq : ∀ n, (warmRecords c s).pump n = ((takeConfiguration c s).pump n).reloaded := fun n => Table.get_map ..
  refine ⟨rfl, ⟨l1, l2, l3, l4, l5, l6, l7, l8, l9, fun n => ?_, l11, fun n => ?_, l13, l14⟩, takeConfiguration_berth c s,
    fun n => ?_, takeConfiguration_feeder c s, fun n => ?_, takeConfiguration_tank c s⟩
  · rw [hp, takeConfiguration_pedestal]; rfl
  · rw [hq, takeConfiguration_pump]; rfl
  · rw [hp, takeConfiguration_pedestal]; rfl
  · rw [hq, takeConfiguration_pump]; rfl

/-! ### The warm start -/

theorem endAbsentPower_fuelEq (b : State) (k : SocketId) (s : State) : FuelEq s (endAbsentPower b k s) := by
  unfold endAbsentPower
  split
  · rfl
  · split
    · rfl
    · exact FuelEq.trans (t := modAccount b _ _ { s with power := s.power.put k none }) rfl (raise_fuelled _ _ (.refl _)).eq

theorem endAbsentWater_fuelEq (b : State) (k : TapId) (s : State) : FuelEq s (endAbsentWater b k s) := by
  unfold endAbsentWater
  split
  · rfl
  · exact (endWater_served b k .restart (.refl s)).worked.fuelled.eq

theorem rejoin_fuelEq (b : State) (k : SocketId) (s : State) : FuelEq s (rejoin b k s) := by
  unfold rejoin
  dsimp only
  split
  · split
    · rfl
    · exact (endPower_served b k .full (.refl s)).worked.fuelled.eq
  · rfl

theorem setOutputs_fuelEq (b : State) (n : PedestalId) (s : State) : FuelEq s (setOutputs b n s) := rfl

theorem agreeFeeder_fuelEq (b : State) (f : FeederId) (s : State) : FuelEq s (agreeFeeder b f s) := rfl

theorem restoreSessions_fuelEq (s : State) : FuelEq s (restoreSessions s) := rfl

theorem standing_fuelEq (b : State) (a : AccountId) (s : State) : FuelEq s (evaluateStanding b a s) :=
  (evaluateStanding_worked b a (.refl s)).fuelled.eq

theorem clampTank_fuelEq (b : State) (k : ProductId) (s : State) : FuelEq s (clampTank b k s) := by
  unfold clampTank
  dsimp only
  refine (settleLow_fuelled b k _ ?_).eq
  split
  · exact raise_fuelled _ _ (.refl s)
  · exact .refl s

theorem relieveOne_fuelEq (b : State) (f : FeederId) (s t : State) (h : relieveOne b f s = some t) : FuelEq s t := by
  have hr : ∀ {u : State} (k : Option SocketId) (w : ReliefWord), Served s u → FuelEq s (reliefNotice f k w u) :=
    fun k w h => (reliefNotice_served f k w h).worked.fuelled.eq
  unfold relieveOne at h
  repeat' split at h
  all_goals first
    | cases h; exact hr _ _ (putPower_served _ _ _ (.refl s))
    | cases h; exact hr _ _ (endPower_served _ _ _ (.refl s))
    | cases h

theorem relieveLoaded_fuelEq (b : State) (f : FeederId) (n : Nat) (s : State) : FuelEq s (relieveLoaded b f n s) := by
  induction n generalizing s with
  | zero => rfl
  | succ n ih =>
    rw [relieveLoaded]
    split
    · rfl
    · cases h : relieveOne b f s with
      | none => rfl
      | some t => exact (relieveOne_fuelEq b f s t h).trans (ih t)

theorem FuelEq.gates {s t : State} (h : FuelEq s t) : t.gates = s.gates := by rw [h]

theorem serve_fuelEq (b : State) (f : FeederId) (s : State) : FuelEq s (serve b f s) :=
  (serve_served b f (.refl s)).worked.fuelled.eq

/-- What each step leaves alone, all leave alone. -/
theorem eachId_fuelEq {n : Nat} {f : Fin n → State → State} (hf : ∀ i s, FuelEq s (f i s)) (s : State) : FuelEq s (eachId n f s) :=
  eachId_keeps (P := FuelEq s) (fun i {t} h => FuelEq.trans h (hf i t)) rfl

theorem endSaleAt_fuelEq (b : State) (w : SaleEnd) (n : PumpId) (s : State) : FuelEq s (endSaleAt b w n s) :=
  (endSaleAt_fuelled b w n (.refl s)).eq

theorem serveAll_fuelEq (b s : State) : FuelEq s (serveAll b s) := eachId_fuelEq (serve_fuelEq b) s

theorem serveAll_gates {b v : State} (d : DeviceState) (h : b.gates = v.gates) :
    b.gates = (serveAll b { v with device := d }).gates :=
  h.trans (serveAll_fuelEq b { v with device := d }).gates.symm

/-- The steps of a warm start, one after the other. -/
theorem warmStarted_of {c : SiteTables} {s t v0 v1 v2 v3 v4 v5 v6 v7 v8 v9 v10 : State}
    (h0 : RecordsRetained c s v0) (h1 : InTurn 512 AbsentPowerEnded v0 v1) (h2 : InTurn 256 AbsentWaterEnded v1 v2)
    (h3 : FeedersAgreed v2 v3) (h4 : InTurn 512 Rejoined v3 v4) (h5 : SessionsRestored v4 v5)
    (h6 : SalesEnded .restart v5 v6) (h7 : InTurn 2 TankClamped v6 v7) (h8 : InTurn 512 StandingSettled v7 v8)
    (h9 : InTurn 16 ReliefTaken v8 v9)
    (h10 : InTurn 16 ListServed { v9 with device := if s.mainsOk then .opened else .holdover } v10)
    (h11 : LoadingEnded (if s.mainsOk then .opened else .holdover) 1 v10 t) : WarmStarted c s t :=
  ⟨fun i => match i with
    | 0 => v0 | 1 => v1 | 2 => v2 | 3 => v3 | 4 => v4 | 5 => v5 | 6 => v6 | 7 => v7 | 8 => v8 | 9 => v9 | _ => v10,
    h0, h1, h2, h3, h4, h5, h6, h7, h8, h9, h10, h11⟩

/-- A warm start, all that it does. -/
theorem warmStart_started (c : SiteTables) (s : State) (hd : s.device = .loading) : WarmStarted c s (warmStart c s) := by
  generalize hb : warmRecords c s = b
  have hb0 : RecordsRetained c s b := hb ▸ warmRecords_retained c s
  have hbd : b.device = .loading := by rw [← hb]; exact hd
  have hbm : b.mainsOk = s.mainsOk := by rw [← hb]; rfl
  generalize h1 : eachId 512 (endAbsentPower b) b = v1
  generalize h2 : eachId 256 (endAbsentWater b) v1 = v2
  generalize h3 : eachId 16 (agreeFeeder b) v2 = v3
  generalize h4 : eachId 512 (rejoin b) v3 = v4
  generalize h5 : eachId 256 (setOutputs b) (restoreSessions v4) = v5
  generalize h6 : eachId 4 (endSaleAt b .restart) v5 = v6
  generalize h7 : eachId 2 (clampTank b) v6 = v7
  generalize h8 : eachId 512 (evaluateStanding b) v7 = v8
  generalize h9 : eachId 16 (fun f => relieveLoaded b f 1024) v8 = v9
  have e9 : reconcile b b = v9 := by
    unfold reconcile reconcileSessions
    rw [h1, h2, h3, h4, h5, h6, h7, h8, h9]
  have q1 : FuelEq b v1 := h1 ▸ eachId_fuelEq (endAbsentPower_fuelEq b) b
  have q2 : FuelEq v1 v2 := h2 ▸ eachId_fuelEq (endAbsentWater_fuelEq b) v1
  have q3 : FuelEq v2 v3 := h3 ▸ eachId_fuelEq (agreeFeeder_fuelEq b) v2
  have q4 : FuelEq v3 v4 := h4 ▸ eachId_fuelEq (rejoin_fuelEq b) v3
  have q5 : FuelEq v4 v5 := h5 ▸ (restoreSessions_fuelEq v4).trans (eachId_fuelEq (setOutputs_fuelEq b) _)
  have q6 : FuelEq v5 v6 := h6 ▸ eachId_fuelEq (endSaleAt_fuelEq b .restart) v5
  have q7 : FuelEq v6 v7 := h7 ▸ eachId_fuelEq (clampTank_fuelEq b) v6
  have q8 : FuelEq v7 v8 := h8 ▸ eachId_fuelEq (standing_fuelEq b) v7
  have q9 : FuelEq v8 v9 := h9 ▸ eachId_fuelEq (fun f s => relieveLoaded_fuelEq b f 1024 s) v8
  have p8 : FuelEq b v8 := ((((((q1.trans q2).trans q3).trans q4).trans q5).trans q6).trans q7).trans q8
  have p9 : FuelEq b v9 := p8.trans q9
  have d8 : v8.device = .loading := by rw [p8]; exact hbd
  have m9 : v9.mainsOk = s.mainsOk := by rw [p9]; exact hbm
  have g9 : b.gates = v9.gates := by rw [p9]
  generalize hdd : (if s.mainsOk then DeviceState.opened else .holdover) = d
  generalize h10 : serveAll b { v9 with device := d } = v10
  have g10 : b.gates = v10.gates := by
    exact h10 ▸ serveAll_gates d g9
  have et : warmStart c s = endLoading b d 1 v10 := by
    have ed : tradingState v9 = d := by rw [tradingState, m9, hdd]
    unfold warmStart
    simp only [hb, e9, ed, h10]
  have hrel := eachId_inTurn_of (fun f => relieveLoaded b f 1024) (fun s => s.device = .loading)
    (P := ReliefTaken) (fun f s h => relieveLoaded_taken b f 1024 s h (reliefTotal_le s)) v8 d8
  have r1 := eachId_inTurn _ (endAbsentPower_ended b) b
  have r2 := eachId_inTurn _ (endAbsentWater_ended b) v1
  have r3 := agreeFeeder_agreed b v2
  have r4 := eachId_inTurn _ (rejoin_rejoined b) v3
  have r5 := setOutputs_restored b v4
  have r6 := endSaleAt_ended b .restart v5
  have r7 := eachId_inTurn _ (clampTank_clamped b) v6
  have r8 := eachId_inTurn _ (evaluateStanding_settled b) v7
  have r9 := hrel.1
  have r10 := eachId_inTurn _ (serve_listServed b) { v9 with device := d }
  have r11 := endLoading_ended b d 1 v10 g10
  rw [serveAll] at h10
  rw [h1] at r1; rw [h2] at r2; rw [h3] at r3; rw [h4] at r4; rw [h5] at r5; rw [h6] at r6
  rw [h7] at r7; rw [h8] at r8; rw [h9] at r9; rw [h10] at r10; rw [← et] at r11
  subst hdd
  exact warmStarted_of hb0 r1 r2 r3 r4 r5 r6 r7 r8 r9 r10 r11

/-! ### The return of the mains -/

/-- A power session at the return (R120). -/
theorem returnSession_returned (b : State) (k : SocketId) (s : State) : SessionReturned k s (returnSession b k s) := by
  refine ⟨fun h => by simp only [returnSession, h], fun x h => ?_⟩
  have e : returnSession b k s = putPower b k (some (x.restored false)) s := by simp only [returnSession, h]
  have g : x.restored false = { x with
      state := if x.state = .live ∨ x.state = .switching then .restoring else x.state, lastCurrent := 0
      confirmMisses := if x.state = .live ∨ x.state = .switching then 0 else x.confirmMisses } := by
    cases hx : x.state <;> simp [PowerSession.restored, PowerState.restored, hx]
  rw [e, g]; exact putPower_written ..

/-- A feeder at the return (R120 step 3, R113). -/
theorem returnFeeder_returned (b : State) (f : FeederId) (s : State) : FeederReturned f s (returnFeeder b f s) := by
  refine ⟨((b.feeder f).settled { s.feeder f with measured := 0, overload := 0, relief := none }).edition, fun h => ?_, fun h => ?_⟩
  · unfold returnFeeder
    rw [if_pos h]; rfl
  · unfold returnFeeder
    rw [if_neg h]; exact serve_listServed ..

/-- The pedestals at the return (R93). -/
theorem returnPedestals_eq (b s : State) (hb : b.pedestals = s.pedestals) :
    let v := eachId 256 (returnPedestal b) s
    v = { s with pedestals := v.pedestals }
    ∧ ∀ n, let p := s.pedestal n
      (p.cfg.installed = false → v.pedestal n = p)
      ∧ (p.cfg.installed = true → v.pedestal n =
          { p with
            link := .unknown, misses := 0, reported := p.reported.map fun r => { r with current := 0 }
            edition := if p.link = .unknown then p.edition else p.edition + 1 }) := by
  obtain ⟨h1, h2⟩ := eachId_pedestals b (fun _ _ p =>
    if p.cfg.installed then
      { p with link := .unknown, misses := 0, reported := p.reported.map fun r => { r with current := 0 } }
    else p) (fun _ _ _ _ => rfl) s
  have e : returnPedestal b = fun n u => modPedestal b n ((fun (_ : PedestalId) (_ : State) (p : Pedestal) =>
    if p.cfg.installed then
      { p with link := .unknown, misses := 0, reported := p.reported.map fun r => { r with current := 0 } }
    else p) n u) u := rfl
  rw [e]
  refine ⟨h1, fun n => ?_⟩
  have hn := h2 n
  have hbn : b.pedestal n = s.pedestal n := congrArg (fun t => t.get n) hb
  rw [hbn] at hn
  refine ⟨fun h => ?_, fun h => ?_⟩
  · rw [hn, h]
    simp [Pedestal.settled, Pedestal.sameCounted, editionAfter]
  · rw [hn, h]
    cases hl : (s.pedestal n).link <;>
      simp [Pedestal.settled, Pedestal.sameCounted, editionAfter, hl]

/-- The pumps at the return (R145). -/
theorem returnPumps_eq (b s : State) (hb : b.pumps = s.pumps) :
    let v := eachId 4 (returnPump b) s
    v = { s with pumps := v.pumps }
    ∧ ∀ n, let p := s.pump n
      (p.cfg.installed = false → v.pump n = p)
      ∧ (p.cfg.installed = true → v.pump n =
          { p with online := false, misses := 3, edition := if p.online then p.edition + 1 else p.edition }) := by
  let g : PumpId → Pump → Pump := fun n p =>
    if p.cfg.installed then (b.pump n).settled { p with online := false, misses := Config.missLimit } else p
  have one : ∀ n (u : State), returnPump b n u = { u with pumps := u.pumps.put n (g n (u.pumps.get n)) } := by
    intro n u
    cases h : (u.pump n).cfg.installed
    · have e : g n (u.pumps.get n) = u.pumps.get n := by
        have h' : (u.pumps.get n).cfg.installed = false := h
        simp only [g, h']; rfl
      rw [e, Table.put_get_self]; exact if_neg (by rw [h]; simp)
    · have e : g n (u.pumps.get n) = (b.pump n).settled { u.pump n with online := false, misses := Config.missLimit } := by
        have h' : (u.pumps.get n).cfg.installed = true := h
        simp only [g, h']; rfl
      rw [e]; exact if_pos h
  have key : ∀ (ids : List PumpId) (u : State), eachOf ids (returnPump b) u
      = { u with pumps := ids.foldl (fun t n => t.put n (g n (t.get n))) u.pumps } := by
    intro ids
    induction ids with
    | nil => intro u; rfl
    | cons n rest ih => intro u; refine (ih _).trans ?_; beta_reduce; rw [one]; rfl
  intro v
  have hv : v = _ := key (List.finRange 4) s
  refine ⟨by rw [hv], fun n => ?_⟩
  have hn : v.pump n = g n (s.pump n) := by
    rw [hv]
    exact (foldl_put_get g _ (List.nodup_finRange 4) _ n).trans (if_pos (List.mem_finRange n))
  have hbn : b.pump n = s.pump n := congrArg (fun t => t.get n) hb
  refine ⟨fun h => ?_, fun h => ?_⟩
  · rw [hn]; exact if_neg (by rw [h]; simp)
  · rw [hn]
    refine (if_pos h).trans ?_
    rw [hbn]
    cases ho : (s.pump n).online <;> simp [Pump.settled, Pump.sameCounted, editionAfter, ho, Config.missLimit]

theorem returnSession_served (b : State) (k : SocketId) (s : State) : Served s (returnSession b k s) := by
  unfold returnSession
  split
  · exact .refl s
  · exact putPower_served _ _ _ (.refl s)

theorem returnFeeder_served (b : State) (f : FeederId) (s : State) : Served s (returnFeeder b f s) := by
  have h : Served s (modFeeder b f (fun x => { x with measured := 0, overload := 0, relief := none }) s) :=
    modFeeder_served b f _ (fun _ => rfl) (.refl s)
  unfold returnFeeder
  dsimp only
  split
  · exact h
  · exact serve_served b f h

theorem eachId_served {n : Nat} {f : Fin n → State → State} (hf : ∀ i s, Served s (f i s)) (s : State) :
    Served s (eachId n f s) :=
  eachId_keeps (P := Served s) (fun i {t} h => h.trans (hf i t)) (.refl s)

theorem Served.pumps {s t : State} (h : Served s t) : t.pumps = s.pumps := by rw [h.eq]
theorem Served.segments {s t : State} (h : Served s t) : t.segments = s.segments := by rw [h.eq]
theorem Served.pumpLine {s t : State} (h : Served s t) : t.pumpLine = s.pumpLine := by rw [h.eq]

theorem beginPolling_segment (s : State) (g : SegmentId) : (beginPolling s).segment g =
    { s.segment g with position := none, due := !(installedOn s g).isEmpty, outstanding := none } := Table.get_build ..

/-- The steps of the return, one after the other. -/
theorem mainsReturned_of {u v w x y : State}
    (h1 : v = { u with pedestals := v.pedestals }
      ∧ ∀ n, let p := u.pedestal n
        (p.cfg.installed = false → v.pedestal n = p)
        ∧ (p.cfg.installed = true → v.pedestal n =
            { p with
              link := .unknown, misses := 0, reported := p.reported.map fun r => { r with current := 0 }
              edition := if p.link = .unknown then p.edition else p.edition + 1 }))
    (h2 : InTurn 512 SessionReturned v w) (h3 : InTurn 16 FeederReturned w x) (hv : Served v w) (hw : Served w x)
    (h4 : y = { x with pumps := y.pumps }
      ∧ ∀ n, let p := x.pump n
        (p.cfg.installed = false → y.pump n = p)
        ∧ (p.cfg.installed = true → y.pump n =
            { p with online := false, misses := 3, edition := if p.online then p.edition + 1 else p.edition })) :
    MainsReturned u (beginPolling y) := by
  have ep : x.pumps = u.pumps := (hw.pumps.trans hv.pumps).trans (by rw [h1.1])
  have es : x.segments = u.segments := (hw.segments.trans hv.segments).trans (by rw [h1.1])
  have el : x.pumpLine = u.pumpLine := (hw.pumpLine.trans hv.pumpLine).trans (by rw [h1.1])
  have yl : y.pumpLine = u.pumpLine := by rw [h4.1]; exact el
  have ys : y.segments = u.segments := by rw [h4.1]; exact es
  refine ⟨v, w, x, h1.1, h1.2, h2, h3, ?_, fun n => ?_, fun g => ?_⟩
  · have e : beginPolling y = { y with
        segments := (beginPolling y).segments, pumpLine := { u.pumpLine with last := none, outstanding := none } } := by
      rw [← yl]; rfl
    have p : (beginPolling y).pumps = y.pumps := rfl
    rw [p]
    exact e.trans (by rw [h4.1])
  · have : x.pump n = u.pump n := congrArg (fun t => t.get n) ep
    rw [← this]; exact h4.2 n
  · rw [beginPolling_segment]
    have : y.segment g = u.segment g := congrArg (fun t => t.get g) ys
    rw [this]

/-- The return effects, from a base with the same pedestals and pumps. -/
theorem returned_all (b u : State) (hb : b.pedestals = u.pedestals) (hp : b.pumps = u.pumps) :
    MainsReturned u (u |> eachId 256 (returnPedestal b) |> eachId 512 (returnSession b) |> eachId 16 (returnFeeder b)
      |> eachId 4 (returnPump b) |> beginPolling) := by
  have h1 := returnPedestals_eq b u hb
  generalize eachId 256 (returnPedestal b) u = v at h1
  have h2 := eachId_inTurn _ (returnSession_returned b) v
  have s2 := eachId_served (returnSession_served b) v
  generalize eachId 512 (returnSession b) v = w at h2 s2
  have h3 := eachId_inTurn _ (returnFeeder_returned b) w
  have s3 := eachId_served (returnFeeder_served b) w
  generalize eachId 16 (returnFeeder b) w = x at h3 s3
  have hx : b.pumps = x.pumps := by rw [s3.pumps, s2.pumps, h1.1]; exact hp
  have h4 := returnPumps_eq b x hx
  generalize eachId 4 (returnPump b) x = y at h4
  exact mainsReturned_of h1 h2 h3 s2 s3 h4

theorem returned_gates (b u : State) (hb : b.pedestals = u.pedestals) (hp : b.pumps = u.pumps) :
    (u |> eachId 256 (returnPedestal b) |> eachId 512 (returnSession b) |> eachId 16 (returnFeeder b)
      |> eachId 4 (returnPump b) |> beginPolling).gates = u.gates := by
  have h1 := (returnPedestals_eq b u hb).1
  generalize eachId 256 (returnPedestal b) u = v at h1
  have s2 := eachId_served (returnSession_served b) v
  generalize eachId 512 (returnSession b) v = w at s2
  have s3 := eachId_served (returnFeeder_served b) w
  generalize eachId 16 (returnFeeder b) w = x at s3
  have hx : b.pumps = x.pumps := by rw [s3.pumps, s2.pumps, h1]; exact hp
  have h4 := (returnPumps_eq b x hx).1
  generalize eachId 4 (returnPump b) x = y at h4
  show y.gates = u.gates
  rw [h4, s3.eq, s2.eq, h1]

/-- The return to OPEN, all that it does. -/
theorem returnToOpen_returned (b s : State) (hb : b.pedestals = s.pedestals) (hp : b.pumps = s.pumps)
    (hg : b.gates = s.gates) :
    ∃ u, Relocked .opened s (returnToOpen b s).gates
      ∧ RolloverTested { raise .mainsBack {} s with device := .opened, gates := (returnToOpen b s).gates } u
      ∧ MainsReturned (raise .stateChanged { reason := some (.device .opened) } u) (returnToOpen b s) := by
  have er := (raise_noticed_self .mainsBack {} s).eq
  generalize hm : raise .mainsBack {} s = m at er
  have gm : m.gates = s.gates := by rw [er]
  have hgm : b.gates = m.gates := hg.trans gm.symm
  have ht := (enterState_tested b m .opened).1 (.inl rfl)
  have hr := enterState_relocked (s := m) .opened hgm
  have eu := enterState_eq b .opened m
  generalize hu : enterState b .opened m = u at ht hr eu
  have ec : stateChanged none u = raise .stateChanged { reason := some (.device .opened) } u := by
    unfold stateChanged; rw [show u.device = .opened by rw [eu]]
  have ew := (raise_noticed_self .stateChanged { reason := some (.device .opened) } u).eq
  generalize hw : raise .stateChanged { reason := some (.device .opened) } u = w at ec ew
  have pw : b.pedestals = w.pedestals := by rw [ew, eu, er]; exact hb
  have qw : b.pumps = w.pumps := by rw [ew, eu, er]; exact hp
  have gw : w.gates = u.gates := by rw [ew]
  have e : returnToOpen b s = (w |> eachId 256 (returnPedestal b) |> eachId 512 (returnSession b)
      |> eachId 16 (returnFeeder b) |> eachId 4 (returnPump b) |> beginPolling) := by
    unfold returnToOpen
    rw [hm, hu, ec]
  have gt : (returnToOpen b s).gates = u.gates := by
    rw [e]; exact (returned_gates b w pw qw).trans gw
  refine ⟨u, ?_, ?_, ?_⟩
  · rw [gt]
    intro g
    have := hr g
    have gg : m.gate g = s.gate g := congrArg (fun t => t.get g) gm
    rw [gg] at this; exact this
  · rw [gt]; exact ht
  · rw [hw, e]; exact returned_all b w pw qw

/-- With no open sale, nothing ends. -/
theorem endSaleAt_none (b : State) (why : SaleEnd) (s : State) (h : ∀ n, (s.pump n).sale = none) :
    eachId 4 (endSaleAt b why) s = s := by
  have one : ∀ n, endSaleAt b why n s = s := fun n => by simp only [endSaleAt, h n]
  have key : ∀ ids : List PumpId, eachOf ids (endSaleAt b why) s = s := by
    intro ids
    induction ids with
    | nil => rfl
    | cons n rest ih => exact (congrArg (fun u => eachOf rest (endSaleAt b why) u) (one n)).trans ih
  exact key _

/-- The entry to HOLDOVER from `u`, which has the segments, pumps and pump line of `s`. -/
theorem enterHoldover_entered (b s u : State) (hs : u.segments = s.segments) (hl : u.pumpLine = s.pumpLine)
    (hp : u.pumps = s.pumps) : HoldoverEntered s u (enterHoldover b u) := by
  have er := (raise_noticed_self .mainsLost {} u).eq
  generalize hm : raise .mainsLost {} u = m at er
  have ht := (enterState_tested b m .holdover).1 (.inr rfl)
  have eu := enterState_eq b .holdover m
  generalize hv : enterState b .holdover m = v at ht eu
  have ec : stateChanged none v = raise .stateChanged { reason := some (.device .holdover) } v := by
    unfold stateChanged; rw [show v.device = .holdover by rw [eu]]
  have ew := (raise_noticed_self .stateChanged { reason := some (.device .holdover) } v).eq
  generalize hw : raise .stateChanged { reason := some (.device .holdover) } v = w at ec ew
  have sw : w.segments = s.segments := by rw [ew, eu, er]; exact hs
  have lw : w.pumpLine = s.pumpLine := by rw [ew, eu, er]; exact hl
  have pw : w.pumps = s.pumps := by rw [ew, eu, er]; exact hp
  have ep : stopPolling w = { w with
      segments := s.segments.map fun x => { x with due := false, outstanding := none }
      pumpLine := { s.pumpLine with outstanding := none } } := by rw [← sw, ← lw]; rfl
  have e : enterHoldover b u = eachId 4 (endSaleAt b .mainsLost) (stopPolling w) := by
    unfold enterHoldover
    rw [hm, hv, ec]
  have q : FuelEq (stopPolling w) (enterHoldover b u) := by rw [e]; exact eachId_fuelEq (endSaleAt_fuelEq b .mainsLost) _
  have gt : (enterHoldover b u).gates = v.gates := by rw [q, ep]; show w.gates = _; rw [ew]
  refine ⟨v, ?_, ?_, ?_, ?_, ?_⟩
  · rw [gt, hm]; exact ht
  · rw [q, ep]; show w.rollover = _; rw [ew]
  · rw [q, ep]; show w.rolloverPending = _; rw [ew]
  · rw [hw, ← ep, e]; exact endSaleAt_ended b .mainsLost _
  · intro h
    rw [hw, ← ep, e]
    refine endSaleAt_none b .mainsLost _ fun n => ?_
    have : (stopPolling w).pump n = s.pump n := congrArg (fun t => t.get n) pw
    rw [this]; exact h n

/-! ### Sockets that the return does not serve -/

/-- `k` keeps its session `x`; on feeder `f`, and wherever a relief hold runs, `k` is on no list and each listed socket is the feeder's own. -/
def Apart (k : SocketId) (x : Option PowerSession) (f : FeederId) (s : State) : Prop :=
  s.power.get k = x ∧ ∀ g, (g = f ∨ (s.feeder g).relief ≠ none) →
    k ∉ (s.feeder g).waitList ∧ ∀ m ∈ (s.feeder g).waitList, feederOf s m = g

/-- A write of a session moves no socket to another feeder. -/
theorem PowerWritten.feederOf {m : SocketId} {y : Option PowerSession} {s t : State} (h : PowerWritten m y s t) (j : SocketId) :
    feederOf t j = feederOf s j := by
  obtain ⟨e, d, rfl⟩ := h
  simp only [Machine.feederOf, State.pedestal, Table.get_put]
  split
  · next h => rw [h]
  · rfl

/-- A write at the head of the list keeps what stands apart. -/
theorem PowerWritten.apart {k m : SocketId} {x y : Option PowerSession} {f : FeederId} {s t : State} (h : PowerWritten m y s t)
    (hs : Apart k x f s) (hm : (s.feeder f).waitList.head? = some m) : Apart k x f t := by
  have hmem : m ∈ (s.feeder f).waitList := List.mem_of_head? hm
  have hf : Machine.feederOf s m = f := (hs.2 f (.inl rfl)).2 m hmem
  have hk : k ≠ m := fun e => (hs.2 f (.inl rfl)).1 (e ▸ hmem)
  have hcfg := h.feederOf
  obtain ⟨e, d, rfl⟩ := h
  have hl : ∀ j ∈ (if isWaiting y = isWaiting (s.power.get m) then (s.feeder f).waitList
      else if isWaiting y = true then (s.feeder f).waitList ++ [m] else (s.feeder f).waitList.filter (· ≠ m)),
      j ∈ (s.feeder f).waitList := by
    intro j hj
    split at hj
    · exact hj
    · split at hj
      · rcases List.mem_append.1 hj with h | h
        · exact h
        · rw [List.mem_singleton.1 h]; exact hmem
      · exact (List.mem_filter.1 hj).1
  refine ⟨?_, fun g hg => ?_⟩
  · show (s.power.put m y).get k = x
    rw [Table.get_put_ne _ _ hk.symm]; exact hs.1
  · have hf' : (s.pedestal (pedestalOf m)).cfg.feeder = f := hf
    simp only [State.feeder, hf', Table.get_put] at hg ⊢
    by_cases hgf : f = g
    · subst hgf
      simp only [if_true]
      exact ⟨fun h => (hs.2 f (.inl rfl)).1 (hl k h), fun j hj => (hcfg j).trans ((hs.2 f (.inl rfl)).2 j (hl j hj))⟩
    · simp only [hgf, if_false] at hg ⊢
      have := hs.2 g (.inr (hg.resolve_left fun h => hgf h.symm))
      exact ⟨this.1, fun j hj => (hcfg j).trans (this.2 j hj)⟩

/-- Service of a list touches only the sockets it holds. -/
theorem ListServed.apart {k : SocketId} {x : Option PowerSession} {f : FeederId} {s t : State} (h : ListServed f s t)
    (hs : Apart k x f s) : Apart k x f t := by
  by_cases hd : s.device = .loading ∨ (s.feeder f).relief ≠ none
  · rw [h.1 hd]; exact hs
  · obtain ⟨n, v, -, h0, hv, he⟩ := h.2 (fun e => hd (.inl e)) (by by_contra e; exact hd (.inr e))
    have hn : ∀ i, i ≤ n → Apart k x f (v i) := by
      intro i
      induction i with
      | zero => intro _; rw [h0]; exact hs
      | succ i ih =>
        intro hi
        obtain ⟨m, y, amps, hm, -, -, -, hw⟩ := hv i hi
        have ha := ih (Nat.le_of_lt hi)
        exact PowerWritten.apart (s := { v i with grantCount := min ((v i).grantCount + 1) 4294967295 }) hw ha hm
    rcases he with he | ⟨-, e⟩
    · unfold HeadStays at he
      split at he
      · rw [he]; exact hn n le_rfl
      · next m hm =>
        split at he
        · rw [he]; exact hn n le_rfl
        · exact he.2.apart (hn n le_rfl) hm
    · rw [e]; exact hn n le_rfl

/-- The return of a feeder touches only the sockets of a list whose relief hold it removes. -/
theorem FeederReturned.apart {k : SocketId} {x : Option PowerSession} {f : FeederId} {s t : State} (h : FeederReturned f s t)
    (hx : s.power.get k = x)
    (hs : ∀ g, (s.feeder g).relief ≠ none → k ∉ (s.feeder g).waitList ∧ ∀ m ∈ (s.feeder g).waitList, feederOf s m = g) :
    t.power.get k = x ∧
      ∀ g, (t.feeder g).relief ≠ none → k ∉ (t.feeder g).waitList ∧ ∀ m ∈ (t.feeder g).waitList, feederOf t m = g := by
  obtain ⟨e, h1, h2⟩ := h
  by_cases hr : (s.feeder f).relief = none
  · rw [h1 hr]
    refine ⟨hx, fun g hg => ?_⟩
    simp only [State.feeder, Table.get_put] at hg ⊢
    by_cases hgf : f = g
    · subst hgf; simp at hg
    · simp only [hgf, if_false] at hg ⊢
      exact hs g hg
  · have := (h2 hr).apart (k := k) (x := x) ⟨hx, fun g hg => by
      simp only [State.feeder, Table.get_put] at hg ⊢
      by_cases hgf : f = g
      · subst hgf; simp only [if_true]; exact hs f hr
      · simp only [hgf, if_false] at hg ⊢
        exact hs g (hg.resolve_left fun h => hgf h.symm)⟩
    exact ⟨this.1, fun g hg => this.2 g (.inr hg)⟩

end Sys2Proof.Machine
end

