-- ==== Sys2Proof/Tests/Slice0.lean ====
section
/-! SUPPORT. The author's own tests: ill-formed terms that WellFormed refuses, and for each obligation with hypotheses a concrete state and operands that meet them, clause by clause, at boundary values. -/

namespace Sys2Proof.Tests

set_option Elab.async false

open Sys2Proof.Machine

/-! ### WellFormed: an ill-formed term for each check -/

theorem test_fields_without_text_or_with_a_space_are_refused :
    (Instr.put { port := .office, suffix := false } "" "1").wellFormed = false
    ∧ (Instr.put { port := .office, suffix := false } "rate" "1 2").wellFormed = false
    ∧ (Instr.put { port := .office, suffix := false } "rate" "1*").wellFormed = false
    ∧ (Instr.put { port := .office, suffix := false } "rate" "1").wellFormed = true := by decide +kernel

theorem test_dates_and_times_out_of_form_are_refused :
    (Instr.setClock { port := .office, suffix := false } { year := 10000, month := 1, day := 1 }
      { hour := 0, minute := 0, second := 0 }).wellFormed = false
    ∧ (Instr.setClock { port := .office, suffix := false } { year := 2024, month := 2, day := 29 }
      { hour := 0, minute := 0, second := 100 }).wellFormed = false
    ∧ (Instr.reserve { port := .office, suffix := false } 1 1 { year := 2024, month := 1, day := 1 }
      (some { year := 2024, month := 1, day := 100 }) false).wellFormed = false
    ∧ (Instr.arrive { port := .office, suffix := false } 1 none
      (some { year := 2024, month := 100, day := 1 }) false).wellFormed = false := by decide +kernel

theorem test_pontoon_lists_of_no_or_five_numbers_are_refused :
    (Instr.allocate { port := .office, suffix := false } 1 (.listed []) { year := 2024, month := 1, day := 1 } none).wellFormed
      = false
    ∧ (Instr.allocate { port := .office, suffix := false } 1 (.listed [0, 1, 2, 3, 4])
        { year := 2024, month := 1, day := 1 } none).wellFormed = false := by decide +kernel

theorem test_blank_lines_and_offsets_past_the_image_are_refused :
    (Instr.unknownCommandLine .office [32, 32]).wellFormed = false
    ∧ (Instr.unknownCommandLine .office [65, 13]).wellFormed = false
    ∧ (Instr.saveComplete (.differs 10047)).wellFormed = false
    ∧ (Instr.saveComplete (.differs 10046)).wellFormed = true := by decide +kernel

/-! ### Small facts from the spec's text -/

/-- R61: February of a year divisible by 4 has 29 days; the range ends at 2099-12-31. -/
theorem test_calendar_keeps_leap_years :
    dateOf { year := 2100, month := 1, day := 1 } = none
    ∧ dateOf { year := 2023, month := 2, day := 29 } = none
    ∧ dateOf { year := 2024, month := 2, day := 29 } = some 8825
    ∧ civil 8825 = { year := 2024, month := 2, day := 29 }
    ∧ civil 36524 = { year := 2099, month := 12, day := 31 } := by decide +kernel

/-- R21: the worked codes, and the largest. -/
theorem test_packed_quantities : unpack 0x0FFF = some 4095 ∧ unpack 0x1000 = some 4096 ∧ unpack 0x2001 = some 8194
    ∧ unpack 0xFFFE = some 134184960 ∧ unpack 0xFFFF = none := by decide +kernel

/-! ### States of the witnesses -/

def office : Origin := { port := .office, suffix := false }
def fuelDock : Origin := { port := .fuel, suffix := false }
def patrol : Origin := { port := .patrol, suffix := false }

/-- What a line that arrives at an idle port must meet to be Ready, as one test. -/
def readyNow (c : Instr) (o : Origin) (s : State) : Bool :=
  originOf c = some o && !s.stopped && (s.port o.port).state = .idle && c.wellFormed && permitted c o.port
    && admitted c s.device

theorem ready_of {c : Instr} {o : Origin} {s : State} (h : readyNow c o s = true) : Ready c o s := by
  simp only [readyNow, Bool.and_eq_true, decide_eq_true_eq, Bool.not_eq_true'] at h
  obtain ⟨⟨⟨⟨⟨h1, h2⟩, h3⟩, h4⟩, h5⟩, h6⟩ := h
  exact ⟨h1, ⟨h2, .inl h3⟩, h4, h5, h6⟩

/-- A part that is OPEN, on day 9000 at the rollover hour, with no account and nothing installed. -/
def trading : State :=
  { State.reset with
    device := .opened, clockSet := true, valid := true, heldNotices := []
    clock := { date := 9000, time := 43200 }, lastRollover := some 9000 }

def account (a : AccountId) (x : Account) (s : State) : State := { s with accounts := s.accounts.put a x }
def berth (n : BerthId) (x : Berth) (s : State) : State := { s with berths := s.berths.put n x }
def pedestal (n : PedestalId) (x : Pedestal) (s : State) : State := { s with pedestals := s.pedestals.put n x }
def feeder (f : FeederId) (x : Feeder) (s : State) : State := { s with feeders := s.feeders.put f x }
def pump (n : PumpId) (x : Pump) (s : State) : State := { s with pumps := s.pumps.put n x }
def tank (t : ProductId) (x : Tank) (s : State) : State := { s with tanks := s.tanks.put t x }
def gate (g : GateId) (x : Gate) (s : State) : State := { s with gates := s.gates.put g x }
def cred (c : CredId) (x : Credential) (s : State) : State := { s with creds := s.creds.put c x }
def power (k : SocketId) (x : PowerSession) (s : State) : State := { s with power := s.power.put k (some x) }
def water (k : TapId) (x : WaterSession) (s : State) : State := { s with water := s.water.put k (some x) }
def segment (g : SegmentId) (x : Segment) (s : State) : State := { s with segments := s.segments.put g x }
def reader (r : ReaderId) (x : ReaderInput) (s : State) : State := { s with readers := s.readers.put r x }

/-- Account 17, OPEN with nothing owed. -/
def vessel : Account := { coldAccount 17 with state := .opened }

/-- Berth 3, in service, with socket 6 and tap 3. -/
def quay : Berth :=
  { state := .free, holder := none, edition := 0
    cfg := { (defaultBerth 3).cfg with socket := some 6, tap := some 3 } }

/-- Account 17 on berth 3. -/
def guest : Account :=
  { vessel with state := .berthed, berth := some 3, arrival := some 9000, lastCharged := some 9000 }

/-- Pedestal 3, a TWIN on segment 0 with sockets of 63 A. -/
def column (kind : PedestalKind) : Pedestal :=
  { coldPedestal { defaultPedestal 3 with installed := true, kind := kind, ratings := Table.build fun _ => .a63 } with
    link := .online }

/-- Feeder 0 with a cap of `rating` amps. -/
def supply (rating : Nat) : Feeder := coldFeeder { rating := rating, diversity := 100 }

/-- Account 17 on berth 3 beside its pedestal. -/
def moored (rating : Nat) : State :=
  trading |> account 17 guest |> berth 3 { quay with state := .occupied, holder := some 17 }
    |> pedestal 3 (column .twin) |> feeder 0 (supply rating)

/-- A session of account 17 on socket 6. -/
def session (st : PowerState) (held : Nat) : PowerSession :=
  { state := st, account := 17, wish := .a32, fallback32 := false, granted := held, held := held, grantStamp := 1
    lastCurrent := 0, energy := 100, start := { date := 9000, time := 0 }, cause := none, shed := false
    stepped := false, confirmMisses := 0, fault := false, closeReason := none }

/-- Account 17 with a power session. -/
def powered (x : PowerSession) : State :=
  moored 100 |> account 17 { guest with power := some 6 } |> power 6 x

/-- A water session of account 17 on tap 3. -/
def flow (st : WaterState) : WaterSession :=
  { state := st, account := 17, berth := 3, volume := 40, confirmMisses := 0, fault := false, closeReason := none }

def watered (x : WaterSession) : State :=
  moored 100 |> account 17 { guest with water := some 3 } |> water 3 x

/-- Pump 1 with petrol in tank 1. -/
def station : Pump := { coldPump { defaultPump 1 with installed := true } with online := true, misses := 0 }

def cistern : Tank := { coldTank { capacity := 1000000, reserve := 1000, low := 2000 } with book := 500000 }

def forecourt : State := trading |> pump 1 station |> tank 1 cistern

/-- A sale of pump 1 to account 17. -/
def sale (st : SaleState) : Sale :=
  { number := 7, pump := 1, product := 1, buyer := .account 17, preset := none, limit := 500, volumeHold := 500
    moneyHold := 0, rate := 0, delivered := 0, charge := 0, refund := 0, start := { date := 9000, time := 0 }
    lift := none, finish := none, state := st, stop := none, stopMisses := 0, endReason := none, overRun := false }

/-- Pump 1 with that sale open. -/
def selling (x : Sale) (order : Order) : State :=
  trading |> pump 1 { station with sale := some x, order := order } |> tank 1 { cistern with holds := 500 }
    |> account 17 { vessel with sale := some 1 }

/-- Credential 5: the vessel card of account 17. -/
def card : Credential :=
  { coldCredential with state := .active, key := { site := 1, id := 2 }, kind := .vessel, account := some 17 }

/-- 26 bits that spell site 1 and number 2 under `wiegand`. -/
def bits : List Bool := List.replicate 7 false ++ [true] ++ List.replicate 16 false ++ [true, false]

def wiegand : FormatCfg := { defaultFormat with enabled := true, sitePos := 0, siteLen := 8, idPos := 8, idLen := 18 }

/-- Reader 2 has read `b`, and format 0 is enabled. -/
def swiped (r : ReaderId) (b : List Bool) : State :=
  { trading with formats := trading.formats.put 0 { val := wiegand, edition := 0 } }
    |> reader r { bits := b, overflow := false, timer := true } |> cred 5 card |> account 17 vessel

/-- The access entry that the default card meets at every gate. -/
def allowing (x : AccessCfg) (s : State) : State := { s with access := s.access.put 0 { val := x, edition := 0 } }

def welcome : AccessCfg := { defaultAccess with allowed := true }

/-! ### Witnesses: command ports -/

/-- Obligations.CommandOffItsPortsIsRefusedNotHere, both clauses. -/
theorem witness_off_its_ports :
    (originOf (.bar patrol 17) = some patrol ∧ Takes (.bar patrol 17) patrol trading
      ∧ (Instr.bar patrol 17).wellFormed = true ∧ permitted (.bar patrol 17) .patrol = false)
    ∧ (originOf (.status patrol) = some patrol ∧ Takes (.status patrol) patrol trading
      ∧ (Instr.status patrol).wellFormed = true ∧ permitted (.status patrol) .patrol = true) := by
  simp only [Takes]; decide +kernel

/-- Obligations.CommandTheStateDoesNotAdmitIsTurnedAway, the three clauses. -/
theorem witness_not_admitted :
    (originOf (.status office) = some office ∧ Takes (.status office) office State.reset
      ∧ (Instr.status office).wellFormed = true ∧ permitted (.status office) .office = true
      ∧ admitted (.status office) State.reset.device = false)
    ∧ (Takes (.setup office) office trading ∧ admitted (.setup office) trading.device = true)
    ∧ (Takes (.requestWater office 17) office { trading with device := .holdover }
      ∧ startsService (.requestWater office 17) = true ∧ permitted (.requestWater office 17) .office = true) := by
  simp only [Takes]; decide +kernel

/-- Obligations.RefusedCommandChangesNothing. -/
theorem witness_refused :
    ∃ t, originOf (.bar office 512) = some office ∧ exec (.bar office 512) trading = .next t
      ∧ (t.port office.port).reply = [.refused .range] := ⟨_, rfl, rfl, by decide +kernel⟩

/-- Day 9000. -/
def today : DateField := { year := 2024, month := 8, day := 22 }

/-- The syntax tables (R166 check 3): fields that fit and fields that do not, by number, form, word and place. -/
theorem test_fields_fit_their_syntax_table :
    fieldsFit "ALLOCATE" ["7", "1", "2", "3", "4", "2025-02-30"] = true
    ∧ fieldsFit "ALLOCATE" ["7", "1", "2", "3", "4", "5", "2025-02-30"] = false
    ∧ fieldsFit "ARRIVE" ["7", "FORCE"] = true ∧ fieldsFit "ARRIVE" ["7", "FORCE", "9"] = false
    ∧ fieldsFit "SELL" ["0", "PREPAY", "500", "AMOUNT", "9"] = true ∧ fieldsFit "SELL" ["0", "CARD", "500"] = false
    ∧ fieldsFit "LIST" ["WAIT"] = false ∧ fieldsFit "CREDIT" ["7", "-5"] = false ∧ fieldsFit "STATUS" [] = true := by
  decide +kernel

/-- Obligations.LineThatFailsItsChecksIsAnsweredBad: 201 characters, a control character, no command word, a wrong sum, an asterisk at the end, a digit that is not hexadecimal, a right sum after no command word; BAR with two numbers, BAR with none and a right sum, and a row with five pontoons. -/
theorem witness_bad_lines :
    (trading.stopped = false ∧ (trading.port .fuel).state = .idle)
    ∧ (lineForm (List.replicate 201 65) = true ∧ 200 < (List.replicate 201 (65 : Byte)).length)
    ∧ (lineForm [65, 31] = true ∧ [65, 31].contains (42 : Byte) = false
      ∧ ([65, 31] : List Byte).any (fun c => c.toNat < 32 || 126 < c.toNat) = true)
    ∧ (lineForm [90, 126] = true ∧ ([90, 126] : List Byte).all (fun c => 32 ≤ c.toNat && c.toNat ≤ 126) = true
      ∧ (∀ word args, fieldsOfLine [90, 126] = word :: args → word ∉ commandWords))
    ∧ (lineForm [90, 42, 48, 48] = true ∧ hexValue 48 = some 0 ∧ (byteSum [90]).toNat + 16 * 0 + 0 ≠ 0
      ∧ (byteSum [90]).toNat + 16 * 0 + 0 ≠ 256)
    ∧ (lineForm [90, 42] = true ∧ ([] : List Byte).length ≠ 2)
    ∧ (lineForm [90, 42, 71, 48] = true ∧ hexValue 71 = none ∧ hexValue 47 = none)
    ∧ (lineForm [90, 42, 65, 54] = true ∧ hexValue 65 = some 10 ∧ hexValue 54 = some 6
      ∧ (byteSum [90]).toNat + 16 * 10 + 6 = 256 ∧ (∀ word args, fieldsOfLine [90] = word :: args → word ∉ commandWords))
    ∧ ((lineForm [66, 65, 82, 32, 49, 32, 50] = true ∧ fieldsOfLine [66, 65, 82, 32, 49, 32, 50] = ["BAR", "1", "2"]
        ∧ "BAR" ∈ commandWords ∧ fieldsFit "BAR" ["1", "2"] = false ∧ fieldsFit "BAR" ["1"] = true)
      ∧ (lineForm [66, 65, 82, 42, 50, 66] = true ∧ hexValue 50 = some 2 ∧ hexValue 66 = some 11
        ∧ (byteSum [66, 65, 82]).toNat + 16 * 2 + 11 = 256 ∧ fieldsOfLine [66, 65, 82] = ["BAR"]
        ∧ fieldsFit "BAR" [] = false)
      ∧ (originOf (.allocate office 17 (.listed [0, 1, 2, 3, 4]) today none) = some office
        ∧ Takes (.allocate office 17 (.listed [0, 1, 2, 3, 4]) today none) office trading
        ∧ (Instr.allocate office 17 (.listed [0, 1, 2, 3, 4]) today none).wellFormed = false)) := by
  have h : fieldsOfLine [90, 126] = ["Z~"] := by decide +kernel
  have g : fieldsOfLine [90] = ["Z"] := by decide +kernel
  refine ⟨by decide +kernel, by decide +kernel, by decide +kernel, ⟨by decide +kernel, by decide +kernel, ?_⟩,
    by decide +kernel, by decide +kernel, by decide +kernel, ⟨by decide +kernel, by decide +kernel, by decide +kernel,
      by decide +kernel, ?_⟩, by decide +kernel, by decide +kernel, rfl, ⟨rfl, .inl (by decide +kernel)⟩, rfl⟩
  · intro word args e
    rw [h] at e
    cases e
    decide +kernel
  · intro word args e
    rw [g] at e
    cases e
    decide +kernel

/-- A port with a partial line. -/
def typing (x : Port) : State := { trading with ports := trading.ports.put 0 x }

def line (n : Nat) : Port := { loadingPort with line := List.replicate n 65 }

/-- Obligations.CharactersAssembleALine: each state of the port, lines of 0, 199 and 200 characters. -/
theorem witness_characters :
    (typing (line 200)).stopped = false ∧ ((typing (line 0)).port .office).line.all (· = 32) = true
    ∧ ((typing (line 199)).port .office).line.length < 200
    ∧ 200 ≤ ((typing (line 200)).port .office).line.length
    ∧ ((typing (line 200)).port .office).line.all (· = 32) = false
    ∧ ((typing { line 0 with state := .lineEnded }).port .office).state ≠ .idle
    ∧ ((typing { line 0 with state := .replying }).port .office).state = .replying := by decide +kernel

/-- Obligations.SelectCopiesTheEntry: the last entry of a table, and the index past it. -/
theorem witness_select :
    Ready (.select office .gate 19) office trading ∧ (entryAt trading .gate 19).isSome = true
    ∧ Ready (.select office .gate 20) office trading ∧ entryAt trading .gate 20 = none
    ∧ entryAt trading .sale 0 = none := by
  and_intros <;> first | exact ready_of (by decide +kernel) | decide +kernel

def holdingPort (e : Option Entry) (c : Cursor) : Port := { loadingPort with holding := e, cursor := c }

def putting (e : Option Entry) : State := typing (holdingPort e { table := .site, index := 0 })

/-- Obligations.PutChangesTheHoldingRecordAlone: an empty and a read-only record, and the bounds of the clamped and ranged fields. -/
theorem witness_put :
    (Ready (.put office "rate" "1000000") office (putting none) ∧ ((putting none).port .office).holding = none)
    ∧ (Entry.power none).readOnly = true
    ∧ (Ready (.put office "poll_interval" "29") office (putting (some (.site (loadedRow defaultSite))))
      ∧ natField "29" = some 29 ∧ natField "501" = some 501 ∧ natField "30" = some 30)
    ∧ (Ready (.put office "release_time" "31") office (putting (some (.gate (loadingGate 1 (defaultGate 1)))))
      ∧ natField "31" = some 31 ∧ natField "0" = some 0)
    ∧ (Ready (.put office "level" "16") office (putting (some (.level (loadedRow 7)))) ∧ natField "16" = some 16
      ∧ natField "15" = some 15 ∧ (15 : Fin 16).val = min 16 15)
    ∧ (Ready (.put office "threshold" "16") office (putting (some (.port (loadedRow 7)))) ∧ natField "16" = some 16
      ∧ natField "1" = some 1 ∧ natField "0" = some 0)
    ∧ (Ready (.put office "rate" "1000001") office (putting (some (.rate (loadedRow 0))))
      ∧ natField "1000001" = some 1000001 ∧ natField "1000000" = some 1000000) := by
  and_intros <;> first | exact ready_of (by decide +kernel) | decide +kernel

def storing (e : Option Entry) (c : Cursor) (save : Option SiteTables) : State :=
  { typing (holdingPort e c) with save := save }

/-- Obligations.StoreChecksTheEditionThenWrites: nothing held, a read-only record, a SAVE in flight, a stale edition, and the last rate. -/
theorem witness_store :
    (Ready (.store office) office (storing none { table := .site, index := 0 } none))
    ∧ (Ready (.store office) office (storing (some (.power none)) { table := .power, index := 511 } none)
      ∧ (Entry.power none).readOnly = true)
    ∧ ((Entry.rate (loadedRow 5)).readOnly = false ∧ isConfigurationTable .rate = true
      ∧ (storing (some (.rate (loadedRow 5))) { table := .rate, index := 95 } (some defaultTables)).save.isSome = true)
    ∧ ((Entry.rate { val := 5, edition := 1 }).edition? ≠ (Entry.rate (trading.rates.get 95)).edition?)
    ∧ (Ready (.store office) office (storing (some (.rate (loadedRow 1000000))) { table := .rate, index := 95 } none)
      ∧ (trading.rates.get 95).edition = 0) := by
  and_intros <;> first | exact ready_of (by decide +kernel) | decide +kernel

/-- Obligations.ReadAnswersTheCopyAndMovesOn and ListAnswersEveryItem: an empty record, the last entry of a table, the five lists. -/
theorem witness_read_and_list :
    Ready (.read office) office (putting none)
    ∧ (Ready (.read office) office (putting (some (.site (loadedRow defaultSite)))) ∧ entriesOf trading .site = 1)
    ∧ Ready (.list office .sale) office trading ∧ Ready (.list fuelDock .passage) fuelDock trading
    ∧ Ready (.list patrol .power) patrol trading ∧ Ready (.list patrol .water) patrol trading
    ∧ Ready (.list office (.wait 15)) office trading ∧ Ready (.list office (.wait 16)) office trading := by
  and_intros <;> first | exact ready_of (by decide +kernel) | decide +kernel

def news : Notice := { cls := .arrived, raised := { date := 9000, time := 0 }, info := {}, gap := false }

/-- Obligations.NextTakesTheOldestNotice and StatusReportsAndChangesNothing. -/
theorem witness_next_and_status :
    (Ready (.next office) office trading ∧ (trading.port .office).queue = [])
    ∧ (Ready (.next office) office (typing { loadingPort with queue := [news], attn := true }))
    ∧ Ready (.status office) office trading := by
  and_intros <;> first | exact ready_of (by decide +kernel) | decide +kernel

/-- Obligations.NoticeReachesEachPortAtItsLevel: LOADING; a level below, at and above a threshold; room for one notice and none. -/
theorem witness_notices :
    State.reset.device = .loading ∧ trading.device ≠ .loading
    ∧ (trading.levels.get NoticeClass.arrived.ix).val.val < (trading.thresholds.get 1).val
    ∧ (trading.thresholds.get 0).val ≤ (trading.levels.get NoticeClass.arrived.ix).val.val
    ∧ ((typing { loadingPort with queue := List.replicate 31 news }).ports.get 0).queue.length < 32
    ∧ 32 ≤ ((typing { loadingPort with queue := List.replicate 32 news }).ports.get 0).queue.length := by decide +kernel

/-- Obligations.EveryStepKeepsTheQueueLaw: a step that raises a notice. -/
theorem witness_queue_law :
    ∃ t, QueuesOk (trading.withPending [.clockAdvance]) ∧ LoadingQuiet (trading.withPending [.clockAdvance])
      ∧ LinesOk (trading.withPending [.clockAdvance]) ∧ ReadersOk (trading.withPending [.clockAdvance])
      ∧ LogsOk (trading.withPending [.clockAdvance]) ∧ step (trading.withPending [.clockAdvance]) = .next t := by
  refine ⟨_, fun i => ?_, fun h => ?_, fun i => ?_, fun r => ?_, ?_, rfl⟩
  · simp [Port.queueOk, State.withPending, trading, State.reset, loadingPort]
  · simp [State.withPending, trading] at h
  · simp [Port.lineOk, State.withPending, trading, State.reset, loadingPort]
  · simp [State.withPending, trading, State.reset, emptyReader]
  · simp [LogsOk, State.withPending, trading, State.reset]

/-! ### Witnesses: accounts and charges -/

/-- Every account OPEN. -/
def crowded : State := { trading with accounts := Table.build fun _ => vessel }

/-- Obligations.OpenAccountClearsTheAccount: the last and the first account, an account in use, a number too high, no FREE account. -/
theorem witness_open_account :
    Ready (.openAccount office (some 511)) office trading ∧ (trading.account 511).state = .free
    ∧ Ready (.openAccount office none) office trading ∧ (trading.account 0).state = .free
    ∧ (∀ i : AccountId, i < 0 → (trading.account i).state ≠ .free)
    ∧ Ready (.openAccount office (some 17)) office crowded ∧ (crowded.account 17).state ≠ .free
    ∧ Ready (.openAccount office (some 512)) office trading
    ∧ Ready (.openAccount office none) office crowded ∧ (∀ a : AccountId, (crowded.account a).state ≠ .free) := by
  refine ⟨ready_of ?_, ?_, ready_of ?_, ?_, ?_, ready_of ?_, ?_, ready_of ?_, ready_of ?_, ?_⟩
  case refine_5 => intro i h; exact absurd h (Fin.not_lt_zero i)
  case refine_10 => intro a; simp [crowded, State.account, vessel]
  all_goals decide +kernel

/-- Account 17 alone, as given. -/
def only (x : Account) : State := trading |> account 17 x

/-- Obligations.CloseAccountFreesTheAccount, in the order of its checks. -/
theorem witness_close_account :
    Ready (.closeAccount office 17) office (only guest) ∧ ((only guest).account 17).state ≠ .opened
    ∧ Ready (.closeAccount office 17) office (only { vessel with balance := 1 })
    ∧ ((only { vessel with balance := 1 }).account 17).balance ≠ 0
    ∧ ((only { vessel with holds := 1 }).account 17).holds ≠ 0
    ∧ Ready (.closeAccount office 17) office (only { vessel with water := some 3 })
    ∧ ((only { vessel with water := some 3 }).account 17).water ≠ none
    ∧ Ready (.closeAccount office 17) office (only { vessel with sale := some 1 })
    ∧ ((only { vessel with sale := some 1 }).account 17).sale ≠ none
    ∧ Ready (.closeAccount office 17) office (only { vessel with credentials := [5] } |> cred 5 card)
    ∧ ((only { vessel with credentials := [5] } |> cred 5 card).account 17).state = .opened := by
  and_intros <;> first | exact ready_of (by decide +kernel) | decide +kernel

/-- Account 17 with both sessions. -/
def served (p : PowerSession) (w : WaterSession) (x : Account) : State :=
  watered w |> power 6 p |> account 17 { x with power := some 6, water := some 3 }

def suspendedFor (c : Cause) (held : Nat) : PowerSession := { session .suspended held with cause := some c }

/-- Class 0 with a maximum rating of 63 and a water cap. -/
def upTo63 (waterCap : Nat) (s : State) : State :=
  { s with classes := s.classes.put 0 (loadedRow { defaultClass with maxRating := .a63, waterCap := waterCap }) }

/-- An account of class 0 one cent below its floor of 0. -/
def owing : Account := { guest with balance := -1, standing := .arrears }

/-- Obligations.CreditRaisesTheBalance: amounts 0, 1, 99,999,999 and 100,000,000, a balance at its limit, a standing that stays, and one cent that brings an account whose session is SUSPENDED for ARREARS back to GOOD. -/
theorem witness_credit :
    Ready (.credit office 17 0) office (only vessel) ∧ Ready (.credit office 17 100000000) office (only vessel)
    ∧ ((only vessel).account 17).state ≠ .free
    ∧ Ready (.credit office 17 1) office (only { vessel with balance := 99999999 })
    ∧ 99999999 < ((only { vessel with balance := 99999999 }).account 17).balance + 1
    ∧ Ready (.credit office 17 99999999) office (only vessel)
    ∧ ((only vessel).account 17).balance + (99999999 : Nat) ≤ 99999999
    ∧ standingOf false (0 + (99999999 : Nat)) 0 = vessel.standing
    ∧ Ready (.credit office 17 1) office (served (suspendedFor .arrears 32) (flow .flowing) owing)
    ∧ (served (suspendedFor .arrears 32) (flow .flowing) owing).power.get 6 = some (suspendedFor .arrears 32)
    ∧ owing.standing = .arrears ∧ standingOf false (owing.balance + (1 : Nat)) 0 = .good := by
  and_intros <;> first | exact ready_of (by decide +kernel) | decide +kernel

/-- Obligations.DebitLowersOrClampsTheBalance: amounts 0, 1, 9,999,999 and 10,000,000; a balance at its limit, in ARREARS as before. -/
theorem witness_debit :
    Ready (.debit office 17 0) office (only vessel) ∧ Ready (.debit office 17 10000000) office (only vessel)
    ∧ Ready (.debit office 17 9999999) office (only { vessel with balance := 9999999 })
    ∧ standingOf false (9999999 - (9999999 : Nat)) 0 = vessel.standing
    ∧ Ready (.debit office 17 1) office (only { vessel with balance := -99999999, standing := .arrears })
    ∧ (-99999999 - (1 : Nat) : Int) < -99999999
    ∧ standingOf false (-99999999) 0 = .arrears
    ∧ ((only { vessel with balance := -99999999 }).account 17).clamped = false := by
  and_intros <;> first | exact ready_of (by decide +kernel) | decide +kernel

/-- Obligations.BarSuspendsTheSessions: a flag that is set, sessions that are suspended and sessions that are not, and none. -/
theorem witness_bar :
    (Ready (.bar office 17) office (only { vessel with barredFlag := true })
      ∧ ((only { vessel with barredFlag := true }).account 17).state ≠ .free)
    ∧ (Ready (.bar office 17) office (served (session .live 32) (flow .flowing) guest)
      ∧ ((served (session .live 32) (flow .flowing) guest).account 17).standing ≠ .barred
      ∧ (served (session .live 32) (flow .flowing) guest).power.get 6 = some (session .live 32)
      ∧ (served (session .live 32) (flow .flowing) guest).water.get 3 = some (flow .flowing))
    ∧ (Ready (.bar office 17) office (served (session .tripped 0) (flow .suspended) guest)
      ∧ (served (session .tripped 0) (flow .suspended) guest).power.get 6 = some (session .tripped 0)
      ∧ (served (session .tripped 0) (flow .suspended) guest).water.get 3 = some (flow .suspended))
    ∧ (Ready (.bar office 17) office (only vessel) ∧ vessel.power = none ∧ vessel.water = none) := by
  and_intros <;> first | exact ready_of (by decide +kernel) | decide +kernel

/-- A barred account of class 0. -/
def barred (balance : Int) (nights : Nat) : Account :=
  { guest with barredFlag := true, standing := .barred, balance := balance, arrearsNights := nights }

/-- Account `x` with a SUSPENDED session of each kind, the power one with no amps held, on a feeder of `rating` amps. -/
def resuming (wish : Rating) (waterCap rating : Nat) (waiting : List SocketId) (x : Account) : State :=
  served { suspendedFor .barred 0 with wish := wish } (flow .suspended) x
    |> feeder 0 { supply rating with waitList := waiting } |> upTo63 waterCap

/-- Obligations.UnbarEvaluatesTheStanding: a clear flag; back to GOOD with amps held; into ARREARS at the class grace of 3 nights, balance −1 below the floor of 0, and one night below it; a water session at its cap; admission at 32 A exactly, at 32 of 63 exactly, with no room, behind a list of 63, and at a full list. -/
theorem witness_unbar :
    (Ready (.unbar office 17) office (only vessel) ∧ vessel.barredFlag = false)
    ∧ (Ready (.unbar office 17) office (served (suspendedFor .barred 32) (flow .suspended) (barred 0 3))
      ∧ ((served (suspendedFor .barred 32) (flow .suspended) (barred 0 3)).account 17).standing = .barred
      ∧ (served (suspendedFor .barred 32) (flow .suspended) (barred 0 3)).power.get 6 = some (suspendedFor .barred 32)
      ∧ (suspendedFor .barred 32).held ≠ 0
      ∧ (served (suspendedFor .barred 32) (flow .suspended) (barred 0 3)).water.get 3 = some (flow .suspended)
      ∧ ((trading.classes.get 0).val).waterCap = 0)
    ∧ (Ready (.unbar office 17) office (served (suspendedFor .barred 0) (flow .suspended) (barred (-1) 3))
      ∧ (-1 : Int) < (trading.classes.get 0).val.floor ∧ (trading.classes.get 0).val.grace ≤ (barred (-1) 3).arrearsNights)
    ∧ (Ready (.unbar office 17) office (resuming .a32 40 32 [] (barred (-1) 2))
      ∧ (-1 : Int) < (trading.classes.get 0).val.floor ∧ (barred (-1) 2).arrearsNights < (trading.classes.get 0).val.grace
      ∧ (resuming .a32 40 32 [] (barred (-1) 2)).power.get 6 = some { suspendedFor .barred 0 with wish := .a32 }
      ∧ (resuming .a32 40 32 [] (barred (-1) 2)).water.get 3 = some (flow .suspended)
      ∧ (suspendedFor .barred 0).account = 17 ∧ (flow .suspended).account = 17 ∧ 40 ≤ (flow .suspended).volume
      ∧ ((resuming .a32 40 32 [] (barred (-1) 2)).feeder 0).waitList = []
      ∧ ((resuming .a32 40 32 [] (barred (-1) 2)).feeder 0).relief = none
      ∧ min Rating.a32.amps (min Rating.a63.amps Rating.a63.amps) = 32 ∧ 0 + 32 ≤ 32 * 100 / 100)
    ∧ (Ready (.unbar office 17) office (resuming .a63 0 62 [] (barred 0 0))
      ∧ 62 * 100 / 100 < 0 + 63 ∧ 0 + 32 ≤ 62 * 100 / 100
      ∧ min Rating.a63.amps (min Rating.a63.amps
          ((resuming .a63 0 62 [] (barred 0 0)).classOf (barred 0 0)).maxRating.amps) = 63)
    ∧ (Ready (.unbar office 17) office (resuming .a63 0 31 [] (barred 0 0)) ∧ 31 * 100 / 100 < 0 + 32)
    ∧ (Ready (.unbar office 17) office (resuming .a63 0 62 (List.replicate 63 9) (barred 0 0))
      ∧ ((resuming .a63 0 62 (List.replicate 63 9) (barred 0 0)).feeder 0).waitList.length < 64)
    ∧ (Ready (.unbar office 17) office (resuming .a63 0 62 (List.replicate 64 9) (barred 0 0))
      ∧ 64 ≤ ((resuming .a63 0 62 (List.replicate 64 9) (barred 0 0)).feeder 0).waitList.length) := by
  and_intros <;> first | exact ready_of (by decide +kernel) | decide +kernel

/-- Obligations.EveryStepKeepsMoneyWithinLimits and EveryStepKeepsStandingsEvaluated. -/
theorem witness_money_laws :
    ∃ t, MoneyOk (trading.withPending [.clockAdvance]) ∧ StandingsOk (trading.withPending [.clockAdvance])
      ∧ FloorsOk (trading.withPending [.clockAdvance]) ∧ step (trading.withPending [.clockAdvance]) = .next t := by
  refine ⟨_, fun a => ?_, fun a h => ?_, fun c => ?_, rfl⟩
  · simp [Account.moneyOk, State.withPending, trading, State.reset, coldAccount, Config.balanceLimit, Config.residueUnit,
      Config.nightsLimit, Config.arrearsLimit]
  · simp [State.withPending, trading, State.reset, coldAccount] at h
  · simp [State.withPending, trading, State.reset, loadedRow, defaultClass]

/-- Obligations.ChargeAppliesWholeCentsAndKeepsTheRest and ChargesOfOneServiceCommute: the last rate of class 0, energy at band 3; charges that leave the balance at its limit. -/
theorem witness_charge :
    ((only vessel).account 17).state ≠ .free
    ∧ ((3 : Fin 96)).val = ((only vessel).account 17).cls.val * 24 + (serviceIx .energy).val * 4 + ((3 : Band)).val
    ∧ (let s := only { vessel with balance := -99999999 }
       let x := s.account 17
       let total := x.residues.get (serviceIx .energy) + 5 * rateOf s x.cls .energy 0 + 6 * rateOf s x.cls .energy 3
       x.balance - (total / 10000 : Nat) ≥ -99999999) := by decide +kernel

/-- Obligations.PackedQuantityIsUnpackedByItsExponent, NightPartsCostOneComputation and FuelMoneyCoversTheLimit: each exponent's edge, one night, and a price that does not divide. -/
theorem witness_tariff :
    (65535 / 4096 = 15 ∧ 4095 / 4096 = 0 ∧ 4096 / 4096 = 1 ∧ 2 ≤ 8192 / 4096 ∧ unpack 4095 = some 4095)
    ∧ (1 : Nat) ≤ 1 ∧ (3 : Nat) ≠ 0 ∧ volumeFor 100 3 = some 333333 ∧ (333333 : Nat) ≤ 333333 ∧ 5 * 30000 / 10000 ≤ 15 := by
  decide +kernel

/-! ### Witnesses: berths -/

def yesterday : DateField := { year := 2024, month := 8, day := 21 }

/-- Berth 3 alone in service, account 17 as given. -/
def oneBerth (x : Account) : State := trading |> berth 3 quay |> account 17 x

/-- Obligations.AllocateReservesTheTightestFit: a date that has passed and today, an account that is not OPEN, no berth, and the one berth of pontoon 0. -/
theorem witness_allocate :
    (Ready (.allocate office 17 (.listed [15]) yesterday none) office (oneBerth vessel) ∧ dateOf yesterday = some 8999
      ∧ (8999 : Int) < trading.clock.date ∧ [(15 : PontoonId)].Nodup)
    ∧ (Ready (.allocate office 17 .any today (some today)) office (oneBerth guest) ∧ dateOf today = some 9000
      ∧ optDate (some today) = some (some 9000) ∧ ((oneBerth guest).account 17).state ≠ .opened)
    ∧ (Ready (.allocate office 17 (.listed [0]) today none) office (only vessel) ∧ optDate none = some none
      ∧ ∀ n, ¬ (((only vessel).berth n).cfg.pontoon = 0 ∧ ((only vessel).berth n).state = .free
          ∧ Fits (only vessel) ((only vessel).account 17) ((only vessel).berth n).cfg))
    ∧ (Ready (.allocate office 17 (.listed [0]) today none) office (oneBerth vessel)
      ∧ ((oneBerth vessel).berth 3).cfg.pontoon = 0 ∧ ((oneBerth vessel).berth 3).state = .free
      ∧ Fits (oneBerth vessel) ((oneBerth vessel).account 17) ((oneBerth vessel).berth 3).cfg
      ∧ ∀ m, ((oneBerth vessel).berth m).state = .free → (3 : BerthId) ≤ m) := by
  refine ⟨⟨ready_of ?_, ?_⟩, ⟨ready_of ?_, ?_⟩, ⟨ready_of ?_, ?_, ?_⟩, ready_of ?_, ?_, ?_, ?_, ?_⟩
  case refine_7 =>
    intro n h
    simp [only, account, State.berth, trading, State.reset, coldBerth, defaultBerth] at h
  case refine_11 => simp only [Fits]; decide +kernel
  case refine_12 =>
    intro m h
    by_cases e : (3 : BerthId) = m
    · exact Fin.le_of_eq e
    · simp [oneBerth, account, berth, State.berth, trading, State.reset, coldBerth, defaultBerth, Table.get_put_ne, e] at h
  all_goals decide +kernel

/-- A vessel longer than berth 3 takes by 1 cm. -/
def long (x : Account) : Account := { x with loa := 1201 }

/-- Account 17 RESERVED on berth 3. -/
def booked : State :=
  trading |> berth 3 { quay with state := .reserved, holder := some 17 }
    |> account 17 { vessel with state := .reserved, berth := some 3, arrival := some 9000 }

/-- Obligations.ReserveTakesTheNamedBerth and CancelReleasesTheBerth. -/
theorem witness_reserve_and_cancel :
    (Ready (.reserve office 17 3 yesterday none false) office (oneBerth vessel))
    ∧ (Ready (.reserve office 17 3 today none false) office (oneBerth guest))
    ∧ (Ready (.reserve office 17 4 today none false) office (oneBerth vessel) ∧ ((oneBerth vessel).berth 4).state ≠ .free)
    ∧ (Ready (.reserve office 17 3 today none false) office (oneBerth (long vessel))
      ∧ ¬ Fits (oneBerth (long vessel)) ((oneBerth (long vessel)).account 17) ((oneBerth (long vessel)).berth 3).cfg)
    ∧ (Ready (.reserve office 17 3 today none false) office (oneBerth { vessel with loa := 1200 })
      ∧ Fits (oneBerth { vessel with loa := 1200 }) ((oneBerth { vessel with loa := 1200 }).account 17)
          ((oneBerth { vessel with loa := 1200 }).berth 3).cfg)
    ∧ (Ready (.cancel office 17) office (oneBerth vessel) ∧ ((oneBerth vessel).account 17).state ≠ .reserved)
    ∧ (Ready (.cancel office 17) office booked ∧ (booked.account 17).state = .reserved
      ∧ (booked.account 17).berth = some 3 ∧ (booked.berth 3).state = .reserved) := by
  and_intros <;> first | exact ready_of (by decide +kernel) | (try simp only [Fits]); decide +kernel

/-- Obligations.ArriveBerthsTheAccount, clause by clause. -/
theorem witness_arrive :
    (Ready (.arrive patrol 17 none none false) patrol (oneBerth guest) ∧ ((oneBerth guest).account 17).state = .berthed)
    ∧ (Ready (.arrive patrol 17 (some 4) none false) patrol booked ∧ (booked.account 17).berth = some 3)
    ∧ (Ready (.arrive patrol 17 none none false) patrol (oneBerth vessel))
    ∧ (Ready (.arrive patrol 17 (some 4) none false) patrol (oneBerth vessel) ∧ ((oneBerth vessel).berth 4).state ≠ .free)
    ∧ (Ready (.arrive patrol 17 (some 3) none false) patrol (oneBerth (long vessel))
      ∧ ¬ Fits (oneBerth (long vessel)) ((oneBerth (long vessel)).account 17) ((oneBerth (long vessel)).berth 3).cfg)
    ∧ (Ready (.arrive patrol 17 none (some today) false) patrol booked ∧ (booked.berth 3).state = .reserved)
    ∧ (Ready (.arrive patrol 17 (some 3) none true) patrol (oneBerth (long vessel))
      ∧ ((oneBerth (long vessel)).berth 3).state = .free) := by
  and_intros <;> first | exact ready_of (by decide +kernel) | (try simp only [Fits]); decide +kernel

/-- Account 17 on berth 3, berth 5 as given. -/
def moving (x : Account) : State :=
  trading |> berth 3 { quay with state := .occupied, holder := some 17 } |> account 17 x
    |> berth 5 (coldBerth { defaultBerth 5 with outOfService := false })

/-- Obligations.MoveKeepsTheStay, in the order of its checks. -/
theorem witness_move :
    (Ready (.move patrol 17 5 false) patrol (moving vessel) ∧ ((moving vessel).account 17).state ≠ .berthed)
    ∧ (Ready (.move patrol 17 3 false) patrol (moving guest) ∧ ((moving guest).berth 3).state ≠ .free)
    ∧ (Ready (.move patrol 17 5 false) patrol (moving { guest with water := some 3 })
      ∧ ((moving { guest with water := some 3 }).account 17).water ≠ none)
    ∧ (Ready (.move patrol 17 5 false) patrol (moving (long guest))
      ∧ ¬ Fits (moving (long guest)) ((moving (long guest)).account 17) ((moving (long guest)).berth 5).cfg)
    ∧ (Ready (.move patrol 17 5 true) patrol (moving (long guest)) ∧ ((moving (long guest)).berth 3).state = .occupied
      ∧ ((moving (long guest)).berth 5).state = .free ∧ (long guest).power = none ∧ (long guest).water = none
      ∧ (long guest).berth = some 3) := by
  and_intros <;> first | exact ready_of (by decide +kernel) | (try simp only [Fits]); decide +kernel

/-- Obligations.DepartSettlesTheStayAndFreesTheBerth: no stay, an open sale, and a stay that owes 0 nights with sessions of each kind. -/
theorem witness_depart :
    (Ready (.depart patrol 17) patrol (oneBerth vessel) ∧ ((oneBerth vessel).account 17).state ≠ .berthed)
    ∧ (Ready (.depart patrol 17) patrol (moving { guest with sale := some 1 })
      ∧ ((moving { guest with sale := some 1 }).account 17).sale ≠ none)
    ∧ (Ready (.depart patrol 17) patrol (served (session .live 32) (flow .flowing) { guest with balance := -99999999, standing := .arrears })
      ∧ guest.lastCharged = some 9000 ∧ guest.sale = none ∧ guest.berth = some 3
      ∧ ((served (session .live 32) (flow .flowing) guest).berth 3).state = .occupied
      ∧ rolloverDate (served (session .live 32) (flow .flowing) guest) = 9000
      ∧ Standing.arrears = standingOf false (-99999999) (trading.classes.get 0).val.floor
      ∧ (served (session .live 32) (flow .flowing) guest).power.get 6 = some (session .live 32)
      ∧ (served (session .live 32) (flow .flowing) guest).water.get 3 = some (flow .flowing)
      ∧ trading.rates.get 16 = loadedRow 0 ∧ trading.rates.get 20 = loadedRow 0)
    ∧ (Ready (.depart patrol 17) patrol (served (session .waiting 0) (flow .suspended) guest)
      ∧ Ready (.depart patrol 17) patrol (served (session .closing 32) (flow .closing) guest)
      ∧ (served (session .waiting 0) (flow .suspended) guest).power.get 6 = some (session .waiting 0)
      ∧ (served (session .closing 32) (flow .closing) guest).water.get 3 = some (flow .closing)
      ∧ guest.standing = standingOf false 0 (trading.classes.get 0).val.floor) := by
  and_intros <;> first | exact ready_of (by decide +kernel) | decide +kernel

/-- Obligations.EveryStepKeepsBerthsAndAccountsLinked. -/
theorem witness_berth_law :
    ∃ t, BerthsLinked (trading.withPending [.cancel office 17]) ∧ CredentialsOk (trading.withPending [.cancel office 17])
      ∧ step (trading.withPending [.cancel office 17]) = .next t := by
  refine ⟨_, ⟨fun n => ?_, fun a => ?_⟩, ⟨fun c d h => ?_, fun c h => ?_, fun a => ?_⟩, rfl⟩
  · simp [State.withPending, trading, State.reset, coldBerth, defaultBerth]
  · simp [State.withPending, trading, State.reset, coldAccount]
  · simp [State.withPending, trading, State.reset, coldCredential] at h
  · simp [State.withPending, trading, State.reset, coldCredential] at h
  · simp [State.withPending, trading, State.reset, coldAccount]

/-! ### Witnesses: clock, rollover, pontoon bus -/

/-- Obligations.ClockAdvanceTestsTheRollover: the second before midnight, midnight itself on two days, and the end of the range. -/
theorem witness_clock_advance :
    trading.stopped = false ∧ (86398 : Nat) < 86399
    ∧ (86399 ≤ (86399 : Nat) ∧ (36523 : Int) < 36524) ∧ (86399 ≤ (86399 : Nat) ∧ (36524 : Int) ≤ 36524) := by decide +kernel

def noon : TimeField := { hour := 12, minute := 0, second := 0 }

/-- Obligations.SetClockSetsTheClock: no date or time, a rollover in flight, a date before the last rollover, and the same rollover date. -/
theorem witness_set_clock :
    (Ready (.setClock office { today with day := 32 } noon) office trading ∧ dateOf { today with day := 32 } = none
      ∧ secondOf { noon with hour := 24 } = none)
    ∧ (Ready (.setClock office today noon) office { trading with rollover := some { date := 9000, cursor := 0, total := 0 } }
      ∧ dateOf today = some 9000 ∧ secondOf noon = some 43200)
    ∧ (Ready (.setClock office yesterday noon) office trading ∧ trading.lastRollover = some 9000 ∧ (8999 : Int) < 9000)
    ∧ (Ready (.setClock office today noon) office trading ∧ trading.rollover = none ∧ trading.site.val.rolloverHour = 12) := by
  and_intros <;> first | exact ready_of (by decide +kernel) | decide +kernel

/-- A rollover for day 9001 that stands at account 17, held by account `x`. -/
def rolling (x : Account) (s : State) : State :=
  { s |> account 17 x with rollover := some { date := 9001, cursor := 17, total := 0 } }

/-- Obligations.RolloverStepsEachAccountOnce: the cursor at its end, and account 17 as each clause has it. -/
theorem witness_rollover :
    ((rolling vessel trading).stopped = false ∧ ((17 : AccountId)).val = 17
      ∧ ({ date := 9001, cursor := 512, total := 0 } : Rollover).cursor = 512)
    ∧ ((rolling (coldAccount 17) trading).account 17).state = .free
    ∧ ((rolling { vessel with lastStepped := some 9001 } trading).account 17).lastStepped = some 9001
    ∧ (vessel.state = .opened ∧ vessel.lastStepped ≠ some 9001 ∧ vessel.standing ≠ .arrears)
    ∧ (({ vessel with standing := .arrears, arrearsNights := 1 }).power = none ∧ min (1 + 1) 255 < 3)
    ∧ ((rolling { vessel with standing := .arrears, arrearsNights := 2, power := some 6 } (powered (session .live 32))).power.get 6
        = some (session .live 32)
      ∧ (trading.classes.get 0).val.grace ≤ min (2 + 1) 255)
    ∧ ((rolling { vessel with state := .reserved, berth := some 3, arrival := some 8999 } booked).berth 3).state = .reserved
    ∧ ((8999 : Int) + trading.site.val.graceDays < 9001 ∧ (9001 : Int) ≤ 9000 + trading.site.val.graceDays)
    ∧ (({ guest with lastCharged := some 9001, planned := some 9000 }).state = .berthed ∧ (9000 : Int) < 9001
      ∧ (9001 : Int) ≤ 9001)
    ∧ (guest.lastCharged = some 9000 ∧ (9000 : Int) < 9001 ∧ guest.balance - ((0 : Nat) : Int) ≥ -99999999
      ∧ trading.rates.get 16 = loadedRow 0) := by decide +kernel

/-- Pedestal 3 on its segment, with the segment as given. -/
def line0 (x : Segment) (kind : PedestalKind) : State := trading |> pedestal 3 (column kind) |> segment 0 x

theorem only_pedestal_3 (x : Segment) (kind : PedestalKind) (g : SegmentId) (m : PedestalId)
    (h : onSegment (line0 x kind) g m) : m = 3 := by
  by_contra e
  have e' : (3 : PedestalId) ≠ m := fun h => e h.symm
  simp [onSegment, line0, pedestal, segment, State.pedestal, trading, State.reset, coldPedestal, defaultPedestal,
    Table.get_put_ne, e'] at h

/-- Obligations.EachPollGoesToTheNextPedestal: the states that poll and one that does not, a segment with a pedestal and one without, the pedestal above the round position and below it. -/
theorem witness_polls :
    (line0 { idleSegment with due := true } .twin).stopped = false
    ∧ (line0 { idleSegment with due := true } .twin).device = .opened
    ∧ onSegment (line0 { idleSegment with due := true } .twin) 0 3
    ∧ (State.reset.device ≠ .setup ∧ State.reset.device ≠ .opened)
    ∧ (∀ n, ¬ onSegment (line0 idleSegment .twin) 3 n)
    ∧ ((line0 idleSegment .twin).segment 0).due = false
    ∧ NextPolled (line0 { idleSegment with due := true } .twin) 0 3
    ∧ NextPolled (line0 { idleSegment with due := true, position := some 3 } .twin) 0 3 := by
  refine ⟨?_, ?_, ⟨?_, ?_⟩, ⟨?_, ?_⟩, ?_, ?_, .inl ⟨⟨⟨?_, ?_⟩, ?_⟩, ?_⟩, .inr ⟨?_, ⟨?_, ?_⟩, ?_⟩⟩
  case refine_7 =>
    intro n h
    have e := only_pedestal_3 _ _ _ _ h
    subst e
    exact absurd h.2 (by decide +kernel)
  case refine_11 => intro p h; exact absurd h (by simp [line0, segment, State.segment, idleSegment])
  case refine_12 => intro m h; rw [only_pedestal_3 _ _ _ _ h.1]; exact .inr ⟨rfl, le_refl _⟩
  case refine_13 =>
    intro m h
    have e := only_pedestal_3 _ _ _ _ h.1
    subst e
    exact absurd (h.2 3 (by simp [line0, segment, State.segment])) (by decide +kernel)
  case refine_16 => intro m h; rw [only_pedestal_3 _ _ _ _ h]; exact .inr ⟨rfl, le_refl _⟩
  all_goals decide +kernel

/-- A reply of a TAP at address 3: tag 1, valve open, 5 packed units, padding, and the byte that makes the sum 0. -/
def tapReply : List Byte := [15, 96, 0, 160, 241]

def openTap : TapReport := { valve := true, water := 5 }
def noSocket : SocketReport := { reported := freshReported, energy := 0 }

/-- Segment 0 waits for pedestal 3, whose reply has brought the bytes. -/
def answered (bytes : List Byte) : Segment :=
  { idleSegment with
    outstanding := some { pedestal := 3, sentAt := { date := 9000, time := 43200 } }
    unpacker := bytes.foldl (Unpacker.take (column .tap).cfg) emptyUnpacker }

/-- Obligations.AReplyReadsBackAsItWasSent: a segment that waits, one that does not and one with 16 bytes; a whole reply, with the right sum and another, cut short, too long, and another pedestal's first byte. -/
theorem witness_replies :
    ((line0 (answered []) .tap).stopped = false ∧ ((line0 (answered []) .tap).segment 0).unpacker.byteCount < 16
      ∧ ((line0 (answered []) .tap).segment 0).outstanding.isSome = true)
    ∧ ((line0 idleSegment .tap).segment 0).outstanding = none
    ∧ 16 ≤ ((line0 (answered (List.replicate 16 0)) .tap).segment 0).unpacker.byteCount
    ∧ (noSocket.fitsBlock ∧ openTap.water < 65536
      ∧ (tapReply.take 4).flatMap byteBits = replyBits (column .tap).cfg 1 noSocket noSocket openTap
      ∧ byteSum tapReply = 0 ∧ byteSum ((tapReply.take 4) ++ [0]) ≠ 0 ∧ [(14 : Byte)] ≠ tapReply.take 1) := by
  simp only [SocketReport.fitsBlock]; decide +kernel

/-- The TAP's water session, and the account that pays for it. -/
def tapOpen (tag : Option (Fin 4)) (bytes : List Byte) : State :=
  line0 (answered bytes) .tap |> pedestal 3 { column .tap with tag := tag, desiredValve := true }
    |> account 17 { guest with water := some 3 } |> water 3 (flow .flowing)

/-- A reply of a SINGLE at address 3: tag 1, relay ON, limit 63, no trip, no current, 5 packed units of energy, tap shut, sum 0. -/
def singleReply : List Byte := [13, 96, 0, 0, 10, 0, 0, 137]

def singleOn : State :=
  trading |> pedestal 3 (column .single)
    |> segment 0 { idleSegment with
        outstanding := some { pedestal := 3, sentAt := { date := 9000, time := 43200 } }
        unpacker := singleReply.foldl (Unpacker.take (column .single).cfg) emptyUnpacker }
    |> account 17 { guest with power := some 6 } |> power 6 { session .live 63 with wish := .a63 }

/-- Obligations.AValidReplyIsAccountedOnce: a bad reply, none, and valid ones with a repeated and a new tag, of a TAP, without a water cap, at it and one unit below it, and of a SINGLE. -/
theorem witness_accounted :
    ((tapOpen none [1]).stopped = false ∧ ((tapOpen none [1]).segment 0).outstanding.isSome = true
      ∧ ((tapOpen none [1]).segment 0).unpacker.byteCount ≠ 0
      ∧ judge ((tapOpen none [1]).pedestal 3).cfg ((tapOpen none [1]).segment 0).unpacker ≠ .valid)
    ∧ ((tapOpen none []).segment 0).unpacker.byteCount = 0
    ∧ (judge ((tapOpen (some 1) tapReply).pedestal 3).cfg ((tapOpen (some 1) tapReply).segment 0).unpacker = .valid
      ∧ ((tapOpen (some 1) tapReply).pedestal 3).tag = some (replyTag ((tapOpen (some 1) tapReply).segment 0).unpacker.fields))
    ∧ (((tapOpen none tapReply).pedestal 3).tag ≠ some (replyTag ((tapOpen none tapReply).segment 0).unpacker.fields)
      ∧ (tapOpen none tapReply).water.get 3 = some (flow .flowing)
      ∧ (tapReport .tap ((tapOpen none tapReply).segment 0).unpacker.fields).valve = true
      ∧ unpack (tapReport .tap ((tapOpen none tapReply).segment 0).unpacker.fields).water = some 5
      ∧ ((tapOpen none tapReply).account 17).state ≠ .free ∧ (trading.classes.get 0).val.waterCap = 0)
    ∧ (((upTo63 45 (tapOpen none tapReply)).classOf guest).waterCap = (flow .flowing).volume + 5
      ∧ (flow .flowing).volume + 5 < ((upTo63 46 (tapOpen none tapReply)).classOf guest).waterCap)
    ∧ (judge (singleOn.pedestal 3).cfg (singleOn.segment 0).unpacker = .valid
      ∧ (singleOn.pedestal 3).tag ≠ some (replyTag (singleOn.segment 0).unpacker.fields)
      ∧ singleOn.power.get (socketAt 3 0) = some { session .live 63 with wish := .a63 } ∧ singleOn.water.get 3 = none
      ∧ (socketReport (singleOn.segment 0).unpacker.fields 0).reported.trip = false
      ∧ (socketReport (singleOn.segment 0).unpacker.fields 0).reported.relay = true
      ∧ (socketReport (singleOn.segment 0).unpacker.fields 0).reported.limit = .l63
      ∧ unpack (socketReport (singleOn.segment 0).unpacker.fields 0).energy = some 5
      ∧ (singleOn.feeder 0).overload = 0
      ∧ guest.standing = standingOf false 0 (trading.classes.get 0).val.floor) := by decide +kernel

/-! ### Witnesses: power and water -/

/-- Obligations.RequestPowerGrantsOrWaits: the checks in their order; room for 32 A exactly, for 32 of 63 exactly and for neither; a list that holds one, and one that is full. -/
theorem witness_request_power :
    (Ready (.requestPower patrol 17 32) patrol (oneBerth vessel) ∧ (oneBerth vessel).device = .opened)
    ∧ (Ready (.requestPower patrol 17 32) patrol (moving { guest with berth := some 5 })
      ∧ ((moving { guest with berth := some 5 }).berth 5).cfg.socket = none)
    ∧ (Ready (.requestPower patrol 17 32) patrol (moored 32 |> account 17 { guest with standing := .arrears }))
    ∧ (Ready (.requestPower patrol 17 32) patrol (powered (session .live 32))
      ∧ ((powered (session .live 32)).account 17).power ≠ none)
    ∧ (Ready (.requestPower patrol 17 32) patrol (moored 32 |> pedestal 3 { column .twin with link := .offline }))
    ∧ (Ready (.requestPower patrol 17 32) patrol (moored 32) ∧ ((moored 32).berth 3).cfg.socket = some 6
      ∧ ((moored 32).feeder 0).waitList = [] ∧ ((moored 32).feeder 0).relief = none
      ∧ min Rating.a32.amps (min Rating.a63.amps ((moored 32).classOf ((moored 32).account 17)).maxRating.amps) = 32
      ∧ 0 + 32 ≤ 32 * 100 / 100)
    ∧ (Ready (.requestPower patrol 17 63) patrol (moored 32 |> upTo63 0) ∧ 32 * 100 / 100 < 0 + 63 ∧ 0 + 32 ≤ 32 * 100 / 100
      ∧ min Rating.a63.amps (min Rating.a63.amps
          ((moored 32 |> upTo63 0).classOf ((moored 32).account 17)).maxRating.amps) = 63)
    ∧ (Ready (.requestPower patrol 17 32) patrol (moored 31) ∧ 31 * 100 / 100 < 0 + 32 ∧ (32 : Nat) ≠ 63)
    ∧ ((moored 32 |> feeder 0 { supply 32 with waitList := List.replicate 63 9 }).feeder 0).waitList.length < 64
    ∧ 64 ≤ ((moored 32 |> feeder 0 { supply 32 with waitList := List.replicate 64 9 }).feeder 0).waitList.length := by
  and_intros <;> first | exact ready_of (by decide +kernel) | decide +kernel

/-- A relief hold on feeder 0, with socket 6 at the head of its list. -/
def holding (rating : Nat) (waiting : List SocketId) : State :=
  powered { session .waiting 0 with granted := 0 }
    |> feeder 0 { supply rating with waitList := waiting, relief := some { date := 9000, time := 43200 } }

/-- Obligations.PowerSessionsEndAndRestart: each state of the socket, the session and the link; a list whose head just fits, and one whose head does not. -/
theorem witness_power_ends :
    (Ready (.resetSocket patrol 0) patrol (moored 32) ∧ ((moored 32).pedestal (pedestalOf 0)).cfg.installed = false)
    ∧ (Ready (.resetSocket patrol 6) patrol (powered (session .live 32))
      ∧ (powered (session .live 32)).power.get 6 = some (session .live 32)
      ∧ ((powered (session .live 32)).pedestal (pedestalOf 6)).cfg.installed = true
      ∧ PedestalKind.twin.hasSocket (positionOf 6) = true)
    ∧ (Ready (.resetSocket patrol 6) patrol (moored 32) ∧ (moored 32).power.get 6 = none)
    ∧ (Ready (.resetSocket patrol 6) patrol (powered (session .tripped 0))
      ∧ ((powered (session .tripped 0)).account 17).state = .berthed
      ∧ ((powered (session .tripped 0)).berth 3).cfg.socket = some 6
      ∧ ((powered (session .tripped 0)).feeder 0).waitList.length < 64
      ∧ ((powered (session .tripped 0)).pedestal 3).link ≠ .offline)
    ∧ (Ready (.resetSocket patrol 6) patrol (powered (session .tripped 0) |> account 17 { vessel with power := some 6 })
      ∧ ((powered (session .tripped 0) |> account 17 { vessel with power := some 6 }).account 17).state ≠ .berthed)
    ∧ (Ready (.endPower patrol 17) patrol (moored 32) ∧ ((moored 32).account 17).power = none)
    ∧ (Ready (.endPower patrol 17) patrol (powered (session .restoring 32))
      ∧ ((powered (session .restoring 32)).account 17).power = some 6)
    ∧ (Ready (.endPower patrol 17) patrol (powered (session .waiting 0)))
    ∧ (Ready (.endPower patrol 17) patrol (powered (session .closing 32))
      ∧ ((powered (session .closing 32)).pedestal (pedestalOf 6)).link ≠ .offline)
    ∧ ((powered (session .closing 32) |> pedestal 3 { column .twin with link := .offline }).pedestal (pedestalOf 6)).link = .offline
    ∧ ((moored 32).stopped = false ∧ ((moored 32).feeder 0).relief = none)
    ∧ ((holding 32 []).device ≠ .loading ∧ ((holding 32 []).feeder 0).relief ≠ none ∧ ((holding 32 []).feeder 0).waitList = [])
    ∧ (((holding 32 [6]).feeder 0).waitList = [6] ∧ ((holding 32 [6]).pedestal (pedestalOf 6)).cfg.feeder = 0
      ∧ (holding 32 [6]).power.get 6 = some { session .waiting 0 with granted := 0 }
      ∧ 0 + min Rating.a32.amps (min Rating.a63.amps Rating.a32.amps) ≤ 32 * 100 / 100
      ∧ 31 * 100 / 100 < 0 + min Rating.a32.amps (min Rating.a63.amps Rating.a32.amps)) := by
  and_intros <;> first | exact ready_of (by decide +kernel) | decide +kernel

/-- Obligations.WaterIsRequestedAndEnded, in the order of its clauses. -/
theorem witness_water :
    (Ready (.requestWater patrol 17) patrol (oneBerth vessel))
    ∧ (Ready (.requestWater patrol 17) patrol (moving { guest with berth := some 5 })
      ∧ ((moving { guest with berth := some 5 }).berth 5).cfg.tap = none)
    ∧ (Ready (.requestWater patrol 17) patrol (moored 32 |> account 17 { guest with standing := .barred }))
    ∧ (Ready (.requestWater patrol 17) patrol (watered (flow .flowing)))
    ∧ (Ready (.requestWater patrol 17) patrol (moored 32 |> pedestal 3 { column .twin with link := .offline }))
    ∧ (Ready (.requestWater patrol 17) patrol (moored 32) ∧ ((moored 32).berth 3).cfg.tap = some 3
      ∧ (moored 32).water.get 3 = none)
    ∧ (Ready (.endWater patrol 17) patrol (moored 32) ∧ ((moored 32).account 17).water = none)
    ∧ (Ready (.endWater patrol 17) patrol (watered (flow .opening))
      ∧ (watered (flow .opening)).water.get 3 = some (flow .opening))
    ∧ (Ready (.endWater patrol 17) patrol (watered (flow .suspended)))
    ∧ (Ready (.endWater patrol 17) patrol (watered { flow .closing with closeReason := some .cap }
        |> pedestal 3 { column .twin with link := .offline }))
    ∧ (Ready (.endWater patrol 17) patrol (watered (flow .closing))
      ∧ ((watered (flow .closing)).pedestal 3).link ≠ .offline) := by
  and_intros <;> first | exact ready_of (by decide +kernel) | decide +kernel

/-- Obligations.EveryStepKeepsOutputsToTheirSessions. -/
theorem witness_outputs_law :
    ∃ t, OutputsOk (trading.withPending [.pollDue 0]) ∧ SessionsLinked (trading.withPending [.pollDue 0])
      ∧ FeedersOk (trading.withPending [.pollDue 0]) ∧ step (trading.withPending [.pollDue 0]) = .next t := by
  refine ⟨_, ⟨fun n i h => ?_, fun n h => ?_⟩, ⟨⟨fun k => ?_, fun a => ?_⟩, ⟨fun k => ?_, fun a => ?_⟩, fun a _ => ?_⟩,
    ⟨⟨fun n k h => ?_, fun k x h => ?_⟩, fun f => ?_, fun f => ?_⟩, rfl⟩
  · simp [State.withPending, trading, State.reset, coldPedestal, idleDesired] at h
  · simp [State.withPending, trading, State.reset, coldPedestal] at h
  · simp [State.withPending, trading, State.reset]
  · simp [State.withPending, trading, State.reset, coldAccount]
  · simp [State.withPending, trading, State.reset]
  · simp [State.withPending, trading, State.reset, coldAccount]
  · simp [State.withPending, trading, State.reset, coldAccount]
  · simp [State.withPending, trading, State.reset, coldBerth, defaultBerth] at h
  · simp [State.withPending, trading, State.reset] at h
  · simp [State.withPending, trading, State.reset, coldFeeder, heldOf]
  · simp [State.withPending, trading, State.reset, coldFeeder]

/-! ### Witnesses: fuel dock -/

/-- Pump 1, tank 1 and account 17 as given. -/
def dock (p : Pump) (t : Tank) (x : Account) : State := trading |> pump 1 p |> tank 1 t |> account 17 x

/-- The list of terms of a sale of 200 cL. -/
theorem least_of_terms : ([499000, 20000, 200] : List Nat).min? = some 200 ∧ ([499000, 20000, 199] : List Nat).min? = some 199 := by
  decide +kernel

/-- Obligations.SellHoldsVolumeAndMoney: the checks in their order, the smallest paid amount at a price of 0, and limits of 199 and 200 cL. -/
theorem witness_sell :
    (Ready (.sell fuelDock 1 (.account 17) none) fuelDock (dock { station with online := false } cistern vessel)
      ∧ (dock { station with online := false } cistern vessel).device = .opened
      ∧ ((dock { station with online := false } cistern vessel).pump 1).online = false)
    ∧ (Ready (.sell fuelDock 1 (.account 17) none) fuelDock (dock station cistern (coldAccount 17))
      ∧ ((dock station cistern (coldAccount 17)).account 17).state = .free ∧ station.cfg.installed = true
      ∧ station.sale = none ∧ station.readings = none)
    ∧ (Ready (.sell fuelDock 1 (.account 17) none) fuelDock (dock station cistern { vessel with standing := .arrears }))
    ∧ (Ready (.sell fuelDock 1 (.account 17) none) fuelDock (dock station cistern { vessel with sale := some 0 })
      ∧ (trading.classes.get 0).val.fuelOnAccount = true)
    ∧ (Ready (.sell fuelDock 1 (.account 17) none) fuelDock (dock station cistern vessel)
      ∧ vessel.balance - (trading.classes.get 0).val.floor - (vessel.holds : Int) ≤ 0)
    ∧ (Ready (.sell fuelDock 1 (.prepay 100) none) fuelDock forecourt ∧ rateNow forecourt (.prepay 100) 1 = 0)
    ∧ (Ready (.sell fuelDock 1 (.account 17) (some (.volume 199))) fuelDock (dock station cistern { vessel with balance := 1 })
      ∧ (1 : Int) - (trading.classes.get 0).val.floor - (vessel.holds : Int) = 1
      ∧ rateNow (dock station cistern { vessel with balance := 1 }) (.account 17) 1 = 0 ∧ volumeFor 1 0 = none
      ∧ cistern.book - cistern.holds - cistern.cfg.reserve = 499000 ∧ station.cfg.maxPerSale = 20000)
    ∧ (Ready (.sell fuelDock 1 (.account 17) (some (.volume 200))) fuelDock (dock station cistern { vessel with balance := 1 })
      ∧ 1 ≤ 200 ∧ 200 ≤ 200000) := by
  and_intros <;> first | exact ready_of (by decide +kernel) | decide +kernel

/-- The pump line waits for pump 1, in the state given. -/
def asked (s : State) : State := { s with pumpLine := { last := some 1, outstanding := some 1, sent := [] } }

/-- A reply of pump 1: its flags, the sale number 7, and the delivered volume 300; the last byte makes the sum 0. -/
def pumpBytes (flags check : Byte) : List Byte := [1, flags, 0, 7, 0, 1, 44, check]

/-- Obligations.PumpRepliesMoveTheSaleOn: the line free and busy, a pump after the last and a wrap, no bytes, the second and the third miss, and the reply to each state of the sale. -/
theorem witness_pump_line :
    (forecourt.stopped = false ∧ forecourt.device = .opened ∧ forecourt.pumpLine.outstanding = none
      ∧ (asked forecourt).pumpLine.outstanding = some 1 ∧ (forecourt.pump 1).cfg.installed = true
      ∧ forecourt.pumpLine.last = none ∧ (∀ m, (trading.pump m).cfg.installed = false))
    ∧ ((∀ m : PumpId, (forecourt.pump m).cfg.installed = true → (1 : PumpId) ≤ m)
      ∧ (∀ m : PumpId, (forecourt.pump m).cfg.installed = true → ¬ (1 : PumpId) < m))
    ∧ (([] : List Byte).length ≠ 8 ∧ byteSum (pumpBytes 0 0) ≠ 0 ∧ (2 : Byte).toNat % 16 ≠ ((1 : PumpId)).val)
    ∧ (((asked (dock { station with misses := 1 } cistern vessel)).pump 1).misses < 2
      ∧ 2 ≤ ((asked (dock { station with misses := 2 } cistern vessel)).pump 1).misses
      ∧ ((asked (dock { station with misses := 2 } cistern vessel)).pump 1).online = true
      ∧ ((asked (dock { station with misses := 2 } cistern vessel)).pump 1).sale = none
      ∧ ((asked (selling (sale .authorised) .cancel)).pump 1).sale = some (sale .authorised))
    ∧ (byteSum (pumpBytes 192 11) = 0 ∧ (1 : Byte).toNat % 16 = ((1 : PumpId)).val ∧ (192 : Byte).toNat.testBit 7 = true
      ∧ (192 : Byte).toNat.testBit 6 = true ∧ (192 : Byte).toNat.testBit 4 = false
      ∧ bytesToNat [0, 7] = (sale .authorised).number.toNat ∧ bytesToNat [0, 1, 44] = 300)
    ∧ (byteSum (pumpBytes 128 75) = 0 ∧ (128 : Byte).toNat.testBit 7 = true ∧ (128 : Byte).toNat.testBit 6 = false
      ∧ (sale .delivering).stop = none ∧ (sale .delivering).delivered ≤ 300
      ∧ ((asked (selling (sale .delivering) .cancel)).pump 1).sale = some (sale .delivering))
    ∧ (byteSum (pumpBytes 0 203) = 0 ∧ (0 : Byte).toNat.testBit 7 = false)
    ∧ (byteSum (pumpBytes 144 59) = 0 ∧ (144 : Byte).toNat.testBit 7 = true ∧ (144 : Byte).toNat.testBit 4 = true)
    ∧ (byteSum [1, 128, 0, 7, 0, 0, 0, 120] = 0 ∧ bytesToNat [0, 0, 0] = 0)
    ∧ (((asked (selling { sale .delivering with delivered := 301 } .cancel)).pump 1).sale
        = some { sale .delivering with delivered := 301 } ∧ 300 < 301) := by decide +kernel

/-- The sale, asked to stop. -/
def stopping (delivered misses : Nat) : Sale :=
  { sale .delivering with stop := some .stopped, delivered := delivered, stopMisses := misses }

/-- Obligations.SalesAreStoppedAndEnded, a stop requested: the reply does not hold the sale, brings a fault, a falling count, the pump at rest, and running at the second and the third reply. -/
theorem witness_stop_requested :
    ((asked (selling (stopping 300 1) (.stop 7))).stopped = false
      ∧ (asked (selling (stopping 300 1) (.stop 7))).pumpLine.outstanding = some 1
      ∧ ((asked (selling (stopping 300 1) (.stop 7))).pump 1).sale = some (stopping 300 1)
      ∧ (stopping 300 1).state = .delivering ∧ (stopping 300 1).stop = some .stopped)
    ∧ (byteSum (pumpBytes 0 203) = 0 ∧ (0 : Byte).toNat.testBit 7 = false)
    ∧ (byteSum (pumpBytes 144 59) = 0 ∧ (144 : Byte).toNat.testBit 4 = true ∧ bytesToNat [0, 7] = (stopping 300 1).number.toNat)
    ∧ (((asked (selling (stopping 301 1) (.stop 7))).pump 1).sale = some (stopping 301 1) ∧ 300 < (stopping 301 1).delivered)
    ∧ (byteSum (pumpBytes 128 75) = 0 ∧ (128 : Byte).toNat.testBit 5 = false ∧ (stopping 300 1).delivered ≤ 300)
    ∧ (byteSum (pumpBytes 160 43) = 0 ∧ (160 : Byte).toNat.testBit 5 = true ∧ (160 : Byte).toNat.testBit 4 = false
      ∧ (stopping 300 1).stopMisses < 2 ∧ 2 ≤ (stopping 300 2).stopMisses) := by decide +kernel

/-- Obligations.SalesAreStoppedAndEnded: no sale, and a sale in each of its states. -/
theorem witness_sales_end :
    (forecourt.stopped = false ∧ (forecourt.pump 1).sale = none
      ∧ Ready (.stopSale fuelDock 1) fuelDock forecourt)
    ∧ (((selling (sale .authorised) .cancel).pump 1).sale = some (sale .authorised)
      ∧ (selling (sale .authorised) .cancel).device ≠ .loading
      ∧ Ready (.stopSale fuelDock 1) fuelDock (selling (sale .authorised) .cancel))
    ∧ (((selling (sale .delivering) .cancel).pump 1).sale = some (sale .delivering) ∧ (sale .delivering).stop = none
      ∧ Ready (.stopSale fuelDock 1) fuelDock (selling (sale .delivering) .cancel))
    ∧ (((selling { sale .delivering with stop := some .stalled } .cancel).pump 1).sale
        = some { sale .delivering with stop := some .stalled }
      ∧ Ready (.stopSale fuelDock 1) fuelDock (selling { sale .delivering with stop := some .stalled } .cancel)) := by
  and_intros <;> first | exact ready_of (by decide +kernel) | decide +kernel

/-- Obligations.TanksAreDippedAndFilled: numbers 65,535 and 65,536, a sale that is open, one in the log and none; dips at the capacity, past it and below the holds; fills of 0, 1, 10,000,000 and 10,000,001. -/
theorem witness_tanks :
    (Ready (.sale fuelDock 65536) fuelDock forecourt ∧ Ready (.sale fuelDock 65535) fuelDock forecourt
      ∧ forecourt.saleLog = [] ∧ (∀ n : PumpId, (forecourt.pump n).sale = none))
    ∧ (Ready (.sale fuelDock 7) fuelDock (selling (sale .delivering) .cancel) ∧ (sale .delivering).number.toNat = 7
      ∧ (∀ m : PumpId, m < 1 → ((selling (sale .delivering) .cancel).pump m).sale = none))
    ∧ (Ready (.sale fuelDock 7) fuelDock { forecourt with saleLog := [sale .ended] }
      ∧ ({ forecourt with saleLog := [sale .ended] } : State).saleLog = [] ++ sale .ended :: [])
    ∧ (Ready (.tankDip fuelDock 1 1000001) fuelDock forecourt ∧ (forecourt.tank 1).cfg.capacity < 1000001)
    ∧ (Ready (.tankDip fuelDock 1 1000000) fuelDock forecourt ∧ 1000000 ≤ (forecourt.tank 1).cfg.capacity)
    ∧ (Ready (.tankDip fuelDock 1 499) fuelDock (selling (sale .delivering) .cancel)
      ∧ ((selling (sale .delivering) .cancel).tank 1).holds - 499 = 1)
    ∧ (Ready (.tankFill fuelDock 1 0) fuelDock forecourt ∧ Ready (.tankFill fuelDock 1 10000001) fuelDock forecourt)
    ∧ (Ready (.tankFill fuelDock 1 1) fuelDock forecourt ∧ Ready (.tankFill fuelDock 1 10000000) fuelDock forecourt) := by
  and_intros <;> first | exact ready_of (by decide +kernel) | decide +kernel

/-- Obligations.EveryStepKeepsTheTanksLaw: a step that sends a pump poll, with two full tanks. -/
theorem witness_tanks_law :
    (∃ t, TanksOk (forecourt.withPending [.pumpPoll]) ∧ HoldsOk (forecourt.withPending [.pumpPoll])
      ∧ step (forecourt.withPending [.pumpPoll]) = .next t)
    ∧ ∃ t, AccountHoldsOk (trading.withPending [.pumpPoll]) ∧ step (trading.withPending [.pumpPoll]) = .next t := by
  refine ⟨⟨_, fun t => ?_, fun t => ?_, rfl⟩, _, ⟨fun n => ?_, fun a => ?_⟩, rfl⟩
  · revert t; decide +kernel
  · revert t; decide +kernel
  · simp [State.withPending, trading, State.reset, coldPump]
  · simp [State.withPending, trading, State.reset, coldAccount]

/-! ### Witnesses: gates -/

/-- Reader `r` has read the card, with the access entry, gate and account as given. -/
def atGate (r : ReaderId) (x : AccessCfg) (g : Gate) (a : Account) : State :=
  swiped r bits |> allowing x |> gate (gateOf r) g |> account 17 a

def lockedGate (g : GateId) : Gate := { loadingGate g (defaultGate g) with released := false }

theorem bits_are_of_the_format (r : ReaderId) : FormatIs (swiped r bits) bits wiegand := by
  refine ⟨rfl, by decide +kernel, 0, ?_, fun j _ _ => Fin.zero_le j⟩
  simp [swiped, trading, reader, cred, account]

theorem no_format_has_25_bits (r : ReaderId) (f : FormatCfg) : ¬ FormatIs (swiped r (bits.take 25)) (bits.take 25) f := by
  rintro ⟨_, h, i, e, _⟩
  revert h
  rw [← e]
  simp only [swiped, trading, reader, cred, account, State.reset, defaultTables, Table.get_put]
  fin_cases i <;> simp [loadedRow, defaultFormat, wiegand, bits]

theorem card_is_active (r : ReaderId) : ActiveWith (swiped r bits) (spelledKey wiegand bits) 5 := by
  refine ⟨by simp [swiped, cred, account, State.cred, card], by
    simp only [swiped, cred, account, State.cred, Table.get_put_self]; decide +kernel, fun d h _ => ?_⟩
  by_cases e : (5 : CredId) = d
  · exact Fin.le_of_eq e
  · simp [swiped, cred, account, reader, State.cred, trading, State.reset, coldCredential, Table.get_put_ne, e] at h

/-- Obligations.AReadCredentialDecidesThePassage, the pulses and the steps before the credential is known. -/
theorem witness_capture :
    (State.reset.device = .loading ∧ trading.stopped = false ∧ trading.device ≠ .loading)
    ∧ ((reader 2 { bits := List.replicate 63 true, overflow := false, timer := true } trading).reader 2).bits.length < 64
    ∧ 64 ≤ ((reader 2 { bits := List.replicate 64 true, overflow := false, timer := true } trading).reader 2).bits.length
    ∧ (trading.reader 2).timer = false ∧ ((swiped 2 bits).reader 2).timer = true
    ∧ ((reader 2 { bits := [], overflow := true, timer := true } trading).reader 2).overflow = true
    ∧ ((reader 1 { bits := bits, overflow := false, timer := true } State.reset).reader 1).timer = true
    ∧ ((reader 2 { bits := bits, overflow := false, timer := true } State.reset).reader 2).timer = true
    ∧ (ParityHolds wiegand bits ∧ ¬ ParityHolds { wiegand with parity := Table.build fun _ =>
        { present := true, odd := true, bit := 25, start := 0, length := 7 } } bits) := by
  simp only [ParityHolds]; decide +kernel

/-- The same obligation, the decision: out of service, held open, closed in SETUP, barred, not allowed, in arrears, passed back, and granted. -/
theorem witness_decision :
    ((atGate 2 welcome { lockedGate 1 with cfg := { (defaultGate 1) with mode := .outOfService } } vessel).gate (gateOf 2)).cfg.mode
        = .outOfService
    ∧ ((atGate 2 welcome { lockedGate 1 with cfg := { (defaultGate 1) with mode := .heldOpen } } vessel).gate (gateOf 2)).cfg.mode
        = .heldOpen
    ∧ ({ atGate 2 welcome (lockedGate 1) vessel with device := .setup }.device = .setup ∧ card.kind ≠ .staff)
    ∧ ((atGate 2 welcome (lockedGate 1) { vessel with standing := .barred }).account 17).standing = .barred
    ∧ ((atGate 2 defaultAccess (lockedGate 1) vessel).access.get
        ((card.accessClass &&& (defaultGate 1).mask) ||| ((defaultGate 1).page &&& ~~~(defaultGate 1).mask)).toFin).val
        = defaultAccess
    ∧ (defaultAccess.allowed = false ∧ WindowAdmits trading { welcome with startHour := 12, endHour := 13 }
      ∧ ¬ WindowAdmits trading { welcome with startHour := 13, endHour := 12 } ∧ WindowAdmits trading welcome)
    ∧ (((atGate 2 welcome (lockedGate 1) { vessel with standing := .arrears }).account 17).standing = .arrears
      ∧ welcome.inArrears = false ∧ welcome.ownPontoonOnly = false)
    ∧ (((atGate 0 welcome { lockedGate 0 with cfg := { (defaultGate 0) with passback := true } } vessel
          |> cred 5 { card with inside := true }).cred 5).inside = true)
    ∧ (((atGate 2 welcome (lockedGate 1) vessel).gate (gateOf 2)).cfg.mode = .normal ∧ vessel.standing = .good
      ∧ (lockedGate 1).cfg.passback = false) := by
  simp only [WindowAdmits]; decide +kernel

/-- Obligations.GateAndCredentialCommandsTakeEffect, clause by clause. -/
theorem witness_gate_commands :
    (trading.stopped = false ∧ (trading.gate 19).expiry = none
      ∧ ((gate 1 { lockedGate 1 with expiry := some { date := 9000, time := 0 } } trading).gate 1).expiry ≠ none)
    ∧ Ready (.holdGate patrol 19 .outOfService) patrol trading
    ∧ (Ready (.revoke office 5) office trading ∧ (trading.cred 5).state ≠ .active)
    ∧ (Ready (.revoke office 5) office (cred 5 { card with kind := .staff, account := none } trading))
    ∧ (Ready (.revoke office 5) office (cred 5 card trading |> account 17 { vessel with credentials := [5] })
      ∧ card.state = .active ∧ card.kind = .vessel ∧ card.account = some 17
      ∧ (5 : CredId) ∈ ((cred 5 card trading |> account 17 { vessel with credentials := [5] }).account 17).credentials)
    ∧ (Ready (.clearPassback patrol 1023) patrol trading ∧ (trading.cred 1023).state = .free)
    ∧ (Ready (.clearPassback patrol 5) patrol (cred 5 { card with inside := true } trading)
      ∧ ((cred 5 { card with inside := true } trading).cred 5).state ≠ .free) := by
  and_intros <;> first | exact ready_of (by decide +kernel) | decide +kernel

/-! ### Witnesses: start-up, image, device states -/

/-- Obligations.SaveWritesTheTables and RestartsEnterLoading: a SAVE in flight and none. -/
theorem witness_save_and_restart :
    (Ready (.save office) office trading ∧ trading.save.isNone = true)
    ∧ (Ready (.save office) office { trading with save := some defaultTables }
      ∧ ({ trading with save := some defaultTables } : State).save.isSome = true)
    ∧ Ready (.restart office) office trading ∧ Ready (.restart office) office { trading with save := some defaultTables }
    ∧ trading.stopped = false := by
  and_intros <;> first | exact ready_of (by decide +kernel) | decide +kernel

/-- Obligations.ASavedImageLoadsBack: the tables of a failed load, and the last byte of their image. -/
theorem witness_tables_in_range :
    defaultTables.inRange = true ∧ defaultTables.agree = true ∧ (∀ i, (defaultTables.formats.get i).fitsBytes)
    ∧ (imageOf defaultTables)[10046]? = some 8 ∧ (7 : Byte) ≠ 8 := by
  simp only [FormatCfg.fitsBytes]; decide +kernel

/-- Obligations.LoadCompleteStartsColdOrWarm: a device state that does not load, a blank memory, and an image that loads, with the validity word not good and good. -/
theorem witness_load_complete :
    trading.device ≠ .loading ∧ State.reset.device = .loading ∧ State.reset.stopped = false
    ∧ loadTables State.reset.image = none ∧ State.reset.valid = false
    ∧ (loadTables ({ State.reset with image := imageOf defaultTables } : State).image).isSome = true
    ∧ ({ State.reset with image := imageOf defaultTables, valid := true } : State).valid = true := by decide +kernel

/-- A part in SETUP. -/
def settingUp : State := { trading with device := .setup }

/-- A state whose only session is on socket `k` and does not wait meets the feeders' law when its feeder holds that session's amps and no list holds a socket. -/
theorem one_session_feeders_ok {s : State} {k : SocketId} {x : PowerSession}
    (power : ∀ m, s.power.get m = if m = k then some x else none) (running : x.state ≠ .waiting)
    (berths : ∀ n m, (s.berths.get n).cfg.socket = some m → m = k) (present : socketPresent s k = true)
    (sums : ∀ f, (s.feeders.get f).heldSum = if (s.pedestal (pedestalOf k)).cfg.feeder = f then x.held else 0)
    (lists : ∀ f, (s.feeders.get f).waitList = []) : FeedersOk s := by
  refine ⟨⟨fun n m h => berths n m h ▸ present, fun m y h => ?_⟩, fun f => ?_, fun f => ?_⟩
  · rw [power m] at h
    split at h
    · next e => exact e ▸ present
    · cases h
  · have installed : (s.pedestal (pedestalOf k)).cfg.installed = true := by
      simp only [socketPresent, Bool.and_eq_true] at present; exact present.1
    rw [sums f, List.sum_map_eq_nsmul_single k _ (fun m hm _ => by simp [power m, hm, heldOf])]
    have nodup : (feederSockets s f).Nodup := (List.nodup_finRange 512).filter _
    by_cases e : (s.pedestal (pedestalOf k)).cfg.feeder = f
    · have mem : k ∈ feederSockets s f := by simp [feederSockets, installed, e]
      simp [e, List.count_eq_one_of_mem nodup mem, power, heldOf]
    · have mem : k ∉ feederSockets s f := by simp [feederSockets, e]
      simp [e, List.count_eq_zero_of_not_mem mem]
  · refine ⟨by simp [lists f], by simp [lists f], fun m => ?_⟩
    simp only [lists f, List.not_mem_nil, false_iff, not_and, not_exists]
    intro _ y h
    rw [power m] at h
    split at h
    · cases h; exact running
    · cases h

/-- The state of `witness_device_states`, with the feeder's held sum. -/
def offMains (st : PowerState) : State :=
  { (powered (session st 32) |> feeder 0 { supply 100 with heldSum := 32 }) with mainsOk := false, device := .holdover }

theorem off_mains_feeders_ok (st : PowerState) (running : st ≠ .waiting) : FeedersOk (offMains st) := by
  refine one_session_feeders_ok (k := 6) (x := session st 32) (fun m => ?_) running (fun n m h => ?_)
    (by cases st <;> decide +kernel) (fun f => ?_) (fun f => ?_)
  · by_cases e : (6 : SocketId) = m
    · subst e; simp [offMains, powered, power, feeder]
    · simp [offMains, powered, moored, power, feeder, account, berth, pedestal, trading, State.reset, Table.get_put_ne,
        e, Ne.symm e]
  · by_cases e : (3 : BerthId) = n
    · subst e; simpa [offMains, powered, moored, power, feeder, account, berth, pedestal, quay, eq_comm] using h
    · simp [offMains, powered, moored, power, feeder, account, berth, pedestal, trading, State.reset, Table.get_put_ne,
        e, coldBerth, defaultBerth] at h
  · revert f; cases st <;> decide +kernel
  · revert f; cases st <;> decide +kernel

/-- Obligations.DeviceStatesChangeAsCommanded: OPEN with and without a clock and mains, SETUP with and without a session, and both mains edges in every state. -/
theorem witness_device_states :
    (FeedersOk (offMains .live) ∧ FeedersOk (offMains .suspended))
    ∧ (Ready (.openDevice office) office { settingUp with clockSet := false })
    ∧ (Ready (.openDevice office) office settingUp ∧ settingUp.clockSet = true ∧ settingUp.mainsOk = true)
    ∧ Ready (.openDevice office) office { settingUp with mainsOk := false }
    ∧ (Ready (.setup office) office (powered (session .live 32))
      ∧ (powered (session .live 32)).power.get 6 = some (session .live 32))
    ∧ Ready (.setup office) office trading
    ∧ (State.reset.mainsOk = true ∧ trading.mainsOk = true ∧ trading.device = .opened
      ∧ (trading.pump 0).sale = none ∧ ((selling (sale .delivering) .cancel).pump 1).sale = some (sale .delivering))
    ∧ ((offMains .live).mainsOk = false ∧ (offMains .live).device = .holdover
      ∧ (offMains .live).power.get 6 = some (session .live 32) ∧ (session .live 32).held ≠ 0
      ∧ ((offMains .live).pedestal 3).cfg.installed = true)
    ∧ (offMains .suspended).power.get 6 = some (session .suspended 32) := by
  refine ⟨⟨off_mains_feeders_ok .live (by decide), off_mains_feeders_ok .suspended (by decide)⟩, ?_⟩
  and_intros <;> first | exact ready_of (by decide +kernel) | decide +kernel

theorem trading_has_no_service :
    (∀ k, trading.power.get k = none) ∧ (∀ k, trading.water.get k = none) ∧ ∀ n, (trading.pump n).sale = none := by
  refine ⟨fun k => ?_, fun k => ?_, fun n => ?_⟩ <;> simp [trading, State.reset, State.pump, coldPump]

/-- Obligations.EveryStepKeepsTheExitOpenAndTheClockSet: a step from LOADING, and one of a part that trades. -/
theorem witness_exit_law :
    (∃ t, ShoreOpen (State.reset.withPending [.mainsLost]) ∧ TradingReady (State.reset.withPending [.mainsLost])
      ∧ step (State.reset.withPending [.mainsLost]) = .next t)
    ∧ ∃ t, ShoreOpen (trading.withPending [.clockAdvance]) ∧ TradingReady (trading.withPending [.clockAdvance])
      ∧ step (trading.withPending [.clockAdvance]) = .next t := by
  refine ⟨⟨_, ?_, ?_, rfl⟩, ⟨_, ?_, ?_, rfl⟩⟩ <;> simp only [ShoreOpen, TradingReady] <;> decide +kernel

/-! ### Witnesses: valid replies, case by case -/

/-- Segment 0 waits for pedestal 3, whose reply of the kind has brought the fields after its header. -/
def said (kind : PedestalKind) (tag : Nat) (fields : List Nat) : Segment :=
  { idleSegment with
    outstanding := some { pedestal := 3, sentAt := { date := 9000, time := 43200 } }
    unpacker := { emptyUnpacker with
      byteCount := kind.replyBytes
      fields := [3, kindCode kind, tag] ++ fields ++ List.replicate (kind.format.length - fields.length - 3) 0 } }

/-- The poll that waits. -/
def asking : Poll := { pedestal := 3, sentAt := { date := 9000, time := 43200 } }

/-- Session `x` on socket 6 of a TWIN, desired as given; its reply repeats tag 1 and brings relay, limit 32, trip. -/
def telling (x : PowerSession) (d : Desired) (relay limit trip : Nat) : State :=
  powered x
    |> feeder 0 { supply 100 with
        heldSum := x.held, waitList := if x.state = .waiting then [6] else []
        relief := if x.state = .waiting then some { date := 9000, time := 43210 } else none }
    |> pedestal 3 { column .twin with tag := some 1, desired := idleTwin.put 0 d }
    |> segment 0 (said .twin 1 [relay, limit, trip, 17, 65535])
where idleTwin : Table Desired 2 := Table.build fun _ => idleDesired

def desiring (relay : Bool) : Desired := { idleDesired with relay := relay }

/-- What the reply clause of Obligations.PowerSessionsEndAndRestart asks of every case. -/
def Told (x : PowerSession) (s : State) : Prop :=
  RepeatReply 0 asking s ∧ (s.pedestal 3).cfg.kind.hasSocket 0 = true ∧ s.power.get (socketAt 3 0) = some x
    ∧ (∀ j : Fin 2, j ≠ 0 → s.power.get (socketAt 3 j) = none) ∧ s.water.get 3 = none ∧ x.held ≤ (s.feeder 0).heldSum
    ∧ (x.state ≠ .waiting → socketAt 3 0 ∉ (s.feeder 0).waitList)
    ∧ (x.state = .waiting → x.held ≠ 0 → (s.feeder 0).relief ≠ none)

def agreeing (s : State) : Prop :=
  SocketAgrees (s.pedestal 3) 0 (socketReport (s.segment 0).unpacker.fields 0).reported

/-- The same: each state, agreeing and not, at the second and the third failure, with and without a trip. -/
theorem witness_agreements_and_trips :
    (Told (session .switching 32) (telling (session .switching 32) (desiring true) 1 0 0)
      ∧ agreeing (telling (session .switching 32) (desiring true) 1 0 0))
    ∧ (Told { session .restoring 32 with confirmMisses := 1 }
        (telling { session .restoring 32 with confirmMisses := 1 } (desiring true) 0 0 0)
      ∧ ¬ agreeing (telling { session .restoring 32 with confirmMisses := 1 } (desiring true) 0 0 0))
    ∧ Told { session .switching 32 with confirmMisses := 2 }
        (telling { session .switching 32 with confirmMisses := 2 } (desiring true) 0 0 0)
    ∧ (Told (session .live 32) (telling (session .live 32) (desiring true) 1 0 0))
    ∧ (Told (session .live 32) (telling (session .live 32) (desiring true) 0 0 0)
      ∧ ¬ agreeing (telling (session .live 32) (desiring true) 0 0 0))
    ∧ (Told { session .live 32 with confirmMisses := 2 }
        (telling { session .live 32 with confirmMisses := 2 } (desiring true) 1 1 0)
      ∧ ¬ agreeing (telling { session .live 32 with confirmMisses := 2 } (desiring true) 1 1 0))
    ∧ (Told { session .closing 32 with closeReason := some .finished }
        (telling { session .closing 32 with closeReason := some .finished } (desiring false) 0 0 0)
      ∧ agreeing (telling { session .closing 32 with closeReason := some .finished } (desiring false) 0 0 0))
    ∧ Told { session .closing 0 with confirmMisses := 2 }
        (telling { session .closing 0 with confirmMisses := 2 } (desiring false) 1 0 1)
    ∧ Told (session .suspended 32) (telling (session .suspended 32) (desiring false) 0 0 0)
    ∧ Told (session .waiting 32) (telling (session .waiting 32) (desiring false) 0 0 0)
    ∧ Told (session .waiting 0) (telling (session .waiting 0) (desiring false) 1 0 1)
    ∧ Told (session .tripped 0) (telling (session .tripped 0) (desiring false) 0 0 1)
    ∧ (Told (session .live 32) (telling (session .live 32) (desiring true) 1 0 1)
      ∧ (socketReport ((telling (session .live 32) (desiring true) 1 0 1).segment 0).unpacker.fields 0).reported.trip = true)
    ∧ Told { session .closing 32 with closeReason := some .finished }
        (telling { session .closing 32 with closeReason := some .finished } (desiring false) 1 0 1)
    ∧ Told (session .suspended 32) (telling (session .suspended 32) (desiring false) 1 0 1) := by
  and_intros <;> first | decide +kernel | (simp only [agreeing, SocketAgrees]; decide +kernel)

/-- Water session `y` on a TAP, whose reply repeats tag 1 and reports the valve. -/
def flowing (y : WaterSession) (desired : Bool) (valve : Nat) : State :=
  line0 (said .tap 1 [valve, 5]) .tap |> pedestal 3 { column .tap with tag := some 1, desiredValve := desired }
    |> account 17 { guest with water := some 3 } |> water 3 y

/-- The reply clause of Obligations.WaterIsRequestedAndEnded: each state, agreeing and at a failure and the third. -/
theorem witness_valves :
    RepeatReply 0 asking (flowing (flow .opening) true 1)
    ∧ (∀ i, (flowing (flow .opening) true 1).power.get (socketAt 3 i) = none)
    ∧ (flowing (flow .opening) true 1).water.get 3 = some (flow .opening)
    ∧ (tapReport .tap ((flowing (flow .opening) true 1).segment 0).unpacker.fields).valve = true
    ∧ RepeatReply 0 asking (flowing (flow .suspended) false 0)
    ∧ RepeatReply 0 asking (flowing { flow .closing with closeReason := some .cap } false 0)
    ∧ RepeatReply 0 asking (flowing (flow .flowing) true 0)
    ∧ (tapReport .tap ((flowing (flow .flowing) true 0).segment 0).unpacker.fields).valve = false
    ∧ RepeatReply 0 asking (flowing { flow .opening with confirmMisses := 1 } true 0)
    ∧ RepeatReply 0 asking (flowing { flow .opening with confirmMisses := 2 } true 0)
    ∧ RepeatReply 0 asking (flowing { flow .closing with confirmMisses := 2 } false 1) := by
  and_intros <;> decide +kernel

/-- A pedestal with no session, whose reply brings a new tag. -/
def stray (kind : PedestalKind) (fields : List Nat) (energy water : Nat) : State :=
  line0 (said kind 1 fields) kind
    |> pedestal 3 { column kind with tag := some 0, strayEnergy := energy, strayWater := water }

/-- A FLOWING session of a TAP whose valve is desired and reported OPEN, and whose meter reports a fault. -/
def flowingMarked : State :=
  line0 (said .tap 1 [1, 65535]) .tap |> pedestal 3 { column .tap with tag := some 0, desiredValve := true }
    |> water 3 (flow .flowing)

/-- Obligations.AValidReplyIsAccountedOnce, with no session: a quantity that the counter just takes, one past it, one at a full counter, a marker, of each kind; then a marker for a session. -/
theorem witness_strays_and_markers :
    (ValidReply 0 asking (stray .tap [0, 5] 0 4294967290)
      ∧ ((stray .tap [0, 5] 0 4294967290).pedestal 3).tag
        ≠ some (replyTag ((stray .tap [0, 5] 0 4294967290).segment 0).unpacker.fields)
      ∧ (∀ i, (stray .tap [0, 5] 0 4294967290).power.get (socketAt 3 i) = none)
      ∧ ((stray .tap [0, 5] 0 4294967290).pedestal 3).link = .online ∧ 4294967290 + 5 ≤ 4294967295
      ∧ unpack (tapReport .tap ((stray .tap [0, 5] 0 4294967290).segment 0).unpacker.fields).water = some 5)
    ∧ ValidReply 0 asking (stray .tap [0, 6] 0 4294967290)
    ∧ ValidReply 0 asking (stray .tap [0, 1] 0 4294967295)
    ∧ (ValidReply 0 asking (stray .single [0, 0, 0, 0, 65535, 0, 5] 0 0)
      ∧ unpack (socketReport ((stray .single [0, 0, 0, 0, 65535, 0, 5] 0 0).segment 0).unpacker.fields 0).energy = none)
    ∧ ValidReply 0 asking (stray .twin [0, 0, 0, 0, 7, 0, 0, 0, 0, 65535, 0, 65535] 4294967290 0)
    ∧ ValidReply 0 asking (stray .power2 [0, 0, 0, 0, 7, 0, 0, 0, 0, 9] 4294967290 0)
    ∧ ((stray .twin [] 0 0).feeder 0).overload < 7
    ∧ (ValidReply 0 asking (stray .single [0, 0, 1, 3, 65535, 0, 5] 0 0 |> power 6 (session .tripped 0))
      ∧ (stray .single [0, 0, 1, 3, 65535, 0, 5] 0 0 |> power 6 (session .tripped 0)).power.get (socketAt 3 0)
        = some (session .tripped 0))
    ∧ (ValidReply 0 asking flowingMarked ∧ flowingMarked.water.get 3 = some (flow .flowing)
      ∧ (flowingMarked.pedestal 3).desiredValve = true
      ∧ (tapReport .tap (flowingMarked.segment 0).unpacker.fields).valve = true
      ∧ (flowingMarked.pedestal 3).tag ≠ some (replyTag (flowingMarked.segment 0).unpacker.fields)
      ∧ unpack (tapReport .tap (flowingMarked.segment 0).unpacker.fields).water = none) := by
  and_intros <;> decide +kernel

/-- Feeder 0 of `rating` amps with one session, on socket 8 of pedestal 4, at 70.0 A, and seven reports above its rating; the reply of the TAP beside it repeats its tag. -/
def loaded (rating : Nat) (x : PowerSession) (waiting : List SocketId) : State :=
  line0 (said .tap 1 [0, 0]) .tap |> pedestal 3 { column .tap with tag := some 1 }
    |> pedestal 4 { column .single with cfg := { (column .single).cfg with address := 4 } }
    |> power 8 { x with lastCurrent := 700 }
    |> feeder 0 { supply rating with heldSum := x.held, overload := 7, waitList := waiting }

theorem only_socket_8 (rating : Nat) (x z : PowerSession) (w : List SocketId) (m : SocketId)
    (h : LiveOn (loaded rating x w) 0 m z) : m = 8 ∧ z = { x with lastCurrent := 700 } := by
  obtain ⟨-, -, h, -⟩ := h
  by_cases e : (8 : SocketId) = m
  · subst e
    simp [loaded, power, feeder] at h
    exact ⟨rfl, h.symm⟩
  · simp [loaded, line0, pedestal, segment, power, feeder, trading, State.reset, Table.get_put_ne, e] at h

theorem socket_8_is_newest (rating : Nat) (x : PowerSession) (w : List SocketId) (P : PowerSession → Prop)
    (h : x.state = .live) (p : P { x with lastCurrent := 700 }) :
    NewestLive (loaded rating x w) 0 P 8 { x with lastCurrent := 700 } := by
  refine ⟨⟨?_, ?_, ?_, h⟩, p, fun m z l _ => ?_⟩
  · simp [loaded, pedestal, power, feeder, pedestalOf, State.pedestal, column, coldPedestal]
  · simp [loaded, pedestal, power, feeder, pedestalOf, State.pedestal, column, coldPedestal, defaultPedestal]
  · simp [loaded, power, feeder]
  · obtain ⟨rfl, rfl⟩ := only_socket_8 _ _ _ _ _ l
    exact .inr ⟨rfl, le_refl _⟩

theorem loaded_feeders_ok (rating : Nat) (x : PowerSession) (running : x.state ≠ .waiting) :
    FeedersOk (loaded rating x []) := by
  refine one_session_feeders_ok (k := 8) (x := { x with lastCurrent := 700 }) (fun m => ?_) running (fun n m h => ?_)
    (by simp [socketPresent, loaded, line0, pedestal, power, feeder, pedestalOf, positionOf, State.pedestal, column,
      coldPedestal]; rfl) (fun f => ?_) (fun f => ?_)
  · by_cases e : (8 : SocketId) = m
    · subst e; simp [loaded, power, feeder]
    · simp [loaded, line0, segment, power, feeder, pedestal, trading, State.reset, Table.get_put_ne, e]
      exact fun h => absurd h.symm e
  · simp [loaded, line0, segment, power, feeder, pedestal, trading, State.reset, coldBerth, defaultBerth] at h
  · have e : ((loaded rating x []).pedestal (pedestalOf 8)).cfg.feeder = 0 := by
      simp [loaded, line0, pedestal, power, feeder, pedestalOf, State.pedestal, column, coldPedestal, defaultPedestal]
    rw [e]
    by_cases h : (0 : FeederId) = f
    · subst h; simp [loaded, feeder]
    · simp [loaded, line0, segment, power, feeder, pedestal, trading, State.reset, Table.get_put_ne, h, coldFeeder]
  · by_cases h : (0 : FeederId) = f
    · subst h; simp [loaded, feeder]
    · simp [loaded, line0, segment, power, feeder, pedestal, trading, State.reset, Table.get_put_ne, h, coldFeeder]

/-- Obligations.AValidReplyIsAccountedOnce, the currents: a rating that the sum exceeds and one that it just meets, a grant of 63 to step down, one to shed onto a list with room and one that is full, and no LIVE session. -/
theorem witness_relief :
    ValidReply 0 asking (loaded 69 (session .live 63) [])
    ∧ FeedersOk (loaded 69 (session .live 63) [])
    ∧ ((loaded 69 (session .live 63) []).feeder 0).overload = 7
    ∧ (((feederSockets (loaded 69 (session .live 63) []) 0).map fun k =>
          match (loaded 69 (session .live 63) []).power.get k with
          | some y => if y.held = 0 then 0 else y.lastCurrent
          | none => 0).sum = 700 ∧ 69 * 10 < 700 ∧ ¬ 70 * 10 < 700)
    ∧ NewestLive (loaded 69 (session .live 63) []) 0 (fun z => z.granted = 63) 8
        { session .live 63 with lastCurrent := 700 }
    ∧ NewestLive (loaded 69 (session .live 32) []) 0 (fun _ => True) 8 { session .live 32 with lastCurrent := 700 }
    ∧ (∀ m z, LiveOn (loaded 69 (session .live 32) []) 0 m z → z.granted ≠ 63)
    ∧ ((loaded 69 (session .live 32) (List.replicate 64 9)).feeder 0).waitList.length = 64
    ∧ (∀ m z, ¬ LiveOn (loaded 69 (session .closing 32) []) 0 m z) := by
  refine ⟨?_, loaded_feeders_ok _ _ (by decide), by decide +kernel, by decide +kernel, socket_8_is_newest _ _ _ _ rfl rfl, socket_8_is_newest _ _ _ _ rfl trivial, fun m z h => ?_,
    by decide +kernel, fun m z h => ?_⟩
  · simp only [ValidReply]; decide +kernel
  · obtain ⟨-, rfl⟩ := only_socket_8 _ _ _ _ _ h; decide
  · obtain ⟨-, rfl⟩ := only_socket_8 _ _ _ _ _ h; exact absurd h.2.2.2 (by decide)

/-- R90: a stray litre at a full counter advances the edition; a quantity of 0 does not. -/
theorem test_stray_at_a_full_counter_advances_the_edition :
    ((waterDelta (stray .tap [] 0 4294967295) 3 (some 1) (stray .tap [] 0 4294967295)).pedestal 3).edition = 1
    ∧ ((waterDelta (stray .tap [] 0 4294967295) 3 (some 0) (stray .tap [] 0 4294967295)).pedestal 3).edition = 0 := by
  decide +kernel

/-! ### Witnesses: STORE, table by table -/

/-- An entry held at port O, from the place it came from. -/
def held (t : TableName) (i : Nat) (e : Entry) (s : State) : State :=
  { s with ports := s.ports.put 0 (holdingPort (some e) { table := t, index := i }) }

/-- The same, with no SAVE in flight and an idle port: what every owner's clause of STORE asks. -/
def held_ready (t : TableName) (i : Nat) (e : Entry) (s : State) : Prop :=
  Ready (.store office) office (held t i e s) ∧ (held t i e s).save = none

theorem store_is_ready (t : TableName) (i : Nat) (e : Entry) (s : State) (h : s.device = .opened) (h' : s.stopped = false)
    (h'' : s.save = none) : held_ready t i e s := by
  refine ⟨⟨rfl, ⟨h', .inl ?_⟩, rfl, rfl, ?_⟩, h''⟩
  · simp [held, State.port, office, portIx, holdingPort, loadingPort]
  · simp [held, h, admitted]

/-- Obligations.StoreChecksTheEditionThenWrites, SITE to PORT: each owner's check at its boundary, and an entry that passes. -/
theorem witness_store_settings :
    held_ready .site 0 (.site (loadedRow { defaultSite with rolloverHour := 24 })) trading
    ∧ (held_ready .site 0 (.site (loadedRow defaultSite)) { trading with rollover := some { date := 9000, cursor := 0, total := 0 } })
    ∧ (held_ready .site 0 (.site (loadedRow { defaultSite with rolloverHour := 13 })) trading
      ∧ trading.lastRollover = some 9000 ∧ trading.clock.date - 1 < 9000)
    ∧ (held_ready .site 0 (.site (loadedRow { defaultSite with rolloverHour := 12 })) trading ∧ trading.clock.time = 12 * 3600)
    ∧ (held_ready .cls 3 (.cls (loadedRow { defaultClass with floor := 1 })) trading)
    ∧ (held_ready .cls 3 (.cls (loadedRow { defaultClass with grace := 30 })) trading ∧ defaultClass.floor = 0)
    ∧ (held_ready .cls 0 (.cls (loadedRow { defaultClass with floor := -9999999 })) (only vessel) ∧ (trading.classes.get 0).edition = 0)
    ∧ held_ready .rate 95 (.rate (loadedRow 1000001)) trading
    ∧ (held_ready .hourband 23 (.hourband (loadedRow 2)) trading ∧ (trading.bands.get 23).edition = 0)
    ∧ (held_ready .level 27 (.level (loadedRow 15)) trading ∧ (trading.levels.get 27).edition = 0)
    ∧ (held_ready .port 2 (.port (loadedRow 15)) trading ∧ (trading.thresholds.get 2).edition = 0) := by
  and_intros <;> first | exact store_is_ready _ _ _ _ rfl rfl rfl | decide +kernel

/-- The same, BERTH to TANK. -/
theorem witness_store_equipment :
    held_ready .berth 3 (.berth { quay with cfg := { quay.cfg with loaMin := 199 } }) (oneBerth vessel)
    ∧ (held_ready .berth 3 (.berth { quay with state := .occupied, cfg := { quay.cfg with depth := 2000 } }) (moored 32)
      ∧ ((moored 32).berth 3).state = .occupied ∧ quay.cfg.depth ≠ 2000 ∧ ((moored 32).berth 3).edition = 0)
    ∧ (held_ready .berth 4 (.berth { coldBerth (defaultBerth 4) with cfg := { (defaultBerth 4).cfg with socket := some 0 } }) trading
      ∧ socketPresent trading 0 = false)
    ∧ (held_ready .berth 4 (.berth { coldBerth (defaultBerth 4) with cfg := { (defaultBerth 4).cfg with socket := some 6 } }) (moored 32)
      ∧ ((moored 32).berth 3).cfg.socket = some 6 ∧ socketPresent (moored 32) 6 = true)
    ∧ (held_ready .berth 5 (.berth { coldBerth (defaultBerth 5) with cfg := { (defaultBerth 5).cfg with tap := some 3 } })
        (moored 32 |> berth 4 quay) ∧ ((moored 32 |> berth 4 quay).berth 4).cfg.tap = some 3)
    ∧ held_ready .berth 511 (.berth { coldBerth (defaultBerth 511) with state := .outOfService }) trading
    ∧ (held_ready .pedestal 4 (.pedestal { column .twin with cfg := { (column .twin).cfg with segment := 1 } }) (moored 32)
      ∧ ((moored 32).pedestal 3).cfg.feeder = 0 ∧ ((moored 32).pedestal 3).cfg.segment = 0)
    ∧ (held_ready .pedestal 4 (.pedestal (column .twin)) (moored 32)
      ∧ ((moored 32).pedestal 3).cfg.address = (column .twin).cfg.address)
    ∧ (held_ready .pedestal 3 (.pedestal (column .single)) (powered (session .live 32))
      ∧ (powered (session .live 32)).power.get (socketAt 3 0) ≠ none)
    ∧ (held_ready .pedestal 3 (.pedestal (column .tap)) (moored 32) ∧ ((moored 32).berth 3).cfg.socket = some (socketAt 3 0)
      ∧ PedestalKind.tap.hasSocket 0 = false)
    ∧ (held_ready .pedestal 3 (.pedestal (column .single)) (line0 (answered []) .tap)
      ∧ ((line0 (answered []) .tap).segment 0).outstanding = some { pedestal := 3, sentAt := { date := 9000, time := 43200 } })
    ∧ held_ready .feeder 0 (.feeder (supply 1001)) (moored 32)
    ∧ (held_ready .feeder 0 (.feeder (supply 31)) (moored 32 |> feeder 0 { supply 32 with heldSum := 32 }))
    ∧ (held_ready .feeder 0 (.feeder (supply 32)) (moored 32 |> feeder 0 { supply 40 with heldSum := 32 }))
    ∧ (held_ready .feeder 0 (.feeder (supply 32)) (holding 31 [6] |> feeder 0 { supply 31 with waitList := [6] })
      ∧ (holding 31 [6]).power.get 6 = some { session .waiting 0 with granted := 0 } ∧ 31 * 100 / 100 < 32 * 100 / 100)
    ∧ held_ready .pump 1 (.pump { station with cfg := { station.cfg with maxPerSale := 200001 } }) forecourt
    ∧ (held_ready .pump 1 (.pump { station with cfg := { station.cfg with installed := false } })
        (selling (sale .delivering) .cancel) ∧ ((selling (sale .delivering) .cancel).pump 1).sale ≠ none)
    ∧ held_ready .pump 1 (.pump { station with cfg := { station.cfg with installed := false, maxPerSale := 200000 } }) forecourt
    ∧ held_ready .tank 1 (.tank { cistern with cfg := { cistern.cfg with reserve := 1000001 } }) forecourt
    ∧ (held_ready .tank 1 (.tank { cistern with cfg := { cistern.cfg with capacity := 499999 } }) forecourt
      ∧ (forecourt.tank 1).book = 500000)
    ∧ held_ready .tank 1 (.tank { cistern with cfg := { cistern.cfg with capacity := 500000 } }) forecourt := by
  and_intros <;> first | exact store_is_ready _ _ _ _ rfl rfl rfl | decide +kernel

/-- What the passing entries of BERTH, PEDESTAL, FORMAT and CRED ask of the others: nothing named, installed, enabled or active. -/
theorem trading_names_nothing :
    (∀ n, (trading.berth n).cfg.socket = none ∧ (trading.berth n).cfg.tap = none)
    ∧ (∀ n, (trading.pedestal n).cfg.installed = false)
    ∧ (∀ j, (trading.formats.get j).val.enabled = false) ∧ (∀ d, (trading.cred d).state = .free)
    ∧ (∀ k, trading.power.get k = none) ∧ ∀ k, trading.water.get k = none := by
  refine ⟨fun n => ?_, fun n => ?_, fun j => ?_, fun d => ?_, fun k => ?_, fun k => ?_⟩ <;>
    simp [trading, State.reset, State.berth, State.pedestal, State.cred, coldBerth, defaultBerth, coldPedestal,
      defaultPedestal, loadedRow, defaultFormat, coldCredential]

/-- The same, FORMAT to ACCOUNT. -/
theorem witness_store_people :
    held_ready .format 7 (.format (loadedRow { wiegand with length := 25 })) trading
    ∧ (held_ready .format 7 (.format (loadedRow wiegand)) (swiped 2 bits)
      ∧ ((swiped 2 bits).formats.get 0).val.enabled = true ∧ ((swiped 2 bits).formats.get 0).val.length = wiegand.length)
    ∧ held_ready .format 7 (.format (loadedRow wiegand)) trading
    ∧ held_ready .access 255 (.access (loadedRow { defaultAccess with endHour := 24 })) trading
    ∧ held_ready .access 255 (.access (loadedRow { defaultAccess with endHour := 23 })) trading
    ∧ held_ready .gate 1 (.gate { lockedGate 1 with cfg := { (defaultGate 1) with kind := .shore } }) trading
    ∧ (held_ready .gate 1 (.gate { lockedGate 1 with cfg := { (defaultGate 1) with release := 30 } }) trading
      ∧ (defaultGate 1).mode = .normal ∧ (defaultGate 1).kind ≠ .shore)
    ∧ held_ready .gate 0 (.gate { lockedGate 0 with cfg := { (defaultGate 0) with mode := .outOfService } }) trading
    ∧ (held_ready .cred 1023 (.cred { card with account := none }) trading ∧ card.kind = .vessel)
    ∧ (held_ready .cred 1023 (.cred card) trading ∧ (trading.account 17).state = .free)
    ∧ (held_ready .cred 1023 (.cred card) (swiped 2 bits) ∧ ((swiped 2 bits).cred 5).key = card.key
      ∧ ((swiped 2 bits).cred 5).state = .active)
    ∧ (held_ready .cred 1023 (.cred card) (only { vessel with credentials := [1, 2, 3, 4] })
      ∧ ((only { vessel with credentials := [1, 2, 3, 4] }).account 17).credentials.length = 4)
    ∧ (held_ready .cred 1023 (.cred card) (only { vessel with credentials := [1, 2, 3] })
      ∧ ((only vessel).cred 1023).edition = card.edition)
    ∧ held_ready .account 17 (.account { vessel with name := "A", loa := 199 }) (only vessel)
    ∧ (held_ready .account 17 (.account { guest with name := "A", beam := 101 }) (moored 32) ∧ guest.state = .berthed)
    ∧ (held_ready .account 17 (.account { vessel with name := "A", loa := 12000 }) (only vessel))
    ∧ (held_ready .account 17 (.account { vessel with name := "A", cls := 3 })
        (only { vessel with balance := -1, standing := .arrears })
      ∧ ((only vessel).classes.get 3).val.floor = 0) := by
  and_intros <;> first | exact store_is_ready _ _ _ _ rfl rfl rfl | decide +kernel

end Sys2Proof.Tests
end

/-! ## Money and standing through every command (O23, O24)

Each owner and each event is shown once to keep the laws of money and standing; the commands are then gone through one by one. -/

namespace Sys2Proof.Machine

/-! ### The relation that every command keeps -/

/-- From `s` to `t` the laws of money (R5, R8, R57, R70), of the class floors (R4) and, where the floors hold, of standing (R9) are kept. -/
structure KeepsAccounts (s t : State) : Prop where
  money : MoneyOk s → MoneyOk t
  floors : FloorsOk s → FloorsOk t
  standing : FloorsOk s → StandingsOk s → StandingsOk t

theorem KeepsAccounts.trans {s t u : State} (h : KeepsAccounts s t) (k : KeepsAccounts t u) : KeepsAccounts s u where
  money w := k.money (h.money w)
  floors f := k.floors (h.floors f)
  standing f w := k.standing (h.floors f) (h.standing f w)

/-- A relation under which the classes stay and the two laws of accounts are kept. -/
theorem KeepsAccounts.of_classes {s t : State} (hc : t.classes = s.classes) (hm : MoneyOk s → MoneyOk t)
    (hs : StandingsOk s → StandingsOk t) : KeepsAccounts s t :=
  ⟨hm, fun f => by unfold FloorsOk; rw [hc]; exact f, fun _ => hs⟩

/-- A change of neither accounts nor classes. -/
theorem KeepsAccounts.same {s t : State} (ha : t.accounts = s.accounts) (hc : t.classes = s.classes) :
    KeepsAccounts s t :=
  .of_classes hc (fun w => by unfold MoneyOk; rw [ha]; exact w)
    (fun w => by unfold StandingsOk State.classOf; rw [ha, hc]; exact w)

theorem KeepsAccounts.refl (s : State) : KeepsAccounts s s := .same rfl rfl

theorem Fuelled.keepsAccounts {s t : State} (h : Fuelled s t) : KeepsAccounts s t :=
  .of_classes (by rw [h.eq]) h.money h.standing

theorem Worked.keepsAccounts {s t : State} (h : Worked s t) : KeepsAccounts s t := h.fuelled.keepsAccounts

theorem Served.keepsAccounts {s t : State} (h : Served s t) : KeepsAccounts s t := h.worked.keepsAccounts

/-- A command line keeps the laws when its owner does. -/
theorem portCommand_keepsAccounts {i : Instr} {o : Origin} {ports : List PortId} {adm : Admission}
    {owner : State → Answer} {s : State} (ho : ∀ {t lines}, owner s = .ok (t, lines) → KeepsAccounts s t) :
    KeepsAccounts s (portCommand i o ports adm owner s) :=
  portCommand_keeps (fun _ _ h => h.trans (.same rfl rfl)) ho (.refl s)

theorem event_keepsAccounts {f : State → State} {s : State} (hf : KeepsAccounts s (f s)) :
    KeepsAccounts s (event f s) := event_keeps (fun _ => hf) (.refl s)

/-! ### Vessel accounts (01) -/

/-- An owner that answers DONE leaves the state it names. -/
theorem done_eq {s t : State} {items : List Item} {lines : List ReplyLine} (h : done s items = .ok (t, lines)) :
    t = s ∧ lines = [.done items] := by cases h; exact ⟨rfl, rfl⟩

/-- An opened account has balance 0, which no floor exceeds (R4), and is GOOD. -/
theorem openThis_keepsAccounts {a : AccountId} {s t : State} {lines : List ReplyLine}
    (h : openThis a s = .ok (t, lines)) : KeepsAccounts s t := by
  obtain ⟨rfl, -⟩ := done_eq h
  refine ⟨fun w => putAccount_moneyOk ?_ w, fun f => f, fun f w => putAccount_standing (fun _ => ?_) fun i _ => w i⟩
  · exact ⟨(by decide : -Config.balanceLimit ≤ 0), (by decide : 0 ≤ Config.balanceLimit),
      fun v => by simp [openedAccount, Config.residueUnit], Nat.zero_le _, Nat.zero_le _⟩
  · exact (if_neg (Int.not_lt.2 (f _))).symm

theorem openAccountOwner_keepsAccounts {n : Option Nat} {s t : State} {lines : List ReplyLine}
    (h : openAccountOwner n s = .ok (t, lines)) : KeepsAccounts s t := by
  unfold openAccountOwner at h
  split at h
  · split at h
    · cases h
    · exact openThis_keepsAccounts h
  · split at h
    · cases h
    · split at h
      · exact openThis_keepsAccounts h
      · cases h

/-- The common checks of the account commands pass an owner's state on. -/
theorem onOpenAccount_ok {n : Nat} {f : AccountId → State → Answer} {s t : State} {lines : List ReplyLine}
    (h : onOpenAccount n f s = .ok (t, lines)) : ∃ a, (s.account a).state ≠ .free ∧ f a s = .ok (t, lines) := by
  unfold onOpenAccount at h
  split at h
  · cases h
  · split at h
    · cases h
    · exact ⟨_, ‹_›, h⟩

theorem onAccount_ok {n : Nat} {f : AccountId → State → Answer} {s t : State} {lines : List ReplyLine}
    (h : onAccount n f s = .ok (t, lines)) : ∃ a, f a s = .ok (t, lines) := by
  unfold onAccount at h
  split at h
  · cases h
  · exact ⟨_, h⟩

/-- What CLOSE_ACCOUNT answers DONE with (R14). -/
theorem closeThis_ok {a : AccountId} {s t : State} {lines : List ReplyLine} (h : closeThis a s = .ok (t, lines)) :
    t = modAccount s a closedAccount (revokeAll s a s) := by
  unfold closeThis done at h
  dsimp only at h
  repeat' split at h
  all_goals cases h <;> rfl

theorem closeThis_keepsAccounts {a : AccountId} {s t : State} {lines : List ReplyLine}
    (h : closeThis a s = .ok (t, lines)) : KeepsAccounts s t := by
  rw [closeThis_ok h]
  refine (modAccount_worked s a closedAccount (fun q => ?_) (fun _ hf => absurd rfl hf)
    (revokeAll_worked s a (.refl s))).keepsAccounts
  obtain ⟨hlo, hhi, -, hn, -⟩ := q
  exact ⟨hlo, hhi, fun v => by simp [closedAccount, Config.residueUnit], hn, Nat.zero_le _⟩

/-- An account written with a balance within its limits, and evaluated. -/
theorem putThenEvaluate_keepsAccounts (a : AccountId) (x : Account) (s : State)
    (hm : (s.account a).moneyOk → x.moneyOk) : KeepsAccounts s (evaluateStanding s a (putAccount s a x s)) :=
  (evaluateStanding_unevaluated s a (putAccount_unevaluated s a x hm (.refl s))).keepsAccounts

theorem creditThis_keepsAccounts {n : Nat} {a : AccountId} {s t : State} {lines : List ReplyLine}
    (h : creditThis n a s = .ok (t, lines)) : KeepsAccounts s t := by
  unfold creditThis at h
  dsimp only at h
  split at h
  · cases h
  · split at h
    · cases h
    · next hl =>
      obtain ⟨rfl, -⟩ := done_eq h
      refine putThenEvaluate_keepsAccounts a _ s fun ⟨hlo, _, hr, hn⟩ => ⟨?_, Int.not_lt.1 hl, hr, hn⟩
      show -Config.balanceLimit ≤ (s.account a).balance + (n : Int)
      omega

theorem debitThis_keepsAccounts {n : Nat} {a : AccountId} {s t : State} {lines : List ReplyLine}
    (h : debitThis n a s = .ok (t, lines)) : KeepsAccounts s t := by
  unfold debitThis at h
  dsimp only at h
  split at h
  · cases h
  · obtain ⟨rfl, -⟩ := done_eq h
    exact (debitAccount_worked s a n (.refl s)).keepsAccounts

theorem barThis_keepsAccounts {a : AccountId} {s t : State} {lines : List ReplyLine}
    (h : barThis a s = .ok (t, lines)) : KeepsAccounts s t := by
  unfold barThis at h
  dsimp only at h
  split at h <;> obtain ⟨rfl, -⟩ := done_eq h
  · exact .refl _
  · exact putThenEvaluate_keepsAccounts a _ s fun q => q

theorem unbarThis_keepsAccounts {a : AccountId} {s t : State} {lines : List ReplyLine}
    (h : unbarThis a s = .ok (t, lines)) : KeepsAccounts s t := by
  unfold unbarThis at h
  dsimp only at h
  split at h <;> obtain ⟨rfl, -⟩ := done_eq h
  · exact putThenEvaluate_keepsAccounts a _ s fun q => q
  · exact .refl _

/-! ### Berths (03) -/

/-- A change of an account that is not FREE in its state, berth and dates alone. -/
theorem modAccount_berthed {s t : State} (b : State) (a : AccountId) (f : Account → Account)
    (hf : ∀ x, f x = { x with
      state := (f x).state, berth := (f x).berth, arrival := (f x).arrival, planned := (f x).planned
      lastCharged := (f x).lastCharged, nights := (f x).nights })
    (hn : ∀ x, (f x).nights ≤ x.nights) (ho : (t.account a).state ≠ .free) (h : Worked s t) :
    Worked s (modAccount b a f t) := by
  refine modAccount_worked b a f (fun ⟨hlo, hhi, hr, hx, ha⟩ => ?_) (fun w _ => ?_) h
  · have hn' := hn (t.account a)
    rw [hf] at hn' ⊢
    exact ⟨hlo, hhi, hr, hn'.trans hx, ha⟩
  · rw [hf]; exact w ho

theorem makeReservation_worked {s t : State} (b : State) (a : AccountId) (n : BerthId) (d : Int) (p : Option Int)
    (ho : (t.account a).state ≠ .free) (h : Worked s t) : Worked s (makeReservation b a n d p t) := by
  cases p <;> exact modAccount_berthed b a _ (fun _ => rfl) (fun _ => le_rfl) ho (putBerth_worked b n _ h)

theorem makeArrival_worked {s t : State} (b : State) (a : AccountId) (n : BerthId) (p : Option Int)
    (ho : (t.account a).state ≠ .free) (h : Worked s t) : Worked s (makeArrival b a n p t) := by
  refine raise_worked _ _ ?_
  cases p <;> exact modAccount_berthed b a _ (fun _ => rfl) (fun _ => Nat.zero_le _) ho (putBerth_worked b n _ h)

theorem allocateOwner_keepsAccounts {n : Nat} {ps : Pontoons} {d : DateField} {p : Option DateField} {s t : State}
    {lines : List ReplyLine} (h : allocateOwner n ps d p s = .ok (t, lines)) : KeepsAccounts s t := by
  unfold allocateOwner at h
  split at h
  · split at h
    · cases h
    · split at h
      · cases h
      · next ho =>
        split at h
        · cases h
        · obtain ⟨rfl, -⟩ := done_eq h
          exact (makeReservation_worked s _ _ _ _ (by rw [not_not.1 ho]; decide) (.refl s)).keepsAccounts
  · cases h

theorem reserveOwner_keepsAccounts {n m : Nat} {d : DateField} {p : Option DateField} {force : Bool} {s t : State}
    {lines : List ReplyLine} (h : reserveOwner n m d p force s = .ok (t, lines)) : KeepsAccounts s t := by
  unfold reserveOwner done at h
  split at h
  · split at h
    · cases h
    · split at h
      · cases h
      · next ho =>
        repeat' split at h
        all_goals cases h
        exact (makeReservation_worked s _ _ _ _ (by rw [not_not.1 ho]; decide) (.refl s)).keepsAccounts
  · cases h

theorem cancelThis_keepsAccounts {a : AccountId} {s t : State} {lines : List ReplyLine}
    (h : cancelThis a s = .ok (t, lines)) : KeepsAccounts s t := by
  unfold cancelThis at h
  split at h
  · next hs _ =>
    obtain ⟨rfl, -⟩ := done_eq h
    exact (releaseReservation_worked s a _ (by rw [hs]; decide) (.refl s)).keepsAccounts
  · cases h

/-- ARRIVE takes a berth only for an account that is not FREE (R51). -/
theorem arrivalBerth_ok {s : State} {a : AccountId} {given : Option BerthId} {force : Bool} {n : BerthId}
    (h : arrivalBerth s a given force = .ok n) : (s.account a).state ≠ .free := by
  intro e
  simp [arrivalBerth, e] at h

theorem arriveOwner_keepsAccounts {n : Nat} {m : Option Nat} {p : Option DateField} {force : Bool} {s t : State}
    {lines : List ReplyLine} (h : arriveOwner n m p force s = .ok (t, lines)) : KeepsAccounts s t := by
  unfold arriveOwner at h
  split at h
  · split at h
    · cases h
    · next hb =>
      obtain ⟨rfl, -⟩ := done_eq h
      exact (makeArrival_worked s _ _ _ (arrivalBerth_ok hb) (.refl s)).keepsAccounts
  · cases h

theorem moveThis_keepsAccounts {a : AccountId} {m : BerthId} {force : Bool} {s t : State} {lines : List ReplyLine}
    (h : moveThis a m force s = .ok (t, lines)) : KeepsAccounts s t := by
  unfold moveThis done at h
  dsimp only at h
  split at h
  · next hs _ =>
    repeat' split at h
    all_goals cases h
    have ho : (s.account a).state ≠ .free := by rw [hs]; decide
    exact (modAccount_berthed s a (fun y => { y with berth := some m }) (fun _ => rfl) (fun _ => le_rfl) (by exact ho)
      (putBerth_worked s m _ (freeBerth_worked s _ (.refl s)))).keepsAccounts
  · cases h

theorem moveOwner_keepsAccounts {n m : Nat} {force : Bool} {s t : State} {lines : List ReplyLine}
    (h : moveOwner n m force s = .ok (t, lines)) : KeepsAccounts s t := by
  unfold moveOwner at h
  split at h
  · exact moveThis_keepsAccounts h
  · cases h

/-- A charge leaves the state of its account (R6). -/
theorem applyCharge_state (b : State) (a : AccountId) (v : Service) (cents residue : Nat) (s : State) :
    ((applyCharge b a v cents residue s).account a).state = (s.account a).state := by
  have h := congrArg Account.state (debitAccount_account b cents (modAccount_written b a
    (fun x => { x with residues := x.residues.put (serviceIx v) residue }) s)).1
  exact h

theorem chargeNights_state (b : State) (a : AccountId) (day : Int) (d : Band) (s : State) :
    ((chargeNights b a day d s).account a).state = (s.account a).state := by
  unfold chargeNights
  dsimp only
  split
  · rfl
  · rw [modAccount_account, if_pos rfl, Account.settled_state]
    exact applyCharge_state ..

theorem charge_state (b : State) (a : AccountId) (v : Service) (q : Nat) (d : Band) (s : State) :
    ((charge b a v q d s).account a).state = (s.account a).state := applyCharge_state ..

/-- The settlement of a stay leaves the state of its account (R57). -/
theorem settleStay_state (b : State) (a : AccountId) (s : State) :
    ((settleStay b a s).1.account a).state = (s.account a).state := by
  unfold settleStay
  dsimp only
  split
  · exact (charge_state ..).trans (chargeNights_state ..)
  · exact chargeNights_state ..

theorem closeSessions_served {s t : State} (b : State) (a : AccountId) (h : Served s t) :
    Served s (closeSessions b a t) :=
  toWater_served a (fun _ _ w => closeWater_served _ _ _ _ w) (toPower_served a (fun _ _ w => closePower_served _ _ _ _ w) h)

theorem departThis_keepsAccounts {a : AccountId} {s t : State} {lines : List ReplyLine}
    (h : departThis a s = .ok (t, lines)) : KeepsAccounts s t := by
  unfold departThis at h
  split at h
  · next hs _ =>
    split at h
    · cases h
    · have hu := settleStay_worked s a (.refl s)
      have hstate := settleStay_state s a s
      dsimp only at h
      generalize settleStay s a s = settled at h hu hstate
      obtain ⟨rfl, -⟩ := done_eq h
      refine (completeDeparture_worked s a _ _ ?_ (closeSessions_worked s a hu)).keepsAccounts
      rw [(closeSessions_served s a (.refl _)).links a]
      show (settled.1.account a).state ≠ _
      rw [hstate, hs]; decide
  · cases h

end Sys2Proof.Machine

namespace Sys2Proof.Machine

/-! ### Clock and rollover (04) -/

theorem testRollover_keepsAccounts {s t : State} (h : KeepsAccounts s t) : KeepsAccounts s (testRollover t) :=
  h.trans (.same (by rw [testRollover_eq]) (by rw [testRollover_eq]))

theorem setClockOwner_keepsAccounts {d : DateField} {c : TimeField} {s t : State} {lines : List ReplyLine}
    (h : setClockOwner d c s = .ok (t, lines)) : KeepsAccounts s t := by
  unfold setClockOwner done at h
  dsimp only at h
  repeat' split at h
  all_goals cases h
  exact testRollover_keepsAccounts (.same rfl rfl)

theorem rolloverStep_keepsAccounts (s : State) : KeepsAccounts s (rolloverStep s) := by
  unfold rolloverStep
  split
  · exact .refl s
  · split
    · exact .refl s
    · exact (stepAccount_worked s _ _ (.refl s)).keepsAccounts.trans (.same rfl rfl)

theorem rolloverComplete_keepsAccounts (s : State) : KeepsAccounts s (rolloverComplete s) := by
  unfold rolloverComplete
  split
  · exact .refl s
  · split
    · exact testRollover_keepsAccounts (.same (by rw [raise_accounts]) (by rw [raise_classes]))
    · exact .refl s

/-! ### Pontoon bus (05) -/

theorem pollDue_keepsAccounts (g : SegmentId) (s : State) : KeepsAccounts s (pollDue g s) := by
  unfold pollDue; split <;> exact .same rfl rfl

theorem pollSend_keepsAccounts (g : SegmentId) (s : State) : KeepsAccounts s (pollSend g s) := by
  unfold pollSend; dsimp only
  split
  · split <;> exact .same rfl rfl
  · exact .refl s

theorem putSegment_keepsAccounts (g : SegmentId) (x : Segment) (s : State) : KeepsAccounts s (putSegment g x s) :=
  .same rfl rfl

theorem lineBusy_keepsAccounts (g : SegmentId) (s : State) : KeepsAccounts s (lineBusy g s) := by
  unfold lineBusy; dsimp only
  split
  · split
    · exact .refl s
    · exact (putSegment_keepsAccounts ..).trans (miss_worked _ _ (.refl _)).keepsAccounts
  · exact .refl s

theorem pedestalReply_keepsAccounts (g : SegmentId) (s : State) : KeepsAccounts s (pedestalReply g s) := by
  unfold pedestalReply; dsimp only
  split
  · exact .refl s
  · split
    · exact .refl s
    · refine (putSegment_keepsAccounts g (s.segment g).closed s).trans ?_
      split
      · exact (deliver_worked _ _ (.refl _)).keepsAccounts
      · exact (miss_worked _ _ (.refl _)).keepsAccounts

theorem noReply_keepsAccounts (g : SegmentId) (s : State) : KeepsAccounts s (noReply g s) := by
  unfold noReply; dsimp only
  split
  · exact .refl s
  · split
    · exact (putSegment_keepsAccounts ..).trans (miss_worked _ _ (.refl _)).keepsAccounts
    · exact .refl s

theorem replyByte_keepsAccounts (g : SegmentId) (byte : Byte) (s : State) : KeepsAccounts s (replyByte g byte s) := by
  unfold replyByte; dsimp only
  split
  · exact .refl s
  · split <;> exact .same rfl rfl

/-! ### Shore power and water (06) -/

theorem reliefExpiry_served (f : FeederId) (s : State) : Served s (reliefExpiry f s) := by
  unfold reliefExpiry
  split
  · exact .refl s
  · exact serve_served s f (modFeeder_served s f _ (fun _ => rfl) (.refl s))

theorem requestPower_served {s t u : State} {b : State} {a : AccountId} {w : Rating} {items : List Item}
    (h : requestPower b a w t = .ok (u, items)) (k : Served s t) : Served s u := by
  unfold requestPower at h
  split at h
  · cases h
  · split at h
    · cases h
    · next ha =>
      cases h
      exact modAccount_served b a _ (fun _ => rfl) (enterAdmission_served b _ _ ha k)

theorem requestPowerOwner_served {n w : Nat} {s t : State} {lines : List ReplyLine}
    (h : requestPowerOwner n w s = .ok (t, lines)) : Served s t := by
  unfold requestPowerOwner at h
  split at h
  · split at h
    · cases h
    · split at h
      · cases h
      · next hr =>
        obtain ⟨rfl, -⟩ := done_eq h
        exact requestPower_served hr (.refl s)
  · cases h

theorem resetTripped_served {s t : State} (b : State) (k : SocketId) (x : PowerSession) (h : Served s t) :
    Served s (resetTripped b k x t).1 := by
  have he := endPower_served b k .reset h
  unfold resetTripped; dsimp only
  split
  · split
    · exact he
    · next hr => exact requestPower_served hr he
  · exact he

theorem resetSocketOwner_served {n : Nat} {s t : State} {lines : List ReplyLine}
    (h : resetSocketOwner n s = .ok (t, lines)) : Served s t := by
  unfold resetSocketOwner resetSocketThis done at h
  have hc : ∀ k, Served s (requestClearTrip s k s) := fun k => modPedestal_served s _ _ (fun _ => rfl) (.refl s)
  repeat' split at h
  all_goals cases h
  · exact hc _
  · exact resetTripped_served s _ _ (hc _)

theorem endPowerOwner_served {n : Nat} {s t : State} {lines : List ReplyLine}
    (h : endPowerOwner n s = .ok (t, lines)) : Served s t := by
  unfold endPowerOwner done at h
  repeat' split at h
  all_goals cases h
  exact closePower_served s _ _ _ (.refl s)

theorem requestWaterOwner_served {n : Nat} {s t : State} {lines : List ReplyLine}
    (h : requestWaterOwner n s = .ok (t, lines)) : Served s t := by
  unfold requestWaterOwner requestWaterThis done at h
  dsimp only at h
  repeat' split at h
  all_goals cases h
  exact modAccount_served s _ _ (fun _ => rfl) (putWater_served s _ _ (.refl s))

theorem endWaterOwner_served {n : Nat} {s t : State} {lines : List ReplyLine}
    (h : endWaterOwner n s = .ok (t, lines)) : Served s t := by
  unfold endWaterOwner done at h
  repeat' split at h
  all_goals cases h
  exact closeWater_served s _ _ _ (.refl s)

/-! ### Fuel dock (07) -/

theorem authorise_keepsAccounts (b : State) (n : PumpId) (x : Sale) (s : State) :
    KeepsAccounts s (authorise b n x s) := by
  have hs : KeepsAccounts s { s with saleCounter := s.saleCounter + 1 } := .same rfl rfl
  exact hs.trans (putPump_fuelled b n _ (Fuelled.worked (settleLow_fuelled b x.product _ (.refl _))
    (holdMoney_worked b x.buyer n x.moneyHold (.refl _)))).keepsAccounts

theorem sellOwner_keepsAccounts {n : Nat} {k : SellKind} {p : Option Preset} {s t : State} {lines : List ReplyLine}
    (h : sellOwner n k p s = .ok (t, lines)) : KeepsAccounts s t := by
  unfold sellOwner done at h
  dsimp only at h
  repeat' split at h
  all_goals cases h
  exact authorise_keepsAccounts ..

theorem pumpPoll_keepsAccounts (s : State) : KeepsAccounts s (pumpPoll s) := by
  unfold pumpPoll
  split
  · split <;> exact .same rfl rfl
  · exact .refl s

theorem pumpReply_keepsAccounts (bytes : List Byte) (s : State) : KeepsAccounts s (pumpReply bytes s) := by
  unfold pumpReply; dsimp only
  split
  · exact .refl s
  · refine .trans (t := { s with pumpLine := { s.pumpLine with outstanding := none } }) (.same rfl rfl) ?_
    split
    · exact (pumpMiss_fuelled _ _ (.refl _)).keepsAccounts
    · exact (pumpAnswer_fuelled _ _ (.refl _)).keepsAccounts

theorem noLiftExpiry_fuelled (n : PumpId) (s : State) : Fuelled s (noLiftExpiry n s) := by
  unfold noLiftExpiry
  split
  · exact .refl s
  · split
    · exact endSale_fuelled s n _ _ (.refl s)
    · exact .refl s

theorem stallExpiry_fuelled (n : PumpId) (s : State) : Fuelled s (stallExpiry n s) := by
  unfold stallExpiry
  split
  · exact .refl s
  · split
    · exact requestStop_fuelled s n _ _ (.refl s)
    · exact .refl s

theorem stopSaleOwner_fuelled {n : Nat} {s t : State} {lines : List ReplyLine}
    (h : stopSaleOwner n s = .ok (t, lines)) : Fuelled s t := by
  unfold stopSaleOwner stopSaleThis done at h
  repeat' split at h
  all_goals cases h
  · exact requestStop_fuelled s _ _ _ (.refl s)
  · exact .refl _
  · exact endSale_fuelled s _ _ _ (.refl s)

/-- SALE, LIST and the like answer from the state and leave it. -/
theorem saleOwner_eq {n : Nat} {s t : State} {lines : List ReplyLine} (h : saleOwner n s = .ok (t, lines)) : t = s := by
  unfold saleOwner done at h
  repeat' split at h
  all_goals cases h <;> rfl

theorem tankDipOwner_fuelled {n v : Nat} {s t : State} {lines : List ReplyLine}
    (h : tankDipOwner n v s = .ok (t, lines)) : Fuelled s t := by
  unfold tankDipOwner dipThis at h
  dsimp only at h
  split at h
  · cases h
  · split at h
    · cases h
    · obtain ⟨rfl, -⟩ := done_eq h
      refine settleLow_fuelled s _ _ ?_
      split
      · exact raise_fuelled _ _ (.refl s)
      · exact .refl s

theorem tankFillOwner_fuelled {n v : Nat} {s t : State} {lines : List ReplyLine}
    (h : tankFillOwner n v s = .ok (t, lines)) : Fuelled s t := by
  unfold tankFillOwner fillThis at h
  dsimp only at h
  split at h
  · obtain ⟨rfl, -⟩ := done_eq h
    exact settleLow_fuelled s _ _ (.refl s)
  · cases h

/-! ### Gates and credentials (08) -/

/-- A refusal writes the passage log and raises its notice. -/
theorem refusePassage_keepsAccounts (r : ReaderId) (g : GateResult) (w : Passer) (c : Option CredId) (s : State) :
    KeepsAccounts s (refusePassage r g w c s) :=
  .trans (t := logPassage r g w s) (.same rfl rfl) (raise_served _ _ (.refl _)).keepsAccounts

theorem decidePassage_keepsAccounts (r : ReaderId) (i : ReaderInput) (s : State) :
    KeepsAccounts s (decidePassage r i s) := by
  unfold decidePassage; dsimp only
  split
  · exact refusePassage_keepsAccounts ..
  · exact refusePassage_keepsAccounts ..
  · split
    · exact .same rfl rfl
    · exact refusePassage_keepsAccounts ..

theorem exitPassage_keepsAccounts (i : ReaderInput) (s : State) : KeepsAccounts s (exitPassage i s) := by
  unfold exitPassage; split <;> exact .same rfl rfl

theorem credentialEnded_keepsAccounts (r : ReaderId) (s : State) : KeepsAccounts s (credentialEnded r s) := by
  have hp : KeepsAccounts s (putReader r emptyReader s) := .same rfl rfl
  unfold credentialEnded; dsimp only
  split
  · exact .refl s
  · split
    · split
      · exact hp.trans (.same rfl rfl)
      · exact hp.trans (exitPassage_keepsAccounts ..)
    · split
      · exact hp
      · exact hp.trans (decidePassage_keepsAccounts ..)

theorem readerPulse_keepsAccounts (r : ReaderId) (b : Bool) (s : State) : KeepsAccounts s (readerPulse r b s) := by
  unfold readerPulse; split <;> exact .same rfl rfl

theorem releaseExpiry_keepsAccounts (g : GateId) (s : State) : KeepsAccounts s (releaseExpiry g s) := by
  unfold releaseExpiry; dsimp only; split <;> exact .same rfl rfl

theorem holdGateOwner_keepsAccounts {n : Nat} {m : GateMode} {s t : State} {lines : List ReplyLine}
    (h : holdGateOwner n m s = .ok (t, lines)) : KeepsAccounts s t := by
  unfold holdGateOwner at h
  split at h
  · cases h
  · obtain ⟨rfl, -⟩ := done_eq h
    exact .same rfl rfl

/-- A change of an account's list of credentials. -/
theorem modCredentials_worked {s t : State} (b : State) (a : AccountId) (f : Account → Account)
    (hf : ∀ x, f x = { x with credentials := (f x).credentials }) (h : Worked s t) : Worked s (modAccount b a f t) := by
  refine modAccount_worked b a f (fun q => ?_) (fun w => ?_) h <;> rw [hf]
  · exact q
  · exact w

theorem unlist_worked {s t : State} (b : State) (c : CredId) (a : AccountId) (h : Worked s t) :
    Worked s (unlist b c a t) := modCredentials_worked b a _ (fun _ => rfl) h

theorem enlist_worked {s t : State} (b : State) (c : CredId) (a : AccountId) (h : Worked s t) :
    Worked s (enlist b c a t) := modCredentials_worked b a _ (fun x => by split <;> rfl) h

theorem relist_worked {s t : State} (b : State) (c : CredId) (old new : Option AccountId) (h : Worked s t) :
    Worked s (relist b c old new t) := by
  have ho : Worked s (match old with
      | none => t
      | some a => if new = some a then t else unlist b c a t) := by
    split
    · exact h
    · split
      · exact h
      · exact unlist_worked b c _ h
  unfold relist; dsimp only
  split
  · exact ho
  · exact enlist_worked b c _ ho

theorem revokeOwner_worked {n : Nat} {s t : State} {lines : List ReplyLine}
    (h : revokeOwner n s = .ok (t, lines)) : Worked s t := by
  have hr : ∀ c, Worked s (revokeOne s c s) := fun c => putCred_worked s c _ (.refl s)
  unfold revokeOwner done at h
  dsimp only at h
  repeat' split at h
  all_goals cases h
  · exact hr _
  · exact unlist_worked s _ _ (hr _)

theorem clearPassbackOwner_worked {n : Nat} {s t : State} {lines : List ReplyLine}
    (h : clearPassbackOwner n s = .ok (t, lines)) : Worked s t := by
  unfold clearPassbackOwner done at h
  repeat' split at h
  all_goals cases h
  exact putCred_worked s _ _ (.refl s)

end Sys2Proof.Machine

namespace Sys2Proof.Machine

/-! ### Standings, account after account -/

/-- A step at each record in turn that makes `Q` of its own record out of `R`, and keeps both of every record, makes `Q` of all. -/
theorem eachId_makes {n : Nat} {f : Fin n → State → State} {R Q : State → Fin n → Prop}
    (makes : ∀ i s, R s i → Q (f i s) i) (keepsR : ∀ i j s, R s j → R (f i s) j) (keepsQ : ∀ i j s, Q s j → Q (f i s) j)
    {s : State} (h : ∀ i, R s i) (i : Fin n) : Q (eachId n f s) i := by
  have key : ∀ (ids : List (Fin n)) (t : State), (∀ j, R t j) → (i ∈ ids ∨ Q t i) → Q (eachOf ids f t) i := by
    intro ids
    induction ids with
    | nil => exact fun t _ hq => hq.resolve_left (by simp)
    | cons j rest ih =>
      intro t hr hq
      refine ih (f j t) (fun k => keepsR j k t (hr k)) ?_
      rcases hq with hq | hq
      · rcases List.mem_cons.1 hq with rfl | hq
        · exact .inr (makes _ t (hr _))
        · exact .inl hq
      · exact .inr (keepsQ j i t hq)
  exact key _ s h (.inl (List.mem_finRange i))

/-- An evaluation makes the standing of its account the one R9 gives. -/
theorem evaluateStanding_makes (b : State) (a : AccountId) (s : State) : standingOkAt (evaluateStanding b a s) a := by
  rcases evaluateStanding_cases b a s with ⟨e, w⟩ | w
  · rw [e]
    exact fun hf => w.resolve_left hf
  · refine w.standingOkAt a ?_
    unfold standingOkAt
    rw [putAccount_account, if_pos rfl]
    exact fun _ => rfl

/-- An evaluation of one account keeps every standing that is right. -/
theorem evaluateStanding_keeps (b : State) (a i : AccountId) (s : State) (h : standingOkAt s i) :
    standingOkAt (evaluateStanding b a s) i := by
  by_cases e : a = i
  · exact e ▸ evaluateStanding_makes b a s
  · rcases evaluateStanding_cases b a s with ⟨e', -⟩ | w
    · rw [e']; exact h
    · refine w.standingOkAt i ?_
      unfold standingOkAt
      rw [putAccount_account, if_neg e]
      exact h

/-- An evaluation leaves every account in its class. -/
theorem evaluateStanding_cls (b : State) (a i : AccountId) (s : State) :
    ((evaluateStanding b a s).account i).cls = (s.account i).cls := by
  obtain ⟨h1, -, h3⟩ := evaluateStanding_account b a s
  by_cases e : i = a
  · rw [e, h1]
  · rw [h3 i e]

/-- After an evaluation of all accounts every standing is right (R19). -/
theorem evaluateAll_standings (b s : State) : StandingsOk (eachId 512 (evaluateStanding b) s) :=
  eachId_makes (R := fun _ _ => True) (fun i s _ => evaluateStanding_makes b i s) (fun _ _ _ h => h)
    (fun i j s h => evaluateStanding_keeps b i j s h) fun _ => trivial

/-- After an evaluation of the accounts of class `c` every standing is right, where those of the other classes were (R4). -/
theorem evaluateClass_standings (b : State) (c : ClassId) (s : State)
    (h : ∀ a, (s.account a).cls ≠ c → standingOkAt s a) : StandingsOk (evaluateClass b c s) := by
  refine eachId_makes (f := fun a t => if (t.account a).cls = c then evaluateStanding b a t else t)
    (R := fun t a => (t.account a).cls = c ∨ standingOkAt t a) (Q := standingOkAt) (fun a t hr => ?_) (fun a i t hr => ?_)
    (fun a i t hq => ?_) fun a => or_iff_not_imp_left.2 (h a)
  · split
    · exact evaluateStanding_makes b a t
    · exact hr.resolve_left ‹_›
  · split
    · rw [evaluateStanding_cls]
      exact hr.imp_right (evaluateStanding_keeps b a i t)
    · exact hr
  · split
    · exact evaluateStanding_keeps b a i t hq
    · exact hq

theorem evaluateClass_worked (b : State) (c : ClassId) (s : State) : Worked s (evaluateClass b c s) :=
  eachId_keeps (P := Worked s) (fun a t w => by split; exacts [evaluateStanding_worked b a w, w]) (.refl s)

/-! ### STORE (R172) -/

/-- Where an owner's STORE is not refused, `P` holds of the state it leaves. -/
def Leaves (P : State → Prop) (x : Stored) : Prop := ∀ t, x = .ok t → P t

theorem leaves_ok {P : State → Prop} {t : State} (h : P t) : Leaves P (.ok t) := fun _ e => by cases e; exact h

theorem leaves_check {P : State → Prop} {ok : Bool} {r : Refuse} {x : Stored} (h : ok = true → Leaves P x) :
    Leaves P (check ok r x) := by
  cases ok with
  | true => exact h rfl
  | false => exact fun _ e => by cases e

theorem leaves_atIndex {P : State → Prop} {k ix : Nat} {f : Fin k → Stored} (h : ∀ i, Leaves P (f i)) :
    Leaves P (atIndex k ix f) := by
  unfold atIndex
  split
  · exact fun _ e => by cases e
  · exact h _

theorem ClassCfg.inRange_floor {x : ClassCfg} (h : x.inRange = true) : x.floor ≤ 0 := by
  simp only [ClassCfg.inRange, betweenInt, Bool.and_eq_true, decide_eq_true_eq] at h
  obtain ⟨⟨⟨-, h⟩, -⟩, -⟩ := h
  exact h

/-- A class row whose floor is not above 0 keeps the floors, and the standings of the other classes. -/
theorem putClass_standings (c : ClassId) (x : Row ClassCfg) (s : State) :
    let t := { s with classes := s.classes.put c x }
    (x.val.floor ≤ 0 → FloorsOk s → FloorsOk t)
      ∧ ∀ a, ((s.account a).cls = c → x.val.floor = (s.classes.get c).val.floor) → standingOkAt s a → standingOkAt t a := by
  refine ⟨fun hx f i => ?_, fun a hx w hf => (w hf).trans ?_⟩
  · dsimp only
    rw [Table.get_put]
    split
    · exact hx
    · exact f i
  · show standingOf _ _ (s.classes.get (s.account a).cls).val.floor
      = standingOf _ _ ((s.classes.put c x).get (s.account a).cls).val.floor
    rw [Table.get_put]
    split
    · next e => rw [hx e.symm, e]; rfl
    · rfl

/-- The standings are right again after the evaluation of the class whose floor changes (R4). -/
theorem storeClass_keepsAccounts (c : ClassId) (x : Row ClassCfg) (s : State) :
    Leaves (KeepsAccounts s) (storeClass c x s) := by
  refine leaves_check fun hr => leaves_ok ?_
  obtain ⟨hf, hs⟩ := putClass_standings c ((s.classes.get c).settled { s.classes.get c with val := x.val }) s
  have hf := hf (ClassCfg.inRange_floor hr)
  split
  · next e => exact ⟨fun w => w, hf, fun _ w a => hs a (fun _ => e) (w a)⟩
  · have hw := evaluateClass_worked s c
      { s with classes := s.classes.put c ((s.classes.get c).settled { s.classes.get c with val := x.val }) }
    exact ⟨fun w => hw.money w, fun f => hw.keepsAccounts.floors (hf f),
      fun _ w => evaluateClass_standings s c _ fun a ha => hs a (fun e => absurd e ha) (w a)⟩

/-- A new class has the standing evaluated; without one no field that the standing depends on changes (R3). -/
theorem storeAccount_keepsAccounts (a : AccountId) (x : Account) (s : State) :
    Leaves (KeepsAccounts s) (storeAccount a x s) := by
  refine leaves_check fun _ => leaves_check fun _ => leaves_ok ?_
  split
  · next e =>
    refine Worked.keepsAccounts (putAccount_worked s a _ ?_ (fun w hf => ?_) (.refl s))
    · exact fun q => q
    · dsimp only
      rw [e]
      exact w hf
  · exact putThenEvaluate_keepsAccounts a _ s fun q => q

theorem storeFeeder_keepsAccounts (f : FeederId) (x : Feeder) (s : State) :
    Leaves (KeepsAccounts s) (storeFeeder f x s) := by
  have hp : KeepsAccounts s (putFeeder s f { s.feeder f with cfg := x.cfg } s) := .same rfl rfl
  refine leaves_check fun _ => leaves_check fun _ => leaves_ok ?_
  split
  · exact hp.trans (serve_served s f (.refl _)).keepsAccounts
  · exact hp

theorem storeCred_keepsAccounts (c : CredId) (x : Credential) (s : State) :
    Leaves (KeepsAccounts s) (storeCred c x s) :=
  leaves_check fun _ => leaves_check fun _ => leaves_check fun _ => leaves_check fun _ =>
    leaves_ok (relist_worked s c _ _ (putCred_worked s c _ (.refl s))).keepsAccounts

theorem storePedestal_keepsAccounts (n : PedestalId) (x : Pedestal) (s : State) :
    Leaves (KeepsAccounts s) (storePedestal n x s) :=
  leaves_check fun _ => leaves_check fun _ => leaves_check fun _ => leaves_check fun _ =>
    leaves_ok (by split <;> exact .same rfl rfl)

theorem storePump_keepsAccounts (n : PumpId) (x : Pump) (s : State) : Leaves (KeepsAccounts s) (storePump n x s) :=
  leaves_check fun _ => leaves_check fun _ => leaves_ok (by split <;> exact .same rfl rfl)

theorem storeBerth_keepsAccounts (n : BerthId) (x : Berth) (s : State) : Leaves (KeepsAccounts s) (storeBerth n x s) :=
  leaves_check fun _ => leaves_check fun _ => leaves_check fun _ => leaves_check fun _ => leaves_check fun _ =>
    leaves_check fun _ => leaves_ok (.same rfl rfl)

/-- Every STORE keeps the laws of accounts. -/
theorem ownerStore_keepsAccounts (e : Entry) (ix : Nat) (s : State) : Leaves (KeepsAccounts s) (ownerStore e ix s) := by
  cases e with
  | site x =>
    exact leaves_check fun _ => leaves_check fun _ => leaves_check fun _ =>
      leaves_ok (testRollover_keepsAccounts (.same rfl rfl))
  | cls x => exact leaves_atIndex fun i => storeClass_keepsAccounts i x s
  | rate x => exact leaves_atIndex fun i => leaves_check fun _ => leaves_ok (.same rfl rfl)
  | hourband x => exact leaves_atIndex fun i => leaves_ok (.same rfl rfl)
  | berth x => exact leaves_atIndex fun i => storeBerth_keepsAccounts i x s
  | pedestal x => exact leaves_atIndex fun i => storePedestal_keepsAccounts i x s
  | feeder x => exact leaves_atIndex fun i => storeFeeder_keepsAccounts i x s
  | pump x => exact leaves_atIndex fun i => storePump_keepsAccounts i x s
  | tank x =>
    exact leaves_atIndex fun i => leaves_check fun _ => leaves_check fun _ =>
      leaves_ok (settleLow_fuelled s i _ (.refl s)).keepsAccounts
  | format x => exact leaves_atIndex fun i => leaves_check fun _ => leaves_check fun _ => leaves_ok (.same rfl rfl)
  | access x => exact leaves_atIndex fun i => leaves_check fun _ => leaves_ok (.same rfl rfl)
  | gate x => exact leaves_atIndex fun i => leaves_check fun _ => leaves_ok (.same rfl rfl)
  | level x => exact leaves_atIndex fun i => leaves_ok (.same rfl rfl)
  | port x => exact leaves_atIndex fun i => leaves_check fun _ => leaves_ok (.same rfl rfl)
  | cred x => exact leaves_atIndex fun i => storeCred_keepsAccounts i x s
  | account x => exact leaves_atIndex fun i => storeAccount_keepsAccounts i x s
  | power x | water x | sale x | passage x => exact fun _ e => by cases e

end Sys2Proof.Machine

namespace Sys2Proof.Machine

/-! ### Command ports (09) -/

theorem selectOwner_keepsAccounts {p : PortId} {tb : TableName} {n : Nat} {s t : State} {lines : List ReplyLine}
    (h : selectOwner p tb n s = .ok (t, lines)) : KeepsAccounts s t := by
  unfold selectOwner at h
  split at h
  · cases h
  · obtain ⟨rfl, -⟩ := done_eq h
    exact .same rfl rfl

theorem putOwner_keepsAccounts {p : PortId} {f v : String} {s t : State} {lines : List ReplyLine}
    (h : putOwner p f v s = .ok (t, lines)) : KeepsAccounts s t := by
  unfold putOwner done at h
  repeat' split at h
  all_goals cases h <;> exact .same rfl rfl

theorem storeOwner_keepsAccounts {p : PortId} {s t : State} {lines : List ReplyLine}
    (h : storeOwner p s = .ok (t, lines)) : KeepsAccounts s t := by
  unfold storeOwner done at h
  dsimp only at h
  split at h
  · repeat' split at h
    all_goals cases h
    next ho => exact (ownerStore_keepsAccounts _ _ _ _ ho).trans (.same rfl rfl)
  · cases h

theorem readOwner_keepsAccounts {p : PortId} {s t : State} {lines : List ReplyLine}
    (h : readOwner p s = .ok (t, lines)) : KeepsAccounts s t := by
  unfold readOwner at h
  dsimp only at h
  split at h <;> obtain ⟨rfl, -⟩ := done_eq h
  · exact .refl _
  · exact .same rfl rfl

theorem listOwner_eq {w : ListName} {s t : State} {lines : List ReplyLine} (h : listOwner w s = .ok (t, lines)) :
    t = s := by
  unfold listOwner at h
  repeat' split at h
  all_goals cases h <;> rfl

theorem nextOwner_keepsAccounts {p : PortId} {s t : State} {lines : List ReplyLine}
    (h : nextOwner p s = .ok (t, lines)) : KeepsAccounts s t := by
  unfold nextOwner at h
  split at h <;> obtain ⟨rfl, -⟩ := done_eq h
  · exact .refl _
  · exact .same rfl rfl

theorem unknownLine_keepsAccounts (p : PortId) (l : List Byte) (s : State) : KeepsAccounts s (unknownLine p l s) := by
  have hb : ∀ c, KeepsAccounts s (answerBad p c s) := fun c => by cases c <;> exact .same rfl rfl
  unfold unknownLine; dsimp only
  split
  · split
    · exact hb _
    · exact .refl s
  · split
    · exact hb _
    · exact .refl s
  · exact .refl s

theorem lineTimeout_keepsAccounts (p : PortId) (s : State) : KeepsAccounts s (lineTimeout p s) := by
  unfold lineTimeout; dsimp only; split <;> exact .same rfl rfl

theorem replySent_keepsAccounts (p : PortId) (s : State) : KeepsAccounts s (replySent p s) := by
  unfold replySent; dsimp only; split <;> exact .same rfl rfl

theorem portCharacter_keepsAccounts (p : PortId) (c : Byte) (s : State) : KeepsAccounts s (portCharacter p c s) := by
  unfold portCharacter; dsimp only; split <;> exact .same rfl rfl

/-! ### Device states (10) -/

theorem StartEq.keepsAccounts {s t : State} (h : StartEq s t) : KeepsAccounts s t :=
  .same (by rw [h]) (by rw [h])

theorem stateChanged_keepsAccounts {s t : State} (v : Option Int) (h : KeepsAccounts s t) :
    KeepsAccounts s (stateChanged v t) := h.trans (stateChanged_noticed v t).startEq.keepsAccounts

theorem enterState_keepsAccounts {s t : State} (b : State) (d : DeviceState) (h : KeepsAccounts s t) :
    KeepsAccounts s (enterState b d t) := h.trans (enterState_startEq b d t).keepsAccounts

theorem enterLoading_keepsAccounts (g : SaveStage) (s : State) : KeepsAccounts s (enterLoading g s) :=
  .trans (t := { s with image := (enterLoading g s).image, save := none }) (.same rfl rfl) (enterLoading_eq g s).keepsAccounts

theorem restartAfterReply_keepsAccounts (o : Origin) (s : State) : KeepsAccounts s (restartAfterReply o s) :=
  (enterLoading_keepsAccounts .beforeErase s).trans (.same rfl rfl)

theorem restartOwner_eq {s t : State} {lines : List ReplyLine} (h : restartOwner s = .ok (t, lines)) : t = s := by
  unfold restartOwner at h
  split at h
  · cases h
  · exact (done_eq h).1

theorem saveOwner_keepsAccounts {s t : State} {lines : List ReplyLine} (h : saveOwner s = .ok (t, lines)) :
    KeepsAccounts s t := by
  unfold saveOwner at h
  split at h
  · cases h
  · obtain ⟨rfl, -⟩ := done_eq h
    exact .same rfl rfl

theorem saveComplete_keepsAccounts (r : ReadBack) (s : State) : KeepsAccounts s (saveComplete r s) := by
  unfold saveComplete
  split
  · exact .refl s
  · split <;> exact .same (by rw [raise_accounts]) (by rw [raise_classes])

theorem raise_keepsAccounts {s t : State} (c : NoticeClass) (i : NoticeInfo) (h : KeepsAccounts s t) :
    KeepsAccounts s (raise c i t) := h.trans (raise_served c i (.refl t)).keepsAccounts

/-- The sales that end at the entry to HOLDOVER are all of it that touches an account (R186). -/
theorem enterHoldover_keepsAccounts {s t : State} (b : State) (h : KeepsAccounts s t) :
    KeepsAccounts s (enterHoldover b t) := by
  have hp : ∀ {u}, KeepsAccounts s u → KeepsAccounts s (stopPolling u) := fun k => k.trans (.same rfl rfl)
  have he : ∀ u, Fuelled u (eachId 4 (endSaleAt b .mainsLost) u) := fun u =>
    eachId_keeps (P := Fuelled u) (fun n _ w => endSaleAt_fuelled b .mainsLost n w) (.refl u)
  exact (hp (stateChanged_keepsAccounts none (enterState_keepsAccounts b .holdover
    (raise_keepsAccounts .mainsLost {} h)))).trans (he _).keepsAccounts

theorem returnPedestal_worked {s t : State} (b : State) (n : PedestalId) (h : Worked s t) :
    Worked s (returnPedestal b n t) := putPedestal_worked b n _ (by dsimp only; split <;> rfl) h

theorem returnPump_fuelled {s t : State} (b : State) (n : PumpId) (h : Fuelled s t) : Fuelled s (returnPump b n t) := by
  unfold returnPump; dsimp only
  split
  · exact putPump_fuelled b n _ h
  · exact h

theorem beginPolling_keepsAccounts (s : State) : KeepsAccounts s (beginPolling s) := .same rfl rfl

theorem returnToOpen_keepsAccounts {s t : State} (b : State) (h : KeepsAccounts s t) :
    KeepsAccounts s (returnToOpen b t) := by
  have hr : ∀ u, KeepsAccounts u (beginPolling (eachId 4 (returnPump b) (eachId 16 (returnFeeder b)
      (eachId 512 (returnSession b) (eachId 256 (returnPedestal b) u))))) := fun u => by
    have w1 : Worked u (eachId 256 (returnPedestal b) u) :=
      eachId_keeps (P := Worked u) (fun n _ w => returnPedestal_worked b n w) (.refl u)
    have w2 := (w1.served (eachId_served (returnSession_served b) _)).served (eachId_served (returnFeeder_served b) _)
    have w3 := eachId_keeps (P := Fuelled u) (fun n _ w => returnPump_fuelled b n w) w2.fuelled
    exact w3.keepsAccounts.trans (beginPolling_keepsAccounts _)
  exact (stateChanged_keepsAccounts none (enterState_keepsAccounts b .opened
    (raise_keepsAccounts .mainsBack {} h))).trans (hr _)

theorem mainsFall_keepsAccounts (s : State) : KeepsAccounts s (mainsFall s) := by
  have ht : KeepsAccounts s { s with mainsOk := false } := .same rfl rfl
  unfold mainsFall
  split
  · exact .refl s
  · split
    · exact ht
    · exact raise_keepsAccounts _ _ ht
    · exact enterHoldover_keepsAccounts s ht
    · exact ht

theorem mainsRise_keepsAccounts (s : State) : KeepsAccounts s (mainsRise s) := by
  have ht : KeepsAccounts s { s with mainsOk := true } := .same rfl rfl
  unfold mainsRise
  split
  · exact .refl s
  · split
    · exact ht
    · exact raise_keepsAccounts _ _ ht
    · exact ht
    · exact returnToOpen_keepsAccounts s ht

theorem openOwner_keepsAccounts {s t : State} {lines : List ReplyLine} (h : openOwner s = .ok (t, lines)) :
    KeepsAccounts s t := by
  have hv : KeepsAccounts s { s with valid := true } := .same rfl rfl
  unfold openOwner at h
  dsimp only at h
  split at h
  · cases h
  · obtain ⟨rfl, -⟩ := done_eq h
    split
    · exact stateChanged_keepsAccounts none (enterState_keepsAccounts s .opened hv)
    · exact enterHoldover_keepsAccounts s hv

theorem setupOwner_keepsAccounts {s t : State} {lines : List ReplyLine} (h : setupOwner s = .ok (t, lines)) :
    KeepsAccounts s t := by
  unfold setupOwner at h
  split at h
  · cases h
  · obtain ⟨rfl, -⟩ := done_eq h
    exact stateChanged_keepsAccounts none (enterState_keepsAccounts s .setup (.refl s))

/-! ### Starts (R181 to R183) -/

/-- Accounts at their cold values are FREE with no money (R19). -/
theorem coldAccounts_ok {s : State} (h : s.accounts = Table.build coldAccount) : MoneyOk s ∧ StandingsOk s := by
  refine ⟨fun a => ?_, fun a hf => absurd ?_ hf⟩ <;> rw [h, Table.get_build]
  · exact ⟨(by decide : -Config.balanceLimit ≤ 0), (by decide : 0 ≤ Config.balanceLimit),
      fun v => by simp [coldAccount, Config.residueUnit], Nat.zero_le _, Nat.zero_le _⟩
  · rfl

theorem clearRecords_accounts (s : State) : (clearRecords s).accounts = Table.build coldAccount := rfl

theorem clearRecords_keepsAccounts (s : State) : KeepsAccounts s (clearRecords s) :=
  have h := coldAccounts_ok (clearRecords_accounts s)
  ⟨fun _ => h.1, fun f => f, fun _ _ => h.2⟩

/-- The tables of a valid image have their floors in range (R181 check 6). -/
theorem loadTables_floors {image : List Byte} {t : SiteTables} (h : loadTables image = some t) (c : ClassId) :
    (t.classes.get c).floor ≤ 0 := by
  have hr : t.inRange = true := by
    unfold loadTables at h
    repeat' split at h
    all_goals cases h
    simp_all
  simp only [SiteTables.inRange, Bool.and_eq_true, List.all_eq_true] at hr
  obtain ⟨⟨⟨⟨⟨⟨⟨⟨⟨⟨-, hc⟩, -⟩, -⟩, -⟩, -⟩, -⟩, -⟩, -⟩, -⟩, -⟩ := hr
  exact ClassCfg.inRange_floor (hc _ (by simp [Table.toList, Table.get]))

/-- A cold start leaves cold accounts and the floors of its tables (R182). -/
theorem coldStart_keepsAccounts (c : SiteTables) (v : Int) (s : State) (hc : ∀ i, (c.classes.get i).floor ≤ 0) :
    KeepsAccounts s (coldStart c v s) := by
  have h : MoneyOk { coldRecords c s with valid := false } ∧ StandingsOk { coldRecords c s with valid := false } :=
    coldAccounts_ok (clearRecords_accounts (takeConfiguration c s))
  have hk : KeepsAccounts s { coldRecords c s with valid := false } :=
    ⟨fun _ => h.1, fun _ i => by
      show ((c.classes.map loadedRow).get i).val.floor ≤ 0
      rw [Table.get_map]; exact hc i, fun _ _ => h.2⟩
  exact hk.trans (endLoading_startEq ..).keepsAccounts

theorem endAbsentPower_served {s t : State} (b : State) (k : SocketId) (h : Served s t) :
    Served s (endAbsentPower b k t) := by
  unfold endAbsentPower
  split
  · exact h
  · split
    · exact h
    · exact raise_served _ _ (modAccount_served b _ _ (fun _ => rfl) (power_served _ h))

theorem endAbsentWater_served {s t : State} (b : State) (k : TapId) (h : Served s t) :
    Served s (endAbsentWater b k t) := by
  unfold endAbsentWater
  split
  · exact h
  · exact endWater_served b k _ h

theorem rejoin_served {s t : State} (b : State) (k : SocketId) (h : Served s t) : Served s (rejoin b k t) := by
  unfold rejoin; dsimp only
  split
  · split
    · exact modFeeder_served b _ _ (fun _ => rfl) h
    · exact endPower_served b k _ h
  · exact h

theorem agreeFeeder_served {s t : State} (b : State) (f : FeederId) (h : Served s t) : Served s (agreeFeeder b f t) :=
  modFeeder_served b f _ (fun _ => rfl) h

theorem restoreSessions_served {s t : State} (h : Served s t) : Served s (restoreSessions t) :=
  h.trans ⟨.same rfl rfl rfl, rfl, fun _ => rfl, fun _ => rfl, fun _ => rfl⟩

theorem setOutputs_served {s t : State} (b : State) (n : PedestalId) (h : Served s t) : Served s (setOutputs b n t) :=
  modPedestal_served b n _ (fun _ => rfl) (syncSocket_served b _ (syncSocket_served b _ h))

/-- The sessions of a warm start are set right by the Service Manager alone (R121). -/
theorem reconcileSessions_served (b s : State) : Served s (reconcileSessions b s) := by
  unfold reconcileSessions
  have h1 : Served s (eachId 512 (endAbsentPower b) s) :=
    eachId_served (fun k t => endAbsentPower_served b k (.refl t)) s
  generalize eachId 512 (endAbsentPower b) s = v1 at h1
  have h2 : Served s (eachId 256 (endAbsentWater b) v1) :=
    h1.trans (eachId_served (fun k t => endAbsentWater_served b k (.refl t)) v1)
  generalize eachId 256 (endAbsentWater b) v1 = v2 at h2
  have h3 : Served s (eachId 16 (agreeFeeder b) v2) :=
    h2.trans (eachId_served (fun f t => agreeFeeder_served b f (.refl t)) v2)
  generalize eachId 16 (agreeFeeder b) v2 = v3 at h3
  have h4 : Served s (eachId 512 (rejoin b) v3) := h3.trans (eachId_served (fun k t => rejoin_served b k (.refl t)) v3)
  generalize eachId 512 (rejoin b) v3 = v4 at h4
  exact (restoreSessions_served h4).trans (eachId_served (fun n t => setOutputs_served b n (.refl t)) _)

theorem clampTank_fuelled {s t : State} (b : State) (k : ProductId) (h : Fuelled s t) : Fuelled s (clampTank b k t) := by
  unfold clampTank; dsimp only
  refine settleLow_fuelled b k _ ?_
  split
  · exact raise_fuelled _ _ h
  · exact h

theorem relieveOne_served {s t u : State} (b : State) (f : FeederId) (e : relieveOne b f t = some u) (h : Served s t) :
    Served s u := by
  unfold relieveOne at e
  repeat' split at e
  all_goals cases e
  · exact reliefNotice_served _ _ _ (putPower_served b _ _ h)
  · exact reliefNotice_served _ _ _ (putPower_served b _ _ h)
  · exact reliefNotice_served _ _ _ (endPower_served b _ _ h)

theorem relieveLoaded_served {s : State} (b : State) (f : FeederId) :
    ∀ (n : Nat) {t : State}, Served s t → Served s (relieveLoaded b f n t)
  | 0, _, h => h
  | n + 1, t, h => by
    unfold relieveLoaded
    split
    · exact h
    · cases e : relieveOne b f t with
      | none => exact h
      | some u => exact relieveLoaded_served b f n (relieveOne_served b f e h)

theorem serveAll_served (b s : State) : Served s (serveAll b s) :=
  eachId_keeps (P := Served s) (fun f _ w => serve_served b f w) (.refl s)

/-- The reconciliation keeps money and floors, and leaves every standing evaluated (R19). -/
theorem reconcile_standings (b s : State) : (MoneyOk s → MoneyOk (reconcile b s)) ∧ (FloorsOk s → FloorsOk (reconcile b s))
    ∧ StandingsOk (reconcile b s) := by
  unfold reconcile
  have h1 : Fuelled s (eachId 4 (endSaleAt b .restart) (reconcileSessions b s)) :=
    eachId_keeps (P := Fuelled s) (fun n _ w => endSaleAt_fuelled b .restart n w) (reconcileSessions_served b s).worked.fuelled
  generalize eachId 4 (endSaleAt b .restart) (reconcileSessions b s) = v1 at h1
  have h2 : Fuelled s (eachId 2 (clampTank b) v1) := eachId_keeps (P := Fuelled s) (fun k _ w => clampTank_fuelled b k w) h1
  generalize eachId 2 (clampTank b) v1 = v2 at h2
  have h3 : Worked v2 (eachId 512 (evaluateStanding b) v2) :=
    eachId_keeps (P := Worked v2) (fun a _ w => evaluateStanding_worked b a w) (.refl v2)
  have hs : StandingsOk (eachId 512 (evaluateStanding b) v2) := evaluateAll_standings b v2
  generalize eachId 512 (evaluateStanding b) v2 = v3 at h3 hs
  have h4 : Served v3 (eachId 16 (fun f => relieveLoaded b f 1024) v3) :=
    eachId_served (fun f t => relieveLoaded_served b f 1024 (.refl t)) v3
  have hk := h2.keepsAccounts.trans (h3.keepsAccounts.trans h4.keepsAccounts)
  exact ⟨hk.money, hk.floors, h4.worked.fuelled.standing hs⟩

/-- After the reconciliation the device trades, the lists are served and LOADING ends; no account is touched. -/
theorem warmEnd_keepsAccounts (b u : State) (d : DeviceState) :
    KeepsAccounts u (endLoading b d 1 (serveAll b { u with device := d })) :=
  KeepsAccounts.trans (t := { u with device := d }) (.same rfl rfl)
    ((serveAll_served b _).keepsAccounts.trans (endLoading_startEq b d 1 _).keepsAccounts)

theorem warmRecords_accounts (c : SiteTables) (s : State) : (warmRecords c s).accounts = s.accounts := rfl

theorem warmRecords_classes (c : SiteTables) (s : State) : (warmRecords c s).classes = c.classes.map loadedRow := rfl

/-- A warm start keeps the money of every account, takes the floors of its tables, and evaluates every standing under them (R183, R19). -/
theorem warmStart_keepsAccounts (c : SiteTables) (s : State) (hc : ∀ i, (c.classes.get i).floor ≤ 0) :
    KeepsAccounts s (warmStart c s) := by
  have hm : MoneyOk s → MoneyOk (warmRecords c s) := by unfold MoneyOk; rw [warmRecords_accounts]; exact fun w => w
  have hf : FloorsOk (warmRecords c s) := fun i => by
    rw [warmRecords_classes, Table.get_map]; exact hc i
  obtain ⟨hm', hf', hs'⟩ := reconcile_standings (warmRecords c s) (warmRecords c s)
  have hu := warmEnd_keepsAccounts (warmRecords c s) (reconcile (warmRecords c s) (warmRecords c s))
    (tradingState (reconcile (warmRecords c s) (warmRecords c s)))
  exact ⟨fun w => hu.money (hm' (hm w)), fun _ => hu.floors (hf' hf), fun _ _ => hu.standing (hf' hf) hs'⟩

theorem loadComplete_keepsAccounts (answers : Bool) (s : State) : KeepsAccounts s (loadComplete answers s) := by
  unfold loadComplete
  split
  · exact .refl s
  · split
    · exact coldStart_keepsAccounts defaultTables (-1) s fun i => Int.le_of_eq (by simp [defaultTables, defaultClass])
    · next c hc =>
      have hl : ∀ i, (c.classes.get i).floor ≤ 0 := by
        split at hc
        · exact loadTables_floors hc
        · cases hc
      split
      · exact warmStart_keepsAccounts c s hl
      · exact coldStart_keepsAccounts c 0 s hl

theorem batteryExhausted_keepsAccounts (s : State) :
    KeepsAccounts s { clearRecords s with valid := false, stopped := true } :=
  KeepsAccounts.trans (t := clearRecords s) (clearRecords_keepsAccounts s) (.same rfl rfl)

/-! ### Every command -/

/-- Every command leaves a state in which money, floors and standings are still right. -/
theorem exec_keepsAccounts (c : Instr) (s : State) : ∃ t, exec c s = .next t ∧ KeepsAccounts s t := by
  cases c with
  | openAccount => exact ⟨_, rfl, portCommand_keepsAccounts openAccountOwner_keepsAccounts⟩
  | closeAccount => exact ⟨_, rfl, portCommand_keepsAccounts fun h =>
      have ⟨_, _, h⟩ := onOpenAccount_ok h; closeThis_keepsAccounts h⟩
  | credit => exact ⟨_, rfl, portCommand_keepsAccounts fun h =>
      have ⟨_, _, h⟩ := onOpenAccount_ok h; creditThis_keepsAccounts h⟩
  | debit => exact ⟨_, rfl, portCommand_keepsAccounts fun h =>
      have ⟨_, _, h⟩ := onOpenAccount_ok h; debitThis_keepsAccounts h⟩
  | bar => exact ⟨_, rfl, portCommand_keepsAccounts fun h =>
      have ⟨_, _, h⟩ := onOpenAccount_ok h; barThis_keepsAccounts h⟩
  | unbar => exact ⟨_, rfl, portCommand_keepsAccounts fun h =>
      have ⟨_, _, h⟩ := onOpenAccount_ok h; unbarThis_keepsAccounts h⟩
  | allocate => exact ⟨_, rfl, portCommand_keepsAccounts allocateOwner_keepsAccounts⟩
  | reserve => exact ⟨_, rfl, portCommand_keepsAccounts reserveOwner_keepsAccounts⟩
  | cancel => exact ⟨_, rfl, portCommand_keepsAccounts fun h => have ⟨_, h⟩ := onAccount_ok h; cancelThis_keepsAccounts h⟩
  | arrive => exact ⟨_, rfl, portCommand_keepsAccounts arriveOwner_keepsAccounts⟩
  | move => exact ⟨_, rfl, portCommand_keepsAccounts moveOwner_keepsAccounts⟩
  | depart => exact ⟨_, rfl, portCommand_keepsAccounts fun h => have ⟨_, h⟩ := onAccount_ok h; departThis_keepsAccounts h⟩
  | setClock => exact ⟨_, rfl, portCommand_keepsAccounts setClockOwner_keepsAccounts⟩
  | clockAdvance => exact ⟨_, rfl, event_keepsAccounts (testRollover_keepsAccounts (.same rfl rfl))⟩
  | rolloverStep => exact ⟨_, rfl, event_keepsAccounts (rolloverStep_keepsAccounts _)⟩
  | rolloverComplete => exact ⟨_, rfl, event_keepsAccounts (rolloverComplete_keepsAccounts _)⟩
  | pollDue => exact ⟨_, rfl, event_keepsAccounts (pollDue_keepsAccounts _ _)⟩
  | pollSend => exact ⟨_, rfl, event_keepsAccounts (pollSend_keepsAccounts _ _)⟩
  | lineBusy => exact ⟨_, rfl, event_keepsAccounts (lineBusy_keepsAccounts _ _)⟩
  | pedestalReply => exact ⟨_, rfl, event_keepsAccounts (pedestalReply_keepsAccounts _ _)⟩
  | noReply => exact ⟨_, rfl, event_keepsAccounts (noReply_keepsAccounts _ _)⟩
  | reliefHoldExpiry => exact ⟨_, rfl, event_keepsAccounts (reliefExpiry_served _ _).keepsAccounts⟩
  | requestPower => exact ⟨_, rfl, portCommand_keepsAccounts fun h => (requestPowerOwner_served h).keepsAccounts⟩
  | resetSocket => exact ⟨_, rfl, portCommand_keepsAccounts fun h => (resetSocketOwner_served h).keepsAccounts⟩
  | endPower => exact ⟨_, rfl, portCommand_keepsAccounts fun h => (endPowerOwner_served h).keepsAccounts⟩
  | requestWater => exact ⟨_, rfl, portCommand_keepsAccounts fun h => (requestWaterOwner_served h).keepsAccounts⟩
  | endWater => exact ⟨_, rfl, portCommand_keepsAccounts fun h => (endWaterOwner_served h).keepsAccounts⟩
  | sell => exact ⟨_, rfl, portCommand_keepsAccounts sellOwner_keepsAccounts⟩
  | pumpPoll => exact ⟨_, rfl, event_keepsAccounts (pumpPoll_keepsAccounts _)⟩
  | pumpReply => exact ⟨_, rfl, event_keepsAccounts (pumpReply_keepsAccounts _ _)⟩
  | noLiftTimerExpiry => exact ⟨_, rfl, event_keepsAccounts (noLiftExpiry_fuelled _ _).keepsAccounts⟩
  | stallTimerExpiry => exact ⟨_, rfl, event_keepsAccounts (stallExpiry_fuelled _ _).keepsAccounts⟩
  | stopSale => exact ⟨_, rfl, portCommand_keepsAccounts fun h => (stopSaleOwner_fuelled h).keepsAccounts⟩
  | sale => exact ⟨_, rfl, portCommand_keepsAccounts fun h => saleOwner_eq h ▸ .refl s⟩
  | tankDip => exact ⟨_, rfl, portCommand_keepsAccounts fun h => (tankDipOwner_fuelled h).keepsAccounts⟩
  | tankFill => exact ⟨_, rfl, portCommand_keepsAccounts fun h => (tankFillOwner_fuelled h).keepsAccounts⟩
  | credentialEnded => exact ⟨_, rfl, event_keepsAccounts (credentialEnded_keepsAccounts _ _)⟩
  | releaseExpiry => exact ⟨_, rfl, event_keepsAccounts (releaseExpiry_keepsAccounts _ _)⟩
  | holdGate => exact ⟨_, rfl, portCommand_keepsAccounts holdGateOwner_keepsAccounts⟩
  | revoke => exact ⟨_, rfl, portCommand_keepsAccounts fun h => (revokeOwner_worked h).keepsAccounts⟩
  | clearPassback => exact ⟨_, rfl, portCommand_keepsAccounts fun h => (clearPassbackOwner_worked h).keepsAccounts⟩
  | select => exact ⟨_, rfl, portCommand_keepsAccounts selectOwner_keepsAccounts⟩
  | put => exact ⟨_, rfl, portCommand_keepsAccounts putOwner_keepsAccounts⟩
  | store => exact ⟨_, rfl, portCommand_keepsAccounts storeOwner_keepsAccounts⟩
  | read => exact ⟨_, rfl, portCommand_keepsAccounts readOwner_keepsAccounts⟩
  | list => exact ⟨_, rfl, portCommand_keepsAccounts fun h => listOwner_eq h ▸ .refl s⟩
  | next => exact ⟨_, rfl, portCommand_keepsAccounts nextOwner_keepsAccounts⟩
  | status => exact ⟨_, rfl, portCommand_keepsAccounts fun h => (done_eq h).1 ▸ .refl s⟩
  | unknownCommandLine => exact ⟨_, rfl, event_keepsAccounts (unknownLine_keepsAccounts _ _ _)⟩
  | lineTimeout => exact ⟨_, rfl, event_keepsAccounts (lineTimeout_keepsAccounts _ _)⟩
  | replySent => exact ⟨_, rfl, event_keepsAccounts (replySent_keepsAccounts _ _)⟩
  | save => exact ⟨_, rfl, portCommand_keepsAccounts saveOwner_keepsAccounts⟩
  | saveComplete => exact ⟨_, rfl, event_keepsAccounts (saveComplete_keepsAccounts _ _)⟩
  | openDevice => exact ⟨_, rfl, portCommand_keepsAccounts openOwner_keepsAccounts⟩
  | setup => exact ⟨_, rfl, portCommand_keepsAccounts setupOwner_keepsAccounts⟩
  | restart => exact ⟨_, rfl, portCommandThen_keeps (fun _ _ h => h.trans (.same rfl rfl))
      (fun h => restartOwner_eq h ▸ .refl s) (fun h => h.trans (restartAfterReply_keepsAccounts _ _)) (.refl s)⟩
  | powerOn => exact ⟨_, rfl, KeepsAccounts.trans (t := { s with stopped := false }) (.same rfl rfl)
      (enterLoading_keepsAccounts _ _)⟩
  | resetInput => exact ⟨_, rfl, event_keepsAccounts (enterLoading_keepsAccounts _ _)⟩
  | loadComplete => exact ⟨_, rfl, event_keepsAccounts (loadComplete_keepsAccounts _ _)⟩
  | mainsLost => exact ⟨_, rfl, event_keepsAccounts (mainsFall_keepsAccounts _)⟩
  | mainsBack => exact ⟨_, rfl, event_keepsAccounts (mainsRise_keepsAccounts _)⟩
  | batteryExhausted => exact ⟨_, rfl, event_keepsAccounts (batteryExhausted_keepsAccounts _)⟩
  | readerPulse => exact ⟨_, rfl, event_keepsAccounts (readerPulse_keepsAccounts _ _ _)⟩
  | pedestalReplyByte => exact ⟨_, rfl, event_keepsAccounts (replyByte_keepsAccounts _ _ _)⟩
  | portCharacter => exact ⟨_, rfl, event_keepsAccounts (portCharacter_keepsAccounts _ _ _)⟩

theorem step_keepsAccounts {s t : State} (h : step s = .next t) : KeepsAccounts s t := by
  unfold step at h
  split at h
  · cases h; exact .refl s
  · next c rest _ =>
    obtain ⟨u, e, k⟩ := exec_keepsAccounts c (s.withPending rest)
    rw [e] at h
    cases h
    exact KeepsAccounts.trans (t := s.withPending rest) (.same rfl rfl) k

/-- Settles O23: the laws of money are kept by every owner and every event, and so by every step. -/
theorem everyStepKeepsMoneyWithinLimits : Obligations.EveryStepKeepsMoneyWithinLimits :=
  fun _ _ hm h => (step_keepsAccounts h).money hm

/-- Settles O24: an account is written with the standing it had and no field that R9 reads, or is evaluated after. -/
theorem everyStepKeepsStandingsEvaluated : Obligations.EveryStepKeepsStandingsEvaluated :=
  fun _ _ hs hf h => ⟨(step_keepsAccounts h).standing hf hs, (step_keepsAccounts h).floors hf⟩

end Sys2Proof.Machine

/-! ## The state after reset (O60) -/

namespace Sys2Proof.Machine

/-! ### Its records -/

@[simp] theorem reset_account (a : AccountId) : State.reset.accounts.get a = coldAccount a := Table.get_build ..
@[simp] theorem reset_berth (n : BerthId) : State.reset.berths.get n = coldBerth (defaultBerth n) := Table.get_build ..
@[simp] theorem reset_pedestal (n : PedestalId) : State.reset.pedestals.get n = coldPedestal (defaultPedestal n) :=
  Table.get_build ..
@[simp] theorem reset_power (k : SocketId) : State.reset.power.get k = none := Table.get_build ..
@[simp] theorem reset_water (k : TapId) : State.reset.water.get k = none := Table.get_build ..
@[simp] theorem reset_feeder (f : FeederId) : State.reset.feeders.get f = coldFeeder defaultFeeder := Table.get_build ..
@[simp] theorem reset_pump (n : PumpId) : State.reset.pumps.get n = coldPump (defaultPump n) := Table.get_build ..
@[simp] theorem reset_tank (t : ProductId) : State.reset.tanks.get t = coldTank defaultTank := Table.get_build ..
@[simp] theorem reset_reader (r : ReaderId) : State.reset.readers.get r = emptyReader := Table.get_build ..
@[simp] theorem reset_gate (g : GateId) : State.reset.gates.get g = loadingGate g (defaultGate g) := Table.get_build ..
@[simp] theorem reset_cred (c : CredId) : State.reset.creds.get c = coldCredential := Table.get_build ..
@[simp] theorem reset_port (i : Fin 3) : State.reset.ports.get i = loadingPort := Table.get_build ..
@[simp] theorem reset_class (c : ClassId) : State.reset.classes.get c = loadedRow defaultClass := Table.get_build ..

/-! ### Its laws -/

theorem reset_queuesOk : QueuesOk State.reset := fun i => by simp [Port.queueOk, loadingPort]

theorem reset_loadingQuiet : LoadingQuiet State.reset := fun _ i => by simp [loadingPort]

theorem reset_linesOk : LinesOk State.reset := fun i => by simp [Port.lineOk, loadingPort]

theorem reset_readersOk : ReadersOk State.reset := fun r => by simp [emptyReader]

theorem reset_logsOk : LogsOk State.reset := ⟨Nat.zero_le _, Nat.zero_le _⟩

theorem reset_floorsOk : FloorsOk State.reset := fun c => by simp [loadedRow, defaultClass]

/-- Every berth is out of service without a holder (R60), every account FREE without a berth (R19). -/
theorem reset_berthsLinked : BerthsLinked State.reset :=
  ⟨fun n => by simp [coldBerth, defaultBerth], fun a => by simp [coldAccount]⟩

/-- No credential is ACTIVE and no list names one. -/
theorem reset_credentialsOk : CredentialsOk State.reset :=
  ⟨fun c d h => by simp [coldCredential] at h, fun c h => by simp [coldCredential] at h, fun a => by simp [coldAccount]⟩

/-- Every output is off (R94). -/
theorem reset_outputsOk : OutputsOk State.reset :=
  ⟨fun n i h => by simp [coldPedestal, idleDesired] at h, fun n h => by simp [coldPedestal] at h⟩

theorem reset_sessionsLinked : SessionsLinked State.reset :=
  ⟨⟨fun k => by simp, fun a => by simp [coldAccount]⟩, ⟨fun k => by simp, fun a => by simp [coldAccount]⟩,
    fun a _ => by simp [coldAccount]⟩

/-- Without sessions nothing is held and nobody waits, and no berth names a socket (R60). -/
theorem reset_feedersOk : FeedersOk State.reset :=
  ⟨⟨fun n k h => by simp [coldBerth, defaultBerth] at h, fun k x h => by simp at h⟩,
    fun f => by simp [coldFeeder, heldOf], fun f => by simp [coldFeeder]⟩

theorem reset_tanksOk : TanksOk State.reset := fun t => by simp [coldTank]

theorem reset_openSales : openSales State.reset = [] :=
  List.filterMap_eq_nil_iff.2 fun n _ => by simp [State.pump, coldPump]

theorem reset_holdsOk : HoldsOk State.reset := fun t => by simp [volumeHeld, reset_openSales, coldTank]

theorem reset_accountHoldsOk : AccountHoldsOk State.reset :=
  ⟨fun n => by simp [coldPump], fun a => by simp [coldAccount]⟩

theorem reset_shoreOpen : ShoreOpen State.reset :=
  ⟨fun _ => by rw [reset_gate]; rfl, fun _ g hg => by
    rw [reset_gate]
    exact decide_eq_false fun e => hg (Fin.ext e)⟩

/-- The validity word is bad and the part is in LOADING. -/
theorem reset_tradingReady : TradingReady State.reset :=
  ⟨fun h => Bool.noConfusion h, fun h _ => by rcases h with h | h <;> cases h⟩

/-- Settles O60, law by law. -/
theorem theStateAfterResetMeetsEveryLaw : Obligations.TheStateAfterResetMeetsEveryLaw :=
  have hc : MoneyOk State.reset ∧ StandingsOk State.reset := coldAccounts_ok rfl
  ⟨reset_queuesOk, reset_loadingQuiet, reset_linesOk, reset_readersOk, reset_logsOk, hc.1, hc.2, reset_floorsOk,
    reset_berthsLinked, reset_credentialsOk, reset_outputsOk, reset_sessionsLinked, reset_feedersOk, reset_tanksOk,
    reset_holdsOk, reset_accountHoldsOk, reset_shoreOpen, reset_tradingReady⟩

end Sys2Proof.Machine

/-! ## OPEN_ACCOUNT and CLOSE_ACCOUNT (O17, O18) -/

namespace Sys2Proof.Machine

/-! ### A record that one change alters -/

/-- A change that alters a counted field advances the edition by 1 (R1). -/
theorem Account.settled_of_ne {x y : Account} (h : { y with edition := x.edition } ≠ x) :
    x.settled y = { y with edition := x.edition + 1 } := by
  simp only [Account.settled, editionAfter, beq_eq_false_iff_ne.2 h, Bool.false_eq_true, if_false]

/-- An account written with an altered field; the record may have been written earlier in the change. -/
theorem putAccount_of_ne {b : State} {a : AccountId} {y : Account} {s : State}
    (h : { y with edition := (b.account a).edition } ≠ b.account a) :
    putAccount b a y s = { s with accounts := s.accounts.put a { y with edition := (b.account a).edition + 1 } } := by
  simp only [putAccount, Account.settled_of_ne h]

/-! ### OPEN_ACCOUNT -/

/-- The record of an OPEN_ACCOUNT is another, as it was FREE. -/
theorem openThis_eq {a : AccountId} {s : State} (h : (s.account a).state = .free) :
    openThis a s = .ok ({ s with
      accounts := s.accounts.put a { openedAccount (s.account a) with edition := (s.account a).edition + 1 } },
        [.done [numItem a.val]]) := by
  have hne : { openedAccount (s.account a) with edition := (s.account a).edition } ≠ s.account a := fun e => by
    have hs : AccountState.opened = (s.account a).state := congrArg Account.state e
    rw [h] at hs
    cases hs
  simp only [openThis, done, modAccount, putAccount_of_ne hne]

/-- A search through all records in order finds the lowest. -/
theorem find?_finRange_eq_some {n : Nat} {p : Fin n → Bool} {a : Fin n} (h : p a = true)
    (hlow : ∀ i, i < a → p i = false) : (List.finRange n).find? p = some a := by
  rw [List.find?_eq_some_iff_getElem]
  refine ⟨h, a.val, by simp, by simp, fun j hj => ?_⟩
  simpa using hlow ⟨j, by omega⟩ hj

theorem lowestFree_eq_some {a : AccountId} {s : State} (h : (s.account a).state = .free)
    (hlow : ∀ i : AccountId, i < a → (s.account i).state ≠ .free) : lowestFree s = some a :=
  find?_finRange_eq_some (decide_eq_true h) fun i hi => decide_eq_false (hlow i hi)

theorem lowestFree_eq_none {s : State} (h : ∀ a : AccountId, (s.account a).state ≠ .free) : lowestFree s = none := by
  unfold lowestFree
  exact List.find?_eq_none.2 fun a _ => by rw [decide_eq_false (h a)]; exact Bool.false_ne_true

theorem openAccountOwner_none {s : State} :
    openAccountOwner none s = (lowestFree s).elim (.error .full) fun a => openThis a s := by
  unfold openAccountOwner
  generalize lowestFree s = r
  cases r <;> rfl

theorem openAccountOwner_some (a : AccountId) (s : State) :
    openAccountOwner (some a.val) s = if (s.account a).state = .free then openThis a s else .error .state := by
  unfold openAccountOwner
  dsimp only
  rw [ident_val]

theorem openAccountOwner_range {k : Nat} (h : 512 ≤ k) (s : State) : openAccountOwner (some k) s = .error .range := by
  unfold openAccountOwner
  dsimp only
  rw [ident, dif_neg (Nat.not_lt.2 h)]

/-- Settles O17: the account is the one given or the first that the search finds, and its record changes at least in its state. -/
theorem openAccountClearsTheAccount : Obligations.OpenAccountClearsTheAccount := by
  intro o n s hr
  refine ⟨fun a h => ?_, fun a hn hs => ?_, fun k hn hk => ?_, fun hn hf => ?_⟩
  · have ho : openAccountOwner n s = openThis a s := by
      rcases h with ⟨rfl, hs⟩ | ⟨rfl, hs, hlow⟩
      · rw [openAccountOwner_some, if_pos hs]
      · rw [openAccountOwner_none, lowestFree_eq_some hs hlow]; rfl
    have hs : (s.account a).state = .free := h.elim (·.2) (·.2.1)
    exact (openAccount_form o n).taken hr (ho.trans (openThis_eq hs))
  · subst hn
    exact (openAccount_form o _).refused hr (by rw [openAccountOwner_some, if_neg hs])
  · subst hn
    exact (openAccount_form o _).refused hr (openAccountOwner_range hk s)
  · subst hn
    exact (openAccount_form o _).refused hr (by rw [openAccountOwner_none, lowestFree_eq_none hf]; rfl)

/-! ### CLOSE_ACCOUNT -/

/-- Revoking changes credentials alone. -/
theorem eachOf_revokeOne_creds (b : State) (l : List CredId) (s : State) :
    eachOf l (revokeOne b) s = { s with creds := (eachOf l (revokeOne b) s).creds } :=
  eachOf_keeps (P := fun t => t = { s with creds := t.creds }) (fun c t h => by
    simp only [revokeOne, putCred]; rw [h]) l rfl

theorem revokeOne_cred_ne {b : State} {c d : CredId} (h : d ≠ c) (s : State) : (revokeOne b d s).cred c = s.cred c := by
  rw [revokeOne, putCred_cred, if_neg h]

theorem eachOf_revokeOne_cred_of_notMem (b : State) (c : CredId) :
    ∀ (l : List CredId) (s : State), c ∉ l → (eachOf l (revokeOne b) s).cred c = s.cred c
  | [], _, _ => rfl
  | d :: rest, s, h => by
    rw [List.mem_cons, not_or] at h
    exact (eachOf_revokeOne_cred_of_notMem b c rest _ h.2).trans (revokeOne_cred_ne (Ne.symm h.1) s)

/-- The credential `y` is `x` REVOKED with its inside flag cleared (R152). -/
def Credential.RevokedFrom (x y : Credential) : Prop :=
  y = { x with state := .revoked, inside := false, edition := y.edition }

theorem revokeOne_cred_self (b : State) (c : CredId) (s : State) :
    (s.cred c).RevokedFrom ((revokeOne b c s).cred c) := by
  rw [revokeOne, putCred_cred, if_pos rfl]; rfl

theorem Credential.RevokedFrom.trans {x y z : Credential} (h : x.RevokedFrom y) (k : y.RevokedFrom z) :
    x.RevokedFrom z := by
  unfold Credential.RevokedFrom at h k ⊢
  rw [h] at k
  exact k

/-- Each credential of the list is REVOKED, however often it stands there. -/
theorem eachOf_revokeOne_cred_of_mem (b : State) (c : CredId) (l : List CredId) (s : State) (h : c ∈ l) :
    (s.cred c).RevokedFrom ((eachOf l (revokeOne b) s).cred c) := by
  induction l generalizing s with
  | nil => cases h
  | cons d rest ih =>
    show (s.cred c).RevokedFrom ((eachOf rest (revokeOne b) (revokeOne b d s)).cred c)
    by_cases e : d = c
    · subst e
      have h1 := revokeOne_cred_self b d s
      by_cases hr : d ∈ rest
      · exact h1.trans (ih _ hr)
      · rw [eachOf_revokeOne_cred_of_notMem b d rest _ hr]; exact h1
    · have h2 := ih (revokeOne b d s) ((List.mem_cons.1 h).resolve_left (Ne.symm e))
      rw [revokeOne_cred_ne e] at h2
      exact h2

/-- CLOSE_ACCOUNT of an account that passes the checks: its state changes, so its edition advances once. -/
theorem closed_eq {a : AccountId} {s : State} (h : (s.account a).state = .opened) :
    modAccount s a closedAccount (revokeAll s a s) =
      { s with
        creds := (eachOf (s.account a).credentials (revokeOne s) s).creds
        accounts := s.accounts.put a
          { closedAccount { s.account a with credentials := [] } with edition := (s.account a).edition + 1 } } := by
  have hne : ∀ x : Account, { closedAccount x with edition := (s.account a).edition } ≠ s.account a := fun x e => by
    have hs : AccountState.free = (s.account a).state := congrArg Account.state e
    rw [h] at hs
    cases hs
  have hu := eachOf_revokeOne_creds s (s.account a).credentials s
  have hr : revokeAll s a s
      = modAccount s a (fun x => { x with credentials := [] }) (eachOf (s.account a).credentials (revokeOne s) s) := rfl
  generalize eachOf (s.account a).credentials (revokeOne s) s = u at hu hr ⊢
  generalize u.creds = creds at hu ⊢
  subst hu
  rw [hr, modAccount, putAccount_of_ne (hne _), modAccount_account, if_pos rfl]
  simp only [modAccount, putAccount, Table.put_put]
  rfl

/-- The four checks of CLOSE_ACCOUNT in their order (R14). -/
theorem closeThis_refused (a : AccountId) (s : State) :
    ((s.account a).state ≠ .opened → closeThis a s = .error .state)
    ∧ ((s.account a).state = .opened → (s.account a).balance ≠ 0 ∨ (s.account a).holds ≠ 0 →
        closeThis a s = .error .unsettled)
    ∧ ((s.account a).state = .opened → ¬ ((s.account a).balance ≠ 0 ∨ (s.account a).holds ≠ 0) →
        (s.account a).power ≠ none ∨ (s.account a).water ≠ none → closeThis a s = .error .inUse)
    ∧ ((s.account a).state = .opened → ¬ ((s.account a).balance ≠ 0 ∨ (s.account a).holds ≠ 0) →
        ¬ ((s.account a).power ≠ none ∨ (s.account a).water ≠ none) → (s.account a).sale ≠ none →
        closeThis a s = .error .saleOpen)
    ∧ ((s.account a).state = .opened → ¬ ((s.account a).balance ≠ 0 ∨ (s.account a).holds ≠ 0) →
        ¬ ((s.account a).power ≠ none ∨ (s.account a).water ≠ none) → (s.account a).sale = none →
        closeThis a s = .ok (modAccount s a closedAccount (revokeAll s a s),
          [.done [numItem (s.account a).credentials.length]])) := by
  unfold closeThis
  refine ⟨fun h1 => if_pos h1, fun h1 h2 => ?_, fun h1 h2 h3 => ?_, fun h1 h2 h3 h4 => ?_, fun h1 h2 h3 h4 => ?_⟩
  · rw [if_neg (not_not.2 h1), if_pos h2]
  · rw [if_neg (not_not.2 h1), if_neg h2, if_pos h3]
  · rw [if_neg (not_not.2 h1), if_neg h2, if_neg h3, if_pos h4]
  · rw [if_neg (not_not.2 h1), if_neg h2, if_neg h3, if_neg (not_not.2 h4)]; rfl

theorem onOpenAccount_of_ne {a : AccountId} {f : AccountId → State → Answer} {s : State}
    (h : (s.account a).state ≠ .free) : onOpenAccount a.val f s = f a s := by
  unfold onOpenAccount
  rw [ident_val]
  exact if_neg h

theorem onOpenAccount_free {a : AccountId} {f : AccountId → State → Answer} {s : State}
    (h : (s.account a).state = .free) : onOpenAccount a.val f s = .error .state := by
  unfold onOpenAccount
  rw [ident_val]
  exact if_pos h

/-- Settles O18: the checks in their order; then the list is revoked first to last, and the account written. -/
theorem closeAccountFreesTheAccount : Obligations.CloseAccountFreesTheAccount := by
  intro o a s hr x
  obtain ⟨hstate, hunsettled, hinUse, hsaleOpen, hcloses⟩ := closeThis_refused a s
  have hopen : x.state = .opened → onOpenAccount a.val closeThis s = closeThis a s := fun h =>
    onOpenAccount_of_ne (fun e => by rw [show x.state = .free from e] at h; cases h)
  refine ⟨fun h => (closeAccount_form o _).refused hr ?_, fun h1 h2 => (closeAccount_form o _).refused hr ?_,
    fun h1 h2 h3 h4 => (closeAccount_form o _).refused hr ?_,
    fun h1 h2 h3 h4 h5 h6 => (closeAccount_form o _).refused hr ?_, fun h1 h2 h3 h4 h5 h6 => ?_⟩
  · by_cases hx : x.state = .free
    · exact onOpenAccount_free hx
    · exact (onOpenAccount_of_ne hx).trans (hstate h)
  · exact (hopen h1).trans (hunsettled h1 h2)
  · exact (hopen h1).trans (hinUse h1 (by tauto) h4)
  · exact (hopen h1).trans (hsaleOpen h1 (by tauto) (by tauto) h6)
  · refine ⟨(eachOf x.credentials (revokeOne s) s).creds, fun c hc => ?_, fun c hc => ?_, ?_⟩
    · exact eachOf_revokeOne_cred_of_notMem s c _ s hc
    · exact eachOf_revokeOne_cred_of_mem s c _ s hc
    · have ho := (hopen h1).trans (hcloses h1 (by tauto) (by tauto) h6)
      rw [closed_eq h1] at ho
      exact (closeAccount_form o _).taken hr ho

end Sys2Proof.Machine

/-! ## CREDIT and DEBIT (O19, O20) -/

namespace Sys2Proof.Machine

/-! ### What an evaluation of standing brings with it -/

/-- The Service Manager acted after account `a` was written as `z`: beyond that write only sessions changed. -/
theorem Served.onlySessions_put {a : AccountId} {z : Account} {e : Edition} {s t : State}
    (h : Served { s with accounts := s.accounts.put a { z with edition := e } } t) :
    OnlySessions { s with accounts := s.accounts.put a z } t := by
  refine ⟨h.eq, fun i => ?_, h.outputs, h.feederCfg, h.rest⟩
  have hl := h.links i
  by_cases e : a = i
  · subst e
    simp only [State.account, Table.get_put_self] at hl ⊢
    exact hl
  · simp only [State.account, Table.get_put_ne _ _ e] at hl ⊢
    exact hl

/-- Where notices are raised, it makes no matter which accounts stand by. -/
theorem Noticed.served_accounts {u v : State} (h : Noticed u v) (A : Table Account 512) :
    Served { u with accounts := A } { v with accounts := A } where
  device := h.device
  rest := h.rest
  ok := h.ok
  quiet := h.quiet
  held := h.held
  eq := by rw [h.eq]
  links _ := rfl
  outputs n := by rw [h.eq]; rfl
  feederCfg f := by rw [h.eq]; rfl

/-- An account that is not FREE has its standing and its arrears nights written, if not changed; then only the Service Manager acts. -/
theorem evaluateStanding_served (b : State) {a : AccountId} {s : State} (hf : (s.account a).state ≠ .free) :
    ∃ e : Edition, Served { s with accounts := s.accounts.put a { evaluatedAccount s a with edition := e } }
      (evaluateStanding b a s) := by
  rcases evaluateStanding_cases b a s with ⟨e, w⟩ | w
  · refine ⟨(s.account a).edition, ?_⟩
    have hw := w.resolve_left hf
    have hn : ∀ (st : Standing) (n : Nat), arrearsNightsAfter st st n = n := by intro st n; cases st <;> rfl
    have hx : { evaluatedAccount s a with edition := (s.account a).edition } = s.account a := by
      simp only [evaluatedAccount, ← hw, hn]
    rw [e, hx]
    simp only [State.account, Table.put_get_self]
    exact .refl s
  · exact ⟨_, w⟩

/-- An evaluation of a standing that holds changes nothing. -/
theorem evaluateStanding_of_eq (b : State) {a : AccountId} {s : State}
    (h : standingOf (s.account a).barredFlag (s.account a).balance (s.classOf (s.account a)).floor = (s.account a).standing) :
    evaluateStanding b a s = s := (evaluateStanding_settled b a s).1 (.inr h)

/-- Account `a` is written as `y`, a notice may be raised, and the account evaluated: the standing of `y` is settled, and beyond that only sessions change. -/
theorem evaluateStanding_put (b : State) {a : AccountId} {y : Account} {e : Edition} {s v : State} (hf : y.state ≠ .free)
    (h : Noticed { s with accounts := s.accounts.put a { y with edition := e } } v) :
    OnlySessions
      { s with accounts := s.accounts.put a
                { y with standing := standingOf y.barredFlag y.balance (s.classOf y).floor
                         arrearsNights := arrearsNightsAfter y.standing
                           (standingOf y.barredFlag y.balance (s.classOf y).floor) y.arrearsNights } }
      (evaluateStanding b a v) := by
  have ha : v.accounts = s.accounts.put a { y with edition := e } := by rw [h.eq]
  have hy : v.account a = { y with edition := e } := by rw [State.account, ha, Table.get_put_self]
  have hc : ∀ x, v.classOf x = s.classOf x := fun x => by rw [h.eq]; rfl
  obtain ⟨e', k⟩ := evaluateStanding_served b (a := a) (s := v) (by rw [hy]; exact hf)
  simp only [evaluatedAccount, hy, hc, ha, Table.put_put] at k
  exact ((h.served_accounts _).trans k).onlySessions_put

theorem evaluateStanding_put_of_eq (b : State) {a : AccountId} {y : Account} {s v : State}
    (h : Noticed { s with accounts := s.accounts.put a y } v)
    (hs : standingOf y.barredFlag y.balance (s.classOf y).floor = y.standing) : evaluateStanding b a v = v := by
  have hy : v.account a = y := by rw [h.eq]; exact Table.get_put_self ..
  have hc : v.classOf y = s.classOf y := by rw [h.eq]; rfl
  refine evaluateStanding_of_eq b ?_
  rw [hy, hc]
  exact hs

/-! ### CREDIT -/

/-- Settles O19: the balance is written, which changes it, and the standing evaluated. -/
theorem creditRaisesTheBalance : Obligations.CreditRaisesTheBalance := by
  intro o a amount s hr hf x standing
  have hown : onOpenAccount a.val (creditThis amount) s = creditThis amount a s := onOpenAccount_of_ne hf
  refine ⟨fun h => ?_, fun h1 h2 h3 => ?_, fun h1 h2 h3 => ?_⟩
  · exact (credit_form o _ _).refused hr (hown.trans (if_pos (by omega)))
  · exact (credit_form o _ _).refused hr (hown.trans ((if_neg (by omega)).trans (if_pos h3)))
  · have ho := hown.trans ((if_neg (by omega)).trans (if_neg (by show ¬ (99999999 : Int) < x.balance + amount; omega)))
    have hne : { x with balance := x.balance + (amount : Int), clamped := false } ≠ x := fun q => by
      have hb : x.balance + (amount : Int) = x.balance := congrArg Account.balance q
      omega
    rw [done, putAccount_of_ne hne] at ho
    exact ⟨_, (credit_form o _ _).taken hr ho, evaluateStanding_settled ..,
      evaluateStanding_put (y := { x with balance := x.balance + (amount : Int), clamped := false }) s hf (.refl _),
      fun hs => evaluateStanding_put_of_eq s (.refl _) hs⟩

/-! ### DEBIT -/

/-- The write of a debit before the evaluation of standing (R6 steps 2 and 3). -/
def debited (a : AccountId) (cents : Nat) (s : State) : State :=
  let x := s.account a
  if x.balance - cents < -99999999 then
    raise .balanceClamped { account := some a, value := some (cents - x.balance - 99999999) }
      (putAccount s a { x with balance := -99999999, clamped := true } s)
  else putAccount s a { x with balance := x.balance - cents } s

theorem debitAccount_debited (a : AccountId) (cents : Nat) (s : State) :
    debitAccount s a cents s = evaluateStanding s a (debited a cents s) := by
  unfold debitAccount debited
  dsimp only
  by_cases h : (s.account a).balance - cents < -99999999
  · have hl : ¬ -Config.balanceLimit ≤ (s.account a).balance - (cents : Int) := Int.not_le.2 h
    rw [if_pos h, if_neg hl]
    rfl
  · have hl : -Config.balanceLimit ≤ (s.account a).balance - (cents : Int) := Int.not_lt.1 h
    rw [if_neg h, if_pos hl]

/-- The account as a debit leaves it before the evaluation: its balance lowered, or clamped with the flag set. -/
def debitedAccount (x : Account) (cents : Nat) : Account :=
  let clamps : Bool := x.balance - cents < -99999999
  { x with balance := if clamps then -99999999 else x.balance - cents, clamped := x.clamped || clamps }

theorem debited_of_not_clamps {a : AccountId} {cents : Nat} {s : State}
    (h : ¬ (s.account a).balance - cents < -99999999) :
    debited a cents s = putAccount s a (debitedAccount (s.account a) cents) s := by
  simp only [debited, debitedAccount, decide_eq_false h, Bool.or_false, Bool.false_eq_true, if_false, if_neg h]

theorem debited_of_clamps {a : AccountId} {cents : Nat} {s : State} (h : (s.account a).balance - cents < -99999999) :
    debited a cents s =
      raise .balanceClamped { account := some a, value := some (cents - (s.account a).balance - 99999999) }
        (putAccount s a (debitedAccount (s.account a) cents) s) := by
  simp only [debited, debitedAccount, decide_eq_true h, Bool.or_true, if_true, if_pos h]

theorem debited_noticed (a : AccountId) (cents : Nat) (s : State) :
    Noticed (putAccount s a (debitedAccount (s.account a) cents) s) (debited a cents s) := by
  by_cases h : (s.account a).balance - cents < -99999999
  · rw [debited_of_clamps h]
    exact raise_noticed_self ..
  · rw [debited_of_not_clamps h]
    exact .refl _

/-- A debit of 1 cent or more changes the record, unless it finds the balance at its limit with the flag set. -/
theorem debitedAccount_ne {x : Account} {cents : Nat}
    (h : 1 ≤ cents) (hx : x.balance - cents < -99999999 → x.balance ≠ -99999999 ∨ x.clamped = false) :
    { debitedAccount x cents with edition := x.edition } ≠ x := fun q => by
  have hb : (debitedAccount x cents).balance = x.balance := congrArg Account.balance q
  have hc : (debitedAccount x cents).clamped = x.clamped := congrArg Account.clamped q
  by_cases hl : x.balance - cents < -99999999
  · simp only [debitedAccount, decide_eq_true hl, if_true, Bool.or_true] at hb hc
    rcases hx hl with hx | hx
    · exact hx hb.symm
    · rw [hx] at hc; cases hc
  · simp only [debitedAccount, decide_eq_false hl, Bool.false_eq_true, if_false] at hb
    omega

/-- Settles O20: the balance is written, the notice of a clamp raised, and the standing evaluated. -/
theorem debitLowersOrClampsTheBalance : Obligations.DebitLowersOrClampsTheBalance := by
  intro o a amount s hr hf x clamps balance standing y
  have hown : onOpenAccount a.val (debitThis amount) s = debitThis amount a s := onOpenAccount_of_ne hf
  refine ⟨fun h => (debit_form o _ _).refused hr (hown.trans (if_pos (by omega))), fun h1 h2 => ?_⟩
  have ho := hown.trans (if_neg (by omega))
  have hw : AccountWritten a x s s := ⟨x.edition, by
    show s = { s with accounts := s.accounts.put a (s.accounts.get a) }
    rw [Table.put_get_self]⟩
  have hb : ((debitAccount s a amount s).account a).balance = balance := by
    rw [(debitAccount_account s amount hw).1]
  have hput := evaluateStanding_put (e := _) s (show y.state ≠ .free from hf) (debited_noticed a amount s)
  have hsame : standing = x.standing → debitAccount s a amount s = debited a amount s := fun hs => by
    rw [debitAccount_debited]
    exact evaluateStanding_put_of_eq s (debited_noticed a amount s) hs
  refine ⟨debitAccount s a amount s, ?_, debitAccount_charged s amount hw, ?_, fun hs hc => ?_, fun hs hc hx => ?_⟩
  · refine (debit_form o _ _).taken hr (ho.trans ?_)
    rw [done, hb]
    rfl
  · rw [debitAccount_debited]
    exact hput
  · have hl : ¬ x.balance - amount < -99999999 := of_decide_eq_false hc
    rw [hsame hs, debited_of_not_clamps hl, putAccount_of_ne (debitedAccount_ne h1 fun h => absurd h hl)]
    rfl
  · rw [hsame hs, debited_of_clamps (of_decide_eq_true hc), putAccount_of_ne (debitedAccount_ne h1 fun _ => hx)]
    rfl

end Sys2Proof.Machine

/-! ## BAR (O21) -/

namespace Sys2Proof.Machine

/-! ### What the service of a list leaves alone -/

/-- From `s` to `t` only slots, feeders and desired outputs of sockets change. -/
def FeederWork (s t : State) : Prop :=
  t = { s with pedestals := t.pedestals, power := t.power, feeders := t.feeders, grantCount := t.grantCount }

theorem FeederWork.refl (s : State) : FeederWork s s := rfl

theorem FeederWork.trans {s t u : State} (h : FeederWork s t) (k : FeederWork t u) : FeederWork s u := by
  unfold FeederWork at *
  rw [k, h]

theorem putPower_feederWork (b : State) (k : SocketId) (x : Option PowerSession) (s : State) :
    FeederWork s (putPower b k x s) := rfl

theorem grant_feederWork (b : State) (k : SocketId) (x : PowerSession) (n : Nat) (s : State) :
    FeederWork s (grant b k x n s) := rfl

theorem serveLoop_feederWork (b : State) (f : FeederId) (n : Nat) (s : State) : FeederWork s (serveLoop b f n s) := by
  induction n generalizing s with
  | zero => exact .refl s
  | succ n ih =>
    unfold serveLoop
    split
    · exact .refl s
    · split
      · exact .refl s
      · split
        · exact (grant_feederWork ..).trans (ih _)
        · exact putPower_feederWork ..

theorem serve_feederWork (b : State) (f : FeederId) (s : State) : FeederWork s (serve b f s) := by
  unfold serve
  split
  · exact .refl s
  · exact serveLoop_feederWork ..

theorem FeederWork.accounts {s t : State} (h : FeederWork s t) : t.accounts = s.accounts := by rw [h]

theorem FeederWork.water {s t : State} (h : FeederWork s t) : t.water = s.water := by rw [h]

theorem FeederWork.classes {s t : State} (h : FeederWork s t) : t.classes = s.classes := by rw [h]

theorem FeederWork.sameNotices {s t : State} (h : FeederWork s t) : SameNotices t s := by rw [h]; exact ⟨rfl, rfl⟩

/-! ### A slot that the service of a list leaves alone -/

/-- A list grows only where a session becomes WAITING. -/
theorem mem_of_mem_waitListAfter {l : List SocketId} {j k : SocketId} {was is : Bool} (h : is = true → was = true)
    (hm : j ∈ waitListAfter l k was is) : j ∈ l := by
  rw [waitListAfter_eq] at hm
  split at hm
  · exact hm
  · split at hm
    · exact absurd ((h ‹_›).symm ▸ ‹is = true›) ‹¬ is = was›
    · exact (List.mem_filter.1 hm).1

theorem mem_of_mem_putPower {b : State} {j k : SocketId} {x : Option PowerSession} {s : State} {f : FeederId}
    (h : isWaiting x = true → isWaiting (s.power.get k) = true)
    (hm : j ∈ ((putPower b k x s).feeder f).waitList) : j ∈ (s.feeder f).waitList := by
  rw [putPower_feeder] at hm
  split at hm
  · exact mem_of_mem_waitListAfter h hm
  · exact hm

theorem mem_of_mem_grant {b : State} {j k : SocketId} {x : PowerSession} {n : Nat} {s : State} {f : FeederId}
    (hm : j ∈ ((grant b k x n s).feeder f).waitList) : j ∈ (s.feeder f).waitList :=
  mem_of_mem_putPower (s := { s with grantCount := nextGrant s.grantCount }) (fun e => by cases e) hm

/-- The service of a list writes no slot that is empty, and none off the list. -/
theorem serveLoop_get (b : State) (f : FeederId) (n : Nat) (s : State) (k : SocketId)
    (h : s.power.get k = none ∨ k ∉ (s.feeder f).waitList) : (serveLoop b f n s).power.get k = s.power.get k := by
  induction n generalizing s with
  | zero => rfl
  | succ n ih =>
    unfold serveLoop
    split
    · rfl
    · next j rest hl =>
      split
      · rfl
      · next x hx =>
        have hjk : j ≠ k := fun e => by
          subst e
          rcases h with h | h
          · rw [h] at hx; cases hx
          · exact h (by rw [hl]; exact List.mem_cons_self ..)
        split
        · next amps _ =>
          have hk : (grant b j (attempted s j x) amps s).power.get k = s.power.get k := Table.get_put_ne _ _ hjk
          refine (ih _ ?_).trans hk
          rw [hk]
          exact h.imp_right fun h hm => h (mem_of_mem_grant hm)
        · exact Table.get_put_ne _ _ hjk

theorem serve_get (b : State) (f : FeederId) (s : State) (k : SocketId)
    (h : s.power.get k = none ∨ k ∉ (s.feeder f).waitList) : (serve b f s).power.get k = s.power.get k := by
  unfold serve
  split
  · rfl
  · exact serveLoop_get b f _ s k h

/-! ### A suspend request -/

/-- A WAITING session that is suspended leaves its list (R101). -/
theorem suspended_notMem {b : State} {k : SocketId} {x y : PowerSession} {s : State} (hx : s.power.get k = some x)
    (hw : x.state = .waiting) (hy : y.state = .suspended) :
    k ∉ ((putPower b k (some y) s).feeder (feederOf s k)).waitList := by
  rw [putPower_feeder, if_pos rfl, Feeder.settled_waitList, hx, isWaiting, isWaiting, hw, hy]
  exact fun h => absurd (List.mem_filter.1 h).2 (by simp)

/-- What a suspend request leaves in the slot (R109). -/
theorem suspendPower_get (b : State) {k : SocketId} (c : Cause) {s : State} {x : PowerSession}
    (hx : s.power.get k = some x) :
    (x.state = .tripped ∨ x.state = .closing → (suspendPower b k c s).power.get k = some x)
    ∧ (x.state ≠ .tripped → x.state ≠ .closing → ∃ z, (suspendPower b k c s).power.get k = some z
        ∧ z.state = .suspended ∧ z.cause = some c ∧ z.held = x.held ∧ z.account = x.account) := by
  have hput : ∀ z u, (powerSuspendedNotice k x c (putPower b k (some z) u)).power.get k = some z := fun z u => by
    rw [powerSuspendedNotice, raise_power]
    exact Table.get_put_self ..
  unfold suspendPower
  rw [hx]
  cases hs : x.state <;> simp only [hs]
  case tripped | closing => exact ⟨fun _ => hx, fun h g => by simp at h g⟩
  case suspended =>
    exact ⟨fun h => by simp at h, fun _ _ => ⟨_, Table.get_put_self .., rfl, rfl, rfl, rfl⟩⟩
  case waiting =>
    refine ⟨fun h => by simp at h, fun _ _ => ?_⟩
    refine ⟨{ x with state := .suspended, cause := some c, confirmMisses := 0 }, ?_, rfl, rfl, rfl, rfl⟩
    split
    · rw [serve_get]
      · exact hput ..
      · refine .inr ?_
        rw [powerSuspendedNotice, State.feeder, raise_feeders]
        exact suspended_notMem hx hs rfl
    · exact hput ..
  all_goals
    exact ⟨fun h => by simp at h, fun _ _ => ⟨_, hput .., rfl, rfl, rfl, rfl⟩⟩

/-- What the requests to a power session leave a water session and the links of its account. -/
structure WaterView (s t : State) : Prop where
  water : t.water = s.water
  link : ∀ a, (t.account a).water = (s.account a).water
  cls : ∀ a, (t.account a).cls = (s.account a).cls
  classes : t.classes = s.classes

theorem WaterView.refl (s : State) : WaterView s s := ⟨rfl, fun _ => rfl, fun _ => rfl, rfl⟩

theorem WaterView.trans {s t u : State} (h : WaterView s t) (k : WaterView t u) : WaterView s u where
  water := k.water.trans h.water
  link a := (k.link a).trans (h.link a)
  cls a := (k.cls a).trans (h.cls a)
  classes := k.classes.trans h.classes

theorem FeederWork.waterView {s t : State} (h : FeederWork s t) : WaterView s t := by
  rw [h]; exact ⟨rfl, fun _ => rfl, fun _ => rfl, rfl⟩

theorem raise_waterView (c : NoticeClass) (i : NoticeInfo) (s : State) : WaterView s (raise c i s) := by
  rw [(raise_noticed_self c i s).eq]; exact ⟨rfl, fun _ => rfl, fun _ => rfl, rfl⟩

theorem suspendPower_waterView (b : State) (k : SocketId) (c : Cause) (s : State) :
    WaterView s (suspendPower b k c s) := by
  have hn : ∀ x y, WaterView s (powerSuspendedNotice k x c (putPower b k y s)) := fun x y =>
    (putPower_feederWork b k y s).waterView.trans (raise_waterView ..)
  unfold suspendPower
  split
  · exact .refl s
  · split
    · exact hn ..
    · exact hn ..
    · exact hn ..
    · dsimp only
      split
      · exact (hn ..).trans (serve_feederWork ..).waterView
      · exact hn ..
    · exact (putPower_feederWork ..).waterView
    · exact .refl s
    · exact .refl s

/-- A suspend request to a water session changes no slot of power. -/
theorem suspendWater_power (b : State) (k : TapId) (s : State) : (suspendWater b k s).power = s.power := by
  unfold suspendWater
  split
  · rfl
  · split <;> rfl

/-- What a suspend request leaves in the slot of a tap (R118). -/
theorem suspendWater_get (b : State) {k : TapId} {s : State} {x : WaterSession} (hx : s.water.get k = some x) :
    (suspendWater b k s).water.get k =
      if x.state.on then some { x with state := .suspended, confirmMisses := 0 } else some x := by
  unfold suspendWater
  rw [hx]
  dsimp only
  split
  · exact Table.get_put_self ..
  · exact hx

/-! ### A request to an account's session -/

theorem toPower_of_some {a : AccountId} {f : SocketId → State → State} {s : State} {k : SocketId}
    (h : (s.account a).power = some k) : toPower a f s = f k s := by rw [toPower, h]

theorem toPower_of_none {a : AccountId} {f : SocketId → State → State} {s : State} (h : (s.account a).power = none) :
    toPower a f s = s := by rw [toPower, h]

theorem toWater_of_some {a : AccountId} {f : TapId → State → State} {s : State} {k : TapId}
    (h : (s.account a).water = some k) : toWater a f s = f k s := by rw [toWater, h]

theorem toWater_of_none {a : AccountId} {f : TapId → State → State} {s : State} (h : (s.account a).water = none) :
    toWater a f s = s := by rw [toWater, h]

theorem toPower_waterView {a : AccountId} {f : SocketId → State → State} (hf : ∀ k s, WaterView s (f k s)) (s : State) :
    WaterView s (toPower a f s) := by
  unfold toPower
  split
  · exact .refl s
  · exact hf ..

theorem toWater_power {a : AccountId} {f : TapId → State → State} (hf : ∀ k s, (f k s).power = s.power) (s : State) :
    (toWater a f s).power = s.power := by
  unfold toWater
  split
  · rfl
  · exact hf ..

/-! ### A change of standing -/

/-- The state in which the requests of R10 are made: account `a` written as `w`, STANDING_CHANGED raised. -/
def standingTold (a : AccountId) (w : Account) (s : State) : State :=
  raise .standingChanged { account := some a, value := some w.balance, reason := some (.standing w.standing) }
    { s with accounts := s.accounts.put a w }

@[simp] theorem standingTold_account (a : AccountId) (w : Account) (s : State) : (standingTold a w s).account a = w := by
  rw [State.account, standingTold, raise_accounts]
  exact Table.get_put_self ..

theorem standingTold_power (a : AccountId) (w : Account) (s : State) : (standingTold a w s).power = s.power := by
  rw [standingTold, raise_power]

theorem standingTold_water (a : AccountId) (w : Account) (s : State) : (standingTold a w s).water = s.water := by
  rw [standingTold, raise_water]

/-- The account as a command that changes its flag leaves it, with the standing and the arrears nights that this brings. -/
def reflagged (x : Account) (flag : Bool) (new : Standing) (nights : Nat) : Account :=
  { x with barredFlag := flag, standing := new, arrearsNights := nights, edition := x.edition + 1 }

/-- An account whose flag changes is written and evaluated, where its standing becomes another: the edition advances once. -/
theorem evaluateStanding_flag {a : AccountId} {flag : Bool} {new : Standing} {n : Nat} {s : State}
    (hflag : flag ≠ (s.account a).barredFlag)
    (hs : standingOf flag (s.account a).balance (s.classOf (s.account a)).floor = new)
    (hn : arrearsNightsAfter (s.account a).standing new (s.account a).arrearsNights = n)
    (hf : (s.account a).state ≠ .free) (hne : new ≠ (s.account a).standing) :
    evaluateStanding s a (putAccount s a { s.account a with barredFlag := flag } s) =
      standingRequests s a (s.account a).standing new
        (standingTold a (reflagged (s.account a) flag new n) s) := by
  generalize hv : putAccount s a { s.account a with barredFlag := flag } s = v
  have ha : v.account a = (s.account a).settled { s.account a with barredFlag := flag } := by
    rw [← hv, putAccount_account, if_pos rfl]
  have hnew : standingOf (v.account a).barredFlag (v.account a).balance (v.classOf (v.account a)).floor = new := by
    rw [ha, ← hv]; exact hs
  have hne' : ∀ z : Account, z.barredFlag = flag → { z with edition := (s.account a).edition } ≠ s.account a :=
    fun z hz q => by
      have hq := congrArg Account.barredFlag q
      exact hflag (hz.symm.trans hq)
  have e : evaluateStanding s a v = standingRequests s a (v.account a).standing _ _ :=
    if_neg (not_or.2 ⟨by rw [ha]; exact hf, by rw [hnew, ha]; exact hne⟩)
  rw [e, hnew, ha, putAccount_of_ne (hne' _ rfl), ← hv, ← hn]
  simp only [putAccount, Table.put_put]
  rfl

/-- The requests that BAR makes (R10). -/
theorem standingRequests_barred (b : State) (a : AccountId) {old : Standing} (h : old ≠ .barred) (s : State) :
    standingRequests b a old .barred s =
      toWater a (fun t => suspendWater b t) (toPower a (fun k => suspendPower b k .barred) s) := by
  cases old with
  | good => rfl
  | arrears => rfl
  | barred => exact absurd rfl h

/-- Settles O21: the flag is written, which makes the standing BARRED, and both sessions are asked to suspend. -/
theorem barSuspendsTheSessions : Obligations.BarSuspendsTheSessions := by
  intro o a s hr hf x
  have hown : onOpenAccount a.val barThis s = barThis a s := onOpenAccount_of_ne hf
  refine ⟨fun hb => (bar_form o _).taken hr (hown.trans (if_pos hb)), fun hb hs => ?_⟩
  have ho := hown.trans (if_neg (by rw [show (s.account a).barredFlag = false from hb]; exact Bool.false_ne_true))
  have hn : arrearsNightsAfter x.standing .barred x.arrearsNights = x.arrearsNights := by cases x.standing <;> rfl
  have he := evaluateStanding_flag (a := a) (flag := true) (new := .barred)
    (by rw [show (s.account a).barredFlag = false from hb]; decide) rfl hn hf (Ne.symm hs)
  rw [standingRequests_barred s a hs] at he
  have hput := evaluateStanding_put (y := { x with barredFlag := true }) (e := _) s hf
    (.refl (putAccount s a { x with barredFlag := true } s))
  generalize evaluateStanding s a (putAccount s a { x with barredFlag := true } s) = t at ho he hput
  have hview := toPower_waterView (a := a) (fun k u => suspendPower_waterView s k .barred u)
    (standingTold a (reflagged x true .barred x.arrearsNights) s)
  refine ⟨t, (bar_form o _).taken hr ho, ?_, fun k y hk hy => ?_, fun k y hk hy => ?_, fun hp hq => ?_⟩
  · rw [← hn]; exact hput
  · rw [he, toWater_power fun k u => suspendWater_power s k u, toPower_of_some (by rw [standingTold_account]; exact hk)]
    exact suspendPower_get s .barred (by rw [standingTold_power]; exact hy)
  · have hlink := (hview.link a).trans (congrArg Account.water (standingTold_account ..))
    have hslot := hview.water.trans (standingTold_water ..)
    rw [he, toWater_of_some (hlink.trans hk), suspendWater_get s (by rw [hslot]; exact hy)]
    exact ⟨fun h => if_neg (by rcases h with h | h <;> rw [h] <;> decide),
      fun h => if_pos (by rcases h with h | h <;> rw [h] <;> decide)⟩
  · rw [he, toPower_of_none (by rw [standingTold_account]; exact hp),
      toWater_of_none (by rw [standingTold_account]; exact hq)]
    rfl

end Sys2Proof.Machine

/-! ## UNBAR (O22) -/

namespace Sys2Proof.Machine

/-! ### A resumed water session -/

/-- What the requests to a water session leave a power session: slots, feeders, grant count, and of pedestals and accounts what admission reads. -/
structure PowerView (s t : State) : Prop where
  power : t.power = s.power
  feeders : t.feeders = s.feeders
  grantCount : t.grantCount = s.grantCount
  cfg : ∀ n, (t.pedestal n).cfg = (s.pedestal n).cfg
  desired : ∀ n, (t.pedestal n).desired = (s.pedestal n).desired
  link : ∀ a, (t.account a).power = (s.account a).power
  classOf : ∀ a, t.classOf (t.account a) = s.classOf (s.account a)

theorem PowerView.refl (s : State) : PowerView s s := ⟨rfl, rfl, rfl, fun _ => rfl, fun _ => rfl, fun _ => rfl, fun _ => rfl⟩

theorem PowerView.trans {s t u : State} (h : PowerView s t) (k : PowerView t u) : PowerView s u where
  power := k.power.trans h.power
  feeders := k.feeders.trans h.feeders
  grantCount := k.grantCount.trans h.grantCount
  cfg n := (k.cfg n).trans (h.cfg n)
  desired n := (k.desired n).trans (h.desired n)
  link a := (k.link a).trans (h.link a)
  classOf a := (k.classOf a).trans (h.classOf a)

/-- The notices of `s` and `t` are the same, and so is what raising another reads. -/
structure NoticeView (s t : State) : Prop where
  same : SameNotices t s
  device : t.device = s.device
  clock : t.clock = s.clock
  levels : t.levels = s.levels
  thresholds : t.thresholds = s.thresholds

theorem NoticeView.refl (s : State) : NoticeView s s := ⟨⟨rfl, rfl⟩, rfl, rfl, rfl, rfl⟩

theorem SameNotices.trans {s t u : State} (h : SameNotices s t) (k : SameNotices t u) : SameNotices s u :=
  ⟨h.1.trans k.1, h.2.trans k.2⟩

theorem NoticeView.trans {s t u : State} (h : NoticeView s t) (k : NoticeView t u) : NoticeView s u where
  same := k.same.trans h.same
  device := k.device.trans h.device
  clock := k.clock.trans h.clock
  levels := k.levels.trans h.levels
  thresholds := k.thresholds.trans h.thresholds

theorem NoticeView.raise {s t : State} (c : NoticeClass) (i : NoticeInfo) (h : NoticeView s t) :
    SameNotices (Machine.raise c i t) (Machine.raise c i s) :=
  raise_sameNotices c i h.same h.device h.clock h.levels h.thresholds

theorem FeederWork.noticeView {s t : State} (h : FeederWork s t) : NoticeView s t := by
  rw [h]; exact ⟨⟨rfl, rfl⟩, rfl, rfl, rfl, rfl⟩

theorem putWater_noticeView (b : State) (k : TapId) (x : Option WaterSession) (s : State) :
    NoticeView s (putWater b k x s) := ⟨⟨rfl, rfl⟩, rfl, rfl, rfl, rfl⟩

theorem putWater_powerView (b : State) (k : TapId) (x : Option WaterSession) (s : State) :
    PowerView s (putWater b k x s) where
  power := rfl
  feeders := rfl
  grantCount := rfl
  cfg n := by rw [putWater, modPedestal_pedestal]; split <;> [subst_vars; skip] <;> rfl
  desired n := by rw [putWater, modPedestal_pedestal]; split <;> [subst_vars; skip] <;> rfl
  link _ := rfl
  classOf _ := rfl

/-- A resume request to a water session is a write of its slot, or nothing. -/
theorem resumeWater_cases (b : State) (k : TapId) (s : State) :
    resumeWater b k s = s ∨ ∃ x, resumeWater b k s = putWater b k (some x) s := by
  unfold resumeWater
  split
  · exact .inl rfl
  · split
    · split <;> exact .inr ⟨_, rfl⟩
    · exact .inl rfl

theorem resumeWater_powerView (b : State) (k : TapId) (s : State) : PowerView s (resumeWater b k s) := by
  rcases resumeWater_cases b k s with e | ⟨x, e⟩ <;> rw [e]
  · exact .refl s
  · exact putWater_powerView ..

theorem resumeWater_noticeView (b : State) (k : TapId) (s : State) : NoticeView s (resumeWater b k s) := by
  rcases resumeWater_cases b k s with e | ⟨x, e⟩ <;> rw [e]
  · exact .refl s
  · exact putWater_noticeView ..

theorem resumeWater_accounts (b : State) (k : TapId) (s : State) : (resumeWater b k s).accounts = s.accounts := by
  rcases resumeWater_cases b k s with e | ⟨x, e⟩ <;> rw [e]
  rfl

/-- The water session as it resumes under its class's cap: CLOSING at or above it, else OPENING (R118). -/
def resumedWater (cap : Nat) (y : WaterSession) : WaterSession :=
  if cap = 0 ∨ y.volume < cap then { y with state := .opening, confirmMisses := 0 }
  else { y with state := .closing, closeReason := some .cap, confirmMisses := 0 }

/-- What a resume request leaves in the slot of a tap. -/
theorem resumeWater_get (b : State) {k : TapId} {s : State} {y : WaterSession} {cap : Nat} (hy : s.water.get k = some y)
    (hs : y.state = .suspended) (hc : (s.classOf (s.account y.account)).waterCap = cap) :
    (resumeWater b k s).water.get k = some (resumedWater cap y) := by
  unfold resumeWater resumedWater
  rw [hy]
  dsimp only
  rw [if_pos hs]
  have hr : capReached s y = !decide (cap = 0 ∨ y.volume < cap) := by
    rw [Bool.eq_iff_iff]
    simp only [capReached, hc, Bool.and_eq_true, decide_eq_true_eq, Bool.not_eq_true', decide_eq_false_iff_not]
    omega
  rw [hr]
  by_cases h : cap = 0 ∨ y.volume < cap
  · simp only [h, decide_true, Bool.not_true, Bool.false_eq_true, if_false, if_true]
    exact Table.get_put_self ..
  · simp only [h, decide_false, Bool.not_false, if_false, if_true]
    exact Table.get_put_self ..

/-! ### The write of a power slot -/

/-- A change of held sum or wait list advances a feeder's edition by 1 (R96). -/
theorem Feeder.settled_of_ne {x y : Feeder} (h : y.heldSum ≠ x.heldSum ∨ y.waitList ≠ x.waitList) :
    x.settled y = { y with edition := x.edition + 1 } := by
  have : y.sameCounted x = false := by
    rcases h with h | h
    · simp [Feeder.sameCounted, h]
    · simp [Feeder.sameCounted, h]
  simp only [Feeder.settled, editionAfter, this, Bool.false_eq_true, if_false]

/-- The feeder of a written slot, where its held sum or its wait list becomes another. -/
theorem putPower_feeders_of_ne {b : State} {k : SocketId} {x : Option PowerSession} {s : State} {held : Nat}
    {list : List SocketId} (hb : b.feeders = s.feeders)
    (hh : (s.feeder (feederOf s k)).heldSum - heldOf (s.power.get k) + heldOf x = held)
    (hl : waitListAfter (s.feeder (feederOf s k)).waitList k (isWaiting (s.power.get k)) (isWaiting x) = list)
    (hne : held ≠ (s.feeder (feederOf s k)).heldSum ∨ list ≠ (s.feeder (feederOf s k)).waitList) :
    (putPower b k x s).feeders = s.feeders.put (feederOf s k)
      { s.feeder (feederOf s k) with
        heldSum := held, waitList := list, edition := (s.feeder (feederOf s k)).edition + 1 } := by
  have hf : b.feeder (feederOf s k) = s.feeder (feederOf s k) := by rw [State.feeder, hb]; rfl
  have hs : (s.feeder (feederOf s k)).settled { s.feeder (feederOf s k) with heldSum := held, waitList := list }
      = { s.feeder (feederOf s k) with
          heldSum := held, waitList := list, edition := (s.feeder (feederOf s k)).edition + 1 } :=
    Feeder.settled_of_ne hne
  have hput : (putPower b k x s).feeders = s.feeders.put (feederOf s k) ((b.feeder (feederOf s k)).settled
      { s.feeder (feederOf s k) with
        heldSum := (s.feeder (feederOf s k)).heldSum - heldOf (s.power.get k) + heldOf x
        waitList := waitListAfter (s.feeder (feederOf s k)).waitList k (isWaiting (s.power.get k)) (isWaiting x) }) := rfl
  rw [hput, hf, hh, hl, hs]

/-- The desired outputs of a written slot (R95). -/
theorem putPower_desired (b : State) (k : SocketId) (x : Option PowerSession) (s : State) :
    ((putPower b k x s).pedestal (pedestalOf k)).desired =
      let p := s.pedestal (pedestalOf k)
      let w := desiredFor (p.cfg.ratings.get (positionOf k)) x
      p.desired.put (positionOf k) { p.desired.get (positionOf k) with relay := w.1, limit := w.2 } := by
  simp only [putPower, syncSocket, modPedestal_pedestal, if_true, Pedestal.settled_desired]
  rw [show (modFeeder b (feederOf s k) _ { s with power := s.power.put k x }).power = s.power.put k x from rfl,
    Table.get_put_self]
  rfl

/-! ### A resumed power session -/

/-- What the resumption of the SUSPENDED session `y` of account `a` on socket `k` makes of `s` (R110, R98 to R101, R108), where `told` is the state whose notices stand before it. -/
def PowerResumes (a : AccountId) (k : SocketId) (y : PowerSession) (s told t : State) : Prop :=
  (y.held ≠ 0 →
    t.power.get k = some { y with state := .switching, cause := none, confirmMisses := 0 }
    ∧ t.grantCount = s.grantCount ∧ SameNotices t told)
  ∧ (y.held = 0 → y.account = a →
    let p := s.pedestal (pedestalOf k)
    let f := s.feeder p.cfg.feeder
    let eff := min y.wish.amps (min (p.cfg.ratings.get (positionOf k)).amps (s.classOf (s.account a)).maxRating.amps)
    let cap := f.cfg.rating * f.cfg.diversity / 100
    let free := f.waitList = [] ∧ f.relief = none
    let noRoom := ¬ free ∨ cap < f.heldSum + eff ∧ (eff ≠ 63 ∨ cap < f.heldSum + 32)
    let resumed : PowerSession := { y with cause := none, fallback32 := decide (eff = 63), confirmMisses := 0 }
    (∀ amps, free →
      (f.heldSum + eff ≤ cap ∧ amps = eff
        ∨ cap < f.heldSum + eff ∧ eff = 63 ∧ f.heldSum + 32 ≤ cap ∧ amps = 32) →
      t.power = s.power.put k (some
          { resumed with
            state := .switching, granted := amps, held := amps, shed := false
            grantStamp := min (s.grantCount + 1) 4294967295 })
      ∧ t.grantCount = min (s.grantCount + 1) 4294967295
      ∧ t.feeders = s.feeders.put p.cfg.feeder { f with heldSum := f.heldSum + amps, edition := f.edition + 1 }
      ∧ (t.pedestal (pedestalOf k)).desired = p.desired.put (positionOf k)
          { relay := true, clearTrip := (p.desired.get (positionOf k)).clearTrip
            limit := if p.cfg.ratings.get (positionOf k) = .a63 ∧ amps = 32 then .l32 else .l63 }
      ∧ SameNotices t told)
    ∧ (noRoom → f.waitList.length < 64 →
      t.power = s.power.put k (some { resumed with state := .waiting })
      ∧ t.feeders = s.feeders.put p.cfg.feeder { f with waitList := f.waitList ++ [k], edition := f.edition + 1 }
      ∧ t.grantCount = s.grantCount
      ∧ SameNotices t (raise .powerWaiting
          { account := some a, outlet := some (.socket k)
            value := some ((f.waitList.length + 1 : Nat) : Int) } told))
    ∧ (noRoom → 64 ≤ f.waitList.length →
      t.power.get k = none ∧ (t.account a).power = none
      ∧ SameNotices t (raise .powerEnded
          { account := some a, outlet := some (.socket k), value := some y.energy
            reason := some (.powerEnd .full), fault := y.fault } told)))

/-- States that show a power session the same may stand for one another in `PowerResumes`. -/
theorem PowerResumes.of_views {a : AccountId} {k : SocketId} {y : PowerSession} {s q told u t : State}
    (h : PowerResumes a k y q q u) (hq : PowerView s q) (hn : NoticeView told q) (ht : PowerView u t)
    (hnt : NoticeView u t) : PowerResumes a k y s told t := by
  obtain ⟨hheld, hfree⟩ := h
  have hped := hq.cfg (pedestalOf k)
  have hdes := hq.desired (pedestalOf k)
  have hfeed : ∀ f, q.feeder f = s.feeder f := fun f => by rw [State.feeder, hq.feeders]; rfl
  refine ⟨fun h0 => ?_, fun h0 ha => ?_⟩
  · obtain ⟨h1, h2, h3⟩ := hheld h0
    exact ⟨by rw [ht.power, h1], by rw [ht.grantCount, h2, hq.grantCount], hnt.same.trans (h3.trans hn.same)⟩
  · have hfree := hfree h0 ha
    simp only [hped, hdes, hfeed, hq.classOf, hq.grantCount, hq.power, hq.feeders] at hfree
    obtain ⟨hgrant, hwait, hfull⟩ := hfree
    refine ⟨fun amps hf hr => ?_, fun hr hl => ?_, fun hr hl => ?_⟩
    · obtain ⟨h1, h2, h3, h4, h5⟩ := hgrant amps hf hr
      exact ⟨by rw [ht.power, h1], by rw [ht.grantCount, h2], by rw [ht.feeders, h3], by rw [ht.desired, h4],
        hnt.same.trans (h5.trans hn.same)⟩
    · obtain ⟨h1, h2, h3, h4⟩ := hwait hr hl
      exact ⟨by rw [ht.power, h1], by rw [ht.feeders, h2], by rw [ht.grantCount, h3],
        hnt.same.trans (h4.trans (hn.raise _ _))⟩
    · obtain ⟨h1, h2, h3⟩ := hfull hr hl
      exact ⟨by rw [ht.power, h1], by rw [ht.link, h2], hnt.same.trans (h3.trans (hn.raise _ _))⟩

theorem resumePower_held (b : State) {k : SocketId} {s : State} {y : PowerSession} (hy : s.power.get k = some y)
    (hs : y.state = .suspended) (hh : y.held ≠ 0) :
    resumePower b k s = putPower b k (some { y with state := .switching, cause := none, confirmMisses := 0 }) s := by
  unfold resumePower
  rw [hy]
  exact (if_pos hs).trans (if_pos hh)

theorem resumePower_admits (b : State) {k : SocketId} {s : State} {y : PowerSession} (hy : s.power.get k = some y)
    (hs : y.state = .suspended) (hh : y.held = 0) :
    resumePower b k s = (enterAdmission b k { y with cause := none } s).getD (endPower b k .full s) := by
  unfold resumePower
  rw [hy]
  refine (if_pos hs).trans ((if_neg (not_not.2 hh)).trans ?_)
  cases enterAdmission b k { y with cause := none } s <;> rfl

/-- The three outcomes of R99, by what the feeder of the socket holds. -/
theorem enterAdmission_granted (b : State) {k : SocketId} {x : PowerSession} {s : State} {amps : Nat}
    (hl : (s.feeder (feederOf s k)).waitList = []) (hr : (s.feeder (feederOf s k)).relief = none)
    (h : RoomAt s k x amps) : enterAdmission b k x s = some (grant b k (attempted s k x) amps s) := by
  rw [roomAt_iff] at h
  simp only [enterAdmission, admissionTest, hl, hr, h, and_self, if_true]

/-- The feeder is free and has room (R99). -/
def admissionRoom (s : State) (k : SocketId) (x : PowerSession) : Option Nat :=
  let f := s.feeder (feederOf s k)
  if f.waitList = [] ∧ f.relief = none then roomFor s k x else none

theorem enterAdmission_waits (b : State) {k : SocketId} {x : PowerSession} {s : State}
    (h : admissionRoom s k x = none) (hl : (s.feeder (feederOf s k)).waitList.length < 64) :
    enterAdmission b k x s = some (joinWaitList b k (attempted s k x) s) := by
  unfold admissionRoom at h
  simp only [enterAdmission, admissionTest, h, Config.waitListRoom, hl, if_true]

theorem enterAdmission_full (b : State) {k : SocketId} {x : PowerSession} {s : State}
    (h : admissionRoom s k x = none) (hl : 64 ≤ (s.feeder (feederOf s k)).waitList.length) : enterAdmission b k x s = none := by
  unfold admissionRoom at h
  simp only [enterAdmission, admissionTest, h, Config.waitListRoom, Nat.not_lt.2 hl, if_false]

theorem Rating.amps_pos (r : Rating) : 0 < r.amps := by cases r <;> decide

theorem effectiveWish_pos (s : State) (k : SocketId) (x : PowerSession) : 0 < effectiveWish s k x :=
  lt_min (Rating.amps_pos _) (lt_min (Rating.amps_pos _) (Rating.amps_pos _))

/-- The slot, the feeder and the account that a session ended FULL leaves, whatever the list does next. -/
theorem endPower_leaves (b : State) {k : SocketId} {s : State} {y : PowerSession} (why : PowerEnd)
    (hy : s.power.get k = some y) :
    (endPower b k why s).power.get k = none ∧ ((endPower b k why s).account y.account).power = none
    ∧ SameNotices (endPower b k why s) (raise .powerEnded
        { account := some y.account, outlet := some (.socket k), value := some (y.energy : Int)
          reason := some (.powerEnd why), fault := y.fault } s) := by
  have e : endPower b k why s = serve b (feederOf s k) (raise .powerEnded
      { account := some y.account, outlet := some (.socket k), value := some (y.energy : Int)
        reason := some (.powerEnd why), fault := y.fault }
      (modAccount b y.account (fun a => { a with power := none }) (putPower b k none s))) := by
    unfold endPower
    rw [hy]
  have hnone : ∀ i, (raise .powerEnded i
      (modAccount b y.account (fun a => { a with power := none }) (putPower b k none s))).power.get k = none := fun i => by
    rw [raise_power]
    exact Table.get_put_self ..
  rw [e]
  refine ⟨?_, ?_, ?_⟩
  · rw [serve_get b _ _ k (.inl (hnone _))]
    exact hnone _
  · rw [State.account, (serve_feederWork b _ _).accounts, raise_accounts]
    show ((modAccount b y.account _ (putPower b k none s)).account y.account).power = none
    rw [modAccount_account, if_pos rfl, Account.settled_power]
  · exact (serve_feederWork b _ _).sameNotices.trans (NoticeView.raise _ _ ⟨⟨rfl, rfl⟩, rfl, rfl, rfl, rfl⟩)

/-- A resume request does what R110 says, to a session SUSPENDED. -/
theorem resumePower_resumes {b s : State} {a : AccountId} {k : SocketId} {y : PowerSession} (hb : b.feeders = s.feeders)
    (hy : s.power.get k = some y) (hs : y.state = .suspended) : PowerResumes a k y s s (resumePower b k s) := by
  refine ⟨fun hh => ?_, fun hh ha => ?_⟩
  · rw [resumePower_held b hy hs hh]
    exact ⟨Table.get_put_self .., rfl, rfl, rfl⟩
  have he := resumePower_admits b hy hs hh
  subst ha
  intro p f eff cap free noRoom resumed
  have hat : attempted s k { y with cause := none } = { y with cause := none, fallback32 := decide (eff = 63) } := rfl
  have hy0 : heldOf (s.power.get k) = 0 := by rw [hy]; exact hh
  have hyw : isWaiting (s.power.get k) = false := by rw [hy, isWaiting, hs]; rfl
  have hno : noRoom → admissionRoom s k { y with cause := none } = none := by
    unfold admissionRoom
    rintro (h | ⟨h1, h2⟩)
    · exact if_neg h
    · cases hr : roomFor s k { y with cause := none } with
      | none => exact ite_self none
      | some n =>
        rcases roomFor_some hr with ⟨hfits, -⟩ | ⟨-, h63, hfits, -⟩
        · exact absurd hfits (Nat.not_le.2 h1)
        · exact absurd hfits (Nat.not_le.2 (h2.resolve_left (not_not.2 h63)))
  refine ⟨fun amps hf hr => ?_, fun hr hl => ?_, fun hr hl => ?_⟩
  · have hroom : RoomAt s k { y with cause := none } amps := hr.imp_right (And.imp_left Nat.not_le.2)
    have hpos : 0 < amps := by
      have := effectiveWish_pos s k y
      rcases hr with ⟨-, rfl⟩ | ⟨-, -, -, rfl⟩
      · exact this
      · decide
    rw [he, enterAdmission_granted b hf.1 hf.2 hroom, Option.getD_some, grant, hat]
    refine ⟨rfl, rfl, ?_, ?_, rfl, rfl⟩
    · refine putPower_feeders_of_ne hb ?_ ?_ (.inl (show f.heldSum + amps ≠ f.heldSum by omega))
      · show f.heldSum - heldOf (s.power.get k) + amps = f.heldSum + amps
        rw [hy0, Nat.sub_zero]
      · show waitListAfter f.waitList k (isWaiting (s.power.get k)) false = f.waitList
        rw [hyw]; rfl
    · rw [putPower_desired]; rfl
  · rw [he, enterAdmission_waits b (hno hr) hl, Option.getD_some, joinWaitList, hat]
    have hlist : f.waitList ++ [k] ≠ f.waitList := by simp
    dsimp only
    rw [joined_length b k y _ s hy (by rw [hs]; decide) rfl, raise_power, raise_feeders, raise_grantCount]
    refine ⟨rfl, putPower_feeders_of_ne hb ?_ ?_ (.inr hlist), rfl,
      NoticeView.raise _ _ (putPower_feederWork ..).noticeView⟩
    · show f.heldSum - heldOf (s.power.get k) + y.held = f.heldSum
      rw [hy0, hh]; rfl
    · show waitListAfter f.waitList k (isWaiting (s.power.get k)) true = f.waitList ++ [k]
      rw [hyw]; rfl
  · rw [he, enterAdmission_full b (hno hr) hl, Option.getD_none]
    exact endPower_leaves b .full hy

/-! ### What a request to a power session leaves a water session -/

theorem endPower_waterView (b : State) (k : SocketId) (w : PowerEnd) (s : State) : WaterView s (endPower b k w s) := by
  unfold endPower
  split
  · exact .refl s
  · refine WaterView.trans ?_ ((raise_waterView ..).trans (serve_feederWork ..).waterView)
    refine (putPower_feederWork b k none s).waterView.trans ⟨rfl, fun a => ?_, fun a => ?_, rfl⟩
    all_goals
      rw [modAccount_account]
      split
      · next e => subst e; rfl
      · rfl

theorem enterAdmission_waterView {b s t : State} {k : SocketId} {x : PowerSession} (h : enterAdmission b k x s = some t) :
    WaterView s t := by
  unfold enterAdmission at h
  split at h <;> cases h
  · exact (grant_feederWork ..).waterView
  · exact (putPower_feederWork ..).waterView.trans (raise_waterView ..)

theorem resumePower_waterView (b : State) (k : SocketId) (s : State) : WaterView s (resumePower b k s) := by
  unfold resumePower
  split
  · exact .refl s
  · split
    · split
      · exact (putPower_feederWork ..).waterView
      · split
        · next h => exact enterAdmission_waterView h
        · exact endPower_waterView ..
    · exact .refl s

theorem unbarIntoArrears_waterView (b : State) (a : AccountId) (k : SocketId) (s : State) :
    WaterView s (unbarIntoArrears b a k s) := by
  unfold unbarIntoArrears
  split
  · split
    · exact resumePower_waterView ..
    · exact suspendPower_waterView ..
  · exact .refl s

/-! ### BARRED to ARREARS -/

theorem suspendedFor_iff {s : State} {k : SocketId} {y : PowerSession} {c : Cause} (hy : s.power.get k = some y)
    (hs : y.state = .suspended) : suspendedFor s k c = true ↔ y.cause = some c := by
  simp [suspendedFor, hy, hs]

theorem unbarIntoArrears_resumes (b : State) {a : AccountId} {k : SocketId} {s : State} {y : PowerSession}
    (hy : s.power.get k = some y) (hs : y.state = .suspended) (hc : y.cause = some .barred)
    (hg : (s.account a).arrearsNights < (s.classOf (s.account a)).grace) :
    unbarIntoArrears b a k s = resumePower b k s :=
  (if_pos ((suspendedFor_iff hy hs).2 hc)).trans (if_pos hg)

/-- At or past the grace the session stays SUSPENDED for ARREARS (R10). -/
theorem unbarIntoArrears_stays (b : State) {a : AccountId} {k : SocketId} {s : State} {y : PowerSession}
    (hy : s.power.get k = some y) (hs : y.state = .suspended) (hc : y.cause = some .barred)
    (hg : (s.classOf (s.account a)).grace ≤ (s.account a).arrearsNights) :
    unbarIntoArrears b a k s = putPower b k (some { y with cause := some .arrears }) s := by
  refine (if_pos ((suspendedFor_iff hy hs).2 hc)).trans ((if_neg (Nat.not_lt.2 hg)).trans ?_)
  unfold suspendPower
  simp only [hy, hs]

/-! ### The requests of UNBAR, made of the state in which STANDING_CHANGED is raised -/

theorem toWater_powerView (b : State) (a : AccountId) (s : State) : PowerView s (toWater a (fun t => resumeWater b t) s) := by
  unfold toWater
  split
  · exact .refl s
  · exact resumeWater_powerView ..

theorem toWater_noticeView (b : State) (a : AccountId) (s : State) :
    NoticeView s (toWater a (fun t => resumeWater b t) s) := by
  unfold toWater
  split
  · exact .refl s
  · exact resumeWater_noticeView ..

theorem toWater_accounts (b : State) (a : AccountId) (s : State) :
    (toWater a (fun t => resumeWater b t) s).accounts = s.accounts := by
  unfold toWater
  split
  · rfl
  · exact resumeWater_accounts ..

section Told
variable {a : AccountId} {w : Account} {s : State}

theorem put_cls (hc : w.cls = (s.account a).cls) (i : AccountId) : ((s.accounts.put a w).get i).cls = (s.account i).cls := by
  rw [Table.get_put]
  split
  · next e => subst e; exact hc
  · rfl

theorem standingTold_powerView (hp : w.power = (s.account a).power) (hc : w.cls = (s.account a).cls) :
    PowerView s (standingTold a w s) := by
  rw [standingTold, (raise_noticed_self ..).eq]
  refine ⟨rfl, rfl, rfl, fun _ => rfl, fun _ => rfl, fun i => ?_, fun i => ?_⟩
  · show ((s.accounts.put a w).get i).power = (s.account i).power
    rw [Table.get_put]
    split
    · next e => subst e; exact hp
    · rfl
  · show (s.classes.get ((s.accounts.put a w).get i).cls).val = (s.classes.get (s.account i).cls).val
    rw [put_cls hc]

theorem standingTold_waterView (hq : w.water = (s.account a).water) (hc : w.cls = (s.account a).cls) :
    WaterView s (standingTold a w s) := by
  rw [standingTold, (raise_noticed_self ..).eq]
  refine ⟨rfl, fun i => ?_, put_cls hc, rfl⟩
  show ((s.accounts.put a w).get i).water = (s.account i).water
  rw [Table.get_put]
  split
  · next e => subst e; exact hq
  · rfl

theorem standingTold_noticeView : NoticeView
    (raise .standingChanged { account := some a, value := some w.balance, reason := some (.standing w.standing) } s)
    (standingTold a w s) where
  same := NoticeView.raise _ _ ⟨⟨rfl, rfl⟩, rfl, rfl, rfl, rfl⟩
  device := by simp only [standingTold, raise_device]
  clock := by simp only [standingTold, raise_clock]
  levels := by simp only [standingTold, raise_levels]
  thresholds := by simp only [standingTold, raise_thresholds]

end Told

end Sys2Proof.Machine

namespace Sys2Proof.Machine

/-- What STANDING_CHANGED carries of account `x` (R10). -/
def standingInfo (a : AccountId) (x : Account) (new : Standing) : NoticeInfo :=
  { account := some a, value := some x.balance, reason := some (.standing new) }

/-- The state in which UNBAR makes its requests (R18, R10). -/
def unbarTold (a : AccountId) (new : Standing) (nights : Nat) (s : State) : State :=
  standingTold a (reflagged (s.account a) false new nights) s

theorem unbarTold_account (a : AccountId) (new : Standing) (nights : Nat) (s : State) :
    (unbarTold a new nights s).account a = reflagged (s.account a) false new nights := standingTold_account ..

theorem unbarTold_powerView (a : AccountId) (new : Standing) (nights : Nat) (s : State) :
    PowerView s (unbarTold a new nights s) := standingTold_powerView rfl rfl

theorem unbarTold_waterView (a : AccountId) (new : Standing) (nights : Nat) (s : State) :
    WaterView s (unbarTold a new nights s) := standingTold_waterView rfl rfl

theorem unbarTold_noticeView (a : AccountId) (new : Standing) (nights : Nat) (s : State) : NoticeView
    (raise .standingChanged (standingInfo a (s.account a) new) s)
    (unbarTold a new nights s) := standingTold_noticeView (w := reflagged (s.account a) false new nights)

/-- The requests of UNBAR for an account that becomes GOOD: power first (log 14). -/
theorem standingRequests_good (b : State) (a : AccountId) (s : State) :
    standingRequests b a .barred .good s =
      toWater a (fun t => resumeWater b t) (toPower a (fun k => resumePower b k) s) := rfl

/-- The requests of UNBAR for an account that falls into ARREARS: water first (log 14). -/
theorem standingRequests_arrears (b : State) (a : AccountId) (s : State) :
    standingRequests b a .barred .arrears s =
      toPower a (fun k => unbarIntoArrears b a k) (toWater a (fun t => resumeWater b t) s) := rfl

section Unbar
variable {a : AccountId} {s : State} {nights : Nat}

theorem toWater_resumes {u : State} {k : TapId} {y : WaterSession} (h : WaterView s u)
    (hk : (s.account a).water = some k) (hy : s.water.get k = some y) (hs : y.state = .suspended) (ha : y.account = a) :
    (toWater a (fun t => resumeWater s t) u).water.get k =
      some (resumedWater (s.classOf (s.account a)).waterCap y) := by
  subst ha
  rw [toWater_of_some ((h.link _).trans hk)]
  exact resumeWater_get s (by rw [h.water]; exact hy) hs (by rw [State.classOf, h.classes, h.cls]; rfl)

/-- The water session resumes, before or after the power session. -/
theorem unbar_water {new : Standing} {k : TapId} {y : WaterSession} (hne : new ≠ .barred)
    (hk : (s.account a).water = some k) (hy : s.water.get k = some y) (hs : y.state = .suspended) (ha : y.account = a) :
    (standingRequests s a .barred new (unbarTold a new nights s)).water.get k =
      some (resumedWater (s.classOf (s.account a)).waterCap y) := by
  have hr := unbarTold_waterView a new nights s
  cases new with
  | good =>
    rw [standingRequests_good]
    exact toWater_resumes (hr.trans (toPower_waterView (fun k u => resumePower_waterView s k u) _)) hk hy hs ha
  | arrears =>
    rw [standingRequests_arrears, (toPower_waterView (fun k u => unbarIntoArrears_waterView s a k u) _).water]
    exact toWater_resumes hr hk hy hs ha
  | barred => exact absurd rfl hne

/-- The power session resumes where its account becomes GOOD. -/
theorem unbar_good_resumes {k : SocketId} {y : PowerSession} (hk : (s.account a).power = some k)
    (hy : s.power.get k = some y) (hs : y.state = .suspended) :
    PowerResumes a k y s
      (raise .standingChanged (standingInfo a (s.account a) .good) s)
      (standingRequests s a .barred .good (unbarTold a .good nights s)) := by
  have hr := unbarTold_powerView a .good nights s
  rw [standingRequests_good, toPower_of_some ((hr.link a).trans hk)]
  have h := resumePower_resumes (a := a) (k := k) hr.feeders.symm (by rw [hr.power]; exact hy) hs
  exact h.of_views hr (unbarTold_noticeView ..) (toWater_powerView ..) (toWater_noticeView ..)

/-- What stands when the power session is asked to resume in ARREARS: the water session has been asked. -/
theorem unbar_arrears_views (a : AccountId) (s : State) (nights : Nat) :
    let q := toWater a (fun t => resumeWater s t) (unbarTold a .arrears nights s)
    PowerView s q
    ∧ NoticeView (raise .standingChanged (standingInfo a (s.account a) .arrears) s) q
    ∧ (q.account a).arrearsNights = nights := by
  refine ⟨(unbarTold_powerView ..).trans (toWater_powerView ..),
    (unbarTold_noticeView ..).trans (toWater_noticeView ..), ?_⟩
  rw [State.account, toWater_accounts]
  exact congrArg Account.arrearsNights (unbarTold_account ..)

/-- In ARREARS below the grace the power session suspended for BARRED resumes. -/
theorem unbar_arrears_resumes {k : SocketId} {y : PowerSession} (hk : (s.account a).power = some k)
    (hy : s.power.get k = some y) (hs : y.state = .suspended) (hc : y.cause = some .barred)
    (hg : nights < (s.classOf (s.account a)).grace) :
    PowerResumes a k y s
      (raise .standingChanged (standingInfo a (s.account a) .arrears) s)
      (standingRequests s a .barred .arrears (unbarTold a .arrears nights s)) := by
  obtain ⟨hp, hn, hnights⟩ := unbar_arrears_views a s nights
  rw [standingRequests_arrears, toPower_of_some ((hp.link a).trans hk)]
  have hy' := (congrArg (fun p => p.get k) hp.power).trans hy
  rw [unbarIntoArrears_resumes s hy' hs hc (by rw [hnights, hp.classOf]; exact hg)]
  exact (resumePower_resumes hp.feeders.symm hy' hs).of_views hp hn (.refl _) (.refl _)

/-- In ARREARS at or past the grace it stays SUSPENDED, for ARREARS. -/
theorem unbar_arrears_stays {k : SocketId} {y : PowerSession} (hk : (s.account a).power = some k)
    (hy : s.power.get k = some y) (hs : y.state = .suspended) (hc : y.cause = some .barred)
    (hg : (s.classOf (s.account a)).grace ≤ nights) :
    let t := standingRequests s a .barred .arrears (unbarTold a .arrears nights s)
    t.power.get k = some { y with cause := some .arrears }
    ∧ SameNotices t (raise .standingChanged (standingInfo a (s.account a) .arrears) s) := by
  obtain ⟨hp, hn, hnights⟩ := unbar_arrears_views a s nights
  have hy' := (congrArg (fun p => p.get k) hp.power).trans hy
  dsimp only
  rw [standingRequests_arrears, toPower_of_some ((hp.link a).trans hk),
    unbarIntoArrears_stays s hy' hs hc (by rw [hnights, hp.classOf]; exact hg)]
  exact ⟨Table.get_put_self .., (putPower_feederWork ..).sameNotices.trans hn.same⟩

end Unbar

/-- UNBAR of a barred account writes the flag and makes the requests of the new standing (R18, R10). -/
theorem unbarThis_eq {a : AccountId} {s : State} {new : Standing} {nights : Nat} (hf : (s.account a).state ≠ .free)
    (hb : (s.account a).barredFlag = true) (hs : (s.account a).standing = .barred)
    (hnew : standingOf false (s.account a).balance (s.classOf (s.account a)).floor = new)
    (hn : arrearsNightsAfter .barred new (s.account a).arrearsNights = nights) :
    unbarThis a s = .ok (standingRequests s a .barred new (unbarTold a new nights s), [.done [wordItem new.word]])
    ∧ OnlySessions
        { s with accounts := s.accounts.put a
                  { s.account a with barredFlag := false, standing := new, arrearsNights := nights } }
        (standingRequests s a .barred new (unbarTold a new nights s)) := by
  have hne : new ≠ .barred := by
    rw [← hnew, standingOf, if_neg Bool.false_ne_true]
    split <;> decide
  have he : evaluateStanding s a (putAccount s a { s.account a with barredFlag := false } s)
      = standingRequests s a .barred new (unbarTold a new nights s) :=
    (evaluateStanding_flag (n := nights) (by rw [hb]; decide) hnew (by rw [hs]; exact hn) hf
      (by rw [hs]; exact hne)).trans (by rw [hs]; rfl)
  have hput : OnlySessions
      { s with accounts := s.accounts.put a
                { s.account a with
                  barredFlag := false
                  standing := standingOf false (s.account a).balance (s.classOf (s.account a)).floor
                  arrearsNights := arrearsNightsAfter (s.account a).standing
                    (standingOf false (s.account a).balance (s.classOf (s.account a)).floor) (s.account a).arrearsNights } }
      (evaluateStanding s a (putAccount s a { s.account a with barredFlag := false } s)) :=
    evaluateStanding_put (y := { s.account a with barredFlag := false }) s hf (.refl _)
  rw [hnew, hs, hn, he] at hput
  refine ⟨(if_pos hb).trans ?_, hput⟩
  have hst : ((standingRequests s a .barred new (unbarTold a new nights s)).account a).standing = new := by
    rw [hput.2.1 a]
    exact congrArg Account.standing (Table.get_put_self ..)
  rw [he, done]
  exact congrArg (fun st : Standing => Except.ok (_, [ReplyLine.done [wordItem st.word]])) hst

/-- Settles O22: the flag is written, the standing evaluated, and the sessions asked in the order of their case. -/
theorem unbarEvaluatesTheStanding : Obligations.UnbarEvaluatesTheStanding := by
  intro o a s hr hf x standing nights told
  have hown : onOpenAccount a.val unbarThis s = unbarThis a s := onOpenAccount_of_ne hf
  refine ⟨fun hb => ?_, fun hb hs => ?_⟩
  · exact (unbar_form o _).taken hr
      (hown.trans (if_neg (by rw [show (s.account a).barredFlag = false from hb]; exact Bool.false_ne_true)))
  have hcase : standing = .good ∨ standing = .arrears := by
    by_cases h : x.balance < (s.classOf x).floor
    · exact .inr (if_pos h)
    · exact .inl (if_neg h)
  have hn : arrearsNightsAfter .barred standing x.arrearsNights = nights := by
    rcases hcase with e | e
    · rw [show nights = 0 from if_pos e, e]; rfl
    · rw [show nights = x.arrearsNights from if_neg (by rw [e]; decide), e]; rfl
  obtain ⟨ho, honly⟩ := unbarThis_eq (new := standing) hf hb hs rfl hn
  have hexec := (unbar_form o _).taken hr (hown.trans ho)
  have hne : standing ≠ .barred := by rcases hcase with e | e <;> rw [e] <;> decide
  refine ⟨_, ?_, honly, fun k y hk hy hst ha => unbar_water hne hk hy hst ha, fun k y hk hy hst hc harr hg => ?_,
    fun k y hk hy hst hgo => ?_⟩
  · refine hexec.trans ?_
    rcases hcase with e | e <;> rw [e] <;> rfl
  · have hnights : nights = x.arrearsNights := if_neg (by rw [harr]; decide)
    have h := unbar_arrears_stays (nights := nights) hk hy hst hc (by rw [hnights]; exact hg)
    rw [← harr] at h
    exact h
  · have h : PowerResumes a k y s told (standingRequests s a .barred standing (unbarTold a standing nights s)) := by
      rcases hcase with e | e
      · have h := unbar_good_resumes (nights := nights) hk hy hst
        rw [← e] at h
        exact h
      · have hnights : nights = x.arrearsNights := if_neg (by rw [e]; decide)
        obtain ⟨hc, hg⟩ := hgo.resolve_left (by rw [e]; decide)
        have h := unbar_arrears_resumes (nights := nights) hk hy hst hc (by rw [hnights]; exact hg)
        rw [← e] at h
        exact h
    exact h

end Sys2Proof.Machine

/-! ## Tariff arithmetic (O25, O28, O29) -/

namespace Sys2Proof.Machine

/-! ### Packed quantities (R21, R22) -/

/-- The quantity of a 16-bit code that is not the fault marker: below exponent 1 the mantissa, from there on 4096 + mantissa, doubled at each further exponent. -/
def packedValue (w : Nat) : Nat :=
  if w / 4096 = 0 then w % 4096 else (4096 + w % 4096) * 2 ^ (w / 4096 - 1)

theorem unpack_eq_none : unpack 65535 = none := rfl

theorem unpack_eq_packedValue {w : Nat} (hw : w < 65536) (hm : w ≠ 65535) : unpack w = some (packedValue w) := by
  have he : w / 4096 % 16 = w / 4096 := by omega
  have hn : ¬ (w / 4096 = 15 ∧ w % 4096 = 4095) := by omega
  simp only [unpack, packedValue, he, if_neg hn]
  split <;> rfl

theorem unpack_eq_some_iff {w q : Nat} (hw : w < 65536) :
    unpack w = some q ↔ w ≠ 65535 ∧ packedValue w = q := by
  by_cases hm : w = 65535
  · subst hm
    simp [unpack_eq_none]
  · simp [unpack_eq_packedValue hw hm, hm]

theorem packedValue_of_exponent_pos {w : Nat} (h : 1 ≤ w / 4096) :
    packedValue w = (4096 + w % 4096) * 2 ^ (w / 4096 - 1) := if_neg (by omega)

theorem packedValue_lt (w : Nat) : packedValue w < 4096 * 2 ^ (w / 4096) := by
  have hm : w % 4096 < 4096 := Nat.mod_lt _ (by decide)
  by_cases h : w / 4096 = 0
  · simpa [packedValue, h] using hm
  · calc packedValue w = (4096 + w % 4096) * 2 ^ (w / 4096 - 1) := if_neg h
      _ < (4096 * 2) * 2 ^ (w / 4096 - 1) := Nat.mul_lt_mul_of_pos_right (by omega) (Nat.two_pow_pos _)
      _ = 4096 * 2 ^ (w / 4096) := by rw [Nat.mul_assoc, mul_pow_sub_one h]

theorem le_packedValue {w : Nat} (h : 1 ≤ w / 4096) : 4096 * 2 ^ (w / 4096 - 1) ≤ packedValue w := by
  rw [packedValue_of_exponent_pos h]
  exact Nat.mul_le_mul_right _ (Nat.le_add_right ..)

/-- A higher code carries a larger quantity: within an exponent by the mantissa, and each exponent begins above all that the one below it reaches. -/
theorem packedValue_strictMono : StrictMono packedValue := by
  intro v w h
  rcases Nat.lt_or_eq_of_le (Nat.div_le_div_right (c := 4096) h.le) with he | he
  · calc packedValue v < 4096 * 2 ^ (v / 4096) := packedValue_lt v
      _ ≤ 4096 * 2 ^ (w / 4096 - 1) := Nat.mul_le_mul_left _ (Nat.pow_le_pow_right (by decide) (by omega))
      _ ≤ packedValue w := le_packedValue (by omega)
  · have hm : v % 4096 < w % 4096 := by omega
    simp only [packedValue, he]
    split
    · exact hm
    · exact Nat.mul_lt_mul_of_pos_right (by omega) (Nat.two_pow_pos _)

/-! ### Exact charges (R27, R29) -/

theorem splitTotal_eq (n : Nat) : splitTotal n = (n / 10000, n % 10000) := rfl

theorem chargeOf_eq (rho q r : Nat) : chargeOf rho q r = ((rho + q * r) / 10000, (rho + q * r) % 10000) := rfl

/-- A total taken in two parts, the second on the residue of the first, costs what the whole costs and leaves its residue. -/
theorem splitTotal_add (m n : Nat) :
    splitTotal (m + n) =
      ((splitTotal m).1 + (splitTotal ((splitTotal m).2 + n)).1, (splitTotal ((splitTotal m).2 + n)).2) := by
  simp only [splitTotal_eq, Prod.mk.injEq]
  omega

theorem chargeOf_add (rho p q r : Nat) :
    chargeOf rho (p + q) r =
      ((chargeOf rho p r).1 + (chargeOf (chargeOf rho p r).2 q r).1, (chargeOf (chargeOf rho p r).2 q r).2) := by
  rw [chargeOf, Nat.add_mul, ← Nat.add_assoc]
  exact splitTotal_add _ _

/-- However many parts a night charge is cut into, it costs what one charge of all its nights costs. -/
theorem nightParts_eq_chargeOf (loa r : Nat) : ∀ fuel rho n : Nat, nightParts loa r fuel rho n = chargeOf rho (loa * n) r
  | 0, _, _ => rfl
  | fuel + 1, rho, n => by
    unfold nightParts
    split
    · rfl
    · next h =>
      have hn : loa * n = loa * Config.nightsLimit + loa * (n - Config.nightsLimit) := by
        rw [← Nat.mul_add, Nat.add_sub_of_le (Nat.le_of_not_le h)]
      simp only [nightParts_eq_chargeOf loa r fuel, hn, chargeOf_add]

/-- Settles O25: `packedValue` gives every code its quantity, and it is strictly increasing. -/
theorem packedQuantityIsUnpackedByItsExponent : Obligations.PackedQuantityIsUnpackedByItsExponent := by
  refine ⟨fun w hw => ⟨fun h => ?_, fun hm he => ?_, fun hm he => ?_, fun hm he => ?_⟩,
    fun v w q hv hw h k => ?_, fun w q hw h => ?_, rfl, fun rho r hr => ?_⟩
  · rw [h, unpack_eq_none]
  · rw [unpack_eq_packedValue hw hm, packedValue, if_pos he]
  · rw [unpack_eq_packedValue hw hm, packedValue_of_exponent_pos he.ge, he, Nat.sub_self, Nat.pow_zero, Nat.mul_one]
  · rw [unpack_eq_packedValue hw hm, packedValue_of_exponent_pos (by omega)]
  · have hq := ((unpack_eq_some_iff hv).1 h).2
    exact packedValue_strictMono.injective (hq.trans ((unpack_eq_some_iff hw).1 k).2.symm)
  · obtain ⟨hm, rfl⟩ := (unpack_eq_some_iff hw).1 h
    calc packedValue w ≤ packedValue 65534 := packedValue_strictMono.monotone (by omega)
      _ = 134184960 := rfl
  · rw [chargeOf_eq, Nat.zero_mul, Nat.add_zero, Nat.div_eq_of_lt hr, Nat.mod_eq_of_lt hr]

/-- Settles O28. -/
theorem nightPartsCostOneComputation : Obligations.NightPartsCostOneComputation :=
  fun _ _ _ _ _ => nightParts_eq_chargeOf ..

/-! ### Fuel money (R32 to R37) -/

theorem volumeFor_zero (cents : Nat) : volumeFor cents 0 = none := rfl

theorem volumeFor_of_ne {r : Nat} (h : r ≠ 0) (cents : Nat) : volumeFor cents r = some (cents * 10000 / r) := if_neg h

/-- The volume that money buys is the largest whole one it pays for (R32). -/
theorem volumeFor_spec {cents r v : Nat} (h : volumeFor cents r = some v) :
    v * r ≤ cents * 10000 ∧ cents * 10000 < (v + 1) * r := by
  by_cases hr : r = 0
  · subst hr
    cases h
  · obtain rfl : cents * 10000 / r = v := Option.some.inj ((volumeFor_of_ne hr cents).symm.trans h)
    exact ⟨Nat.div_mul_le_self .., (Nat.div_lt_iff_lt_mul (Nat.pos_of_ne_zero hr)).1 (Nat.lt_succ_self _)⟩

theorem moneyHoldFor_covers (limit r : Nat) : limit * r ≤ moneyHoldFor limit r * 10000 := by
  show limit * r ≤ (limit * r + 9999) / 10000 * 10000
  omega

theorem moneyHoldFor_le {limit r c : Nat} (h : limit * r ≤ c * 10000) : moneyHoldFor limit r ≤ c := by
  show (limit * r + 9999) / 10000 ≤ c
  omega

/-- Settles O29: the volume is a floor, the hold a ceiling, and the hold of a limit within the volume is covered by the money that bought it. -/
theorem fuelMoneyCoversTheLimit : Obligations.FuelMoneyCoversTheLimit := by
  refine ⟨fun _ _ _ => volumeFor_spec, fun cents _ h => volumeFor_of_ne h cents, volumeFor_zero,
    fun limit r => ⟨moneyHoldFor_covers limit r, fun _ => moneyHoldFor_le⟩, fun cents r v limit h hl => ?_,
    fun delivered r paid => ⟨Nat.min_le_right .., Nat.min_eq_left⟩⟩
  exact moneyHoldFor_le (calc
    limit * r ≤ v * r := Nat.mul_le_mul_right r hl
    _ ≤ cents * 10000 := (volumeFor_spec h).1)

end Sys2Proof.Machine

/-! ## Account charges (O26, O27) -/

namespace Sys2Proof.Machine

/-! ### What a charge does to the account -/

/-- The index of a rate is class × 24 + service × 4 + band (R26). -/
theorem rateOf_eq {c : ClassId} {v : Service} {d : Band} {i : Fin 96}
    (h : i.val = c.val * 24 + (serviceIx v).val * 4 + d.val) (s : State) : rateOf s c v d = (s.rates.get i).val := by
  have hi : rateIndex c v d = i := Fin.ext h.symm
  rw [rateOf, hi]

theorem accountCharge_eq (s : State) (a : AccountId) (v : Service) (q : Nat) (d : Band) :
    accountCharge s a v q d =
      splitTotal ((s.account a).residues.get (serviceIx v) + q * rateOf s (s.account a).cls v d) := rfl

/-- The account with another residue of service `v`. -/
def withResidue (x : Account) (v : Service) (residue : Nat) : Account :=
  { x with residues := x.residues.put (serviceIx v) residue }

/-- A charge writes the residue and debits the cents, in one change. -/
theorem charge_debits (s : State) (a : AccountId) (v : Service) (q : Nat) (d : Band) :
    ∃ r, AccountWritten a (withResidue (s.account a) v (accountCharge s a v q d).2) s r
      ∧ charge s a v q d s = debitAccount s a (accountCharge s a v q d).1 r :=
  ⟨_, modAccount_written s a (fun x => withResidue x v (accountCharge s a v q d).2) s, rfl⟩

/-- A debit of an account just written as `x` writes `debitedAccount x`, tells of a clamp, and evaluates the standing. -/
theorem debitAccount_evaluates (b : State) (cents : Nat) {a : AccountId} {x : Account} {s r : State}
    (h : AccountWritten a x s r) :
    ∃ (e : Edition) (u : State),
      Noticed { s with accounts := s.accounts.put a { debitedAccount x cents with edition := e } } u
      ∧ debitAccount b a cents r = evaluateStanding b a u := by
  obtain ⟨e', he⟩ := putAccount_again b (debitedAccount x cents) h
  obtain ⟨e, hx⟩ := h.get
  unfold debitAccount
  simp only [hx]
  by_cases hc : x.balance - cents < -99999999
  · have hy : debitedAccount x cents = { x with balance := -99999999, clamped := true } := by
      simp only [debitedAccount, decide_eq_true hc, Bool.or_true, if_true]
    rw [if_neg (show ¬ -Config.balanceLimit ≤ x.balance - cents from Int.not_le.2 hc)]
    refine ⟨e', _, ?_, rfl⟩
    rw [← he, hy]
    exact raise_noticed_self ..
  · have hy : debitedAccount x cents = { x with balance := x.balance - cents } := by
      simp only [debitedAccount, decide_eq_false hc, Bool.or_false, Bool.false_eq_true, if_false]
    rw [if_pos (show -Config.balanceLimit ≤ x.balance - cents from Int.not_lt.1 hc)]
    refine ⟨e', _, ?_, rfl⟩
    rw [← he, hy]
    exact .refl _

/-- Settles O26: residue and balance are written, the notice of a clamp raised, and the standing evaluated. -/
theorem chargeAppliesWholeCentsAndKeepsTheRest : Obligations.ChargeAppliesWholeCentsAndKeepsTheRest := by
  refine ⟨fun _ _ => rfl, ?_⟩
  intro s a v q d i hf hi x total cents clamps balance standing
  have hc : accountCharge s a v q d = (cents, total % 10000) := by
    rw [accountCharge_eq, rateOf_eq hi, splitTotal_eq]
  obtain ⟨r, hr, hd⟩ := charge_debits s a v q d
  rw [hc] at hr hd
  obtain ⟨e, u, hu, he⟩ := debitAccount_evaluates s cents hr
  refine ⟨hc, hd ▸ debitAccount_charged s cents hr, ?_⟩
  rw [hd, he]
  exact evaluateStanding_put (y := debitedAccount (withResidue x v (total % 10000)) cents) s hf hu

/-! ### Two charges of one service (R28) -/

theorem charge_rates (b : State) (a : AccountId) (v : Service) (q : Nat) (d : Band) (s : State) :
    (charge b a v q d s).rates = s.rates := by rw [(charge_worked b a v q d (.refl s)).eq]

theorem charge_classOf (b : State) (a : AccountId) (v : Service) (q : Nat) (d : Band) (s : State) (x : Account) :
    (charge b a v q d s).classOf x = s.classOf x := by rw [(charge_worked b a v q d (.refl s)).eq]; rfl

/-- What a charge that does not clamp leaves of its account, in the fields that a further charge looks at. -/
theorem charge_account (s : State) (a : AccountId) (v : Service) (q : Nat) (d : Band)
    (hb : -99999999 ≤ (s.account a).balance - (accountCharge s a v q d).1) :
    let x := s.account a
    let y := (charge s a v q d s).account a
    y.cls = x.cls ∧ y.barredFlag = x.barredFlag
    ∧ y.balance = x.balance - (accountCharge s a v q d).1
    ∧ y.residues = x.residues.put (serviceIx v) (accountCharge s a v q d).2
    ∧ (x.state ≠ .free → y.standing = standingOf x.barredFlag y.balance (s.classOf x).floor) := by
  intro x y
  obtain ⟨r, hr, hd⟩ := charge_debits s a v q d
  obtain ⟨hy, hs, -⟩ := debitAccount_account s (accountCharge s a v q d).1 hr
  rw [← hd] at hy hs
  have hn : ¬ decide (x.balance - (accountCharge s a v q d).1 < -99999999) = true := by
    rw [decide_eq_true_iff]; exact Int.not_lt.2 hb
  have hcls := congrArg Account.cls hy
  have hflag := congrArg Account.barredFlag hy
  have hres := congrArg Account.residues hy
  exact ⟨hcls, hflag, (congrArg Account.balance hy).trans (if_neg hn), hres, hs⟩

/-- Two charges of one service take the whole cents of their total and leave its rest, where that does not clamp. -/
theorem charge_charge_account {s : State} {a : AccountId} {v : Service} {q₁ q₂ : Nat} {d₁ d₂ : Band} {total : Nat}
    (hf : (s.account a).state ≠ .free)
    (htotal : total = (s.account a).residues.get (serviceIx v) + q₁ * rateOf s (s.account a).cls v d₁
      + q₂ * rateOf s (s.account a).cls v d₂)
    (hb : -99999999 ≤ (s.account a).balance - (total / 10000 : Nat)) :
    let x := s.account a
    let t := charge s a v q₁ d₁ s
    let y := (charge t a v q₂ d₂ t).account a
    y.balance = x.balance - (total / 10000 : Nat)
    ∧ y.residues = x.residues.put (serviceIx v) (total % 10000)
    ∧ y.standing = standingOf x.barredFlag (x.balance - (total / 10000 : Nat)) (s.classOf x).floor := by
  intro x t y
  have hle : (accountCharge s a v q₁ d₁).1 ≤ total / 10000 :=
    Nat.div_le_div_right (htotal ▸ Nat.le_add_right ..)
  obtain ⟨hcls, hflag, hbal, hres, -⟩ := charge_account s a v q₁ d₁ (by omega)
  change (t.account a).balance = _ at hbal
  have hsecond : accountCharge t a v q₂ d₂ =
      splitTotal ((accountCharge s a v q₁ d₁).2 + q₂ * rateOf s x.cls v d₂) := by
    rw [accountCharge_eq, hres, Table.get_put_self, hcls, rateOf, charge_rates]
    rfl
  have hsum := splitTotal_add ((s.account a).residues.get (serviceIx v) + q₁ * rateOf s (s.account a).cls v d₁)
    (q₂ * rateOf s (s.account a).cls v d₂)
  rw [← htotal, ← accountCharge_eq, ← hsecond, splitTotal_eq] at hsum
  obtain ⟨hcents, hrest⟩ := Prod.mk.inj hsum
  have htwo : (t.account a).balance - (accountCharge t a v q₂ d₂).1 = (s.account a).balance - (total / 10000 : Nat) := by
    rw [hbal, hcents]
    omega
  obtain ⟨-, -, hbal', hres', hst⟩ := charge_account t a v q₂ d₂ (htwo ▸ hb)
  have hfree : (t.account a).state ≠ .free := by rw [charge_state]; exact hf
  refine ⟨hbal'.trans htwo, ?_, ?_⟩
  · rw [hres', hres, Table.put_put, ← hrest]
  · rw [hst hfree, hbal', htwo, hflag, charge_classOf, State.classOf, hcls]
    rfl

/-- Settles O27: in either order the two charges take the whole cents of one total. -/
theorem chargesOfOneServiceCommute : Obligations.ChargesOfOneServiceCommute := by
  intro s a v q₁ q₂ d₁ d₂ hf x t u t' u' total hb
  obtain ⟨hbal, hres, hst⟩ := charge_charge_account (s := s) (total := total) hf rfl hb
  obtain ⟨hbal', hres', hst'⟩ := charge_charge_account (s := s) (total := total) hf (Nat.add_right_comm ..) hb
  exact ⟨hbal, hres, hbal'.trans hbal.symm, hres'.trans hres.symm, hst'.trans hst.symm⟩

end Sys2Proof.Machine

/-! ## The choice of ALLOCATE (O30) -/

namespace Sys2Proof.Machine

/-- R47: a smaller LOA maximum, or the same and a lower number. -/
def Tighter (s : State) (n m : BerthId) : Prop :=
  (s.berth n).cfg.loaMax < (s.berth m).cfg.loaMax ∨ (s.berth n).cfg.loaMax = (s.berth m).cfg.loaMax ∧ n ≤ m

theorem Tighter.refl (s : State) (n : BerthId) : Tighter s n n := .inr ⟨rfl, le_rfl⟩

theorem Tighter.trans {s : State} {n m k : BerthId} (h : Tighter s n m) (w : Tighter s m k) : Tighter s n k := by
  simp only [Tighter, Fin.le_def] at *; omega

theorem Tighter.antisymm {s : State} {n m : BerthId} (h : Tighter s n m) (w : Tighter s m n) : n = m := by
  simp only [Tighter, Fin.le_def] at *; exact Fin.ext (by omega)

/-- The better of two candidates of which the second has the higher number is the tighter. -/
theorem betterBerth_some {s : State} {m n : BerthId} (h : m < n) :
    ∃ k, betterBerth s (some m) n = some k ∧ (k = m ∨ k = n) ∧ Tighter s k m ∧ Tighter s k n := by
  unfold betterBerth
  dsimp only
  split
  · exact ⟨n, rfl, .inr rfl, .inl ‹_›, .refl s n⟩
  · refine ⟨m, rfl, .inl rfl, .refl s m, ?_⟩
    simp only [Tighter, Fin.le_def, Fin.lt_def] at h ⊢; omega

/-- Of candidates in ascending number the fold keeps the tightest. -/
theorem foldl_betterBerth (s : State) (ids : List BerthId) (m : BerthId) (h : (m :: ids).Pairwise (· < ·)) :
    ∃ k, ids.foldl (betterBerth s) (some m) = some k ∧ k ∈ m :: ids ∧ ∀ j ∈ m :: ids, Tighter s k j := by
  induction ids generalizing m with
  | nil => exact ⟨m, rfl, List.mem_singleton_self m, fun j hj => List.mem_singleton.1 hj ▸ .refl s m⟩
  | cons n rest ih =>
    obtain ⟨hm, hrest⟩ := List.pairwise_cons.1 h
    obtain ⟨hn, hrest'⟩ := List.pairwise_cons.1 hrest
    obtain ⟨b, hb, hbm, tm, tn⟩ := betterBerth_some (s := s) (hm n List.mem_cons_self)
    have hb' : (b :: rest).Pairwise (· < ·) := List.pairwise_cons.2 ⟨fun j hj => by
      rcases hbm with rfl | rfl
      · exact hm j (List.mem_cons_of_mem _ hj)
      · exact hn j hj, hrest'⟩
    obtain ⟨k, hk, hmem, htight⟩ := ih b hb'
    refine ⟨k, by rw [List.foldl_cons, hb]; exact hk, ?_, fun j hj => ?_⟩
    · rcases List.mem_cons.1 hmem with rfl | hmem
      · rcases hbm with rfl | rfl <;> simp
      · exact List.mem_cons_of_mem _ (List.mem_cons_of_mem _ hmem)
    · have hkb := htight b List.mem_cons_self
      rcases List.mem_cons.1 hj with rfl | hj
      · exact hkb.trans tm
      · rcases List.mem_cons.1 hj with rfl | hj
        · exact hkb.trans tn
        · exact htight j (List.mem_cons_of_mem _ hj)

/-- The choice on one pontoon: the tightest candidate, or none where there is none. -/
theorem bestOnPontoon_cases (s : State) (x : Account) (p : PontoonId) :
    (bestOnPontoon s x p = none ∧ ∀ n, isCandidate s x p n = false)
    ∨ ∃ n, bestOnPontoon s x p = some n ∧ isCandidate s x p n = true ∧ ∀ m, isCandidate s x p m = true → Tighter s n m := by
  have hmem : ∀ n, n ∈ (List.finRange 512).filter (isCandidate s x p) ↔ isCandidate s x p n = true := fun n => by
    simp only [List.mem_filter, List.mem_finRange, true_and]
  have hsorted : ((List.finRange 512).filter (isCandidate s x p)).Pairwise (· < ·) :=
    (List.pairwise_lt_finRange 512).filter _
  unfold bestOnPontoon
  generalize (List.finRange 512).filter (isCandidate s x p) = ids at hmem hsorted ⊢
  cases ids with
  | nil => exact .inl ⟨rfl, fun n => Bool.eq_false_iff.2 fun h => by simpa using (hmem n).2 h⟩
  | cons m rest =>
    obtain ⟨k, hk, hin, htight⟩ := foldl_betterBerth s rest m hsorted
    exact .inr ⟨k, hk, (hmem k).1 hin, fun j hj => htight j ((hmem j).2 hj)⟩

theorem bestOnPontoon_eq_none {s : State} {x : Account} {p : PontoonId} (h : ∀ n, ¬ isCandidate s x p n = true) :
    bestOnPontoon s x p = none := by
  obtain ⟨e, -⟩ | ⟨n, -, hn, -⟩ := bestOnPontoon_cases s x p
  · exact e
  · exact absurd hn (h n)

theorem bestOnPontoon_eq_some {s : State} {x : Account} {p : PontoonId} {n : BerthId} (hn : isCandidate s x p n = true)
    (ht : ∀ m, isCandidate s x p m = true → Tighter s n m) : bestOnPontoon s x p = some n := by
  obtain ⟨-, h⟩ | ⟨m, e, hm, hmt⟩ := bestOnPontoon_cases s x p
  · rw [h n] at hn; cases hn
  · rw [e, (ht m hm).antisymm (hmt n hn)]

theorem bestOnPontoon_candidate {s : State} {x : Account} {p : PontoonId} {n : BerthId} (h : bestOnPontoon s x p = some n) :
    isCandidate s x p n = true := by
  obtain ⟨e, -⟩ | ⟨m, e, hm, -⟩ := bestOnPontoon_cases s x p
  · exact absurd (h.symm.trans e) (Option.some_ne_none n)
  · obtain rfl : n = m := Option.some.inj (h.symm.trans e)
    exact hm

/-- The search is a search through the list for the first choice. The choice on a pontoon is kept opaque: evaluating it goes through 512 berths. -/
theorem searchBerth_eq (s : State) (x : Account) (ps : List PontoonId) :
    searchBerth s x ps = ps.findSome? (bestOnPontoon s x) := by
  delta searchBerth searchBerth._f
  generalize bestOnPontoon s x = best
  induction ps with
  | nil => rfl
  | cons p rest ih =>
    rw [List.findSome?_cons, ← ih]
    cases h : best p <;> dsimp only [List.brecOn, List.brecOn.go] <;> rw [h]

theorem fits_iff (s : State) (x : Account) (c : BerthCfg) : fits s x c = true ↔ Fits s x c := by
  unfold fits Fits
  simp only [Bool.and_eq_true, Bool.or_eq_true, decide_eq_true_eq, and_assoc]

theorem isCandidate_iff {s : State} {x : Account} {p : PontoonId} {n : BerthId} : isCandidate s x p n = true ↔
    (s.berth n).cfg.pontoon = p ∧ (s.berth n).state = .free ∧ Fits s x (s.berth n).cfg := by
  unfold isCandidate
  simp only [Bool.and_eq_true, decide_eq_true_eq, and_assoc, fits_iff]

/-- What the search finds is FREE. -/
theorem searchBerth_free {s : State} {x : Account} {ps : List PontoonId} {n : BerthId} (h : searchBerth s x ps = some n) :
    (s.berth n).state = .free := by
  rw [searchBerth_eq] at h
  obtain ⟨p, -, hp⟩ := List.exists_of_findSome?_eq_some h
  exact (isCandidate_iff.1 (bestOnPontoon_candidate hp)).2.1

theorem pontoonList_any : pontoonList .any = some (List.finRange 16) := rfl

theorem idents_map_val {k : Nat} (l : List (Fin k)) : idents k (l.map Fin.val) = some l := by
  induction l with
  | nil => rfl
  | cons i l ih => simp only [List.map_cons, idents, ident_val, ih]

theorem pontoonList_listed {l : List PontoonId} (h : l.Nodup) : pontoonList (.listed (l.map Fin.val)) = some l := by
  unfold pontoonList
  simp only [idents_map_val]
  exact if_pos h

/-! ### A record that RESERVE, ARRIVE and the like alter in its state -/

theorem Berth.settled_of_ne {x y : Berth} (h : { y with edition := x.edition } ≠ x) :
    x.settled y = { y with edition := x.edition + 1 } := by
  simp only [Berth.settled, editionAfter, beq_eq_false_iff_ne.2 h, Bool.false_eq_true, if_false]

theorem putBerth_of_ne {b : State} {n : BerthId} {y : Berth} {s : State}
    (h : { y with edition := (b.berth n).edition } ≠ b.berth n) :
    putBerth b n y s = { s with berths := s.berths.put n { y with edition := (b.berth n).edition + 1 } } := by
  simp only [putBerth, Berth.settled_of_ne h]

/-- A berth written in another state advances its edition (R39). -/
theorem putBerth_of_state {b : State} {n : BerthId} {y : Berth} {s : State} (h : y.state ≠ (b.berth n).state) :
    putBerth b n y s = { s with berths := s.berths.put n { y with edition := (b.berth n).edition + 1 } } :=
  putBerth_of_ne fun e => h (show ({ y with edition := (b.berth n).edition } : Berth).state = _ from congrArg Berth.state e)

/-- An account written in another state advances its edition (R1). -/
theorem putAccount_of_state {b : State} {a : AccountId} {y : Account} {s : State} (h : y.state ≠ (b.account a).state) :
    putAccount b a y s = { s with accounts := s.accounts.put a { y with edition := (b.account a).edition + 1 } } :=
  putAccount_of_ne fun e =>
    h (show ({ y with edition := (b.account a).edition } : Account).state = _ from congrArg Account.state e)

theorem withPlanned_eq (p : Option Int) (x : Account) :
    withPlanned p x = { x with planned := if p.isSome then p else x.planned } := by cases p <;> rfl

/-- The effect of a reservation of a FREE berth for an account that is OPEN (R49). -/
theorem makeReservation_eq {a : AccountId} {n : BerthId} {s : State} (d : Int) (p : Option Int)
    (ha : (s.account a).state = .opened) (hn : (s.berth n).state = .free) :
    makeReservation s a n d p s = reserved s a n d p := by
  unfold makeReservation
  rw [putBerth_of_state (by rw [hn]; exact nofun), modAccount, withPlanned_eq, putAccount_of_state]
  · rfl
  · show AccountState.reserved ≠ _
    rw [ha]; exact nofun

/-- Settles O30: the search is the tightest fit of the first pontoon that has one, and a reservation alters both records. -/
theorem allocateReservesTheTightestFit : Obligations.AllocateReservesTheTightestFit := by
  intro o a ps arrival planned s l day plan c hr hps hday hplan x candidate
  have hl : pontoonList ps = some l := by
    rcases hps with ⟨rfl, rfl⟩ | ⟨rfl, hn⟩
    · exact pontoonList_any
    · exact pontoonList_listed hn
  have hown : allocateOwner a.val ps arrival planned s =
      if day < s.clock.date then .error .range
      else if (s.account a).state ≠ .opened then .error .state
      else (searchBerth s (s.account a) l).elim (.error .noFit)
        fun n => done (makeReservation s a n day plan s) [numItem n.val] := by
    unfold allocateOwner
    simp only [ident_val, hl, hday, hplan]
    generalize searchBerth s (s.account a) l = r
    cases r <;> rfl
  have hnone : ∀ p, (∀ n, ¬ candidate p n) → bestOnPontoon s x p = none := fun p h =>
    bestOnPontoon_eq_none fun n hn => h n (isCandidate_iff.1 hn)
  refine ⟨fun h => ?_, fun h1 h2 => ?_, fun h1 h2 h3 => ?_, fun before after p n h1 h2 h3 h4 h5 h6 => ?_⟩
  · exact (allocate_form ..).refused hr (hown.trans (if_pos h))
  · exact (allocate_form ..).refused hr (hown.trans ((if_neg (by omega)).trans (if_pos h2)))
  · have hs : searchBerth s x l = none := by
      rw [searchBerth_eq, List.findSome?_eq_none_iff]
      exact fun p hp => hnone p (h3 p hp)
    refine (allocate_form ..).refused hr (hown.trans ((if_neg (by omega)).trans ((if_neg (not_not.2 h2)).trans ?_)))
    rw [hs]; rfl
  · have hs : searchBerth s x l = some n := by
      rw [searchBerth_eq, h3, List.findSome?_append, List.findSome?_eq_none_iff.2 fun q hq => hnone q (h4 q hq),
        Option.none_or, List.findSome?_cons,
        bestOnPontoon_eq_some (isCandidate_iff.2 h5) fun m hm => h6 m (isCandidate_iff.1 hm)]
    refine (allocate_form ..).taken hr (hown.trans ((if_neg (by omega)).trans ((if_neg (not_not.2 h2)).trans ?_)))
    rw [hs, Option.elim, makeReservation_eq day plan h2 h5.2.1]
    rfl

end Sys2Proof.Machine

/-! ## RESERVE, CANCEL, ARRIVE and MOVE (O31 to O34) -/

namespace Sys2Proof.Machine

/-! ### RESERVE -/

/-- The fit test as FORCE leaves it. -/
theorem misfit_iff {s : State} {x : Account} {c : BerthCfg} {force : Bool} :
    (!force && !fits s x c) = true ↔ force = false ∧ ¬ Fits s x c := by
  rw [← fits_iff]; simp

theorem not_misfit {s : State} {x : Account} {c : BerthCfg} {force : Bool} (h : force = true ∨ Fits s x c) :
    ¬ (!force && !fits s x c) = true := by
  rw [misfit_iff]
  rintro ⟨hf, hn⟩
  exact h.elim (fun e => by rw [hf] at e; cases e) hn

/-- Settles O31: the checks in their order, and the reservation of O30. -/
theorem reserveTakesTheNamedBerth : Obligations.ReserveTakesTheNamedBerth := by
  intro o a n arrival planned force s day plan c hr hday hplan x
  have hown : reserveOwner a.val n.val arrival planned force s =
      if day < s.clock.date then .error .range
      else if x.state ≠ .opened then .error .state
      else if (s.berth n).state ≠ .free then .error .state
      else if !force && !fits s x (s.berth n).cfg then .error .noFit
      else done (makeReservation s a n day plan s) [numItem n.val] := by
    unfold reserveOwner
    simp only [ident_val, hday, hplan]
    rfl
  refine ⟨fun h => ?_, fun h1 h2 => ?_, fun h1 h2 h3 => ?_, fun h1 h2 h3 h4 h5 => ?_, fun h1 h2 h3 h4 => ?_⟩
  · exact (reserve_form ..).refused hr (by rw [hown, if_pos h])
  · exact (reserve_form ..).refused hr (by rw [hown, if_neg (not_lt.2 h1), if_pos h2])
  · exact (reserve_form ..).refused hr (by rw [hown, if_neg (not_lt.2 h1), if_neg (not_not.2 h2), if_pos h3])
  · refine (reserve_form ..).refused hr ?_
    rw [hown, if_neg (not_lt.2 h1), if_neg (not_not.2 h2), if_neg (not_not.2 h3), if_pos (misfit_iff.2 ⟨h4, h5⟩)]
  · refine (reserve_form ..).taken hr ?_
    rw [hown, if_neg (not_lt.2 h1), if_neg (not_not.2 h2), if_neg (not_not.2 h3), if_neg (not_misfit h4),
      makeReservation_eq day plan h2 h3]
    rfl

/-! ### CANCEL -/

theorem onAccount_val (a : AccountId) (f : AccountId → State → Answer) (s : State) : onAccount a.val f s = f a s := by
  unfold onAccount
  rw [ident_val]

theorem cancelThis_refused {a : AccountId} {s : State} (h : (s.account a).state ≠ .reserved) :
    cancelThis a s = .error .state := by
  unfold cancelThis
  split
  · exact absurd ‹_› h
  · rfl

/-- Settles O32: the release alters the state of both records. -/
theorem cancelReleasesTheBerth : Obligations.CancelReleasesTheBerth := by
  intro o a n s hr x
  refine ⟨fun h => (cancel_form ..).refused hr ((onAccount_val ..).trans (cancelThis_refused h)), fun h1 h2 h3 => ?_⟩
  refine (cancel_form ..).taken hr ((onAccount_val ..).trans ?_)
  have hb : (s.account a).berth = some n := h2
  have hs : (s.account a).state = .reserved := h1
  simp only [cancelThis, hs, hb, releaseReservation, freeBerth, modAccount]
  rw [putBerth_of_state (by rw [h3]; exact nofun), putAccount_of_state]
  · rfl
  · show AccountState.opened ≠ _
    rw [hs]; exact nofun

/-! ### ARRIVE -/

/-- The effect of an arrival on a berth that is not OCCUPIED, of an account that is not BERTHED (R52). -/
theorem makeArrival_eq {a : AccountId} {n : BerthId} {s : State} (p : Option Int)
    (ha : (s.account a).state ≠ .berthed) (hn : (s.berth n).state ≠ .occupied) :
    makeArrival s a n p s = raise .arrived { account := some a, berth := some n }
      { s with
        berths := s.berths.put n
          { s.berth n with state := .occupied, holder := some a, edition := (s.berth n).edition + 1 }
        accounts := s.accounts.put a
          { s.account a with
            state := .berthed, berth := some n, arrival := some s.clock.date, lastCharged := some (rolloverDate s)
            nights := 0, planned := if p.isSome then p else (s.account a).planned
            edition := (s.account a).edition + 1 } } := by
  unfold makeArrival
  rw [putBerth_of_state (fun e => hn e.symm), modAccount, withPlanned_eq, putAccount_of_state fun e => ha e.symm]
  rfl

theorem rolloverDate_eq (s : State) : rolloverDate s =
    if s.site.val.rolloverHour * 3600 ≤ s.clock.time then s.clock.date else s.clock.date - 1 := rfl

theorem optIdent_map_val (g : Option BerthId) : optIdent 512 (g.map Fin.val) = some g := by
  cases g with
  | none => rfl
  | some n => simp [optIdent, ident_val]

/-- Settles O33: the berth of a reservation, or the FREE berth an account in OPEN names. -/
theorem arriveBerthsTheAccount : Obligations.ArriveBerthsTheAccount := by
  intro o a n given planned force s plan c hr hplan x
  have hown : arriveOwner a.val (given.map Fin.val) planned force s =
      (arrivalBerth s a given force).bind fun m => done (makeArrival s a m plan s) [numItem m.val] := by
    unfold arriveOwner
    simp only [ident_val, optIdent_map_val, hplan]
    cases arrivalBerth s a given force <;> rfl
  have refuses : ∀ e, arrivalBerth s a given force = .error e → exec c s = .next (reply o.port o.suffix [.refused e] s) :=
    fun e h => (arrive_form ..).refused hr (by rw [hown, h]; rfl)
  have arrives : arrivalBerth s a given force = .ok n → x.state ≠ .berthed → (s.berth n).state ≠ .occupied →
      exec c s = .next (reply o.port o.suffix [.done [.val (.num n.val)]] _) := fun h ha hn =>
    (arrive_form ..).taken hr (by rw [hown, h, Except.bind, makeArrival_eq plan ha hn, rolloverDate_eq]; rfl)
  refine ⟨fun h => refuses _ ?_, fun h1 h2 h3 h4 => refuses _ ?_, fun h1 h2 => refuses _ ?_, fun h1 h2 h3 => refuses _ ?_,
    fun h1 h2 h3 h4 h5 => refuses _ ?_, fun h => ?_⟩
  · rcases h with h | h <;> simp only [arrivalBerth, show (s.account a).state = _ from h]
  · simp only [arrivalBerth, show (s.account a).state = _ from h1, show (s.account a).berth = _ from h2]
    exact if_neg (not_or.2 ⟨h3, h4⟩)
  · simp only [arrivalBerth, show (s.account a).state = _ from h1, h2]
  · simp only [arrivalBerth, show (s.account a).state = _ from h1, h2]
    exact if_pos h3
  · simp only [arrivalBerth, show (s.account a).state = _ from h1, h2]
    exact (if_neg (not_not.2 h3)).trans (if_pos (misfit_iff.2 ⟨h4, h5⟩))
  · rcases h with ⟨h1, h2, h3, h4⟩ | ⟨h1, h2, h3, h4⟩
    · refine arrives ?_ (by rw [h1]; exact nofun) (by rw [h4]; exact nofun)
      simp only [arrivalBerth, show (s.account a).state = _ from h1, show (s.account a).berth = _ from h2]
      exact if_pos h3
    · refine arrives ?_ (by rw [h1]; exact nofun) (by rw [h3]; exact nofun)
      simp only [arrivalBerth, show (s.account a).state = _ from h1, h2]
      exact (if_neg (not_not.2 h3)).trans (if_neg (not_misfit h4))

/-! ### MOVE -/

theorem moveThis_berthed {a : AccountId} {n : BerthId} (m : BerthId) (force : Bool) {s : State}
    (h1 : (s.account a).state = .berthed) (h2 : (s.account a).berth = some n) :
    moveThis a m force s =
      if (s.berth m).state ≠ .free then .error .state
      else if (s.account a).power ≠ none ∨ (s.account a).water ≠ none then .error .inUse
      else if !force && !fits s (s.account a) (s.berth m).cfg then .error .noFit
      else done (s |> freeBerth s n
              |> putBerth s m { s.berth m with state := .occupied, holder := some a }
              |> modAccount s a (fun y => { y with berth := some m }))
        [numItem m.val] := by
  simp only [moveThis, h1, h2]

/-- The effect of MOVE: the two berths are altered in their state, the account in its berth (R55). -/
theorem moved_eq {a : AccountId} {n m : BerthId} {s : State} (hb : (s.account a).berth = some n)
    (hn : (s.berth n).state = .occupied) (hm : (s.berth m).state = .free) :
    modAccount s a (fun y => { y with berth := some m })
        (putBerth s m { s.berth m with state := .occupied, holder := some a } (freeBerth s n s)) =
      { s with
        berths := (s.berths.put n
            { s.berth n with state := .free, holder := none, edition := (s.berth n).edition + 1 }).put m
            { s.berth m with state := .occupied, holder := some a, edition := (s.berth m).edition + 1 }
        accounts := s.accounts.put a { s.account a with berth := some m, edition := (s.account a).edition + 1 } } := by
  have hne : m ≠ n := by rintro rfl; rw [hn] at hm; cases hm
  unfold freeBerth
  rw [putBerth_of_state (n := n) (by rw [hn]; exact nofun), putBerth_of_state (n := m) (by rw [hm]; exact nofun), modAccount,
    putAccount_of_ne]
  · rfl
  · intro e
    have he : some m = (s.account a).berth := congrArg Account.berth e
    rw [hb] at he
    exact hne (Option.some.inj he)

/-- Settles O34: the checks in their order, then the exchange of the berths. -/
theorem moveKeepsTheStay : Obligations.MoveKeepsTheStay := by
  intro o a n m force s c hr x
  have hown : moveOwner a.val m.val force s = moveThis a m force s := by
    unfold moveOwner
    simp only [ident_val]
  refine ⟨fun h => (move_form ..).refused hr (hown.trans ?_), fun h1 h2 h3 => (move_form ..).refused hr (hown.trans ?_),
    fun h1 h2 h3 h4 => (move_form ..).refused hr (hown.trans ?_),
    fun h1 h2 h3 h4 h5 h6 h7 => (move_form ..).refused hr (hown.trans ?_),
    fun h1 h2 hn h3 h4 h5 h6 => (move_form ..).taken hr (hown.trans ?_)⟩
  · unfold moveThis; dsimp only
    split
    · exact absurd ‹_› h
    · rfl
  · rw [moveThis_berthed m force h1 h2, if_pos h3]
  · rw [moveThis_berthed m force h1 h2, if_neg (not_not.2 h3), if_pos h4]
  · rw [moveThis_berthed m force h1 h2, if_neg (not_not.2 h3), if_neg (not_or.2 ⟨not_not.2 h4, not_not.2 h5⟩),
      if_pos (misfit_iff.2 ⟨h6, h7⟩)]
  · rw [moveThis_berthed m force h1 h2, if_neg (not_not.2 h3), if_neg (not_or.2 ⟨not_not.2 h4, not_not.2 h5⟩),
      if_neg (not_misfit h6), moved_eq h2 hn h3]
    rfl

end Sys2Proof.Machine

/-! ## Berths, accounts and credentials that name each other (O36)

The laws of R40 and R150 read a few fields of each record, its ties. Most commands leave every tie as it was; the others are shown one by one to tie anew what they change. -/

namespace Sys2Proof.Machine

/-! ### Ties -/

/-- What the laws of links read of an account. -/
def Account.ties (x : Account) : AccountState × Option BerthId × List CredId := (x.state, x.berth, x.credentials)

/-- What the law of berths reads of a berth (R40). -/
def Berth.ties (x : Berth) : BerthState × Option AccountId := (x.state, x.holder)

/-- What the law of credentials reads of a credential (R150). -/
def Credential.ties (x : Credential) : CredState × Key × CredKind × Option AccountId := (x.state, x.key, x.kind, x.account)

/-- From `s` to `t` every tie is as it was. -/
structure SameTies (s t : State) : Prop where
  accounts : ∀ a, (t.account a).ties = (s.account a).ties
  berths : ∀ n, (t.berth n).ties = (s.berth n).ties
  creds : ∀ c, (t.cred c).ties = (s.cred c).ties

theorem SameTies.refl (s : State) : SameTies s s := ⟨fun _ => rfl, fun _ => rfl, fun _ => rfl⟩

theorem SameTies.trans {s t u : State} (h : SameTies s t) (k : SameTies t u) : SameTies s u where
  accounts a := (k.accounts a).trans (h.accounts a)
  berths n := (k.berths n).trans (h.berths n)
  creds c := (k.creds c).trans (h.creds c)

/-- A change of no account, berth or credential. -/
theorem SameTies.same {s t : State} (ha : t.accounts = s.accounts) (hb : t.berths = s.berths) (hc : t.creds = s.creds) :
    SameTies s t where
  accounts a := by rw [State.account, ha]; rfl
  berths n := by rw [State.berth, hb]; rfl
  creds c := by rw [State.cred, hc]; rfl

theorem Served.sameTies {s t : State} (h : Served s t) : SameTies s t where
  accounts a := by rw [h.links a]; rfl
  berths n := by rw [h.eq]; rfl
  creds c := by rw [h.eq]; rfl

theorem SameTies.served {s t u : State} (h : SameTies s t) (k : Served t u) : SameTies s u := h.trans k.sameTies

theorem raise_sameTies {s t : State} (c : NoticeClass) (i : NoticeInfo) (h : SameTies s t) : SameTies s (raise c i t) :=
  h.served (raise_served c i (.refl t))

theorem StartEq.sameTies {s t : State} (h : StartEq s t) : SameTies s t := by rw [h]; exact .same rfl rfl rfl

theorem TankEq.sameTies {s t : State} (h : TankEq s t) : SameTies s t := by rw [h]; exact .same rfl rfl rfl

theorem putAccount_sameTies {s t : State} (b : State) (a : AccountId) (x : Account) (hx : x.ties = (t.account a).ties)
    (h : SameTies s t) : SameTies s (putAccount b a x t) :=
  h.trans ⟨fun i => by
    rw [putAccount_account]; split
    · next e => exact e ▸ hx
    · rfl, fun _ => rfl, fun _ => rfl⟩

theorem modAccount_sameTies {s t : State} (b : State) (a : AccountId) (f : Account → Account)
    (hf : ∀ x, (f x).ties = x.ties) (h : SameTies s t) : SameTies s (modAccount b a f t) :=
  putAccount_sameTies b a _ (hf _) h

theorem putCred_sameTies {s t : State} (b : State) (c : CredId) (x : Credential) (hx : x.ties = (t.cred c).ties)
    (h : SameTies s t) : SameTies s (putCred b c x t) :=
  h.trans ⟨fun _ => rfl, fun _ => rfl, fun i => by
    rw [putCred_cred]; split
    · next e => exact e ▸ hx
    · rfl⟩

theorem passCred_sameTies {s t : State} (b : State) (c : CredId) (x : Credential) (hx : x.ties = (t.cred c).ties)
    (h : SameTies s t) : SameTies s (passCred b c x t) :=
  h.trans ⟨fun _ => rfl, fun _ => rfl, fun i => by
    rw [passCred_cred]; split
    · next e => exact e ▸ hx
    · rfl⟩

theorem eachId_sameTies {n : Nat} {f : Fin n → State → State} (hf : ∀ i s, SameTies s (f i s)) (s : State) :
    SameTies s (eachId n f s) := eachId_keeps (P := SameTies s) (fun i _ h => h.trans (hf i _)) (.refl s)

/-! ### Money -/

theorem evaluateStanding_sameTies {s t : State} (b : State) (a : AccountId) (h : SameTies s t) :
    SameTies s (evaluateStanding b a t) := by
  rcases evaluateStanding_cases b a t with ⟨e, -⟩ | w
  · rw [e]; exact h
  · exact (putAccount_sameTies b a (evaluatedAccount t a) rfl h).served w

theorem debitAccount_sameTies {s t : State} (b : State) (a : AccountId) (cents : Nat) (h : SameTies s t) :
    SameTies s (debitAccount b a cents t) := by
  unfold debitAccount
  refine evaluateStanding_sameTies b a ?_
  split
  · exact putAccount_sameTies b a _ rfl h
  · exact raise_sameTies _ _ (putAccount_sameTies b a _ rfl h)

theorem applyCharge_sameTies {s t : State} (b : State) (a : AccountId) (v : Service) (cents residue : Nat)
    (h : SameTies s t) : SameTies s (applyCharge b a v cents residue t) :=
  debitAccount_sameTies b a cents (modAccount_sameTies b a _ (fun _ => rfl) h)

theorem charge_sameTies {s t : State} (b : State) (a : AccountId) (v : Service) (q : Nat) (d : Band) (h : SameTies s t) :
    SameTies s (charge b a v q d t) := applyCharge_sameTies b a v _ _ h

theorem chargeNights_sameTies {s t : State} (b : State) (a : AccountId) (day : Int) (d : Band) (h : SameTies s t) :
    SameTies s (chargeNights b a day d t) := by
  unfold chargeNights; dsimp only
  split
  · exact h
  · exact modAccount_sameTies b a _ (fun _ => rfl) (applyCharge_sameTies b a _ _ _ h)

theorem settleStay_sameTies {s t : State} (b : State) (a : AccountId) (h : SameTies s t) :
    SameTies s (settleStay b a t).1 := by
  unfold settleStay; dsimp only
  split
  · exact charge_sameTies b a _ _ _ (chargeNights_sameTies b a _ _ h)
  · exact chargeNights_sameTies b a _ _ h

theorem evaluateClass_sameTies {s t : State} (b : State) (c : ClassId) (h : SameTies s t) :
    SameTies s (evaluateClass b c t) :=
  h.trans (eachId_sameTies (fun a u => by
    split
    · exact evaluateStanding_sameTies b a (.refl u)
    · exact .refl u) t)

theorem arrearsPart_sameTies {s t : State} (b : State) (a : AccountId) (h : SameTies s t) :
    SameTies s (arrearsPart b a t) := by
  unfold arrearsPart; dsimp only
  split
  · have w := putAccount_sameTies b a
      { t.account a with arrearsNights := min ((t.account a).arrearsNights + 1) Config.arrearsLimit } rfl h
    split
    · exact w.served (toPower_served a (fun _ _ v => suspendPower_served _ _ _ v) (.refl _))
    · exact w
  · exact h

/-! ### Pedestal replies (05) -/

theorem energyDelta_sameTies {s t : State} (b : State) (k : SocketId) (q : Option Nat) (h : SameTies s t) :
    SameTies s (energyDelta b k q t) := by
  unfold energyDelta
  split
  · exact charge_sameTies b _ _ _ _ (h.served (putPower_served b k _ (.refl t)))
  · exact raise_sameTies _ _ (h.served (putPower_served b k _ (.refl t)))
  · exact h.trans (.same rfl rfl rfl)
  · exact raise_sameTies _ _ h

theorem waterDelta_sameTies {s t : State} (b : State) (k : TapId) (q : Option Nat) (h : SameTies s t) :
    SameTies s (waterDelta b k q t) := by
  unfold waterDelta
  split
  · exact (charge_sameTies b _ _ _ _ (h.served (putWater_served b k _ (.refl t)))).served
      (applyWaterCap_served b k (.refl _))
  · exact raise_sameTies _ _ (h.served (putWater_served b k _ (.refl t)))
  · exact h.trans (.same rfl rfl rfl)
  · exact raise_sameTies _ _ h

theorem deliverSocket_sameTies {s t : State} (n : PedestalId) (w : Bool) (fs : List Nat) (i : Fin 2)
    (h : SameTies s t) : SameTies s (deliverSocket n w fs i t) := by
  unfold deliverSocket; dsimp only
  refine SameTies.served ?_ (powerAgreement_served _ _ (.refl _))
  have hd : SameTies s (if w then energyDelta t (socketAt n i) (unpack (socketReport fs i).energy) t else t) := by
    split
    · exact energyDelta_sameTies _ _ _ h
    · exact h
  split
  · exact hd.served (powerTrip_served _ _ (.refl _))
  · exact hd

theorem deliverTap_sameTies {s t : State} (n : PedestalId) (w : Bool) (fs : List Nat) (h : SameTies s t) :
    SameTies s (deliverTap n w fs t) := by
  unfold deliverTap; dsimp only
  split
  · refine SameTies.served ?_ (valveAgreement_served _ _ (.refl _))
    split
    · exact waterDelta_sameTies _ _ _ h
    · exact h
  · exact h

theorem putPedestal_sameTies {s t : State} (b : State) (n : PedestalId) (x : Pedestal) (h : SameTies s t) :
    SameTies s (putPedestal b n x t) := h.trans (.same rfl rfl rfl)

theorem deliver_sameTies {s t : State} (n : PedestalId) (fs : List Nat) (h : SameTies s t) :
    SameTies s (deliver n fs t) := by
  unfold deliver; dsimp only
  refine SameTies.served (deliverTap_sameTies _ _ _ (eachOf_keeps (P := SameTies s)
    (fun i _ w => deliverSocket_sameTies _ _ _ i w) _ ?_)) (currentReport_served _ _ _ (.refl _))
  have w := putPedestal_sameTies t n ((t.pedestal n).answered fs) h
  split
  · exact raise_sameTies _ _ w
  · exact w

theorem miss_sameTies {s t : State} (n : PedestalId) (o : PollOutcome) (h : SameTies s t) :
    SameTies s (miss n o t) := by
  unfold miss; dsimp only
  have w := putPedestal_sameTies t n ((t.pedestal n).missed o) h
  split
  · exact raise_sameTies _ _ w
  · exact w

/-! ### Fuel (07) -/

theorem settleLow_sameTies {s t : State} (b : State) (p : ProductId) (x : Tank) (h : SameTies s t) :
    SameTies s (settleLow b p x t) := h.trans (settleLow_tankEq b p x t).sameTies

theorem holdMoney_sameTies {s t : State} (b : State) (y : Buyer) (n : PumpId) (c : Nat) (h : SameTies s t) :
    SameTies s (holdMoney b y n c t) := by
  unfold holdMoney
  split
  · exact modAccount_sameTies b _ _ (fun _ => rfl) h
  · exact h

theorem settleBuyer_sameTies {s t : State} (b : State) (x : Sale) (cents residue : Nat) (h : SameTies s t) :
    SameTies s (settleBuyer b x cents residue t) := by
  unfold settleBuyer
  split
  · exact applyCharge_sameTies b _ _ _ _ (modAccount_sameTies b _ _ (fun _ => rfl) h)
  · exact h

theorem putPump_sameTies {s t : State} (b : State) (n : PumpId) (x : Pump) (h : SameTies s t) :
    SameTies s (putPump b n x t) := h.trans (.same rfl rfl rfl)

theorem endSale_sameTies {s t : State} (b : State) (n : PumpId) (x : Sale) (why : SaleEnd) (h : SameTies s t) :
    SameTies s (endSale b n x why t) :=
  raise_sameTies _ _ ((settleBuyer_sameTies b x _ _ (h.trans (settleTank_tankEq b x t).sameTies)).trans (.same rfl rfl rfl))

theorem endSaleAt_sameTies {s t : State} (b : State) (w : SaleEnd) (n : PumpId) (h : SameTies s t) :
    SameTies s (endSaleAt b w n t) := by
  unfold endSaleAt
  split
  · exact h
  · exact endSale_sameTies b _ _ _ h

theorem pumpMiss_sameTies {s t : State} (n : PumpId) (o : PumpOutcome) (h : SameTies s t) :
    SameTies s (pumpMiss n o t) := by
  unfold pumpMiss; dsimp only
  split
  · split
    · exact raise_sameTies _ _ (putPump_sameTies _ _ _ h)
    · exact endSale_sameTies _ _ _ _ (raise_sameTies _ _ (putPump_sameTies _ _ _ h))
  · exact putPump_sameTies _ _ _ h

theorem pumpAnswer_sameTies {s t : State} (n : PumpId) (r : PumpReading) (h : SameTies s t) :
    SameTies s (pumpAnswer n r t) := by
  unfold pumpAnswer; dsimp only
  split
  · exact putPump_sameTies _ _ _ h
  · split
    · exact putPump_sameTies _ _ _ h
    · exact endSale_sameTies _ _ _ _ (putPump_sameTies _ _ _ h)

end Sys2Proof.Machine

namespace Sys2Proof.Machine

/-! ### The law of berths, record by record (R40) -/

/-- The states of a berth and its holder go together. -/
def Paired (y : Berth) (x : Account) : Prop :=
  y.state = .reserved ∧ x.state = .reserved ∨ y.state = .occupied ∧ x.state = .berthed

/-- The state of a berth that nobody holds. -/
def Berth.vacant (y : Berth) : Prop := y.state = .free ∨ y.state = .outOfService

/-- The state of an account that holds no berth. -/
def Account.ashore (x : Account) : Prop := x.state = .opened ∨ x.state = .free

/-- The law of R40 with the link as one equivalence. -/
structure Linked (s : State) : Prop where
  names : ∀ n a, (s.berth n).holder = some a ↔ (s.account a).berth = some n
  paired : ∀ n a, (s.account a).berth = some n → Paired (s.berth n) (s.account a)
  vacant : ∀ n, (s.berth n).holder = none → (s.berth n).vacant
  ashore : ∀ a, (s.account a).berth = none → (s.account a).ashore

theorem BerthsLinked.berth {s : State} (h : BerthsLinked s) (n : BerthId) :
    (∃ a, (s.berth n).holder = some a ∧ (s.account a).berth = some n ∧ Paired (s.berth n) (s.account a))
    ∨ (s.berth n).holder = none ∧ (s.berth n).vacant := by
  obtain ⟨hb, -⟩ := h
  have hb := hb n
  simp only [State.account_eq, State.berth_eq, Paired, Berth.vacant]
  generalize (s.berths.get n).state = st, (s.berths.get n).holder = holder at hb ⊢
  cases st <;> cases holder
  case reserved.some => exact .inl ⟨_, rfl, hb.2, .inl ⟨rfl, hb.1⟩⟩
  case occupied.some => exact .inl ⟨_, rfl, hb.2, .inr ⟨rfl, hb.1⟩⟩
  case free.none => exact .inr ⟨rfl, .inl rfl⟩
  case outOfService.none => exact .inr ⟨rfl, .inr rfl⟩
  all_goals exact hb.elim

theorem BerthsLinked.account {s : State} (h : BerthsLinked s) (a : AccountId) :
    (∃ n, (s.account a).berth = some n ∧ (s.berth n).holder = some a)
    ∨ (s.account a).berth = none ∧ (s.account a).ashore := by
  obtain ⟨-, ha⟩ := h
  have ha := ha a
  simp only [State.account_eq, State.berth_eq, Account.ashore]
  generalize (s.accounts.get a).state = st, (s.accounts.get a).berth = berth at ha ⊢
  cases st <;> cases berth
  case reserved.some => exact .inl ⟨_, rfl, ha⟩
  case berthed.some => exact .inl ⟨_, rfl, ha⟩
  case opened.none => exact .inr ⟨rfl, .inl rfl⟩
  case free.none => exact .inr ⟨rfl, .inr rfl⟩
  all_goals exact ha.elim

theorem BerthsLinked.linked {s : State} (h : BerthsLinked s) : Linked s := by
  have names : ∀ n a, (s.berth n).holder = some a ↔ (s.account a).berth = some n := fun n a => by
    constructor <;> intro e
    · obtain ⟨i, hi, hx, -⟩ | ⟨hn, -⟩ := h.berth n
      · rw [e] at hi; cases hi; exact hx
      · rw [e] at hn; cases hn
    · obtain ⟨m, hm, hx⟩ | ⟨hn, -⟩ := h.account a
      · rw [e] at hm; cases hm; exact hx
      · rw [e] at hn; cases hn
  refine ⟨names, fun n a e => ?_, fun n e => ?_, fun a e => ?_⟩
  · obtain ⟨i, hi, -, hs⟩ | ⟨hn, -⟩ := h.berth n
    · rw [(names n a).2 e] at hi; cases hi; exact hs
    · rw [(names n a).2 e] at hn; cases hn
  · obtain ⟨i, hi, -⟩ | ⟨-, hs⟩ := h.berth n
    · rw [e] at hi; cases hi
    · exact hs
  · obtain ⟨i, hi, -⟩ | ⟨-, hs⟩ := h.account a
    · rw [e] at hi; cases hi
    · exact hs

theorem Linked.berthsLinked {s : State} (h : Linked s) : BerthsLinked s := by
  refine ⟨fun n => ?_, fun a => ?_⟩
  · cases e : (s.berth n).holder with
    | none =>
      have hv := h.vacant n e
      simp only [State.berth_eq] at e hv
      rcases hv with hs | hs <;> simp [hs, e]
    | some a =>
      have ea := (h.names n a).1 e
      have hs := h.paired n a ea
      simp only [State.account_eq, State.berth_eq] at e ea hs
      rcases hs with ⟨hn, hs⟩ | ⟨hn, hs⟩ <;> simp [hn, hs, e, ea]
  · cases e : (s.account a).berth with
    | none =>
      have hv := h.ashore a e
      simp only [State.account_eq] at e hv
      rcases hv with hs | hs <;> simp [hs, e]
    | some n =>
      have en := (h.names n a).2 e
      have hs := h.paired n a e
      simp only [State.account_eq, State.berth_eq] at e en hs
      rcases hs with ⟨-, hs⟩ | ⟨-, hs⟩ <;> simp [hs, e, en]

theorem Account.ties_eq {x y : Account} (h : x.ties = y.ties) :
    x.state = y.state ∧ x.berth = y.berth ∧ x.credentials = y.credentials := by
  simpa only [Account.ties, Prod.mk.injEq] using h

theorem Berth.ties_eq {x y : Berth} (h : x.ties = y.ties) : x.state = y.state ∧ x.holder = y.holder := by
  simpa only [Berth.ties, Prod.mk.injEq] using h

theorem Credential.ties_eq {x y : Credential} (h : x.ties = y.ties) :
    x.state = y.state ∧ x.key = y.key ∧ x.kind = y.kind ∧ x.account = y.account := by
  simpa only [Credential.ties, Prod.mk.injEq] using h

/-- Account `a` and berth `n` name each other in states that go together, or neither names any. -/
def Joined (s : State) (a : AccountId) (n : BerthId) : Prop :=
  (s.account a).berth = some n ∧ (s.berth n).holder = some a ∧ Paired (s.berth n) (s.account a)
  ∨ (s.account a).berth = none ∧ (s.berth n).holder = none ∧ (s.account a).ashore ∧ (s.berth n).vacant

theorem Linked.joined_of_berth {s : State} (h : Linked s) {a : AccountId} {n : BerthId} (e : (s.account a).berth = some n) :
    Joined s a n := .inl ⟨e, (h.names n a).2 e, h.paired n a e⟩

/-- A berth that is FREE or out of service has no holder. -/
theorem Linked.holder_of_vacant {s : State} (h : Linked s) {n : BerthId} (hn : (s.berth n).vacant) :
    (s.berth n).holder = none := by
  cases e : (s.berth n).holder with
  | none => rfl
  | some a =>
    rcases h.paired n a ((h.names n a).1 e) with ⟨hs, -⟩ | ⟨hs, -⟩ <;> rcases hn with hn | hn <;> rw [hn] at hs <;> cases hs

/-- An account that is FREE or OPEN has no berth. -/
theorem Linked.berth_of_ashore {s : State} (h : Linked s) {a : AccountId} (ha : (s.account a).ashore) :
    (s.account a).berth = none := by
  cases e : (s.account a).berth with
  | none => rfl
  | some n =>
    rcases h.paired n a e with ⟨-, hs⟩ | ⟨-, hs⟩ <;> rcases ha with ha | ha <;> rw [ha] at hs <;> cases hs

theorem Linked.joined_of_free {s : State} (h : Linked s) {a : AccountId} {n : BerthId} (ha : (s.account a).state = .opened)
    (hn : (s.berth n).state = .free) : Joined s a n :=
  .inr ⟨h.berth_of_ashore (.inl ha), h.holder_of_vacant (.inl hn), .inl ha, .inl hn⟩

/-- Of a joined pair neither names a third. -/
theorem Joined.names {s : State} {a : AccountId} {n : BerthId} (h : Joined s a n) :
    (∀ i, (s.berth n).holder = some i → i = a) ∧ (∀ m, (s.account a).berth = some m → m = n)
      ∧ ((s.berth n).holder = some a ↔ (s.account a).berth = some n) := by
  obtain ⟨hx, hy, -⟩ | ⟨hx, hy, -⟩ := h <;> rw [hx, hy] <;> simp [eq_comm]

/-- A change of one account and one berth, joined before and joined after, keeps the law. -/
theorem Linked.rejoined {s t : State} {a : AccountId} {n : BerthId} (h : Linked s)
    (ha : ∀ i, i ≠ a → (t.account i).ties = (s.account i).ties) (hb : ∀ m, m ≠ n → (t.berth m).ties = (s.berth m).ties)
    (hs : Joined s a n) (ht : Joined t a n) : Linked t := by
  obtain ⟨sb, sa, -⟩ := hs.names
  obtain ⟨tb, ta, tn⟩ := ht.names
  refine ⟨fun m i => ?_, fun m i e => ?_, fun m e => ?_, fun i e => ?_⟩
  · by_cases hm : m = n <;> by_cases hi : i = a
    · rw [hm, hi]; exact tn
    · obtain ⟨-, ei, -⟩ := Account.ties_eq (ha i hi)
      rw [hm, ei]
      exact ⟨fun e => absurd (tb i e) hi, fun e => absurd (sb i ((h.names n i).2 e)) hi⟩
    · obtain ⟨-, em⟩ := Berth.ties_eq (hb m hm)
      rw [hi, em]
      exact ⟨fun e => absurd (sa m ((h.names m a).1 e)) hm, fun e => absurd (ta m e) hm⟩
    · obtain ⟨-, ei, -⟩ := Account.ties_eq (ha i hi)
      obtain ⟨-, em⟩ := Berth.ties_eq (hb m hm)
      rw [ei, em]; exact h.names m i
  · by_cases hi : i = a
    · subst hi
      obtain rfl := ta m e
      rcases ht with ⟨-, -, hp⟩ | ⟨e', -⟩
      · exact hp
      · rw [e] at e'; cases e'
    · obtain ⟨si, ei, -⟩ := Account.ties_eq (ha i hi)
      rw [ei] at e
      have hm : m ≠ n := fun hm => hi (sb i (hm ▸ (h.names m i).2 e))
      obtain ⟨sm, -⟩ := Berth.ties_eq (hb m hm)
      have hp := h.paired m i e
      unfold Paired at hp ⊢
      rwa [sm, si]
  · by_cases hm : m = n
    · subst hm
      rcases ht with ⟨-, e', -⟩ | ⟨-, -, -, hv⟩
      · rw [e] at e'; cases e'
      · exact hv
    · obtain ⟨sm, em⟩ := Berth.ties_eq (hb m hm)
      rw [em] at e
      have hv := h.vacant m e
      unfold Berth.vacant at hv ⊢
      rwa [sm]
  · by_cases hi : i = a
    · subst hi
      rcases ht with ⟨e', -⟩ | ⟨-, -, hv, -⟩
      · rw [e] at e'; cases e'
      · exact hv
    · obtain ⟨si, ei, -⟩ := Account.ties_eq (ha i hi)
      rw [ei] at e
      have hv := h.ashore i e
      unfold Account.ashore at hv ⊢
      rwa [si]

/-- The law under a change of berths that nobody holds and of accounts that hold none. -/
theorem Linked.of_unheld {s t : State} (h : Linked s)
    (ha : ∀ i, (t.account i).berth = (s.account i).berth
      ∧ ((t.account i).state = (s.account i).state ∨ (s.account i).berth = none ∧ (t.account i).ashore))
    (hb : ∀ m, (t.berth m).holder = (s.berth m).holder
      ∧ ((t.berth m).state = (s.berth m).state ∨ (s.berth m).holder = none ∧ (t.berth m).vacant)) : Linked t := by
  refine ⟨fun m i => by rw [(ha i).1, (hb m).1]; exact h.names m i, fun m i e => ?_, fun m e => ?_, fun i e => ?_⟩
  · rw [(ha i).1] at e
    have hp := h.paired m i e
    rcases ha i with ⟨-, si | ⟨e', -⟩⟩
    · rcases hb m with ⟨-, sm | ⟨e', -⟩⟩
      · unfold Paired at hp ⊢
        rwa [sm, si]
      · rw [(h.names m i).2 e] at e'; cases e'
    · rw [e] at e'; cases e'
  · rcases hb m with ⟨em, sm | ⟨-, hv⟩⟩
    · have hv := h.vacant m (em ▸ e)
      unfold Berth.vacant at hv ⊢
      rwa [sm]
    · exact hv
  · rcases ha i with ⟨ei, si | ⟨-, hv⟩⟩
    · have hv := h.ashore i (ei ▸ e)
      unfold Account.ashore at hv ⊢
      rwa [si]
    · exact hv

theorem SameTies.berthsLinked {s t : State} (h : SameTies s t) (w : BerthsLinked s) : BerthsLinked t :=
  (w.linked.of_unheld
    (fun a => have ⟨hs, hb, _⟩ := Account.ties_eq (h.accounts a); ⟨hb, .inl hs⟩)
    fun n => have ⟨hs, hh⟩ := Berth.ties_eq (h.berths n); ⟨hh, .inl hs⟩).berthsLinked

/-! ### The law of credentials, record by record (R150) -/

theorem Credential.listed?_eq_some {x : Credential} {a : AccountId} :
    x.listed? = some a ↔ x.state = .active ∧ x.kind = .vessel ∧ x.account = some a := by
  unfold Credential.listed? Credential.vessel?
  split
  · next h => cases hk : x.kind <;> simp [h]
  · next h => simp [h]

theorem Credential.listed?_of_ties {x y : Credential} (h : x.ties = y.ties) : x.listed? = y.listed? := by
  obtain ⟨hs, -, hk, ha⟩ := Credential.ties_eq h
  unfold Credential.listed? Credential.vessel?
  rw [hs, hk, ha]

/-- The law of R150 with the link as one equivalence. -/
structure Listed (s : State) : Prop where
  keys : ∀ c d, (s.cred c).state = .active → (s.cred d).state = .active → (s.cred c).key = (s.cred d).key → c = d
  lists : ∀ a c, c ∈ (s.account a).credentials ↔ (s.cred c).listed? = some a
  vessel : ∀ c, (s.cred c).state = .active → (s.cred c).kind = .vessel → (s.cred c).account ≠ none
  known : ∀ a c, c ∈ (s.account a).credentials → (s.account a).state ≠ .free
  once : ∀ a, (s.account a).credentials.Nodup
  room : ∀ a, (s.account a).credentials.length ≤ Config.credentialsRoom

theorem CredentialsOk.listed {s : State} (h : CredentialsOk s) : Listed s := by
  obtain ⟨hk, hv, hl⟩ := h
  refine ⟨hk, fun a c => ?_, fun c h1 h2 e => ?_, fun a c hc => ?_, fun a => (hl a).1, fun a => (hl a).2.1⟩
  · rw [Credential.listed?_eq_some]
    refine ⟨(hl a).2.2 c, fun ⟨h1, h2, h3⟩ => ?_⟩
    obtain ⟨i, hi, -, hm⟩ := hv c h1 h2
    obtain rfl : i = a := Option.some.inj (hi.symm.trans h3)
    exact hm
  · obtain ⟨i, hi, -⟩ := hv c h1 h2
    exact absurd (hi.symm.trans e) (by simp)
  · obtain ⟨h1, h2, h3⟩ := (hl a).2.2 c hc
    obtain ⟨i, hi, hf, -⟩ := hv c h1 h2
    obtain rfl : i = a := Option.some.inj (hi.symm.trans h3)
    exact hf

theorem Listed.credentialsOk {s : State} (h : Listed s) : CredentialsOk s := by
  refine ⟨h.keys, fun c h1 h2 => ?_, fun a => ⟨h.once a, h.room a, fun c hc => ?_⟩⟩
  · obtain ⟨a, ha⟩ := Option.ne_none_iff_exists'.1 (h.vessel c h1 h2)
    have hm := (h.lists a c).2 (Credential.listed?_eq_some.2 ⟨h1, h2, ha⟩)
    exact ⟨a, ha, h.known a c hm, hm⟩
  · exact Credential.listed?_eq_some.1 ((h.lists a c).1 hc)

/-- The law under a change of states of accounts alone, none of which becomes FREE with a credential on its list. -/
theorem Listed.of_lists {s t : State} (h : Listed s) (hc : ∀ c, (t.cred c).ties = (s.cred c).ties)
    (ha : ∀ a, (t.account a).credentials = (s.account a).credentials
      ∧ ((s.account a).state ≠ .free → (t.account a).state ≠ .free)) : Listed t := by
  refine ⟨fun c d => ?_, fun a c => ?_, fun c => ?_, fun a c hm => ?_, fun a => ?_, fun a => ?_⟩
  · obtain ⟨s1, k1, -⟩ := Credential.ties_eq (hc c)
    obtain ⟨s2, k2, -⟩ := Credential.ties_eq (hc d)
    rw [s1, s2, k1, k2]; exact h.keys c d
  · rw [(ha a).1, Credential.listed?_of_ties (hc c)]; exact h.lists a c
  · obtain ⟨s1, -, v1, a1⟩ := Credential.ties_eq (hc c)
    rw [s1, v1, a1]; exact h.vessel c
  · exact (ha a).2 (h.known a c ((ha a).1 ▸ hm))
  · rw [(ha a).1]; exact h.once a
  · rw [(ha a).1]; exact h.room a

theorem SameTies.credentialsOk {s t : State} (h : SameTies s t) (w : CredentialsOk s) : CredentialsOk t :=
  (w.listed.of_lists h.creds fun a =>
    have ⟨hs, _, hl⟩ := Account.ties_eq (h.accounts a); ⟨hl, fun hf => by rw [hs]; exact hf⟩).credentialsOk

/-- A list off which a credential is taken. -/
def struckIf (off : Bool) (c : CredId) (l : List CredId) : List CredId := if off then l.filter (· ≠ c) else l

/-- A list on whose end a credential is put that does not stand there. -/
def addedIf (on : Bool) (c : CredId) (l : List CredId) : List CredId := if on then if c ∈ l then l else l ++ [c] else l

theorem mem_struckIf {off : Bool} {c d : CredId} {l : List CredId} :
    d ∈ struckIf off c l ↔ d ∈ l ∧ (off = true → d ≠ c) := by
  unfold struckIf; cases off <;> simp

theorem mem_addedIf {on : Bool} {c d : CredId} {l : List CredId} :
    d ∈ addedIf on c l ↔ d ∈ l ∨ on = true ∧ d = c := by
  unfold addedIf
  cases on
  · simp
  · by_cases h : c ∈ l
    · simp only [if_true, if_pos h, true_and]
      exact ⟨.inl, fun e => e.elim id fun e => e ▸ h⟩
    · simp [h]

theorem nodup_struckIf {off : Bool} {c : CredId} {l : List CredId} (h : l.Nodup) : (struckIf off c l).Nodup := by
  unfold struckIf; split
  · exact h.filter _
  · exact h

theorem nodup_addedIf {on : Bool} {c : CredId} {l : List CredId} (h : l.Nodup) : (addedIf on c l).Nodup := by
  unfold addedIf; split
  · split
    · exact h
    · next hc => exact List.nodup_append.2 ⟨h, List.nodup_singleton c, fun a ha b hb e => hc (List.mem_singleton.1 hb ▸ e ▸ ha)⟩
  · exact h

theorem length_struckIf_le {off : Bool} {c : CredId} {l : List CredId} : (struckIf off c l).length ≤ l.length := by
  unfold struckIf; split
  · exact List.length_filter_le ..
  · exact le_rfl

theorem length_addedIf_le {on : Bool} {c : CredId} {l : List CredId} {n : Nat} (h : l.length ≤ n)
    (hr : on = true → c ∈ l ∨ l.length < n) : (addedIf on c l).length ≤ n := by
  unfold addedIf; split
  · next ho =>
    split
    · exact h
    · next hc =>
      have := (hr ho).resolve_left hc
      rw [List.length_append, List.length_singleton]; omega
  · exact h

theorem unlist_ties (b : State) (c : CredId) (a i : AccountId) (s : State) :
    ((unlist b c a s).account i).ties =
      ((s.account i).state, (s.account i).berth, struckIf (a = i) c (s.account i).credentials) := by
  unfold unlist
  rw [modAccount_account]
  split
  · next e => subst e; simp [Account.ties, struckIf]
  · next e => simp [Account.ties, struckIf, e]

theorem enlist_ties (b : State) (c : CredId) (a i : AccountId) (s : State) :
    ((enlist b c a s).account i).ties =
      ((s.account i).state, (s.account i).berth, addedIf (a = i) c (s.account i).credentials) := by
  unfold enlist
  rw [modAccount_account]
  split
  · next e => subst e; simp only [Account.ties, addedIf, decide_true, if_true]; split <;> rfl
  · next e => simp [Account.ties, addedIf, e]

/-- Step 1 of R151: the credential leaves the list it is to stand on no longer. -/
def takeOff (b : State) (c : CredId) (old new : Option AccountId) (s : State) : State :=
  old.elim s fun a => if new = some a then s else unlist b c a s

/-- R151 takes a credential off one list and puts it on another. -/
theorem relist_eq (b : State) (c : CredId) (old new : Option AccountId) (s : State) :
    relist b c old new s = new.elim (takeOff b c old new s) fun a => enlist b c a (takeOff b c old new s) := by
  cases old <;> cases new <;> rfl

theorem takeOff_ties (b : State) (c : CredId) (old new : Option AccountId) (s : State) (i : AccountId) :
    ((takeOff b c old new s).account i).ties =
      ((s.account i).state, (s.account i).berth,
        struckIf (old = some i ∧ new ≠ some i) c (s.account i).credentials) := by
  cases old with
  | none => simp [takeOff, Account.ties, struckIf]
  | some a =>
    by_cases e : new = some a
    · have hn : ¬ (some a = some i ∧ new ≠ some i) := fun ⟨h, k⟩ => k (e.trans h)
      rw [decide_eq_false hn]
      rw [takeOff, Option.elim, if_pos e]
      rfl
    · rw [takeOff, Option.elim, if_neg e, unlist_ties]
      by_cases h : a = i
      · subst h; simp [e]
      · simp [h]

/-- The lists after R151 steps 1 and 2. -/
theorem relist_ties (b : State) (c : CredId) (old new : Option AccountId) (s : State) (i : AccountId) :
    ((relist b c old new s).account i).ties =
      ((s.account i).state, (s.account i).berth,
        addedIf (new = some i) c (struckIf (old = some i ∧ new ≠ some i) c (s.account i).credentials)) := by
  have ho := takeOff_ties b c old new s i
  rw [relist_eq]
  generalize takeOff b c old new s = t at ho ⊢
  cases new with
  | none => exact ho
  | some a =>
    simp only [Account.ties, Prod.mk.injEq] at ho
    obtain ⟨h1, h2, h3⟩ := ho
    rw [Option.elim, enlist_ties, h1, h2, h3]
    simp

/-- R151 writes lists of accounts alone. -/
theorem relist_rest (b : State) (c : CredId) (old new : Option AccountId) (s : State) :
    (relist b c old new s).berths = s.berths ∧ (relist b c old new s).creds = s.creds := by
  have h : (takeOff b c old new s).berths = s.berths ∧ (takeOff b c old new s).creds = s.creds := by
    cases old with
    | none => exact ⟨rfl, rfl⟩
    | some a => rw [takeOff, Option.elim]; split <;> exact ⟨rfl, rfl⟩
  rw [relist_eq]
  cases new <;> exact h

/-- A change of one credential, whose key no other ACTIVE one has, moved from the list it stood on to the one it is to stand on. -/
theorem Listed.relisted {s t : State} {c : CredId} (h : Listed s) (hc : ∀ d, d ≠ c → (t.cred d).ties = (s.cred d).ties)
    (hl : ∀ i, (t.account i).ties = ((s.account i).state, (s.account i).berth,
      addedIf ((t.cred c).listed? = some i) c
        (struckIf ((s.cred c).listed? = some i ∧ (t.cred c).listed? ≠ some i) c (s.account i).credentials)))
    (hk : (t.cred c).state = .active → ∀ d, d ≠ c → (s.cred d).state = .active → (s.cred d).key ≠ (t.cred c).key)
    (hv : (t.cred c).state = .active → (t.cred c).kind = .vessel → (t.cred c).account ≠ none)
    (hf : ∀ a, (t.cred c).listed? = some a → (s.account a).state ≠ .free)
    (hr : ∀ a, (t.cred c).listed? = some a →
      (s.cred c).listed? = some a ∨ (s.account a).credentials.length < Config.credentialsRoom) : Listed t := by
  have hs : ∀ i, (t.account i).state = (s.account i).state := fun i => congrArg Prod.fst (hl i)
  have hm : ∀ i, (t.account i).credentials = addedIf ((t.cred c).listed? = some i) c
      (struckIf ((s.cred c).listed? = some i ∧ (t.cred c).listed? ≠ some i) c (s.account i).credentials) := fun i =>
    congrArg (fun p => p.2.2) (hl i)
  have lists : ∀ a d, d ∈ (t.account a).credentials ↔ (t.cred d).listed? = some a := fun a d => by
    rw [hm, mem_addedIf, mem_struckIf]
    by_cases hd : d = c
    · subst hd
      have := h.lists a d
      simp only [decide_eq_true_eq]
      tauto
    · rw [Credential.listed?_of_ties (hc d hd), ← h.lists a d]
      simp [hd]
  refine ⟨fun d e => ?_, lists, fun d => ?_, fun a d hd => ?_, fun a => ?_, fun a => ?_⟩
  · by_cases hd : d = c <;> by_cases he : e = c
    · exact fun _ _ _ => hd.trans he.symm
    · obtain ⟨s1, k1, -⟩ := Credential.ties_eq (hc e he)
      rw [hd, s1, k1]
      exact fun a1 a2 k => absurd k.symm (hk a1 e he a2)
    · obtain ⟨s1, k1, -⟩ := Credential.ties_eq (hc d hd)
      rw [he, s1, k1]
      exact fun a1 a2 k => absurd k (hk a2 d hd a1)
    · obtain ⟨s1, k1, -⟩ := Credential.ties_eq (hc d hd)
      obtain ⟨s2, k2, -⟩ := Credential.ties_eq (hc e he)
      rw [s1, k1, s2, k2]
      exact h.keys d e
  · by_cases hd : d = c
    · rw [hd]; exact hv
    · obtain ⟨s1, -, v1, a1⟩ := Credential.ties_eq (hc d hd)
      rw [s1, v1, a1]; exact h.vessel d
  · rw [hs]
    have hd := (lists a d).1 hd
    by_cases e : d = c
    · exact hf a (e ▸ hd)
    · rw [Credential.listed?_of_ties (hc d e)] at hd
      exact h.known a d ((h.lists a d).2 hd)
  · rw [hm]; exact nodup_addedIf (nodup_struckIf (h.once a))
  · rw [hm]
    refine length_addedIf_le (length_struckIf_le.trans (h.room a)) fun ho => ?_
    have ho := of_decide_eq_true ho
    rcases hr a ho with hr | hr
    · exact .inl (mem_struckIf.2 ⟨(h.lists a c).2 hr, fun e => absurd ho (of_decide_eq_true e).2⟩)
    · exact .inr (length_struckIf_le.trans_lt hr)

/-- The revocation of an account's whole list, which becomes empty (R152). -/
theorem Listed.revokeAll {s : State} (h : Listed s) (b : State) (a : AccountId) : Listed (revokeAll b a s) := by
  have hin : ∀ c, c ∈ (s.account a).credentials → ((Machine.revokeAll b a s).cred c).state = .revoked := fun c hc =>
    congrArg Credential.state (eachOf_revokeOne_cred_of_mem b c (s.account a).credentials s hc)
  have hout : ∀ c, c ∉ (s.account a).credentials → (Machine.revokeAll b a s).cred c = s.cred c := fun c hc =>
    eachOf_revokeOne_cred_of_notMem b c (s.account a).credentials s hc
  have hact : ∀ c, ((Machine.revokeAll b a s).cred c).state = .active → (Machine.revokeAll b a s).cred c = s.cred c :=
    fun c hc => hout c fun hm => by rw [hin c hm] at hc; cases hc
  have hacc : ∀ i, ((Machine.revokeAll b a s).account i).state = (s.account i).state
      ∧ ((Machine.revokeAll b a s).account i).credentials = if a = i then [] else (s.account i).credentials := fun i => by
    rw [revokeAll_account]
    split
    · next e => subst e; exact ⟨rfl, rfl⟩
    · exact ⟨rfl, rfl⟩
  generalize Machine.revokeAll b a s = t at hin hout hact hacc
  have hnil : ∀ i d, d ∈ (t.account i).credentials ↔ a ≠ i ∧ d ∈ (s.account i).credentials := fun i d => by
    rw [(hacc i).2]; by_cases e : a = i <;> simp [e]
  refine ⟨fun c d hc hd => ?_, fun i c => ?_, fun c hc => ?_, fun i c hc => ?_, fun i => ?_, fun i => ?_⟩
  · have ec := hact c hc
    have ed := hact d hd
    rw [ec] at hc ⊢
    rw [ed] at hd ⊢
    exact h.keys c d hc hd
  · rw [hnil]
    by_cases hc : c ∈ (s.account a).credentials
    · have hl : (t.cred c).listed? ≠ some i := fun e => by
        have := (Credential.listed?_eq_some.1 e).1
        rw [hin c hc] at this; cases this
      refine iff_of_false (fun ⟨hi, hm⟩ => hi ?_) hl
      exact Option.some.inj (((h.lists a c).1 hc).symm.trans ((h.lists i c).1 hm))
    · rw [hout c hc, ← h.lists i c]
      exact ⟨And.right, fun hm => ⟨fun e => hc (e ▸ hm), hm⟩⟩
  · have ec := hact c hc
    rw [ec] at hc ⊢
    exact h.vessel c hc
  · rw [(hacc i).1]
    exact h.known i c ((hnil i c).1 hc).2
  · rw [(hacc i).2]; split
    · exact List.nodup_nil
    · exact h.once i
  · rw [(hacc i).2]; split
    · exact Nat.zero_le _
    · exact h.room i

end Sys2Proof.Machine

namespace Sys2Proof.Machine

/-! ### Both laws through the changes that tie records anew -/

/-- From `s` to `t` the laws of R40 and R150 are kept. -/
structure KeepsTies (s t : State) : Prop where
  berths : BerthsLinked s → BerthsLinked t
  creds : CredentialsOk s → CredentialsOk t

theorem KeepsTies.trans {s t u : State} (h : KeepsTies s t) (k : KeepsTies t u) : KeepsTies s u :=
  ⟨fun w => k.berths (h.berths w), fun w => k.creds (h.creds w)⟩

theorem SameTies.keepsTies {s t : State} (h : SameTies s t) : KeepsTies s t := ⟨h.berthsLinked, h.credentialsOk⟩

theorem KeepsTies.refl (s : State) : KeepsTies s s := (SameTies.refl s).keepsTies

/-- A change of no account, berth or credential. -/
theorem KeepsTies.same {s t : State} (ha : t.accounts = s.accounts) (hb : t.berths = s.berths) (hc : t.creds = s.creds) :
    KeepsTies s t := (SameTies.same ha hb hc).keepsTies

theorem Served.keepsTies {s t : State} (h : Served s t) : KeepsTies s t := h.sameTies.keepsTies

theorem raise_keepsTies {s t : State} (c : NoticeClass) (i : NoticeInfo) (h : KeepsTies s t) : KeepsTies s (raise c i t) :=
  h.trans (raise_sameTies c i (.refl t)).keepsTies

theorem portCommand_keepsTies {i : Instr} {o : Origin} {ports : List PortId} {adm : Admission}
    {owner : State → Answer} {s : State} (ho : ∀ {t lines}, owner s = .ok (t, lines) → KeepsTies s t) :
    KeepsTies s (portCommand i o ports adm owner s) :=
  portCommand_keeps (fun _ _ h => h.trans (.same rfl rfl rfl)) ho (.refl s)

theorem event_keepsTies {f : State → State} {s : State} (hf : KeepsTies s (f s)) : KeepsTies s (event f s) :=
  event_keeps (fun _ => hf) (.refl s)

/-- A berth and an account are written that are joined before and after; the account keeps its credentials and does not become FREE. -/
theorem putBerth_modAccount_keepsTies (b : State) {a : AccountId} {n : BerthId} {y : Berth} {f : Account → Account}
    {s : State} (hl : (f (s.account a)).credentials = (s.account a).credentials) (hf : (f (s.account a)).state ≠ .free)
    (hs : Linked s → Joined s a n)
    (ht : (f (s.account a)).berth = some n ∧ y.holder = some a ∧ Paired y (f (s.account a))
      ∨ (f (s.account a)).berth = none ∧ y.holder = none ∧ (f (s.account a)).ashore ∧ y.vacant) :
    KeepsTies s (modAccount b a f (putBerth b n y s)) := by
  have ha : ∀ i, i ≠ a → (modAccount b a f (putBerth b n y s)).account i = s.account i := fun i hi => by
    rw [modAccount_account, if_neg fun e => hi e.symm]; rfl
  have hx : (modAccount b a f (putBerth b n y s)).account a = (b.account a).settled (f (s.account a)) := by
    rw [modAccount_account, if_pos rfl]; rfl
  have hb : ∀ m, (modAccount b a f (putBerth b n y s)).berth m = if n = m then (b.berth n).settled y else s.berth m :=
    fun m => putBerth_berth b n m y s
  refine ⟨fun w => Linked.berthsLinked (w.linked.rejoined (a := a) (n := n) (fun i hi => by rw [ha i hi])
    (fun m hm => by rw [hb, if_neg fun e => hm e.symm]) (hs w.linked) ?_), fun w =>
    Listed.credentialsOk (w.listed.of_lists (fun _ => rfl) fun i => ?_)⟩
  · unfold Joined
    rw [hx, hb, if_pos rfl]
    exact ht
  · by_cases hi : i = a
    · rw [hi, hx]; exact ⟨hl, fun _ => hf⟩
    · rw [ha i hi]; exact ⟨rfl, id⟩

/-! ### Vessel accounts (01) -/

/-- An account that is FREE becomes OPEN without berth or credentials, as it was. -/
theorem openThis_keepsTies {a : AccountId} {s t : State} {lines : List ReplyLine} (hs : (s.account a).state = .free)
    (h : openThis a s = .ok (t, lines)) : KeepsTies s t := by
  obtain ⟨rfl, -⟩ := done_eq h
  refine ⟨fun w => Linked.berthsLinked (w.linked.of_unheld (fun i => ?_) fun m => ⟨rfl, .inl rfl⟩), fun w =>
    Listed.credentialsOk (w.listed.of_lists (fun _ => rfl) fun i => ?_)⟩ <;> rw [modAccount_account]
  · split
    · next e =>
      subst e
      have hn := w.linked.berth_of_ashore (.inr hs)
      exact ⟨hn.symm, .inr ⟨hn, .inl rfl⟩⟩
    · exact ⟨rfl, .inl rfl⟩
  · split
    · next e =>
      subst e
      refine ⟨(List.eq_nil_iff_forall_not_mem.2 fun c hc => w.listed.known a c hc hs).symm, fun _ => ?_⟩
      show AccountState.opened ≠ .free
      decide
    · exact ⟨rfl, id⟩

theorem lowestFree_state {s : State} {a : AccountId} (h : lowestFree s = some a) : (s.account a).state = .free := by
  unfold lowestFree at h
  simpa using List.find?_some h

theorem openAccountOwner_keepsTies {n : Option Nat} {s t : State} {lines : List ReplyLine}
    (h : openAccountOwner n s = .ok (t, lines)) : KeepsTies s t := by
  unfold openAccountOwner at h
  split at h
  · split at h
    · cases h
    · next hf => exact openThis_keepsTies (lowestFree_state hf) h
  · split at h
    · cases h
    · split at h
      · next hf => exact openThis_keepsTies hf h
      · cases h

theorem revokeAll_account_fields (b : State) (a i : AccountId) (s : State) :
    ((revokeAll b a s).account i).state = (s.account i).state ∧ ((revokeAll b a s).account i).berth = (s.account i).berth := by
  rw [revokeAll_account]
  split
  · next e => subst e; exact ⟨rfl, rfl⟩
  · exact ⟨rfl, rfl⟩

theorem revokeAll_berths (b : State) (a : AccountId) (s : State) : (revokeAll b a s).berths = s.berths := by
  show (eachOf (s.account a).credentials (revokeOne b) s).berths = _
  rw [eachOf_revokeOne_creds]

theorem revokeAll_keepsTies (b : State) (a : AccountId) (s : State) : KeepsTies s (revokeAll b a s) :=
  ⟨fun w => Linked.berthsLinked (w.linked.of_unheld
      (fun i => have ⟨hs, hb⟩ := revokeAll_account_fields b a i s; ⟨hb, .inl hs⟩)
      fun m => by rw [State.berth_eq, revokeAll_berths]; exact ⟨rfl, .inl rfl⟩),
    fun w => (w.listed.revokeAll b a).credentialsOk⟩

/-- An account that is OPEN becomes FREE once its list is revoked. -/
theorem closeThis_keepsTies {a : AccountId} {s t : State} {lines : List ReplyLine} (h : closeThis a s = .ok (t, lines)) :
    KeepsTies s t := by
  have hs : (s.account a).state = .opened := by
    by_contra hs
    rw [(closeThis_refused a s).1 hs] at h
    cases h
  rw [closeThis_ok h]
  have hr := revokeAll_keepsTies s a s
  have hu : ((revokeAll s a s).account a).state = .opened ∧ ((revokeAll s a s).account a).credentials = [] := by
    rw [revokeAll_account, if_pos rfl]; exact ⟨hs, rfl⟩
  generalize revokeAll s a s = u at hr hu
  refine hr.trans ⟨fun w => Linked.berthsLinked (w.linked.of_unheld (fun i => ?_) fun m => ⟨rfl, .inl rfl⟩), fun w => ?_⟩
  · rw [modAccount_account]
    split
    · next e => subst e; exact ⟨rfl, .inr ⟨w.linked.berth_of_ashore (.inl hu.1), .inr rfl⟩⟩
    · exact ⟨rfl, .inl rfl⟩
  · have hl := w.listed
    have ha : ∀ i, ((modAccount s a closedAccount u).account i).credentials = (u.account i).credentials
        ∧ (i ≠ a → ((modAccount s a closedAccount u).account i).state = (u.account i).state) := fun i => by
      rw [modAccount_account]
      split
      · next e => subst e; exact ⟨rfl, fun k => absurd rfl k⟩
      · exact ⟨rfl, fun _ => rfl⟩
    refine Listed.credentialsOk ⟨hl.keys, fun i c => (ha i).1 ▸ hl.lists i c, hl.vessel, fun i c hc => ?_,
      fun i => (ha i).1 ▸ hl.once i, fun i => (ha i).1 ▸ hl.room i⟩
    rw [(ha i).1] at hc
    have hi : i ≠ a := fun e => by rw [e, hu.2] at hc; cases hc
    rw [(ha i).2 hi]
    exact hl.known i c hc

theorem putThenEvaluate_sameTies (a : AccountId) (x : Account) (s : State) (hx : x.ties = (s.account a).ties) :
    SameTies s (evaluateStanding s a (putAccount s a x s)) :=
  evaluateStanding_sameTies s a (putAccount_sameTies s a x hx (.refl s))

theorem creditThis_sameTies {n : Nat} {a : AccountId} {s t : State} {lines : List ReplyLine}
    (h : creditThis n a s = .ok (t, lines)) : SameTies s t := by
  unfold creditThis at h; dsimp only at h
  split at h
  · cases h
  · split at h
    · cases h
    · obtain ⟨rfl, -⟩ := done_eq h
      exact putThenEvaluate_sameTies a _ s rfl

theorem debitThis_sameTies {n : Nat} {a : AccountId} {s t : State} {lines : List ReplyLine}
    (h : debitThis n a s = .ok (t, lines)) : SameTies s t := by
  unfold debitThis at h; dsimp only at h
  split at h
  · cases h
  · obtain ⟨rfl, -⟩ := done_eq h
    exact debitAccount_sameTies s a n (.refl s)

theorem barThis_sameTies {a : AccountId} {s t : State} {lines : List ReplyLine}
    (h : barThis a s = .ok (t, lines)) : SameTies s t := by
  unfold barThis at h; dsimp only at h
  split at h <;> obtain ⟨rfl, -⟩ := done_eq h
  · exact .refl _
  · exact putThenEvaluate_sameTies a _ s rfl

theorem unbarThis_sameTies {a : AccountId} {s t : State} {lines : List ReplyLine}
    (h : unbarThis a s = .ok (t, lines)) : SameTies s t := by
  unfold unbarThis at h; dsimp only at h
  split at h <;> obtain ⟨rfl, -⟩ := done_eq h
  · exact putThenEvaluate_sameTies a _ s rfl
  · exact .refl _

/-! ### Berths (03) -/

theorem withPlanned_fields (p : Option Int) (x : Account) :
    (withPlanned p x).state = x.state ∧ (withPlanned p x).berth = x.berth ∧ (withPlanned p x).credentials = x.credentials := by
  cases p <;> exact ⟨rfl, rfl, rfl⟩

theorem makeReservation_keepsTies {a : AccountId} {n : BerthId} {s : State} (d : Int) (p : Option Int)
    (ha : (s.account a).state = .opened) (hn : (s.berth n).state = .free) : KeepsTies s (makeReservation s a n d p s) := by
  refine putBerth_modAccount_keepsTies s ?_ ?_ (fun w => w.joined_of_free ha hn) (.inl ⟨?_, rfl, .inl ⟨rfl, ?_⟩⟩)
  · exact (withPlanned_fields p _).2.2
  · rw [(withPlanned_fields p _).1]; exact nofun
  · exact (withPlanned_fields p _).2.1
  · exact (withPlanned_fields p _).1

theorem makeArrival_keepsTies {a : AccountId} {n : BerthId} {s : State} (p : Option Int)
    (hj : Linked s → Joined s a n) : KeepsTies s (makeArrival s a n p s) := by
  refine raise_keepsTies _ _ (putBerth_modAccount_keepsTies s ?_ ?_ hj (.inl ⟨?_, rfl, .inr ⟨rfl, ?_⟩⟩))
  · exact (withPlanned_fields p _).2.2
  · rw [(withPlanned_fields p _).1]; exact nofun
  · exact (withPlanned_fields p _).2.1
  · exact (withPlanned_fields p _).1

theorem releaseReservation_keepsTies (b : State) {a : AccountId} {n : BerthId} {s : State}
    (e : (s.account a).berth = some n) : KeepsTies s (releaseReservation b a n s) :=
  putBerth_modAccount_keepsTies b rfl (by simp) (fun w => w.joined_of_berth e) (.inr ⟨rfl, rfl, .inl rfl, .inl rfl⟩)

end Sys2Proof.Machine

namespace Sys2Proof.Machine

theorem allocateOwner_keepsTies {n : Nat} {ps : Pontoons} {d : DateField} {p : Option DateField} {s t : State}
    {lines : List ReplyLine} (h : allocateOwner n ps d p s = .ok (t, lines)) : KeepsTies s t := by
  unfold allocateOwner at h
  split at h
  · split at h
    · cases h
    · split at h
      · cases h
      · next ho =>
        split at h
        · cases h
        · next hf =>
          obtain ⟨rfl, -⟩ := done_eq h
          exact makeReservation_keepsTies _ _ (not_not.1 ho) (searchBerth_free hf)
  · cases h

theorem reserveOwner_keepsTies {n m : Nat} {d : DateField} {p : Option DateField} {force : Bool} {s t : State}
    {lines : List ReplyLine} (h : reserveOwner n m d p force s = .ok (t, lines)) : KeepsTies s t := by
  unfold reserveOwner at h
  split at h
  · split at h
    · cases h
    · split at h
      · cases h
      · next ho =>
        split at h
        · cases h
        · next hf =>
          split at h
          · cases h
          · obtain ⟨rfl, -⟩ := done_eq h
            exact makeReservation_keepsTies _ _ (not_not.1 ho) (not_not.1 hf)
  · cases h

theorem cancelThis_keepsTies {a : AccountId} {s t : State} {lines : List ReplyLine}
    (h : cancelThis a s = .ok (t, lines)) : KeepsTies s t := by
  unfold cancelThis at h
  split at h
  · next hb =>
    obtain ⟨rfl, -⟩ := done_eq h
    exact releaseReservation_keepsTies s hb
  · cases h

/-- ARRIVE takes the berth of a reservation, or a FREE berth for an account that is OPEN (R51). -/
theorem arrivalBerth_joined {s : State} {a : AccountId} {given : Option BerthId} {force : Bool} {n : BerthId}
    (h : arrivalBerth s a given force = .ok n) (w : Linked s) : Joined s a n := by
  unfold arrivalBerth at h; dsimp only at h
  split at h
  · cases h
  · cases h
  · split at h
    · cases h
    · next hb =>
      split at h
      · cases h; exact w.joined_of_berth hb
      · cases h
  · next hs =>
    split at h
    · cases h
    · split at h
      · cases h
      · next hf =>
        split at h
        · cases h
        · cases h; exact w.joined_of_free hs (not_not.1 hf)

theorem arriveOwner_keepsTies {n : Nat} {m : Option Nat} {p : Option DateField} {force : Bool} {s t : State}
    {lines : List ReplyLine} (h : arriveOwner n m p force s = .ok (t, lines)) : KeepsTies s t := by
  unfold arriveOwner at h
  split at h
  · split at h
    · cases h
    · next hb =>
      obtain ⟨rfl, -⟩ := done_eq h
      exact makeArrival_keepsTies _ (arrivalBerth_joined hb)
  · cases h

/-- MOVE as two changes: the account leaves its berth, and arrives on the other (R55). -/
theorem moved_keepsTies {a : AccountId} {n m : BerthId} {s : State} (hb : (s.account a).berth = some n)
    (hs : (s.account a).state = .berthed) (hm : (s.berth m).state = .free) :
    KeepsTies s (modAccount s a (fun y => { y with berth := some m })
      (putBerth s m { s.berth m with state := .occupied, holder := some a } (freeBerth s n s))) := by
  have hleft : KeepsTies s (releaseReservation s a n s) := releaseReservation_keepsTies s hb
  have hu : ∀ i, (releaseReservation s a n s).account i
      = if a = i then (s.account a).settled { s.account a with state := .opened, berth := none, arrival := none }
        else s.account i := fun i => modAccount_account s a i _ _
  have hv : ∀ k, (releaseReservation s a n s).berth k = (freeBerth s n s).berth k := fun _ => rfl
  have hk : ∀ k, (freeBerth s n s).berth k
      = if n = k then (s.berth n).settled { s.berth n with state := .free, holder := none } else s.berth k :=
    fun k => putBerth_berth s n k _ s
  have hf : ((releaseReservation s a n s).berth m).state = .free := by
    rw [hv, hk]; split
    · rfl
    · exact hm
  have harrives := putBerth_modAccount_keepsTies s (a := a) (n := m) (s := releaseReservation s a n s)
    (y := { s.berth m with state := .occupied, holder := some a })
    (f := fun y => { s.account a with berth := some m, edition := y.edition })
    (by rw [hu, if_pos rfl]; rfl) (by rw [hs]; exact nofun)
    (fun w => w.joined_of_free (by rw [hu, if_pos rfl]; rfl) hf) (.inl ⟨rfl, rfl, .inr ⟨rfl, hs⟩⟩)
  refine (hleft.trans harrives).trans (SameTies.keepsTies ⟨fun i => ?_, fun _ => rfl, fun _ => rfl⟩)
  have hsame : ∀ b x v, (putBerth b m x v).account = v.account := fun _ _ _ => rfl
  rw [modAccount_account, modAccount_account]
  split
  · rfl
  · next e => rw [hsame, hsame, hu, if_neg e]; rfl

theorem moveThis_keepsTies {a : AccountId} {m : BerthId} {force : Bool} {s t : State} {lines : List ReplyLine}
    (h : moveThis a m force s = .ok (t, lines)) : KeepsTies s t := by
  unfold moveThis at h; dsimp only at h
  split at h
  · next hs hb =>
    split at h
    · cases h
    · next hm =>
      split at h
      · cases h
      · split at h
        · cases h
        · obtain ⟨rfl, -⟩ := done_eq h
          exact moved_keepsTies hb hs (not_not.1 hm)
  · cases h

theorem moveOwner_keepsTies {n m : Nat} {force : Bool} {s t : State} {lines : List ReplyLine}
    (h : moveOwner n m force s = .ok (t, lines)) : KeepsTies s t := by
  unfold moveOwner at h
  split at h
  · exact moveThis_keepsTies h
  · cases h

theorem completeDeparture_keepsTies (b : State) {a : AccountId} {n : BerthId} {s : State} (cents : Nat)
    (hb : (s.account a).berth = some n) : KeepsTies s (completeDeparture b a n cents s) := by
  have hr : KeepsTies s ((if (s.classOf (s.account a)).revokeAtDeparture then revokeAll b a else id) s)
      ∧ (((if (s.classOf (s.account a)).revokeAtDeparture then revokeAll b a else id) s).account a).berth = some n := by
    split
    · exact ⟨revokeAll_keepsTies b a s, (revokeAll_account_fields b a a s).2.trans hb⟩
    · exact ⟨.refl s, hb⟩
  unfold completeDeparture
  generalize (if (s.classOf (s.account a)).revokeAtDeparture then revokeAll b a else id) s = u at hr ⊢
  exact raise_keepsTies _ _ (hr.1.trans (putBerth_modAccount_keepsTies b rfl (by simp) (fun w => w.joined_of_berth hr.2)
    (.inr ⟨rfl, rfl, .inl rfl, .inl rfl⟩)))

theorem departThis_keepsTies {a : AccountId} {s t : State} {lines : List ReplyLine}
    (h : departThis a s = .ok (t, lines)) : KeepsTies s t := by
  unfold departThis at h
  split at h
  · next n _ hb =>
    split at h
    · cases h
    · have hu := (settleStay_sameTies s a (.refl s)).served (closeSessions_served s a (.refl _))
      dsimp only at h
      generalize settleStay s a s = settled at h hu
      obtain ⟨rfl, -⟩ := done_eq h
      exact hu.keepsTies.trans (completeDeparture_keepsTies s _ ((Account.ties_eq (hu.accounts a)).2.1.trans hb))
  · cases h

/-! ### Clock and rollover (04) -/

theorem testRollover_keepsTies {s t : State} (h : KeepsTies s t) : KeepsTies s (testRollover t) :=
  h.trans (by rw [testRollover_eq]; exact .same rfl rfl rfl)

theorem setClockOwner_keepsTies {d : DateField} {c : TimeField} {s t : State} {lines : List ReplyLine}
    (h : setClockOwner d c s = .ok (t, lines)) : KeepsTies s t := by
  unfold setClockOwner done at h; dsimp only at h
  repeat' split at h
  all_goals cases h
  exact testRollover_keepsTies (.same rfl rfl rfl)

theorem expireReservation_keepsTies (b : State) (a : AccountId) (day : Int) (s : State) :
    KeepsTies s (expireReservation b a day s) := by
  unfold expireReservation; dsimp only
  split
  · exact .refl s
  · next hb =>
    split
    · exact raise_keepsTies _ _ (releaseReservation_keepsTies b hb)
    · exact .refl s

theorem rolloverStatePart_keepsTies (b : State) (a : AccountId) (day : Int) (s : State) :
    KeepsTies s (rolloverStatePart b a day s) := by
  unfold rolloverStatePart
  split
  · have w := chargeNights_sameTies b a day (bandOfRollover s) (.refl s)
    unfold raiseOverstay; dsimp only
    split
    · exact w.keepsTies
    · split
      · exact (raise_sameTies _ _ w).keepsTies
      · exact w.keepsTies
  · exact expireReservation_keepsTies b a day s
  · exact .refl s
  · exact .refl s

theorem stepAccount_keepsTies (b : State) (a : AccountId) (day : Int) (s : State) :
    KeepsTies s (stepAccount b a day s) := by
  unfold stepAccount; dsimp only
  split
  · exact .refl s
  · exact (rolloverStatePart_keepsTies b a day s).trans
      (modAccount_sameTies b a (fun y => { y with lastStepped := some day }) (fun _ => rfl)
        (arrearsPart_sameTies b a (.refl _))).keepsTies

theorem rolloverStep_keepsTies (s : State) : KeepsTies s (rolloverStep s) := by
  unfold rolloverStep
  split
  · exact .refl s
  · split
    · exact .refl s
    · exact (stepAccount_keepsTies s _ _ s).trans (.same rfl rfl rfl)

theorem rolloverComplete_keepsTies (s : State) : KeepsTies s (rolloverComplete s) := by
  unfold rolloverComplete
  split
  · exact .refl s
  · split
    · exact testRollover_keepsTies (raise_keepsTies _ _ (.same rfl rfl rfl))
    · exact .refl s

/-! ### Pontoon bus (05) and fuel dock (07) -/

theorem pollDue_sameTies (g : SegmentId) (s : State) : SameTies s (pollDue g s) := by
  unfold pollDue; split <;> exact .same rfl rfl rfl

theorem pollSend_sameTies (g : SegmentId) (s : State) : SameTies s (pollSend g s) := by
  unfold pollSend; dsimp only
  split
  · split <;> exact .same rfl rfl rfl
  · exact .refl s

theorem putSegment_sameTies (g : SegmentId) (x : Segment) (s : State) : SameTies s (putSegment g x s) := .same rfl rfl rfl

theorem lineBusy_sameTies (g : SegmentId) (s : State) : SameTies s (lineBusy g s) := by
  unfold lineBusy; dsimp only
  split
  · split
    · exact .refl s
    · exact miss_sameTies _ _ (putSegment_sameTies ..)
  · exact .refl s

theorem pedestalReply_sameTies (g : SegmentId) (s : State) : SameTies s (pedestalReply g s) := by
  unfold pedestalReply; dsimp only
  split
  · exact .refl s
  · split
    · exact .refl s
    · split
      · exact deliver_sameTies _ _ (putSegment_sameTies ..)
      · exact miss_sameTies _ _ (putSegment_sameTies ..)

theorem noReply_sameTies (g : SegmentId) (s : State) : SameTies s (noReply g s) := by
  unfold noReply; dsimp only
  split
  · exact .refl s
  · split
    · exact miss_sameTies _ _ (putSegment_sameTies ..)
    · exact .refl s

theorem replyByte_sameTies (g : SegmentId) (byte : Byte) (s : State) : SameTies s (replyByte g byte s) := by
  unfold replyByte; dsimp only
  split
  · exact .refl s
  · split <;> exact .same rfl rfl rfl

theorem sellOwner_sameTies {n : Nat} {k : SellKind} {p : Option Preset} {s t : State} {lines : List ReplyLine}
    (h : sellOwner n k p s = .ok (t, lines)) : SameTies s t := by
  unfold sellOwner done at h; dsimp only at h
  repeat' split at h
  all_goals cases h
  exact putPump_sameTies s _ _ (holdMoney_sameTies s _ _ _ (settleLow_sameTies s _ _ (.same rfl rfl rfl)))

theorem pumpPoll_sameTies (s : State) : SameTies s (pumpPoll s) := by
  unfold pumpPoll
  split
  · split <;> exact .same rfl rfl rfl
  · exact .refl s

theorem pumpReply_sameTies (bytes : List Byte) (s : State) : SameTies s (pumpReply bytes s) := by
  unfold pumpReply; dsimp only
  split
  · exact .refl s
  · split
    · exact pumpMiss_sameTies _ _ (.same rfl rfl rfl)
    · exact pumpAnswer_sameTies _ _ (.same rfl rfl rfl)

theorem noLiftExpiry_sameTies (n : PumpId) (s : State) : SameTies s (noLiftExpiry n s) := by
  unfold noLiftExpiry
  split
  · exact .refl s
  · split
    · exact endSale_sameTies s n _ _ (.refl s)
    · exact .refl s

theorem stallExpiry_sameTies (n : PumpId) (s : State) : SameTies s (stallExpiry n s) := by
  unfold stallExpiry
  split
  · exact .refl s
  · split
    · exact putPump_sameTies s n _ (.refl s)
    · exact .refl s

theorem stopSaleOwner_sameTies {n : Nat} {s t : State} {lines : List ReplyLine}
    (h : stopSaleOwner n s = .ok (t, lines)) : SameTies s t := by
  unfold stopSaleOwner stopSaleThis done at h
  repeat' split at h
  all_goals cases h
  · exact putPump_sameTies s _ _ (.refl s)
  · exact .refl _
  · exact endSale_sameTies s _ _ _ (.refl s)

theorem tankDipOwner_sameTies {n v : Nat} {s t : State} {lines : List ReplyLine}
    (h : tankDipOwner n v s = .ok (t, lines)) : SameTies s t := by
  unfold tankDipOwner dipThis at h; dsimp only at h
  split at h
  · cases h
  · split at h
    · cases h
    · obtain ⟨rfl, -⟩ := done_eq h
      refine settleLow_sameTies s _ _ ?_
      split
      · exact raise_sameTies _ _ (.refl s)
      · exact .refl s

theorem tankFillOwner_sameTies {n v : Nat} {s t : State} {lines : List ReplyLine}
    (h : tankFillOwner n v s = .ok (t, lines)) : SameTies s t := by
  unfold tankFillOwner fillThis at h; dsimp only at h
  split at h
  · obtain ⟨rfl, -⟩ := done_eq h
    exact settleLow_sameTies s _ _ (.refl s)
  · cases h

/-! ### Gates and credentials (08) -/

theorem logPassage_sameTies {s t : State} (r : ReaderId) (g : GateResult) (w : Passer) (h : SameTies s t) :
    SameTies s (logPassage r g w t) := h.trans (.same rfl rfl rfl)

theorem release_sameTies {s t : State} (b : State) (g : GateId) (byExit : Bool) (h : SameTies s t) :
    SameTies s (release b g byExit t) := h.trans (.same rfl rfl rfl)

theorem refusePassage_sameTies (r : ReaderId) (g : GateResult) (w : Passer) (c : Option CredId) (s : State) :
    SameTies s (refusePassage r g w c s) := raise_sameTies _ _ (.same rfl rfl rfl)

/-- A passage writes where a credential passed and no more (R158). -/
theorem decidePassage_sameTies (r : ReaderId) (i : ReaderInput) (s : State) : SameTies s (decidePassage r i s) := by
  unfold decidePassage; dsimp only
  split
  · exact refusePassage_sameTies ..
  · exact refusePassage_sameTies ..
  · split
    · exact logPassage_sameTies _ _ _ (passCred_sameTies s _ _ rfl (release_sameTies s _ _ (.refl s)))
    · exact refusePassage_sameTies ..

theorem exitPassage_sameTies (i : ReaderInput) (s : State) : SameTies s (exitPassage i s) := by
  unfold exitPassage
  split
  · exact .same rfl rfl rfl
  · exact .same rfl rfl rfl
  · exact logPassage_sameTies _ _ _ (passCred_sameTies s _ _ rfl (release_sameTies s _ _ (.refl s)))

theorem credentialEnded_sameTies (r : ReaderId) (s : State) : SameTies s (credentialEnded r s) := by
  have hp : SameTies s (putReader r emptyReader s) := .same rfl rfl rfl
  unfold credentialEnded; dsimp only
  split
  · exact .refl s
  · split
    · split
      · exact hp.trans (.same rfl rfl rfl)
      · exact hp.trans (exitPassage_sameTies ..)
    · split
      · exact hp
      · exact hp.trans (decidePassage_sameTies ..)

theorem readerPulse_sameTies (r : ReaderId) (b : Bool) (s : State) : SameTies s (readerPulse r b s) := by
  unfold readerPulse; split <;> exact .same rfl rfl rfl

theorem releaseExpiry_sameTies (g : GateId) (s : State) : SameTies s (releaseExpiry g s) := by
  unfold releaseExpiry; dsimp only; split <;> exact .same rfl rfl rfl

theorem holdGateOwner_sameTies {n : Nat} {m : GateMode} {s t : State} {lines : List ReplyLine}
    (h : holdGateOwner n m s = .ok (t, lines)) : SameTies s t := by
  unfold holdGateOwner at h
  split at h
  · cases h
  · obtain ⟨rfl, -⟩ := done_eq h
    exact .same rfl rfl rfl

theorem clearPassbackOwner_sameTies {n : Nat} {s t : State} {lines : List ReplyLine}
    (h : clearPassbackOwner n s = .ok (t, lines)) : SameTies s t := by
  unfold clearPassbackOwner done at h
  repeat' split at h
  all_goals cases h
  exact putCred_sameTies s _ _ rfl (.refl s)

/-- One credential is written as `y` and moved between the lists: the law of R40 reads neither. -/
theorem putCred_relist_keepsTies {c : CredId} {y : Credential} {s : State}
    (hk : y.state = .active → ∀ d, d ≠ c → (s.cred d).state = .active → (s.cred d).key ≠ y.key)
    (hv : y.state = .active → y.kind = .vessel → y.account ≠ none) (hf : ∀ a, y.listed? = some a → (s.account a).state ≠ .free)
    (hr : ∀ a, y.listed? = some a →
      (s.cred c).listed? = some a ∨ (s.account a).credentials.length < Config.credentialsRoom) :
    KeepsTies s (relist s c (s.cred c).listed? y.listed? (putCred s c y s)) := by
  have ht := relist_ties s c (s.cred c).listed? y.listed? (putCred s c y s)
  obtain ⟨hb, hc⟩ := relist_rest s c (s.cred c).listed? y.listed? (putCred s c y s)
  generalize relist s c (s.cred c).listed? y.listed? (putCred s c y s) = t at ht hb hc
  have hcred : ∀ d, t.cred d = if c = d then (s.cred c).settled y else s.cred d := fun d => by
    rw [State.cred_eq, hc]; exact putCred_cred s c d y s
  have hy : (t.cred c).ties = y.ties := by rw [hcred, if_pos rfl]; rfl
  obtain ⟨ys, yk, yv, ya⟩ := Credential.ties_eq hy
  have yl : (t.cred c).listed? = y.listed? := Credential.listed?_of_ties hy
  refine ⟨fun w => Linked.berthsLinked (w.linked.of_unheld
    (fun i => ⟨congrArg (fun p => p.2.1) (ht i), .inl (congrArg Prod.fst (ht i))⟩) fun m => ?_), fun w =>
    Listed.credentialsOk (w.listed.relisted (c := c) (fun d hd => ?_) (fun i => ?_) ?_ ?_ ?_ ?_)⟩
  · rw [State.berth_eq, hb]; exact ⟨rfl, .inl rfl⟩
  · rw [hcred, if_neg fun e => hd e.symm]
  · rw [yl]; exact ht i
  · rw [ys, yk]; exact hk
  · rw [ys, yv, ya]; exact hv
  · rw [yl]; exact hf
  · rw [yl]; exact hr

/-- A revoked credential is on no list (R152). -/
theorem revokeOwner_keepsTies {n : Nat} {s t : State} {lines : List ReplyLine}
    (h : revokeOwner n s = .ok (t, lines)) : KeepsTies s t := by
  unfold revokeOwner at h; dsimp only at h
  split at h
  · cases h
  · next c _ =>
    split at h
    · cases h
    · next hs =>
      have hl : (s.cred c).listed? = (s.cred c).vessel? := if_pos (not_not.1 hs)
      have hn : ({ s.cred c with state := .revoked, inside := false } : Credential).listed? = none := rfl
      have ho : t = relist s c (s.cred c).listed? none (revokeOne s c s) := by
        rw [hl, relist_eq]
        split at h <;> obtain ⟨rfl, -⟩ := done_eq h
        · next hv => rw [hv]; rfl
        · next hv => rw [hv]; rfl
      have hk : KeepsTies s _ := putCred_relist_keepsTies (c := c)
        (y := { s.cred c with state := .revoked, inside := false }) (s := s) nofun nofun
        (fun a ha => by rw [hn] at ha; cases ha) (fun a ha => by rw [hn] at ha; cases ha)
      rw [hn] at hk
      exact ho ▸ hk

end Sys2Proof.Machine

namespace Sys2Proof.Machine

/-! ### STORE (R172) -/

theorem Credential.stored_ties (x y : Credential) : (x.stored y).ties = y.ties := by
  unfold Credential.stored; dsimp only
  split
  · rfl
  · split <;> rfl
  · rfl

/-- A key that is not taken is that of no other ACTIVE credential. -/
theorem keyTaken_eq_false {s : State} {c : CredId} {k : Key} (h : keyTaken s c k = false) {d : CredId} (hd : d ≠ c)
    (ha : (s.cred d).state = .active) : (s.cred d).key ≠ k := fun e => by
  unfold keyTaken at h
  have := List.any_eq_false.1 h d (List.mem_finRange d)
  simp [hd, ha, e] at this

/-- The checks of R151 are what the law of credentials asks of the entry written. -/
theorem storeCred_keepsTies (c : CredId) (x : Credential) (s : State) : Leaves (KeepsTies s) (storeCred c x s) := by
  obtain ⟨hs, hk, hv, ha⟩ := Credential.ties_eq (Credential.stored_ties (s.cred c) x)
  refine leaves_check fun hrange => leaves_check fun hissue => leaves_check fun hkey => leaves_check fun hroom => leaves_ok ?_
  refine putCred_relist_keepsTies (fun h d hd hact => ?_) (fun _ h => ?_) (fun a h => ?_) fun a h => ?_
  · rw [hs] at h
    rw [hk]
    simp only [h, decide_true, Bool.true_and, Bool.not_eq_true'] at hkey
    exact keyTaken_eq_false hkey hd hact
  · rw [hv] at h
    rw [ha]
    simp only [Credential.inRange, Bool.and_eq_true, decide_eq_true_eq] at hrange
    obtain ⟨-, hsome⟩ := hrange
    exact Option.isSome_iff_ne_none.1 (hsome.mp h)
  · simpa [issueAllowed, h] using hissue
  · simpa [listHasRoom, h] using hroom

/-- A berth that is not taken has no holder, and a taken one stays as it is (R42). -/
theorem storeBerth_keepsTies (n : BerthId) (x : Berth) (s : State) : Leaves (KeepsTies s) (storeBerth n x s) := by
  refine leaves_check fun hstate => leaves_check fun htaken => leaves_check fun _ => leaves_check fun _ =>
    leaves_check fun _ => leaves_check fun _ => leaves_ok ⟨fun w => ?_, fun w => ?_⟩
  · refine Linked.berthsLinked (w.linked.of_unheld (fun _ => ⟨rfl, .inl rfl⟩) fun m => ?_)
    rw [putBerth_berth]
    split
    · next e =>
      subst e
      refine ⟨rfl, ?_⟩
      by_cases he : x.state = (s.berth n).state
      · exact .inl he
      · simp only [Berth.taken, Bool.or_eq_true, Bool.not_eq_true', Bool.or_eq_false_iff, decide_eq_false_iff_not,
          Bool.and_eq_true, decide_eq_true_eq, he, false_and, or_false] at htaken
        simp only [berthStateAllowed, Bool.and_eq_true, Bool.or_eq_true, decide_eq_true_eq, he, or_false] at hstate
        refine .inr ⟨w.linked.holder_of_vacant ?_, hstate.2⟩
        unfold Berth.vacant
        cases hs : (s.berth n).state <;> simp_all
    · exact ⟨rfl, .inl rfl⟩
  · exact Listed.credentialsOk (w.listed.of_lists (fun _ => rfl) fun _ => ⟨rfl, id⟩)

theorem storeAccount_sameTies (a : AccountId) (x : Account) (s : State) : Leaves (SameTies s) (storeAccount a x s) := by
  refine leaves_check fun _ => leaves_check fun _ => leaves_ok ?_
  split
  · exact putAccount_sameTies s a _ rfl (.refl s)
  · exact putThenEvaluate_sameTies a _ s rfl

theorem storeFeeder_sameTies (f : FeederId) (x : Feeder) (s : State) : Leaves (SameTies s) (storeFeeder f x s) := by
  have hp : SameTies s (putFeeder s f { s.feeder f with cfg := x.cfg } s) := .same rfl rfl rfl
  refine leaves_check fun _ => leaves_check fun _ => leaves_ok ?_
  split
  · exact hp.served (serve_served s f (.refl _))
  · exact hp

theorem storeClass_sameTies (c : ClassId) (x : Row ClassCfg) (s : State) : Leaves (SameTies s) (storeClass c x s) := by
  refine leaves_check fun _ => leaves_ok ?_
  split
  · exact .same rfl rfl rfl
  · exact evaluateClass_sameTies s c (.same rfl rfl rfl)

theorem Leaves.mono {P Q : State → Prop} {x : Stored} (h : Leaves P x) (hpq : ∀ t, P t → Q t) : Leaves Q x :=
  fun t e => hpq t (h t e)

theorem ownerStore_keepsTies (e : Entry) (ix : Nat) (s : State) : Leaves (KeepsTies s) (ownerStore e ix s) := by
  cases e with
  | site x =>
    exact leaves_check fun _ => leaves_check fun _ => leaves_check fun _ =>
      leaves_ok (testRollover_keepsTies (.same rfl rfl rfl))
  | cls x => exact leaves_atIndex fun i => (storeClass_sameTies i x s).mono fun _ => SameTies.keepsTies
  | rate x => exact leaves_atIndex fun i => leaves_check fun _ => leaves_ok (.same rfl rfl rfl)
  | hourband x => exact leaves_atIndex fun i => leaves_ok (.same rfl rfl rfl)
  | berth x => exact leaves_atIndex fun i => storeBerth_keepsTies i x s
  | pedestal x =>
    exact leaves_atIndex fun i => leaves_check fun _ => leaves_check fun _ => leaves_check fun _ => leaves_check fun _ =>
      leaves_ok (by split <;> exact .same rfl rfl rfl)
  | feeder x => exact leaves_atIndex fun i => (storeFeeder_sameTies i x s).mono fun _ => SameTies.keepsTies
  | pump x =>
    exact leaves_atIndex fun i => leaves_check fun _ => leaves_check fun _ =>
      leaves_ok (by split <;> exact .same rfl rfl rfl)
  | tank x =>
    exact leaves_atIndex fun i => leaves_check fun _ => leaves_check fun _ =>
      leaves_ok (settleLow_sameTies s i _ (.refl s)).keepsTies
  | format x => exact leaves_atIndex fun i => leaves_check fun _ => leaves_check fun _ => leaves_ok (.same rfl rfl rfl)
  | access x => exact leaves_atIndex fun i => leaves_check fun _ => leaves_ok (.same rfl rfl rfl)
  | gate x => exact leaves_atIndex fun i => leaves_check fun _ => leaves_ok (.same rfl rfl rfl)
  | level x => exact leaves_atIndex fun i => leaves_ok (.same rfl rfl rfl)
  | port x => exact leaves_atIndex fun i => leaves_check fun _ => leaves_ok (.same rfl rfl rfl)
  | cred x => exact leaves_atIndex fun i => storeCred_keepsTies i x s
  | account x => exact leaves_atIndex fun i => (storeAccount_sameTies i x s).mono fun _ => SameTies.keepsTies
  | power x | water x | sale x | passage x => exact fun _ e => by cases e

/-! ### Command ports (09) -/

theorem selectOwner_sameTies {p : PortId} {tb : TableName} {n : Nat} {s t : State} {lines : List ReplyLine}
    (h : selectOwner p tb n s = .ok (t, lines)) : SameTies s t := by
  unfold selectOwner at h
  split at h
  · cases h
  · obtain ⟨rfl, -⟩ := done_eq h
    exact .same rfl rfl rfl

theorem putOwner_sameTies {p : PortId} {f v : String} {s t : State} {lines : List ReplyLine}
    (h : putOwner p f v s = .ok (t, lines)) : SameTies s t := by
  unfold putOwner done at h
  repeat' split at h
  all_goals cases h <;> exact .same rfl rfl rfl

theorem storeOwner_keepsTies {p : PortId} {s t : State} {lines : List ReplyLine}
    (h : storeOwner p s = .ok (t, lines)) : KeepsTies s t := by
  unfold storeOwner done at h; dsimp only at h
  split at h
  · repeat' split at h
    all_goals cases h
    next ho => exact (ownerStore_keepsTies _ _ _ _ ho).trans (.same rfl rfl rfl)
  · cases h

theorem readOwner_sameTies {p : PortId} {s t : State} {lines : List ReplyLine}
    (h : readOwner p s = .ok (t, lines)) : SameTies s t := by
  unfold readOwner at h; dsimp only at h
  split at h <;> obtain ⟨rfl, -⟩ := done_eq h
  · exact .refl _
  · exact .same rfl rfl rfl

theorem nextOwner_sameTies {p : PortId} {s t : State} {lines : List ReplyLine}
    (h : nextOwner p s = .ok (t, lines)) : SameTies s t := by
  unfold nextOwner at h
  split at h <;> obtain ⟨rfl, -⟩ := done_eq h
  · exact .refl _
  · exact .same rfl rfl rfl

theorem unknownLine_sameTies (p : PortId) (l : List Byte) (s : State) : SameTies s (unknownLine p l s) := by
  have hb : ∀ c, SameTies s (answerBad p c s) := fun c => by cases c <;> exact .same rfl rfl rfl
  unfold unknownLine; dsimp only
  split
  · split
    · exact hb _
    · exact .refl s
  · split
    · exact hb _
    · exact .refl s
  · exact .refl s

theorem lineTimeout_sameTies (p : PortId) (s : State) : SameTies s (lineTimeout p s) := by
  unfold lineTimeout; dsimp only; split <;> exact .same rfl rfl rfl

theorem replySent_sameTies (p : PortId) (s : State) : SameTies s (replySent p s) := by
  unfold replySent; dsimp only; split <;> exact .same rfl rfl rfl

theorem portCharacter_sameTies (p : PortId) (c : Byte) (s : State) : SameTies s (portCharacter p c s) := by
  unfold portCharacter; dsimp only; split <;> exact .same rfl rfl rfl

/-! ### Device states (10) -/

theorem stateChanged_sameTies {s t : State} (v : Option Int) (h : SameTies s t) : SameTies s (stateChanged v t) :=
  h.trans (stateChanged_noticed v t).startEq.sameTies

theorem enterState_sameTies {s t : State} (b : State) (d : DeviceState) (h : SameTies s t) :
    SameTies s (enterState b d t) := h.trans (enterState_startEq b d t).sameTies

theorem enterLoading_sameTies (g : SaveStage) (s : State) : SameTies s (enterLoading g s) :=
  SameTies.trans (t := { s with image := (enterLoading g s).image, save := none }) (.same rfl rfl rfl)
    (enterLoading_eq g s).sameTies

theorem saveOwner_sameTies {s t : State} {lines : List ReplyLine} (h : saveOwner s = .ok (t, lines)) : SameTies s t := by
  unfold saveOwner at h
  split at h
  · cases h
  · obtain ⟨rfl, -⟩ := done_eq h
    exact .same rfl rfl rfl

theorem saveComplete_sameTies (r : ReadBack) (s : State) : SameTies s (saveComplete r s) := by
  unfold saveComplete
  split
  · exact .refl s
  · split <;> exact raise_sameTies _ _ (.same rfl rfl rfl)

theorem enterHoldover_sameTies {s t : State} (b : State) (h : SameTies s t) : SameTies s (enterHoldover b t) := by
  have hp : ∀ {u}, SameTies s u → SameTies s (stopPolling u) := fun k => k.trans (.same rfl rfl rfl)
  exact (hp (stateChanged_sameTies none (enterState_sameTies b .holdover (raise_sameTies .mainsLost {} h)))).trans
    (eachId_sameTies (fun n u => endSaleAt_sameTies b .mainsLost n (.refl u)) _)

theorem returnPedestal_sameTies {s t : State} (b : State) (n : PedestalId) (h : SameTies s t) :
    SameTies s (returnPedestal b n t) := putPedestal_sameTies b n _ h

theorem returnPump_sameTies {s t : State} (b : State) (n : PumpId) (h : SameTies s t) :
    SameTies s (returnPump b n t) := by
  unfold returnPump; dsimp only; split
  · exact putPump_sameTies b n _ h
  · exact h

theorem beginPolling_sameTies {s t : State} (h : SameTies s t) : SameTies s (beginPolling t) :=
  h.trans (.same rfl rfl rfl)

theorem returnToOpen_sameTies {s t : State} (b : State) (h : SameTies s t) : SameTies s (returnToOpen b t) := by
  have hr : ∀ u, SameTies u (beginPolling (eachId 4 (returnPump b) (eachId 16 (returnFeeder b)
      (eachId 512 (returnSession b) (eachId 256 (returnPedestal b) u))))) := fun u => by
    have w1 : SameTies u (eachId 256 (returnPedestal b) u) :=
      eachId_keeps (P := SameTies u) (fun n _ w => returnPedestal_sameTies b n w) (.refl u)
    have w2 := (w1.served (eachId_served (returnSession_served b) _)).served (eachId_served (returnFeeder_served b) _)
    have w3 := eachId_keeps (P := SameTies u) (fun n _ w => returnPump_sameTies b n w) w2
    exact beginPolling_sameTies w3
  exact (stateChanged_sameTies none (enterState_sameTies b .opened (raise_sameTies .mainsBack {} h))).trans (hr _)

theorem mainsFall_sameTies (s : State) : SameTies s (mainsFall s) := by
  have ht : SameTies s { s with mainsOk := false } := .same rfl rfl rfl
  unfold mainsFall
  split
  · exact .refl s
  · split
    · exact ht
    · exact raise_sameTies _ _ ht
    · exact enterHoldover_sameTies s ht
    · exact ht

theorem mainsRise_sameTies (s : State) : SameTies s (mainsRise s) := by
  have ht : SameTies s { s with mainsOk := true } := .same rfl rfl rfl
  unfold mainsRise
  split
  · exact .refl s
  · split
    · exact ht
    · exact raise_sameTies _ _ ht
    · exact ht
    · exact returnToOpen_sameTies s ht

theorem openOwner_sameTies {s t : State} {lines : List ReplyLine} (h : openOwner s = .ok (t, lines)) : SameTies s t := by
  have hv : SameTies s { s with valid := true } := .same rfl rfl rfl
  unfold openOwner at h; dsimp only at h
  split at h
  · cases h
  · obtain ⟨rfl, -⟩ := done_eq h
    split
    · exact stateChanged_sameTies none (enterState_sameTies s .opened hv)
    · exact enterHoldover_sameTies s hv

theorem setupOwner_sameTies {s t : State} {lines : List ReplyLine} (h : setupOwner s = .ok (t, lines)) : SameTies s t := by
  unfold setupOwner at h
  split at h
  · cases h
  · obtain ⟨rfl, -⟩ := done_eq h
    exact stateChanged_sameTies none (enterState_sameTies s .setup (.refl s))

/-! ### Starts (R181 to R183) -/

/-- Records at their cold values name nothing (R19, R60, R150). -/
theorem coldRecords_linked {s : State} (ha : s.accounts = Table.build coldAccount) (hc : s.creds = Table.build fun _ => coldCredential)
    (hb : ∀ n, ∃ i, s.berth n = coldBerth i) : BerthsLinked s ∧ CredentialsOk s := by
  have acc : ∀ a, s.account a = coldAccount a := fun a => by rw [State.account, ha, Table.get_build]
  have cred : ∀ c, s.cred c = coldCredential := fun c => by rw [State.cred, hc, Table.get_build]
  have free : ∀ n, (s.berth n).holder = none ∧ (s.berth n).vacant := fun n => by
    obtain ⟨i, e⟩ := hb n
    rw [e]
    refine ⟨rfl, ?_⟩
    unfold coldBerth Berth.vacant
    cases i.outOfService
    · exact .inl rfl
    · exact .inr rfl
  refine ⟨Linked.berthsLinked ⟨fun n a => ?_, fun n a e => ?_, fun n _ => (free n).2, fun a _ => ?_⟩,
    Listed.credentialsOk ⟨fun c d h => ?_, fun a c => ?_, fun c h => ?_, fun a c h => ?_, fun a => ?_, fun a => ?_⟩⟩
  · rw [(free n).1, acc]; exact ⟨nofun, nofun⟩
  · rw [acc] at e; cases e
  · rw [acc]; exact .inr rfl
  · rw [cred] at h; cases h
  · rw [acc, cred]; exact ⟨nofun, nofun⟩
  · rw [cred] at h; cases h
  · rw [acc] at h; cases h
  · rw [acc]; exact List.nodup_nil
  · rw [acc]; exact Nat.zero_le _

theorem clearRecords_keepsTies (s : State) : KeepsTies s (clearRecords s) :=
  have h := coldRecords_linked (s := clearRecords s) rfl rfl fun n => ⟨_, clearRecords_berth s n⟩
  ⟨fun _ => h.1, fun _ => h.2⟩

theorem coldStart_keepsTies (c : SiteTables) (v : Int) (s : State) : KeepsTies s (coldStart c v s) := by
  have h := coldRecords_linked (s := { coldRecords c s with valid := false }) rfl rfl fun n =>
    ⟨c.berths.get n, Table.get_map ..⟩
  exact KeepsTies.trans ⟨fun _ => h.1, fun _ => h.2⟩ (endLoading_startEq ..).sameTies.keepsTies

/-- The configuration of a berth is no tie (R183). -/
theorem warmRecords_sameTies (c : SiteTables) (s : State) : SameTies s (warmRecords c s) where
  accounts _ := rfl
  berths n := by
    rw [show (warmRecords c s).berth n = (takeConfiguration c s).berth n from rfl, takeConfiguration_berth]
    rfl
  creds _ := rfl

theorem reconcile_sameTies (b s : State) : SameTies s (reconcile b s) := by
  unfold reconcile
  have h1 := (reconcileSessions_served b s).sameTies.trans
    (eachId_sameTies (fun n u => endSaleAt_sameTies b .restart n (.refl u)) _)
  generalize eachId 4 (endSaleAt b .restart) (reconcileSessions b s) = v1 at h1
  have h2 := h1.trans (eachId_sameTies (fun k u => (by
    unfold clampTank; dsimp only
    refine settleLow_sameTies b k _ ?_
    split
    · exact raise_sameTies _ _ (.refl u)
    · exact .refl u : SameTies u (clampTank b k u))) v1)
  generalize eachId 2 (clampTank b) v1 = v2 at h2
  have h3 := h2.trans (eachId_sameTies (fun a u => evaluateStanding_sameTies b a (.refl u)) v2)
  generalize eachId 512 (evaluateStanding b) v2 = v3 at h3
  exact h3.served (eachId_served (fun f t => relieveLoaded_served b f 1024 (.refl t)) v3)

theorem warmEnd_sameTies (b u : State) (d : DeviceState) :
    SameTies u (endLoading b d 1 (serveAll b { u with device := d })) :=
  SameTies.trans (t := { u with device := d }) (.same rfl rfl rfl)
    ((serveAll_served b _).sameTies.trans (endLoading_startEq b d 1 _).sameTies)

theorem warmStart_sameTies (c : SiteTables) (s : State) : SameTies s (warmStart c s) :=
  ((warmRecords_sameTies c s).trans (reconcile_sameTies (warmRecords c s) (warmRecords c s))).trans
    (warmEnd_sameTies (warmRecords c s) (reconcile (warmRecords c s) (warmRecords c s))
      (tradingState (reconcile (warmRecords c s) (warmRecords c s))))

theorem loadComplete_keepsTies (answers : Bool) (s : State) : KeepsTies s (loadComplete answers s) := by
  unfold loadComplete
  split
  · exact .refl s
  · split
    · exact coldStart_keepsTies ..
    · split
      · exact (warmStart_sameTies ..).keepsTies
      · exact coldStart_keepsTies ..

theorem restartAfterReply_sameTies (o : Origin) (s : State) : SameTies s (restartAfterReply o s) :=
  (enterLoading_sameTies .beforeErase s).trans (.same rfl rfl rfl)

/-! ### Every command -/

/-- Every command keeps the laws of R40 and R150. -/
theorem exec_keepsTies (c : Instr) (s : State) : ∃ t, exec c s = .next t ∧ KeepsTies s t := by
  cases c with
  | openAccount => exact ⟨_, rfl, portCommand_keepsTies openAccountOwner_keepsTies⟩
  | closeAccount => exact ⟨_, rfl, portCommand_keepsTies fun h => have ⟨_, _, h⟩ := onOpenAccount_ok h; closeThis_keepsTies h⟩
  | credit => exact ⟨_, rfl, portCommand_keepsTies fun h =>
      have ⟨_, _, h⟩ := onOpenAccount_ok h; (creditThis_sameTies h).keepsTies⟩
  | debit => exact ⟨_, rfl, portCommand_keepsTies fun h =>
      have ⟨_, _, h⟩ := onOpenAccount_ok h; (debitThis_sameTies h).keepsTies⟩
  | bar => exact ⟨_, rfl, portCommand_keepsTies fun h =>
      have ⟨_, _, h⟩ := onOpenAccount_ok h; (barThis_sameTies h).keepsTies⟩
  | unbar => exact ⟨_, rfl, portCommand_keepsTies fun h =>
      have ⟨_, _, h⟩ := onOpenAccount_ok h; (unbarThis_sameTies h).keepsTies⟩
  | allocate => exact ⟨_, rfl, portCommand_keepsTies allocateOwner_keepsTies⟩
  | reserve => exact ⟨_, rfl, portCommand_keepsTies reserveOwner_keepsTies⟩
  | cancel => exact ⟨_, rfl, portCommand_keepsTies fun h => have ⟨_, h⟩ := onAccount_ok h; cancelThis_keepsTies h⟩
  | arrive => exact ⟨_, rfl, portCommand_keepsTies arriveOwner_keepsTies⟩
  | move => exact ⟨_, rfl, portCommand_keepsTies moveOwner_keepsTies⟩
  | depart => exact ⟨_, rfl, portCommand_keepsTies fun h => have ⟨_, h⟩ := onAccount_ok h; departThis_keepsTies h⟩
  | setClock => exact ⟨_, rfl, portCommand_keepsTies setClockOwner_keepsTies⟩
  | clockAdvance => exact ⟨_, rfl, event_keepsTies (testRollover_keepsTies (.same rfl rfl rfl))⟩
  | rolloverStep => exact ⟨_, rfl, event_keepsTies (rolloverStep_keepsTies _)⟩
  | rolloverComplete => exact ⟨_, rfl, event_keepsTies (rolloverComplete_keepsTies _)⟩
  | pollDue => exact ⟨_, rfl, event_keepsTies (pollDue_sameTies _ _).keepsTies⟩
  | pollSend => exact ⟨_, rfl, event_keepsTies (pollSend_sameTies _ _).keepsTies⟩
  | lineBusy => exact ⟨_, rfl, event_keepsTies (lineBusy_sameTies _ _).keepsTies⟩
  | pedestalReply => exact ⟨_, rfl, event_keepsTies (pedestalReply_sameTies _ _).keepsTies⟩
  | noReply => exact ⟨_, rfl, event_keepsTies (noReply_sameTies _ _).keepsTies⟩
  | reliefHoldExpiry => exact ⟨_, rfl, event_keepsTies (reliefExpiry_served _ _).keepsTies⟩
  | requestPower => exact ⟨_, rfl, portCommand_keepsTies fun h => (requestPowerOwner_served h).keepsTies⟩
  | resetSocket => exact ⟨_, rfl, portCommand_keepsTies fun h => (resetSocketOwner_served h).keepsTies⟩
  | endPower => exact ⟨_, rfl, portCommand_keepsTies fun h => (endPowerOwner_served h).keepsTies⟩
  | requestWater => exact ⟨_, rfl, portCommand_keepsTies fun h => (requestWaterOwner_served h).keepsTies⟩
  | endWater => exact ⟨_, rfl, portCommand_keepsTies fun h => (endWaterOwner_served h).keepsTies⟩
  | sell => exact ⟨_, rfl, portCommand_keepsTies fun h => (sellOwner_sameTies h).keepsTies⟩
  | pumpPoll => exact ⟨_, rfl, event_keepsTies (pumpPoll_sameTies _).keepsTies⟩
  | pumpReply => exact ⟨_, rfl, event_keepsTies (pumpReply_sameTies _ _).keepsTies⟩
  | noLiftTimerExpiry => exact ⟨_, rfl, event_keepsTies (noLiftExpiry_sameTies _ _).keepsTies⟩
  | stallTimerExpiry => exact ⟨_, rfl, event_keepsTies (stallExpiry_sameTies _ _).keepsTies⟩
  | stopSale => exact ⟨_, rfl, portCommand_keepsTies fun h => (stopSaleOwner_sameTies h).keepsTies⟩
  | sale => exact ⟨_, rfl, portCommand_keepsTies fun h => saleOwner_eq h ▸ .refl s⟩
  | tankDip => exact ⟨_, rfl, portCommand_keepsTies fun h => (tankDipOwner_sameTies h).keepsTies⟩
  | tankFill => exact ⟨_, rfl, portCommand_keepsTies fun h => (tankFillOwner_sameTies h).keepsTies⟩
  | credentialEnded => exact ⟨_, rfl, event_keepsTies (credentialEnded_sameTies _ _).keepsTies⟩
  | releaseExpiry => exact ⟨_, rfl, event_keepsTies (releaseExpiry_sameTies _ _).keepsTies⟩
  | holdGate => exact ⟨_, rfl, portCommand_keepsTies fun h => (holdGateOwner_sameTies h).keepsTies⟩
  | revoke => exact ⟨_, rfl, portCommand_keepsTies revokeOwner_keepsTies⟩
  | clearPassback => exact ⟨_, rfl, portCommand_keepsTies fun h => (clearPassbackOwner_sameTies h).keepsTies⟩
  | select => exact ⟨_, rfl, portCommand_keepsTies fun h => (selectOwner_sameTies h).keepsTies⟩
  | put => exact ⟨_, rfl, portCommand_keepsTies fun h => (putOwner_sameTies h).keepsTies⟩
  | store => exact ⟨_, rfl, portCommand_keepsTies storeOwner_keepsTies⟩
  | read => exact ⟨_, rfl, portCommand_keepsTies fun h => (readOwner_sameTies h).keepsTies⟩
  | list => exact ⟨_, rfl, portCommand_keepsTies fun h => listOwner_eq h ▸ .refl s⟩
  | next => exact ⟨_, rfl, portCommand_keepsTies fun h => (nextOwner_sameTies h).keepsTies⟩
  | status => exact ⟨_, rfl, portCommand_keepsTies fun h => (done_eq h).1 ▸ .refl s⟩
  | unknownCommandLine => exact ⟨_, rfl, event_keepsTies (unknownLine_sameTies _ _ _).keepsTies⟩
  | lineTimeout => exact ⟨_, rfl, event_keepsTies (lineTimeout_sameTies _ _).keepsTies⟩
  | replySent => exact ⟨_, rfl, event_keepsTies (replySent_sameTies _ _).keepsTies⟩
  | save => exact ⟨_, rfl, portCommand_keepsTies fun h => (saveOwner_sameTies h).keepsTies⟩
  | saveComplete => exact ⟨_, rfl, event_keepsTies (saveComplete_sameTies _ _).keepsTies⟩
  | openDevice => exact ⟨_, rfl, portCommand_keepsTies fun h => (openOwner_sameTies h).keepsTies⟩
  | setup => exact ⟨_, rfl, portCommand_keepsTies fun h => (setupOwner_sameTies h).keepsTies⟩
  | restart => exact ⟨_, rfl, portCommandThen_keeps (fun _ _ h => h.trans (.same rfl rfl rfl))
      (fun h => restartOwner_eq h ▸ .refl s)
      (fun h => h.trans (restartAfterReply_sameTies _ _).keepsTies) (.refl s)⟩
  | powerOn => exact ⟨_, rfl, KeepsTies.trans (t := { s with stopped := false }) (.same rfl rfl rfl)
      (enterLoading_sameTies _ _).keepsTies⟩
  | resetInput => exact ⟨_, rfl, event_keepsTies (enterLoading_sameTies _ _).keepsTies⟩
  | loadComplete => exact ⟨_, rfl, event_keepsTies (loadComplete_keepsTies _ _)⟩
  | mainsLost => exact ⟨_, rfl, event_keepsTies (mainsFall_sameTies _).keepsTies⟩
  | mainsBack => exact ⟨_, rfl, event_keepsTies (mainsRise_sameTies _).keepsTies⟩
  | batteryExhausted => exact ⟨_, rfl, event_keepsTies
      (KeepsTies.trans (t := clearRecords s) (clearRecords_keepsTies s) (.same rfl rfl rfl))⟩
  | readerPulse => exact ⟨_, rfl, event_keepsTies (readerPulse_sameTies _ _ _).keepsTies⟩
  | pedestalReplyByte => exact ⟨_, rfl, event_keepsTies (replyByte_sameTies _ _ _).keepsTies⟩
  | portCharacter => exact ⟨_, rfl, event_keepsTies (portCharacter_sameTies _ _ _).keepsTies⟩

theorem step_keepsTies {s t : State} (h : step s = .next t) : KeepsTies s t := by
  unfold step at h
  split at h
  · cases h; exact .refl s
  · next c rest _ =>
    obtain ⟨u, e, k⟩ := exec_keepsTies c (s.withPending rest)
    rw [e] at h
    cases h
    exact KeepsTies.trans (t := s.withPending rest) (.same rfl rfl rfl) k

/-- Settles O36: what a command changes of the ties it ties anew, on both sides. -/
theorem everyStepKeepsBerthsAndAccountsLinked : Obligations.EveryStepKeepsBerthsAndAccountsLinked :=
  ⟨fun _ _ w h => (step_keepsTies h).berths w, fun _ _ w h => (step_keepsTies h).creds w⟩

end Sys2Proof.Machine

/-! ## The settlement of a stay (O35) -/

namespace Sys2Proof.Machine

/-! ### A debit that does not resume anything

A balance that falls takes a standing from GOOD to ARREARS at most, and that change sends no request (R10). -/

theorem standingRequests_lowered (b : State) (a : AccountId) (flag : Bool) {low high : Int} (floor : Int) (s : State)
    (h : low ≤ high) : standingRequests b a (standingOf flag high floor) (standingOf flag low floor) s = s := by
  unfold standingOf
  cases flag
  · by_cases hl : low < floor
    · by_cases hh : high < floor
      · rw [if_pos hl, if_pos hh]; rfl
      · rw [if_pos hl, if_neg hh]; rfl
    · rw [if_neg hl, if_neg (show ¬ high < floor by omega)]; rfl
  · rfl

/-- Between `s` and `t` account `a` alone is written, its session links kept, and notices may be raised. -/
structure Billed (a : AccountId) (s t : State) : Prop where
  eq : t = { s with accounts := t.accounts, ports := t.ports, heldNotices := t.heldNotices }
  others : ∀ i, i ≠ a → t.account i = s.account i
  power : (t.account a).power = (s.account a).power
  water : (t.account a).water = (s.account a).water

theorem Billed.refl (a : AccountId) (s : State) : Billed a s s := ⟨rfl, fun _ _ => rfl, rfl, rfl⟩

theorem Billed.trans {a : AccountId} {s t u : State} (h : Billed a s t) (k : Billed a t u) : Billed a s u where
  eq := by rw [k.eq, h.eq]
  others i hi := (k.others i hi).trans (h.others i hi)
  power := k.power.trans h.power
  water := k.water.trans h.water

theorem Noticed.billed {s t : State} (a : AccountId) (h : Noticed s t) : Billed a s t where
  eq := by rw [h.eq]
  others _ _ := by rw [h.eq]; rfl
  power := by rw [h.eq]; rfl
  water := by rw [h.eq]; rfl

theorem AccountWritten.billed {a : AccountId} {x : Account} {s t : State} (h : AccountWritten a x s t)
    (hp : x.power = (s.account a).power) (hw : x.water = (s.account a).water) : Billed a s t := by
  obtain ⟨e, rfl⟩ := h
  refine ⟨rfl, fun i hi => Table.get_put_ne _ _ fun e => hi e.symm, ?_, ?_⟩
  all_goals rw [State.account, Table.get_put_self]
  · exact hp
  · exact hw

/-- An evaluation whose account stands as at a higher balance writes the account alone. -/
theorem evaluateStanding_billed (b : State) {a : AccountId} {s : State} {high : Int} (hh : (s.account a).balance ≤ high)
    (hs : (s.account a).standing = standingOf (s.account a).barredFlag high (s.classOf (s.account a)).floor) :
    Billed a s (evaluateStanding b a s) := by
  unfold evaluateStanding
  dsimp only
  split
  · exact .refl a s
  · rw [hs, standingRequests_lowered b a _ _ _ hh]
    refine Billed.trans ?_ ((raise_noticed_self ..).billed a)
    exact (putAccount_written b a _ s).billed rfl rfl

theorem debitedAccount_of_le {x : Account} {cents : Nat} (h : -99999999 ≤ x.balance - cents) :
    debitedAccount x cents = { x with balance := x.balance - cents } := by
  simp only [debitedAccount, decide_eq_false (Int.not_lt.2 h), Bool.or_false, Bool.false_eq_true, if_false]

/-! ### One charge of a stay -/

/-- `t` is `s` with `cents` debited from account `a` and its residues set; of the dates of the stay it says nothing. -/
structure StayBilled (a : AccountId) (cents : Nat) (residues : Table Nat 6) (s t : State) : Prop
    extends Billed a s t where
  account : t.account a =
    { s.account a with
      balance := (s.account a).balance - cents, residues := residues
      standing := (t.account a).standing, arrearsNights := (t.account a).arrearsNights
      lastCharged := (t.account a).lastCharged, nights := (t.account a).nights, edition := (t.account a).edition }
  standing : (t.account a).standing =
    standingOf (s.account a).barredFlag ((s.account a).balance - cents) (s.classOf (s.account a)).floor

section
variable {a : AccountId} {s : State}

/-- A charge that does not clamp, of an account whose standing is settled. -/
theorem applyCharge_stayBilled (v : Service) {cents : Nat} (residue : Nat) (hf : (s.account a).state ≠ .free)
    (hs : (s.account a).standing
      = standingOf (s.account a).barredFlag (s.account a).balance (s.classOf (s.account a)).floor)
    (hb : -99999999 ≤ (s.account a).balance - cents) :
    StayBilled a cents ((s.account a).residues.put (serviceIx v) residue) s (applyCharge s a v cents residue s) := by
  have hr := modAccount_written s a (fun x => withResidue x v residue) s
  obtain ⟨e, u, hu, he⟩ := debitAccount_evaluates s cents hr
  rw [debitedAccount_of_le (x := withResidue (s.account a) v residue) hb] at hu
  have hx : u.account a = { withResidue (s.account a) v residue with
      balance := (s.account a).balance - cents, edition := e } := by
    rw [hu.eq]; exact Table.get_put_self ..
  have hk : u.classes = s.classes := by rw [hu.eq]
  have hw : Billed a s u :=
    (AccountWritten.billed (x := { withResidue (s.account a) v residue with balance := (s.account a).balance - cents })
      ⟨e, rfl⟩ rfl rfl).trans (hu.billed a)
  have ht : applyCharge s a v cents residue s = evaluateStanding s a u := he
  have hd : Billed a s (applyCharge s a v cents residue s) := by
    rw [ht]
    refine hw.trans (evaluateStanding_billed s (high := (s.account a).balance) ?_ ?_)
    · rw [hx]; exact Int.sub_le_self _ (Int.natCast_nonneg _)
    · rw [hx, State.classOf, hk]; exact hs
  obtain ⟨hy, hst, -⟩ := evaluateStanding_account s a u
  rw [← ht, hx] at hy
  rw [← ht, hx, State.classOf, hk] at hst
  refine ⟨hd, ?_, hst hf⟩
  rw [hd.power, hd.water] at hy
  rw [hy]
  rfl

/-- A bill says nothing of the dates of the stay. -/
theorem StayBilled.dated {t : State} {cents : Nat} {residues : Table Nat 6} (b : State) {f : Account → Account}
    (hf : ∀ x, f x = { x with lastCharged := (f x).lastCharged, nights := (f x).nights })
    (h : StayBilled a cents residues s t) : StayBilled a cents residues s (modAccount b a f t) := by
  have hx : (modAccount b a f t).account a = { t.account a with
      lastCharged := (f (t.account a)).lastCharged, nights := (f (t.account a)).nights
      edition := ((modAccount b a f t).account a).edition } := by
    rw [modAccount_account, if_pos rfl]
    exact congrArg (fun y : Account => { y with edition := ((b.account a).settled (f (t.account a))).edition }) (hf _)
  refine ⟨h.toBilled.trans ((modAccount_written b a f t).billed ?_ ?_), ?_, ?_⟩
  · rw [hf]
  · rw [hf]
  · rw [hx, h.account]
  · rw [hx]; exact h.standing

theorem nightsOwed_of_some {x : Account} {last : Int} (h : x.lastCharged = some last) (day : Int) :
    nightsOwed x day = (day - last).toNat := by rw [nightsOwed, h]

theorem chargeNights_of_zero (b : State) {day : Int} (d : Band) (h : nightsOwed (s.account a) day = 0) :
    chargeNights b a day d s = s := if_pos h

theorem nightCharge_eq (s : State) (a : AccountId) (n : Nat) (d : Band) :
    nightCharge s a n d = splitTotal ((s.account a).residues.get (serviceIx .berthNight)
      + (s.account a).loa * n * rateOf s (s.account a).cls .berthNight d) :=
  nightParts_eq_chargeOf ..

/-- A charged night is one night of the stay at least. -/
theorem chargeNights_nights {day : Int} (d : Band) (h : nightsOwed (s.account a) day ≠ 0) :
    ((chargeNights s a day d s).account a).nights ≠ 0 := by
  unfold chargeNights
  dsimp only
  rw [if_neg h, modAccount_account, if_pos rfl]
  refine Nat.ne_of_gt (lt_min (Nat.add_pos_right _ (Nat.pos_of_ne_zero h)) ?_)
  decide

/-! ### The settlement, case by case (R57) -/

theorem settleStay_night (h : nightsOwed (s.account a) (rolloverDate s) ≠ 0) :
    settleStay s a s = (chargeNights s a (rolloverDate s) (bandNow s) s,
      (nightCharge s a (nightsOwed (s.account a) (rolloverDate s)) (bandNow s)).1) := by
  unfold settleStay shortStayOwed nightCents
  dsimp only
  rw [if_neg (by simpa using chargeNights_nights (bandNow s) h), if_neg h]

theorem settleStay_short (h : nightsOwed (s.account a) (rolloverDate s) = 0) (hn : (s.account a).nights = 0) :
    settleStay s a s = (charge s a .shortStay (s.account a).loa (bandNow s) s,
      (accountCharge s a .shortStay (s.account a).loa (bandNow s)).1) := by
  unfold settleStay shortStayOwed nightCents
  dsimp only
  rw [chargeNights_of_zero s _ h, if_pos (by simpa using hn), if_pos h, Nat.zero_add]

theorem settleStay_none (h : nightsOwed (s.account a) (rolloverDate s) = 0) (hn : (s.account a).nights ≠ 0) :
    settleStay s a s = (s, 0) := by
  unfold settleStay shortStayOwed nightCents
  dsimp only
  rw [chargeNights_of_zero s _ h, if_neg (by simpa using hn), if_pos h]

/-- The settlement hands in the nights owed or a short stay, never both. -/
theorem settleStay_stayBilled {nights nightTotal stayTotal cents : Nat} {short : Bool}
    (hf : (s.account a).state ≠ .free)
    (hs : (s.account a).standing
      = standingOf (s.account a).barredFlag (s.account a).balance (s.classOf (s.account a)).floor)
    (hn : nights = nightsOwed (s.account a) (rolloverDate s))
    (hnight : nightTotal = (s.account a).residues.get (serviceIx .berthNight)
      + (s.account a).loa * nights * rateOf s (s.account a).cls .berthNight (bandNow s))
    (hstay : stayTotal = (s.account a).residues.get (serviceIx .shortStay)
      + (s.account a).loa * rateOf s (s.account a).cls .shortStay (bandNow s))
    (hshort : short = (decide (nights = 0) && decide ((s.account a).nights = 0)))
    (hc : cents = (if nights = 0 then 0 else nightTotal / 10000) + (if short then stayTotal / 10000 else 0))
    (hb : (s.account a).balance - cents ≥ -99999999) :
    (settleStay s a s).2 = cents
    ∧ StayBilled a cents
        (if short then (s.account a).residues.put (serviceIx .shortStay) (stayTotal % 10000)
         else if nights = 0 then (s.account a).residues
         else (s.account a).residues.put (serviceIx .berthNight) (nightTotal % 10000))
        s (settleStay s a s).1 := by
  by_cases h0 : nights = 0
  · have howed : nightsOwed (s.account a) (rolloverDate s) = 0 := hn.symm.trans h0
    by_cases hx : (s.account a).nights = 0
    · obtain rfl : short = true := by rw [hshort, h0, hx]; rfl
      rw [if_pos h0, if_pos rfl, Nat.zero_add] at hc
      have hpart : accountCharge s a .shortStay (s.account a).loa (bandNow s) = (cents, stayTotal % 10000) := by
        rw [accountCharge_eq, ← hstay, splitTotal_eq, hc]
      rw [settleStay_short howed hx, charge, hpart, if_pos rfl]
      exact ⟨rfl, applyCharge_stayBilled .shortStay _ hf hs hb⟩
    · obtain rfl : short = false := by rw [hshort, decide_eq_false hx, Bool.and_false]
      obtain rfl : cents = 0 := by rw [hc, if_pos h0]; rfl
      rw [settleStay_none howed hx, if_neg Bool.false_ne_true, if_pos h0]
      refine ⟨rfl, .refl a s, ?_, ?_⟩
      · rw [Int.natCast_zero, Int.sub_zero]
      · rw [Int.natCast_zero, Int.sub_zero]; exact hs
  · have howed : nightsOwed (s.account a) (rolloverDate s) ≠ 0 := hn ▸ h0
    obtain rfl : short = false := by rw [hshort, decide_eq_false h0, Bool.false_and]
    rw [if_neg h0, if_neg Bool.false_ne_true, Nat.add_zero] at hc
    have hpart : nightCharge s a (nightsOwed (s.account a) (rolloverDate s)) (bandNow s)
        = (cents, nightTotal % 10000) := by
      rw [nightCharge_eq, ← hn, ← hnight, splitTotal_eq, hc]
    rw [settleStay_night howed, hpart, if_neg Bool.false_ne_true, if_neg h0]
    refine ⟨rfl, ?_⟩
    unfold chargeNights
    dsimp only
    rw [if_neg howed, hpart]
    exact (applyCharge_stayBilled .berthNight _ hf hs hb).dated s fun _ => rfl

end

end Sys2Proof.Machine

/-! ## The sessions of a departing account (R58) -/

namespace Sys2Proof.Machine

theorem raise_powerView (c : NoticeClass) (i : NoticeInfo) (s : State) : PowerView s (raise c i s) := by
  rw [(raise_noticed_self c i s).eq]
  exact ⟨rfl, rfl, rfl, fun _ => rfl, fun _ => rfl, fun _ => rfl, fun _ => rfl⟩

theorem dropWater_powerView (b : State) (a : AccountId) (s : State) :
    PowerView s (modAccount b a (fun x => { x with water := none }) s) := by
  refine ⟨rfl, rfl, rfl, fun _ => rfl, fun _ => rfl, fun i => ?_, fun i => ?_⟩
  all_goals
    rw [modAccount_account]
    split
    · next e => subst e; rfl
    · rfl

theorem endWater_powerView (b : State) (k : TapId) (why : WaterEnd) (s : State) : PowerView s (endWater b k why s) := by
  unfold endWater
  split
  · exact .refl s
  · exact ((putWater_powerView ..).trans (dropWater_powerView ..)).trans (raise_powerView ..)

theorem closeWater_powerView (b : State) (k : TapId) (why : WaterEnd) (byCommand : Bool) (s : State) :
    PowerView s (closeWater b k why byCommand s) := by
  unfold closeWater
  split
  · exact .refl s
  · split
    · exact putWater_powerView ..
    · exact putWater_powerView ..
    · exact endWater_powerView ..
    · split
      · exact endWater_powerView ..
      · exact .refl s

theorem closePower_waterView (b : State) (k : SocketId) (why : PowerEnd) (byCommand : Bool) (s : State) :
    WaterView s (closePower b k why byCommand s) := by
  unfold closePower
  split
  · exact .refl s
  · split
    · exact (putPower_feederWork ..).waterView
    · exact (putPower_feederWork ..).waterView
    · exact (putPower_feederWork ..).waterView
    · exact endPower_waterView ..
    · exact endPower_waterView ..
    · exact endPower_waterView ..
    · split
      · exact endPower_waterView ..
      · exact .refl s

theorem endWater_leaves (b : State) {k : TapId} {s : State} {y : WaterSession} (why : WaterEnd)
    (hy : s.water.get k = some y) :
    (endWater b k why s).water.get k = none ∧ ((endWater b k why s).account y.account).water = none := by
  unfold endWater
  rw [hy]
  constructor
  · rw [raise_water]; exact Table.get_put_self ..
  · rw [raise_account, modAccount_account, if_pos rfl]; rfl

/-- What DEPART makes of the power session `y`: its slot and its account's link afterwards (R107, R58). -/
def PowerDeparted (y : PowerSession) (slot : Option PowerSession) (link : Option SocketId) : Prop :=
  ((y.state = .switching ∨ y.state = .live ∨ y.state = .restoring) →
    slot = some { y with state := .closing, closeReason := some .departed, confirmMisses := 0 })
  ∧ ((y.state = .waiting ∨ y.state = .suspended ∨ y.state = .tripped) → slot = none ∧ link = none)
  ∧ (y.state = .closing → slot = some y)

/-- What DEPART makes of the water session `y`: its slot and its account's link afterwards (R118, R58). -/
def WaterDeparted (y : WaterSession) (slot : Option WaterSession) (link : Option TapId) : Prop :=
  ((y.state = .opening ∨ y.state = .flowing) →
    slot = some { y with state := .closing, closeReason := some .departed, confirmMisses := 0 })
  ∧ (y.state = .suspended → slot = none ∧ link = none)
  ∧ (y.state = .closing → slot = some y)

theorem closePower_departed (b : State) {k : SocketId} {s : State} {y : PowerSession} (hy : s.power.get k = some y) :
    PowerDeparted y ((closePower b k .departed false s).power.get k)
      ((closePower b k .departed false s).account y.account).power := by
  have hput : ∀ z, (putPower b k (some z) s).power.get k = some z := fun z => Table.get_put_self ..
  obtain ⟨hslot, hlink, -⟩ := endPower_leaves b .departed hy
  refine ⟨fun h => ?_, fun h => ?_, fun h => ?_⟩
  · rcases h with h | h | h <;> simp only [closePower, hy, h] <;> exact hput _
  · rcases h with h | h | h <;> simp only [closePower, hy, h] <;> exact ⟨hslot, hlink⟩
  · simp only [closePower, hy, h]; exact hy

theorem closeWater_departed (b : State) {k : TapId} {s : State} {y : WaterSession} (hy : s.water.get k = some y) :
    WaterDeparted y ((closeWater b k .departed false s).water.get k)
      ((closeWater b k .departed false s).account y.account).water := by
  have hput : ∀ z, (putWater b k (some z) s).water.get k = some z := fun z => Table.get_put_self ..
  obtain ⟨hslot, hlink⟩ := endWater_leaves b .departed hy
  refine ⟨fun h => ?_, fun h => ?_, fun h => ?_⟩
  · rcases h with h | h <;> simp only [closeWater, hy, h] <;> exact hput _
  · simp only [closeWater, hy, h]; exact ⟨hslot, hlink⟩
  · simp only [closeWater, hy, h]; exact hy

theorem toWater_close_powerView (b : State) (a : AccountId) (s : State) :
    PowerView s (toWater a (fun k => closeWater b k .departed false) s) := by
  unfold toWater
  split
  · exact .refl s
  · exact closeWater_powerView ..

/-- The close request to the water session, which comes second, is none to the power session. -/
theorem closeSessions_power (b : State) {a : AccountId} {k : SocketId} {s : State} {y : PowerSession}
    (hk : (s.account a).power = some k) (hy : s.power.get k = some y) (ha : y.account = a) :
    PowerDeparted y ((closeSessions b a s).power.get k) ((closeSessions b a s).account a).power := by
  have v : PowerView (closePower b k .departed false s) (closeSessions b a s) := by
    unfold closeSessions
    rw [toPower_of_some hk]
    exact toWater_close_powerView ..
  subst ha
  rw [v.power, v.link]
  exact closePower_departed b hy

/-- The close request to the power session, which comes first, leaves the water session. -/
theorem closeSessions_water (b : State) {a : AccountId} {k : TapId} {s : State} {y : WaterSession}
    (hk : (s.account a).water = some k) (hy : s.water.get k = some y) (ha : y.account = a) :
    WaterDeparted y ((closeSessions b a s).water.get k) ((closeSessions b a s).account a).water := by
  have v := toPower_waterView (a := a) (f := fun k => closePower b k .departed false)
    (fun k s => closePower_waterView b k .departed false s) s
  unfold closeSessions
  rw [toWater_of_some ((v.link a).trans hk)]
  subst ha
  exact closeWater_departed b ((congrArg (·.get k) v.water).trans hy)

end Sys2Proof.Machine

/-! ## DEPART (O35) -/

namespace Sys2Proof.Machine

/-! ### The end of the stay (R59) -/

/-- The account as DEPART leaves it. -/
def leftAccount (revokes : Bool) (x : Account) : Account :=
  { x with
    state := .opened, berth := none, arrival := none, lastCharged := none, nights := 0
    credentials := if revokes then [] else x.credentials }

/-- Where the class says so, the credentials in account `a`'s list are REVOKED and the list emptied (R59 step 1). -/
structure CredentialsLeft (a : AccountId) (revokes : Bool) (s t : State) : Prop where
  eq : t = { s with accounts := t.accounts, creds := t.creds }
  account : t.account a = { s.account a with
    credentials := if revokes then [] else (s.account a).credentials, edition := (t.account a).edition }
  others : ∀ i, i ≠ a → t.account i = s.account i
  kept : ∀ i, revokes = false ∨ i ∉ (s.account a).credentials → t.cred i = s.cred i
  revoked : ∀ i, revokes = true → i ∈ (s.account a).credentials → (s.cred i).RevokedFrom (t.cred i)

theorem credentialsLeft_keep (a : AccountId) (s : State) : CredentialsLeft a false s s :=
  ⟨rfl, rfl, fun _ _ => rfl, fun _ _ => rfl, nofun⟩

theorem revokeAll_credentialsLeft (b : State) (a : AccountId) (s : State) : CredentialsLeft a true s (revokeAll b a s) where
  eq := by
    unfold revokeAll modAccount putAccount
    rw [eachOf_revokeOne_creds]
  account := by
    rw [revokeAll_account, if_pos rfl]
    rfl
  others i hi := by rw [revokeAll_account, if_neg fun e => hi e.symm]
  kept i h := eachOf_revokeOne_cred_of_notMem b i _ s (h.resolve_left nofun)
  revoked i _ h := eachOf_revokeOne_cred_of_mem b i _ s h

/-- What the end of a stay leaves of `s`, in a change begun in `b`. -/
structure Departed (b : State) (a : AccountId) (n : BerthId) (revokes : Bool) (s t : State) : Prop where
  eq : t = { s with
    accounts := t.accounts, berths := t.berths, creds := t.creds, ports := t.ports, heldNotices := t.heldNotices }
  account : t.account a = { leftAccount revokes (s.account a) with edition := (t.account a).edition }
  others : ∀ i, i ≠ a → t.account i = s.account i
  berths : t.berths = s.berths.put n
    { s.berth n with state := .free, holder := none, edition := (b.berth n).edition + 1 }
  kept : ∀ i, revokes = false ∨ i ∉ (s.account a).credentials → t.cred i = s.cred i
  revoked : ∀ i, revokes = true → i ∈ (s.account a).credentials → (s.cred i).RevokedFrom (t.cred i)

theorem Noticed.records {s t : State} (h : Noticed s t) :
    t.accounts = s.accounts ∧ t.berths = s.berths ∧ t.creds = s.creds := by
  rw [h.eq]
  exact ⟨rfl, rfl, rfl⟩

/-- The account leaves the berth, once its credentials are settled, and DEPARTED is raised (R59 steps 2 to 4). -/
theorem CredentialsLeft.departed {b : State} {a : AccountId} {n : BerthId} {revokes : Bool} {s u t : State}
    (h : CredentialsLeft a revokes s u) (hn : (b.berth n).state ≠ .free)
    (ht : Noticed (modAccount b a (fun x =>
      { x with state := .opened, berth := none, arrival := none, lastCharged := none, nights := 0 }) (freeBerth b n u)) t) :
    Departed b a n revokes s t := by
  rw [freeBerth, putBerth_of_state fun e => hn e.symm] at ht
  obtain ⟨hacc, hberths, hcreds⟩ := ht.records
  have hc : ∀ i, t.cred i = u.cred i := fun i => congrArg (·.get i) hcreds
  have hb : u.berths = s.berths := by rw [h.eq]
  refine ⟨?_, ?_, fun i hi => ?_, ?_, fun i hi => (hc i).trans (h.kept i hi), fun i hr hi => hc i ▸ h.revoked i hr hi⟩
  · rw [ht.eq, h.eq]; rfl
  · have hx : t.account a = (b.account a).settled { u.account a with
        state := .opened, berth := none, arrival := none, lastCharged := none, nights := 0 } := by
      rw [State.account, hacc]; exact Table.get_put_self ..
    rw [hx, h.account]
    rfl
  · have hx : t.account i = u.account i := by
      rw [State.account, hacc]; exact Table.get_put_ne _ _ fun e => hi e.symm
    exact hx.trans (h.others i hi)
  · have hy : u.berth n = s.berth n := congrArg (·.get n) hb
    rw [hberths, ← hy, ← hb]
    rfl

theorem completeDeparture_departed {b : State} {a : AccountId} {n : BerthId} {s : State} (cents : Nat)
    (hn : (b.berth n).state ≠ .free) :
    Departed b a n (s.classOf (s.account a)).revokeAtDeparture s (completeDeparture b a n cents s) := by
  unfold completeDeparture
  cases (s.classOf (s.account a)).revokeAtDeparture
  · exact (credentialsLeft_keep a s).departed hn (raise_noticed_self ..)
  · exact (revokeAll_credentialsLeft b a s).departed hn (raise_noticed_self ..)

/-! ### The checks of DEPART (R56) -/

theorem departThis_notBerthed {a : AccountId} {s : State} (h : (s.account a).state ≠ .berthed) :
    departThis a s = .error .state := by
  unfold departThis
  split
  · next hs _ => exact absurd hs h
  · rfl

theorem departThis_saleOpen {a : AccountId} {n : BerthId} {s : State} (hs : (s.account a).state = .berthed)
    (hb : (s.account a).berth = some n) (ho : (s.account a).sale ≠ none) : departThis a s = .error .saleOpen := by
  simp only [departThis, hs, hb, if_pos ho]

theorem departThis_taken {a : AccountId} {n : BerthId} {s : State} (hs : (s.account a).state = .berthed)
    (hb : (s.account a).berth = some n) (ho : (s.account a).sale = none) :
    departThis a s = done
      (completeDeparture s a n (settleStay s a s).2 (closeSessions s a (settleStay s a s).1))
      [ numItem (nightsOwed (s.account a) (rolloverDate s)), numItem (settleStay s a s).2
      , numItem (revokedAtDeparture s a) ] := by
  simp only [departThis, hs, hb, if_neg (not_not_intro ho)]

theorem revokedAtDeparture_item (s : State) (a : AccountId) : numItem (revokedAtDeparture s a) =
    .val (.num (if (s.classOf (s.account a)).revokeAtDeparture then ((s.account a).credentials.length : Int) else 0)) := by
  unfold revokedAtDeparture
  split <;> rfl

/-! ### Settlement, sessions and end of the stay together -/

section
variable {a : AccountId} {n : BerthId} {cents : Nat} {residues : Table Nat 6} {revokes : Bool} {s u t : State}

theorem StayBilled.depart_frame (hb : StayBilled a cents residues s u) (hd : Departed s a n revokes (closeSessions s a u) t) :
    WorkEq s t := by
  have h1 : WorkEq s u := by rw [WorkEq, hb.eq]
  have h2 : WorkEq u (closeSessions s a u) := by rw [WorkEq, (closeSessions_served s a (.refl u)).eq]
  have h3 : WorkEq (closeSessions s a u) t := by rw [WorkEq, hd.eq]
  exact (h1.trans h2).trans h3

theorem StayBilled.depart_account (hb : StayBilled a cents residues s u)
    (hd : Departed s a n revokes (closeSessions s a u) t) :
    t.account a =
      { leftAccount revokes (s.account a) with
        balance := (s.account a).balance - cents, residues := residues
        standing := (t.account a).standing, arrearsNights := (t.account a).arrearsNights
        power := (t.account a).power, water := (t.account a).water, edition := (t.account a).edition }
    ∧ (t.account a).standing =
        standingOf (s.account a).barredFlag ((s.account a).balance - cents) (s.classOf (s.account a)).floor := by
  have hl := (closeSessions_served s a (.refl u)).links a
  constructor
  · rw [hd.account, hl, hb.account]
    rfl
  · rw [hd.account, hl]
    exact hb.standing

theorem StayBilled.depart_others (hb : StayBilled a cents residues s u)
    (hd : Departed s a n revokes (closeSessions s a u) t) (i : AccountId) (hi : i ≠ a) :
    t.account i = { s.account i with
      power := (t.account i).power, water := (t.account i).water, edition := (t.account i).edition } := by
  rw [hd.others i hi, (closeSessions_served s a (.refl u)).links i, hb.others i hi]

/-- The berths and credentials that the end of the stay finds are those of the start. -/
theorem StayBilled.closed_records (hb : StayBilled a cents residues s u) :
    (closeSessions s a u).berths = s.berths ∧ (closeSessions s a u).creds = s.creds
    ∧ ((closeSessions s a u).account a).credentials = (s.account a).credentials
    ∧ (closeSessions s a u).classOf ((closeSessions s a u).account a) = s.classOf (s.account a) := by
  have hs := closeSessions_served s a (.refl u)
  have hcls : (closeSessions s a u).classes = s.classes := by rw [hs.eq, hb.eq]
  refine ⟨by rw [hs.eq, hb.eq], by rw [hs.eq, hb.eq], by rw [hs.links a, hb.account], ?_⟩
  rw [State.classOf, hcls, hs.links a, hb.account]
  rfl

theorem StayBilled.depart_power (hb : StayBilled a cents residues s u)
    (hd : Departed s a n revokes (closeSessions s a u) t) {k : SocketId} {y : PowerSession}
    (hk : (s.account a).power = some k) (hy : s.power.get k = some y) (ha : y.account = a) :
    PowerDeparted y (t.power.get k) (t.account a).power := by
  have hu : u.power = s.power := by rw [hb.eq]
  have ht : t.power = (closeSessions s a u).power := by rw [hd.eq]
  rw [ht, hd.account]
  exact closeSessions_power s (hb.power.trans hk) (hu ▸ hy) ha

theorem StayBilled.depart_water (hb : StayBilled a cents residues s u)
    (hd : Departed s a n revokes (closeSessions s a u) t) {k : TapId} {y : WaterSession}
    (hk : (s.account a).water = some k) (hy : s.water.get k = some y) (ha : y.account = a) :
    WaterDeparted y (t.water.get k) (t.account a).water := by
  have hu : u.water = s.water := by rw [hb.eq]
  have ht : t.water = (closeSessions s a u).water := by rw [hd.eq]
  rw [ht, hd.account]
  exact closeSessions_water s (hb.water.trans hk) (hu ▸ hy) ha

end

/-- Settles O35: the settlement writes the account alone, the close requests the sessions alone, and the end of the stay the records of the stay. -/
theorem departSettlesTheStayAndFreesTheBerth : Obligations.DepartSettlesTheStayAndFreesTheBerth := by
  intro o a n s hr c x
  refine ⟨fun h => (depart_form ..).refused hr ((onAccount_val ..).trans (departThis_notBerthed h)),
    fun hs hb ho => (depart_form ..).refused hr ((onAccount_val ..).trans (departThis_saleOpen hs hb ho)), ?_⟩
  intro last hs hb ho hlast hstanding hn nights nightTotal stayTotal short cents revokes hclamp
  have howed : nights = nightsOwed (s.account a) (rolloverDate s) := (nightsOwed_of_some hlast _).symm
  obtain ⟨hcents, hbill⟩ := settleStay_stayBilled (a := a) (s := s) (nights := nights) (nightTotal := nightTotal)
    (stayTotal := stayTotal) (cents := cents) (short := short) (fun e => nomatch hs.symm.trans e) hstanding howed rfl rfl
    rfl rfl hclamp
  obtain ⟨hberths, hcreds, hlist, hclass⟩ := hbill.closed_records
  have hd := completeDeparture_departed (b := s) (a := a) (n := n) (s := closeSessions s a (settleStay s a s).1)
    (settleStay s a s).2 (fun e => nomatch hn.symm.trans e)
  rw [hclass] at hd
  have hcred : ∀ i, (closeSessions s a (settleStay s a s).1).cred i = s.cred i := fun i => congrArg (·.get i) hcreds
  have hreply := departThis_taken hs hb ho
  rw [hcents, ← howed, revokedAtDeparture_item] at hreply
  rw [hcents] at hd
  generalize completeDeparture s a n cents (closeSessions s a (settleStay s a s).1) = t at hd hreply
  obtain ⟨hacc, hst⟩ := hbill.depart_account hd
  refine ⟨t, (depart_form ..).taken hr ((onAccount_val ..).trans hreply), hbill.depart_frame hd, hacc, hst,
    hbill.depart_others hd, ?_, fun i hi => ?_, fun i hrev hi => ?_,
    fun k y hk hy ha => hbill.depart_power hd hk hy ha, fun k y hk hy ha => hbill.depart_water hd hk hy ha⟩
  · rw [hd.berths, hberths, State.berth, hberths]
    rfl
  · exact (hd.kept i (hlist.symm ▸ hi)).trans (hcred i)
  · have hrevoked := hd.revoked i hrev (hlist.symm ▸ hi)
    rw [hcred] at hrevoked
    exact ⟨congrArg Credential.state hrevoked, congrArg Credential.inside hrevoked, (congrArg Credential.key hrevoked :)⟩

end Sys2Proof.Machine

/-! ## The Site Clock (O37, O38) -/

namespace Sys2Proof.Machine

/-! ### One second (R61) -/

theorem Stamp.tick_second {t : Stamp} (h : t.time < 86399) : t.tick = { t with time := t.time + 1 } :=
  if_pos (show t.time + 1 < 86400 by omega)

theorem Stamp.tick_midnight {t : Stamp} (h : 86399 ≤ t.time) (hd : t.date < 36524) :
    t.tick = { date := t.date + 1, time := 0 } :=
  (if_neg (show ¬ t.time + 1 < 86400 by omega)).trans (if_pos hd)

theorem Stamp.tick_stopped {t : Stamp} (h : 86399 ≤ t.time) (hd : 36524 ≤ t.date) : t.tick = t :=
  (if_neg (show ¬ t.time + 1 < 86400 by omega)).trans (if_neg (Int.not_lt.2 hd))

theorem exec_clockAdvance {s : State} (h : s.stopped = false) :
    exec .clockAdvance s = .next (testRollover { s with clock := s.clock.tick }) :=
  congrArg Host.Outcome.next (event_running h)

/-- Settles O37: the clock ticks as its case says, and the test follows. -/
theorem clockAdvanceTestsTheRollover : Obligations.ClockAdvanceTestsTheRollover := by
  intro s now hrun hnow
  have htick : s.clock.tick = now := by
    rcases hnow with ⟨ht, rfl⟩ | ⟨ht, hd, rfl⟩ | ⟨ht, hd, rfl⟩
    · exact Stamp.tick_second ht
    · exact Stamp.tick_midnight ht hd
    · exact Stamp.tick_stopped ht hd
  exact ⟨_, exec_clockAdvance hrun, htick ▸ testRollover_tested _⟩

/-! ### SETCLOCK (R63, R64) -/

theorem setClockOwner_noDate {date : DateField} {time : TimeField} (s : State)
    (h : dateOf date = none ∨ secondOf time = none) : setClockOwner date time s = .error .range := by
  unfold setClockOwner
  split
  · next hd ht => exact h.elim (fun h => nomatch hd.symm.trans h) fun h => nomatch ht.symm.trans h
  · rfl

theorem notBeforeLast_iff {s : State} {hour : Nat} {t : Stamp} :
    notBeforeLast s hour t = true ↔ ∀ last, s.lastRollover = some last → last ≤ rolloverDateAt hour t := by
  unfold notBeforeLast
  cases s.lastRollover <;> simp

/-- The part with the clock as SETCLOCK sets it, before the test of the rollover (R64). -/
def clockSetTo (s : State) (t : Stamp) : State :=
  { s with
    clock := t, clockSet := true
    lastRollover := some (s.lastRollover.getD (rolloverDateAt s.site.val.rolloverHour t)) }

theorem setClockOwner_of_fields {date : DateField} {time : TimeField} {d : Int} {n : Nat} (s : State)
    (hd : dateOf date = some d) (hn : secondOf time = some n) :
    setClockOwner date time s =
      if s.rollover.isSome then .error .busy
      else if !notBeforeLast s s.site.val.rolloverHour { date := d, time := n } then .error .range
      else done (testRollover (clockSetTo s { date := d, time := n }))
        [dateItem (rolloverDateAt s.site.val.rolloverHour { date := d, time := n })] := by
  unfold setClockOwner
  rw [hd, hn]
  rfl

/-- Settles O38: the checks in their order, then the clock is set and the start tested. -/
theorem setClockSetsTheClock : Obligations.SetClockSetsTheClock := by
  intro o date time s hr
  refine ⟨fun h => (setClock_form ..).refused hr (setClockOwner_noDate s h), ?_⟩
  intro d n hd hn day
  have hown := setClockOwner_of_fields s hd hn
  refine ⟨fun h => (setClock_form ..).refused hr ?_, fun last h hl hlt => (setClock_form ..).refused hr ?_,
    fun h hle => ⟨testRollover (clockSetTo s { date := d, time := n }), (setClock_form ..).taken hr ?_,
      testRollover_tested _⟩⟩
  · rw [hown, if_pos (Option.isSome_iff_ne_none.2 h)]
  · have hearly : ¬ notBeforeLast s s.site.val.rolloverHour { date := d, time := n } = true := fun w =>
      Int.not_lt.2 (notBeforeLast_iff.1 w last hl) hlt
    rw [hown, h, if_neg (by simp), if_pos (by simpa using hearly)]
  · have hlate : notBeforeLast s s.site.val.rolloverHour { date := d, time := n } = true := notBeforeLast_iff.2 hle
    rw [hown, h, if_neg (by simp), hlate]
    rfl

end Sys2Proof.Machine

/-! ## The nightly rollover (O39) -/

namespace Sys2Proof.Machine

/-! ### Writes of one account among the work of the Service Manager -/

/-- `s` with account `a` written as `y`. -/
def withAccount (s : State) (a : AccountId) (y : Account) : State := { s with accounts := s.accounts.put a y }

theorem withAccount_self (s : State) (a : AccountId) : withAccount s a (s.account a) = s := by
  simp only [withAccount, State.account, Table.put_get_self]

theorem withAccount_account (s : State) (a : AccountId) (y : Account) : (withAccount s a y).account a = y :=
  Table.get_put_self ..

theorem withAccount_withAccount (s : State) (a : AccountId) (x y : Account) :
    withAccount (withAccount s a x) a y = withAccount s a y := by
  simp only [withAccount, Table.put_put]

theorem OnlySessions.refl (s : State) : OnlySessions s s :=
  ⟨rfl, fun _ => rfl, fun _ => rfl, fun _ => rfl, fun _ => rfl⟩

theorem OnlySessions.served {s t u : State} (h : OnlySessions s t) (k : Served t u) : OnlySessions s u := by
  obtain ⟨heq, haccounts, hpedestals, hfeeders, hports⟩ := h
  exact ⟨by rw [k.eq, heq], fun i => by rw [k.links i, haccounts i], fun n => by rw [k.outputs n, hpedestals n],
    fun f => (k.feederCfg f).trans (hfeeders f), fun i => by rw [k.rest i, hports i]⟩

/-- The rollover in flight is no concern of the Service Manager. -/
theorem OnlySessions.withRollover {s t : State} (r : Option Rollover) (h : OnlySessions s t) :
    OnlySessions { s with rollover := r } { t with rollover := r } := by
  obtain ⟨heq, haccounts, hpedestals, hfeeders, hports⟩ := h
  exact ⟨by rw [heq], haccounts, hpedestals, hfeeders, hports⟩

section
variable {a : AccountId} {y : Account} {s u : State}

theorem OnlySessions.account (h : OnlySessions (withAccount s a y) u) : u.account a =
    { y with power := (u.account a).power, water := (u.account a).water, edition := (u.account a).edition } := by
  have ha := h.2.1 a
  rw [withAccount_account] at ha
  exact ha

theorem OnlySessions.standing (h : OnlySessions (withAccount s a y) u) : (u.account a).standing = y.standing := by
  rw [h.account]

/-- A change of account `a` that heeds neither its links nor its edition can as well come before the work on sessions. -/
theorem OnlySessions.modAccount (b : State) {f : Account → Account}
    (hf : ∀ x p w e, f { x with power := p, water := w, edition := e }
      = { f x with power := p, water := w, edition := e })
    (h : OnlySessions (withAccount s a y) u) : OnlySessions (withAccount s a (f y)) (modAccount b a f u) := by
  have hy := h.account
  obtain ⟨heq, haccounts, hpedestals, hfeeders, hports⟩ := h
  refine ⟨by rw [heq]; rfl, fun i => ?_, hpedestals, hfeeders, hports⟩
  rw [modAccount_account]
  by_cases e : a = i
  · subst e
    rw [if_pos rfl, withAccount_account, hy, hf]
    rfl
  · have hi : (withAccount s a (f y)).account i = (withAccount s a y).account i :=
      (Table.get_put_ne _ _ e).trans (Table.get_put_ne _ _ e).symm
    rw [if_neg e, hi]
    exact haccounts i

end

/-! ### The parts of a step (R67) -/

/-- The account with one more arrears night. -/
def nightCounted (y : Account) : Account := { y with arrearsNights := min (y.arrearsNights + 1) 255 }

/-- The account with the night counted where it stands in ARREARS (R70). -/
def arrearsCounted (y : Account) : Account :=
  { y with arrearsNights := if y.standing = .arrears then min (y.arrearsNights + 1) 255 else y.arrearsNights }

/-- The stamp of a step (R67). -/
def stampedWith (day : Int) (y : Account) : Account := { y with lastStepped := some day }

section
variable {a : AccountId} {y : Account} {day : Int} {s u : State}

theorem arrearsPart_of_ne (b : State) (h : (u.account a).standing ≠ .arrears) : arrearsPart b a u = u := if_neg h

theorem arrearsPart_of_arrears (b : State) (h : (u.account a).standing = .arrears) : arrearsPart b a u =
    let t := modAccount b a nightCounted u
    if (u.classOf (u.account a)).grace ≤ min ((u.account a).arrearsNights + 1) 255 then
      toPower a (fun k => suspendPower b k .arrears) t
    else t := if_pos h

/-- After the count only a suspend request can follow (R70). -/
theorem arrearsPart_onlySessions (b : State) (h : OnlySessions (withAccount s a y) u) :
    OnlySessions (withAccount s a (arrearsCounted y)) (arrearsPart b a u) := by
  unfold arrearsCounted
  by_cases hs : y.standing = .arrears
  · rw [if_pos hs, arrearsPart_of_arrears b (h.standing.trans hs)]
    have hcount := h.modAccount b (f := nightCounted)
      fun _ _ _ _ => rfl
    dsimp only
    split
    · exact hcount.served (toPower_served a (fun _ _ w => suspendPower_served _ _ _ w) (.refl _))
    · exact hcount
  · rw [if_neg hs, arrearsPart_of_ne b fun e => hs (h.standing.symm.trans e)]
    exact h

theorem raiseOverstay_noticed (a : AccountId) (day : Int) (s : State) : Noticed s (raiseOverstay a day s) := by
  unfold raiseOverstay
  dsimp only
  split
  · exact .refl s
  · split
    · exact raise_noticed_self ..
    · exact .refl s

/-! ### Which accounts a step visits -/

theorem stepAccount_passed (b : State) (h : (u.account a).state = .free ∨ (u.account a).lastStepped = some day) :
    stepAccount b a day u = u := if_pos h

theorem stepAccount_visited (b : State) (hf : (u.account a).state ≠ .free) (hd : (u.account a).lastStepped ≠ some day) :
    stepAccount b a day u = modAccount b a (stampedWith day) (arrearsPart b a (rolloverStatePart b a day u)) :=
  if_neg (not_or.2 ⟨hf, hd⟩)

/-- What the part for the account's state makes of the account is counted and stamped; beyond that only sessions change. -/
theorem stepAccount_onlySessions (b : State) (hf : (u.account a).state ≠ .free)
    (hd : (u.account a).lastStepped ≠ some day) (h : OnlySessions (withAccount s a y) (rolloverStatePart b a day u)) :
    OnlySessions (withAccount s a (stampedWith day (arrearsCounted y))) (stepAccount b a day u) := by
  rw [stepAccount_visited b hf hd]
  exact (arrearsPart_onlySessions b h).modAccount b fun _ _ _ _ => rfl

/-- The stamp is a change of the record, so the edition advances, once in the step (R1). -/
theorem stamp_eq (b : State) (hd : (b.account a).lastStepped ≠ some day) (u : State) :
    modAccount b a (stampedWith day) u =
      withAccount u a { stampedWith day (u.account a) with edition := (b.account a).edition + 1 } :=
  putAccount_of_ne fun e => hd (congrArg Account.lastStepped e).symm

/-- A step at an account that is not in ARREARS after the part for its state. -/
theorem stepAccount_of_ne (hf : (s.account a).state ≠ .free) (hd : (s.account a).lastStepped ≠ some day)
    (hu : rolloverStatePart s a day s = u) (hs : (u.account a).standing ≠ .arrears) : stepAccount s a day s =
      withAccount u a { stampedWith day (u.account a) with edition := (s.account a).edition + 1 } := by
  rw [stepAccount_visited s hf hd, hu, arrearsPart_of_ne s hs, stamp_eq s hd]

/-! ### The part for the account's state (R67 to R69) -/

theorem rolloverStatePart_opened (b : State) (h : (u.account a).state = .opened) : rolloverStatePart b a day u = u := by
  unfold rolloverStatePart
  rw [h]

theorem rolloverStatePart_reserved (b : State) (h : (u.account a).state = .reserved) :
    rolloverStatePart b a day u = expireReservation b a day u := by
  unfold rolloverStatePart
  rw [h]

theorem rolloverStatePart_berthed (b : State) (h : (u.account a).state = .berthed) : rolloverStatePart b a day u =
    raiseOverstay a day (chargeNights b a day (bandOfRollover u) u) := by
  unfold rolloverStatePart
  rw [h]

theorem expireReservation_in_time (b : State) {d : Int} (ha : (u.account a).arrival = some d)
    (h : day ≤ d + u.site.val.graceDays) : expireReservation b a day u = u := by
  unfold expireReservation
  dsimp only
  split
  · rfl
  · exact if_neg (by simpa only [reservationOverdue, ha, decide_eq_true_eq, Int.not_lt] using h)

theorem expireReservation_overdue (b : State) {n : BerthId} {d : Int} (hb : (u.account a).berth = some n)
    (ha : (u.account a).arrival = some d) (h : d + u.site.val.graceDays < day) : expireReservation b a day u =
      raise .reservationExpired { account := some a, berth := some n } (releaseReservation b a n u) := by
  have hover : reservationOverdue u (u.account a) day = true := by
    simpa only [reservationOverdue, ha, decide_eq_true_eq] using h
  simp only [expireReservation, hb, hover, if_true]

/-- `s` with berth `n` FREE again, its edition advanced (R39). -/
def withBerthFreed (s : State) (n : BerthId) : State :=
  { s with
    berths := s.berths.put n
      { s.berth n with state := .free, holder := none, edition := (s.berth n).edition + 1 } }

/-- The account as the end of its reservation leaves it. -/
def unreserved (x : Account) : Account := { x with state := .opened, berth := none, arrival := none }

/-- The release of a reserved berth alters the state of both records (R50, R69). -/
theorem releaseReservation_eq {n : BerthId} (ha : (s.account a).state = .reserved) (hn : (s.berth n).state = .reserved) :
    releaseReservation s a n s = withAccount (withBerthFreed s n) a
      { unreserved (s.account a) with edition := (s.account a).edition + 1 } := by
  unfold releaseReservation freeBerth modAccount
  rw [putBerth_of_state (by rw [hn]; exact nofun), putAccount_of_state]
  · rfl
  · show AccountState.opened ≠ _
    rw [ha]
    exact nofun

theorem raiseOverstay_in_time (h : ∀ d, (u.account a).planned = some d → day ≤ d) : raiseOverstay a day u = u := by
  unfold raiseOverstay
  dsimp only
  split
  · rfl
  · next d hd => exact if_neg (Int.not_lt.2 (h d hd))

theorem raiseOverstay_late {d : Int} (hp : (u.account a).planned = some d) (h : d < day) : raiseOverstay a day u =
    raise .overstay { account := some a, berth := (u.account a).berth, value := some (day - d) } u := by
  simp only [raiseOverstay, hp, if_pos h]

/-! ### The night charge (R68) -/

/-- The account as a charge that does not clamp leaves it, its standing evaluated. -/
def billedAccount (s : State) (x : Account) (v : Service) (cents residue : Nat) : Account :=
  let standing := standingOf x.barredFlag (x.balance - cents) (s.classOf x).floor
  { x with
    balance := x.balance - cents, residues := x.residues.put (serviceIx v) residue
    standing := standing, arrearsNights := arrearsNightsAfter x.standing standing x.arrearsNights }

theorem applyCharge_onlySessions (v : Service) {cents : Nat} (residue : Nat) (hf : (s.account a).state ≠ .free)
    (hb : -99999999 ≤ (s.account a).balance - cents) :
    OnlySessions (withAccount s a (billedAccount s (s.account a) v cents residue)) (applyCharge s a v cents residue s) := by
  obtain ⟨e, t, ht, hev⟩ := debitAccount_evaluates s cents
    (modAccount_written s a (fun x => withResidue x v residue) s)
  rw [debitedAccount_of_le (x := withResidue (s.account a) v residue) hb] at ht
  have heq : applyCharge s a v cents residue s = evaluateStanding s a t := hev
  rw [heq]
  exact evaluateStanding_put
    (y := { withResidue (s.account a) v residue with balance := (s.account a).balance - cents }) s hf ht

/-- The account with `n` nights charged up to `day`. -/
def nightsDated (day : Int) (n : Nat) (y : Account) : Account :=
  { y with lastCharged := some day, nights := min (y.nights + n) 9999 }

theorem chargeNights_of_owed {d : Band} {n cents residue : Nat} (hn : nightsOwed (s.account a) day = n) (h0 : n ≠ 0)
    (hc : nightCharge s a n d = (cents, residue)) : chargeNights s a day d s =
      modAccount s a (nightsDated day n) (applyCharge s a .berthNight cents residue s) := by
  subst hn
  unfold chargeNights
  dsimp only
  rw [if_neg h0, hc]
  rfl

end

/-! ### The row ROLLOVER_STEP (R66, R67) -/

theorem exec_rolloverStep {s : State} (h : s.stopped = false) : exec .rolloverStep s = .next (rolloverStep s) :=
  congrArg Host.Outcome.next (event_running h)

theorem exec_rolloverComplete {s : State} (h : s.stopped = false) :
    exec .rolloverComplete s = .next (rolloverComplete s) :=
  congrArg Host.Outcome.next (event_running h)

/-- `s` with the rollover `r` moved on by one account, to which that account has handed in `cents`. -/
def movedOn (r : Rollover) (cents : Nat) (s : State) : State :=
  { s with rollover := some { r with cursor := r.cursor + 1, total := r.total + cents } }

section
variable {a : AccountId} {r : Rollover} {s u : State}

theorem rolloverStep_at (hr : s.rollover = some r) (hc : r.cursor = a.val) :
    rolloverStep s = movedOn r (stepTotal s a r.date) (stepAccount s a r.date s) := by
  unfold rolloverStep
  rw [hr]
  dsimp only
  rw [hc, ident_val]
  dsimp only
  rw [← hc]
  rfl

theorem nightCents_of_zero {day : Int} (d : Band) (h : nightsOwed (s.account a) day = 0) : nightCents s a day d = 0 :=
  if_pos h

theorem stepTotal_stamped {day : Int} (h : (s.account a).lastStepped = some day) : stepTotal s a day = 0 := if_pos h

theorem stepTotal_not_berthed {day : Int} (h : (s.account a).state ≠ .berthed) : stepTotal s a day = 0 := by
  unfold stepTotal stepCents
  rw [if_neg h, ite_self]

theorem stepTotal_berthed {day : Int} (hd : (s.account a).lastStepped ≠ some day) (h : (s.account a).state = .berthed) :
    stepTotal s a day = nightCents s a day (bandOfRollover s) := (if_neg hd).trans (if_pos h)

/-- A notice stands in the queues the same, whether the account is written and the rollover moved before it or after. -/
theorem movedOn_raise (c : NoticeClass) (i : NoticeInfo) (cents : Nat) (y : Account) (s : State) :
    movedOn r cents (withAccount (raise c i s) a y) = raise c i (movedOn r cents (withAccount s a y)) := by
  unfold raise movedOn withAccount
  dsimp only
  split <;> rfl

end

/-! ### The clauses of O39 -/

section
variable {a : AccountId} {r : Rollover} {s : State} (hr : s.rollover = some r) (hc : r.cursor = a.val)
include hr hc

theorem rolloverStep_passed (h : (s.account a).state = .free ∨ (s.account a).lastStepped = some r.date) :
    rolloverStep s = movedOn r 0 s := by
  have h0 : stepTotal s a r.date = 0 := h.elim (fun e => stepTotal_not_berthed (by rw [e]; exact nofun)) stepTotal_stamped
  rw [rolloverStep_at hr hc, stepAccount_passed s h, h0]

/-- A step at an account that hands in no nights and is not in ARREARS after the part for its state. -/
theorem rolloverStep_of_ne {u : State} (hf : (s.account a).state ≠ .free) (hd : (s.account a).lastStepped ≠ some r.date)
    (h0 : stepTotal s a r.date = 0) (hu : rolloverStatePart s a r.date s = u) (hs : (u.account a).standing ≠ .arrears) :
    rolloverStep s = movedOn r 0 (withAccount u a
      { stampedWith r.date (u.account a) with edition := (s.account a).edition + 1 }) := by
  rw [rolloverStep_at hr hc, h0, stepAccount_of_ne hf hd hu hs]

/-- A night in arrears that is not the last of grace, or of an account without a power session (R70). -/
theorem rolloverStep_counts (hs : (s.account a).state = .opened) (hd : (s.account a).lastStepped ≠ some r.date)
    (hst : (s.account a).standing = .arrears)
    (h : (s.account a).power = none ∨
      min ((s.account a).arrearsNights + 1) 255 < (s.classOf (s.account a)).grace) :
    rolloverStep s = movedOn r 0 (withAccount s a
      { stampedWith r.date (s.account a) with
        arrearsNights := min ((s.account a).arrearsNights + 1) 255, edition := (s.account a).edition + 1 }) := by
  have hpart : arrearsPart s a s = modAccount s a nightCounted s := by
    rw [arrearsPart_of_arrears s hst]
    dsimp only
    rcases h with h | h
    · rw [toPower_of_none (by rw [modAccount_account, if_pos rfl]; exact h), ite_self]
    · exact if_neg (Nat.not_le.2 h)
  have hf : (s.account a).state ≠ .free := by rw [hs]; exact nofun
  rw [rolloverStep_at hr hc, stepTotal_not_berthed (by rw [hs]; exact nofun), stepAccount_visited s hf hd,
    rolloverStatePart_opened s hs, hpart, stamp_eq s hd, modAccount_account, if_pos rfl]
  simp only [withAccount, modAccount, putAccount, Table.put_put]
  rfl

/-- The last night of grace, and every night after it, suspends the power session (R70). -/
theorem rolloverStep_suspends {k : SocketId} (hs : (s.account a).state = .opened)
    (hd : (s.account a).lastStepped ≠ some r.date) (hst : (s.account a).standing = .arrears)
    (hg : (s.classOf (s.account a)).grace ≤ min ((s.account a).arrearsNights + 1) 255)
    (hk : (s.account a).power = some k) :
    OnlySessions
      (movedOn r 0 (withAccount s a { stampedWith r.date (s.account a) with
        arrearsNights := min ((s.account a).arrearsNights + 1) 255 })) (rolloverStep s)
    ∧ ∃ u, u.power = s.power ∧ (rolloverStep s).power = (suspendPower s k .arrears u).power := by
  have hf : (s.account a).state ≠ .free := by rw [hs]; exact nofun
  have hcount : arrearsCounted (s.account a) =
      { s.account a with arrearsNights := min ((s.account a).arrearsNights + 1) 255 } := by
    rw [arrearsCounted, if_pos hst]
  rw [rolloverStep_at hr hc, stepTotal_not_berthed (by rw [hs]; exact nofun)]
  constructor
  · have honly := stepAccount_onlySessions (a := a) (y := s.account a) (s := s) s hf hd
      (by rw [rolloverStatePart_opened s hs, withAccount_self]; exact .refl s)
    rw [hcount] at honly
    exact honly.withRollover _
  · refine ⟨modAccount s a nightCounted s, rfl, ?_⟩
    rw [stepAccount_visited s hf hd, rolloverStatePart_opened s hs, arrearsPart_of_arrears s hst]
    dsimp only
    rw [if_pos hg, toPower_of_some (by rw [modAccount_account, if_pos rfl]; exact hk)]
    rfl

/-- Where the part for the account's state writes the account and raises a notice, the stamp goes into the same record. -/
theorem rolloverStep_notices {c : NoticeClass} {i : NoticeInfo} {x : Account} {t : State}
    (hf : (s.account a).state ≠ .free) (hd : (s.account a).lastStepped ≠ some r.date) (h0 : stepTotal s a r.date = 0)
    (hu : rolloverStatePart s a r.date s = raise c i (withAccount t a x)) (hst : x.standing ≠ .arrears) :
    rolloverStep s = raise c i (movedOn r 0 (withAccount t a
      { stampedWith r.date x with edition := (s.account a).edition + 1 })) := by
  have hx : (raise c i (withAccount t a x)).account a = x := by rw [raise_account, withAccount_account]
  rw [rolloverStep_of_ne hr hc hf hd h0 hu (hx.symm ▸ hst), hx, movedOn_raise, withAccount_withAccount]

/-- The step of a reservation that is overdue, whose berth is freed and the account opened (R69). -/
theorem rolloverStep_expires {n : BerthId} {d : Int} (hs : (s.account a).state = .reserved)
    (hd : (s.account a).lastStepped ≠ some r.date) (hst : (s.account a).standing ≠ .arrears)
    (hb : (s.account a).berth = some n) (hn : (s.berth n).state = .reserved) (ha : (s.account a).arrival = some d)
    (hlate : d + s.site.val.graceDays < r.date) :
    rolloverStep s = raise .reservationExpired { account := some a, berth := some n }
      (movedOn r 0 (withAccount (withBerthFreed s n) a
        { unreserved (stampedWith r.date (s.account a)) with edition := (s.account a).edition + 1 })) := by
  have hpart := (rolloverStatePart_reserved (day := r.date) s hs).trans (expireReservation_overdue s hb ha hlate)
  rw [releaseReservation_eq hs hn] at hpart
  rw [rolloverStep_notices hr hc (by rw [hs]; exact nofun) hd (stepTotal_not_berthed (by rw [hs]; exact nofun)) hpart hst]
  rfl

/-- The step of a BERTHED account that owes no night is the test for an overstay alone (R68). -/
theorem rolloverStep_no_nights {last : Int} (hs : (s.account a).state = .berthed)
    (hd : (s.account a).lastStepped ≠ some r.date) (hst : (s.account a).standing ≠ .arrears)
    (hl : (s.account a).lastCharged = some last) (hle : r.date ≤ last) :
    ((∀ d, (s.account a).planned = some d → r.date ≤ d) → rolloverStep s = movedOn r 0 (withAccount s a
      { stampedWith r.date (s.account a) with edition := (s.account a).edition + 1 }))
    ∧ ∀ d, (s.account a).planned = some d → d < r.date → rolloverStep s =
        raise .overstay { account := some a, berth := (s.account a).berth, value := some (r.date - d) }
          (movedOn r 0 (withAccount s a
            { stampedWith r.date (s.account a) with edition := (s.account a).edition + 1 })) := by
  have hf : (s.account a).state ≠ .free := by rw [hs]; exact nofun
  have howed : nightsOwed (s.account a) r.date = 0 := by rw [nightsOwed_of_some hl]; omega
  have htotal : stepTotal s a r.date = 0 := (stepTotal_berthed hd hs).trans (nightCents_of_zero _ howed)
  have hpart : rolloverStatePart s a r.date s = raiseOverstay a r.date s := by
    rw [rolloverStatePart_berthed s hs, chargeNights_of_zero s _ howed]
  refine ⟨fun h => rolloverStep_of_ne hr hc hf hd htotal (hpart.trans (raiseOverstay_in_time h)) hst, fun d hp h => ?_⟩
  refine rolloverStep_notices hr hc hf hd htotal (hpart.trans ((raiseOverstay_late hp h).trans ?_)) hst
  rw [withAccount_self]

/-- The step of a BERTHED account that owes `n` nights, whose charge does not clamp (R68). -/
theorem rolloverStep_nights {n total cents : Nat} (hs : (s.account a).state = .berthed)
    (hd : (s.account a).lastStepped ≠ some r.date) (hn : nightsOwed (s.account a) r.date = n) (h0 : n ≠ 0)
    (htotal : total = (s.account a).residues.get (serviceIx .berthNight)
      + (s.account a).loa * n * rateOf s (s.account a).cls .berthNight (bandOfRollover s))
    (hcents : cents = total / 10000) (hb : -99999999 ≤ (s.account a).balance - cents) :
    OnlySessions
      (movedOn r cents (withAccount s a (stampedWith r.date (arrearsCounted (nightsDated r.date n
        (billedAccount s (s.account a) .berthNight cents (total % 10000)))))))
      (rolloverStep s) := by
  have hf : (s.account a).state ≠ .free := by rw [hs]; exact nofun
  have hcharge : nightCharge s a n (bandOfRollover s) = (cents, total % 10000) := by
    rw [nightCharge_eq, ← htotal, splitTotal_eq, hcents]
  have hmoney : stepTotal s a r.date = cents := by
    rw [stepTotal_berthed hd hs, nightCents, hn, if_neg h0, hcharge]
  have hpart : rolloverStatePart s a r.date s = raiseOverstay a r.date
      (modAccount s a (nightsDated r.date n) (applyCharge s a .berthNight cents (total % 10000) s)) := by
    rw [rolloverStatePart_berthed s hs, chargeNights_of_owed hn h0 hcharge]
  have hbilled := (applyCharge_onlySessions .berthNight (total % 10000) hf hb).modAccount s
    (f := nightsDated r.date n) fun _ _ _ _ => rfl
  rw [rolloverStep_at hr hc, hmoney]
  refine (stepAccount_onlySessions s hf hd ?_).withRollover _
  rw [hpart]
  exact hbilled.served (raiseOverstay_noticed ..).served

end

/-- A request to suspend a session that is SUSPENDED already writes its cause alone (R109). -/
theorem suspendPower_power_suspended (b : State) {k : SocketId} (c : Cause) {s : State} {x : PowerSession}
    (hx : s.power.get k = some x) (hs : x.state = .suspended) :
    (suspendPower b k c s).power.get k = some { x with cause := some c } := by
  simp only [suspendPower, hx, hs]
  exact Table.get_put_self ..

theorem rolloverComplete_at {s : State} {r : Rollover} (hr : s.rollover = some r) (h : r.cursor = 512) :
    rolloverComplete s =
      testRollover (raise .rolloverDone { value := some r.total }
        { s with lastRollover := some r.date, rollover := none }) := by
  unfold rolloverComplete
  rw [hr]
  exact if_pos h

theorem rolloverComplete_before {s : State} {r : Rollover} (hr : s.rollover = some r) (h : r.cursor ≠ 512) :
    rolloverComplete s = s := by
  unfold rolloverComplete
  rw [hr]
  exact if_neg h

/-- Settles O39, clause by clause: the part for the account's state, the count of a night in arrears, the stamp. -/
theorem rolloverStepsEachAccountOnce : Obligations.RolloverStepsEachAccountOnce := by
  intro s r hrun hr
  refine ⟨fun h => ⟨_, exec_rolloverComplete hrun, ?_⟩, fun h => ?_, ?_⟩
  · rw [rolloverComplete_at hr h]
    exact testRollover_tested _
  · rw [exec_rolloverComplete hrun, rolloverComplete_before hr h]
  intro a hc x moved nights stamped
  rw [exec_rolloverStep hrun]
  refine ⟨fun h => ?_, fun hs hd hst => ?_, fun hs hd hst h => ?_, fun k y hs hd hst hg hk hy => ?_,
    fun n hs hd hst hb hn => ⟨fun d ha h => ?_, fun d ha h => ?_⟩,
    fun last hs hd hl hle hst => ⟨fun h => ?_, fun d hp h => ?_⟩, ?_⟩
  · exact congrArg _ (rolloverStep_passed hr hc h)
  · exact congrArg _ (rolloverStep_of_ne hr hc (by rw [hs]; exact nofun) hd
      (stepTotal_not_berthed (by rw [hs]; exact nofun)) (rolloverStatePart_opened s hs) hst)
  · exact congrArg _ (rolloverStep_counts hr hc hs hd hst h)
  · obtain ⟨honly, u, hu, hpower⟩ := rolloverStep_suspends hr hc hs hd hst hg hk
    have hyu : u.power.get k = some y := hu ▸ hy
    obtain ⟨hkept, hsuspended⟩ := suspendPower_get s .arrears hyu
    refine ⟨_, rfl, honly, fun h => ?_, fun h => ?_, fun h => ?_⟩
    · rw [hpower]
      obtain ⟨z, hz, hzs, hzc, hzh, -⟩ := hsuspended (fun e => by simp [e] at h) (fun e => by simp [e] at h)
      exact ⟨z, hz, hzs, hzc, hzh⟩
    · rw [hpower]
      exact suspendPower_power_suspended s .arrears hyu h
    · rw [hpower]
      exact hkept h
  · rw [rolloverStep_expires hr hc hs hd hst hb hn ha h]
    rfl
  · exact congrArg _ (rolloverStep_of_ne hr hc (by rw [hs]; exact nofun) hd
      (stepTotal_not_berthed (by rw [hs]; exact nofun))
      ((rolloverStatePart_reserved s hs).trans (expireReservation_in_time s ha h)) hst)
  · exact congrArg _ ((rolloverStep_no_nights hr hc hs hd hst hl hle).1 h)
  · rw [(rolloverStep_no_nights hr hc hs hd hst hl hle).2 d hp h]
    rfl
  · intro last hs hd hl hlt n rate total cents standing arrears hclamp
    have hn : nightsOwed (s.account a) r.date = n := nightsOwed_of_some hl _
    have h0 : n ≠ 0 := by omega
    have honly := rolloverStep_nights hr hc hs hd hn h0 (total := total) rfl (cents := cents) rfl hclamp
    unfold stampedWith arrearsCounted nightsDated billedAccount at honly
    exact ⟨_, rfl, honly⟩

end Sys2Proof.Machine

/-! ## Sessions, outputs and feeders (O46)

The three laws read little of each record. A change that leaves what they read is passed over at once; the writes of a session are shown to keep each law, and every command is made of these. -/

namespace Sys2Proof.Machine

/-! ### The laws, record by record -/

/-- The account of the power session on a socket. -/
def powerOwner (s : State) (k : SocketId) : Option AccountId := (s.power.get k).map PowerSession.account

/-- The account of the water session on a tap. -/
def waterOwner (s : State) (n : TapId) : Option AccountId := (s.water.get n).map WaterSession.account

/-- Slots and accounts name each other. -/
def Mutual {κ : Type} (owner : κ → Option AccountId) (link : AccountId → Option κ) : Prop :=
  ∀ k a, owner k = some a ↔ link a = some k

theorem Mutual.congr {κ : Type} {owner owner' : κ → Option AccountId} {link link' : AccountId → Option κ} (h : Mutual owner link)
    (ho : ∀ m, owner' m = owner m) (hl : ∀ i, link' i = link i) : Mutual owner' link' := by
  intro m i
  rw [ho, hl]
  exact h m i

section
variable {κ : Type} [DecidableEq κ] {owner owner' : κ → Option AccountId} {link link' : AccountId → Option κ} {k : κ}
  {a : AccountId}

/-- A slot and the link of its account are cleared together. -/
theorem Mutual.cleared (h : Mutual owner link) (hk : owner k = some a)
    (ho : ∀ m, owner' m = if k = m then none else owner m) (hl : ∀ i, link' i = if a = i then none else link i) :
    Mutual owner' link' := by
  intro m i
  have hm := h m i
  rw [ho, hl]
  by_cases hmk : k = m
  · subst hmk
    by_cases hai : a = i
    · simp [hai]
    · have hne : link i ≠ some k := fun e => hai (Option.some.inj (hk.symm.trans (hm.2 e)))
      simp [hai, hne]
  · rw [if_neg hmk, hm]
    by_cases hai : a = i
    · subst hai
      have hlink := (h k a).1 hk
      simp [hlink, hmk]
    · rw [if_neg hai]

/-- An empty slot and an account without a link are joined together. -/
theorem Mutual.joined (h : Mutual owner link) (hk : owner k = none) (ha : link a = none)
    (ho : ∀ m, owner' m = if k = m then some a else owner m) (hl : ∀ i, link' i = if a = i then some k else link i) :
    Mutual owner' link' := by
  intro m i
  have hm := h m i
  rw [ho, hl]
  by_cases hmk : k = m
  · subst hmk
    by_cases hai : a = i
    · simp [hai]
    · rw [hk] at hm
      simp [hai, ← hm]
  · by_cases hai : a = i
    · subst hai
      rw [ha] at hm
      simp [hmk, hm]
    · simpa [hmk, hai] using hm

end

theorem powerLinked_iff (s : State) : PowerLinked s ↔ Mutual (powerOwner s) fun a => (s.account a).power := by
  unfold PowerLinked Mutual powerOwner
  refine ⟨fun ⟨hslot, hlink⟩ k a => ⟨fun e => ?_, fun e => ?_⟩, fun h => ⟨fun k => ?_, fun a => ?_⟩⟩
  · obtain ⟨x, hx, rfl⟩ := Option.map_eq_some_iff.1 e
    have hk := hslot k
    rw [hx] at hk
    exact hk
  · have e' : (s.accounts.get a).power = some k := e
    simpa [e'] using hlink a
  · split
    · trivial
    · next x hx => exact (h k x.account).1 (by rw [hx]; rfl)
  · split
    · trivial
    · next k hk => exact (h k a).2 hk

theorem waterLinked_iff (s : State) : WaterLinked s ↔ Mutual (waterOwner s) fun a => (s.account a).water := by
  unfold WaterLinked Mutual waterOwner
  refine ⟨fun ⟨hslot, hlink⟩ k a => ⟨fun e => ?_, fun e => ?_⟩, fun h => ⟨fun k => ?_, fun a => ?_⟩⟩
  · obtain ⟨x, hx, rfl⟩ := Option.map_eq_some_iff.1 e
    have hk := hslot k
    rw [hx] at hk
    exact hk
  · have e' : (s.accounts.get a).water = some k := e
    simpa [e'] using hlink a
  · split
    · trivial
    · next x hx => exact (h k x.account).1 (by rw [hx]; rfl)
  · split
    · trivial
    · next k hk => exact (h k a).2 hk

/-- The law of links as an account and a slot read it (R14, R95, R115). -/
structure SessionTies (s : State) : Prop where
  power : Mutual (powerOwner s) fun a => (s.account a).power
  water : Mutual (waterOwner s) fun a => (s.account a).water
  free : ∀ a, (s.account a).state = .free → (s.account a).power = none ∧ (s.account a).water = none

theorem SessionsLinked.ties {s : State} (h : SessionsLinked s) : SessionTies s :=
  have ⟨hp, hw, hf⟩ := h
  ⟨(powerLinked_iff s).1 hp, (waterLinked_iff s).1 hw, hf⟩

theorem SessionTies.linked {s : State} (h : SessionTies s) : SessionsLinked s :=
  ⟨(powerLinked_iff s).2 h.power, (waterLinked_iff s).2 h.water, h.free⟩

theorem isWaiting_iff {o : Option PowerSession} : isWaiting o = true ↔ ∃ x, o = some x ∧ x.state = .waiting := by
  cases o <;> simp [isWaiting]

/-- A socket draws on a feeder: its pedestal is installed and names it (R96). -/
theorem mem_feederSockets {s : State} {f : FeederId} {k : SocketId} :
    k ∈ feederSockets s f ↔ (s.pedestal (pedestalOf k)).cfg.installed = true ∧ feederOf s k = f := by
  simp [feederSockets, feederOf]

theorem mem_feederSockets_of_present {s : State} {k : SocketId} (h : socketPresent s k = true) :
    k ∈ feederSockets s (feederOf s k) := by
  unfold socketPresent at h
  simp only [Bool.and_eq_true] at h
  exact mem_feederSockets.2 ⟨h.1, rfl⟩

theorem nodup_feederSockets (s : State) (f : FeederId) : (feederSockets s f).Nodup :=
  (List.nodup_finRange 512).filter _

/-- The held amps of the sessions on a feeder. -/
def heldOn (s : State) (f : FeederId) : Nat := ((feederSockets s f).map fun k => heldOf (s.power.get k)).sum

/-- The law of the feeders, with wait lists in terms of the slots (R95, R99, R101). -/
structure FeederLaw (s : State) : Prop where
  named : ∀ n k, (s.berth n).cfg.socket = some k → socketPresent s k = true
  present : ∀ k, s.power.get k ≠ none → socketPresent s k = true
  sum : ∀ f, (s.feeder f).heldSum = heldOn s f
  nodup : ∀ f, (s.feeder f).waitList.Nodup
  room : ∀ f, (s.feeder f).waitList.length ≤ Config.waitListRoom
  mem : ∀ f k, k ∈ (s.feeder f).waitList ↔ feederOf s k = f ∧ isWaiting (s.power.get k) = true

theorem FeedersOk.law {s : State} (h : FeedersOk s) : FeederLaw s := by
  obtain ⟨⟨hnamed, hpresent⟩, hsum, hlist⟩ := h
  refine ⟨hnamed, fun k hk => ?_, hsum, fun f => (hlist f).1, fun f => (hlist f).2.1, fun f k => ?_⟩
  · obtain ⟨x, hx⟩ := Option.ne_none_iff_exists'.1 hk
    exact hpresent k x hx
  · rw [isWaiting_iff]; exact (hlist f).2.2 k

theorem FeederLaw.feedersOk {s : State} (h : FeederLaw s) : FeedersOk s :=
  ⟨⟨h.named, fun k x hx => h.present k (by rw [hx]; exact nofun)⟩, h.sum, fun f =>
    ⟨h.nodup f, h.room f, fun k => by rw [← isWaiting_iff]; exact h.mem f k⟩⟩

/-! ### What the laws read -/

/-- `y` is linked to the sessions of `x`, and has not become FREE with one. -/
def Account.SameLinks (x y : Account) : Prop :=
  y.power = x.power ∧ y.water = x.water
    ∧ (y.state = .free → x.state = .free ∨ x.power = none ∧ x.water = none)

/-- `q` has the configuration of `p`, its desired relays and its desired valve. -/
def Pedestal.SameOutputs (p q : Pedestal) : Prop :=
  q.cfg = p.cfg ∧ (∀ i, (q.desired.get i).relay = (p.desired.get i).relay) ∧ q.desiredValve = p.desiredValve

/-- From `s` to `t` everything that the laws of sessions read is as it was. -/
structure SameSessions (s t : State) : Prop where
  power : t.power = s.power
  water : t.water = s.water
  accounts : ∀ a, (s.account a).SameLinks (t.account a)
  pedestals : ∀ n, (s.pedestal n).SameOutputs (t.pedestal n)
  feeders : ∀ f, (t.feeder f).heldSum = (s.feeder f).heldSum ∧ (t.feeder f).waitList = (s.feeder f).waitList
  berths : ∀ n, (t.berth n).cfg = (s.berth n).cfg

theorem Account.SameLinks.refl (x : Account) : x.SameLinks x := ⟨rfl, rfl, .inl⟩

theorem Pedestal.SameOutputs.refl (p : Pedestal) : p.SameOutputs p := ⟨rfl, fun _ => rfl, rfl⟩

/-- A change of no record that the laws read. -/
theorem SameSessions.same {s t : State} (ha : t.accounts = s.accounts) (hb : t.berths = s.berths)
    (hn : t.pedestals = s.pedestals) (hp : t.power = s.power) (hw : t.water = s.water) (hf : t.feeders = s.feeders) :
    SameSessions s t where
  power := hp
  water := hw
  accounts a := by rw [State.account, State.account, ha]; exact .refl _
  pedestals n := by rw [State.pedestal, State.pedestal, hn]; exact .refl _
  feeders f := by rw [State.feeder, State.feeder, hf]; exact ⟨rfl, rfl⟩
  berths n := by rw [State.berth, State.berth, hb]

/-- The configuration of the pedestals says which sockets are present and which feeder has them. -/
theorem sockets_congr {s t : State} (h : ∀ n, (t.pedestal n).cfg = (s.pedestal n).cfg) :
    (∀ k, socketPresent t k = socketPresent s k) ∧ (∀ k, feederOf t k = feederOf s k)
      ∧ ∀ f, feederSockets t f = feederSockets s f := by
  refine ⟨fun k => ?_, fun k => ?_, fun f => ?_⟩
  · unfold socketPresent; rw [h]
  · unfold feederOf; rw [h]
  · unfold feederSockets; simp only [h]

/-- From `s` to `t` each law of sessions is kept, for its own sake. -/
structure KeepsSessions (s t : State) : Prop where
  outputs : OutputsOk s → OutputsOk t
  links : SessionsLinked s → SessionsLinked t
  feeders : FeedersOk s → FeedersOk t

theorem KeepsSessions.refl (s : State) : KeepsSessions s s := ⟨id, id, id⟩

theorem KeepsSessions.trans {s t u : State} (h : KeepsSessions s t) (k : KeepsSessions t u) : KeepsSessions s u :=
  ⟨fun w => k.outputs (h.outputs w), fun w => k.links (h.links w), fun w => k.feeders (h.feeders w)⟩

/-- The law of links reads owners and accounts. -/
theorem SessionTies.of_same {s t : State} (h : SessionTies s) (hp : ∀ k, powerOwner t k = powerOwner s k)
    (hw : ∀ n, waterOwner t n = waterOwner s n) (ha : ∀ a, (s.account a).SameLinks (t.account a)) : SessionTies t where
  power := h.power.congr hp fun a => (ha a).1
  water := h.water.congr hw fun a => (ha a).2.1
  free a e := by
    obtain ⟨hpower, hwater, hfree⟩ := ha a
    rw [hpower, hwater]
    exact (hfree e).elim (h.free a) id

theorem SameSessions.keeps {s t : State} (h : SameSessions s t) : KeepsSessions s t where
  outputs w := by
    refine ⟨fun n i e => ?_, fun n e => ?_⟩
    · obtain ⟨-, hrelay, -⟩ := h.pedestals n
      rw [h.power]
      exact w.1 n i ((hrelay i).symm.trans e)
    · obtain ⟨-, -, hvalve⟩ := h.pedestals n
      rw [h.water]
      exact w.2 n (hvalve.symm.trans e)
  links w := SessionTies.linked (w.ties.of_same (fun k => by rw [powerOwner, h.power]; rfl)
    (fun n => by rw [waterOwner, h.water]; rfl) h.accounts)
  feeders w := by
    obtain ⟨hpresent, hof, hsockets⟩ := sockets_congr fun n => (h.pedestals n).1
    have law := w.law
    refine FeederLaw.feedersOk ⟨fun n k e => ?_, fun k e => ?_, fun f => ?_, fun f => ?_, fun f => ?_, fun f k => ?_⟩
    · rw [hpresent]; exact law.named n k (h.berths n ▸ e)
    · rw [hpresent]; exact law.present k (h.power ▸ e)
    · rw [(h.feeders f).1, heldOn, hsockets, h.power]; exact law.sum f
    · rw [(h.feeders f).2]; exact law.nodup f
    · rw [(h.feeders f).2]; exact law.room f
    · rw [(h.feeders f).2, hof, h.power]; exact law.mem f k

/-- A change of no record that the laws read. -/
theorem KeepsSessions.same {s t : State} (ha : t.accounts = s.accounts) (hb : t.berths = s.berths)
    (hn : t.pedestals = s.pedestals) (hp : t.power = s.power) (hw : t.water = s.water) (hf : t.feeders = s.feeders) :
    KeepsSessions s t := (SameSessions.same ha hb hn hp hw hf).keeps

theorem Noticed.keepsSessions {s t : State} (h : Noticed s t) : KeepsSessions s t := by
  rw [h.eq]; exact .same rfl rfl rfl rfl rfl rfl

theorem StartEq.keepsSessions {s t : State} (h : StartEq s t) : KeepsSessions s t := by
  rw [h]; exact .same rfl rfl rfl rfl rfl rfl

theorem TankEq.keepsSessions {s t : State} (h : TankEq s t) : KeepsSessions s t := by
  rw [h]; exact .same rfl rfl rfl rfl rfl rfl

theorem raise_keepsSessions {s t : State} (c : NoticeClass) (i : NoticeInfo) (h : KeepsSessions s t) :
    KeepsSessions s (raise c i t) := h.trans (raise_noticed_self c i t).keepsSessions

theorem putAccount_keepsSessions {s t : State} (b : State) {a : AccountId} {x : Account}
    (hx : (t.account a).SameLinks x) (h : KeepsSessions s t) : KeepsSessions s (putAccount b a x t) :=
  h.trans (SameSessions.keeps ⟨rfl, rfl, fun i => by
    rw [putAccount_account]; split
    · next e => subst e; exact hx
    · exact .refl _, fun _ => .refl _, fun _ => ⟨rfl, rfl⟩, fun _ => rfl⟩)

theorem modAccount_keepsSessions {s t : State} (b : State) (a : AccountId) {f : Account → Account}
    (hf : ∀ x : Account, x.SameLinks (f x)) (h : KeepsSessions s t) : KeepsSessions s (modAccount b a f t) :=
  putAccount_keepsSessions b (hf _) h

theorem putBerth_keepsSessions {s t : State} (b : State) {n : BerthId} {x : Berth} (hx : x.cfg = (t.berth n).cfg)
    (h : KeepsSessions s t) : KeepsSessions s (putBerth b n x t) :=
  h.trans (SameSessions.keeps ⟨rfl, rfl, fun _ => .refl _, fun _ => .refl _, fun _ => ⟨rfl, rfl⟩, fun m => by
    rw [putBerth_berth]; split
    · next e => subst e; exact hx
    · rfl⟩)

theorem putPedestal_keepsSessions {s t : State} (b : State) {n : PedestalId} {x : Pedestal}
    (hx : (t.pedestal n).SameOutputs x) (h : KeepsSessions s t) : KeepsSessions s (putPedestal b n x t) :=
  h.trans (SameSessions.keeps ⟨rfl, rfl, fun _ => .refl _, fun m => by
    rw [putPedestal_pedestal]; split
    · next e => subst e; exact hx
    · exact .refl _, fun _ => ⟨rfl, rfl⟩, fun _ => rfl⟩)

theorem modFeeder_keepsSessions {s t : State} (b : State) (f : FeederId) {g : Feeder → Feeder}
    (hg : ∀ x, (g x).heldSum = x.heldSum ∧ (g x).waitList = x.waitList) (h : KeepsSessions s t) :
    KeepsSessions s (modFeeder b f g t) :=
  h.trans (SameSessions.keeps ⟨rfl, rfl, fun _ => .refl _, fun _ => .refl _, fun i => by
    rw [modFeeder_feeder]; split
    · next e => subst e; exact hg _
    · exact ⟨rfl, rfl⟩, fun _ => rfl⟩)

/-! ### The write of a power slot -/

theorem eq_socketAt {k : SocketId} {n : PedestalId} {i : Fin 2} (hn : pedestalOf k = n) (hi : positionOf k = i) :
    k = socketAt n i := by
  subst hn hi
  refine Fin.ext ?_
  show k.val = k.val / 2 * 2 + k.val % 2
  omega

/-- The desired outputs of the written socket follow its session, and no other socket's change (R87, R95). -/
theorem putPower_relay (b : State) (k : SocketId) (x : Option PowerSession) (s : State) (n : PedestalId) (i : Fin 2) :
    (((putPower b k x s).pedestal n).desired.get i).relay =
      if k = socketAt n i then (desiredFor ((s.pedestal n).cfg.ratings.get i) x).1
      else ((s.pedestal n).desired.get i).relay := by
  unfold putPower syncSocket
  dsimp only
  rw [modPedestal_pedestal]
  split
  · next e =>
    subst e
    show ((Table.put _ (positionOf k) _).get i : Desired).relay = _
    rw [Table.get_put]
    split
    · next e' =>
      subst e'
      rw [if_pos (eq_socketAt rfl rfl)]
      show (desiredFor _ ((s.power.put k x).get k)).1 = _
      rw [Table.get_put_self]
      rfl
    · next e' =>
      rw [if_neg fun e => e' (by rw [e, positionOf_socketAt])]
      rfl
  · next e =>
    rw [if_neg fun e' => e (by rw [e', pedestalOf_socketAt])]
    rfl

theorem putPower_pedestal_rest (b : State) (k : SocketId) (x : Option PowerSession) (s : State) (n : PedestalId) :
    ((putPower b k x s).pedestal n).cfg = (s.pedestal n).cfg
      ∧ ((putPower b k x s).pedestal n).desiredValve = (s.pedestal n).desiredValve := by
  unfold putPower syncSocket
  dsimp only
  rw [modPedestal_pedestal]
  split
  · next e => subst e; exact ⟨rfl, rfl⟩
  · exact ⟨rfl, rfl⟩

theorem putPower_outputsOk {b : State} {k : SocketId} {x : Option PowerSession} {s : State} (w : OutputsOk s) :
    OutputsOk (putPower b k x s) := by
  refine ⟨fun n i (e : (((putPower b k x s).pedestal n).desired.get i).relay = true) => ?_,
    fun n (e : ((putPower b k x s).pedestal n).desiredValve = true) => ?_⟩
  · rw [putPower_relay] at e
    rw [putPower_power, Table.get_put]
    split at e
    · next h =>
      rw [if_pos h]
      rw [desiredFor_eq] at e
      exact (Option.any_eq_true _ _).1 e
    · next h => rw [if_neg h]; exact w.1 n i e
  · rw [(putPower_pedestal_rest b k x s n).2] at e
    exact w.2 n e

theorem putPower_powerOwner (b : State) (k : SocketId) (x : Option PowerSession) (s : State) (m : SocketId) :
    powerOwner (putPower b k x s) m = if k = m then x.map PowerSession.account else powerOwner s m := by
  unfold powerOwner
  rw [putPower_power, Table.get_put]
  split <;> rfl

/-- One term of a sum over a list without repeats. -/
theorem sum_map_change {α : Type} [DecidableEq α] {l : List α} (hl : l.Nodup) {k : α} (hk : k ∈ l) {g g' : α → Nat}
    (h : ∀ m, m ≠ k → g' m = g m) :
    g k ≤ (l.map g).sum ∧ (l.map g').sum + g k = (l.map g).sum + g' k := by
  have hrest : (l.erase k).map g' = (l.erase k).map g :=
    List.map_congr_left fun m hm => h m fun e => by rw [e] at hm; exact hl.not_mem_erase hm
  have e := List.sum_map_erase g hk
  have e' := List.sum_map_erase g' hk
  rw [hrest] at e'
  exact ⟨by omega, by omega⟩

/-- The held sums, from before a write of a slot to after (R99). -/
theorem putPower_heldOn {b : State} {k : SocketId} {x : Option PowerSession} {s : State}
    (hp : x ≠ none → socketPresent s k = true) (hpresent : ∀ m, s.power.get m ≠ none → socketPresent s m = true)
    {f : FeederId} (hsum : (s.feeder f).heldSum = heldOn s f) :
    ((putPower b k x s).feeder f).heldSum = heldOn (putPower b k x s) f := by
  obtain ⟨-, -, hsockets⟩ := sockets_congr fun n => (putPower_pedestal_rest b k x s n).1
  have hslot : ∀ m, (putPower b k x s).power.get m = if k = m then x else s.power.get m := fun m => by
    rw [putPower_power, Table.get_put]
  have hother : ∀ m, m ≠ k → heldOf ((putPower b k x s).power.get m) = heldOf (s.power.get m) := fun m hm => by
    rw [hslot, if_neg fun e => hm e.symm]
  rw [putPower_feeder, heldOn, hsockets]
  by_cases hk : k ∈ feederSockets s f
  · obtain ⟨hle, hchange⟩ := sum_map_change (nodup_feederSockets s f) hk hother
    rw [if_pos (mem_feederSockets.1 hk).2]
    rw [hslot k, if_pos rfl] at hchange
    show (s.feeder f).heldSum - heldOf (s.power.get k) + heldOf x = _
    rw [hsum, heldOn, ← Nat.sub_add_comm hle]
    exact Nat.sub_eq_of_eq_add hchange.symm
  · have hsame : ((feederSockets s f).map fun m => heldOf ((putPower b k x s).power.get m)).sum = heldOn s f :=
      congrArg List.sum (List.map_congr_left fun m hm => hother m fun e => hk (e ▸ hm))
    rw [hsame]
    split
    · next hf =>
      have hgone : ∀ o : Option PowerSession, (o ≠ none → socketPresent s k = true) → heldOf o = 0 := fun o ho => by
        cases o with
        | none => rfl
        | some y => exact absurd (hf ▸ mem_feederSockets_of_present (ho nofun)) hk
      show (s.feeder f).heldSum - heldOf (s.power.get k) + heldOf x = _
      rw [hgone _ (hpresent k), hgone _ hp]
      exact hsum
    · exact hsum

/-- A write of a slot keeps the feeders' law, where a session has its socket and one that begins to wait has room (R99, R101). -/
theorem putPower_feedersOk {b : State} {k : SocketId} {x : Option PowerSession} {s : State}
    (hp : x ≠ none → socketPresent s k = true)
    (hr : isWaiting x = true → isWaiting (s.power.get k) = true
      ∨ (s.feeder (feederOf s k)).waitList.length < Config.waitListRoom)
    (w : FeedersOk s) : FeedersOk (putPower b k x s) := by
  have law := w.law
  obtain ⟨hpresent, hof, -⟩ := sockets_congr fun n => (putPower_pedestal_rest b k x s n).1
  have hslot : ∀ m, (putPower b k x s).power.get m = if k = m then x else s.power.get m := fun m => by
    rw [putPower_power, Table.get_put]
  have hlist : ∀ f, ((putPower b k x s).feeder f).waitList =
      if feederOf s k = f then waitListAfter (s.feeder f).waitList k (isWaiting (s.power.get k)) (isWaiting x)
      else (s.feeder f).waitList := fun f => by
    rw [putPower_feeder]; split <;> rfl
  have hmem : ∀ f, k ∈ (s.feeder f).waitList ↔ feederOf s k = f ∧ isWaiting (s.power.get k) = true := fun f => law.mem f k
  refine FeederLaw.feedersOk ⟨fun n m e => ?_, fun m e => ?_, fun f => putPower_heldOn hp law.present (law.sum f), fun f => ?_, fun f => ?_, fun f m => ?_⟩
  · rw [hpresent]; exact law.named n m e
  · rw [hpresent]
    rw [hslot] at e
    split at e
    · next h => subst h; exact hp e
    · exact law.present m e
  · rw [hlist]
    split
    · cases hwas : isWaiting (s.power.get k) <;> cases his : isWaiting x <;> simp only [waitListAfter]
      · exact law.nodup f
      · rw [List.nodup_append]
        refine ⟨law.nodup f, List.nodup_singleton k, fun m hm n hn e => ?_⟩
        rw [List.mem_singleton] at hn
        rw [e, hn, hmem, hwas] at hm
        exact Bool.false_ne_true hm.2
      · exact (law.nodup f).filter _
      · exact law.nodup f
    · exact law.nodup f
  · rw [hlist]
    split
    · next hf =>
      cases hwas : isWaiting (s.power.get k) <;> cases his : isWaiting x <;> simp only [waitListAfter]
      · exact law.room f
      · have hroom := (hr his).resolve_left (by rw [hwas]; exact Bool.false_ne_true)
        rw [hf] at hroom
        simpa using hroom
      · exact (List.length_filter_le _ _).trans (law.room f)
      · exact law.room f
    · exact law.room f
  · rw [hlist, hof, hslot]
    by_cases hm : k = m
    · subst hm
      rw [if_pos rfl]
      split
      · next hf =>
        cases hwas : isWaiting (s.power.get k) <;> cases his : isWaiting x <;> simp [waitListAfter, hmem, hwas, hf]
      · next hf => simp [hmem, hf]
    · rw [if_neg hm, ← law.mem f m]
      split
      · cases isWaiting (s.power.get k) <;> cases isWaiting x <;> simp [waitListAfter, Ne.symm hm]
      · rfl

/-! ### Session writes that keep the laws -/

/-- A session in its place, of the same account, written anew. -/
theorem putPower_keepsSessions {s t : State} (b : State) {k : SocketId} {x y : PowerSession}
    (hy : t.power.get k = some y) (ha : x.account = y.account)
    (hr : x.state = .waiting → y.state = .waiting
      ∨ (t.feeder (feederOf t k)).waitList.length < Config.waitListRoom)
    (h : KeepsSessions s t) : KeepsSessions s (putPower b k (some x) t) :=
  h.trans
    { outputs := putPower_outputsOk
      links := fun w => SessionTies.linked (w.ties.of_same (fun m => by
        rw [putPower_powerOwner]
        split
        · next e => subst e; simp [powerOwner, hy, ha]
        · rfl) (fun _ => rfl) fun _ => .refl _)
      feeders := fun w => putPower_feedersOk (fun _ => w.law.present k (by rw [hy]; exact nofun)) (fun hx => by
        rw [hy]
        simpa [isWaiting] using hr (by simpa [isWaiting] using hx)) w }

theorem grantCount_keepsSessions {s t : State} (n : Nat) (h : KeepsSessions s t) :
    KeepsSessions s { t with grantCount := n } := h.trans (.same rfl rfl rfl rfl rfl rfl)

theorem grant_keepsSessions {s t : State} (b : State) {k : SocketId} {x y : PowerSession} (amps : Nat)
    (hy : t.power.get k = some y) (ha : x.account = y.account) (h : KeepsSessions s t) :
    KeepsSessions s (grant b k x amps t) :=
  putPower_keepsSessions b (t := { t with grantCount := nextGrant t.grantCount }) hy ha nofun (grantCount_keepsSessions _ h)

theorem serveLoop_keepsSessions {s : State} (b : State) (f : FeederId) :
    ∀ (n : Nat) {t : State}, KeepsSessions s t → KeepsSessions s (serveLoop b f n t)
  | 0, _, h => h
  | n + 1, t, h => by
    unfold serveLoop
    split
    · exact h
    · split
      · exact h
      · next hx =>
        split
        · exact serveLoop_keepsSessions b f n (grant_keepsSessions b _ hx rfl h)
        · exact putPower_keepsSessions b hx rfl .inl h

theorem serve_keepsSessions {s t : State} (b : State) (f : FeederId) (h : KeepsSessions s t) :
    KeepsSessions s (serve b f t) := by
  unfold serve
  split
  · exact h
  · exact serveLoop_keepsSessions b f _ h

/-! ### The end of a session (R108, R116) -/

/-- What a written power link leaves of the accounts. -/
theorem setPower_account (b : State) (a : AccountId) (l : Option SocketId) (s : State) (i : AccountId) :
    let y := (modAccount b a (fun x => { x with power := l }) s).account i
    y.power = (if a = i then l else (s.account i).power) ∧ y.water = (s.account i).water ∧ y.state = (s.account i).state := by
  dsimp only
  rw [modAccount_account]
  split
  · next e => subst e; exact ⟨rfl, rfl, rfl⟩
  · exact ⟨rfl, rfl, rfl⟩

theorem setWater_account (b : State) (a : AccountId) (l : Option TapId) (s : State) (i : AccountId) :
    let y := (modAccount b a (fun x => { x with water := l }) s).account i
    y.water = (if a = i then l else (s.account i).water) ∧ y.power = (s.account i).power ∧ y.state = (s.account i).state := by
  dsimp only
  rw [modAccount_account]
  split
  · next e => subst e; exact ⟨rfl, rfl, rfl⟩
  · exact ⟨rfl, rfl, rfl⟩

/-- A power slot and the link of its account are cleared together (R108). -/
theorem SessionTies.clearPower {s u : State} (b : State) {k : SocketId} {x : PowerSession} (h : SessionTies s)
    (hx : s.power.get k = some x) (hp : ∀ m, powerOwner u m = if k = m then none else powerOwner s m)
    (hw : u.water = s.water) (ha : u.accounts = s.accounts) :
    SessionTies (modAccount b x.account (fun a => { a with power := none }) u) := by
  have hacc := setPower_account b x.account none u
  simp only [show ∀ i, u.account i = s.account i from fun i => by rw [State.account, ha]; rfl] at hacc
  refine ⟨h.power.cleared (by rw [powerOwner, hx]; rfl) hp fun i => (hacc i).1,
    h.water.congr (fun m => ?_) fun i => (hacc i).2.1, fun i e => ?_⟩
  · show (u.water.get m).map _ = _
    rw [hw]; rfl
  · obtain ⟨hpower, hwater, hstate⟩ := hacc i
    rw [hstate] at e
    rw [hpower, hwater, (h.free i e).1, (h.free i e).2]
    exact ⟨ite_self _, rfl⟩

/-- A water slot and the link of its account are cleared together (R116). -/
theorem SessionTies.clearWater {s u : State} (b : State) {k : TapId} {x : WaterSession} (h : SessionTies s)
    (hx : s.water.get k = some x) (hw : ∀ m, waterOwner u m = if k = m then none else waterOwner s m)
    (hp : u.power = s.power) (ha : u.accounts = s.accounts) :
    SessionTies (modAccount b x.account (fun a => { a with water := none }) u) := by
  have hacc := setWater_account b x.account none u
  simp only [show ∀ i, u.account i = s.account i from fun i => by rw [State.account, ha]; rfl] at hacc
  refine ⟨h.power.congr (fun m => ?_) fun i => (hacc i).2.1,
    h.water.cleared (by rw [waterOwner, hx]; rfl) hw fun i => (hacc i).1, fun i e => ?_⟩
  · show (u.power.get m).map _ = _
    rw [hp]; rfl
  · obtain ⟨hwater, hpower, hstate⟩ := hacc i
    rw [hstate] at e
    rw [hpower, hwater, (h.free i e).1, (h.free i e).2]
    exact ⟨rfl, ite_self _⟩

/-- Neither outputs nor feeders read an account. -/
theorem modAccount_outputs_feeders (b : State) (a : AccountId) (f : Account → Account) (s : State) :
    (OutputsOk s → OutputsOk (modAccount b a f s)) ∧ (FeedersOk s → FeedersOk (modAccount b a f s)) := ⟨id, id⟩

theorem clearPower_keepsSessions {b s : State} {k : SocketId} {x : PowerSession} (hx : s.power.get k = some x) :
    KeepsSessions s (modAccount b x.account (fun a => { a with power := none }) (putPower b k none s)) where
  outputs w := (modAccount_outputs_feeders ..).1 (putPower_outputsOk w)
  links w := SessionTies.linked (w.ties.clearPower b hx (putPower_powerOwner b k none s) rfl rfl)
  feeders w := (modAccount_outputs_feeders ..).2 (putPower_feedersOk (fun e => absurd rfl e) nofun w)

theorem endPower_keepsSessions {s t : State} (b : State) (k : SocketId) (why : PowerEnd) (h : KeepsSessions s t) :
    KeepsSessions s (endPower b k why t) := by
  unfold endPower
  split
  · exact h
  · next hx => exact serve_keepsSessions b _ (raise_keepsSessions _ _ (h.trans (clearPower_keepsSessions hx)))

/-! ### The write of a water slot -/

theorem putWater_pedestal_rest (b : State) (k : TapId) (x : Option WaterSession) (s : State) (n : PedestalId) :
    ((putWater b k x s).pedestal n).cfg = (s.pedestal n).cfg ∧ ((putWater b k x s).pedestal n).desired = (s.pedestal n).desired
      ∧ ((putWater b k x s).pedestal n).desiredValve =
        if k = n then (x.map fun w => w.state.on).getD false else (s.pedestal n).desiredValve := by
  unfold putWater
  rw [modPedestal_pedestal]
  split
  · next e => subst e; exact ⟨rfl, rfl, rfl⟩
  · exact ⟨rfl, rfl, rfl⟩

theorem putWater_waterOwner (b : State) (k : TapId) (x : Option WaterSession) (s : State) (m : TapId) :
    waterOwner (putWater b k x s) m = if k = m then x.map WaterSession.account else waterOwner s m := by
  unfold waterOwner
  rw [putWater_water, Table.get_put]
  split <;> rfl

/-- The desired valve follows its session, and the sockets are as they were (R116). -/
theorem putWater_outputsOk {b : State} {k : TapId} {x : Option WaterSession} {s : State} (w : OutputsOk s) :
    OutputsOk (putWater b k x s) := by
  refine ⟨fun n i (e : (((putWater b k x s).pedestal n).desired.get i).relay = true) => ?_,
    fun n (e : ((putWater b k x s).pedestal n).desiredValve = true) => ?_⟩
  · rw [(putWater_pedestal_rest b k x s n).2.1] at e
    exact w.1 n i e
  · rw [(putWater_pedestal_rest b k x s n).2.2] at e
    rw [putWater_water, Table.get_put]
    split at e
    · next hk =>
      rw [if_pos hk]
      cases x with
      | none => cases e
      | some y => exact ⟨y, rfl, e⟩
    · next hk => rw [if_neg hk]; exact w.2 n e

/-- Feeders read no tap. -/
theorem putWater_feedersOk {b : State} {k : TapId} {x : Option WaterSession} {s : State} (w : FeedersOk s) :
    FeedersOk (putWater b k x s) := by
  obtain ⟨hpresent, hof, hsockets⟩ := sockets_congr fun n => (putWater_pedestal_rest b k x s n).1
  have law := w.law
  exact FeederLaw.feedersOk ⟨fun n m e => by rw [hpresent]; exact law.named n m e,
    fun m e => by rw [hpresent]; exact law.present m e, fun f => by rw [heldOn, hsockets]; exact law.sum f,
    law.nodup, law.room, fun f m => by rw [hof]; exact law.mem f m⟩

theorem putWater_keepsSessions {s t : State} (b : State) {k : TapId} {x y : WaterSession}
    (hy : t.water.get k = some y) (ha : x.account = y.account) (h : KeepsSessions s t) :
    KeepsSessions s (putWater b k (some x) t) :=
  h.trans
    { outputs := putWater_outputsOk
      links := fun w => SessionTies.linked (w.ties.of_same (fun _ => rfl) (fun m => by
        rw [putWater_waterOwner]
        split
        · next e => subst e; simp [waterOwner, hy, ha]
        · rfl) fun _ => .refl _)
      feeders := putWater_feedersOk }

theorem clearWater_keepsSessions {b s : State} {k : TapId} {x : WaterSession} (hx : s.water.get k = some x) :
    KeepsSessions s (modAccount b x.account (fun a => { a with water := none }) (putWater b k none s)) where
  outputs w := (modAccount_outputs_feeders ..).1 (putWater_outputsOk w)
  links w := SessionTies.linked (w.ties.clearWater b hx (putWater_waterOwner b k none s) rfl rfl)
  feeders w := (modAccount_outputs_feeders ..).2 (putWater_feedersOk w)

theorem endWater_keepsSessions {s t : State} (b : State) (k : TapId) (why : WaterEnd) (h : KeepsSessions s t) :
    KeepsSessions s (endWater b k why t) := by
  unfold endWater
  split
  · exact h
  · next hx => exact raise_keepsSessions _ _ (h.trans (clearWater_keepsSessions hx))

/-! ### Admission -/

/-- All that an admission does: the slot is written for the session's account, SWITCHING by a grant or WAITING where the list has room (R99). -/
theorem enterAdmission_writes {b s t : State} {k : SocketId} {x : PowerSession} (e : enterAdmission b k x s = some t) :
    ∃ (z : PowerSession) (n : Nat), z.account = x.account
      ∧ (z.state = .waiting → (s.feeder (feederOf s k)).waitList.length < Config.waitListRoom)
      ∧ Noticed (putPower b k (some z) { s with grantCount := n }) t := by
  unfold enterAdmission at e
  split at e
  · next amps _ =>
    cases e
    exact ⟨{ attempted s k x with
        state := .switching, granted := amps, held := amps, grantStamp := nextGrant s.grantCount, confirmMisses := 0
        shed := false }, nextGrant s.grantCount, rfl, (fun hw => nomatch hw), .refl _⟩
  · next ht =>
    cases e
    refine ⟨{ attempted s k x with state := .waiting, confirmMisses := 0 }, s.grantCount, rfl, fun _ => ?_,
      raise_noticed_self _ _ _⟩
    unfold admissionTest at ht; dsimp only at ht
    split at ht
    · cases ht
    · split at ht
      · next hroom => exact hroom
      · cases ht
  · cases e

theorem enterAdmission_keepsSessions {b s t u : State} {k : SocketId} {x y : PowerSession}
    (e : enterAdmission b k x t = some u) (hy : t.power.get k = some y) (ha : x.account = y.account)
    (h : KeepsSessions s t) : KeepsSessions s u := by
  obtain ⟨z, n, hz, hroom, hn⟩ := enterAdmission_writes e
  exact (putPower_keepsSessions b (t := { t with grantCount := n }) hy (hz.trans ha) (fun w => .inr (hroom w))
    (grantCount_keepsSessions n h)).trans hn.keepsSessions

/-! ### Requests to sessions (R107 to R110, R116, R118) -/

theorem closePower_keepsSessions {s t : State} (b : State) (k : SocketId) (why : PowerEnd) (c : Bool)
    (h : KeepsSessions s t) : KeepsSessions s (closePower b k why c t) := by
  unfold closePower
  split
  · exact h
  · next hx =>
    split
    · exact putPower_keepsSessions b hx rfl nofun h
    · exact putPower_keepsSessions b hx rfl nofun h
    · exact putPower_keepsSessions b hx rfl nofun h
    · exact endPower_keepsSessions b k why h
    · exact endPower_keepsSessions b k why h
    · exact endPower_keepsSessions b k why h
    · split
      · exact endPower_keepsSessions b k _ h
      · exact h

theorem suspendPower_keepsSessions {s t : State} (b : State) (k : SocketId) (c : Cause) (h : KeepsSessions s t) :
    KeepsSessions s (suspendPower b k c t) := by
  unfold suspendPower
  split
  · exact h
  · next x hx =>
    have hs : KeepsSessions s
        (powerSuspendedNotice k x c
          (putPower b k (some { x with state := .suspended, cause := some c, confirmMisses := 0 }) t)) :=
      raise_keepsSessions _ _ (putPower_keepsSessions b hx rfl nofun h)
    split
    · exact hs
    · exact hs
    · exact hs
    · dsimp only
      split
      · exact serve_keepsSessions b _ hs
      · exact hs
    · next e => exact putPower_keepsSessions b hx rfl .inl h
    · exact h
    · exact h

theorem resumePower_keepsSessions {s t : State} (b : State) (k : SocketId) (h : KeepsSessions s t) :
    KeepsSessions s (resumePower b k t) := by
  unfold resumePower
  split
  · exact h
  · next hx =>
    split
    · split
      · exact putPower_keepsSessions b hx rfl nofun h
      · split
        · next e => exact enterAdmission_keepsSessions e hx rfl h
        · exact endPower_keepsSessions b k _ h
    · exact h

theorem closeWater_keepsSessions {s t : State} (b : State) (k : TapId) (why : WaterEnd) (c : Bool)
    (h : KeepsSessions s t) : KeepsSessions s (closeWater b k why c t) := by
  unfold closeWater
  split
  · exact h
  · next hx =>
    split
    · exact putWater_keepsSessions b hx rfl h
    · exact putWater_keepsSessions b hx rfl h
    · exact endWater_keepsSessions b k why h
    · split
      · exact endWater_keepsSessions b k _ h
      · exact h

theorem suspendWater_keepsSessions {s t : State} (b : State) (k : TapId) (h : KeepsSessions s t) :
    KeepsSessions s (suspendWater b k t) := by
  unfold suspendWater
  split
  · exact h
  · next hx =>
    split
    · exact putWater_keepsSessions b hx rfl h
    · exact h

theorem resumeWater_keepsSessions {s t : State} (b : State) (k : TapId) (h : KeepsSessions s t) :
    KeepsSessions s (resumeWater b k t) := by
  unfold resumeWater
  split
  · exact h
  · next hx =>
    split
    · split
      · exact putWater_keepsSessions b hx rfl h
      · exact putWater_keepsSessions b hx rfl h
    · exact h

theorem toPower_keepsSessions {s t : State} (a : AccountId) {f : SocketId → State → State}
    (hf : ∀ k {u}, KeepsSessions s u → KeepsSessions s (f k u)) (h : KeepsSessions s t) :
    KeepsSessions s (toPower a f t) := by
  unfold toPower
  split
  · exact h
  · exact hf _ h

theorem toWater_keepsSessions {s t : State} (a : AccountId) {f : TapId → State → State}
    (hf : ∀ k {u}, KeepsSessions s u → KeepsSessions s (f k u)) (h : KeepsSessions s t) :
    KeepsSessions s (toWater a f t) := by
  unfold toWater
  split
  · exact h
  · exact hf _ h

theorem unbarIntoArrears_keepsSessions {s t : State} (b : State) (a : AccountId) (k : SocketId)
    (h : KeepsSessions s t) : KeepsSessions s (unbarIntoArrears b a k t) := by
  unfold unbarIntoArrears
  split
  · split
    · exact resumePower_keepsSessions b k h
    · exact suspendPower_keepsSessions b k _ h
  · exact h

theorem standingRequests_keepsSessions {s t : State} (b : State) (a : AccountId) (old new : Standing)
    (h : KeepsSessions s t) : KeepsSessions s (standingRequests b a old new t) := by
  unfold standingRequests
  split
  · exact h
  · exact toWater_keepsSessions a (fun k _ => suspendWater_keepsSessions b k)
      (toPower_keepsSessions a (fun k _ => suspendPower_keepsSessions b k .barred) h)
  · exact toWater_keepsSessions a (fun k _ => resumeWater_keepsSessions b k)
      (toPower_keepsSessions a (fun k _ => resumePower_keepsSessions b k) h)
  · exact toPower_keepsSessions a (fun k _ => unbarIntoArrears_keepsSessions b a k)
      (toWater_keepsSessions a (fun k _ => resumeWater_keepsSessions b k) h)
  · refine toPower_keepsSessions a (fun k u w => ?_) h
    split
    · exact resumePower_keepsSessions b k w
    · exact w
  · exact h

theorem eachId_keepsSessions {n : Nat} {f : Fin n → State → State} (hf : ∀ i s, KeepsSessions s (f i s)) (s : State) :
    KeepsSessions s (eachId n f s) :=
  eachId_keeps (P := KeepsSessions s) (fun i _ h => h.trans (hf i _)) (.refl s)

theorem Account.SameLinks.of_eq {x y : Account} (hp : y.power = x.power) (hw : y.water = x.water)
    (hs : y.state = x.state) : x.SameLinks y := ⟨hp, hw, fun e => .inl (hs ▸ e)⟩

/-! ### Money -/

theorem evaluateStanding_keepsSessions {s t : State} (b : State) (a : AccountId) (h : KeepsSessions s t) :
    KeepsSessions s (evaluateStanding b a t) := by
  unfold evaluateStanding; dsimp only
  split
  · exact h
  · exact standingRequests_keepsSessions b a _ _
      (raise_keepsSessions _ _ (putAccount_keepsSessions b (.of_eq rfl rfl rfl) h))

theorem debitAccount_keepsSessions {s t : State} (b : State) (a : AccountId) (cents : Nat) (h : KeepsSessions s t) :
    KeepsSessions s (debitAccount b a cents t) := by
  unfold debitAccount
  refine evaluateStanding_keepsSessions b a ?_
  split
  · exact putAccount_keepsSessions b (.of_eq rfl rfl rfl) h
  · exact raise_keepsSessions _ _ (putAccount_keepsSessions b (.of_eq rfl rfl rfl) h)

theorem applyCharge_keepsSessions {s t : State} (b : State) (a : AccountId) (v : Service) (cents residue : Nat)
    (h : KeepsSessions s t) : KeepsSessions s (applyCharge b a v cents residue t) :=
  debitAccount_keepsSessions b a cents (modAccount_keepsSessions b a (fun _ => .of_eq rfl rfl rfl) h)

theorem charge_keepsSessions {s t : State} (b : State) (a : AccountId) (v : Service) (q : Nat) (d : Band)
    (h : KeepsSessions s t) : KeepsSessions s (charge b a v q d t) := applyCharge_keepsSessions b a v _ _ h

theorem chargeNights_keepsSessions {s t : State} (b : State) (a : AccountId) (day : Int) (d : Band)
    (h : KeepsSessions s t) : KeepsSessions s (chargeNights b a day d t) := by
  unfold chargeNights; dsimp only
  split
  · exact h
  · exact modAccount_keepsSessions b a (fun _ => .of_eq rfl rfl rfl) (applyCharge_keepsSessions b a _ _ _ h)

theorem settleStay_keepsSessions {s t : State} (b : State) (a : AccountId) (h : KeepsSessions s t) :
    KeepsSessions s (settleStay b a t).1 := by
  unfold settleStay; dsimp only
  split
  · exact charge_keepsSessions b a _ _ _ (chargeNights_keepsSessions b a _ _ h)
  · exact chargeNights_keepsSessions b a _ _ h

theorem evaluateClass_keepsSessions {s t : State} (b : State) (c : ClassId) (h : KeepsSessions s t) :
    KeepsSessions s (evaluateClass b c t) :=
  h.trans (eachId_keepsSessions (fun a u => by
    split
    · exact evaluateStanding_keepsSessions b a (.refl u)
    · exact .refl u) t)

theorem arrearsPart_keepsSessions {s t : State} (b : State) (a : AccountId) (h : KeepsSessions s t) :
    KeepsSessions s (arrearsPart b a t) := by
  unfold arrearsPart; dsimp only
  split
  · have w := putAccount_keepsSessions b (a := a)
      (x := { t.account a with arrearsNights := min ((t.account a).arrearsNights + 1) Config.arrearsLimit })
      (.of_eq rfl rfl rfl) h
    split
    · exact toPower_keepsSessions a (fun k _ => suspendPower_keepsSessions b k _) w
    · exact w
  · exact h

theorem closeSessions_keepsSessions {s t : State} (b : State) (a : AccountId) (h : KeepsSessions s t) :
    KeepsSessions s (closeSessions b a t) :=
  toWater_keepsSessions a (fun k _ => closeWater_keepsSessions b k _ _)
    (toPower_keepsSessions a (fun k _ => closePower_keepsSessions b k _ _) h)

/-! ### Pedestal replies (05) -/

theorem confirmOn_keepsSessions {s t : State} (b : State) {k : SocketId} {x : PowerSession} (g : Bool)
    (hx : t.power.get k = some x) (h : KeepsSessions s t) : KeepsSessions s (confirmOn b k x g t) := by
  unfold confirmOn; dsimp only
  split
  · have w := raise_keepsSessions .powerLive
      { account := some x.account, outlet := some (.socket k), value := some (x.granted : Int) }
      (putPower_keepsSessions b (x := { x with state := .live, held := min x.held x.granted, confirmMisses := 0 })
        hx rfl nofun h)
    split
    · exact serve_keepsSessions b _ w
    · exact w
  · split
    · exact raise_keepsSessions _ _ (endPower_keepsSessions b k _ h)
    · exact putPower_keepsSessions b hx rfl .inl h

theorem liveAgreement_keepsSessions {s t : State} (b : State) {k : SocketId} {x : PowerSession} (g r : Bool)
    (hx : t.power.get k = some x) (h : KeepsSessions s t) : KeepsSessions s (liveAgreement b k x g r t) := by
  unfold liveAgreement; dsimp only
  split
  · have w := putPower_keepsSessions b (x := { x with held := min x.held x.granted, confirmMisses := 0 }) hx rfl .inl h
    split
    · exact serve_keepsSessions b _ w
    · exact w
  · split
    · exact putPower_keepsSessions b hx rfl nofun h
    · split
      · exact raise_keepsSessions _ _ (putPower_keepsSessions b hx rfl .inl h)
      · exact putPower_keepsSessions b hx rfl .inl h

theorem releaseHeld_keepsSessions {s t : State} (b : State) {k : SocketId} {x : PowerSession}
    (hx : t.power.get k = some x) (h : KeepsSessions s t) : KeepsSessions s (releaseHeld b k x t) :=
  serve_keepsSessions b _ (putPower_keepsSessions b hx rfl .inl h)

theorem confirmOff_keepsSessions {s t : State} (b : State) {k : SocketId} {x : PowerSession} (g : Bool)
    (hx : t.power.get k = some x) (h : KeepsSessions s t) : KeepsSessions s (confirmOff b k x g t) := by
  unfold confirmOff
  split
  · split
    · exact endPower_keepsSessions b k _ h
    · exact releaseHeld_keepsSessions b hx h
  · split
    · exact raise_keepsSessions _ _ (putPower_keepsSessions b hx rfl .inl h)
    · exact putPower_keepsSessions b hx rfl .inl h

theorem powerAgreement_keepsSessions {s t : State} (b : State) (k : SocketId) (h : KeepsSessions s t) :
    KeepsSessions s (powerAgreement b k t) := by
  unfold powerAgreement; dsimp only
  split
  · exact h
  · next hx =>
    split
    · exact confirmOn_keepsSessions b _ hx h
    · exact confirmOn_keepsSessions b _ hx h
    · exact liveAgreement_keepsSessions b _ _ hx h
    · exact confirmOff_keepsSessions b _ hx h
    · split
      · exact confirmOff_keepsSessions b _ hx h
      · exact h
    · split
      · exact confirmOff_keepsSessions b _ hx h
      · exact h
    · exact h

theorem powerTrip_keepsSessions {s t : State} (b : State) (k : SocketId) (h : KeepsSessions s t) :
    KeepsSessions s (powerTrip b k t) := by
  unfold powerTrip
  split
  · exact h
  · next x hx =>
    have hs := serve_keepsSessions b (feederOf t k) (raise_keepsSessions .socketTripped
      { account := some x.account, berth := berthNaming t k, outlet := some (.socket k), value := some (x.energy : Int) }
      (putPower_keepsSessions b (x := { x with state := .tripped, held := 0, confirmMisses := 0 }) hx rfl nofun h))
    split
    · exact hs
    · exact hs
    · exact hs
    · split
      · exact endPower_keepsSessions b k _ h
      · exact h
    · split
      · exact releaseHeld_keepsSessions b hx h
      · exact h
    · split
      · exact releaseHeld_keepsSessions b hx h
      · exact h
    · exact h

theorem countValveMiss_keepsSessions {s t : State} (b : State) {k : TapId} {x : WaterSession}
    (hx : t.water.get k = some x) (h : KeepsSessions s t) : KeepsSessions s (countValveMiss b k x t) := by
  unfold countValveMiss
  split
  · exact raise_keepsSessions _ _ (putWater_keepsSessions b hx rfl h)
  · exact putWater_keepsSessions b hx rfl h

theorem valveAgreement_keepsSessions {s t : State} (b : State) (k : TapId) (h : KeepsSessions s t) :
    KeepsSessions s (valveAgreement b k t) := by
  unfold valveAgreement
  split
  · exact h
  · next hx =>
    split
    · exact putWater_keepsSessions b hx rfl h
    · split
      · exact raise_keepsSessions _ _ (endWater_keepsSessions b k _ h)
      · exact putWater_keepsSessions b hx rfl h
    · exact putWater_keepsSessions b hx rfl h
    · exact putWater_keepsSessions b hx rfl h
    · exact putWater_keepsSessions b hx rfl h
    · exact countValveMiss_keepsSessions b hx h
    · exact endWater_keepsSessions b k _ h
    · exact countValveMiss_keepsSessions b hx h

theorem applyWaterCap_keepsSessions {s t : State} (b : State) (k : TapId) (h : KeepsSessions s t) :
    KeepsSessions s (applyWaterCap b k t) := by
  unfold applyWaterCap
  split
  · exact h
  · next hx =>
    split
    · exact putWater_keepsSessions b hx rfl h
    · exact h

theorem strayPedestal_keepsSessions {s t : State} (b : State) (n : PedestalId) (q : Nat) {f : Pedestal → Pedestal}
    (hf : ∀ p : Pedestal, p.SameOutputs (f p)) (h : KeepsSessions s t) : KeepsSessions s (strayPedestal b n q f t) :=
  h.trans (SameSessions.keeps ⟨rfl, rfl, fun _ => .refl _, fun m => by
    rw [strayPedestal_pedestal]; split
    · next e => subst e; exact hf _
    · exact .refl _, fun _ => ⟨rfl, rfl⟩, fun _ => rfl⟩)

theorem energyDelta_keepsSessions {s t : State} (b : State) (k : SocketId) (q : Option Nat) (h : KeepsSessions s t) :
    KeepsSessions s (energyDelta b k q t) := by
  unfold energyDelta
  split
  · next hx => exact charge_keepsSessions b _ _ _ _ (putPower_keepsSessions b hx rfl .inl h)
  · next hx => exact raise_keepsSessions _ _ (putPower_keepsSessions b hx rfl .inl h)
  · exact strayPedestal_keepsSessions b _ _ (fun _ => .refl _) h
  · exact raise_keepsSessions _ _ h

theorem waterDelta_keepsSessions {s t : State} (b : State) (k : TapId) (q : Option Nat) (h : KeepsSessions s t) :
    KeepsSessions s (waterDelta b k q t) := by
  unfold waterDelta
  split
  · next hx =>
    exact applyWaterCap_keepsSessions b k (charge_keepsSessions b _ _ _ _ (putWater_keepsSessions b hx rfl h))
  · next hx => exact raise_keepsSessions _ _ (putWater_keepsSessions b hx rfl h)
  · exact strayPedestal_keepsSessions b _ _ (fun _ => .refl _) h
  · exact raise_keepsSessions _ _ h

theorem deliverSocket_keepsSessions {s t : State} (n : PedestalId) (w : Bool) (fs : List Nat) (i : Fin 2)
    (h : KeepsSessions s t) : KeepsSessions s (deliverSocket n w fs i t) := by
  unfold deliverSocket; dsimp only
  refine powerAgreement_keepsSessions _ _ ?_
  have hd : KeepsSessions s (if w then energyDelta t (socketAt n i) (unpack (socketReport fs i).energy) t else t) := by
    split
    · exact energyDelta_keepsSessions _ _ _ h
    · exact h
  split
  · exact powerTrip_keepsSessions _ _ hd
  · exact hd

theorem deliverTap_keepsSessions {s t : State} (n : PedestalId) (w : Bool) (fs : List Nat) (h : KeepsSessions s t) :
    KeepsSessions s (deliverTap n w fs t) := by
  unfold deliverTap; dsimp only
  split
  · refine valveAgreement_keepsSessions _ _ ?_
    split
    · exact waterDelta_keepsSessions _ _ _ h
    · exact h
  · exact h

theorem takeCurrent_keepsSessions {s t : State} (b : State) (k : SocketId) (n : Nat) (h : KeepsSessions s t) :
    KeepsSessions s (takeCurrent b k n t) := by
  unfold takeCurrent
  split
  · exact h
  · next hx => exact putPower_keepsSessions b hx rfl .inl h

theorem stepDown_keepsSessions {s t : State} (b : State) (k : SocketId) (h : KeepsSessions s t) :
    KeepsSessions s (stepDown b k t) := by
  unfold stepDown
  split
  · exact h
  · next hx => exact putPower_keepsSessions b hx rfl .inl h

theorem shedSession_keepsSessions {s t : State} (b : State) (k : SocketId) (h : KeepsSessions s t) :
    KeepsSessions s (shedSession b k t) := by
  unfold shedSession
  split
  · exact h
  · next hx =>
    split
    · next hroom => exact putPower_keepsSessions b hx rfl (fun _ => .inr hroom) h
    · exact putPower_keepsSessions b hx rfl nofun h

theorem takeRelief_keepsSessions {s t : State} (b : State) (f : FeederId) (h : KeepsSessions s t) :
    KeepsSessions s (takeRelief b f t).1 := by
  unfold takeRelief
  split
  · exact stepDown_keepsSessions b _ h
  · split
    · exact shedSession_keepsSessions b _ h
    · exact h

theorem reliefNotice_keepsSessions {s t : State} (f : FeederId) (k : Option SocketId) (w : ReliefWord)
    (h : KeepsSessions s t) : KeepsSessions s (reliefNotice f k w t) := raise_keepsSessions _ _ h

theorem relieve_keepsSessions {s t : State} (b : State) (f : FeederId) (h : KeepsSessions s t) :
    KeepsSessions s (relieve b f t) :=
  reliefNotice_keepsSessions _ _ _ (modFeeder_keepsSessions b f (fun _ => ⟨rfl, rfl⟩) (takeRelief_keepsSessions b f h))

theorem measureFeeder_keepsSessions {s t : State} (b : State) (f : FeederId) (h : KeepsSessions s t) :
    KeepsSessions s (measureFeeder b f t) := by
  have w : ∀ sum count : Nat, KeepsSessions s (modFeeder b f (fun x => { x with measured := sum, overload := count }) t) :=
    fun _ _ => modFeeder_keepsSessions b f (fun _ => ⟨rfl, rfl⟩) h
  unfold measureFeeder
  generalize measuredSum t f = sum
  dsimp only
  generalize (if (t.feeder f).cfg.rating * 10 < sum then (t.feeder f).overload + 1 else 0) = count
  split
  · exact relieve_keepsSessions b f (w _ _)
  · exact w _ _

theorem currentReport_keepsSessions {s t : State} (b : State) (n : PedestalId) (ks : List (Fin 2))
    (h : KeepsSessions s t) : KeepsSessions s (currentReport b n ks t) :=
  measureFeeder_keepsSessions b _
    (eachOf_keeps (P := KeepsSessions s) (fun _ _ w => takeCurrent_keepsSessions b _ _ w) _ h)

/-! ### A whole reply, and a miss -/

theorem Pedestal.SameOutputs.trans {p q r : Pedestal} (h : p.SameOutputs q) (k : q.SameOutputs r) : p.SameOutputs r :=
  ⟨k.1.trans h.1, fun i => (k.2.1 i).trans (h.2.1 i), k.2.2.trans h.2.2⟩

theorem reportSocket_sameOutputs (fs : List Nat) (p : Pedestal) (i : Fin 2) : p.SameOutputs (p.reportSocket fs i) := by
  refine ⟨rfl, fun j => ?_, rfl⟩
  unfold Pedestal.reportSocket; dsimp only
  rw [Table.get_put]
  split
  · next e => subst e; rfl
  · rfl

/-- A reply clears clear-trip requests, and neither relay nor valve (R87, R88). -/
theorem answered_sameOutputs (fs : List Nat) (p : Pedestal) : p.SameOutputs (p.answered fs) := by
  have hsockets : ∀ (l : List (Fin 2)) (q : Pedestal), q.SameOutputs (l.foldl (Pedestal.reportSocket fs) q) := fun l => by
    induction l with
    | nil => exact .refl
    | cons i l ih => exact fun q => (reportSocket_sameOutputs fs q i).trans (ih _)
  have htap : ∀ q : Pedestal, q.SameOutputs (q.reportTap fs) := fun q => by
    unfold Pedestal.reportTap
    split <;> exact .refl q
  exact (hsockets p.cfg.kind.sockets p).trans (htap _)

theorem deliver_keepsSessions {s t : State} (n : PedestalId) (fs : List Nat) (h : KeepsSessions s t) :
    KeepsSessions s (deliver n fs t) := by
  unfold deliver; dsimp only
  refine currentReport_keepsSessions _ _ _ (deliverTap_keepsSessions _ _ _ (eachOf_keeps (P := KeepsSessions s)
    (fun i _ w => deliverSocket_keepsSessions _ _ _ i w) _ ?_))
  have w := putPedestal_keepsSessions t (answered_sameOutputs fs (t.pedestal n)) h
  split
  · exact raise_keepsSessions _ _ w
  · exact w

theorem miss_keepsSessions {s t : State} (n : PedestalId) (o : PollOutcome) (h : KeepsSessions s t) :
    KeepsSessions s (miss n o t) := by
  unfold miss; dsimp only
  have w := putPedestal_keepsSessions t (x := (t.pedestal n).missed o) ⟨rfl, fun _ => rfl, rfl⟩ h
  split
  · exact raise_keepsSessions _ _ w
  · exact w

/-! ### Fuel (07) -/

theorem settleLow_keepsSessions {s t : State} (b : State) (p : ProductId) (x : Tank) (h : KeepsSessions s t) :
    KeepsSessions s (settleLow b p x t) := h.trans (settleLow_tankEq b p x t).keepsSessions

theorem holdMoney_keepsSessions {s t : State} (b : State) (y : Buyer) (n : PumpId) (c : Nat) (h : KeepsSessions s t) :
    KeepsSessions s (holdMoney b y n c t) := by
  unfold holdMoney
  split
  · exact modAccount_keepsSessions b _ (fun _ => .of_eq rfl rfl rfl) h
  · exact h

theorem settleBuyer_keepsSessions {s t : State} (b : State) (x : Sale) (cents residue : Nat) (h : KeepsSessions s t) :
    KeepsSessions s (settleBuyer b x cents residue t) := by
  unfold settleBuyer
  split
  · exact applyCharge_keepsSessions b _ _ _ _ (modAccount_keepsSessions b _ (fun _ => .of_eq rfl rfl rfl) h)
  · exact h

theorem putPump_keepsSessions {s t : State} (b : State) (n : PumpId) (x : Pump) (h : KeepsSessions s t) :
    KeepsSessions s (putPump b n x t) := h.trans (.same rfl rfl rfl rfl rfl rfl)

theorem endSale_keepsSessions {s t : State} (b : State) (n : PumpId) (x : Sale) (why : SaleEnd)
    (h : KeepsSessions s t) : KeepsSessions s (endSale b n x why t) :=
  raise_keepsSessions _ _ ((settleBuyer_keepsSessions b x _ _ (h.trans (settleTank_tankEq b x t).keepsSessions)).trans
    (.same rfl rfl rfl rfl rfl rfl))

theorem endSaleAt_keepsSessions {s t : State} (b : State) (w : SaleEnd) (n : PumpId) (h : KeepsSessions s t) :
    KeepsSessions s (endSaleAt b w n t) := by
  unfold endSaleAt
  split
  · exact h
  · exact endSale_keepsSessions b _ _ _ h

theorem pumpMiss_keepsSessions {s t : State} (n : PumpId) (o : PumpOutcome) (h : KeepsSessions s t) :
    KeepsSessions s (pumpMiss n o t) := by
  unfold pumpMiss; dsimp only
  split
  · split
    · exact raise_keepsSessions _ _ (putPump_keepsSessions _ _ _ h)
    · exact endSale_keepsSessions _ _ _ _ (raise_keepsSessions _ _ (putPump_keepsSessions _ _ _ h))
  · exact putPump_keepsSessions _ _ _ h

theorem pumpAnswer_keepsSessions {s t : State} (n : PumpId) (r : PumpReading) (h : KeepsSessions s t) :
    KeepsSessions s (pumpAnswer n r t) := by
  unfold pumpAnswer; dsimp only
  split
  · exact putPump_keepsSessions _ _ _ h
  · split
    · exact putPump_keepsSessions _ _ _ h
    · exact endSale_keepsSessions _ _ _ _ (putPump_keepsSessions _ _ _ h)

theorem portCommand_keepsSessions {i : Instr} {o : Origin} {ports : List PortId} {adm : Admission}
    {owner : State → Answer} {s : State} (ho : ∀ {t lines}, owner s = .ok (t, lines) → KeepsSessions s t) :
    KeepsSessions s (portCommand i o ports adm owner s) :=
  portCommand_keeps (fun _ _ h => h.trans (.same rfl rfl rfl rfl rfl rfl)) ho (.refl s)

theorem event_keepsSessions {f : State → State} {s : State} (hf : KeepsSessions s (f s)) :
    KeepsSessions s (event f s) := event_keeps (fun _ => hf) (.refl s)

theorem Account.SameLinks.of_ne {x y : Account} (hp : y.power = x.power) (hw : y.water = x.water)
    (hs : y.state ≠ .free) : x.SameLinks y := ⟨hp, hw, fun e => absurd e hs⟩

/-! ### Vessel accounts (01) -/

/-- A FREE account has no session, and none as OPEN_ACCOUNT leaves it. -/
theorem openThis_keepsSessions {a : AccountId} {s t : State} {lines : List ReplyLine} (hs : (s.account a).state = .free)
    (h : openThis a s = .ok (t, lines)) : KeepsSessions s t := by
  obtain ⟨rfl, -⟩ := done_eq h
  refine ⟨id, fun w => SessionTies.linked (w.ties.of_same (fun _ => rfl) (fun _ => rfl) fun i => ?_), id⟩
  rw [modAccount_account]
  split
  · next e =>
    subst e
    obtain ⟨hp, hw⟩ := w.ties.free a hs
    exact .of_ne hp.symm hw.symm (show AccountState.opened ≠ .free by decide)
  · exact .refl _

theorem openAccountOwner_keepsSessions {n : Option Nat} {s t : State} {lines : List ReplyLine}
    (h : openAccountOwner n s = .ok (t, lines)) : KeepsSessions s t := by
  unfold openAccountOwner at h
  split at h
  · split at h
    · cases h
    · next hf => exact openThis_keepsSessions (lowestFree_state hf) h
  · split at h
    · cases h
    · split at h
      · next hf => exact openThis_keepsSessions hf h
      · cases h

theorem revokeAll_keepsSessions {s t : State} (b : State) (a : AccountId) (h : KeepsSessions s t) :
    KeepsSessions s (revokeAll b a t) :=
  modAccount_keepsSessions b a (fun _ => .of_eq rfl rfl rfl)
    (eachOf_keeps (f := revokeOne b) (P := KeepsSessions s) (fun _ _ w => w.trans (.same rfl rfl rfl rfl rfl rfl)) _ h)

/-- An account that has a session does not become FREE (R14). -/
theorem closeThis_keepsSessions {a : AccountId} {s t : State} {lines : List ReplyLine}
    (h : closeThis a s = .ok (t, lines)) : KeepsSessions s t := by
  have hnone : (s.account a).power = none ∧ (s.account a).water = none := by
    unfold closeThis at h; dsimp only at h
    split at h
    · cases h
    · split at h
      · cases h
      · split at h
        · cases h
        · next hi => exact ⟨not_not.1 fun e => hi (.inl e), not_not.1 fun e => hi (.inr e)⟩
  rw [closeThis_ok h]
  have hrevoked : (s.account a).SameLinks ((revokeAll s a s).account a) := by
    rw [revokeAll_account, if_pos rfl]; exact .refl _
  obtain ⟨hp, hw, -⟩ := hrevoked
  exact putAccount_keepsSessions s ⟨rfl, rfl, fun _ => .inr ⟨hp.trans hnone.1, hw.trans hnone.2⟩⟩
    (revokeAll_keepsSessions s a (.refl s))

theorem putThenEvaluate_keepsSessions (a : AccountId) {x : Account} {s : State} (hx : (s.account a).SameLinks x) :
    KeepsSessions s (evaluateStanding s a (putAccount s a x s)) :=
  evaluateStanding_keepsSessions s a (putAccount_keepsSessions s hx (.refl s))

theorem creditThis_keepsSessions {n : Nat} {a : AccountId} {s t : State} {lines : List ReplyLine}
    (h : creditThis n a s = .ok (t, lines)) : KeepsSessions s t := by
  unfold creditThis at h; dsimp only at h
  split at h
  · cases h
  · split at h
    · cases h
    · obtain ⟨rfl, -⟩ := done_eq h
      exact putThenEvaluate_keepsSessions a (.of_eq rfl rfl rfl)

theorem debitThis_keepsSessions {n : Nat} {a : AccountId} {s t : State} {lines : List ReplyLine}
    (h : debitThis n a s = .ok (t, lines)) : KeepsSessions s t := by
  unfold debitThis at h; dsimp only at h
  split at h
  · cases h
  · obtain ⟨rfl, -⟩ := done_eq h
    exact debitAccount_keepsSessions s a n (.refl s)

theorem barThis_keepsSessions {a : AccountId} {s t : State} {lines : List ReplyLine}
    (h : barThis a s = .ok (t, lines)) : KeepsSessions s t := by
  unfold barThis at h; dsimp only at h
  split at h <;> obtain ⟨rfl, -⟩ := done_eq h
  · exact .refl _
  · exact putThenEvaluate_keepsSessions a (.of_eq rfl rfl rfl)

theorem unbarThis_keepsSessions {a : AccountId} {s t : State} {lines : List ReplyLine}
    (h : unbarThis a s = .ok (t, lines)) : KeepsSessions s t := by
  unfold unbarThis at h; dsimp only at h
  split at h <;> obtain ⟨rfl, -⟩ := done_eq h
  · exact putThenEvaluate_keepsSessions a (.of_eq rfl rfl rfl)
  · exact .refl _

/-! ### Berths (03) -/

theorem withPlanned_sameLinks (p : Option Int) {x y : Account} (hp : y.power = x.power) (hw : y.water = x.water)
    (hs : y.state ≠ .free) : x.SameLinks (withPlanned p y) := by
  cases p <;> exact .of_ne hp hw hs

theorem makeReservation_keepsSessions {a : AccountId} {n : BerthId} (d : Int) (p : Option Int) (s : State) :
    KeepsSessions s (makeReservation s a n d p s) :=
  modAccount_keepsSessions s a (fun _ => withPlanned_sameLinks p rfl rfl (by simp))
    (putBerth_keepsSessions s rfl (.refl s))

theorem makeArrival_keepsSessions {a : AccountId} {n : BerthId} (p : Option Int) (s : State) :
    KeepsSessions s (makeArrival s a n p s) :=
  raise_keepsSessions _ _ (modAccount_keepsSessions s a (fun _ => withPlanned_sameLinks p rfl rfl (by simp))
    (putBerth_keepsSessions s rfl (.refl s)))

theorem freeBerth_keepsSessions {s t : State} (b : State) (n : BerthId) (h : KeepsSessions s t) :
    KeepsSessions s (freeBerth b n t) := putBerth_keepsSessions b rfl h

theorem releaseReservation_keepsSessions {s t : State} (b : State) (a : AccountId) (n : BerthId)
    (h : KeepsSessions s t) : KeepsSessions s (releaseReservation b a n t) :=
  modAccount_keepsSessions b a (fun _ => .of_ne rfl rfl (by simp)) (freeBerth_keepsSessions b n h)

theorem allocateOwner_keepsSessions {n : Nat} {ps : Pontoons} {d : DateField} {p : Option DateField} {s t : State}
    {lines : List ReplyLine} (h : allocateOwner n ps d p s = .ok (t, lines)) : KeepsSessions s t := by
  unfold allocateOwner done at h
  repeat' split at h
  all_goals cases h
  exact makeReservation_keepsSessions ..

theorem reserveOwner_keepsSessions {n m : Nat} {d : DateField} {p : Option DateField} {force : Bool} {s t : State}
    {lines : List ReplyLine} (h : reserveOwner n m d p force s = .ok (t, lines)) : KeepsSessions s t := by
  unfold reserveOwner done at h
  repeat' split at h
  all_goals cases h
  exact makeReservation_keepsSessions ..

theorem cancelThis_keepsSessions {a : AccountId} {s t : State} {lines : List ReplyLine}
    (h : cancelThis a s = .ok (t, lines)) : KeepsSessions s t := by
  unfold cancelThis at h
  split at h
  · obtain ⟨rfl, -⟩ := done_eq h
    exact releaseReservation_keepsSessions s _ _ (.refl s)
  · cases h

theorem arriveOwner_keepsSessions {n : Nat} {m : Option Nat} {p : Option DateField} {force : Bool} {s t : State}
    {lines : List ReplyLine} (h : arriveOwner n m p force s = .ok (t, lines)) : KeepsSessions s t := by
  unfold arriveOwner done at h
  repeat' split at h
  all_goals cases h
  exact makeArrival_keepsSessions ..

theorem moveThis_keepsSessions {a : AccountId} {m : BerthId} {force : Bool} {s t : State} {lines : List ReplyLine}
    (h : moveThis a m force s = .ok (t, lines)) : KeepsSessions s t := by
  unfold moveThis at h; dsimp only at h
  split at h
  · next n _ _ =>
    split at h
    · cases h
    · split at h
      · cases h
      · split at h
        · cases h
        · obtain ⟨rfl, -⟩ := done_eq h
          have hcfg : ((freeBerth s n s).berth m).cfg = (s.berth m).cfg := by
            rw [freeBerth, putBerth_berth]; split
            · next e => subst e; rfl
            · rfl
          exact modAccount_keepsSessions s a (fun _ => .of_eq rfl rfl rfl)
            (putBerth_keepsSessions s hcfg.symm (freeBerth_keepsSessions s n (.refl s)))
  · cases h

theorem moveOwner_keepsSessions {n m : Nat} {force : Bool} {s t : State} {lines : List ReplyLine}
    (h : moveOwner n m force s = .ok (t, lines)) : KeepsSessions s t := by
  unfold moveOwner at h
  split at h
  · exact moveThis_keepsSessions h
  · cases h

theorem completeDeparture_keepsSessions {s t : State} (b : State) (a : AccountId) (n : BerthId) (cents : Nat)
    (h : KeepsSessions s t) : KeepsSessions s (completeDeparture b a n cents t) := by
  have hr : KeepsSessions s ((if (t.classOf (t.account a)).revokeAtDeparture then revokeAll b a else id) t) := by
    split
    · exact revokeAll_keepsSessions b a h
    · exact h
  exact raise_keepsSessions _ _
    (modAccount_keepsSessions b a (fun _ => .of_ne rfl rfl (by simp)) (freeBerth_keepsSessions b n hr))

theorem departThis_keepsSessions {a : AccountId} {s t : State} {lines : List ReplyLine}
    (h : departThis a s = .ok (t, lines)) : KeepsSessions s t := by
  unfold departThis at h
  split at h
  · split at h
    · cases h
    · dsimp only at h
      have hu := closeSessions_keepsSessions s a (settleStay_keepsSessions s a (.refl s))
      generalize settleStay s a s = settled at h hu
      obtain ⟨rfl, -⟩ := done_eq h
      exact completeDeparture_keepsSessions s a _ _ hu
  · cases h

/-! ### Clock and rollover (04) -/

theorem testRollover_keepsSessions {s t : State} (h : KeepsSessions s t) : KeepsSessions s (testRollover t) :=
  h.trans (by rw [testRollover_eq]; exact .same rfl rfl rfl rfl rfl rfl)

theorem setClockOwner_keepsSessions {d : DateField} {c : TimeField} {s t : State} {lines : List ReplyLine}
    (h : setClockOwner d c s = .ok (t, lines)) : KeepsSessions s t := by
  unfold setClockOwner done at h; dsimp only at h
  repeat' split at h
  all_goals cases h
  exact testRollover_keepsSessions (.same rfl rfl rfl rfl rfl rfl)

theorem expireReservation_keepsSessions (b : State) (a : AccountId) (day : Int) (s : State) :
    KeepsSessions s (expireReservation b a day s) := by
  unfold expireReservation; dsimp only
  split
  · exact .refl s
  · split
    · exact raise_keepsSessions _ _ (releaseReservation_keepsSessions b a _ (.refl s))
    · exact .refl s

theorem rolloverStatePart_keepsSessions (b : State) (a : AccountId) (day : Int) (s : State) :
    KeepsSessions s (rolloverStatePart b a day s) := by
  unfold rolloverStatePart
  split
  · exact (chargeNights_keepsSessions b a day (bandOfRollover s) (.refl s)).trans
      (raiseOverstay_noticed a day _).keepsSessions
  · exact expireReservation_keepsSessions b a day s
  · exact .refl s
  · exact .refl s

theorem stepAccount_keepsSessions (b : State) (a : AccountId) (day : Int) (s : State) :
    KeepsSessions s (stepAccount b a day s) := by
  unfold stepAccount; dsimp only
  split
  · exact .refl s
  · exact modAccount_keepsSessions b a (fun _ => .of_eq rfl rfl rfl)
      (arrearsPart_keepsSessions b a (rolloverStatePart_keepsSessions b a day s))

theorem rolloverStep_keepsSessions (s : State) : KeepsSessions s (rolloverStep s) := by
  unfold rolloverStep
  split
  · exact .refl s
  · split
    · exact .refl s
    · exact (stepAccount_keepsSessions s _ _ s).trans (.same rfl rfl rfl rfl rfl rfl)

theorem rolloverComplete_keepsSessions (s : State) : KeepsSessions s (rolloverComplete s) := by
  unfold rolloverComplete
  split
  · exact .refl s
  · split
    · exact testRollover_keepsSessions (raise_keepsSessions _ _ (.same rfl rfl rfl rfl rfl rfl))
    · exact .refl s

/-! ### Pontoon bus (05) -/

theorem putSegment_keepsSessions (g : SegmentId) (x : Segment) (s : State) : KeepsSessions s (putSegment g x s) :=
  .same rfl rfl rfl rfl rfl rfl

theorem pollDue_keepsSessions (g : SegmentId) (s : State) : KeepsSessions s (pollDue g s) := by
  unfold pollDue; split
  · exact putSegment_keepsSessions ..
  · exact .refl s

theorem pollSend_keepsSessions (g : SegmentId) (s : State) : KeepsSessions s (pollSend g s) := by
  unfold pollSend; dsimp only
  split
  · split
    · exact .refl s
    · exact putSegment_keepsSessions ..
  · exact .refl s

theorem lineBusy_keepsSessions (g : SegmentId) (s : State) : KeepsSessions s (lineBusy g s) := by
  unfold lineBusy; dsimp only
  split
  · split
    · exact .refl s
    · exact miss_keepsSessions _ _ (putSegment_keepsSessions ..)
  · exact .refl s

theorem pedestalReply_keepsSessions (g : SegmentId) (s : State) : KeepsSessions s (pedestalReply g s) := by
  unfold pedestalReply; dsimp only
  split
  · exact .refl s
  · split
    · exact .refl s
    · split
      · exact deliver_keepsSessions _ _ (putSegment_keepsSessions ..)
      · exact miss_keepsSessions _ _ (putSegment_keepsSessions ..)

theorem noReply_keepsSessions (g : SegmentId) (s : State) : KeepsSessions s (noReply g s) := by
  unfold noReply; dsimp only
  split
  · exact .refl s
  · split
    · exact miss_keepsSessions _ _ (putSegment_keepsSessions ..)
    · exact .refl s

theorem replyByte_keepsSessions (g : SegmentId) (byte : Byte) (s : State) : KeepsSessions s (replyByte g byte s) := by
  unfold replyByte; dsimp only
  split
  · exact .refl s
  · split
    · exact putSegment_keepsSessions ..
    · exact .refl s

/-! ### Shore power and water (06) -/

/-- A new power session and its account's link, in one change (R97). -/
theorem SessionTies.linkPower {s u : State} (b : State) {k : SocketId} {a : AccountId} (h : SessionTies s)
    (hk : s.power.get k = none) (hf : (s.account a).state ≠ .free) (hn : (s.account a).power = none)
    (hp : ∀ m, powerOwner u m = if k = m then some a else powerOwner s m) (hw : u.water = s.water)
    (ha : u.accounts = s.accounts) : SessionTies (modAccount b a (fun x => { x with power := some k }) u) := by
  have hacc := setPower_account b a (some k) u
  simp only [show ∀ i, u.account i = s.account i from fun i => by rw [State.account, ha]; rfl] at hacc
  refine ⟨h.power.joined (by rw [powerOwner, hk]; rfl) hn hp fun i => (hacc i).1,
    h.water.congr (fun m => ?_) fun i => (hacc i).2.1, fun i e => ?_⟩
  · show (u.water.get m).map _ = _
    rw [hw]; rfl
  · obtain ⟨hpower, hwater, hstate⟩ := hacc i
    rw [hstate] at e
    rw [hpower, hwater, if_neg fun ei : a = i => hf (ei ▸ e)]
    exact h.free i e

/-- A new water session and its account's link, in one change (R115). -/
theorem SessionTies.linkWater {s u : State} (b : State) {k : TapId} {a : AccountId} (h : SessionTies s)
    (hk : s.water.get k = none) (hf : (s.account a).state ≠ .free) (hn : (s.account a).water = none)
    (hw : ∀ m, waterOwner u m = if k = m then some a else waterOwner s m) (hp : u.power = s.power)
    (ha : u.accounts = s.accounts) : SessionTies (modAccount b a (fun x => { x with water := some k }) u) := by
  have hacc := setWater_account b a (some k) u
  simp only [show ∀ i, u.account i = s.account i from fun i => by rw [State.account, ha]; rfl] at hacc
  refine ⟨h.power.congr (fun m => ?_) fun i => (hacc i).2.1,
    h.water.joined (by rw [waterOwner, hk]; rfl) hn hw fun i => (hacc i).1, fun i e => ?_⟩
  · show (u.power.get m).map _ = _
    rw [hp]; rfl
  · obtain ⟨hwater, hpower, hstate⟩ := hacc i
    rw [hstate] at e
    rw [hpower, hwater, if_neg fun ei : a = i => hf (ei ▸ e)]
    exact h.free i e

/-- The checks of R97: a BERTHED account without a session, whose berth names a free socket. -/
theorem powerSocket_ok {s : State} {a : AccountId} {k : SocketId} (h : powerSocket s a = .ok k) :
    (s.account a).state = .berthed ∧ (s.account a).power = none ∧ s.power.get k = none
      ∧ ∃ n, (s.berth n).cfg.socket = some k := by
  unfold powerSocket at h; dsimp only at h
  split at h
  · next n hs hb =>
    split at h
    · cases h
    · next hn =>
      split at h
      · cases h
      · split at h
        · cases h
        · next hi =>
          split at h
          · cases h
          · cases h
            exact ⟨hs, not_not.1 fun e => hi (.inl e), not_not.1 fun e => hi (.inr e), _, hn⟩
  · cases h

theorem requestPower_keepsSessions {b s t u : State} {a : AccountId} {wish : Rating} {items : List Item}
    (e : requestPower b a wish t = .ok (u, items)) (h : KeepsSessions s t) : KeepsSessions s u := by
  unfold requestPower at e
  split at e
  · cases e
  · next k hk =>
    split at e
    · cases e
    · next v hv =>
      cases e
      obtain ⟨hstate, hfree, hslot, n, hnamed⟩ := powerSocket_ok hk
      obtain ⟨z, g, hz, hroom, hn⟩ := enterAdmission_writes hv
      have hv' := hn.keepsSessions
      refine h.trans
        { outputs := fun w => (modAccount_outputs_feeders ..).1 (hv'.outputs (putPower_outputsOk w))
          links := fun w => SessionTies.linked (w.ties.linkPower b hslot (by rw [hstate]; exact nofun) hfree (fun m => ?_)
            (by rw [hn.eq]; rfl) (by rw [hn.eq]; rfl))
          feeders := fun w => (modAccount_outputs_feeders ..).2 (hv'.feeders (putPower_feedersOk
            (fun _ => w.law.named n k hnamed) (fun hx => .inr (hroom (by simpa [isWaiting] using hx))) w)) }
      rw [hn.eq]
      exact (putPower_powerOwner b k (some z) { t with grantCount := g } m).trans (by rw [Option.map_some, hz]; rfl)

theorem requestPowerOwner_keepsSessions {n w : Nat} {s t : State} {lines : List ReplyLine}
    (h : requestPowerOwner n w s = .ok (t, lines)) : KeepsSessions s t := by
  unfold requestPowerOwner done at h
  repeat' split at h
  all_goals cases h
  next hr => exact requestPower_keepsSessions hr (.refl s)

theorem requestClearTrip_keepsSessions (b : State) (k : SocketId) (s : State) :
    KeepsSessions s (requestClearTrip b k s) := by
  refine putPedestal_keepsSessions b ⟨rfl, fun i => ?_, rfl⟩ (.refl s)
  rw [Table.get_put]
  split
  · next e => subst e; rfl
  · rfl

theorem resetTripped_keepsSessions {s t : State} (b : State) (k : SocketId) (x : PowerSession) (h : KeepsSessions s t) :
    KeepsSessions s (resetTripped b k x t).1 := by
  have w := endPower_keepsSessions b k .reset h
  unfold resetTripped; dsimp only
  split
  · split
    · exact w
    · next hr => exact requestPower_keepsSessions hr w
  · exact w

theorem resetSocketOwner_keepsSessions {n : Nat} {s t : State} {lines : List ReplyLine}
    (h : resetSocketOwner n s = .ok (t, lines)) : KeepsSessions s t := by
  unfold resetSocketOwner resetSocketThis done at h; dsimp only at h
  repeat' split at h
  all_goals cases h
  · exact requestClearTrip_keepsSessions ..
  · exact resetTripped_keepsSessions _ _ _ (requestClearTrip_keepsSessions ..)

theorem endPowerOwner_keepsSessions {n : Nat} {s t : State} {lines : List ReplyLine}
    (h : endPowerOwner n s = .ok (t, lines)) : KeepsSessions s t := by
  unfold endPowerOwner done at h; dsimp only at h
  repeat' split at h
  all_goals cases h
  exact closePower_keepsSessions s _ _ _ (.refl s)

theorem reliefExpiry_keepsSessions (f : FeederId) (s : State) : KeepsSessions s (reliefExpiry f s) := by
  unfold reliefExpiry
  split
  · exact .refl s
  · exact serve_keepsSessions s f (modFeeder_keepsSessions s f (fun _ => ⟨rfl, rfl⟩) (.refl s))

theorem requestWaterOwner_keepsSessions {n : Nat} {s t : State} {lines : List ReplyLine}
    (h : requestWaterOwner n s = .ok (t, lines)) : KeepsSessions s t := by
  unfold requestWaterOwner at h
  split at h
  · cases h
  · next a _ =>
    unfold requestWaterThis at h; dsimp only at h
    split at h
    · cases h
    · split at h
      · next n hs hb =>
        split at h
        · cases h
        · next k _ =>
          split at h
          · cases h
          · split at h
            · cases h
            · next hnone =>
              split at h
              · cases h
              · next hslot =>
                split at h
                · cases h
                · obtain ⟨rfl, -⟩ := done_eq h
                  exact
                    { outputs := fun w => (modAccount_outputs_feeders ..).1 (putWater_outputsOk w)
                      links := fun w => SessionTies.linked (w.ties.linkWater s (not_not.1 hslot)
                        (by rw [hs]; exact nofun) (not_not.1 hnone) (putWater_waterOwner s k _ s) rfl rfl)
                      feeders := fun w => (modAccount_outputs_feeders ..).2 (putWater_feedersOk w) }
      · cases h

theorem endWaterOwner_keepsSessions {n : Nat} {s t : State} {lines : List ReplyLine}
    (h : endWaterOwner n s = .ok (t, lines)) : KeepsSessions s t := by
  unfold endWaterOwner done at h; dsimp only at h
  repeat' split at h
  all_goals cases h
  exact closeWater_keepsSessions s _ _ _ (.refl s)

/-! ### Fuel dock (07) -/

theorem sellOwner_keepsSessions {n : Nat} {k : SellKind} {p : Option Preset} {s t : State} {lines : List ReplyLine}
    (h : sellOwner n k p s = .ok (t, lines)) : KeepsSessions s t := by
  unfold sellOwner done at h; dsimp only at h
  repeat' split at h
  all_goals cases h
  exact putPump_keepsSessions s _ _
    (holdMoney_keepsSessions s _ _ _ (settleLow_keepsSessions s _ _ (.same rfl rfl rfl rfl rfl rfl)))

theorem pumpPoll_keepsSessions (s : State) : KeepsSessions s (pumpPoll s) := by
  unfold pumpPoll
  split
  · split <;> exact .same rfl rfl rfl rfl rfl rfl
  · exact .refl s

theorem pumpReply_keepsSessions (bytes : List Byte) (s : State) : KeepsSessions s (pumpReply bytes s) := by
  unfold pumpReply; dsimp only
  split
  · exact .refl s
  · split
    · exact pumpMiss_keepsSessions _ _ (.same rfl rfl rfl rfl rfl rfl)
    · exact pumpAnswer_keepsSessions _ _ (.same rfl rfl rfl rfl rfl rfl)

theorem noLiftExpiry_keepsSessions (n : PumpId) (s : State) : KeepsSessions s (noLiftExpiry n s) := by
  unfold noLiftExpiry
  split
  · exact .refl s
  · split
    · exact endSale_keepsSessions s n _ _ (.refl s)
    · exact .refl s

theorem stallExpiry_keepsSessions (n : PumpId) (s : State) : KeepsSessions s (stallExpiry n s) := by
  unfold stallExpiry
  split
  · exact .refl s
  · split
    · exact putPump_keepsSessions s n _ (.refl s)
    · exact .refl s

theorem stopSaleOwner_keepsSessions {n : Nat} {s t : State} {lines : List ReplyLine}
    (h : stopSaleOwner n s = .ok (t, lines)) : KeepsSessions s t := by
  unfold stopSaleOwner stopSaleThis done at h
  repeat' split at h
  all_goals cases h
  · exact putPump_keepsSessions s _ _ (.refl s)
  · exact .refl _
  · exact endSale_keepsSessions s _ _ _ (.refl s)

theorem tankDipOwner_keepsSessions {n v : Nat} {s t : State} {lines : List ReplyLine}
    (h : tankDipOwner n v s = .ok (t, lines)) : KeepsSessions s t := by
  unfold tankDipOwner dipThis at h; dsimp only at h
  split at h
  · cases h
  · split at h
    · cases h
    · obtain ⟨rfl, -⟩ := done_eq h
      refine settleLow_keepsSessions s _ _ ?_
      split
      · exact raise_keepsSessions _ _ (.refl s)
      · exact .refl s

theorem tankFillOwner_keepsSessions {n v : Nat} {s t : State} {lines : List ReplyLine}
    (h : tankFillOwner n v s = .ok (t, lines)) : KeepsSessions s t := by
  unfold tankFillOwner fillThis at h; dsimp only at h
  split at h
  · obtain ⟨rfl, -⟩ := done_eq h
    exact settleLow_keepsSessions s _ _ (.refl s)
  · cases h

/-! ### Gates and credentials (08) -/

theorem refusePassage_keepsSessions (r : ReaderId) (g : GateResult) (w : Passer) (c : Option CredId) (s : State) :
    KeepsSessions s (refusePassage r g w c s) := raise_keepsSessions _ _ (.same rfl rfl rfl rfl rfl rfl)

theorem decidePassage_keepsSessions (r : ReaderId) (i : ReaderInput) (s : State) :
    KeepsSessions s (decidePassage r i s) := by
  unfold decidePassage; dsimp only
  split
  · exact refusePassage_keepsSessions ..
  · exact refusePassage_keepsSessions ..
  · split
    · exact .same rfl rfl rfl rfl rfl rfl
    · exact refusePassage_keepsSessions ..

theorem exitPassage_keepsSessions (i : ReaderInput) (s : State) : KeepsSessions s (exitPassage i s) := by
  unfold exitPassage
  split <;> exact .same rfl rfl rfl rfl rfl rfl

theorem credentialEnded_keepsSessions (r : ReaderId) (s : State) : KeepsSessions s (credentialEnded r s) := by
  have hp : KeepsSessions s (putReader r emptyReader s) := .same rfl rfl rfl rfl rfl rfl
  unfold credentialEnded; dsimp only
  split
  · exact .refl s
  · split
    · split
      · exact hp.trans (.same rfl rfl rfl rfl rfl rfl)
      · exact hp.trans (exitPassage_keepsSessions ..)
    · split
      · exact hp
      · exact hp.trans (decidePassage_keepsSessions ..)

theorem readerPulse_keepsSessions (r : ReaderId) (b : Bool) (s : State) : KeepsSessions s (readerPulse r b s) := by
  unfold readerPulse; split <;> exact .same rfl rfl rfl rfl rfl rfl

theorem releaseExpiry_keepsSessions (g : GateId) (s : State) : KeepsSessions s (releaseExpiry g s) := by
  unfold releaseExpiry; dsimp only; split <;> exact .same rfl rfl rfl rfl rfl rfl

theorem holdGateOwner_keepsSessions {n : Nat} {m : GateMode} {s t : State} {lines : List ReplyLine}
    (h : holdGateOwner n m s = .ok (t, lines)) : KeepsSessions s t := by
  unfold holdGateOwner at h
  split at h
  · cases h
  · obtain ⟨rfl, -⟩ := done_eq h
    exact .same rfl rfl rfl rfl rfl rfl

theorem clearPassbackOwner_keepsSessions {n : Nat} {s t : State} {lines : List ReplyLine}
    (h : clearPassbackOwner n s = .ok (t, lines)) : KeepsSessions s t := by
  unfold clearPassbackOwner done at h
  repeat' split at h
  all_goals cases h
  exact .same rfl rfl rfl rfl rfl rfl

theorem unlist_keepsSessions {s t : State} (b : State) (c : CredId) (a : AccountId) (h : KeepsSessions s t) :
    KeepsSessions s (unlist b c a t) := modAccount_keepsSessions b a (fun _ => .of_eq rfl rfl rfl) h

theorem relist_keepsSessions {s t : State} (b : State) (c : CredId) (old new : Option AccountId)
    (h : KeepsSessions s t) : KeepsSessions s (relist b c old new t) := by
  have hoff : KeepsSessions s (takeOff b c old new t) := by
    cases old with
    | none => exact h
    | some a =>
      show KeepsSessions s (if new = some a then t else unlist b c a t)
      split
      · exact h
      · exact unlist_keepsSessions b c _ h
  rw [relist_eq]
  cases new with
  | none => exact hoff
  | some a =>
    refine modAccount_keepsSessions b a
      (f := fun x => if c ∈ x.credentials then x else { x with credentials := x.credentials ++ [c] }) (fun x => ?_) hoff
    split <;> exact .of_eq rfl rfl rfl

theorem revokeOwner_keepsSessions {n : Nat} {s t : State} {lines : List ReplyLine}
    (h : revokeOwner n s = .ok (t, lines)) : KeepsSessions s t := by
  unfold revokeOwner done at h; dsimp only at h
  repeat' split at h
  all_goals cases h
  · exact .same rfl rfl rfl rfl rfl rfl
  · exact unlist_keepsSessions _ _ _ (.same rfl rfl rfl rfl rfl rfl)

/-! ### STORE (R172) -/

/-- A berth names a socket that is present, or the one it named (R42). -/
theorem storeBerth_keepsSessions (n : BerthId) (x : Berth) (s : State) : Leaves (KeepsSessions s) (storeBerth n x s) := by
  refine leaves_check fun _ => leaves_check fun _ => leaves_check fun hsocket => leaves_check fun _ =>
    leaves_check fun _ => leaves_check fun _ => leaves_ok ⟨id, id, fun w => ?_⟩
  have law := w.law
  refine FeederLaw.feedersOk ⟨fun m k e => ?_, law.present, law.sum, law.nodup, law.room, law.mem⟩
  rw [putBerth_berth] at e
  split at e
  · have e' : x.cfg.socket = some k := e
    rw [e'] at hsocket
    simp only [socketRefOk, Bool.or_eq_true, decide_eq_true_eq] at hsocket
    exact hsocket.elim (fun same => law.named n k same.symm) id
  · exact law.named m k e

theorem storeFeeder_keepsSessions (f : FeederId) (x : Feeder) (s : State) :
    Leaves (KeepsSessions s) (storeFeeder f x s) := by
  have hp : KeepsSessions s (putFeeder s f { s.feeder f with cfg := x.cfg } s) :=
    modFeeder_keepsSessions s f (g := fun y => { y with cfg := x.cfg }) (fun _ => ⟨rfl, rfl⟩) (.refl s)
  refine leaves_check fun _ => leaves_check fun _ => leaves_ok ?_
  split
  · exact serve_keepsSessions s f hp
  · exact hp

theorem storeClass_keepsSessions (c : ClassId) (x : Row ClassCfg) (s : State) :
    Leaves (KeepsSessions s) (storeClass c x s) := by
  refine leaves_check fun _ => leaves_ok ?_
  split
  · exact .same rfl rfl rfl rfl rfl rfl
  · exact evaluateClass_keepsSessions s c (.same rfl rfl rfl rfl rfl rfl)

theorem storeAccount_keepsSessions (a : AccountId) (x : Account) (s : State) :
    Leaves (KeepsSessions s) (storeAccount a x s) := by
  refine leaves_check fun _ => leaves_check fun _ => leaves_ok ?_
  split
  · exact putAccount_keepsSessions s (.of_eq rfl rfl rfl) (.refl s)
  · exact putThenEvaluate_keepsSessions a (.of_eq rfl rfl rfl)

theorem storeCred_keepsSessions (c : CredId) (x : Credential) (s : State) :
    Leaves (KeepsSessions s) (storeCred c x s) :=
  leaves_check fun _ => leaves_check fun _ => leaves_check fun _ => leaves_check fun _ => leaves_ok
    (relist_keepsSessions s c _ _ (.same rfl rfl rfl rfl rfl rfl))

/-- A STORE of a pedestal writes its configuration, and no desired output. -/
theorem stored_cfg_outputs (p x : Pedestal) :
    (p.stored x).cfg = x.cfg ∧ (p.stored x).desired = p.desired ∧ (p.stored x).desiredValve = p.desiredValve := by
  unfold Pedestal.stored; dsimp only
  split
  · exact ⟨rfl, rfl, rfl⟩
  · exact ⟨rfl, rfl, rfl⟩
  · split <;> exact ⟨rfl, rfl, rfl⟩
  · exact ⟨rfl, rfl, rfl⟩

theorem sum_filter_congr {α : Type} {p q : α → Bool} {g : α → Nat} (h : ∀ a, g a ≠ 0 → p a = q a) :
    ∀ l : List α, ((l.filter p).map g).sum = ((l.filter q).map g).sum
  | [] => rfl
  | a :: l => by
    have ih := sum_filter_congr h l
    by_cases ha : g a = 0
    · cases hp : p a <;> cases hq : q a <;> simp [hp, hq, ha, ih]
    · have e := h a ha
      cases hq : q a <;> simp [e, hq, ih]

/-- The held amps on a feeder read the sockets that have a session. -/
theorem heldOn_congr {s t : State} (hp : t.power = s.power)
    (h : ∀ k, s.power.get k ≠ none → (t.pedestal (pedestalOf k)).cfg.installed = (s.pedestal (pedestalOf k)).cfg.installed
      ∧ feederOf t k = feederOf s k) (f : FeederId) : heldOn t f = heldOn s f := by
  unfold heldOn feederSockets
  rw [hp]
  refine sum_filter_congr (fun k hk => ?_) _
  have hsome : s.power.get k ≠ none := fun e => hk (by rw [e]; rfl)
  obtain ⟨hinst, hfeeder⟩ := h k hsome
  rw [hinst]
  exact congrArg (fun g => _ && decide (g = f)) hfeeder

/-- A pedestal takes a new configuration that keeps every socket a berth names, and its feeder and identity where it has sessions (R77, R78). -/
theorem putPedestal_cfg_keepsSessions {s : State} {n : PedestalId} {x : Pedestal}
    (hd : x.desired = (s.pedestal n).desired) (hv : x.desiredValve = (s.pedestal n).desiredValve)
    (hnamed : ∀ m k, (s.berth m).cfg.socket = some k → pedestalOf k = n →
      (x.cfg.installed && x.cfg.kind.hasSocket (positionOf k)) = true)
    (hsame : ∀ k, pedestalOf k = n → s.power.get k ≠ none →
      x.cfg.installed = (s.pedestal n).cfg.installed ∧ x.cfg.kind = (s.pedestal n).cfg.kind
        ∧ x.cfg.feeder = (s.pedestal n).cfg.feeder) :
    KeepsSessions s (putPedestal s n x s) := by
  have hped : ∀ m, (putPedestal s n x s).pedestal m = if n = m then (s.pedestal n).settled x else s.pedestal m :=
    fun m => putPedestal_pedestal s n m x s
  have hother : ∀ k, pedestalOf k ≠ n → (putPedestal s n x s).pedestal (pedestalOf k) = s.pedestal (pedestalOf k) :=
    fun k hk => by rw [hped, if_neg fun e => hk e.symm]
  have hself : ∀ k, pedestalOf k = n → (putPedestal s n x s).pedestal (pedestalOf k) = (s.pedestal n).settled x :=
    fun k hk => by rw [hped, if_pos hk.symm]
  have hslot : ∀ k, s.power.get k ≠ none → socketPresent (putPedestal s n x s) k = socketPresent s k
      ∧ feederOf (putPedestal s n x s) k = feederOf s k
      ∧ ((putPedestal s n x s).pedestal (pedestalOf k)).cfg.installed = (s.pedestal (pedestalOf k)).cfg.installed := by
    intro k hk
    unfold socketPresent feederOf
    by_cases hn : pedestalOf k = n
    · obtain ⟨hinst, hkind, hfeeder⟩ := hsame k hn hk
      rw [hself k hn, hn]
      refine ⟨?_, hfeeder, hinst⟩
      show (x.cfg.installed && x.cfg.kind.hasSocket (positionOf k)) = _
      rw [hinst, hkind]
    · rw [hother k hn]; exact ⟨rfl, rfl, rfl⟩
  refine ⟨fun w => ⟨fun m i (e : (((putPedestal s n x s).pedestal m).desired.get i).relay = true) => w.1 m i ?_,
    fun m (e : ((putPedestal s n x s).pedestal m).desiredValve = true) => w.2 m ?_⟩, id, fun w => ?_⟩
  · show ((s.pedestal m).desired.get i).relay = true
    rw [hped] at e
    split at e
    · next h => subst h; rw [← hd]; exact e
    · exact e
  · show (s.pedestal m).desiredValve = true
    rw [hped] at e
    split at e
    · next h => subst h; rw [← hv]; exact e
    · exact e
  · have law := w.law
    refine FeederLaw.feedersOk ⟨fun m k e => ?_, fun k hk => ?_, fun f => ?_, law.nodup, law.room, fun f k => ?_⟩
    · by_cases hn : pedestalOf k = n
      · unfold socketPresent
        rw [hself k hn]
        exact hnamed m k e hn
      · unfold socketPresent
        rw [hother k hn]
        exact law.named m k e
    · rw [(hslot k hk).1]; exact law.present k hk
    · rw [heldOn_congr (s := s) (t := putPedestal s n x s) rfl (fun k hk => ⟨(hslot k hk).2.2, (hslot k hk).2.1⟩) f]; exact law.sum f
    · by_cases hk : s.power.get k = none
      · have hno : isWaiting (s.power.get k) ≠ true := by rw [hk]; exact Bool.false_ne_true
        exact (law.mem f k).trans ⟨fun h => absurd h.2 hno, fun h => absurd h.2 hno⟩
      · rw [(hslot k hk).2.1]; exact law.mem f k

theorem identityChanges_eq_false {c d : PedestalCfg} (h : identityChanges c d = false) :
    d.installed = c.installed ∧ d.kind = c.kind := by
  have e : c.identity = d.identity := by simpa [identityChanges] using h
  exact ⟨(congrArg TagIdentity.installed e).symm, (congrArg TagIdentity.kind e).symm⟩

theorem storePedestal_keepsSessions (n : PedestalId) (x : Pedestal) (s : State) :
    Leaves (KeepsSessions s) (storePedestal n x s) := by
  refine leaves_check fun _ => leaves_check fun _ => leaves_check fun hfree => leaves_check fun hnamed => leaves_ok ?_
  obtain ⟨hcfg, hdesired, hvalve⟩ := stored_cfg_outputs (s.pedestal n) x
  have hput : KeepsSessions s (putPedestal s n ((s.pedestal n).stored x) s) := by
    refine putPedestal_cfg_keepsSessions hdesired hvalve (fun m k hk hn => ?_) fun k hn hk => ?_
    · have hm := List.all_eq_true.1 hnamed m (List.mem_finRange m)
      simp only [keepsNamed, hk, Bool.and_eq_true, Bool.or_eq_true, decide_eq_true_eq] at hm
      rw [hcfg, Bool.and_eq_true]
      exact hm.1.resolve_left fun e => e hn
    · have hway : powerInWay s n (s.pedestal n).cfg x.cfg (positionOf k) = false := by
        simp only [Bool.and_eq_true, Bool.not_eq_true'] at hfree
        obtain ⟨⟨h0, h1⟩, -⟩ := hfree
        match positionOf k with
        | 0 => exact h0
        | 1 => exact h1
      simp only [powerInWay, ← eq_socketAt hn rfl, Option.isSome_iff_ne_none.2 hk, Bool.true_and, Bool.or_eq_false_iff,
        decide_eq_false_iff_not, not_not] at hway
      obtain ⟨⟨hidentity, hfeeder⟩, -⟩ := hway
      obtain ⟨hinst, hkind⟩ := identityChanges_eq_false hidentity
      rw [hcfg]
      exact ⟨hinst, hkind, hfeeder.symm⟩
  split
  · exact hput.trans (.same rfl rfl rfl rfl rfl rfl)
  · exact hput

theorem ownerStore_keepsSessions (e : Entry) (ix : Nat) (s : State) : Leaves (KeepsSessions s) (ownerStore e ix s) := by
  cases e with
  | site x =>
    exact leaves_check fun _ => leaves_check fun _ => leaves_check fun _ =>
      leaves_ok (testRollover_keepsSessions (.same rfl rfl rfl rfl rfl rfl))
  | cls x => exact leaves_atIndex fun i => storeClass_keepsSessions i x s
  | rate x => exact leaves_atIndex fun i => leaves_check fun _ => leaves_ok (.same rfl rfl rfl rfl rfl rfl)
  | hourband x => exact leaves_atIndex fun i => leaves_ok (.same rfl rfl rfl rfl rfl rfl)
  | berth x => exact leaves_atIndex fun i => storeBerth_keepsSessions i x s
  | pedestal x => exact leaves_atIndex fun i => storePedestal_keepsSessions i x s
  | feeder x => exact leaves_atIndex fun i => storeFeeder_keepsSessions i x s
  | pump x =>
    exact leaves_atIndex fun i => leaves_check fun _ => leaves_check fun _ =>
      leaves_ok (by split <;> exact .same rfl rfl rfl rfl rfl rfl)
  | tank x =>
    exact leaves_atIndex fun i => leaves_check fun _ => leaves_check fun _ =>
      leaves_ok (settleLow_keepsSessions s i _ (.refl s))
  | format x =>
    exact leaves_atIndex fun i => leaves_check fun _ => leaves_check fun _ => leaves_ok (.same rfl rfl rfl rfl rfl rfl)
  | access x => exact leaves_atIndex fun i => leaves_check fun _ => leaves_ok (.same rfl rfl rfl rfl rfl rfl)
  | gate x => exact leaves_atIndex fun i => leaves_check fun _ => leaves_ok (.same rfl rfl rfl rfl rfl rfl)
  | level x => exact leaves_atIndex fun i => leaves_ok (.same rfl rfl rfl rfl rfl rfl)
  | port x => exact leaves_atIndex fun i => leaves_check fun _ => leaves_ok (.same rfl rfl rfl rfl rfl rfl)
  | cred x => exact leaves_atIndex fun i => storeCred_keepsSessions i x s
  | account x => exact leaves_atIndex fun i => storeAccount_keepsSessions i x s
  | power x | water x | sale x | passage x => exact fun _ e => by cases e

/-! ### Command ports (09) -/

theorem selectOwner_keepsSessions {p : PortId} {tb : TableName} {n : Nat} {s t : State} {lines : List ReplyLine}
    (h : selectOwner p tb n s = .ok (t, lines)) : KeepsSessions s t := by
  unfold selectOwner at h
  split at h
  · cases h
  · obtain ⟨rfl, -⟩ := done_eq h
    exact .same rfl rfl rfl rfl rfl rfl

theorem putOwner_keepsSessions {p : PortId} {f v : String} {s t : State} {lines : List ReplyLine}
    (h : putOwner p f v s = .ok (t, lines)) : KeepsSessions s t := by
  unfold putOwner done at h
  repeat' split at h
  all_goals cases h <;> exact .same rfl rfl rfl rfl rfl rfl

theorem storeOwner_keepsSessions {p : PortId} {s t : State} {lines : List ReplyLine}
    (h : storeOwner p s = .ok (t, lines)) : KeepsSessions s t := by
  unfold storeOwner done at h; dsimp only at h
  split at h
  · repeat' split at h
    all_goals cases h
    next ho => exact (ownerStore_keepsSessions _ _ _ _ ho).trans (.same rfl rfl rfl rfl rfl rfl)
  · cases h

theorem readOwner_keepsSessions {p : PortId} {s t : State} {lines : List ReplyLine}
    (h : readOwner p s = .ok (t, lines)) : KeepsSessions s t := by
  unfold readOwner at h; dsimp only at h
  split at h <;> obtain ⟨rfl, -⟩ := done_eq h
  · exact .refl _
  · exact .same rfl rfl rfl rfl rfl rfl

theorem nextOwner_keepsSessions {p : PortId} {s t : State} {lines : List ReplyLine}
    (h : nextOwner p s = .ok (t, lines)) : KeepsSessions s t := by
  unfold nextOwner at h
  split at h <;> obtain ⟨rfl, -⟩ := done_eq h
  · exact .refl _
  · exact .same rfl rfl rfl rfl rfl rfl

theorem unknownLine_keepsSessions (p : PortId) (l : List Byte) (s : State) : KeepsSessions s (unknownLine p l s) := by
  have hb : ∀ c, KeepsSessions s (answerBad p c s) := fun c => by cases c <;> exact .same rfl rfl rfl rfl rfl rfl
  unfold unknownLine; dsimp only
  split
  · split
    · exact hb _
    · exact .refl s
  · split
    · exact hb _
    · exact .refl s
  · exact .refl s

theorem lineTimeout_keepsSessions (p : PortId) (s : State) : KeepsSessions s (lineTimeout p s) := by
  unfold lineTimeout; dsimp only; split <;> exact .same rfl rfl rfl rfl rfl rfl

theorem replySent_keepsSessions (p : PortId) (s : State) : KeepsSessions s (replySent p s) := by
  unfold replySent; dsimp only; split <;> exact .same rfl rfl rfl rfl rfl rfl

theorem portCharacter_keepsSessions (p : PortId) (c : Byte) (s : State) : KeepsSessions s (portCharacter p c s) := by
  unfold portCharacter; dsimp only; split <;> exact .same rfl rfl rfl rfl rfl rfl

/-! ### Device states (10) -/

theorem stateChanged_keepsSessions {s t : State} (v : Option Int) (h : KeepsSessions s t) :
    KeepsSessions s (stateChanged v t) := h.trans (stateChanged_noticed v t).keepsSessions

theorem enterState_keepsSessions {s t : State} (b : State) (d : DeviceState) (h : KeepsSessions s t) :
    KeepsSessions s (enterState b d t) := h.trans (enterState_startEq b d t).keepsSessions

theorem enterLoading_keepsSessions (g : SaveStage) (s : State) : KeepsSessions s (enterLoading g s) :=
  KeepsSessions.trans (t := { s with image := (enterLoading g s).image, save := none }) (.same rfl rfl rfl rfl rfl rfl)
    (enterLoading_eq g s).keepsSessions

theorem saveOwner_keepsSessions {s t : State} {lines : List ReplyLine} (h : saveOwner s = .ok (t, lines)) :
    KeepsSessions s t := by
  unfold saveOwner at h
  split at h
  · cases h
  · obtain ⟨rfl, -⟩ := done_eq h
    exact .same rfl rfl rfl rfl rfl rfl

theorem saveComplete_keepsSessions (r : ReadBack) (s : State) : KeepsSessions s (saveComplete r s) := by
  unfold saveComplete
  split
  · exact .refl s
  · split <;> exact raise_keepsSessions _ _ (.same rfl rfl rfl rfl rfl rfl)

theorem enterHoldover_keepsSessions {s t : State} (b : State) (h : KeepsSessions s t) :
    KeepsSessions s (enterHoldover b t) := by
  have hp : ∀ {u}, KeepsSessions s u → KeepsSessions s (stopPolling u) :=
    fun k => k.trans (.same rfl rfl rfl rfl rfl rfl)
  exact (hp (stateChanged_keepsSessions none
      (enterState_keepsSessions b .holdover (raise_keepsSessions .mainsLost {} h)))).trans
    (eachId_keepsSessions (fun n u => endSaleAt_keepsSessions b .mainsLost n (.refl u)) _)

theorem returnPedestal_keepsSessions (b : State) (n : PedestalId) (s : State) : KeepsSessions s (returnPedestal b n s) := by
  refine putPedestal_keepsSessions b ?_ (.refl s)
  dsimp only
  split <;> exact ⟨rfl, fun _ => rfl, rfl⟩

theorem PowerState.eq_waiting_of_restored {x : PowerState} (h : x.restored = .waiting) : x = .waiting := by
  revert h
  cases x <;> decide

/-- The return keeps what waits waiting (R120). -/
theorem returnSession_keepsSessions (b : State) (k : SocketId) (s : State) : KeepsSessions s (returnSession b k s) := by
  unfold returnSession
  split
  · exact .refl s
  · next x hx =>
    exact putPower_keepsSessions b hx rfl (fun h => .inl (PowerState.eq_waiting_of_restored h)) (.refl s)

theorem returnFeeder_keepsSessions (b : State) (f : FeederId) (s : State) : KeepsSessions s (returnFeeder b f s) := by
  have w : KeepsSessions s (modFeeder b f (fun x => { x with measured := 0, overload := 0, relief := none }) s) :=
    modFeeder_keepsSessions b f (fun _ => ⟨rfl, rfl⟩) (.refl s)
  unfold returnFeeder; dsimp only
  split
  · exact w
  · exact serve_keepsSessions b f w

theorem returnPump_keepsSessions (b : State) (n : PumpId) (s : State) : KeepsSessions s (returnPump b n s) := by
  unfold returnPump; dsimp only; split
  · exact putPump_keepsSessions b n _ (.refl s)
  · exact .refl s

theorem beginPolling_keepsSessions {s t : State} (h : KeepsSessions s t) : KeepsSessions s (beginPolling t) :=
  h.trans (.same rfl rfl rfl rfl rfl rfl)

theorem returnToOpen_keepsSessions {s t : State} (b : State) (h : KeepsSessions s t) :
    KeepsSessions s (returnToOpen b t) := by
  have hr : ∀ u, KeepsSessions u (beginPolling (eachId 4 (returnPump b) (eachId 16 (returnFeeder b)
      (eachId 512 (returnSession b) (eachId 256 (returnPedestal b) u))))) := fun u =>
    beginPolling_keepsSessions ((((eachId_keepsSessions (returnPedestal_keepsSessions b) u).trans
      (eachId_keepsSessions (returnSession_keepsSessions b) _)).trans
      (eachId_keepsSessions (returnFeeder_keepsSessions b) _)).trans
      (eachId_keepsSessions (returnPump_keepsSessions b) _))
  exact (stateChanged_keepsSessions none
    (enterState_keepsSessions b .opened (raise_keepsSessions .mainsBack {} h))).trans (hr _)

theorem mainsFall_keepsSessions (s : State) : KeepsSessions s (mainsFall s) := by
  have ht : KeepsSessions s { s with mainsOk := false } := .same rfl rfl rfl rfl rfl rfl
  unfold mainsFall
  split
  · exact .refl s
  · split
    · exact ht
    · exact raise_keepsSessions _ _ ht
    · exact enterHoldover_keepsSessions s ht
    · exact ht

theorem mainsRise_keepsSessions (s : State) : KeepsSessions s (mainsRise s) := by
  have ht : KeepsSessions s { s with mainsOk := true } := .same rfl rfl rfl rfl rfl rfl
  unfold mainsRise
  split
  · exact .refl s
  · split
    · exact ht
    · exact raise_keepsSessions _ _ ht
    · exact ht
    · exact returnToOpen_keepsSessions s ht

theorem openOwner_keepsSessions {s t : State} {lines : List ReplyLine} (h : openOwner s = .ok (t, lines)) :
    KeepsSessions s t := by
  have hv : KeepsSessions s { s with valid := true } := .same rfl rfl rfl rfl rfl rfl
  unfold openOwner at h; dsimp only at h
  split at h
  · cases h
  · obtain ⟨rfl, -⟩ := done_eq h
    split
    · exact stateChanged_keepsSessions none (enterState_keepsSessions s .opened hv)
    · exact enterHoldover_keepsSessions s hv

theorem setupOwner_keepsSessions {s t : State} {lines : List ReplyLine} (h : setupOwner s = .ok (t, lines)) :
    KeepsSessions s t := by
  unfold setupOwner at h
  split at h
  · cases h
  · obtain ⟨rfl, -⟩ := done_eq h
    exact stateChanged_keepsSessions none (enterState_keepsSessions s .setup (.refl s))

/-! ### Starts without records (R182, R186) -/

/-- With no session, every output off and every feeder at rest, the laws hold where each berth's socket is present. -/
theorem laws_of_no_sessions {t : State} (hp : ∀ k, t.power.get k = none) (hw : ∀ n, t.water.get n = none)
    (ha : ∀ a, (t.account a).power = none ∧ (t.account a).water = none)
    (hd : ∀ n, (∀ i, ((t.pedestal n).desired.get i).relay = false) ∧ (t.pedestal n).desiredValve = false)
    (hf : ∀ f, (t.feeder f).heldSum = 0 ∧ (t.feeder f).waitList = []) :
    OutputsOk t ∧ SessionsLinked t
      ∧ ((∀ n k, (t.berth n).cfg.socket = some k → socketPresent t k = true) → FeedersOk t) := by
  refine ⟨⟨fun n i e => ?_, fun n e => ?_⟩, SessionTies.linked ⟨fun k a => ?_, fun n a => ?_, fun a _ => ha a⟩,
    fun hnamed => FeederLaw.feedersOk ⟨hnamed, fun k hk => absurd (hp k) hk, fun f => ?_, fun f => ?_, fun f => ?_,
      fun f k => ?_⟩⟩
  · exact absurd (e.symm.trans ((hd n).1 i)) nofun
  · exact absurd (e.symm.trans (hd n).2) nofun
  · rw [powerOwner, hp]
    exact ⟨nofun, fun e => absurd ((ha a).1.symm.trans e) nofun⟩
  · rw [waterOwner, hw]
    exact ⟨nofun, fun e => absurd ((ha a).2.symm.trans e) nofun⟩
  · have hzero : ∀ l : List SocketId, (l.map fun k => heldOf (t.power.get k)).sum = 0 := fun l => by
      simp [hp, heldOf]
    rw [(hf f).1, heldOn, hzero]
  · rw [(hf f).2]; exact List.nodup_nil
  · rw [(hf f).2]; exact Nat.zero_le _
  · rw [(hf f).2, hp]; exact ⟨nofun, fun h => absurd h.2 Bool.false_ne_true⟩

theorem clearRecords_laws (s : State) : OutputsOk (clearRecords s) ∧ SessionsLinked (clearRecords s)
    ∧ ((∀ n k, ((clearRecords s).berth n).cfg.socket = some k → socketPresent (clearRecords s) k = true) →
      FeedersOk (clearRecords s)) := by
  have hacc : ∀ a, (clearRecords s).account a = coldAccount a := fun a => Table.get_build ..
  have hfeed : ∀ f, (clearRecords s).feeder f = coldFeeder (s.feeder f).cfg := fun f => Table.get_map ..
  refine laws_of_no_sessions (fun _ => Table.get_build ..) (fun _ => Table.get_build ..) (fun a => ?_) (fun n => ?_) fun f => ?_
  · rw [hacc]; exact ⟨rfl, rfl⟩
  · rw [clearRecords_pedestal]; exact ⟨fun _ => congrArg Desired.relay (Table.get_build ..), rfl⟩
  · rw [hfeed]; exact ⟨rfl, rfl⟩

/-- The configuration stays, and with it the sockets that berths name. -/
theorem clearRecords_keepsSessions (s : State) : KeepsSessions s (clearRecords s) := by
  obtain ⟨houtputs, hlinks, hfeeders⟩ := clearRecords_laws s
  have hcfg : ∀ n, ((clearRecords s).pedestal n).cfg = (s.pedestal n).cfg := fun n => by
    rw [clearRecords_pedestal]; rfl
  refine ⟨fun _ => houtputs, fun _ => hlinks, fun w => hfeeders fun n k e => ?_⟩
  rw [(sockets_congr hcfg).1]
  rw [clearRecords_berth] at e
  exact w.law.named n k e

/-- Every socket that a berth of the tables names is one of their pedestals' (R181 check 7). -/
def SiteTables.NamesPresent (c : SiteTables) : Prop :=
  ∀ n k, (c.berths.get n).cfg.socket = some k → c.hasSocket k = true

theorem loadTables_namesPresent {image : List Byte} {c : SiteTables} (h : loadTables image = some c) :
    c.NamesPresent := by
  have hagree : c.agree = true := by
    unfold loadTables at h
    split at h
    · cases h
    · split at h
      · cases h
      · split at h
        · next hok =>
          cases h
          exact (Bool.and_eq_true_iff.1 hok).2
        · cases h
  simp only [SiteTables.agree, Bool.and_eq_true, List.all_eq_true] at hagree
  obtain ⟨⟨⟨⟨-, hsockets⟩, -⟩, -⟩, -⟩ := hagree
  exact fun n k e => hsockets k (List.mem_filterMap.2 ⟨c.berths.get n, by simp [Table.toList, Table.get], e⟩)

theorem defaultTables_namesPresent : defaultTables.NamesPresent := fun n k e => by
  have hberth : defaultTables.berths.get n = defaultBerth n := by
    unfold defaultTables
    exact Table.get_build ..
  rw [hberth] at e
  cases e

theorem coldStart_keepsSessions {c : SiteTables} (hc : c.NamesPresent) (v : Int) (s : State) :
    KeepsSessions s (coldStart c v s) := by
  obtain ⟨houtputs, hlinks, hfeeders⟩ := clearRecords_laws (takeConfiguration c s)
  have hcfg : ∀ n, ((clearRecords (takeConfiguration c s)).pedestal n).cfg = c.pedestals.get n := fun n => by
    rw [clearRecords_pedestal, takeConfiguration_pedestal]; rfl
  have hberth : ∀ n, ((clearRecords (takeConfiguration c s)).berth n).cfg = (c.berths.get n).cfg := fun n => by
    rw [clearRecords_berth, takeConfiguration_berth]; rfl
  have hlaws := hfeeders fun n k e => by
    unfold socketPresent
    rw [hcfg]
    exact hc n k (hberth n ▸ e)
  have hrecords : KeepsSessions (clearRecords (takeConfiguration c s)) { coldRecords c s with valid := false } :=
    SameSessions.keeps ⟨rfl, rfl, fun _ => .refl _, fun _ => .refl _, fun _ => ⟨rfl, rfl⟩, fun n => by
      rw [hberth]
      show ((c.berths.map coldBerth).get n).cfg = _
      rw [Table.get_map]; rfl⟩
  exact KeepsSessions.trans ⟨fun _ => houtputs, fun _ => hlinks, fun _ => hlaws⟩
    (hrecords.trans (endLoading_startEq ..).keepsSessions)

/-! ### Step by step through the records -/

/-- A step at every record in turn, under an invariant, brings each record where its own step leaves it. -/
theorem eachId_reaches {n : Nat} {f : Fin n → State → State} {I : State → Prop} {Q : Fin n → State → Prop}
    (hinv : ∀ i s, I s → I (f i s)) (hown : ∀ i s, I s → Q i (f i s)) (hkeep : ∀ i j s, I s → Q j s → Q j (f i s))
    {s : State} (h : I s) : I (eachId n f s) ∧ ∀ i, Q i (eachId n f s) := by
  have hlist : ∀ (ids : List (Fin n)) (t : State), I t →
      I (eachOf ids f t) ∧ ∀ j, j ∈ ids ∨ Q j t → Q j (eachOf ids f t) := by
    intro ids
    induction ids with
    | nil => exact fun t ht => ⟨ht, fun j hj => hj.resolve_left nofun⟩
    | cons i ids ih =>
      intro t ht
      obtain ⟨hi, hq⟩ := ih (f i t) (hinv i t ht)
      refine ⟨hi, fun j hj => hq j ?_⟩
      rcases hj with hj | hj
      · rcases List.mem_cons.1 hj with rfl | hj
        · exact .inr (hown j t ht)
        · exact .inl hj
      · exact .inr (hkeep i j t ht hj)
  obtain ⟨hi, hq⟩ := hlist (List.finRange n) s h
  exact ⟨hi, fun j => hq j (.inl (List.mem_finRange j))⟩

/-! ### The sessions at a warm start (R121) -/

/-- The end of a session whose socket is gone, or nothing. -/
theorem endAbsentPower_cases (b : State) (k : SocketId) (s : State) :
    endAbsentPower b k s = s ∧ (s.power.get k ≠ none → socketPresent s k = true)
    ∨ ∃ x, s.power.get k = some x
      ∧ Noticed (modAccount b x.account (fun a => { a with power := none }) { s with power := s.power.put k none })
          (endAbsentPower b k s) := by
  unfold endAbsentPower
  split
  · next hx => exact .inl ⟨rfl, fun e => absurd hx e⟩
  · next x hx =>
    split
    · next hp => exact .inl ⟨rfl, fun _ => hp⟩
    · exact .inr ⟨x, hx, raise_noticed_self _ _ _⟩

/-- In LOADING a list is not served, so an end of power writes its slot and its account alone. -/
theorem endPower_loading_noticed (b : State) {k : SocketId} (why : PowerEnd) {s : State} {x : PowerSession}
    (hd : s.device = .loading) (hx : s.power.get k = some x) :
    Noticed (modAccount b x.account (fun a => { a with power := none }) (putPower b k none s)) (endPower b k why s) := by
  unfold endPower
  rw [hx]
  dsimp only
  unfold serve
  rw [if_pos (.inl (by rw [raise_device]; exact hd))]
  exact raise_noticed_self _ _ _

/-- The feeders' law but for the WAITING sessions that are on no list yet, in LOADING. -/
structure RejoinLaw (s : State) : Prop where
  loading : s.device = .loading
  named : ∀ n k, (s.berth n).cfg.socket = some k → socketPresent s k = true
  present : ∀ k, s.power.get k ≠ none → socketPresent s k = true
  sum : ∀ f, (s.feeder f).heldSum = heldOn s f
  nodup : ∀ f, (s.feeder f).waitList.Nodup
  room : ∀ f, (s.feeder f).waitList.length ≤ Config.waitListRoom
  mem : ∀ f k, k ∈ (s.feeder f).waitList → feederOf s k = f ∧ isWaiting (s.power.get k) = true

/-- A WAITING session is on the list of its feeder. -/
def Enlisted (k : SocketId) (s : State) : Prop :=
  isWaiting (s.power.get k) = true → k ∈ (s.feeder (feederOf s k)).waitList

theorem RejoinLaw.law {s : State} (h : RejoinLaw s) (hk : ∀ k, Enlisted k s) : FeederLaw s :=
  ⟨h.named, h.present, h.sum, h.nodup, h.room, fun f k =>
    ⟨h.mem f k, fun e => by have hin := hk k e.2; rw [e.1] at hin; exact hin⟩⟩

/-- What the law of rejoining reads is as it was. -/
theorem RejoinLaw.noticed {s t : State} (h : RejoinLaw s) (hn : Noticed s t) : RejoinLaw t := by
  rw [hn.eq]
  exact ⟨h.loading, h.named, h.present, h.sum, h.nodup, h.room, h.mem⟩

theorem Enlisted.noticed {k : SocketId} {s t : State} (h : Enlisted k s) (hn : Noticed s t) : Enlisted k t := by
  rw [hn.eq]
  exact h

/-- A session that is on no list leaves its slot: no list changes. -/
theorem RejoinLaw.clear {b s : State} {k : SocketId} {x : PowerSession} (h : RejoinLaw s)
    (hk : k ∉ (s.feeder (feederOf s k)).waitList) :
    RejoinLaw (modAccount b x.account (fun a => { a with power := none }) (putPower b k none s))
      ∧ ∀ j, Enlisted j s →
        Enlisted j (modAccount b x.account (fun a => { a with power := none }) (putPower b k none s)) := by
  obtain ⟨hpresent, hof, -⟩ := sockets_congr fun n => (putPower_pedestal_rest b k none s n).1
  have hslot : ∀ m, (putPower b k none s).power.get m = if k = m then none else s.power.get m := fun m => by
    rw [putPower_power, Table.get_put]
  have hlist : ∀ f, ((putPower b k none s).feeder f).waitList = (s.feeder f).waitList := fun f => by
    rw [putPower_feeder]
    split
    · next hf =>
      subst hf
      show waitListAfter _ _ _ _ = _
      rw [waitListAfter_eq]
      split
      · rfl
      · exact List.filter_eq_self.2 fun m hm => by simpa using fun e : m = k => hk (e ▸ hm)
    · rfl
  refine ⟨⟨h.loading, fun n m e => ?_, fun m e => ?_, fun f => putPower_heldOn (fun e => absurd rfl e) h.present (h.sum f),
    fun f => ?_, fun f => ?_, fun f m hm => ?_⟩, fun j hj hw => ?_⟩
  · exact (hpresent m).trans (h.named n m e)
  · have e' : (putPower b k none s).power.get m ≠ none := e
    rw [hslot] at e'
    split at e'
    · exact absurd rfl e'
    · exact (hpresent m).trans (h.present m e')
  · exact (hlist f).symm ▸ h.nodup f
  · exact (congrArg List.length (hlist f)).le.trans (h.room f)
  · have hin : m ∈ (s.feeder f).waitList := (hlist f) ▸ hm
    obtain ⟨hf, hw⟩ := h.mem f m hin
    refine ⟨(hof m).trans hf, (congrArg isWaiting (hslot m)).trans ?_⟩
    rw [if_neg fun e => hk (by rw [e, hf]; exact hin)]
    exact hw
  · have hw' : isWaiting ((putPower b k none s).power.get j) = true := hw
    rw [hslot] at hw'
    show j ∈ ((putPower b k none s).feeder (feederOf (putPower b k none s) j)).waitList
    rw [hlist, hof]
    split at hw'
    · cases hw'
    · exact hj hw'

/-- A WAITING session joins the tail of its feeder's list. -/
theorem RejoinLaw.append {b s : State} {k : SocketId} (h : RejoinLaw s) (hw : isWaiting (s.power.get k) = true)
    (hk : k ∉ (s.feeder (feederOf s k)).waitList)
    (hroom : (s.feeder (feederOf s k)).waitList.length < Config.waitListRoom) :
    RejoinLaw (modFeeder b (feederOf s k) (fun x => { x with waitList := x.waitList ++ [k] }) s)
      ∧ Enlisted k (modFeeder b (feederOf s k) (fun x => { x with waitList := x.waitList ++ [k] }) s)
      ∧ ∀ j, Enlisted j s →
        Enlisted j (modFeeder b (feederOf s k) (fun x => { x with waitList := x.waitList ++ [k] }) s) := by
  generalize ht : modFeeder b (feederOf s k) (fun x => { x with waitList := x.waitList ++ [k] }) s = t
  have hsum : ∀ f, (t.feeder f).heldSum = (s.feeder f).heldSum := fun f => by
    rw [← ht, modFeeder_feeder]; split
    · next e => subst e; rfl
    · rfl
  have hlist : ∀ f, (t.feeder f).waitList =
      if feederOf s k = f then (s.feeder f).waitList ++ [k] else (s.feeder f).waitList := fun f => by
    rw [← ht, modFeeder_feeder]; split
    · next e => subst e; rfl
    · rfl
  have hgrows : ∀ f m, m ∈ (s.feeder f).waitList → m ∈ (t.feeder f).waitList := fun f m hm => by
    rw [hlist]; split
    · exact List.mem_append_left _ hm
    · exact hm
  have heq : t = { s with feeders := t.feeders } := ht ▸ rfl
  have hself : k ∈ (t.feeder (feederOf t k)).waitList := by
    rw [show feederOf t k = feederOf s k by rw [heq]; rfl, hlist, if_pos rfl]
    exact List.mem_append_right _ (List.mem_singleton_self k)
  refine ⟨⟨?_, fun n m e => ?_, fun m e => ?_, fun f => ?_, fun f => ?_, fun f => ?_, fun f m hm => ?_⟩, fun _ => hself,
    fun j hj hw' => ?_⟩
  · rw [heq]; exact h.loading
  · rw [heq] at e ⊢; exact h.named n m e
  · rw [heq] at e ⊢; exact h.present m e
  · rw [hsum]
    refine (h.sum f).trans ?_
    rw [heq]; rfl
  · rw [hlist]
    split
    · next e =>
      subst e
      rw [List.nodup_append]
      refine ⟨h.nodup _, List.nodup_singleton k, fun m hm n hn e => hk ?_⟩
      exact (e.trans (List.mem_singleton.1 hn)) ▸ hm
    · exact h.nodup f
  · rw [hlist]
    split
    · next e =>
      subst e
      simpa using hroom
    · exact h.room f
  · have hm' : m ∈ (s.feeder f).waitList ∨ feederOf s k = f ∧ m = k := by
      rw [hlist] at hm
      split at hm
      · next e => exact (List.mem_append.1 hm).imp id fun hmk => ⟨e, List.mem_singleton.1 hmk⟩
      · exact .inl hm
    rw [heq]
    rcases hm' with hm' | ⟨hf, rfl⟩
    · exact h.mem f m hm'
    · exact ⟨hf, hw⟩
  · have hof : feederOf t j = feederOf s j := by rw [heq]; rfl
    rw [hof]
    exact hgrows _ j (hj (by rw [heq] at hw'; exact hw'))

theorem rejoin_cases {b s : State} (k : SocketId) (h : RejoinLaw s) :
    RejoinLaw (rejoin b k s) ∧ Enlisted k (rejoin b k s) ∧ ∀ j, Enlisted j s → Enlisted j (rejoin b k s) := by
  unfold rejoin waitsOn; dsimp only
  split
  · next hj =>
    simp only [Bool.and_eq_true, Bool.not_eq_true', List.contains_eq_mem, decide_eq_false_iff_not] at hj
    obtain ⟨hw, hk⟩ := hj
    split
    · next hroom => exact h.append hw hk hroom
    · obtain ⟨x, hx, -⟩ := isWaiting_iff.1 hw
      have hn := endPower_loading_noticed b .full h.loading hx
      obtain ⟨hlaw, hothers⟩ := h.clear (b := b) (x := x) hk
      refine ⟨hlaw.noticed hn, fun e => ?_, fun j hj => (hothers j hj).noticed hn⟩
      rw [show (endPower b k .full s).power = s.power.put k none by rw [hn.eq]; rfl, Table.get_put_self] at e
      cases e
  · next hj =>
    refine ⟨h, fun hw => ?_, fun _ => id⟩
    simp only [hw, Bool.true_and, Bool.not_eq_true', Bool.not_eq_false, List.contains_eq_mem, decide_eq_true_eq] at hj
    exact hj

/-! ### Steps 1 and 2 of R121 under the three laws -/

/-- What the law of rejoining asks of the records before the sessions are looked at. -/
structure RetainedLaw (s : State) : Prop where
  named : ∀ n k, (s.berth n).cfg.socket = some k → socketPresent s k = true
  nodup : ∀ f, (s.feeder f).waitList.Nodup
  room : ∀ f, (s.feeder f).waitList.length ≤ Config.waitListRoom

/-- Sessions whose sockets are gone end, and no list changes (R121 step 1). -/
theorem eachId_endAbsentPower_present (b : State) {s : State} (h : RetainedLaw s) :
    RetainedLaw (eachId 512 (endAbsentPower b) s)
      ∧ ∀ k, (eachId 512 (endAbsentPower b) s).power.get k ≠ none →
        socketPresent (eachId 512 (endAbsentPower b) s) k = true := by
  have hsame : ∀ k t, (endAbsentPower b k t).berths = t.berths ∧ (endAbsentPower b k t).pedestals = t.pedestals
      ∧ (endAbsentPower b k t).feeders = t.feeders := fun k t => by
    rcases endAbsentPower_cases b k t with ⟨e, -⟩ | ⟨x, -, hn⟩
    · rw [e]; exact ⟨rfl, rfl, rfl⟩
    · rw [hn.eq]; exact ⟨rfl, rfl, rfl⟩
  have hpresent : ∀ k t, socketPresent (endAbsentPower b k t) = socketPresent t := fun k t => by
    unfold socketPresent State.pedestal
    rw [(hsame k t).2.1]
  refine eachId_reaches (I := RetainedLaw) (Q := fun k t => t.power.get k ≠ none → socketPresent t k = true)
    (fun k t ht => ?_) (fun k t _ e => ?_) (fun k j t _ hj e => ?_) h
  · obtain ⟨hberths, -, hfeeders⟩ := hsame k t
    refine ⟨fun n m e => ?_, fun f => ?_, fun f => ?_⟩
    · rw [hpresent]
      rw [State.berth, hberths] at e
      exact ht.named n m e
    · rw [State.feeder, hfeeders]; exact ht.nodup f
    · rw [State.feeder, hfeeders]; exact ht.room f
  · rw [hpresent]
    rcases endAbsentPower_cases b k t with ⟨heq, hp⟩ | ⟨x, -, hn⟩
    · rw [heq] at e; exact hp e
    · rw [hn.eq] at e
      exact absurd (Table.get_put_self ..) e
  · rw [hpresent]
    rcases endAbsentPower_cases b k t with ⟨heq, -⟩ | ⟨x, -, hn⟩
    · rw [heq] at e; exact hj e
    · have hslot : (endAbsentPower b k t).power.get j = if k = j then none else t.power.get j := by
        rw [hn.eq]
        exact Table.get_put ..
      rw [hslot] at e
      split at e
      · exact absurd rfl e
      · exact hj e

/-- Water sessions touch none of this. -/
theorem endAbsentWater_powerEq (b : State) (k : TapId) (s : State) :
    let t := endAbsentWater b k s
    t.power = s.power ∧ t.berths = s.berths ∧ t.feeders = s.feeders ∧ ∀ n, (t.pedestal n).cfg = (s.pedestal n).cfg := by
  have hserved := endAbsentWater_served b k (.refl s)
  have hend : ∀ u : State, (endWater b k .restart u).power = u.power ∧ (endWater b k .restart u).feeders = u.feeders :=
    fun u => by
      unfold endWater
      split
      · exact ⟨rfl, rfl⟩
      · exact ⟨raise_power .., raise_feeders ..⟩
  refine ⟨?_, by rw [hserved.eq], ?_, fun n => by rw [hserved.outputs n]⟩
  · unfold endAbsentWater; split
    · rfl
    · exact (hend s).1
  · unfold endAbsentWater; split
    · rfl
    · exact (hend s).2

theorem eachId_endAbsentWater_powerEq (b s : State) :
    let t := eachId 256 (endAbsentWater b) s
    t.power = s.power ∧ t.berths = s.berths ∧ t.feeders = s.feeders ∧ ∀ n, (t.pedestal n).cfg = (s.pedestal n).cfg :=
  eachId_keeps (f := endAbsentWater b) (P := fun t => t.power = s.power ∧ t.berths = s.berths ∧ t.feeders = s.feeders
      ∧ ∀ n, (t.pedestal n).cfg = (s.pedestal n).cfg)
    (fun k t ⟨hp, hb, hf, hc⟩ => by
      obtain ⟨hp', hb', hf', hc'⟩ := endAbsentWater_powerEq b k t
      exact ⟨hp'.trans hp, hb'.trans hb, hf'.trans hf, fun n => (hc' n).trans (hc n)⟩)
    ⟨rfl, rfl, rfl, fun _ => rfl⟩

/-- The feeders agree with the sessions present, and only a WAITING session may be missing from a list (R121). -/
theorem FeedersAgreed.rejoinLaw {s t : State} (h : FeedersAgreed s t) (hd : s.device = .loading) (hr : RetainedLaw s)
    (hp : ∀ k, s.power.get k ≠ none → socketPresent s k = true) : RejoinLaw t := by
  obtain ⟨heq, hfeeder⟩ := h
  have hsum : ∀ f, (t.feeder f).heldSum = heldOn s f := fun f => by unfold heldOn; rw [hfeeder f]
  have hlist : ∀ f, (t.feeder f).waitList =
      (s.feeder f).waitList.filter fun k => isWaiting (s.power.get k) && feederOf s k = f := fun f => by rw [hfeeder f]
  refine ⟨by rw [heq]; exact hd, fun n k e => ?_, fun k e => ?_, fun f => ?_, fun f => ?_, fun f => ?_, fun f k hk => ?_⟩
  · rw [heq] at e ⊢; exact hr.named n k e
  · rw [heq] at e ⊢; exact hp k e
  · have hpeds : t.pedestals = s.pedestals := by rw [heq]
    have hpower : t.power = s.power := by rw [heq]
    obtain ⟨-, -, hsockets⟩ := sockets_congr (s := s) (t := t) fun n => by unfold State.pedestal; rw [hpeds]
    rw [hsum, heldOn, heldOn, hsockets, hpower]
  · rw [hlist]; exact (hr.nodup f).filter _
  · rw [hlist]; exact (List.length_filter_le _ _).trans (hr.room f)
  · rw [hlist, List.mem_filter, Bool.and_eq_true, decide_eq_true_eq] at hk
    rw [heq]
    exact ⟨hk.2.2, hk.2.1⟩

/-- RESTORING and its like leave the held amps, and what waits waits on. -/
theorem SessionsRestored.feedersOk {s t : State} (h : SessionsRestored s t) (law : FeederLaw s) : FeedersOk t := by
  obtain ⟨heq, hpower, -, hped⟩ := h
  have hfeeder : ∀ f, t.feeder f = s.feeder f := fun f => by rw [heq]; rfl
  have hberth : ∀ n, t.berth n = s.berth n := fun n => by rw [heq]; rfl
  obtain ⟨hpresent, hof, hsockets⟩ := sockets_congr (s := s) (t := t) fun n => by rw [hped n]
  have hslot : ∀ k, (t.power.get k = none ↔ s.power.get k = none) ∧ heldOf (t.power.get k) = heldOf (s.power.get k)
      ∧ isWaiting (t.power.get k) = isWaiting (s.power.get k) := fun k => by
    rw [hpower]
    cases s.power.get k with
    | none => exact ⟨Iff.rfl, rfl, rfl⟩
    | some x =>
      refine ⟨by simp, rfl, ?_⟩
      show decide ((if x.state = .live ∨ x.state = .switching then PowerState.restoring else x.state) = .waiting)
        = decide (x.state = .waiting)
      cases x.state <;> rfl
  refine FeederLaw.feedersOk ⟨fun n k e => ?_, fun k hk => ?_, fun f => ?_, fun f => ?_, fun f => ?_, fun f k => ?_⟩
  · rw [hpresent]; exact law.named n k (hberth n ▸ e)
  · rw [hpresent]; exact law.present k fun e => hk ((hslot k).1.2 e)
  · rw [hfeeder, heldOn, hsockets]
    exact (law.sum f).trans (congrArg List.sum (List.map_congr_left fun k _ => (hslot k).2.1.symm))
  · rw [hfeeder]; exact law.nodup f
  · rw [hfeeder]; exact law.room f
  · rw [hfeeder, hof, (hslot k).2.2]; exact law.mem f k

theorem SessionsRestored.outputsOk {s t : State} (h : SessionsRestored s t) : OutputsOk t := by
  obtain ⟨-, -, -, hped⟩ := h
  refine ⟨fun n i (e : ((t.pedestal n).desired.get i).relay = true) => ?_, fun n (e : (t.pedestal n).desiredValve = true) => ?_⟩
  · rw [hped n] at e
    dsimp only at e
    rw [Table.get_build] at e
    exact (Option.any_eq_true _ _).1 e
  · rw [hped n] at e
    exact (Option.any_eq_true _ _).1 e

theorem SessionsRestored.links {s t : State} (h : SessionsRestored s t) (w : SessionTies s) : SessionTies t := by
  obtain ⟨heq, hpower, hwater, -⟩ := h
  refine w.of_same (fun k => ?_) (fun n => ?_) fun a => ?_
  · unfold powerOwner
    rw [hpower, Option.map_map]
    rfl
  · unfold waterOwner
    rw [hwater, Option.map_map]
    rfl
  · rw [show t.account a = s.account a by rw [heq]; rfl]
    exact .refl _

/-- A step that keeps the law of links keeps it through a table. -/
theorem eachId_ties {n : Nat} {f : Fin n → State → State} (hf : ∀ i s, SessionTies s → SessionTies (f i s)) {s : State}
    (w : SessionTies s) : SessionTies (eachId n f s) := eachId_keeps (P := SessionTies) (fun i _ => hf i _) w

theorem endAbsentPower_ties (b : State) (k : SocketId) (s : State) (w : SessionTies s) :
    SessionTies (endAbsentPower b k s) := by
  rcases endAbsentPower_cases b k s with ⟨e, -⟩ | ⟨x, hx, hn⟩
  · rw [e]; exact w
  · have hclear := w.clearPower b (u := { s with power := s.power.put k none }) hx (fun m => by
      unfold powerOwner
      dsimp only
      rw [Table.get_put]
      split <;> rfl) rfl rfl
    exact (hn.keepsSessions.links hclear.linked).ties

theorem endAbsentWater_ties (b : State) (k : TapId) (s : State) (w : SessionTies s) :
    SessionTies (endAbsentWater b k s) := by
  unfold endAbsentWater
  split
  · exact w
  · exact ((endWater_keepsSessions b k .restart (.refl s)).links w.linked).ties

theorem rejoin_ties (b : State) (k : SocketId) (s : State) (w : SessionTies s) : SessionTies (rejoin b k s) := by
  unfold rejoin; dsimp only
  split
  · split
    · exact w.of_same (fun _ => rfl) (fun _ => rfl) fun _ => .refl _
    · exact ((endPower_keepsSessions b k .full (.refl s)).links w.linked).ties
  · exact w

/-- The retained records under the tables taken: the accounts and slots, the wait lists, the tables' berths and sockets. -/
theorem warmRecords_eq (c : SiteTables) (s : State) :
    (warmRecords c s).power = s.power ∧ (warmRecords c s).water = s.water ∧ (warmRecords c s).accounts = s.accounts
      ∧ (∀ f, ((warmRecords c s).feeder f).waitList = (s.feeder f).waitList)
      ∧ (∀ n, ((warmRecords c s).berth n).cfg = (c.berths.get n).cfg)
      ∧ ∀ n, ((warmRecords c s).pedestal n).cfg = c.pedestals.get n := by
  refine ⟨rfl, rfl, rfl, fun f => ?_, fun n => ?_, fun n => ?_⟩
  · rw [show (warmRecords c s).feeder f = (takeConfiguration c s).feeder f from rfl, takeConfiguration_feeder]
  · rw [show (warmRecords c s).berth n = (takeConfiguration c s).berth n from rfl, takeConfiguration_berth]
  · show (((takeConfiguration c s).pedestals.map Pedestal.reloaded).get n).cfg = _
    rw [Table.get_map]
    exact congrArg Pedestal.cfg (takeConfiguration_pedestal c s n)

/-- The records before the outputs are set: linked if they were, and every wait list and held sum of its sessions (R121 step 1). -/
theorem reconcileSessions_steps {b : State} (hd : b.device = .loading) :
    ∃ v, SessionsRestored v (reconcileSessions b b) ∧ (SessionTies b → SessionTies v) ∧ (RetainedLaw b → FeederLaw v) := by
  unfold reconcileSessions
  have h1 : Served b (eachId 512 (endAbsentPower b) b) :=
    eachId_served (fun k t => endAbsentPower_served b k (.refl t)) b
  have w1 (w : SessionTies b) := eachId_ties (endAbsentPower_ties b) w
  have r1 (h : RetainedLaw b) := eachId_endAbsentPower_present b h
  generalize eachId 512 (endAbsentPower b) b = v1 at h1 w1 r1
  have h2 : Served v1 (eachId 256 (endAbsentWater b) v1) :=
    eachId_served (fun k t => endAbsentWater_served b k (.refl t)) v1
  have w2 (w : SessionTies b) := eachId_ties (endAbsentWater_ties b) (w1 w)
  have r2 := eachId_endAbsentWater_powerEq b v1
  generalize eachId 256 (endAbsentWater b) v1 = v2 at h2 w2 r2
  have hd2 : v2.device = .loading := (h2.device.trans h1.device).trans hd
  have w3 (w : SessionTies b) := eachId_ties (f := agreeFeeder b)
    (fun f t ht => ht.of_same (fun _ => rfl) (fun _ => rfl) fun _ => .refl _) (w2 w)
  have r3 := agreeFeeder_agreed b v2
  generalize eachId 16 (agreeFeeder b) v2 = v3 at w3 r3
  have w4 (w : SessionTies b) := eachId_ties (rejoin_ties b) (w3 w)
  have r4 (h : RejoinLaw v3) := eachId_reaches (f := rejoin b) (I := RejoinLaw) (Q := Enlisted)
    (fun k _ ht => (rejoin_cases k ht).1) (fun k _ ht => (rejoin_cases k ht).2.1)
    (fun k j _ ht => (rejoin_cases k ht).2.2 j) h
  generalize eachId 512 (rejoin b) v3 = v4 at w4 r4
  refine ⟨v4, setOutputs_restored b v4, w4, fun h => ?_⟩
  obtain ⟨hretained, hpresent⟩ := r1 h
  obtain ⟨hpower, hberths, hfeeders, hcfg⟩ := r2
  obtain ⟨hsame, -, -⟩ := sockets_congr hcfg
  have hretained2 : RetainedLaw v2 :=
    ⟨fun n k e => by
        rw [hsame]
        rw [State.berth, hberths] at e
        exact hretained.named n k e,
      fun f => by rw [State.feeder, hfeeders]; exact hretained.nodup f,
      fun f => by rw [State.feeder, hfeeders]; exact hretained.room f⟩
  obtain ⟨h4, hall⟩ := r4 (r3.rejoinLaw hd2 hretained2 fun k e => by
    rw [hsame]
    rw [hpower] at e
    exact hpresent k e)
  exact h4.law hall

/-- Steps 1 and 2 of R121 set each law right: outputs from the sessions, links session by session, feeders from what is present. -/
theorem reconcileSessions_laws {c : SiteTables} (hc : c.NamesPresent) {s : State} (hd : s.device = .loading) :
    KeepsSessions s (reconcileSessions (warmRecords c s) (warmRecords c s)) := by
  obtain ⟨hpower, hwater, haccounts, hlists, hberths, hpeds⟩ := warmRecords_eq c s
  have hdevice : (warmRecords c s).device = .loading := hd
  generalize warmRecords c s = b at hpower hwater haccounts hlists hberths hpeds hdevice
  have hretained (w : FeedersOk s) : RetainedLaw b :=
    ⟨fun n k e => by
        unfold socketPresent
        rw [hpeds]
        exact hc n k (hberths n ▸ e),
      fun f => by rw [hlists]; exact w.law.nodup f, fun f => by rw [hlists]; exact w.law.room f⟩
  have hties (w : SessionsLinked s) : SessionTies b :=
    w.ties.of_same (fun k => by rw [powerOwner, hpower]; rfl) (fun n => by rw [waterOwner, hwater]; rfl)
      fun a => by rw [State.account, State.account, haccounts]; exact .refl _
  obtain ⟨v, hv, hlinks, hlaw⟩ := reconcileSessions_steps hdevice
  exact ⟨fun _ => hv.outputsOk, fun w => (hv.links (hlinks (hties w))).linked, fun w => hv.feedersOk (hlaw (hretained w))⟩

/-! ### The rest of a warm start -/

theorem clampTank_keepsSessions (b : State) (k : ProductId) (s : State) : KeepsSessions s (clampTank b k s) := by
  unfold clampTank; dsimp only
  refine settleLow_keepsSessions b k _ ?_
  split
  · exact raise_keepsSessions _ _ (.refl s)
  · exact .refl s

theorem relieveOne_keepsSessions {b s t u : State} {f : FeederId} (e : relieveOne b f t = some u)
    (h : KeepsSessions s t) : KeepsSessions s u := by
  have hf (k : SocketId) (hk : mostRecent t f .restoring false = some k) : feederOf t k = f := by
    obtain ⟨y, ⟨-, hfeeder, -⟩, -⟩ := mostRecent_some hk
    exact hfeeder
  unfold relieveOne at e
  split at e
  · split at e
    · cases e
    · next hx =>
      cases e
      exact reliefNotice_keepsSessions _ _ _ (putPower_keepsSessions b hx rfl .inl h)
  · split at e
    · cases e
    · next hk =>
      split at e
      · cases e
      · next hx =>
        split at e
        · next hroom =>
          cases e
          exact reliefNotice_keepsSessions _ _ _
            (putPower_keepsSessions b hx rfl (fun _ => .inr (by rw [hf _ hk]; exact hroom)) h)
        · cases e
          exact reliefNotice_keepsSessions _ _ _ (endPower_keepsSessions b _ _ h)

theorem relieveLoaded_keepsSessions {s : State} (b : State) (f : FeederId) :
    ∀ (n : Nat) {t : State}, KeepsSessions s t → KeepsSessions s (relieveLoaded b f n t)
  | 0, _, h => h
  | n + 1, t, h => by
    unfold relieveLoaded
    split
    · exact h
    · cases e : relieveOne b f t with
      | none => exact h
      | some u => exact relieveLoaded_keepsSessions b f n (relieveOne_keepsSessions e h)

theorem serveAll_keepsSessions (b s : State) : KeepsSessions s (serveAll b s) :=
  eachId_keepsSessions (fun f t => serve_keepsSessions b f (.refl t)) s

/-- Steps 1 to 4 of R121, R146 and R19. -/
theorem reconcile_keepsSessions {c : SiteTables} (hc : c.NamesPresent) {s : State} (hd : s.device = .loading) :
    KeepsSessions s (reconcile (warmRecords c s) (warmRecords c s)) := by
  unfold reconcile
  have h0 := reconcileSessions_laws hc hd
  generalize warmRecords c s = b at h0
  generalize reconcileSessions b b = v0 at h0
  have h1 := h0.trans (eachId_keepsSessions (fun n u => endSaleAt_keepsSessions b .restart n (.refl u)) v0)
  generalize eachId 4 (endSaleAt b .restart) v0 = v1 at h1
  have h2 := h1.trans (eachId_keepsSessions (fun k u => clampTank_keepsSessions b k u) v1)
  generalize eachId 2 (clampTank b) v1 = v2 at h2
  have h3 := h2.trans (eachId_keepsSessions (fun a u => evaluateStanding_keepsSessions b a (.refl u)) v2)
  generalize eachId 512 (evaluateStanding b) v2 = v3 at h3
  exact h3.trans (eachId_keepsSessions (fun f u => relieveLoaded_keepsSessions b f 1024 (.refl u)) v3)

theorem warmEnd_keepsSessions (b u : State) (d : DeviceState) :
    KeepsSessions u (endLoading b d 1 (serveAll b { u with device := d })) :=
  KeepsSessions.trans (t := { u with device := d }) (.same rfl rfl rfl rfl rfl rfl)
    ((serveAll_keepsSessions b _).trans (endLoading_startEq b d 1 _).keepsSessions)

theorem warmStart_keepsSessions {c : SiteTables} (hc : c.NamesPresent) {s : State} (hd : s.device = .loading) :
    KeepsSessions s (warmStart c s) :=
  (reconcile_keepsSessions hc hd).trans
    (warmEnd_keepsSessions (warmRecords c s) (reconcile (warmRecords c s) (warmRecords c s))
      (tradingState (reconcile (warmRecords c s) (warmRecords c s))))

theorem loadComplete_keepsSessions (answers : Bool) (s : State) : KeepsSessions s (loadComplete answers s) := by
  unfold loadComplete
  split
  · exact .refl s
  · next hd =>
    split
    · exact coldStart_keepsSessions defaultTables_namesPresent ..
    · next c e =>
      have hc : c.NamesPresent := by
        split at e
        · exact loadTables_namesPresent e
        · cases e
      split
      · exact warmStart_keepsSessions hc (not_not.1 hd)
      · exact coldStart_keepsSessions hc ..

theorem restartAfterReply_keepsSessions (o : Origin) (s : State) : KeepsSessions s (restartAfterReply o s) :=
  (enterLoading_keepsSessions .beforeErase s).trans (.same rfl rfl rfl rfl rfl rfl)

/-! ### Every command -/

/-- Every command keeps the laws of R87, R95, R99 and R101. -/
theorem exec_keepsSessions (c : Instr) (s : State) : ∃ t, exec c s = .next t ∧ KeepsSessions s t := by
  cases c with
  | openAccount => exact ⟨_, rfl, portCommand_keepsSessions openAccountOwner_keepsSessions⟩
  | closeAccount => exact ⟨_, rfl, portCommand_keepsSessions fun h => have ⟨_, _, h⟩ := onOpenAccount_ok h; closeThis_keepsSessions h⟩
  | credit => exact ⟨_, rfl, portCommand_keepsSessions fun h =>
      have ⟨_, _, h⟩ := onOpenAccount_ok h; creditThis_keepsSessions h⟩
  | debit => exact ⟨_, rfl, portCommand_keepsSessions fun h =>
      have ⟨_, _, h⟩ := onOpenAccount_ok h; debitThis_keepsSessions h⟩
  | bar => exact ⟨_, rfl, portCommand_keepsSessions fun h =>
      have ⟨_, _, h⟩ := onOpenAccount_ok h; barThis_keepsSessions h⟩
  | unbar => exact ⟨_, rfl, portCommand_keepsSessions fun h =>
      have ⟨_, _, h⟩ := onOpenAccount_ok h; unbarThis_keepsSessions h⟩
  | allocate => exact ⟨_, rfl, portCommand_keepsSessions allocateOwner_keepsSessions⟩
  | reserve => exact ⟨_, rfl, portCommand_keepsSessions reserveOwner_keepsSessions⟩
  | cancel => exact ⟨_, rfl, portCommand_keepsSessions fun h => have ⟨_, h⟩ := onAccount_ok h; cancelThis_keepsSessions h⟩
  | arrive => exact ⟨_, rfl, portCommand_keepsSessions arriveOwner_keepsSessions⟩
  | move => exact ⟨_, rfl, portCommand_keepsSessions moveOwner_keepsSessions⟩
  | depart => exact ⟨_, rfl, portCommand_keepsSessions fun h => have ⟨_, h⟩ := onAccount_ok h; departThis_keepsSessions h⟩
  | setClock => exact ⟨_, rfl, portCommand_keepsSessions setClockOwner_keepsSessions⟩
  | clockAdvance => exact ⟨_, rfl, event_keepsSessions (testRollover_keepsSessions (.same rfl rfl rfl rfl rfl rfl))⟩
  | rolloverStep => exact ⟨_, rfl, event_keepsSessions (rolloverStep_keepsSessions _)⟩
  | rolloverComplete => exact ⟨_, rfl, event_keepsSessions (rolloverComplete_keepsSessions _)⟩
  | pollDue => exact ⟨_, rfl, event_keepsSessions (pollDue_keepsSessions _ _)⟩
  | pollSend => exact ⟨_, rfl, event_keepsSessions (pollSend_keepsSessions _ _)⟩
  | lineBusy => exact ⟨_, rfl, event_keepsSessions (lineBusy_keepsSessions _ _)⟩
  | pedestalReply => exact ⟨_, rfl, event_keepsSessions (pedestalReply_keepsSessions _ _)⟩
  | noReply => exact ⟨_, rfl, event_keepsSessions (noReply_keepsSessions _ _)⟩
  | reliefHoldExpiry => exact ⟨_, rfl, event_keepsSessions (reliefExpiry_keepsSessions _ _)⟩
  | requestPower => exact ⟨_, rfl, portCommand_keepsSessions fun h => requestPowerOwner_keepsSessions h⟩
  | resetSocket => exact ⟨_, rfl, portCommand_keepsSessions fun h => resetSocketOwner_keepsSessions h⟩
  | endPower => exact ⟨_, rfl, portCommand_keepsSessions fun h => endPowerOwner_keepsSessions h⟩
  | requestWater => exact ⟨_, rfl, portCommand_keepsSessions fun h => requestWaterOwner_keepsSessions h⟩
  | endWater => exact ⟨_, rfl, portCommand_keepsSessions fun h => endWaterOwner_keepsSessions h⟩
  | sell => exact ⟨_, rfl, portCommand_keepsSessions fun h => sellOwner_keepsSessions h⟩
  | pumpPoll => exact ⟨_, rfl, event_keepsSessions (pumpPoll_keepsSessions _)⟩
  | pumpReply => exact ⟨_, rfl, event_keepsSessions (pumpReply_keepsSessions _ _)⟩
  | noLiftTimerExpiry => exact ⟨_, rfl, event_keepsSessions (noLiftExpiry_keepsSessions _ _)⟩
  | stallTimerExpiry => exact ⟨_, rfl, event_keepsSessions (stallExpiry_keepsSessions _ _)⟩
  | stopSale => exact ⟨_, rfl, portCommand_keepsSessions fun h => stopSaleOwner_keepsSessions h⟩
  | sale => exact ⟨_, rfl, portCommand_keepsSessions fun h => saleOwner_eq h ▸ .refl s⟩
  | tankDip => exact ⟨_, rfl, portCommand_keepsSessions fun h => tankDipOwner_keepsSessions h⟩
  | tankFill => exact ⟨_, rfl, portCommand_keepsSessions fun h => tankFillOwner_keepsSessions h⟩
  | credentialEnded => exact ⟨_, rfl, event_keepsSessions (credentialEnded_keepsSessions _ _)⟩
  | releaseExpiry => exact ⟨_, rfl, event_keepsSessions (releaseExpiry_keepsSessions _ _)⟩
  | holdGate => exact ⟨_, rfl, portCommand_keepsSessions fun h => holdGateOwner_keepsSessions h⟩
  | revoke => exact ⟨_, rfl, portCommand_keepsSessions revokeOwner_keepsSessions⟩
  | clearPassback => exact ⟨_, rfl, portCommand_keepsSessions fun h => clearPassbackOwner_keepsSessions h⟩
  | select => exact ⟨_, rfl, portCommand_keepsSessions fun h => selectOwner_keepsSessions h⟩
  | put => exact ⟨_, rfl, portCommand_keepsSessions fun h => putOwner_keepsSessions h⟩
  | store => exact ⟨_, rfl, portCommand_keepsSessions storeOwner_keepsSessions⟩
  | read => exact ⟨_, rfl, portCommand_keepsSessions fun h => readOwner_keepsSessions h⟩
  | list => exact ⟨_, rfl, portCommand_keepsSessions fun h => listOwner_eq h ▸ .refl s⟩
  | next => exact ⟨_, rfl, portCommand_keepsSessions fun h => nextOwner_keepsSessions h⟩
  | status => exact ⟨_, rfl, portCommand_keepsSessions fun h => (done_eq h).1 ▸ .refl s⟩
  | unknownCommandLine => exact ⟨_, rfl, event_keepsSessions (unknownLine_keepsSessions _ _ _)⟩
  | lineTimeout => exact ⟨_, rfl, event_keepsSessions (lineTimeout_keepsSessions _ _)⟩
  | replySent => exact ⟨_, rfl, event_keepsSessions (replySent_keepsSessions _ _)⟩
  | save => exact ⟨_, rfl, portCommand_keepsSessions fun h => saveOwner_keepsSessions h⟩
  | saveComplete => exact ⟨_, rfl, event_keepsSessions (saveComplete_keepsSessions _ _)⟩
  | openDevice => exact ⟨_, rfl, portCommand_keepsSessions fun h => openOwner_keepsSessions h⟩
  | setup => exact ⟨_, rfl, portCommand_keepsSessions fun h => setupOwner_keepsSessions h⟩
  | restart => exact ⟨_, rfl, portCommandThen_keeps (fun _ _ h => h.trans (.same rfl rfl rfl rfl rfl rfl))
      (fun h => restartOwner_eq h ▸ .refl s)
      (fun h => h.trans (restartAfterReply_keepsSessions _ _)) (.refl s)⟩
  | powerOn => exact ⟨_, rfl, KeepsSessions.trans (t := { s with stopped := false }) (.same rfl rfl rfl rfl rfl rfl)
      (enterLoading_keepsSessions _ _)⟩
  | resetInput => exact ⟨_, rfl, event_keepsSessions (enterLoading_keepsSessions _ _)⟩
  | loadComplete => exact ⟨_, rfl, event_keepsSessions (loadComplete_keepsSessions _ _)⟩
  | mainsLost => exact ⟨_, rfl, event_keepsSessions (mainsFall_keepsSessions _)⟩
  | mainsBack => exact ⟨_, rfl, event_keepsSessions (mainsRise_keepsSessions _)⟩
  | batteryExhausted => exact ⟨_, rfl, event_keepsSessions
      (KeepsSessions.trans (t := clearRecords s) (clearRecords_keepsSessions s) (.same rfl rfl rfl rfl rfl rfl))⟩
  | readerPulse => exact ⟨_, rfl, event_keepsSessions (readerPulse_keepsSessions _ _ _)⟩
  | pedestalReplyByte => exact ⟨_, rfl, event_keepsSessions (replyByte_keepsSessions _ _ _)⟩
  | portCharacter => exact ⟨_, rfl, event_keepsSessions (portCharacter_keepsSessions _ _ _)⟩

theorem step_keepsSessions {s t : State} (h : step s = .next t) : KeepsSessions s t := by
  unfold step at h
  split at h
  · cases h; exact .refl s
  · next c rest _ =>
    obtain ⟨u, e, k⟩ := exec_keepsSessions c (s.withPending rest)
    rw [e] at h
    cases h
    exact KeepsSessions.trans (t := s.withPending rest) (.same rfl rfl rfl rfl rfl rfl) k

/-- Settles O46: what a command writes of a slot it writes of the outputs, the account and the feeder as well, so each law
is carried over by itself; a warm start sets all three right from the sessions it finds. -/
theorem everyStepKeepsOutputsToTheirSessions : Obligations.EveryStepKeepsOutputsToTheirSessions :=
  ⟨fun _ _ w h => (step_keepsSessions h).outputs w, fun _ _ w h => (step_keepsSessions h).links w,
    fun _ _ w h => (step_keepsSessions h).feeders w⟩

end Sys2Proof.Machine

/-! ## The pontoon bus: the poll round and its frames (O40) -/

namespace Sys2Proof

/-! ### Bits and numbers (11, opening) -/

theorem natToBits_length (k v : Nat) : (natToBits k v).length = k := by
  induction k with
  | zero => rfl
  | succ k ih => rw [natToBits, List.length_cons, ih]

theorem natToBits_append (j k v : Nat) : natToBits (j + k) v = natToBits j (v / 2 ^ k) ++ natToBits k v := by
  induction j with
  | zero => rw [Nat.zero_add]; rfl
  | succ j ih =>
    rw [Nat.add_right_comm, natToBits, natToBits, ih, List.cons_append, Nat.testBit_div_two_pow]

/-- Only the low bits of a number count. -/
theorem natToBits_mod (k v : Nat) {n : Nat} (h : k ≤ n) : natToBits k (v % 2 ^ n) = natToBits k v := by
  induction k with
  | zero => rfl
  | succ k ih => rw [natToBits, natToBits, ih (by omega), Nat.testBit_mod_two_pow, decide_eq_true (by omega), Bool.true_and]

theorem bitsToNat_cons (b : Bool) (bs : List Bool) : bitsToNat (b :: bs) = b.toNat * 2 ^ bs.length + bitsToNat bs := by
  have h : ∀ (bs : List Bool) (v : Nat),
      bs.foldl (fun v b => 2 * v + b.toNat) v = v * 2 ^ bs.length + bs.foldl (fun v b => 2 * v + b.toNat) 0 := by
    intro bs
    induction bs with
    | nil => intro v; simp
    | cons c bs ih =>
      intro v
      rw [List.foldl_cons, List.foldl_cons, ih (2 * v + c.toNat), ih (2 * 0 + c.toNat), List.length_cons, Nat.pow_succ]
      ring
  rw [bitsToNat, List.foldl_cons, h, Nat.mul_zero, Nat.zero_add]
  rfl

theorem bitsToNat_lt (bs : List Bool) : bitsToNat bs < 2 ^ bs.length := by
  induction bs with
  | nil => exact Nat.one_pos
  | cons b bs ih =>
    rw [bitsToNat_cons, List.length_cons, Nat.pow_succ]
    cases b <;> simp only [Bool.toNat_true, Bool.toNat_false] <;> omega

/-- Bits written out of the number they spell. -/
theorem natToBits_bitsToNat (bs : List Bool) : natToBits bs.length (bitsToNat bs) = bs := by
  induction bs with
  | nil => rfl
  | cons b bs ih =>
    have hlow := bitsToNat_lt bs
    have hbit : (bitsToNat (b :: bs)).testBit bs.length = b := by
      rw [bitsToNat_cons, Nat.testBit_eq_decide_div_mod_eq, Nat.add_comm, Nat.add_mul_div_right _ _ (Nat.two_pow_pos _),
        Nat.div_eq_of_lt hlow]
      cases b <;> rfl
    have hmod : bitsToNat (b :: bs) % 2 ^ bs.length = bitsToNat bs := by
      rw [bitsToNat_cons, Nat.mul_add_mod_self_right, Nat.mod_eq_of_lt hlow]
    rw [List.length_cons, natToBits, hbit, ← natToBits_mod _ _ le_rfl, hmod, ih]

theorem bitsToNat_natToBits (k v : Nat) : bitsToNat (natToBits k v) = v % 2 ^ k := by
  induction k with
  | zero => rw [Nat.pow_zero, Nat.mod_one]; rfl
  | succ k ih =>
    rw [natToBits, bitsToNat_cons, natToBits_length, ih, Nat.testBit_eq_decide_div_mod_eq, Nat.mod_pow_succ]
    rcases Nat.mod_two_eq_zero_or_one (v / 2 ^ k) with h | h <;> rw [h] <;> simp [Nat.add_comm]

theorem byteBits_ofNat (v : Nat) : byteBits (BitVec.ofNat 8 v) = natToBits 8 v := by
  rw [byteBits, BitVec.toNat_ofNat, natToBits_mod 8 v le_rfl]

/-- The bytes of a number carry its bits. -/
theorem natToBytes_bits (k v : Nat) : (natToBytes k v).flatMap byteBits = natToBits (8 * k) v := by
  induction k with
  | zero => rfl
  | succ k ih =>
    rw [natToBytes, List.flatMap_cons, byteBits_ofNat, ih, Nat.mul_succ, Nat.add_comm (8 * k) 8, natToBits_append, Nat.pow_mul]

namespace Machine

theorem packBits_bits (k : Nat) (bits : List Bool) (h : bits.length ≤ 8 * k) :
    (packBits k bits).flatMap byteBits = bits ++ List.replicate (8 * k - bits.length) false := by
  have hlen : (bits ++ List.replicate (8 * k - bits.length) false).length = 8 * k := by
    rw [List.length_append, List.length_replicate, Nat.add_sub_cancel' h]
  have hround := natToBits_bitsToNat (bits ++ List.replicate (8 * k - bits.length) false)
  rw [hlen] at hround
  rw [packBits, natToBytes_bits, hround]

/-! ### The poll frame (R76) -/

/-- What the frame of a poll carries, before its check byte. -/
theorem pollBits_padded (p : Pedestal) :
    let head := natToBits 6 p.cfg.address.val
      ++ (match p.tag with | none => [false, false, false] | some t => true :: natToBits 2 t.val)
    let socket := fun i : Fin 2 =>
      [ (p.desired.get i).relay, decide (p.cfg.ratings.get i = .a63 ∧ (p.desired.get i).limit = .l32)
      , (p.desired.get i).clearTrip ]
    (pollBits p).length ≤ 16
    ∧ pollBits p ++ List.replicate (16 - (pollBits p).length) false = match p.cfg.kind with
      | .twin => head ++ socket 0 ++ socket 1 ++ [p.desiredValve]
      | .single => head ++ socket 0 ++ [p.desiredValve] ++ List.replicate 3 false
      | .power2 => head ++ socket 0 ++ socket 1 ++ [false]
      | .tap => head ++ [p.desiredValve] ++ List.replicate 6 false := by
  have hack : (ackBits p.tag).length = 3 := by unfold ackBits; cases p.tag <;> rfl
  have hlen : (natToBits 6 p.cfg.address.val ++ ackBits p.tag).length = 9 := by
    rw [List.length_append, natToBits_length, hack]
  intro head socket
  have hhead : natToBits 6 p.cfg.address.val ++ ackBits p.tag = head := rfl
  rw [hhead] at hlen
  have hsocket : socketPollBits p = socket := by
    funext i
    simp only [socketPollBits, socket, Bool.decide_and]
  unfold pollBits
  rw [hsocket, hhead]
  cases p.cfg.kind <;>
    simp [PedestalKind.sockets, PedestalKind.hasTap, hlen, socket]

theorem pollFrame_bytes (p : Pedestal) : ∃ a b c, pollFrame p = [a, b, c] ∧ a + b + c = 0
    ∧ byteBits a ++ byteBits b = pollBits p ++ List.replicate (16 - (pollBits p).length) false := by
  have hbits := packBits_bits 2 (pollBits p) (pollBits_padded p).1
  rw [pollFrame, withCheck]
  obtain ⟨a, b, e⟩ : ∃ a b, packBits 2 (pollBits p) = [a, b] := ⟨_, _, rfl⟩
  rw [e] at hbits ⊢
  refine ⟨a, b, _, rfl, ?_, by simpa using hbits⟩
  simp [byteSum]

/-! ### The poll round (R75) -/

theorem precedes.refl (s : State) (n : PedestalId) : precedes s n n := .inr ⟨rfl, le_rfl⟩

theorem precedes.trans {s : State} {n m k : PedestalId} (h : precedes s n m) (w : precedes s m k) : precedes s n k := by
  simp only [precedes, Fin.le_def, Fin.lt_def, Fin.ext_iff] at *; omega

theorem precedes.antisymm {s : State} {n m : PedestalId} (h : precedes s n m) (w : precedes s m n) : n = m := by
  simp only [precedes, Fin.le_def, Fin.lt_def, Fin.ext_iff] at *; omega

/-- Of two pedestals in ascending number the one that stands before the other is kept. -/
theorem lowerAddress_some {s : State} {m n : PedestalId} (h : m < n) :
    ∃ k, lowerAddress s (some m) n = some k ∧ (k = m ∨ k = n) ∧ precedes s k m ∧ precedes s k n := by
  unfold lowerAddress
  dsimp only
  split
  · exact ⟨n, rfl, .inr rfl, .inl ‹_›, .refl s n⟩
  · refine ⟨m, rfl, .inl rfl, .refl s m, ?_⟩
    simp only [precedes, Fin.le_def, Fin.lt_def, Fin.ext_iff] at h ⊢; omega

/-- Among pedestals in ascending number the fold finds the one before all others. -/
theorem foldl_lowerAddress (s : State) (ids : List PedestalId) (m : PedestalId) (h : (m :: ids).Pairwise (· < ·)) :
    ∃ k, ids.foldl (lowerAddress s) (some m) = some k ∧ k ∈ m :: ids ∧ ∀ j ∈ m :: ids, precedes s k j := by
  induction ids generalizing m with
  | nil => exact ⟨m, rfl, List.mem_singleton_self m, fun j hj => List.mem_singleton.1 hj ▸ .refl s m⟩
  | cons n rest ih =>
    obtain ⟨hm, hrest⟩ := List.pairwise_cons.1 h
    obtain ⟨b, hb, hbm, pm, pn⟩ := lowerAddress_some (s := s) (hm n List.mem_cons_self)
    have hb' : (b :: rest).Pairwise (· < ·) := by
      rcases hbm with rfl | rfl
      · exact List.pairwise_cons.2 ⟨fun j hj => hm j (List.mem_cons_of_mem _ hj), hrest.of_cons⟩
      · exact hrest
    obtain ⟨k, hk, hmem, hfirst⟩ := ih b hb'
    refine ⟨k, by rw [List.foldl_cons, hb]; exact hk, ?_, fun j hj => ?_⟩
    · rcases List.mem_cons.1 hmem with rfl | hmem
      · rcases hbm with rfl | rfl <;> simp
      · exact List.mem_cons_of_mem _ (List.mem_cons_of_mem _ hmem)
    · have hkb := hfirst b List.mem_cons_self
      rcases List.mem_cons.1 hj with rfl | hj
      · exact hkb.trans pm
      · rcases List.mem_cons.1 hj with rfl | hj
        · exact hkb.trans pn
        · exact hfirst j (List.mem_cons_of_mem _ hj)

/-- The pedestal before all others among those that meet `P`, or none where none meets it. -/
theorem lowestOf_filter (s : State) (P : PedestalId → Bool) :
    (lowestOf s ((List.finRange 256).filter P) = none ∧ ∀ n, P n = false)
    ∨ ∃ n, lowestOf s ((List.finRange 256).filter P) = some n ∧ P n = true ∧ ∀ m, P m = true → precedes s n m := by
  have hmem : ∀ n, n ∈ (List.finRange 256).filter P ↔ P n = true := fun n => by simp
  have hord : ((List.finRange 256).filter P).Pairwise (· < ·) := (List.pairwise_lt_finRange 256).filter _
  cases h : (List.finRange 256).filter P with
  | nil => exact .inl ⟨rfl, fun n => Bool.eq_false_iff.2 fun e => by have := (hmem n).2 e; rw [h] at this; cases this⟩
  | cons m ids =>
    rw [h] at hord
    obtain ⟨k, hk, hkm, hfirst⟩ := foldl_lowerAddress s ids m hord
    rw [← h] at hkm hfirst
    exact .inr ⟨k, hk, (hmem k).1 hkm, fun j hj => hfirst j ((hmem j).2 hj)⟩

theorem onSegment_iff (s : State) (g : SegmentId) (n : PedestalId) :
    ((s.pedestal n).cfg.installed && (s.pedestal n).cfg.segment = g) = true ↔ onSegment s g n := by
  rw [Bool.and_eq_true, decide_eq_true_eq]; rfl

theorem abovePosition_iff (q : Option (Fin 64)) (a : Fin 64) : abovePosition q a = true ↔ ∀ p, q = some p → p < a := by
  cases q <;> simp [abovePosition]

/-- The target of a due poll is the next pedestal of the round (R75), and there is none only on an empty segment. -/
theorem pollTarget_cases (s : State) (g : SegmentId) :
    (pollTarget s g = none ∧ ∀ n, ¬ onSegment s g n) ∨ ∃ n, pollTarget s g = some n ∧ NextPolled s g n := by
  unfold pollTarget installedOn
  dsimp only
  rw [List.filter_filter]
  have habove : ∀ n, (abovePosition (s.segment g).position (s.pedestal n).cfg.address
      && ((s.pedestal n).cfg.installed && (s.pedestal n).cfg.segment = g)) = true
      ↔ onSegment s g n ∧ ∀ p, (s.segment g).position = some p → p < (s.pedestal n).cfg.address := fun n => by
    rw [Bool.and_eq_true, onSegment_iff, abovePosition_iff, and_comm]
  rcases lowestOf_filter s (fun n => abovePosition (s.segment g).position (s.pedestal n).cfg.address
      && ((s.pedestal n).cfg.installed && (s.pedestal n).cfg.segment = g)) with ⟨e, hnone⟩ | ⟨n, e, hn, hfirst⟩
  · rw [e]
    have hempty : ∀ m, ¬ (onSegment s g m ∧ ∀ p, (s.segment g).position = some p → p < (s.pedestal m).cfg.address) :=
      fun m hm => by have := (habove m).2 hm; rw [hnone m] at this; cases this
    rcases lowestOf_filter s (fun n => (s.pedestal n).cfg.installed && (s.pedestal n).cfg.segment = g)
      with ⟨e', hnone'⟩ | ⟨n, e', hn, hfirst⟩
    · exact .inl ⟨e', fun n hn => by have := (onSegment_iff s g n).2 hn; rw [hnone' n] at this; cases this⟩
    · exact .inr ⟨n, e', .inr ⟨hempty, (onSegment_iff s g n).1 hn, fun m hm => hfirst m ((onSegment_iff s g m).2 hm)⟩⟩
  · rw [e]
    exact .inr ⟨n, rfl, .inl ⟨(habove n).1 hn, fun m hm => hfirst m ((habove m).2 hm)⟩⟩

/-- There is one next pedestal. -/
theorem NextPolled.unique {s : State} {g : SegmentId} {n m : PedestalId} (h : NextPolled s g n) (w : NextPolled s g m) :
    n = m := by
  rcases h with ⟨hn, hfirst⟩ | ⟨hnone, hn, hfirst⟩ <;> rcases w with ⟨wm, wfirst⟩ | ⟨wnone, wm, wfirst⟩
  · exact (hfirst m wm).antisymm (wfirst n hn)
  · exact absurd hn (wnone n)
  · exact absurd wm (hnone m)
  · exact (hfirst m wm).antisymm (wfirst n hn)

theorem pollTarget_eq {s : State} {g : SegmentId} {n : PedestalId} (h : NextPolled s g n) : pollTarget s g = some n := by
  rcases pollTarget_cases s g with ⟨-, hempty⟩ | ⟨m, e, hm⟩
  · rcases h with ⟨⟨hn, -⟩, -⟩ | ⟨-, hn, -⟩ <;> exact absurd hn (hempty n)
  · rw [e, hm.unique h]

theorem pollTarget_isSome (s : State) (g : SegmentId) : (pollTarget s g).isSome = true ↔ ∃ n, onSegment s g n := by
  rcases pollTarget_cases s g with ⟨e, hempty⟩ | ⟨n, e, hn⟩
  · rw [e]; exact ⟨nofun, fun ⟨n, hn⟩ => absurd hn (hempty n)⟩
  · rw [e]
    refine ⟨fun _ => ?_, fun _ => rfl⟩
    rcases hn with ⟨⟨hn, -⟩, -⟩ | ⟨-, hn, -⟩ <;> exact ⟨n, hn⟩

/-! ### A miss (R83) -/

/-- A miss that brings the link down advances the edition; any other is a reading (R79). -/
theorem Pedestal.settled_missed (p : Pedestal) (o : PollOutcome) :
    let m := min (p.misses + 1) 3
    let falls := m = 3 ∧ p.link ≠ .offline
    (falls → (p.missed o).link = .offline
      ∧ p.settled (p.missed o) = { p with misses := m, lastOutcome := some o, link := .offline, edition := p.edition + 1 })
    ∧ (¬ falls → (p.link ≠ .offline → (p.missed o).link ≠ .offline)
      ∧ p.settled (p.missed o) = { p with misses := m, lastOutcome := some o }) := by
  intro m falls
  have hsame : (p.missed o).sameCounted p = ((p.missed o).link == p.link) := by
    simp only [Pedestal.sameCounted, Pedestal.missed, beq_self_eq_true, Bool.true_and, Bool.and_true]
  refine ⟨fun ⟨hm, hl⟩ => ?_, fun hno => ?_⟩
  · have hlink : (p.missed o).link = .offline := if_pos hm
    have hchanged : (p.missed o).sameCounted p = false := by
      rw [hsame, hlink]; exact beq_eq_false_iff_ne.2 (Ne.symm hl)
    exact ⟨hlink, by rw [Pedestal.settled, hchanged, editionAfter, hlink.symm]; rfl⟩
  · have hlink : (p.missed o).link = p.link := by
      by_cases hm : m = 3
      · have hoff : p.link = .offline := by_contra fun hl => hno ⟨hm, hl⟩
        exact (if_pos hm).trans hoff.symm
      · exact if_neg hm
    have hkept : (p.missed o).sameCounted p = true := by rw [hsame, hlink, beq_self_eq_true]
    exact ⟨fun hl => hlink ▸ hl, by rw [Pedestal.settled, hkept, editionAfter, hlink.symm]; rfl⟩

theorem miss_missed (n : PedestalId) (o : PollOutcome) (s : State) : Missed n o s (miss n o s) := by
  unfold Missed miss putPedestal
  dsimp only
  obtain ⟨hfalls, hstays⟩ := (s.pedestal n).settled_missed o
  by_cases h : min ((s.pedestal n).misses + 1) 3 = 3 ∧ (s.pedestal n).link ≠ .offline
  · obtain ⟨hlink, heq⟩ := hfalls h
    rw [if_pos ⟨h.2, hlink⟩, heq]
    exact .inr ⟨h, berthNaming s (socketAt n 0), rfl, berthNaming_names s _⟩
  · obtain ⟨hlink, heq⟩ := hstays h
    rw [if_neg fun w => hlink w.1 w.2, heq]
    exact .inl ⟨h, rfl⟩

/-! ### The rows of the poll round -/

theorem not_polls_iff (s : State) : ¬ (s.device = .setup ∨ s.device = .opened) ↔ s.device.polls = false := by
  rw [← polls_iff, Bool.not_eq_true]

/-- Settles O40: the target of a due poll is the next pedestal of the round, and its frame packs the bits of its kind. -/
theorem eachPollGoesToTheNextPedestal : Obligations.EachPollGoesToTheNextPedestal := by
  intro g s hrun x polls
  have hrow : exec (.pollDue g) s = .next (pollDue g s) ∧ exec (.pollSend g) s = .next (pollSend g s)
      ∧ exec (.lineBusy g) s = .next (lineBusy g s) :=
    ⟨congrArg Host.Outcome.next (event_running hrun), congrArg Host.Outcome.next (event_running hrun),
      congrArg Host.Outcome.next (event_running hrun)⟩
  obtain ⟨hdue, hsend, hbusy⟩ := hrow
  rw [hdue, hsend, hbusy]
  refine ⟨fun hp hn => ?_, fun h => ?_, fun h => ?_, fun n hp hd ho hn => ?_, fun h => ?_, fun n hp hd hn => ?_⟩
  · rw [pollDue, (polls_iff _).2 hp, (pollTarget_isSome s g).2 hn]; rfl
  · rw [pollDue, if_neg]
    rw [Bool.and_eq_true, polls_iff, pollTarget_isSome]
    rintro ⟨hp, n, hn⟩
    exact h.elim (fun h => h hp) fun h => h n hn
  · rw [pollSend, if_neg]
    rw [Bool.and_eq_true, Bool.and_eq_true, polls_iff, Option.isNone_iff_eq_none]
    rintro ⟨⟨hp, hd⟩, ho⟩
    rcases h with h | h | h
    · exact h hp
    · exact absurd (h.symm.trans hd) nofun
    · exact h ho
  · obtain ⟨a, b, c, hframe, hsum, hbits⟩ := pollFrame_bytes (s.pedestal n)
    refine ⟨a, b, c, ?_, hsum, hbits.trans (pollBits_padded _).2⟩
    rw [pollSend, (polls_iff _).2 hp, hd, ho, pollTarget_eq hn, ← hframe]
    rfl
  · rw [lineBusy, if_neg]
    rw [Bool.and_eq_true, polls_iff]
    rintro ⟨hp, hd⟩
    exact h.elim (fun h => h hp) fun h => absurd (h.symm.trans hd) nofun
  · rw [lineBusy, (polls_iff _).2 hp, hd, pollTarget_eq hn]
    exact ⟨_, rfl, miss_missed n .lineBusy _⟩

end Machine

end Sys2Proof

/-! ## The replies of the pedestals (O41)

What the unpacker holds after some bytes is a parse of their bits; the parse of the bits of a reply gives its fields back. -/

namespace Sys2Proof

theorem byteBits_length (b : Byte) : (byteBits b).length = 8 := natToBits_length ..

theorem flatMap_byteBits_length (bytes : List Byte) : (bytes.flatMap byteBits).length = 8 * bytes.length := by
  induction bytes with
  | nil => rfl
  | cons b bytes ih => rw [List.flatMap_cons, List.length_append, byteBits_length, ih, List.length_cons]; omega

theorem byteBits_injective {x y : Byte} (h : byteBits x = byteBits y) : x = y := by
  have hx := bitsToNat_natToBits 8 x.toNat
  rw [show natToBits 8 x.toNat = natToBits 8 y.toNat from h, bitsToNat_natToBits, Nat.mod_eq_of_lt y.isLt,
    Nat.mod_eq_of_lt x.isLt] at hx
  exact BitVec.eq_of_toNat_eq hx.symm

theorem byteSum_append_singleton (bytes : List Byte) (b : Byte) : byteSum (bytes ++ [b]) = byteSum bytes + b := by
  rw [byteSum, List.foldl_append]; rfl

namespace Machine

/-! ### The parse of a run of bits -/

/-- What an extraction takes from the queue are the widths of the fields it adds. -/
theorem extract_spends (c : PedestalCfg) (ws : List Nat) (q : List Bool) (fs : List Nat) :
    fs.length ≤ (extract c ws q fs).2.length
    ∧ (ws.take ((extract c ws q fs).2.length - fs.length)).sum + (extract c ws q fs).1.length = q.length := by
  induction ws generalizing q fs with
  | nil => simp [extract]
  | cons w ws ih =>
    unfold extract
    dsimp only
    split
    · next hw =>
      split
      · simp only [List.length_append, List.length_singleton, Nat.add_sub_cancel_left, List.take_succ_cons, List.take_zero,
          List.sum_cons, List.sum_nil, List.length_drop]
        omega
      · obtain ⟨hle, hsum⟩ := ih (q.drop w) (fs ++ [bitsToNat (q.take w)])
        rw [List.length_append, List.length_singleton] at hle hsum
        refine ⟨by omega, ?_⟩
        rw [List.length_drop] at hsum
        rw [show ∀ n, fs.length + 1 ≤ n → n - fs.length = n - (fs.length + 1) + 1 from fun n h => by omega, List.take_succ_cons,
          List.sum_cons]
        · omega
        · exact hle
    · simp

/-- Bits that arrive later go on where the extraction stopped, unless the header has fixed KIND. -/
theorem extract_append (c : PedestalCfg) (ws : List Nat) (q more : List Bool) (fs : List Nat)
    (h : headerDiffers c fs = false) :
    (headerDiffers c (extract c ws q fs).2 = true → (extract c ws (q ++ more) fs).2 = (extract c ws q fs).2)
    ∧ (headerDiffers c (extract c ws q fs).2 = false → extract c ws (q ++ more) fs
        = extract c (ws.drop ((extract c ws q fs).2.length - fs.length)) ((extract c ws q fs).1 ++ more)
            (extract c ws q fs).2) := by
  induction ws generalizing q fs with
  | nil => simp [extract]
  | cons w ws ih =>
    by_cases hw : w ≤ q.length
    · have hw' : w ≤ (q ++ more).length := by rw [List.length_append]; omega
      have hnext : extract c (w :: ws) (q ++ more) fs = if headerDiffers c (fs ++ [bitsToNat (q.take w)])
          then (q.drop w ++ more, fs ++ [bitsToNat (q.take w)])
          else extract c ws (q.drop w ++ more) (fs ++ [bitsToNat (q.take w)]) := by
        rw [extract, if_pos hw', List.take_append_of_le_length hw, List.drop_append_of_le_length hw]
      rw [hnext, extract, if_pos hw]
      dsimp only
      cases hd : headerDiffers c (fs ++ [bitsToNat (q.take w)]) with
      | true =>
        rw [if_pos rfl, if_pos rfl]
        exact ⟨fun _ => rfl, fun e => absurd (hd.symm.trans e) nofun⟩
      | false =>
        rw [if_neg nofun, if_neg nofun]
        obtain ⟨hfixed, hopen⟩ := ih (q.drop w) _ hd
        refine ⟨hfixed, fun e => (hopen e).trans ?_⟩
        have hle := (extract_spends c ws (q.drop w) (fs ++ [bitsToNat (q.take w)])).1
        rw [List.length_append, List.length_singleton] at hle ⊢
        rw [show ∀ n, fs.length + 1 ≤ n → n - fs.length = n - (fs.length + 1) + 1 from fun n h => by omega,
          List.drop_succ_cons]
        exact hle
    · have hstop : extract c (w :: ws) q fs = (q, fs) := by rw [extract, if_neg hw]
      rw [hstop]
      exact ⟨fun e => absurd (h.symm.trans e) nofun, fun _ => by rw [Nat.sub_self]; rfl⟩

/-- The queue and the fields that a run of bits leaves. -/
def parse (c : PedestalCfg) (bits : List Bool) : List Bool × List Nat := extract c c.kind.format bits []

theorem parse_append_fixed {c : PedestalCfg} {bits : List Bool} (more : List Bool)
    (h : headerDiffers c (parse c bits).2 = true) : (parse c (bits ++ more)).2 = (parse c bits).2 :=
  (extract_append c _ bits more [] rfl).1 h

theorem parse_append {c : PedestalCfg} {bits : List Bool} (more : List Bool)
    (h : headerDiffers c (parse c bits).2 = false) : parse c (bits ++ more)
      = extract c (c.kind.format.drop (parse c bits).2.length) ((parse c bits).1 ++ more) (parse c bits).2 :=
  (extract_append c _ bits more [] rfl).2 h

/-- The unpacker `u` has read `bytes`: it counts and sums them, and holds the parse of their bits as far as it goes on. -/
structure HasRead (c : PedestalCfg) (bytes : List Byte) (u : Unpacker) : Prop where
  count : u.byteCount = bytes.length
  sum : u.byteSum = byteSum bytes
  fields : u.fields = (parse c (bytes.flatMap byteBits)).2
  kind : u.kindFixed = headerDiffers c u.fields
  queue : u.kindFixed = false → u.fields.length < c.kind.format.length → u.queue = (parse c (bytes.flatMap byteBits)).1

theorem HasRead.take {c : PedestalCfg} {bytes : List Byte} {u : Unpacker} (h : HasRead c bytes u) (byte : Byte) :
    HasRead c (bytes ++ [byte]) (u.take c byte) := by
  obtain ⟨hcount, hsum, hfields, hkind, hqueue⟩ := h
  have hbits : (bytes ++ [byte]).flatMap byteBits = bytes.flatMap byteBits ++ byteBits byte := by simp
  have hcount' : u.byteCount + 1 = (bytes ++ [byte]).length := by rw [hcount, List.length_append]; rfl
  have hsum' : u.byteSum + byte = byteSum (bytes ++ [byte]) := by rw [hsum, byteSum_append_singleton]
  unfold Unpacker.take
  dsimp only
  split
  · next hstop =>
    have hsame : u.fields = (parse c ((bytes ++ [byte]).flatMap byteBits)).2 := by
      rw [hbits]
      cases hfix : u.kindFixed with
      | true => rw [parse_append_fixed _ (by rw [← hfields, ← hkind, hfix]), hfields]
      | false =>
        rw [hfix, Bool.false_or, decide_eq_true_eq] at hstop
        rw [parse_append _ (by rw [← hfields, ← hkind, hfix]), ← hfields, List.drop_eq_nil_of_le hstop]
        rfl
    refine ⟨hcount', hsum', hsame, hkind, fun e hlt => ?_⟩
    rw [e, Bool.false_or, decide_eq_true_eq] at hstop
    exact absurd hlt (Nat.not_lt.2 hstop)
  · next hgo =>
    rw [Bool.or_eq_true, not_or, decide_eq_true_eq, Bool.not_eq_true] at hgo
    obtain ⟨hfix, hlen⟩ := hgo
    have hparse : extract c (c.kind.format.drop u.fields.length) (u.queue ++ byteBits byte) u.fields
        = parse c ((bytes ++ [byte]).flatMap byteBits) := by
      rw [hbits, parse_append _ (by rw [← hfields, ← hkind, hfix]), hqueue hfix (by omega), ← hfields]
    rw [hparse]
    exact ⟨hcount', hsum', rfl, rfl, fun _ _ => rfl⟩

/-- The unpacker after the bytes of a reply. -/
theorem hasRead (c : PedestalCfg) (bytes : List Byte) : HasRead c bytes (bytes.foldl (Unpacker.take c) emptyUnpacker) := by
  induction bytes using List.reverseRecOn with
  | nil => exact ⟨rfl, rfl, by cases hk : c.kind <;> simp [parse, hk, emptyUnpacker] <;> rfl, rfl, fun _ _ => by
      cases hk : c.kind <;> simp [parse, hk, emptyUnpacker] <;> rfl⟩
  | append_singleton bytes b ih => rw [List.foldl_append]; exact ih.take b

/-- The judgement, of the bytes alone (R82). -/
theorem judge_read (c : PedestalCfg) (bytes : List Byte) :
    judge c (bytes.foldl (Unpacker.take c) emptyUnpacker) =
      if headerDiffers c (parse c (bytes.flatMap byteBits)).2 then .kind
      else if (parse c (bytes.flatMap byteBits)).2.length < c.kind.format.length then .short
      else if c.kind.replyBytes < bytes.length then .long
      else if byteSum bytes ≠ 0 then .check
      else .valid := by
  obtain ⟨hcount, hsum, hfields, hkind, -⟩ := hasRead c bytes
  rw [judge, hkind, hfields, hcount, hsum]

/-! ### The fields of a reply -/

/-- The bits of numbers in fields of given widths. -/
def fieldBits : List Nat → List Nat → List Bool
  | w :: ws, v :: vs => natToBits w v ++ fieldBits ws vs
  | _, _ => []

/-- Fields that fit their widths are read back, where the header is the pedestal's. -/
theorem extract_fieldBits {c : PedestalCfg} {ws vs : List Nat} (hfit : List.Forall₂ (fun w v => v < 2 ^ w) ws vs)
    (rest : List Bool) (fs : List Nat) (h : ∀ l, l <+: fs ++ vs → headerDiffers c l = false) :
    extract c ws (fieldBits ws vs ++ rest) fs = (rest, fs ++ vs) := by
  induction hfit generalizing fs with
  | nil => simp [extract, fieldBits]
  | @cons w v ws vs hv _ ih =>
    have hle : w ≤ (natToBits w v ++ (fieldBits ws vs ++ rest)).length := by
      rw [List.length_append, natToBits_length]; omega
    have hassoc : fs ++ [v] ++ vs = fs ++ v :: vs := by rw [List.append_assoc]; rfl
    rw [fieldBits, List.append_assoc, extract, if_pos hle, List.take_left' (natToBits_length w v),
      List.drop_left' (natToBits_length w v), bitsToNat_natToBits, Nat.mod_eq_of_lt hv]
    dsimp only
    rw [h (fs ++ [v]) (hassoc ▸ List.prefix_append ..), if_neg nofun, ih (fs ++ [v]) (by rw [hassoc]; exact h), hassoc]

/-- The numbers of a socket block. -/
def socketFields (r : SocketReport) : List Nat :=
  [r.reported.relay.toNat, (decide (r.reported.limit = .l32)).toNat, r.reported.trip.toNat, r.reported.current, r.energy]

/-- The numbers of a tap block. -/
def tapFields (r : TapReport) : List Nat := [r.valve.toNat, r.water]

/-- The numbers of a whole reply, in the order of its format (R80). -/
def replyFields (c : PedestalCfg) (tag : Fin 4) (a b : SocketReport) (w : TapReport) (check : Byte) : List Nat :=
  [c.address.val, kindCode c.kind, tag.val] ++ (match c.kind with
    | .twin => socketFields a ++ socketFields b ++ tapFields w ++ [0]
    | .single => socketFields a ++ tapFields w
    | .power2 => socketFields a ++ socketFields b ++ [0]
    | .tap => tapFields w ++ [0]) ++ [check.toNat]

theorem natToBits_one (b : Bool) : natToBits 1 b.toNat = [b] := by cases b <;> rfl

theorem socketBlock_eq (r : SocketReport) (ws vs : List Nat) :
    fieldBits (1 :: 1 :: 1 :: 10 :: 16 :: ws) (socketFields r ++ vs) = socketBlock r ++ fieldBits ws vs := by
  simp only [socketFields, socketBlock, fieldBits, natToBits_one, List.cons_append, List.nil_append, List.append_assoc]

theorem tapBlock_eq (r : TapReport) (ws vs : List Nat) :
    fieldBits (1 :: 16 :: ws) (tapFields r ++ vs) = tapBlock r ++ fieldBits ws vs := by
  simp only [tapFields, tapBlock, fieldBits, natToBits_one, List.cons_append, List.nil_append]

/-- A reply's bits are its numbers in the widths of its format. -/
theorem replyBits_eq (c : PedestalCfg) (tag : Fin 4) (a b : SocketReport) (w : TapReport) (check : Byte) :
    replyBits c tag a b w ++ byteBits check = fieldBits c.kind.format (replyFields c tag a b w check) := by
  unfold replyBits replyFields
  cases c.kind <;>
    simp [PedestalKind.format, PedestalKind.dataWidths, PedestalKind.sockets, PedestalKind.hasTap, PedestalKind.padding,
      kindCode, fieldBits, socketBlock_eq, tapBlock_eq, byteBits] <;> rfl

theorem replyFields_fit {a b : SocketReport} {w : TapReport} (ha : a.fitsBlock) (hb : b.fitsBlock) (hw : w.water < 65536)
    (c : PedestalCfg) (tag : Fin 4) (check : Byte) :
    List.Forall₂ (fun w v => v < 2 ^ w) c.kind.format (replyFields c tag a b w check) := by
  obtain ⟨hac, hae⟩ := ha
  obtain ⟨hbc, hbe⟩ := hb
  have hbit : ∀ x : Bool, x.toNat < 2 := fun x => by cases x <;> decide
  have haddr := c.address.isLt
  have htag := tag.isLt
  have hcheck : check.toNat < 256 := check.isLt
  unfold replyFields
  cases c.kind <;>
    simp [PedestalKind.format, PedestalKind.dataWidths, PedestalKind.sockets, PedestalKind.hasTap, PedestalKind.padding,
      kindCode, socketFields, tapFields, hbit, hac, hae, hbc, hbe, hw, haddr, htag, hcheck]

theorem replyFields_length (c : PedestalCfg) (tag : Fin 4) (a b : SocketReport) (w : TapReport) (check : Byte) :
    (replyFields c tag a b w check).length = c.kind.format.length := by
  unfold replyFields
  cases c.kind <;> rfl

/-- The header of the pedestal's own reply fixes no KIND, however far it is read. -/
theorem headerDiffers_replyFields (c : PedestalCfg) (tag : Fin 4) (a b : SocketReport) (w : TapReport) (check : Byte)
    {l : List Nat} (h : l <+: replyFields c tag a b w check) : headerDiffers c l = false := by
  obtain ⟨more, e⟩ := h
  unfold replyFields at e
  match l, e with
  | [], _ => rfl
  | [x], _ => rfl
  | x :: y :: l, e =>
    simp only [List.cons_append, List.cons.injEq] at e
    obtain ⟨hx, hy, -⟩ := e
    simp [headerDiffers, hx, hy]

/-- A whole format is a number of bytes. -/
theorem format_sum (k : PedestalKind) : k.format.sum = 8 * k.replyBytes := by cases k <;> rfl

theorem PedestalKind.format_eq (k : PedestalKind) : ∃ ws, k.format = 6 :: 2 :: ws := ⟨_, rfl⟩

section

variable {c : PedestalCfg} {tag : Fin 4} {a b : SocketReport} {w : TapReport} {body : List Byte} {check : Byte}

/-- The bytes of a whole reply parse to its numbers, whatever follows. -/
theorem parse_reply (ha : a.fitsBlock) (hb : b.fitsBlock) (hw : w.water < 65536)
    (hbody : body.flatMap byteBits = replyBits c tag a b w) (more : List Byte) :
    parse c ((body ++ check :: more).flatMap byteBits)
      = (more.flatMap byteBits, replyFields c tag a b w check) := by
  rw [List.flatMap_append, List.flatMap_cons, hbody, ← List.append_assoc, replyBits_eq, parse,
    extract_fieldBits (replyFields_fit ha hb hw c tag check) _ _ fun l hl => headerDiffers_replyFields c tag a b w check hl]
  rfl

theorem fieldBits_length {ws vs : List Nat} (h : vs.length = ws.length) : (fieldBits ws vs).length = ws.sum := by
  induction ws generalizing vs with
  | nil => cases vs <;> rfl
  | cons x ws ih =>
    obtain ⟨v, vs, rfl⟩ := List.exists_cons_of_length_eq_add_one h
    rw [fieldBits, List.length_append, natToBits_length, ih (Nat.succ.inj h), List.sum_cons]

theorem replyBytes_eq (hbody : body.flatMap byteBits = replyBits c tag a b w) : c.kind.replyBytes = body.length + 1 := by
  have hlen := congrArg List.length (replyBits_eq c tag a b w 0)
  rw [List.length_append, ← hbody, flatMap_byteBits_length, byteBits_length,
    fieldBits_length (replyFields_length ..), format_sum] at hlen
  omega

/-- Too few bits leave a format open. -/
theorem parse_short {bits : List Bool} (h : bits.length < c.kind.format.sum) :
    (parse c bits).2.length < c.kind.format.length := by
  obtain ⟨-, hsum⟩ := extract_spends c c.kind.format bits []
  refine Nat.lt_of_not_le fun hle => ?_
  rw [List.take_of_length_le (by exact hle)] at hsum
  omega

/-- Another first byte than the pedestal's address and kind fixes KIND. -/
theorem parse_otherHeader {byte : Byte} (h : byteBits byte ≠ natToBits 6 c.address.val ++ natToBits 2 (kindCode c.kind))
    (more : List Bool) : headerDiffers c (parse c (byteBits byte ++ more)).2 = true := by
  have hsplit : byteBits byte = natToBits 6 (byte.toNat / 4) ++ natToBits 2 byte.toNat := natToBits_append 6 2 byte.toNat
  obtain ⟨ws, hws⟩ := c.kind.format_eq
  have hdiffers : headerDiffers c [byte.toNat / 4 % 2 ^ 6, byte.toNat % 2 ^ 2] = true := by
    rw [headerDiffers, Bool.not_eq_true', ← Bool.not_eq_true, Bool.and_eq_true, decide_eq_true_eq, decide_eq_true_eq]
    rintro ⟨haddress, hkind⟩
    rw [hsplit, ← natToBits_mod 6 _ (n := 6) le_rfl, ← natToBits_mod 2 byte.toNat (n := 2) le_rfl] at h
    exact h (by rw [← haddress, ← hkind])
  have h6 : ∀ q, extract c (6 :: 2 :: ws) (natToBits 6 (byte.toNat / 4) ++ q) []
      = extract c (2 :: ws) q [byte.toNat / 4 % 2 ^ 6] := fun q => by
    rw [extract, if_pos (by rw [List.length_append, natToBits_length]; omega), List.take_left' (natToBits_length ..),
      List.drop_left' (natToBits_length ..), bitsToNat_natToBits]
    rfl
  rw [parse, hws, hsplit, List.append_assoc, h6, extract,
    if_pos (by rw [List.length_append, natToBits_length]; omega), List.take_left' (natToBits_length ..), bitsToNat_natToBits]
  dsimp only [List.cons_append, List.nil_append]
  rw [if_pos hdiffers]
  exact hdiffers

theorem replyBits_header (c : PedestalCfg) (tag : Fin 4) (a b : SocketReport) (w : TapReport) :
    (replyBits c tag a b w).take 8 = natToBits 6 c.address.val ++ natToBits 2 (kindCode c.kind) := by
  unfold replyBits
  cases c.kind <;> rfl

end

/-! ### The fields read back -/

theorem replyFields_read (c : PedestalCfg) (tag : Fin 4) (a b : SocketReport) (w : TapReport) (check : Byte) :
    let fields := replyFields c tag a b w check
    replyTag fields = tag
    ∧ (c.kind ≠ .tap → socketReport fields 0 = a)
    ∧ (c.kind = .twin ∨ c.kind = .power2 → socketReport fields 1 = b)
    ∧ (c.kind ≠ .power2 → tapReport c.kind fields = w) := by
  have hbit : ∀ x : Bool, decide (x.toNat = 1) = x := fun x => by cases x <;> rfl
  have hsocket : ∀ r : SocketReport,
      ({ reported :=
          { relay := decide (r.reported.relay.toNat = 1)
            limit := if (decide (r.reported.limit = .l32)).toNat = 1 then .l32 else .l63
            trip := decide (r.reported.trip.toNat = 1), current := r.reported.current }
         energy := r.energy } : SocketReport) = r := fun r => by
    obtain ⟨⟨relay, limit, trip, current⟩, energy⟩ := r
    simp only [hbit]
    cases limit <;> rfl
  have htap : ∀ r : TapReport, ({ valve := decide (r.valve.toNat = 1), water := r.water } : TapReport) = r := fun r => by
    rw [hbit]
  intro fields
  have htag : replyTag fields = tag := Fin.ext (Nat.mod_eq_of_lt tag.isLt)
  refine ⟨htag, ?_⟩
  simp only [fields, replyFields]
  cases c.kind
  · exact ⟨fun _ => hsocket a, fun _ => hsocket b, fun _ => htap w⟩
  · exact ⟨fun _ => hsocket a, fun h => absurd h (by decide), fun _ => htap w⟩
  · exact ⟨fun _ => hsocket a, fun _ => hsocket b, fun h => absurd rfl h⟩
  · exact ⟨fun h => absurd rfl h, fun h => absurd h (by decide), fun _ => htap w⟩

/-! ### The bytes as they arrive (R81) -/

theorem replyByte_taken {g : SegmentId} {byte : Byte} {poll : Poll} {s : State} (ho : (s.segment g).outstanding = some poll)
    (hc : (s.segment g).unpacker.byteCount < 16) : replyByte g byte s = putSegment g
      { s.segment g with unpacker := (s.segment g).unpacker.take (s.pedestal poll.pedestal).cfg byte } s := by
  unfold replyByte
  dsimp only
  split
  · next e => exact absurd (ho.symm.trans e) nofun
  · next e =>
    cases ho.symm.trans e
    exact if_pos hc

theorem replyByte_ignored {g : SegmentId} {byte : Byte} {s : State}
    (h : (s.segment g).outstanding = none ∨ 16 ≤ (s.segment g).unpacker.byteCount) : replyByte g byte s = s := by
  rw [replyByte]
  cases ho : (s.segment g).outstanding with
  | none => rfl
  | some poll => exact if_neg fun w => h.elim (fun e => absurd (ho.symm.trans e) nofun) fun e => absurd w (Nat.not_lt.2 e)

/-- Settles O41: the unpacker holds the parse of the bits read, and the parse of a reply's bits is the reply. -/
theorem aReplyReadsBackAsItWasSent : Obligations.AReplyReadsBackAsItWasSent := by
  refine ⟨fun g byte poll s hrun ho hc => ?_, fun g byte s hrun h => ?_, fun c tag a b w body check ha hb hw hbody => ?_⟩
  · exact congrArg Host.Outcome.next ((event_running hrun).trans (replyByte_taken ho hc))
  · exact congrArg Host.Outcome.next ((event_running hrun).trans (replyByte_ignored h))
  intro read u
  have hbytes := replyBytes_eq hbody
  have hwhole (more : List Byte) := parse_reply (check := check) ha hb hw hbody more
  have hown {l : List Nat} (hl : l <+: replyFields c tag a b w check) := headerDiffers_replyFields c tag a b w check hl
  have hjudge (more : List Byte) : judge c (read (body ++ check :: more)) = if more ≠ [] then .long
      else if byteSum (body ++ check :: more) ≠ 0 then .check else .valid := by
    have hlonger : body.length + 1 < (body ++ check :: more).length ↔ more ≠ [] := by
      rw [List.length_append, List.length_cons, ← List.length_pos_iff]; omega
    rw [judge_read, hwhole, hown List.prefix_rfl, if_neg nofun, if_neg (by rw [replyFields_length]; omega), hbytes]
    simp only [hlonger]
  refine ⟨fun hsum => ⟨(hjudge []).trans ?_, ?_⟩, fun hsum => (hjudge []).trans ?_, fun n hn => ?_, fun more hmore => ?_,
    fun byte rest hbyte => ?_⟩
  · rw [if_neg (not_not.2 rfl), if_neg (not_not.2 hsum)]
  · have hfields : u.fields = replyFields c tag a b w check := (hasRead c _).fields.trans (congrArg Prod.snd (hwhole []))
    rw [hfields]
    exact replyFields_read c tag a b w check
  · rw [if_neg (not_not.2 rfl), if_pos hsum]
  · have hlen : (((body ++ [check]).take n).flatMap byteBits).length < c.kind.format.sum := by
      rw [flatMap_byteBits_length, List.length_take, List.length_append, format_sum, hbytes, List.length_singleton]
      omega
    have hopen : headerDiffers c (parse c (((body ++ [check]).take n).flatMap byteBits)).2 = false := by
      refine Bool.eq_false_iff.2 fun hfixed => ?_
      have hall := parse_append_fixed (((body ++ [check]).drop n).flatMap byteBits) hfixed
      rw [← List.flatMap_append, List.take_append_drop, hwhole []] at hall
      exact absurd ((hown (hall ▸ List.prefix_rfl)).symm.trans hfixed) nofun
    rw [judge_read, hopen, if_neg nofun, if_pos (parse_short hlen)]
  · rw [hjudge, if_pos hmore]
  · have hfirst : byteBits byte ≠ natToBits 6 c.address.val ++ natToBits 2 (kindCode c.kind) := by
      rw [← replyBits_header c tag a b w, ← hbody]
      cases body with
      | nil => exact absurd hbytes (by cases c.kind <;> decide)
      | cons x body =>
        rw [List.flatMap_cons, List.take_left' (byteBits_length x)]
        exact fun e => hbyte (by rw [byteBits_injective e]; rfl)
    rw [judge_read, List.flatMap_cons, if_pos (parse_otherHeader hfirst _)]

end Machine

end Sys2Proof

/-! ## Valid replies (O42)

A reply is followed delivery by delivery: what each leaves of the other records, and what it makes of the session it is for. -/

namespace Sys2Proof.Machine

/-! ### What work on sockets leaves the taps -/

/-- Between `s` and `t` no water session and no desired valve changes. -/
structure TapView (s t : State) : Prop where
  water : t.water = s.water
  valve : ∀ n, (t.pedestal n).desiredValve = (s.pedestal n).desiredValve

theorem TapView.refl (s : State) : TapView s s := ⟨rfl, fun _ => rfl⟩

theorem TapView.trans {s t u : State} (h : TapView s t) (k : TapView t u) : TapView s u :=
  ⟨k.water.trans h.water, fun n => (k.valve n).trans (h.valve n)⟩

theorem TapView.same {s t : State} (hw : t.water = s.water) (hp : t.pedestals = s.pedestals) : TapView s t :=
  ⟨hw, fun n => by rw [State.pedestal, hp]; rfl⟩

theorem Billed.tapView {a : AccountId} {s t : State} (h : Billed a s t) : TapView s t :=
  .same (by rw [h.eq]) (by rw [h.eq])

theorem raise_tapView (c : NoticeClass) (i : NoticeInfo) (s : State) : TapView s (raise c i s) :=
  .same (raise_water ..) (raise_pedestals ..)

theorem putPower_tapView (b : State) (k : SocketId) (x : Option PowerSession) (s : State) : TapView s (putPower b k x s) :=
  ⟨rfl, fun n => (putPower_pedestal_rest b k x s n).2⟩

theorem grant_tapView (b : State) (k : SocketId) (x : PowerSession) (n : Nat) (s : State) : TapView s (grant b k x n s) :=
  TapView.trans (t := { s with grantCount := nextGrant s.grantCount }) (.same rfl rfl) (putPower_tapView ..)

theorem serveLoop_tapView (b : State) (f : FeederId) (n : Nat) (s : State) : TapView s (serveLoop b f n s) := by
  induction n generalizing s with
  | zero => exact .refl s
  | succ n ih =>
    unfold serveLoop
    split
    · exact .refl s
    · split
      · exact .refl s
      · split
        · exact (grant_tapView ..).trans (ih _)
        · exact putPower_tapView ..

theorem serve_tapView (b : State) (f : FeederId) (s : State) : TapView s (serve b f s) := by
  unfold serve
  split
  · exact .refl s
  · exact serveLoop_tapView ..

/-- A change that leaves the taps, made or not. -/
theorem tapView_if {s t : State} (c : Prop) [Decidable c] (h : TapView s t) : TapView s (if c then t else s) := by
  split
  · exact h
  · exact .refl s

theorem endPower_tapView (b : State) (k : SocketId) (w : PowerEnd) (s : State) : TapView s (endPower b k w s) := by
  unfold endPower
  split
  · exact .refl s
  · next x _ =>
    have hlink : TapView s (modAccount b x.account (fun a => { a with power := none }) (putPower b k none s)) :=
      (putPower_tapView b k none s).trans (.same rfl rfl)
    exact hlink.trans ((raise_tapView ..).trans (serve_tapView ..))

theorem enterAdmission_tapView {b s t : State} {k : SocketId} {x : PowerSession} (h : enterAdmission b k x s = some t) :
    TapView s t := by
  unfold enterAdmission at h
  split at h <;> cases h
  · exact grant_tapView ..
  · exact (putPower_tapView ..).trans (raise_tapView ..)

theorem resumePower_tapView (b : State) (k : SocketId) (s : State) : TapView s (resumePower b k s) := by
  unfold resumePower
  split
  · exact .refl s
  · split
    · split
      · exact putPower_tapView ..
      · split
        · next h => exact enterAdmission_tapView h
        · exact endPower_tapView ..
    · exact .refl s

/-! ### A charge of an account whose standing is evaluated

The flag is what bars an account, and a charge leaves it; so the standing goes between GOOD and ARREARS, of which a tap hears nothing (R10). -/

theorem standingRequests_good_tapView (b : State) (a : AccountId) (s : State) :
    TapView s (standingRequests b a .arrears .good s) := by
  unfold standingRequests toPower
  dsimp only
  split
  · exact .refl s
  · split
    · exact resumePower_tapView ..
    · exact .refl s

theorem standingRequests_tapView (b : State) (a : AccountId) (flag : Bool) (x y : Int) (floor : Int) (s : State) :
    TapView s (standingRequests b a (standingOf flag x floor) (standingOf flag y floor) s) := by
  cases flag with
  | true => exact .refl s
  | false =>
    have hof : ∀ z : Int, standingOf false z floor = .arrears ∨ standingOf false z floor = .good := fun z => by
      unfold standingOf
      rw [if_neg Bool.false_ne_true]
      split
      · exact .inl rfl
      · exact .inr rfl
    rcases hof x with ex | ex <;> rcases hof y with ey | ey <;> rw [ex, ey]
    · exact .refl s
    · exact standingRequests_good_tapView ..
    · exact .refl s
    · exact .refl s

theorem evaluateStanding_tapView (b : State) {a : AccountId} {s : State} {z : Int}
    (hs : (s.account a).state ≠ .free →
      (s.account a).standing = standingOf (s.account a).barredFlag z (s.classOf (s.account a)).floor) :
    TapView s (evaluateStanding b a s) := by
  unfold evaluateStanding
  dsimp only
  split
  · exact .refl s
  · next h =>
    rw [hs fun e => h (.inl e)]
    refine TapView.trans ?_ (standingRequests_tapView ..)
    exact TapView.trans (t := putAccount b a _ s) (.same rfl rfl) (raise_tapView ..)

/-- A charge is a write of the account, of its balance and a residue, with the notice of a clamp, and then an evaluation. -/
theorem charge_evaluates (b : State) (a : AccountId) (v : Service) (q : Nat) (d : Band) (s : State) :
    ∃ (e : Edition) (u : State),
      let x := debitedAccount (withResidue (s.account a) v (accountCharge s a v q d).2) (accountCharge s a v q d).1
      Noticed { s with accounts := s.accounts.put a { x with edition := e } } u
      ∧ charge b a v q d s = evaluateStanding b a u :=
  debitAccount_evaluates b _ (modAccount_written b a (fun x => withResidue x v (accountCharge s a v q d).2) s)

theorem charge_tapView (b : State) {a : AccountId} {s : State} (v : Service) (q : Nat) (d : Band) (hs : standingOkAt s a) :
    TapView s (charge b a v q d s) := by
  obtain ⟨e, u, hu, he⟩ := charge_evaluates b a v q d s
  have hx : u.account a = { debitedAccount (withResidue (s.account a) v (accountCharge s a v q d).2)
      (accountCharge s a v q d).1 with edition := e } := by rw [hu.eq]; exact Table.get_put_self ..
  have hk : u.classes = s.classes := by rw [hu.eq]
  have hview : TapView s u := .same (by rw [hu.eq]) (by rw [hu.eq])
  rw [he]
  refine hview.trans (evaluateStanding_tapView b (z := (s.account a).balance) ?_)
  rw [hx, State.classOf, hk]
  exact hs

/-- A charge that does not clamp, of an account whose standing is evaluated, writes that account alone. -/
theorem charge_billed (b : State) {a : AccountId} {s : State} {v : Service} {q total : Nat} {d : Band}
    (htotal : (s.account a).residues.get (serviceIx v) + q * rateOf s (s.account a).cls v d = total)
    (hs : (s.account a).standing
      = standingOf (s.account a).barredFlag (s.account a).balance (s.classOf (s.account a)).floor)
    (hb : (s.account a).balance - ((total / 10000 : Nat) : Int) ≥ -99999999) :
    let t := charge b a v q d s
    Billed a s t ∧ (t.account a).balance = (s.account a).balance - ((total / 10000 : Nat) : Int)
      ∧ (t.account a).residues = (s.account a).residues.put (serviceIx v) (total % 10000)
      ∧ (t.account a).cls = (s.account a).cls := by
  obtain ⟨e, u, hu, he⟩ := charge_evaluates b a v q d s
  rw [accountCharge_eq, htotal] at hu
  rw [show splitTotal total = (total / 10000, total % 10000) from rfl] at hu
  dsimp only at hu
  rw [debitedAccount_of_le (x := withResidue (s.account a) v (total % 10000)) hb] at hu
  have hx : u.account a = { withResidue (s.account a) v (total % 10000) with
      balance := (s.account a).balance - ((total / 10000 : Nat) : Int), edition := e } := by
    rw [hu.eq]; exact Table.get_put_self ..
  have hk : u.classes = s.classes := by rw [hu.eq]
  have hw : Billed a s u :=
    (AccountWritten.billed (x := { withResidue (s.account a) v (total % 10000) with
      balance := (s.account a).balance - ((total / 10000 : Nat) : Int) }) ⟨e, rfl⟩ rfl rfl).trans (hu.billed a)
  obtain ⟨hy, -, -⟩ := evaluateStanding_account b a u
  intro t
  have ht : t = evaluateStanding b a u := he
  rw [ht]
  refine ⟨hw.trans (evaluateStanding_billed b (high := (s.account a).balance) ?_ ?_), ?_, ?_, ?_⟩
  · rw [hx]; exact Int.sub_le_self _ (Int.natCast_nonneg _)
  · rw [hx, State.classOf, hk]; exact hs
  · exact (congrArg Account.balance hy).trans (congrArg Account.balance hx)
  · exact (congrArg Account.residues hy).trans (congrArg Account.residues hx)
  · exact (congrArg Account.cls hy).trans (by rw [hx]; rfl)

/-! ### The deliveries of a socket leave the taps -/

theorem energyDelta_tapView {b s : State} (k : SocketId) (d : Option Nat) (hs : ∀ a, standingOkAt s a) :
    TapView s (energyDelta b k d s) := by
  unfold energyDelta
  split
  · exact (putPower_tapView ..).trans (charge_tapView b .energy _ _ (hs _))
  · exact (putPower_tapView ..).trans (raise_tapView ..)
  · refine ⟨rfl, fun n => ?_⟩
    rw [strayPedestal_pedestal]
    split
    · next e => subst e; rfl
    · rfl
  · exact raise_tapView ..

theorem releaseHeld_tapView (b : State) (k : SocketId) (x : PowerSession) (s : State) :
    TapView s (releaseHeld b k x s) := (putPower_tapView ..).trans (serve_tapView ..)

theorem powerTrip_tapView (b : State) (k : SocketId) (s : State) : TapView s (powerTrip b k s) := by
  have htripped (x : PowerSession) (c : NoticeClass) (i : NoticeInfo) :
      TapView s (serve b (feederOf s k) (raise c i (putPower b k (some x) s))) :=
    (putPower_tapView ..).trans ((raise_tapView ..).trans (serve_tapView ..))
  unfold powerTrip
  split
  · exact .refl s
  · split
    · exact htripped ..
    · exact htripped ..
    · exact htripped ..
    · exact tapView_if _ (endPower_tapView ..)
    · exact tapView_if _ (releaseHeld_tapView ..)
    · exact tapView_if _ (releaseHeld_tapView ..)
    · exact .refl s

theorem confirmOn_tapView (b : State) (k : SocketId) (x : PowerSession) (g : Bool) (s : State) :
    TapView s (confirmOn b k x g s) := by
  unfold confirmOn
  split
  · exact ((putPower_tapView ..).trans (raise_tapView ..)).trans (tapView_if _ (serve_tapView ..))
  · split
    · exact (endPower_tapView ..).trans (raise_tapView ..)
    · exact putPower_tapView ..

theorem liveAgreement_tapView (b : State) (k : SocketId) (x : PowerSession) (g r : Bool) (s : State) :
    TapView s (liveAgreement b k x g r s) := by
  unfold liveAgreement
  split
  · exact (putPower_tapView ..).trans (tapView_if _ (serve_tapView ..))
  · split
    · exact putPower_tapView ..
    · split
      · exact (putPower_tapView ..).trans (raise_tapView ..)
      · exact putPower_tapView ..

theorem confirmOff_tapView (b : State) (k : SocketId) (x : PowerSession) (g : Bool) (s : State) :
    TapView s (confirmOff b k x g s) := by
  unfold confirmOff
  split
  · split
    · exact endPower_tapView ..
    · exact releaseHeld_tapView ..
  · split
    · exact (putPower_tapView ..).trans (raise_tapView ..)
    · exact putPower_tapView ..

theorem powerAgreement_tapView (b : State) (k : SocketId) (s : State) : TapView s (powerAgreement b k s) := by
  unfold powerAgreement
  dsimp only
  split
  · exact .refl s
  · split
    · exact confirmOn_tapView ..
    · exact confirmOn_tapView ..
    · exact liveAgreement_tapView ..
    · exact confirmOff_tapView ..
    · exact tapView_if _ (confirmOff_tapView ..)
    · exact tapView_if _ (confirmOff_tapView ..)
    · exact .refl s

/-! ### Currents and relief leave the taps -/

theorem stepDown_tapView (b : State) (k : SocketId) (s : State) : TapView s (stepDown b k s) := by
  unfold stepDown
  split
  · exact .refl s
  · exact putPower_tapView ..

theorem shedSession_tapView (b : State) (k : SocketId) (s : State) : TapView s (shedSession b k s) := by
  unfold shedSession
  split
  · exact .refl s
  · split <;> exact putPower_tapView ..

theorem takeRelief_tapView (b : State) (f : FeederId) (s : State) : TapView s (takeRelief b f s).1 := by
  unfold takeRelief
  split
  · exact stepDown_tapView ..
  · split
    · exact shedSession_tapView ..
    · exact .refl s

theorem modFeeder_tapView (b : State) (f : FeederId) (g : Feeder → Feeder) (s : State) : TapView s (modFeeder b f g s) :=
  .same rfl rfl

theorem relieve_tapView (b : State) (f : FeederId) (s : State) : TapView s (relieve b f s) := by
  have h := takeRelief_tapView b f s
  unfold relieve reliefNotice
  generalize takeRelief b f s = r at h
  exact (h.trans (modFeeder_tapView ..)).trans (raise_tapView ..)

theorem measureFeeder_tapView (b : State) (f : FeederId) (s : State) : TapView s (measureFeeder b f s) := by
  unfold measureFeeder
  generalize measuredSum s f = sum
  dsimp only
  generalize (if (s.feeder f).cfg.rating * 10 < sum then (s.feeder f).overload + 1 else 0) = count
  split
  · exact (modFeeder_tapView ..).trans (relieve_tapView ..)
  · exact modFeeder_tapView ..

theorem takeCurrent_tapView (b : State) (k : SocketId) (n : Nat) (s : State) : TapView s (takeCurrent b k n s) := by
  unfold takeCurrent
  split
  · exact .refl s
  · exact putPower_tapView ..

theorem currentReport_tapView (b : State) (n : PedestalId) (ks : List (Fin 2)) (s : State) :
    TapView s (currentReport b n ks s) :=
  (eachOf_keeps (P := TapView s) (fun _ _ h => h.trans (takeCurrent_tapView ..)) ks (.refl s)).trans
    (measureFeeder_tapView ..)

/-! ### What a delivery leaves of the records -/

/-- Between `s` and `t` desired valves change at pedestal `n` alone. -/
structure OtherValves (n : PedestalId) (s t : State) : Prop where
  valve : ∀ m, m ≠ n → (t.pedestal m).desiredValve = (s.pedestal m).desiredValve

theorem OtherValves.refl (n : PedestalId) (s : State) : OtherValves n s s := ⟨fun _ _ => rfl⟩

theorem OtherValves.trans {n : PedestalId} {s t u : State} (h : OtherValves n s t) (k : OtherValves n t u) :
    OtherValves n s u := ⟨fun m hm => (k.valve m hm).trans (h.valve m hm)⟩

theorem TapView.others {s t : State} (h : TapView s t) (n : PedestalId) : OtherValves n s t := ⟨fun m _ => h.valve m⟩

theorem putWater_others (b : State) (n : TapId) (x : Option WaterSession) (s : State) :
    OtherValves n s (putWater b n x s) :=
  ⟨fun m hm => by rw [(putWater_pedestal_rest b n x s m).2.2, if_neg (Ne.symm hm)]⟩

theorem endWater_others (b : State) (n : TapId) (why : WaterEnd) (s : State) : OtherValves n s (endWater b n why s) := by
  unfold endWater
  split
  · exact .refl n s
  · next x _ =>
    have hlink : OtherValves n s (modAccount b x.account (fun a => { a with water := none }) (putWater b n none s)) :=
      (putWater_others b n none s).trans ⟨fun _ _ => rfl⟩
    exact hlink.trans ((raise_tapView ..).others n)

theorem countValveMiss_others (b : State) (n : TapId) (x : WaterSession) (s : State) :
    OtherValves n s (countValveMiss b n x s) := by
  unfold countValveMiss
  split
  · exact (putWater_others ..).trans ((raise_tapView ..).others n)
  · exact putWater_others ..

theorem valveAgreement_others (b : State) (n : TapId) (s : State) : OtherValves n s (valveAgreement b n s) := by
  unfold valveAgreement
  split
  · exact .refl n s
  · split
    · exact putWater_others ..
    · split
      · exact (endWater_others ..).trans ((raise_tapView ..).others n)
      · exact putWater_others ..
    · exact putWater_others ..
    · exact putWater_others ..
    · exact putWater_others ..
    · exact countValveMiss_others ..
    · exact endWater_others ..
    · exact countValveMiss_others ..

theorem applyWaterCap_others (b : State) (n : TapId) (s : State) : OtherValves n s (applyWaterCap b n s) := by
  unfold applyWaterCap
  split
  · exact .refl n s
  · split
    · exact putWater_others ..
    · exact .refl n s

/-- What the deliveries of a reply of pedestal `n` may change: of pedestals the desired outputs, and at `n` the strays; and where every standing is evaluated, of the other pedestals no valve. -/
structure Handed (n : PedestalId) (s t : State) : Prop where
  eq : PaidEq s t
  record : ∀ m, t.pedestal m =
    { s.pedestal m with
      desired := (t.pedestal m).desired, desiredValve := (t.pedestal m).desiredValve
      strayEnergy := (t.pedestal m).strayEnergy, strayWater := (t.pedestal m).strayWater
      edition := (t.pedestal m).edition }
  strays : ∀ m, m ≠ n → (t.pedestal m).strayEnergy = (s.pedestal m).strayEnergy
    ∧ (t.pedestal m).strayWater = (s.pedestal m).strayWater
  standing : (∀ a, standingOkAt s a) → ∀ a, standingOkAt t a
  valves : (∀ a, standingOkAt s a) → OtherValves n s t

theorem Handed.refl (n : PedestalId) (s : State) : Handed n s s :=
  ⟨rfl, fun _ => rfl, fun _ _ => ⟨rfl, rfl⟩, id, fun _ => .refl n s⟩

theorem Handed.trans {n : PedestalId} {s t u : State} (h : Handed n s t) (k : Handed n t u) : Handed n s u where
  eq := h.eq.trans k.eq
  record m := by rw [k.record m, h.record m]
  strays m hm := ⟨(k.strays m hm).1.trans (h.strays m hm).1, (k.strays m hm).2.trans (h.strays m hm).2⟩
  standing w := k.standing (h.standing w)
  valves w := (h.valves w).trans (k.valves (h.standing w))

theorem Served.handed {n : PedestalId} {s t : State} (h : Served s t) (hv : OtherValves n s t) : Handed n s t where
  eq := h.eq
  record m := by rw [h.outputs m]
  strays m _ := by rw [h.outputs m]; exact ⟨rfl, rfl⟩
  standing w a := h.standingOkAt a (w a)
  valves _ := hv

/-- What a charge leaves of the pedestals. -/
theorem charge_outputs (b : State) (a : AccountId) (v : Service) (q : Nat) (d : Band) (s : State) (m : PedestalId) :
    let t := charge b a v q d s
    t.pedestal m = { s.pedestal m with
      desired := (t.pedestal m).desired, desiredValve := (t.pedestal m).desiredValve, edition := (t.pedestal m).edition } := by
  obtain ⟨e, u, hu, he⟩ := charge_evaluates b a v q d s
  have hsame : u.pedestal m = s.pedestal m := by rw [hu.eq]; rfl
  intro t
  have ht : t = evaluateStanding b a u := he
  rw [ht, ← hsame]
  rcases evaluateStanding_cases b a u with ⟨e', -⟩ | w
  · rw [e']
  · exact w.outputs m

theorem charge_handed (b : State) (n : PedestalId) (a : AccountId) (v : Service) (q : Nat) (d : Band) (s : State) :
    Handed n s (charge b a v q d s) where
  eq := PaidEq.trans (t := modAccount b a _ s) rfl (debitAccount_eq b a _ _)
  record m := by rw [charge_outputs]
  strays m _ := by rw [charge_outputs]; exact ⟨rfl, rfl⟩
  standing w := (charge_worked b a v q d (.refl s)).standing w
  valves w := (charge_tapView b v q d (w a)).others n

theorem strayPedestal_handed (b : State) (n : PedestalId) (q : Nat) {f : Pedestal → Pedestal}
    (hf : ∀ x, f x = { x with strayEnergy := (f x).strayEnergy, strayWater := (f x).strayWater }) (s : State) :
    Handed n s (strayPedestal b n q f s) where
  eq := rfl
  record m := by
    rw [strayPedestal_pedestal]
    split
    · next e => subst e; rw [hf]
    · rfl
  strays m hm := by rw [strayPedestal_pedestal, if_neg (Ne.symm hm)]; exact ⟨rfl, rfl⟩
  standing w := w
  valves _ := ⟨fun m hm => by rw [strayPedestal_pedestal, if_neg (Ne.symm hm)]⟩

theorem raise_handed (n : PedestalId) (c : NoticeClass) (i : NoticeInfo) (s : State) : Handed n s (raise c i s) :=
  (raise_served c i (.refl s)).handed ((raise_tapView ..).others n)

theorem putPower_handed (b : State) (n : PedestalId) (k : SocketId) (x : Option PowerSession) (s : State) :
    Handed n s (putPower b k x s) := (putPower_served b k x (.refl s)).handed ((putPower_tapView ..).others n)

theorem putWater_handed (b : State) (n : TapId) (x : Option WaterSession) (s : State) : Handed n s (putWater b n x s) :=
  (putWater_served b n x (.refl s)).handed (putWater_others ..)

theorem energyDelta_handed (b : State) (n : PedestalId) (i : Fin 2) (d : Option Nat) (s : State) :
    Handed n s (energyDelta b (socketAt n i) d s) := by
  unfold energyDelta
  split
  · exact (putPower_handed ..).trans (charge_handed ..)
  · exact (putPower_handed ..).trans (raise_handed ..)
  · rw [pedestalOf_socketAt]
    exact strayPedestal_handed b n _ (fun _ => rfl) s
  · exact raise_handed ..

theorem waterDelta_handed (b : State) (n : TapId) (d : Option Nat) (s : State) : Handed n s (waterDelta b n d s) := by
  unfold waterDelta
  split
  · exact ((putWater_handed ..).trans (charge_handed ..)).trans
      ((applyWaterCap_served b n (.refl _)).handed (applyWaterCap_others ..))
  · exact (putWater_handed ..).trans (raise_handed ..)
  · exact strayPedestal_handed b n _ (fun _ => rfl) s
  · exact raise_handed ..

theorem powerTrip_handed (b : State) (n : PedestalId) (k : SocketId) (s : State) : Handed n s (powerTrip b k s) :=
  (powerTrip_served b k (.refl s)).handed ((powerTrip_tapView ..).others n)

theorem powerAgreement_handed (b : State) (n : PedestalId) (k : SocketId) (s : State) : Handed n s (powerAgreement b k s) :=
  (powerAgreement_served b k (.refl s)).handed ((powerAgreement_tapView ..).others n)

theorem deliverSocket_handed (n : PedestalId) (isNews : Bool) (f : List Nat) (i : Fin 2) (s : State) :
    Handed n s (deliverSocket n isNews f i s) := by
  have hif (c : Bool) (u v : State) (h : Handed n u v) : Handed n u (if c then v else u) := by
    split
    · exact h
    · exact .refl n u
  exact ((hif _ s _ (energyDelta_handed ..)).trans (hif _ _ _ (powerTrip_handed ..))).trans (powerAgreement_handed ..)

theorem deliverTap_handed (n : PedestalId) (isNews : Bool) (f : List Nat) (s : State) :
    Handed n s (deliverTap n isNews f s) := by
  unfold deliverTap
  dsimp only
  split
  · refine Handed.trans (t := if isNews then _ else s) ?_ ((valveAgreement_served _ n (.refl _)).handed (valveAgreement_others ..))
    split
    · exact waterDelta_handed ..
    · exact .refl n s
  · exact .refl n s

/-! ### The record of a reply, and the reply as a whole -/

/-- Step 1 of R89: the pedestal's record, with PEDESTAL_BACK where it was OFFLINE. -/
def answeredAt (n : PedestalId) (f : List Nat) (s : State) : State :=
  let t := putPedestal s n ((s.pedestal n).answered f) s
  if (s.pedestal n).link = .offline then linkNotice .pedestalBack n t else t

theorem answeredAt_noticed (n : PedestalId) (f : List Nat) (s : State) :
    Noticed (putPedestal s n ((s.pedestal n).answered f) s) (answeredAt n f s) := by
  unfold answeredAt
  dsimp only
  split
  · exact raise_noticed_self ..
  · exact .refl _

theorem answeredAt_eq (n : PedestalId) (f : List Nat) (s : State) : answeredAt n f s =
    { s with
      pedestals := (answeredAt n f s).pedestals, ports := (answeredAt n f s).ports
      heldNotices := (answeredAt n f s).heldNotices } := by
  conv_lhs => rw [(answeredAt_noticed n f s).eq]
  rw [(answeredAt_noticed n f s).eq]
  rfl

theorem answeredAt_pedestal (n : PedestalId) (f : List Nat) (s : State) (m : PedestalId) :
    (answeredAt n f s).pedestal m =
      if n = m then (s.pedestal n).settled ((s.pedestal n).answered f) else s.pedestal m := by
  rw [(answeredAt_noticed n f s).eq]
  exact putPedestal_pedestal ..

/-- What is read of the pedestal after its reply (R83, R89). -/
theorem answeredAt_reported (n : PedestalId) (f : List Nat) (s : State) :
    let p := s.pedestal n
    let a := (answeredAt n f s).pedestal n
    a.misses = 0 ∧ a.link = .online ∧ a.lastOutcome = some .valid ∧ a.tag = some (replyTag f) ∧ a.cfg = p.cfg
    ∧ (∀ i, p.cfg.kind.hasSocket i = true → a.reported.get i = (socketReport f i).reported)
    ∧ (p.cfg.kind.hasTap = true → a.reportedValve = (tapReport p.cfg.kind f).valve)
    ∧ a.strayEnergy = p.strayEnergy ∧ a.strayWater = p.strayWater := by
  intro p a
  have ha : a = p.settled (p.answered f) := (answeredAt_pedestal n f s n).trans (if_pos rfl)
  rw [ha, answered_eq]
  refine ⟨rfl, rfl, rfl, rfl, rfl, fun i hi => ?_, fun h => if_pos h, rfl, rfl⟩
  exact (Table.get_build ..).trans (if_pos hi)

/-- A reply is its record, then its deliveries in their order (R89). -/
theorem deliver_steps (n : PedestalId) (f : List Nat) (s : State) :
    let kind := (s.pedestal n).cfg.kind
    let news := accounted (s.pedestal n) f
    let v := deliverTap n news f (eachOf kind.sockets (deliverSocket n news f) (answeredAt n f s))
    deliver n f s = currentReport v n kind.sockets v := rfl

theorem deliver_kept (n : PedestalId) (f : List Nat) (s : State) : Handed n (answeredAt n f s) (deliver n f s) := by
  rw [deliver_steps]
  generalize answeredAt n f s = u
  have hsockets : Handed n u (eachOf (s.pedestal n).cfg.kind.sockets (deliverSocket n (accounted (s.pedestal n) f) f) u) :=
    eachOf_keeps (P := Handed n u) (fun i _ h => h.trans (deliverSocket_handed ..)) _ (.refl n u)
  exact (hsockets.trans (deliverTap_handed ..)).trans
    ((currentReport_served _ n _ (.refl _)).handed ((currentReport_tapView ..).others n))

/-- A repeated tag leaves the reply to the Service Manager alone (R86). -/
theorem deliver_repeat_served {n : PedestalId} {f : List Nat} {s : State} (h : (s.pedestal n).tag = some (replyTag f)) :
    Served (answeredAt n f s) (deliver n f s) := by
  have hold : accounted (s.pedestal n) f = false := by simp [accounted, h]
  rw [deliver_steps, hold]
  generalize answeredAt n f s = u
  have hsocket (i : Fin 2) (t : State) (ht : Served u t) : Served u (deliverSocket n false f i t) := by
    refine powerAgreement_served _ _ ?_
    split
    · exact powerTrip_served _ _ ht
    · exact ht
  have hsockets := eachOf_keeps (P := Served u) (fun i t ht => hsocket i t ht) (s.pedestal n).cfg.kind.sockets (.refl u)
  refine currentReport_served _ n _ ?_
  unfold deliverTap
  dsimp only
  split
  · exact valveAgreement_served _ n hsockets
  · exact hsockets

/-- What a reply leaves: the frame of a reply on the segment. -/
theorem deliver_replyTaken (g : SegmentId) (n : PedestalId) (f : List Nat) (s : State) :
    ReplyTaken g s (deliver n f (putSegment g { s.segment g with outstanding := none } s)) := by
  generalize hc : putSegment g { s.segment g with outstanding := none } s = c
  have hpaid : PaidEq c (deliver n f c) := PaidEq.trans (t := answeredAt n f c)
    (PaidEq.trans (t := putPedestal c n _ c) rfl (by rw [PaidEq, (answeredAt_noticed n f c).eq])) (deliver_kept n f c).eq
  generalize deliver n f c = t at hpaid
  rw [ReplyTaken, hpaid, ← hc]
  rfl

/-! ### A quiet feeder -/

/-- Below the eighth report in a row the measurement is a write of the feeder's readings (R111). -/
theorem measureFeeder_of_lt {b : State} {f : FeederId} {s : State} {sum count : Nat} (hsum : measuredSum s f = sum)
    (hcount : (if (s.feeder f).cfg.rating * 10 < sum then (s.feeder f).overload + 1 else 0) = count) (h : count < 8) :
    measureFeeder b f s = modFeeder b f (fun x => { x with measured := sum, overload := count }) s := by
  unfold measureFeeder
  rw [hsum]
  dsimp only
  rw [hcount]
  exact if_neg (Nat.not_le.2 h)

/-- A feeder that has not been over its rating for 7 reports in a row is measured, and nothing is relieved. -/
theorem measureFeeder_quiet (b : State) {f : FeederId} {s : State} (h : (s.feeder f).overload < 7) :
    ∃ g : Feeder → Feeder, measureFeeder b f s = modFeeder b f g s := by
  refine ⟨_, measureFeeder_of_lt rfl rfl ?_⟩
  split <;> omega

theorem putPower_overload (b : State) (k : SocketId) (x : Option PowerSession) (s : State) (f : FeederId) :
    ((putPower b k x s).feeder f).overload = (s.feeder f).overload := by
  rw [putPower_feeder]
  split <;> rfl

theorem takeCurrent_overload (b : State) (k : SocketId) (c : Nat) (s : State) (f : FeederId) :
    ((takeCurrent b k c s).feeder f).overload = (s.feeder f).overload := by
  unfold takeCurrent
  split
  · rfl
  · exact putPower_overload ..

/-- The current report of a quiet feeder writes last currents, and the feeder's readings. -/
theorem currentReport_quiet (b : State) (n : PedestalId) (ks : List (Fin 2)) {s : State}
    (h : (s.feeder (s.pedestal n).cfg.feeder).overload < 7) :
    ∃ g : Feeder → Feeder, currentReport b n ks s = modFeeder b (s.pedestal n).cfg.feeder g
      (eachOf ks (fun i => takeCurrent b (socketAt n i) ((s.pedestal n).reported.get i).current) s) :=
  measureFeeder_quiet b (lt_of_eq_of_lt
    (eachOf_keeps (P := fun t => (t.feeder (s.pedestal n).cfg.feeder).overload = (s.feeder (s.pedestal n).cfg.feeder).overload)
      (fun _ _ e => (takeCurrent_overload ..).trans e) ks rfl) h)

/-! ### The deliveries of a pedestal, by its kind -/

/-- The tap's deliveries (R89 step 3). -/
theorem deliverTap_of_tap {n : PedestalId} {s : State} (news : Bool) (f : List Nat)
    (h : (s.pedestal n).cfg.kind.hasTap = true) :
    deliverTap n news f s =
      let t := if news then waterDelta s n (unpack (tapReport (s.pedestal n).cfg.kind f).water) s else s
      valveAgreement t n t := if_pos h

theorem accounted_of_ne {p : Pedestal} {f : List Nat} (h : p.tag ≠ some (replyTag f)) : accounted p f = true :=
  decide_eq_true h

/-- The reply of a TAP: its tap, and a current report without sockets (log 13). -/
theorem deliver_of_tap {n : PedestalId} {f : List Nat} {s : State} (hk : (s.pedestal n).cfg.kind = .tap)
    (hn : (s.pedestal n).tag ≠ some (replyTag f)) :
    let u := answeredAt n f s
    let t := waterDelta u n (unpack (tapReport .tap f).water) u
    let v := valveAgreement t n t
    deliver n f s = currentReport v n [] v := by
  have hcfg : ((answeredAt n f s).pedestal n).cfg = (s.pedestal n).cfg := (answeredAt_reported n f s).2.2.2.2.1
  rw [deliver_steps, hk, accounted_of_ne hn]
  show currentReport (deliverTap n true f (answeredAt n f s)) n [] (deliverTap n true f (answeredAt n f s)) = _
  rw [deliverTap_of_tap true f (by rw [hcfg, hk]; rfl), hcfg, hk]
  rfl

/-! ### A metered tap -/

/-- A metered quantity of a FLOWING session that does not clamp its account: the volume, then the cap (R114, R117). -/
theorem waterDelta_flowing (b : State) {n : TapId} {s : State} {y : WaterSession} {q total cap volume : Nat}
    (hy : s.water.get n = some y) (hflow : y.state = .flowing)
    (htotal : (s.account y.account).residues.get (serviceIx .water)
      + q * rateOf s (s.account y.account).cls .water (bandNow s) = total)
    (hb : (s.account y.account).balance - ((total / 10000 : Nat) : Int) ≥ -99999999)
    (hs : (s.account y.account).standing = standingOf (s.account y.account).barredFlag (s.account y.account).balance
      (s.classOf (s.account y.account)).floor)
    (hcap : (s.classOf (s.account y.account)).waterCap = cap) (hvolume : min (y.volume + q) 4294967295 = volume) :
    let t := waterDelta b n (some q) s
    let within := cap = 0 ∨ volume < cap
    (within → t.water.get n = some { y with volume := volume } ∧ (t.pedestal n).desiredValve = true)
    ∧ (¬ within → t.water.get n = some
        { y with volume := volume, state := .closing, closeReason := some .cap, confirmMisses := 0 }
      ∧ (t.pedestal n).desiredValve = false)
    ∧ (t.account y.account).balance = (s.account y.account).balance - ((total / 10000 : Nat) : Int)
    ∧ (t.account y.account).residues = (s.account y.account).residues.put (serviceIx .water) (total % 10000) := by
  intro t
  have ht : t = applyWaterCap b n
      (charge b y.account .water q (bandNow s) (putWater b n (some { y with volume := volume }) s)) := by
    simp only [t, waterDelta, hy, addCounter, ← hvolume]
    rfl
  obtain ⟨hbilled, hbalance, hresidues, hcls⟩ :=
    charge_billed b (s := putWater b n (some { y with volume := volume }) s) htotal hs hb
  generalize charge b y.account .water q (bandNow s) (putWater b n (some { y with volume := volume }) s) = u at *
  have hslot : u.water.get n = some { y with volume := volume } := by rw [hbilled.eq]; exact Table.get_put_self ..
  have hvalve : (u.pedestal n).desiredValve = true := by
    rw [show u.pedestal n = (putWater b n (some { y with volume := volume }) s).pedestal n by rw [hbilled.eq]; rfl,
      (putWater_pedestal_rest ..).2.2, if_pos rfl]
    show y.state.on = true
    rw [hflow]; rfl
  have hclass : (u.classOf (u.account y.account)).waterCap = cap := by
    rw [State.classOf, hcls, show u.classes = s.classes by rw [hbilled.eq]; rfl, ← hcap]; rfl
  obtain ⟨hstays, hcaps⟩ := applyWaterCap_some b n u _ hslot
  dsimp only at hstays hcaps
  rw [hclass] at hstays hcaps
  rw [ht]
  refine ⟨fun hw => ?_, fun hw => ?_, ?_, ?_⟩
  · rw [hstays (by rintro ⟨-, h0, hle⟩; omega)]
    exact ⟨hslot, hvalve⟩
  · obtain ⟨e, h⟩ := hcaps ⟨by rw [hflow]; rfl, by omega, by omega⟩
    rw [h]
    exact ⟨Table.get_put_self .., by rw [State.pedestal, Table.get_put_self]; rfl⟩
  · rw [(applyWaterCap_served b n (.refl u)).links]; exact hbalance
  · rw [(applyWaterCap_served b n (.refl u)).links]; exact hresidues

theorem waterDelta_reported (b : State) (n : TapId) (d : Option Nat) (s : State) :
    ((waterDelta b n d s).pedestal n).reportedValve = (s.pedestal n).reportedValve := by
  rw [(waterDelta_handed b n d s).record]

/-- The agreement of a tap whose session is FLOWING or has just met its cap, with an OPEN valve (R116). -/
theorem valveAgreement_metered {b : State} {n : TapId} {s : State} {z : WaterSession} (hz : s.water.get n = some z)
    (hr : (s.pedestal n).reportedValve = true) :
    (z.state = .flowing → (s.pedestal n).desiredValve = true →
      valveAgreement b n s = putWater b n (some { z with confirmMisses := 0 }) s)
    ∧ (z.state = .closing → z.confirmMisses = 0 → (s.pedestal n).desiredValve = false →
      valveAgreement b n s = putWater b n (some { z with confirmMisses := 1 }) s) := by
  unfold valveAgreement tapAgrees
  rw [hz, hr]
  refine ⟨fun hs hd => ?_, fun hs hc hd => ?_⟩
  · rw [hd]; simp [hs]
  · rw [hd]
    simp [hs, countValveMiss, hc, reachesLimit, moreMisses, Config.missLimit]

/-- The reply of a TAP with a FLOWING session, metered and charged (R89, R114, R116, R117). -/
theorem deliver_tap_charged {n : PedestalId} {f : List Nat} {s : State} {y : WaterSession} {q total cap volume : Nat}
    (hk : (s.pedestal n).cfg.kind = .tap) (hn : (s.pedestal n).tag ≠ some (replyTag f)) (hy : s.water.get n = some y)
    (hflow : y.state = .flowing) (hvalve : (tapReport .tap f).valve = true) (hq : unpack (tapReport .tap f).water = some q)
    (htotal : (s.account y.account).residues.get (serviceIx .water)
      + q * rateOf s (s.account y.account).cls .water (bandNow s) = total)
    (hb : (s.account y.account).balance - ((total / 10000 : Nat) : Int) ≥ -99999999)
    (hs : (s.account y.account).standing = standingOf (s.account y.account).barredFlag (s.account y.account).balance
      (s.classOf (s.account y.account)).floor)
    (hcap : (s.classOf (s.account y.account)).waterCap = cap) (hvolume : min (y.volume + q) 4294967295 = volume) :
    let t := deliver n f s
    t.water.get n = some (if cap = 0 ∨ volume < cap then { y with volume := volume, confirmMisses := 0 }
      else { y with volume := volume, state := .closing, closeReason := some .cap, confirmMisses := 1 })
    ∧ (t.account y.account).balance = (s.account y.account).balance - ((total / 10000 : Nat) : Int)
    ∧ (t.account y.account).residues = (s.account y.account).residues.put (serviceIx .water) (total % 10000) := by
  obtain ⟨-, -, -, -, -, -, hreported, -, -⟩ := answeredAt_reported n f s
  have hopen : ((answeredAt n f s).pedestal n).reportedValve = true := by
    rw [hreported (by rw [hk]; rfl), hk]; exact hvalve
  have heq := answeredAt_eq n f s
  intro t
  have ht : t = _ := deliver_of_tap hk hn
  rw [hq] at ht
  generalize answeredAt n f s = u at heq hopen ht
  obtain ⟨hwithin, hcapped, hbalance, hresidues⟩ := waterDelta_flowing u (s := u) (y := y) (q := q) (total := total)
    (cap := cap) (volume := volume) (by rw [heq]; exact hy) hflow (by rw [heq]; exact htotal) (by rw [heq]; exact hb)
    (by rw [heq]; exact hs) (by rw [heq]; exact hcap) hvolume
  have hmetered := waterDelta_reported u n (some q) u
  rw [hopen] at hmetered
  have haccount : u.account y.account = s.account y.account := by rw [heq]; rfl
  rw [haccount] at hbalance hresidues
  generalize waterDelta u n (some q) u = v at *
  have hlast : Served v t := ht ▸ currentReport_served _ n [] (valveAgreement_served v n (.refl v))
  have hslot : t.water.get n = (valveAgreement v n v).water.get n := by
    rw [ht, (currentReport_tapView _ n [] _).water]
  refine ⟨?_, by rw [hlast.links]; exact hbalance, by rw [hlast.links]; exact hresidues⟩
  rw [hslot]
  by_cases hw : cap = 0 ∨ volume < cap
  · obtain ⟨hz, hd⟩ := hwithin hw
    rw [if_pos hw, (valveAgreement_metered hz hmetered).1 hflow hd]
    exact Table.get_put_self ..
  · obtain ⟨hz, hd⟩ := hcapped hw
    rw [if_neg hw, (valveAgreement_metered hz hmetered).2 rfl rfl hd]
    exact Table.get_put_self ..

/-! ### A metered socket -/

/-- A SINGLE's socket deliveries, when it has not tripped. -/
theorem deliverSocket_untripped {n : PedestalId} {f : List Nat} {i : Fin 2} (s : State)
    (h : (socketReport f i).reported.trip = false) :
    deliverSocket n true f i s =
      let t := energyDelta s (socketAt n i) (unpack (socketReport f i).energy) s
      powerAgreement t (socketAt n i) t := by
  unfold deliverSocket
  simp only [h, if_true, Bool.false_eq_true, if_false]

/-- The reply of a SINGLE: its socket, its tap, its current. -/
theorem deliver_of_single {n : PedestalId} {f : List Nat} {s : State} (hk : (s.pedestal n).cfg.kind = .single)
    (hn : (s.pedestal n).tag ≠ some (replyTag f)) :
    let v := deliverTap n true f (deliverSocket n true f 0 (answeredAt n f s))
    deliver n f s = currentReport v n [0] v := by
  rw [deliver_steps, hk, accounted_of_ne hn]
  rfl

/-- With no water session a tap's deliveries are its stray water or its fault marker. -/
theorem deliverTap_idle (n : PedestalId) (news : Bool) (f : List Nat) {s : State} (h : s.water.get n = none) :
    deliverTap n news f s =
      { s with
        pedestals := (deliverTap n news f s).pedestals, ports := (deliverTap n news f s).ports
        heldNotices := (deliverTap n news f s).heldNotices } := by
  have hdelta (d : Option Nat) : ∃ p r l, waterDelta s n d s = { s with pedestals := p, ports := r, heldNotices := l } := by
    unfold waterDelta
    rw [h]
    cases d with
    | none => exact ⟨_, _, _, (raise_noticed_self ..).eq⟩
    | some q => exact ⟨_, _, _, rfl⟩
  have hwhole : ∃ p r l, deliverTap n news f s = { s with pedestals := p, ports := r, heldNotices := l } := by
    unfold deliverTap
    dsimp only
    split
    · obtain ⟨p, r, l, e⟩ := hdelta (unpack (tapReport (s.pedestal n).cfg.kind f).water)
      cases news with
      | false => exact ⟨_, _, _, by rw [valveAgreement]; simp only [Bool.false_eq_true, if_false, h]; rfl⟩
      | true => exact ⟨p, r, l, by rw [valveAgreement]; simp only [if_true, e, h]⟩
    · exact ⟨_, _, _, rfl⟩
  obtain ⟨p, r, l, e⟩ := hwhole
  rw [e]

/-- The agreement of a LIVE socket whose relay and limit are as desired, and which holds what it was granted (R103). -/
theorem powerAgreement_settled {b : State} {n : PedestalId} {i : Fin 2} {s : State} {z : PowerSession}
    (hz : s.power.get (socketAt n i) = some z) (hlive : z.state = .live) (hheld : z.held = z.granted)
    (hagrees : SocketAgrees (s.pedestal n) i ((s.pedestal n).reported.get i)) :
    powerAgreement b (socketAt n i) s = putPower b (socketAt n i) (some { z with confirmMisses := 0 }) s := by
  have hmin : min z.held z.granted = z.held := by rw [hheld, Nat.min_self]
  simp only [powerAgreement, hz, pedestalOf_socketAt, positionOf_socketAt, (socketAgrees_iff ..).2 hagrees, hlive,
    liveAgreement, if_true, hmin, Nat.lt_irrefl, if_false]

theorem powerWrite_desired (b : State) (n : PedestalId) (i : Fin 2) (x : Option PowerSession) (s : State) :
    ((putPower b (socketAt n i) x s).pedestal n).desired.get i =
      let w := desiredFor ((s.pedestal n).cfg.ratings.get i) x
      { (s.pedestal n).desired.get i with relay := w.1, limit := w.2 } := by
  have h := putPower_desired b (socketAt n i) x s
  rw [pedestalOf_socketAt, positionOf_socketAt] at h
  rw [h]
  exact Table.get_put_self ..

theorem energyDelta_some (b : State) {k : SocketId} {s : State} {x : PowerSession} (q : Nat) (h : s.power.get k = some x) :
    energyDelta b k (some q) s = charge b x.account .energy q (bandNow s)
      (putPower b k (some { x with energy := min (x.energy + q) 4294967295 }) s) := by
  simp only [energyDelta, h]; rfl

/-- A LIVE session's socket agrees with a report of what it was granted (R88, R95). -/
theorem putPower_live_agrees (b : State) {n : PedestalId} {i : Fin 2} {s : State} {x : PowerSession} {r : Reported}
    (hlive : x.state = .live) (hr : (s.pedestal n).reported.get i = r) (hrelay : r.relay = true)
    (hlimit : r.limit = if (s.pedestal n).cfg.ratings.get i = .a63 ∧ x.granted = 32 then .l32 else .l63) :
    let p := (putPower b (socketAt n i) (some x) s).pedestal n
    SocketAgrees p i (p.reported.get i) := by
  intro p
  have hdesired : p.desired.get i = { (s.pedestal n).desired.get i with
      relay := true, limit := if (s.pedestal n).cfg.ratings.get i = .a63 ∧ x.granted = 32 then .l32 else .l63 } := by
    rw [powerWrite_desired]
    simp [desiredFor, hlive, PowerState.on]
  have hkept := congrArg Pedestal.reported ((putPower_served b (socketAt n i) (some x) (.refl s)).outputs n)
  have hreported : p.reported.get i = r := (congrArg (fun t : Table Reported 2 => t.get i) hkept).trans hr
  rw [SocketAgrees, hreported, hdesired]
  exact ⟨hrelay, fun _ _ => hlimit⟩

/-- The quantity and the agreement of a LIVE session that draws as it was granted (R91, R103, R114). -/
theorem liveSocket_metered {b s : State} {n : PedestalId} {i : Fin 2} {y : PowerSession} {r : Reported} {q total : Nat}
    (hy : s.power.get (socketAt n i) = some y) (hlive : y.state = .live) (hheld : y.held = y.granted)
    (hr : (s.pedestal n).reported.get i = r) (hrelay : r.relay = true)
    (hlimit : r.limit = if (s.pedestal n).cfg.ratings.get i = .a63 ∧ y.granted = 32 then .l32 else .l63)
    (htotal : (s.account y.account).residues.get (serviceIx .energy)
      + q * rateOf s (s.account y.account).cls .energy (bandNow s) = total)
    (hb : (s.account y.account).balance - ((total / 10000 : Nat) : Int) ≥ -99999999)
    (hs : (s.account y.account).standing = standingOf (s.account y.account).barredFlag (s.account y.account).balance
      (s.classOf (s.account y.account)).floor) :
    let t := energyDelta b (socketAt n i) (some q) s
    let v := powerAgreement t (socketAt n i) t
    v.power.get (socketAt n i) = some { y with energy := min (y.energy + q) 4294967295, confirmMisses := 0 }
    ∧ v.water = s.water ∧ (∀ f, (v.feeder f).overload = (s.feeder f).overload)
    ∧ (v.account y.account).balance = (s.account y.account).balance - ((total / 10000 : Nat) : Int)
    ∧ (v.account y.account).residues = (s.account y.account).residues.put (serviceIx .energy) (total % 10000) := by
  intro t v
  have hdelta : t = _ := energyDelta_some b q hy
  obtain ⟨hbilled, hbalance, hresidues, -⟩ := charge_billed b (a := y.account) (v := .energy) (q := q) (total := total)
    (d := bandNow s) (s := putPower b (socketAt n i) (some { y with energy := min (y.energy + q) 4294967295 }) s)
    htotal hs hb
  rw [← hdelta] at hbilled hbalance hresidues
  have hslot : t.power.get (socketAt n i) = some { y with energy := min (y.energy + q) 4294967295 } := by
    rw [hbilled.eq]; exact Table.get_put_self ..
  have hagrees : SocketAgrees (t.pedestal n) i ((t.pedestal n).reported.get i) := by
    have hsame : t.pedestal n
        = (putPower b (socketAt n i) (some { y with energy := min (y.energy + q) 4294967295 }) s).pedestal n := by
      rw [hbilled.eq]; rfl
    rw [hsame]
    exact putPower_live_agrees b (x := { y with energy := min (y.energy + q) 4294967295 }) hlive hr hrelay hlimit
  have hv : v = _ := powerAgreement_settled (b := t) hslot hlive hheld hagrees
  rw [hv]
  refine ⟨Table.get_put_self .., ?_, fun f => ?_, hbalance, hresidues⟩
  · rw [(putPower_tapView ..).water, hbilled.tapView.water, (putPower_tapView ..).water]
  · rw [putPower_overload, show t.feeder f = _ by rw [hbilled.eq]]
    exact putPower_overload ..

/-! ### Notices told on two states alike -/

theorem NoticeView.raised {s t : State} (c : NoticeClass) (i : NoticeInfo) (h : NoticeView s t) :
    NoticeView (Machine.raise c i s) (Machine.raise c i t) where
  same := h.raise c i
  device := by rw [raise_device, raise_device, h.device]
  clock := by rw [raise_clock, raise_clock, h.clock]
  levels := by rw [raise_levels, raise_levels, h.levels]
  thresholds := by rw [raise_thresholds, raise_thresholds, h.thresholds]

theorem strayPedestal_noticeView (b : State) (n : PedestalId) (q : Nat) (f : Pedestal → Pedestal) (s : State) :
    NoticeView s (strayPedestal b n q f s) := ⟨⟨rfl, rfl⟩, rfl, rfl, rfl, rfl⟩

theorem modFeeder_noticeView (b : State) (f : FeederId) (g : Feeder → Feeder) (s : State) :
    NoticeView s (modFeeder b f g s) := ⟨⟨rfl, rfl⟩, rfl, rfl, rfl, rfl⟩

theorem takeCurrent_feederWork (b : State) (k : SocketId) (c : Nat) (s : State) : FeederWork s (takeCurrent b k c s) := by
  unfold takeCurrent
  split
  · exact .refl s
  · exact putPower_feederWork ..

/-- A pedestal that was not OFFLINE answers without a notice. -/
theorem answeredAt_online {n : PedestalId} {f : List Nat} {s : State} (h : (s.pedestal n).link ≠ .offline) :
    answeredAt n f s = putPedestal s n ((s.pedestal n).answered f) s := if_neg h

theorem answeredAt_noticeView {n : PedestalId} {f : List Nat} {s : State} (h : (s.pedestal n).link ≠ .offline) :
    NoticeView s (answeredAt n f s) := by
  rw [answeredAt_online h]
  exact ⟨⟨rfl, rfl⟩, rfl, rfl, rfl, rfl⟩

/-! ### Quantities without a session (R90, R91) -/

/-- A stray counter after a field, `none` its fault marker. -/
def countedStray (c : Nat) (d : Option Nat) : Nat := match d with | some q => min (c + q) 4294967295 | none => c

/-- METER_FAULT for a field's fault marker, of an outlet without a session. -/
def faultTold (d : Option Nat) (o : Outlet) (s : State) : State :=
  if d = none then raise .meterFault { outlet := some o } s else s

/-- From `s` to `t` nothing but strays was counted at pedestal `n`, up to the counters given, and told as on `told`. -/
structure Strayed (n : PedestalId) (energy water : Nat) (told s t : State) : Prop where
  eq : t = { s with pedestals := t.pedestals, ports := t.ports, heldNotices := t.heldNotices }
  cfg : (t.pedestal n).cfg = (s.pedestal n).cfg
  energy : (t.pedestal n).strayEnergy = energy
  water : (t.pedestal n).strayWater = water
  notices : NoticeView told t

section

variable {n : PedestalId} {e w : Nat} {told s t : State} {f : List Nat}

theorem Strayed.raise (c : NoticeClass) (i : NoticeInfo) (h : Strayed n e w told s t) :
    Strayed n e w (Machine.raise c i told) s (Machine.raise c i t) where
  eq := by rw [(raise_noticed_self c i t).eq, h.eq]
  cfg := by rw [raise_pedestal]; exact h.cfg
  energy := by rw [raise_pedestal]; exact h.energy
  water := by rw [raise_pedestal]; exact h.water
  notices := h.notices.raised c i

/-- A socket without a session: the energy goes astray, and neither a trip nor an agreement is anyone's. -/
theorem Strayed.socket (i : Fin 2) (h : Strayed n e w told s t) (hp : s.power.get (socketAt n i) = none) :
    let d := unpack (socketReport f i).energy
    Strayed n (countedStray e d) w (faultTold d (.socket (socketAt n i)) told) s (deliverSocket n true f i t) := by
  have hpt : t.power.get (socketAt n i) = none := by rw [h.eq]; exact hp
  intro d
  have htrip (u : State) (hu : u.power.get (socketAt n i) = none) (c : Bool) :
      powerAgreement (if c then powerTrip u (socketAt n i) u else u) (socketAt n i)
        (if c then powerTrip u (socketAt n i) u else u) = u := by
    have hsame : (if c then powerTrip u (socketAt n i) u else u) = u := by
      cases c
      · rfl
      · simp only [powerTrip, hu, if_true]
    rw [hsame]
    simp only [powerAgreement, hu]
  have hdelta : deliverSocket n true f i t = energyDelta t (socketAt n i) d t := by
    refine htrip _ ?_ _
    show (energyDelta t (socketAt n i) d t).power.get _ = none
    unfold energyDelta
    cases d <;> simp only [hpt]
    · rw [meterFaultNotice, raise_power]; exact hpt
    · exact hpt
  rw [hdelta]
  unfold energyDelta faultTold countedStray
  rw [hpt]
  cases d with
  | none => exact h.raise ..
  | some q =>
    dsimp only
    rw [if_neg nofun, pedestalOf_socketAt]
    refine ⟨?_, ?_, ?_, ?_, h.notices.trans (strayPedestal_noticeView ..)⟩
    · rw [strayPedestal, h.eq]
    all_goals rw [strayPedestal_pedestal, if_pos rfl]
    · exact h.cfg
    · show min ((t.pedestal n).strayEnergy + q) 4294967295 = _
      rw [h.energy]
    · exact h.water

/-- A tap without a session. -/
theorem Strayed.tap (h : Strayed n e w told s t) (hw : s.water.get n = none) (hk : (s.pedestal n).cfg.kind.hasTap = true) :
    let d := unpack (tapReport (s.pedestal n).cfg.kind f).water
    Strayed n e (countedStray w d) (faultTold d (.tap n) told) s (deliverTap n true f t) := by
  have hwt : t.water.get n = none := by rw [h.eq]; exact hw
  intro d
  have hdelta : deliverTap n true f t = waterDelta t n d t := by
    rw [deliverTap_of_tap true f (by rw [h.cfg]; exact hk), h.cfg]
    show valveAgreement (waterDelta t n d t) n (waterDelta t n d t) = _
    have hnone : (waterDelta t n d t).water.get n = none := by
      unfold waterDelta
      cases d <;> simp only [hwt]
      · rw [meterFaultNotice, raise_water]; exact hwt
      · exact hwt
    simp only [valveAgreement, hnone]
  rw [hdelta]
  unfold waterDelta faultTold countedStray
  rw [hwt]
  cases d with
  | none => exact h.raise ..
  | some q =>
    dsimp only
    rw [if_neg nofun]
    refine ⟨?_, ?_, ?_, ?_, h.notices.trans (strayPedestal_noticeView ..)⟩
    · rw [strayPedestal, h.eq]
    all_goals rw [strayPedestal_pedestal, if_pos rfl]
    · exact h.cfg
    · exact h.energy
    · show min ((t.pedestal n).strayWater + q) 4294967295 = _
      rw [h.water]

end

/-- What a quiet current report leaves, where no socket of the pedestal has a session. -/
theorem currentReport_idle {n : PedestalId} {ks : List (Fin 2)} {s : State}
    (hp : ∀ i, s.power.get (socketAt n i) = none) (h : (s.feeder (s.pedestal n).cfg.feeder).overload < 7) :
    ∃ g : Feeder → Feeder, currentReport s n ks s = modFeeder s (s.pedestal n).cfg.feeder g s := by
  have hnone : eachOf ks (fun i => takeCurrent s (socketAt n i) ((s.pedestal n).reported.get i).current) s = s :=
    eachOf_keeps (P := fun t => t = s) (fun i t e => by rw [e]; simp only [takeCurrent, hp]) ks rfl
  obtain ⟨g, hg⟩ := currentReport_quiet s n ks h
  exact ⟨g, by rw [hg, hnone]⟩

section

variable {n : PedestalId} {f : List Nat} {s : State}

theorem answeredAt_cfg (n : PedestalId) (f : List Nat) (s : State) :
    ((answeredAt n f s).pedestal n).cfg = (s.pedestal n).cfg := (answeredAt_reported n f s).2.2.2.2.1

theorem answeredAt_overload (n : PedestalId) (f : List Nat) (s : State) (g : FeederId) :
    ((answeredAt n f s).feeder g).overload = (s.feeder g).overload := by rw [answeredAt_eq]; rfl

/-- The deliveries of an accounted reply where no outlet has a session, by the pedestal's kind (R90, R91). -/
theorem deliveries_strayed {told : State} (htold : NoticeView told s) (hp : ∀ i, s.power.get (socketAt n i) = none) (hw : s.water.get n = none)
    (hl : (s.pedestal n).link ≠ .offline) :
    let p := s.pedestal n
    let energy := fun i : Fin 2 => unpack (socketReport f i).energy
    let water := unpack (tapReport p.cfg.kind f).water
    let marked := fun (i : Fin 2) (u : State) => faultTold (energy i) (.socket (socketAt n i)) u
    Strayed n
      (match p.cfg.kind with
        | .tap => p.strayEnergy
        | .single => countedStray p.strayEnergy (energy 0)
        | .twin => countedStray (countedStray p.strayEnergy (energy 0)) (energy 1)
        | .power2 => countedStray (countedStray p.strayEnergy (energy 0)) (energy 1))
      (if p.cfg.kind = .power2 then p.strayWater else countedStray p.strayWater water)
      (match p.cfg.kind with
        | .tap => faultTold water (.tap n) told
        | .single => faultTold water (.tap n) (marked 0 told)
        | .twin => faultTold water (.tap n) (marked 1 (marked 0 told))
        | .power2 => marked 1 (marked 0 told))
      (answeredAt n f s)
      (deliverTap n true f (eachOf p.cfg.kind.sockets (deliverSocket n true f) (answeredAt n f s))) := by
  intro p energy water marked
  have hcfg := answeredAt_cfg n f s
  obtain ⟨-, -, -, -, -, -, -, henergy, hwater⟩ := answeredAt_reported n f s
  have hstart : Strayed n p.strayEnergy p.strayWater told (answeredAt n f s) (answeredAt n f s) :=
    ⟨rfl, rfl, henergy, hwater, htold.trans (answeredAt_noticeView hl)⟩
  have hpu : ∀ i, (answeredAt n f s).power.get (socketAt n i) = none := fun i => by rw [answeredAt_eq]; exact hp i
  have hwu : (answeredAt n f s).water.get n = none := by rw [answeredAt_eq]; exact hw
  have htap {e w : Nat} {told t : State} (h : Strayed n e w told (answeredAt n f s) t) (hk : p.cfg.kind.hasTap = true) :=
    h.tap (f := f) hwu (by rw [hcfg]; exact hk)
  rw [hcfg] at htap
  change ∀ {e w : Nat} {told t : State}, _ → _ → Strayed n e (countedStray w water) (faultTold water (.tap n) told) _ _ at htap
  have h0 := hstart.socket (f := f) 0 (hpu 0)
  have h1 := h0.socket (f := f) 1 (hpu 1)
  have hnotap (hk : p.cfg.kind = .power2) (t : State) (ht : (t.pedestal n).cfg = p.cfg) : deliverTap n true f t = t :=
    if_neg (by rw [ht, hk]; decide)
  cases hk : p.cfg.kind with
  | twin => exact htap h1 (by rw [hk]; rfl)
  | single => exact htap h0 (by rw [hk]; rfl)
  | power2 =>
    dsimp only
    rw [show eachOf PedestalKind.power2.sockets (deliverSocket n true f) (answeredAt n f s)
      = deliverSocket n true f 1 (deliverSocket n true f 0 (answeredAt n f s)) from rfl, hnotap hk _ (h1.cfg.trans hcfg)]
    exact h1
  | tap => exact htap hstart (by rw [hk]; rfl)

/-- An accounted reply where no outlet has a session, on a quiet feeder, counts strays and tells of fault markers. -/
theorem deliver_stray (hn : (s.pedestal n).tag ≠ some (replyTag f)) (hp : ∀ i, s.power.get (socketAt n i) = none)
    (hw : s.water.get n = none) (hl : (s.pedestal n).link ≠ .offline)
    (hload : (s.feeder (s.pedestal n).cfg.feeder).overload < 7) :
    ∃ g : Feeder → Feeder,
      let v := deliverTap n true f (eachOf (s.pedestal n).cfg.kind.sockets (deliverSocket n true f) (answeredAt n f s))
      deliver n f s = modFeeder v (s.pedestal n).cfg.feeder g v := by
  have h := deliveries_strayed (f := f) (.refl s) hp hw hl
  have hcfg := h.cfg.trans (answeredAt_cfg n f s)
  have heq := h.eq
  rw [deliver_steps, accounted_of_ne hn]
  dsimp only
  generalize deliverTap n true f (eachOf (s.pedestal n).cfg.kind.sockets (deliverSocket n true f) (answeredAt n f s)) = v at *
  have hfeeder : ∀ g, (v.feeder g).overload = (s.feeder g).overload := fun g => by
    rw [show v.feeder g = (answeredAt n f s).feeder g by rw [heq]; rfl, answeredAt_overload]
  obtain ⟨g, e⟩ := currentReport_idle (n := n) (ks := (s.pedestal n).cfg.kind.sockets) (s := v)
    (fun i => by rw [heq, show (answeredAt n f s).power = s.power by rw [answeredAt_eq]]; exact hp i)
    (by rw [hcfg, hfeeder]; exact hload)
  exact ⟨g, by rw [e, hcfg]⟩

/-- A TAP that was ONLINE answers without a change of its edition (R79). -/
theorem answeredAt_tap_edition (hk : (s.pedestal n).cfg.kind = .tap) (hl : (s.pedestal n).link = .online) :
    ((answeredAt n f s).pedestal n).edition = (s.pedestal n).edition := by
  rw [answeredAt_pedestal, if_pos rfl]
  have hdesired : ((s.pedestal n).answered f).desired = (s.pedestal n).desired := by
    rw [answered_eq]
    refine Table.ext_get fun i => (Table.get_build ..).trans ?_
    rw [hk]
    simp [PedestalKind.hasSocket]
  have hsame : ((s.pedestal n).answered f).sameCounted (s.pedestal n) = true := by
    rw [Pedestal.sameCounted, hdesired, answered_eq]
    simp [hl]
  rw [Pedestal.settled, hsame]
  rfl

/-- A stray quantity of a TAP above 0 advances the edition (R90). -/
theorem deliver_tap_edition {q : Nat} (hk : (s.pedestal n).cfg.kind = .tap) (hl : (s.pedestal n).link = .online)
    (hw : s.water.get n = none) (hq : unpack (tapReport .tap f).water = some q) :
    ((deliverTap n true f (answeredAt n f s)).pedestal n).edition =
      if q = 0 then (s.pedestal n).edition else (s.pedestal n).edition + 1 := by
  have hedition := answeredAt_tap_edition (f := f) hk hl
  have hcfg := answeredAt_cfg n f s
  have hwu : (answeredAt n f s).water.get n = none := by rw [answeredAt_eq]; exact hw
  generalize answeredAt n f s = u at *
  have hdelta : waterDelta u n (some q) u
      = strayPedestal u n q (fun p => { p with strayWater := addCounter p.strayWater q }) u := by
    simp only [waterDelta, hwu]
  rw [deliverTap_of_tap true f (by rw [hcfg, hk]; rfl), hcfg, hk, hq]
  simp only [if_true, hdelta, valveAgreement, strayPedestal_water, hwu]
  rw [strayPedestal_pedestal, if_pos rfl, hedition]
  by_cases h0 : q = 0 <;> simp [editionAfter, h0]

/-! ### A SINGLE and its session -/

/-- A TRIPPED session hears neither its trip again nor an agreement. -/
theorem deliverSocket_tripped {i : Fin 2} {x : PowerSession}
    (h : (energyDelta s (socketAt n i) (unpack (socketReport f i).energy) s).power.get (socketAt n i) = some x)
    (hx : x.state = .tripped) :
    deliverSocket n true f i s = energyDelta s (socketAt n i) (unpack (socketReport f i).energy) s := by
  unfold deliverSocket
  simp only [if_true]
  generalize energyDelta s (socketAt n i) (unpack (socketReport f i).energy) s = u at h
  have htrip : (if (socketReport f i).reported.trip = true then powerTrip u (socketAt n i) u else u) = u := by
    split
    · simp only [powerTrip, h, hx]
    · rfl
  rw [htrip]
  simp only [powerAgreement, h, hx]

/-- With no water session a tap whose field is a quantity tells nothing. -/
theorem deliverTap_stray_noticeView (hw : s.water.get n = none) (hk : (s.pedestal n).cfg.kind.hasTap = true)
    (hq : unpack (tapReport (s.pedestal n).cfg.kind f).water ≠ none) :
    let t := deliverTap n true f s
    NoticeView s t ∧ (t.pedestal n).strayEnergy = (s.pedestal n).strayEnergy := by
  have h := Strayed.tap (f := f) (n := n) (s := s) (told := s) (t := s) ⟨rfl, rfl, rfl, rfl, .refl s⟩ hw hk
  dsimp only at h
  rw [faultTold, if_neg hq] at h
  exact ⟨h.notices, h.energy⟩

/-- The rest of a SINGLE's reply after its socket's deliveries, without a water session: the current (R111). -/
theorem single_rest {z : PowerSession} (hk : (s.pedestal n).cfg.kind = .single) (hw : s.water.get n = none)
    (hz : s.power.get (socketAt n 0) = some z) (hload : (s.feeder (s.pedestal n).cfg.feeder).overload < 7) :
    let v := deliverTap n true f s
    let t := currentReport v n [0] v
    t.power.get (socketAt n 0) = some { z with lastCurrent := ((s.pedestal n).reported.get 0).current }
    ∧ t.accounts = s.accounts
    ∧ (unpack (tapReport .single f).water ≠ none →
        NoticeView s t ∧ (t.pedestal n).strayEnergy = (s.pedestal n).strayEnergy) := by
  have hidle := deliverTap_idle n true f hw
  have hkeep := (deliverTap_handed n true f s).record n
  have hstray := deliverTap_stray_noticeView (f := f) hw (by rw [hk]; rfl)
  rw [hk] at hstray
  intro v t
  change v = _ at hidle
  change v.pedestal n = _ at hkeep
  have hcfg : (v.pedestal n).cfg = (s.pedestal n).cfg := by rw [hkeep]
  have hreported : (v.pedestal n).reported = (s.pedestal n).reported := by rw [hkeep]
  have hzv : v.power.get (socketAt n 0) = some z := by rw [hidle]; exact hz
  obtain ⟨g, hg⟩ := currentReport_quiet v n [0] (s := v)
    (by rw [hcfg, show v.feeder (s.pedestal n).cfg.feeder = s.feeder (s.pedestal n).cfg.feeder by rw [hidle]; rfl]
        exact hload)
  have htake : eachOf [0] (fun i => takeCurrent v (socketAt n i) ((v.pedestal n).reported.get i).current) v
      = putPower v (socketAt n 0) (some { z with lastCurrent := ((s.pedestal n).reported.get 0).current }) v := by
    show takeCurrent v (socketAt n 0) ((v.pedestal n).reported.get 0).current v = _
    rw [takeCurrent, hzv, hreported]
  have ht : t = _ := hg.trans (congrArg (modFeeder v (v.pedestal n).cfg.feeder g) htake)
  rw [ht]
  refine ⟨Table.get_put_self .., by rw [hidle]; rfl, fun hq => ?_⟩
  obtain ⟨hview, henergy⟩ := hstray hq
  refine ⟨(hview.trans (putPower_feederWork ..).noticeView).trans (modFeeder_noticeView ..), ?_⟩
  show ((putPower v (socketAt n 0) _ v).pedestal n).strayEnergy = _
  rw [(putPower_served v _ _ (.refl v)).outputs]
  exact henergy

/-- The reply of a SINGLE with a LIVE session that draws as it was granted, metered and charged (R89, R103, R114). -/
theorem deliver_single_charged {n : PedestalId} {f : List Nat} {s : State} {y : PowerSession} {q total : Nat}
    (hk : (s.pedestal n).cfg.kind = .single) (hn : (s.pedestal n).tag ≠ some (replyTag f))
    (hy : s.power.get (socketAt n 0) = some y) (hlive : y.state = .live) (hheld : y.held = y.granted)
    (hwater : s.water.get n = none) (htrip : (socketReport f 0).reported.trip = false)
    (hrelay : (socketReport f 0).reported.relay = true)
    (hlimit : (socketReport f 0).reported.limit =
      if (s.pedestal n).cfg.ratings.get 0 = .a63 ∧ y.granted = 32 then .l32 else .l63)
    (hload : (s.feeder (s.pedestal n).cfg.feeder).overload < 7) (hq : unpack (socketReport f 0).energy = some q)
    (htotal : (s.account y.account).residues.get (serviceIx .energy)
      + q * rateOf s (s.account y.account).cls .energy (bandNow s) = total)
    (hb : (s.account y.account).balance - ((total / 10000 : Nat) : Int) ≥ -99999999)
    (hs : (s.account y.account).standing = standingOf (s.account y.account).barredFlag (s.account y.account).balance
      (s.classOf (s.account y.account)).floor) :
    let t := deliver n f s
    t.power.get (socketAt n 0) = some
      { y with energy := min (y.energy + q) 4294967295, confirmMisses := 0
               lastCurrent := (socketReport f 0).reported.current }
    ∧ (t.account y.account).balance = (s.account y.account).balance - ((total / 10000 : Nat) : Int)
    ∧ (t.account y.account).residues = (s.account y.account).residues.put (serviceIx .energy) (total % 10000) := by
  obtain ⟨-, -, -, -, hcfg, hreported, -, -, -⟩ := answeredAt_reported n f s
  have hread := hreported 0 (by rw [hk]; rfl)
  have heq := answeredAt_eq n f s
  intro t
  have ht : t = _ := deliver_of_single hk hn
  generalize answeredAt n f s = u at hcfg hread heq ht
  obtain ⟨hslot, hwater', hload', hbalance, hresidues⟩ := liveSocket_metered (b := u) (s := u) (n := n) (i := 0) (y := y)
    (q := q) (total := total) (by rw [heq]; exact hy) hlive hheld hread hrelay (by rw [hcfg]; exact hlimit)
    (by rw [heq]; exact htotal) (by rw [heq]; exact hb) (by rw [heq]; exact hs)
  have hkeep := (deliverSocket_handed n true f 0 u).record n
  rw [deliverSocket_untripped _ htrip, hq] at ht hkeep
  have haccount : u.account y.account = s.account y.account := by rw [heq]; rfl
  rw [haccount] at hbalance hresidues
  have hvcfg := congrArg Pedestal.cfg hkeep
  have hvread := congrArg Pedestal.reported hkeep
  dsimp only at ht hvcfg hvread
  generalize powerAgreement _ _ _ = v at *
  obtain ⟨hpower, haccounts, -⟩ := single_rest (n := n) (f := f) (s := v) (by rw [hvcfg, hcfg]; exact hk)
    (by rw [hwater', heq]; exact hwater) hslot (by rw [hvcfg, hcfg, hload', heq]; exact hload)
  rw [← ht] at hpower haccounts
  rw [hvread, hread] at hpower
  refine ⟨hpower, ?_, ?_⟩
  all_goals rw [State.account, haccounts]
  · exact hbalance
  · exact hresidues

/-- The fault marker of a TRIPPED session of a SINGLE, whose tap has none. -/
theorem deliver_single_fault {y : PowerSession} (hk : (s.pedestal n).cfg.kind = .single)
    (hn : (s.pedestal n).tag ≠ some (replyTag f)) (hl : (s.pedestal n).link ≠ .offline)
    (hload : (s.feeder (s.pedestal n).cfg.feeder).overload < 7) (hy : s.power.get (socketAt n 0) = some y)
    (htripped : y.state = .tripped) (hw : s.water.get n = none) (hd : unpack (socketReport f 0).energy = none)
    (hq : unpack (tapReport .single f).water ≠ none) {told : State} (htold : NoticeView told s) :
    let t := deliver n f s
    t.accounts = s.accounts
    ∧ t.power.get (socketAt n 0) = some { y with fault := true, lastCurrent := (socketReport f 0).reported.current }
    ∧ (t.pedestal n).strayEnergy = (s.pedestal n).strayEnergy
    ∧ SameNotices t (raise .meterFault { account := some y.account, outlet := some (.socket (socketAt n 0)) } told) := by
  obtain ⟨-, -, -, -, hcfg, hreported, -, henergy, -⟩ := answeredAt_reported n f s
  have hread := hreported 0 (by rw [hk]; rfl)
  have heq := answeredAt_eq n f s
  have hview := htold.trans (answeredAt_noticeView (f := f) hl)
  intro t
  have ht : t = _ := deliver_of_single hk hn
  generalize answeredAt n f s = u at hcfg hread heq ht henergy hview
  have hyu : u.power.get (socketAt n 0) = some y := by rw [heq]; exact hy
  have hdelta : energyDelta u (socketAt n 0) (unpack (socketReport f 0).energy) u
      = raise .meterFault { account := some y.account, outlet := some (.socket (socketAt n 0)) }
          (putPower u (socketAt n 0) (some { y with fault := true }) u) := by
    rw [hd]; simp only [energyDelta, hyu]; rfl
  have hslot : (energyDelta u (socketAt n 0) (unpack (socketReport f 0).energy) u).power.get (socketAt n 0)
      = some { y with fault := true } := by
    rw [hdelta, raise_power]; exact Table.get_put_self ..
  rw [deliverSocket_tripped hslot htripped] at ht
  have hkept := (putPower_served u (socketAt n 0) (some { y with fault := true }) (.refl u)).outputs n
  have hwork := putPower_feederWork u (socketAt n 0) (some { y with fault := true }) u
  have hnotices : NoticeView (raise .meterFault { account := some y.account, outlet := some (.socket (socketAt n 0)) } told)
      (energyDelta u (socketAt n 0) (unpack (socketReport f 0).energy) u) := by
    rw [hdelta]; exact (hview.trans hwork.noticeView).raised ..
  have hvped : (energyDelta u (socketAt n 0) (unpack (socketReport f 0).energy) u).pedestal n = _ :=
    (by rw [hdelta, raise_pedestal] : _ = _).trans hkept
  have hvload (g : FeederId) : ((energyDelta u (socketAt n 0) (unpack (socketReport f 0).energy) u).feeder g).overload
      = (s.feeder g).overload := by
    rw [hdelta, raise_feeder, putPower_overload, heq]; rfl
  have hvaccounts : (energyDelta u (socketAt n 0) (unpack (socketReport f 0).energy) u).accounts = s.accounts := by
    rw [hdelta, raise_accounts, hwork.accounts, heq]
  have hvwater : (energyDelta u (socketAt n 0) (unpack (socketReport f 0).energy) u).water.get n = none := by
    rw [hdelta, raise_water, hwork.water, heq]; exact hw
  generalize energyDelta u (socketAt n 0) (unpack (socketReport f 0).energy) u = v at *
  have hvcfg : (v.pedestal n).cfg = (s.pedestal n).cfg := by rw [hvped]; exact hcfg
  have hvread : (v.pedestal n).reported = (u.pedestal n).reported := by rw [hvped]
  have hvenergy : (v.pedestal n).strayEnergy = (s.pedestal n).strayEnergy := by rw [hvped]; exact henergy
  obtain ⟨hpower, haccounts, hrest⟩ := single_rest (n := n) (f := f) (s := v) (by rw [hvcfg]; exact hk) hvwater hslot
    (by rw [hvcfg, hvload]; exact hload)
  obtain ⟨hlater, hstray⟩ := hrest hq
  rw [← ht] at hpower haccounts hlater hstray
  rw [hvread, hread] at hpower
  exact ⟨haccounts.trans hvaccounts, hpower, hstray.trans hvenergy, (hnotices.trans hlater).same⟩

end

section

variable {n : PedestalId} {f : List Nat} {s : State}

/-- The fault marker of a FLOWING session of a TAP whose valve is OPEN. -/
theorem deliver_tap_fault {y : WaterSession} (hk : (s.pedestal n).cfg.kind = .tap)
    (hn : (s.pedestal n).tag ≠ some (replyTag f)) (hl : (s.pedestal n).link ≠ .offline)
    (hload : (s.feeder (s.pedestal n).cfg.feeder).overload < 7) (hy : s.water.get n = some y)
    (hflow : y.state = .flowing) (hvalve : (tapReport .tap f).valve = true) (hd : unpack (tapReport .tap f).water = none)
    {told : State} (htold : NoticeView told s) :
    let t := deliver n f s
    t.accounts = s.accounts ∧ t.water = s.water.put n (some { y with fault := true, confirmMisses := 0 })
    ∧ (t.pedestal n).strayWater = (s.pedestal n).strayWater
    ∧ SameNotices t (raise .meterFault { account := some y.account, outlet := some (.tap n) } told) := by
  obtain ⟨-, -, -, -, hcfg, -, hreported, -, hstray⟩ := answeredAt_reported n f s
  have hopen : ((answeredAt n f s).pedestal n).reportedValve = true := by
    rw [hreported (by rw [hk]; rfl), hk]; exact hvalve
  have heq := answeredAt_eq n f s
  have hview := htold.trans (answeredAt_noticeView (f := f) hl)
  intro t
  have ht : t = _ := deliver_of_tap hk hn
  rw [hd] at ht
  generalize answeredAt n f s = u at hcfg hopen heq hview hstray ht
  have hdelta : waterDelta u n none u = raise .meterFault { account := some y.account, outlet := some (.tap n) }
      (putWater u n (some { y with fault := true }) u) := by
    simp only [waterDelta, show u.water.get n = some y by rw [heq]; exact hy]
    rfl
  have hkept := (waterDelta_handed u n none u).record n
  have hnotices : NoticeView (raise .meterFault { account := some y.account, outlet := some (.tap n) } told)
      (waterDelta u n none u) := by
    rw [hdelta]; exact (hview.trans (putWater_noticeView ..)).raised ..
  have hwater : (waterDelta u n none u).water = s.water.put n (some { y with fault := true }) := by
    rw [hdelta, raise_water, putWater_water, heq]
  have hdesired : ((waterDelta u n none u).pedestal n).desiredValve = true := by
    rw [hdelta, raise_pedestal, (putWater_pedestal_rest ..).2.2, if_pos rfl]
    show y.state.on = true
    rw [hflow]; rfl
  have hvstray : ((waterDelta u n none u).pedestal n).strayWater = (s.pedestal n).strayWater := by
    rw [hdelta, raise_pedestal, (putWater_served u n _ (.refl u)).outputs]
    exact hstray
  have hvaccounts : (waterDelta u n none u).accounts = s.accounts := by rw [hdelta, raise_accounts, heq]; rfl
  have hvfeeders : (waterDelta u n none u).feeders = s.feeders := by rw [hdelta, raise_feeders, heq]; rfl
  generalize waterDelta u n none u = v at *
  have hvopen : (v.pedestal n).reportedValve = true := by rw [hkept]; exact hopen
  have hvcfg : (v.pedestal n).cfg = (s.pedestal n).cfg := by rw [hkept]; exact hcfg
  have hagreed : valveAgreement v n v = putWater v n (some { y with fault := true, confirmMisses := 0 }) v :=
    (valveAgreement_metered (z := { y with fault := true }) (by rw [hwater]; exact Table.get_put_self ..) hvopen).1 hflow hdesired
  rw [hagreed] at ht
  obtain ⟨g, hg⟩ := currentReport_quiet (putWater v n (some { y with fault := true, confirmMisses := 0 }) v) n []
    (s := putWater v n (some { y with fault := true, confirmMisses := 0 }) v) (by
      rw [(putWater_pedestal_rest ..).1, hvcfg]
      show (v.feeders.get _).overload < 7
      rw [hvfeeders]
      exact hload)
  rw [ht, hg]
  refine ⟨hvaccounts, ?_, ?_, ((hnotices.trans (putWater_noticeView ..)).trans (modFeeder_noticeView ..)).same⟩
  · show v.water.put n _ = _
    rw [hwater, Table.put_put]
  · show ((putWater v n _ v).pedestal n).strayWater = _
    rw [(putWater_served v n _ (.refl v)).outputs]
    exact hvstray

/-! ### A current report of a TAP alone (R111, R112) -/

/-- A TAP that repeats its tag and has no session reports currents and nothing else (log 13). -/
theorem deliver_repeat_tap (hk : (s.pedestal n).cfg.kind = .tap) (hn : (s.pedestal n).tag = some (replyTag f))
    (hw : s.water.get n = none) :
    deliver n f s = measureFeeder (answeredAt n f s) (s.pedestal n).cfg.feeder (answeredAt n f s) := by
  have hold : accounted (s.pedestal n) f = false := by simp [accounted, hn]
  have hcfg := answeredAt_cfg n f s
  have hwu : (answeredAt n f s).water.get n = none := by rw [answeredAt_eq]; exact hw
  rw [deliver_steps, hold, hk]
  show currentReport (deliverTap n false f (answeredAt n f s)) n [] (deliverTap n false f (answeredAt n f s)) = _
  have hidle : deliverTap n false f (answeredAt n f s) = answeredAt n f s := by
    rw [deliverTap_of_tap false f (by rw [hcfg, hk]; rfl)]
    simp only [Bool.false_eq_true, if_false, valveAgreement, hwu]
  rw [hidle, ← hcfg]
  rfl

theorem answeredAt_cfgs (n : PedestalId) (f : List Nat) (s : State) (m : PedestalId) :
    ((answeredAt n f s).pedestal m).cfg = (s.pedestal m).cfg := by
  rw [answeredAt_pedestal]
  split
  · next e => subst e; exact answered_cfg f _
  · rfl

/-- What is told of the reply itself: PEDESTAL_BACK with its berth, where the pedestal was OFFLINE (R83). -/
theorem answeredAt_told {told : State} (h : NoticeView told s) (n : PedestalId) (f : List Nat) :
    NoticeView (if (s.pedestal n).link = .offline
        then raise .pedestalBack { berth := berthNaming s (socketAt n 0), value := some n.val } told else told)
      (answeredAt n f s) := by
  by_cases hl : (s.pedestal n).link = .offline
  · have hput : NoticeView s (putPedestal s n ((s.pedestal n).answered f) s) := ⟨⟨rfl, rfl⟩, rfl, rfl, rfl, rfl⟩
    rw [if_pos hl, show answeredAt n f s = linkNotice .pedestalBack n _ from if_pos hl]
    exact (h.trans hput).raised ..
  · rw [if_neg hl]
    exact h.trans (answeredAt_noticeView hl)

end

/-! ### Relief (R112) -/

theorem Feeder.settled_readings (x : Feeder) (sum count : Nat) :
    x.settled { x with measured := sum, overload := count } = { x with measured := sum, overload := count } := by
  simp [Feeder.settled, Feeder.sameCounted, editionAfter]

/-- A new relief hold advances the edition (R96). -/
theorem Feeder.settled_edition_of_relief {x y : Feeder} (h : x.relief ≠ y.relief) :
    (x.settled y).edition = x.edition + 1 := by
  have hchanged : y.sameCounted x = false := by simp [Feeder.sameCounted, Ne.symm h]
  simp [Feeder.settled, hchanged, editionAfter]

/-- What relief takes is one session of the feeder that keeps its held amps, or none. -/
theorem takeRelief_writes (b : State) (f : FeederId) (s : State) :
    (takeRelief b f s).1 = s ∨ ∃ k y z, LiveOn s f k y ∧ z.held = y.held
      ∧ (takeRelief b f s).1 = putPower b k (some z) s := by
  unfold takeRelief
  split
  · next k hk =>
    obtain ⟨y, ⟨hy, -, -⟩⟩ := mostRecent_some hk
    exact .inr ⟨k, y, { y with granted := 32, stepped := true }, hy, rfl, by simp only [stepDown, hy.2.2.1]⟩
  · split
    · next k hk =>
      obtain ⟨y, ⟨hy, -, -⟩⟩ := mostRecent_some hk
      refine .inr ⟨k, y, ?_⟩
      simp only [shedSession, hy.2.2.1]
      split
      · exact ⟨{ y with state := .waiting, shed := true, confirmMisses := 0 }, hy, rfl, rfl⟩
      · exact ⟨{ y with state := .closing, shed := true, closeReason := some .full, confirmMisses := 0 }, hy, rfl, rfl⟩
    · exact .inl rfl

theorem takeRelief_rest (b : State) (f : FeederId) (s : State) :
    let t := (takeRelief b f s).1
    t.accounts = s.accounts ∧ t.water = s.water ∧ t.grantCount = s.grantCount ∧ NoticeView s t
    ∧ (t.feeder f).measured = (s.feeder f).measured ∧ (t.feeder f).cfg = (s.feeder f).cfg := by
  rcases takeRelief_writes b f s with e | ⟨k, y, z, -, -, e⟩ <;> rw [e]
  · exact ⟨rfl, rfl, rfl, .refl s, rfl, rfl⟩
  · refine ⟨rfl, rfl, rfl, (putPower_feederWork ..).noticeView, ?_, ?_⟩
    all_goals rw [putPower_feeder]; split <;> rfl

/-- Relief keeps the held sum (R99): what is stepped down or shed holds its amps until a reply confirms. -/
theorem takeRelief_heldSum (b : State) {f : FeederId} {s : State}
    (hsum : (s.feeder f).heldSum = heldOn s f) :
    ((takeRelief b f s).1.feeder f).heldSum = (s.feeder f).heldSum := by
  rcases takeRelief_writes b f s with e | ⟨k, y, z, ⟨hinst, hfeeder, hy, -⟩, hheld, e⟩ <;> rw [e]
  have hmem : k ∈ feederSockets s f := mem_feederSockets.2 ⟨hinst, hfeeder⟩
  have hle : heldOf (s.power.get k) ≤ (s.feeder f).heldSum := by
    rw [hsum]
    exact List.single_le_sum (fun _ _ => Nat.zero_le _) _ (List.mem_map_of_mem hmem)
  rw [putPower_feeder, if_pos (show feederOf s k = f from hfeeder)]
  show (s.feeder f).heldSum - heldOf (s.power.get k) + z.held = (s.feeder f).heldSum
  rw [hy] at hle ⊢
  rw [hheld]
  exact Nat.sub_add_cancel hle

/-- The feeder that relief leaves, and what is told of it. -/
theorem relieve_eq (b : State) (f : FeederId) (s : State) :
    let r := takeRelief b f s
    relieve b f s = raise .feederRelief { outlet := r.2.1.map Outlet.socket, value := some (f.val : Int), reason := some (.relief r.2.2) }
      (modFeeder b f (fun x => { x with overload := 0, relief := some (s.clock.plus 60) }) r.1) := rfl

theorem sessionOn_same {st : PowerState} {s t : State} (hp : t.power = s.power)
    (hc : ∀ n, (t.pedestal n).cfg = (s.pedestal n).cfg) (f : FeederId) (k : SocketId) (y : PowerSession) :
    SessionOn st t f k y ↔ SessionOn st s f k y := by
  unfold SessionOn
  rw [hp, hc]

theorem NewestOn.of_same {st : PowerState} {s t : State} (hp : t.power = s.power)
    (hc : ∀ n, (t.pedestal n).cfg = (s.pedestal n).cfg) {f : FeederId} {P : PowerSession → Prop} {k : SocketId}
    {y : PowerSession} (h : NewestOn st s f P k y) : NewestOn st t f P k y := by
  obtain ⟨hy, hP, hnewest⟩ := h
  exact ⟨(sessionOn_same hp hc f k y).2 hy, hP, fun m z hz => hnewest m z ((sessionOn_same hp hc f m z).1 hz)⟩

theorem drawnOn_same {s t : State} (hp : t.power = s.power) (hc : ∀ n, (t.pedestal n).cfg = (s.pedestal n).cfg)
    (f : FeederId) : drawnOn t f = drawnOn s f := by
  obtain ⟨-, -, hsockets⟩ := sockets_congr hc
  unfold drawnOn
  rw [hsockets, hp]

/-- The wait list of a feeder one of whose LIVE sessions is written. -/
theorem putPower_live_waitList (b : State) {k : SocketId} {f : FeederId} {s : State} {y : PowerSession} (z : PowerSession)
    (hy : LiveOn s f k y) :
    ((putPower b k (some z) s).feeder f).waitList =
      if z.state = .waiting then (s.feeder f).waitList ++ [k] else (s.feeder f).waitList := by
  obtain ⟨-, hfeeder, hslot, hlive⟩ := hy
  have hwas : isWaiting (s.power.get k) = false := by rw [hslot]; exact decide_eq_false (by rw [hlive]; decide)
  rw [putPower_feeder, if_pos (show feederOf s k = f from hfeeder), Feeder.settled_waitList]
  show waitListAfter (s.feeder f).waitList k (isWaiting (s.power.get k)) (isWaiting (some z)) = _
  rw [hwas, waitListAfter_eq]
  by_cases hz : z.state = .waiting <;> simp [isWaiting, hz]

/-- The state in which the relief of feeder `f` acts: the sum measured, the excess counted. -/
def overloaded (f : FeederId) (sum : Nat) (s : State) : State :=
  modFeeder s f (fun x => { x with measured := sum, overload := (s.feeder f).overload + 1 }) s

section

variable {s : State} {f : FeederId} {sum : Nat}

theorem overloaded_feeder (f : FeederId) (sum : Nat) (s : State) : (overloaded f sum s).feeder f =
    { s.feeder f with measured := sum, overload := (s.feeder f).overload + 1 } := by
  rw [overloaded, modFeeder_feeder, if_pos rfl, Feeder.settled_readings]

/-- A report that does not relieve writes the feeder's readings alone (R111). -/
theorem measureFeeder_calm (hsum : drawnOn s f = sum)
    (h : ¬ (s.feeder f).cfg.rating * 10 < sum ∨ (s.feeder f).overload < 7) :
    measureFeeder s f s = { s with feeders := s.feeders.put f { s.feeder f with measured := sum, overload := if (s.feeder f).cfg.rating * 10 < sum then (s.feeder f).overload + 1 else 0 } } := by
  rw [measureFeeder_of_lt ((measuredSum_eq s f).trans hsum) rfl]
  · rw [modFeeder, putFeeder, Feeder.settled_readings]
  · split <;> omega

/-- The eighth report in a row above the rating relieves (R111). -/
theorem measureFeeder_relieves (hsum : drawnOn s f = sum) (hexceeds : (s.feeder f).cfg.rating * 10 < sum)
    (h : 7 ≤ (s.feeder f).overload) : measureFeeder s f s = relieve s f (overloaded f sum s) := by
  unfold measureFeeder
  rw [measuredSum_eq, hsum]
  dsimp only
  rw [if_pos hexceeds, if_pos (show Config.overloadLimit ≤ (s.feeder f).overload + 1 from Nat.succ_le_succ h)]
  rfl

/-- What relief leaves whatever it takes: the hold, the readings, the held sum (R112). -/
theorem relieve_overloaded (f : FeederId) (sum : Nat) (s : State) :
    let x := s.feeder f
    let t := relieve s f (overloaded f sum s)
    t.accounts = s.accounts ∧ t.water = s.water ∧ t.grantCount = s.grantCount
    ∧ (t.feeder f).measured = sum ∧ (t.feeder f).overload = 0 ∧ (t.feeder f).relief = some (s.clock.plus 60)
    ∧ (x.heldSum = heldOn s f → (t.feeder f).heldSum = x.heldSum) ∧ (t.feeder f).cfg = x.cfg
    ∧ (x.relief ≠ some (s.clock.plus 60) → (t.feeder f).edition = x.edition + 1) := by
  intro x t
  have hx := overloaded_feeder f sum s
  obtain ⟨haccounts, hwater, hcount, -, hmeasured, hcfg⟩ := takeRelief_rest s f (overloaded f sum s)
  have hheld (h : x.heldSum = heldOn s f) := takeRelief_heldSum s (f := f) (s := overloaded f sum s) (by rw [hx]; exact h)
  have ht : t = _ := relieve_eq s f (overloaded f sum s)
  have hclock : (overloaded f sum s).clock = s.clock := rfl
  have hbase : (overloaded f sum s).accounts = s.accounts ∧ (overloaded f sum s).water = s.water
      ∧ (overloaded f sum s).grantCount = s.grantCount := ⟨rfl, rfl, rfl⟩
  obtain ⟨hbaccounts, hbwater, hbcount⟩ := hbase
  rw [hclock] at ht
  rw [hx] at hmeasured hcfg hheld
  rw [hbaccounts] at haccounts
  rw [hbwater] at hwater
  rw [hbcount] at hcount
  generalize takeRelief s f (overloaded f sum s) = r at ht haccounts hwater hcount hmeasured hcfg hheld
  have hfeeder : t.feeder f = (s.feeder f).settled { r.1.feeder f with overload := 0, relief := some (s.clock.plus 60) } := by
    rw [ht, raise_feeder, modFeeder_feeder, if_pos rfl]
  rw [hfeeder]
  refine ⟨?_, ?_, ?_, hmeasured, rfl, rfl, fun h => hheld h, hcfg, fun h => Feeder.settled_edition_of_relief h⟩
  · rw [ht, raise_accounts]; exact haccounts
  · rw [ht, raise_water]; exact hwater
  · rw [ht, raise_grantCount]; exact hcount

/-- The records that relief leaves, from the session it takes. -/
theorem relieve_of_takeRelief {m u : State} {k : Option SocketId} {w : ReliefWord} (h : takeRelief s f m = (u, k, w)) :
    let t := relieve s f m
    t.power = u.power ∧ t.pedestals = u.pedestals ∧ (t.feeder f).waitList = (u.feeder f).waitList
    ∧ ∀ told, NoticeView told u → SameNotices t
        (raise .feederRelief { outlet := k.map Outlet.socket, value := some (f.val : Int), reason := some (.relief w) } told) := by
  intro t
  rw [show t = _ from relieve_eq .., h]
  refine ⟨by rw [raise_power]; rfl, by rw [raise_pedestals]; rfl, ?_, fun told hv => ?_⟩
  · rw [raise_feeder, modFeeder_feeder, if_pos rfl]; rfl
  · exact ((hv.trans (modFeeder_noticeView ..)).raised ..).same

theorem overloaded_noticeView (f : FeederId) (sum : Nat) (s : State) : NoticeView s (overloaded f sum s) :=
  modFeeder_noticeView ..

/-- A step-down (R112). -/
theorem relieve_stepDown {told : State} {k : SocketId} {y : PowerSession} (hv : NoticeView told s)
    (h : NewestLive s f (fun z => z.granted = 63) k y) :
    let t := relieve s f (overloaded f sum s)
    t.power = s.power.put k (some { y with granted := 32, stepped := true })
    ∧ (t.feeder f).waitList = (s.feeder f).waitList
    ∧ ((s.pedestal (pedestalOf k)).cfg.ratings.get (positionOf k) = .a63 →
        ((t.pedestal (pedestalOf k)).desired.get (positionOf k)).limit = .l32)
    ∧ SameNotices t (raise .feederRelief
        { outlet := some (.socket k), value := some f.val, reason := some (.relief .stepDown) } told) := by
  have hm : NewestLive (overloaded f sum s) f (fun z => z.granted = 63) k y := h.of_same rfl fun _ => rfl
  obtain ⟨hpower, hpedestals, hlist, hnotices⟩ := relieve_of_takeRelief (takeRelief_step s f (overloaded f sum s) k y hm)
  obtain ⟨hy, -, -⟩ := hm
  have hlive := hy.2.2.2
  refine ⟨hpower, hlist.trans ?_, fun hrating => ?_,
    hnotices told ((hv.trans (overloaded_noticeView ..)).trans (putPower_feederWork ..).noticeView)⟩
  · rw [putPower_live_waitList s _ hy, overloaded_feeder]
    exact if_neg (by rw [hlive]; decide)
  · rw [State.pedestal, hpedestals]
    have hdesired := putPower_desired s k (some { y with granted := 32, stepped := true }) (overloaded f sum s)
    rw [State.pedestal] at hdesired
    rw [hdesired]
    dsimp only
    rw [Table.get_put_self]
    show (desiredFor ((s.pedestal (pedestalOf k)).cfg.ratings.get (positionOf k)) _).2 = .l32
    rw [hrating]
    simp [desiredFor, hlive, PowerState.on]

/-- A shed (R112). -/
theorem relieve_shed {told : State} {k : SocketId} {y : PowerSession} (hv : NoticeView told s)
    (hn : ∀ m z, LiveOn s f m z → z.granted ≠ 63) (h : NewestLive s f (fun _ => True) k y) :
    let full := 64 ≤ (s.feeder f).waitList.length
    let t := relieve s f (overloaded f sum s)
    t.power = s.power.put k (some (if full
      then { y with state := .closing, shed := true, closeReason := some .full, confirmMisses := 0 }
      else { y with state := .waiting, shed := true, confirmMisses := 0 }))
    ∧ (t.feeder f).waitList = (if full then (s.feeder f).waitList else (s.feeder f).waitList ++ [k])
    ∧ ((t.pedestal (pedestalOf k)).desired.get (positionOf k)).relay = false
    ∧ SameNotices t (raise .feederRelief
        { outlet := some (.socket k), value := some f.val, reason := some (.relief .shed) } told) := by
  intro full
  have hm : NewestLive (overloaded f sum s) f (fun _ => True) k y := h.of_same rfl fun _ => rfl
  have htake := takeRelief_shed s f (overloaded f sum s) k y
    (fun m z hz => hn m z ((sessionOn_same rfl (fun _ => rfl) f m z).1 hz)) hm
  obtain ⟨hy, -, -⟩ := hm
  have hfeeder : feederOf (overloaded f sum s) k = f := hy.2.1
  have hshed : shedSession s k (overloaded f sum s) = putPower s k (some (if full
      then { y with state := .closing, shed := true, closeReason := some .full, confirmMisses := 0 }
      else { y with state := .waiting, shed := true, confirmMisses := 0 })) (overloaded f sum s) := by
    simp only [shedSession, hy.2.2.1, hfeeder, overloaded_feeder]
    by_cases hfull : full
    · rw [if_pos hfull, if_neg (show ¬ _ < Config.waitListRoom from Nat.not_lt.2 hfull)]
    · rw [if_neg hfull, if_pos (show _ < Config.waitListRoom from Nat.not_le.1 hfull)]
  rw [hshed] at htake
  obtain ⟨hpower, hpedestals, hlist, hnotices⟩ := relieve_of_takeRelief htake
  refine ⟨hpower, hlist.trans ?_, ?_,
    hnotices told ((hv.trans (overloaded_noticeView ..)).trans (putPower_feederWork ..).noticeView)⟩
  · rw [putPower_live_waitList s _ hy, overloaded_feeder]
    by_cases hfull : full
    · rw [if_pos hfull, if_pos hfull]; exact if_neg nofun
    · rw [if_neg hfull, if_neg hfull]; exact if_pos rfl
  · rw [State.pedestal, hpedestals]
    have hdesired := putPower_desired s k (some (if full
      then { y with state := .closing, shed := true, closeReason := some .full, confirmMisses := 0 }
      else { y with state := .waiting, shed := true, confirmMisses := 0 })) (overloaded f sum s)
    rw [State.pedestal] at hdesired
    rw [hdesired]
    dsimp only
    rw [Table.get_put_self]
    by_cases hfull : full <;> simp [desiredFor, hfull, PowerState.on]

/-- Relief that finds no LIVE session takes none (R112). -/
theorem relieve_nothing {told : State} (hv : NoticeView told s) (hn : ∀ m z, ¬ LiveOn s f m z) :
    let t := relieve s f (overloaded f sum s)
    t.power = s.power ∧ (t.feeder f).waitList = (s.feeder f).waitList
    ∧ SameNotices t (raise .feederRelief { value := some f.val, reason := some (.relief .nothing) } told) := by
  obtain ⟨hpower, -, hlist, hnotices⟩ := relieve_of_takeRelief (takeRelief_none s f (overloaded f sum s)
    fun m z hz => hn m z ((sessionOn_same rfl (fun _ => rfl) f m z).1 hz))
  refine ⟨hpower, hlist.trans ?_, hnotices told (hv.trans (overloaded_noticeView ..))⟩
  rw [overloaded_feeder]

end

/-! ### The rows of a reply (R82) -/

section

variable {g : SegmentId} {poll : Poll} {s : State}

/-- A judged reply closes the poll; a VALID one is handed on, and any other is a miss. -/
theorem pedestalReply_judged (ho : (s.segment g).outstanding = some poll) (hb : (s.segment g).unpacker.byteCount ≠ 0) :
    let o := judge (s.pedestal poll.pedestal).cfg (s.segment g).unpacker
    let closed := putSegment g { s.segment g with outstanding := none } s
    (o = .valid → pedestalReply g s = deliver poll.pedestal (s.segment g).unpacker.fields closed)
    ∧ (o ≠ .valid → pedestalReply g s = miss poll.pedestal o closed) := by
  intro o closed
  unfold pedestalReply
  dsimp only
  split
  · next e => exact absurd (ho.symm.trans e) nofun
  · next e =>
    cases ho.symm.trans e
    rw [if_neg hb]
    split
    · next hj => exact ⟨fun _ => rfl, fun h => absurd hj h⟩
    · next hj => exact ⟨fun h => absurd h hj, fun _ => rfl⟩

theorem noReply_cases (ho : (s.segment g).outstanding = some poll) :
    ((s.segment g).unpacker.byteCount = 0 →
      noReply g s = miss poll.pedestal .noReply (putSegment g { s.segment g with outstanding := none } s))
    ∧ ((s.segment g).unpacker.byteCount ≠ 0 → noReply g s = s) := by
  unfold noReply
  dsimp only
  split
  · next e => exact absurd (ho.symm.trans e) nofun
  · next e =>
    cases ho.symm.trans e
    exact ⟨fun h => if_pos h, fun h => if_neg h⟩

/-- A VALID reply is handed on, in the frame of a reply. -/
theorem pedestalReply_valid (h : ValidReply g poll s) :
    exec (.pedestalReply g) s = .next (deliver poll.pedestal (s.segment g).unpacker.fields
      (putSegment g { s.segment g with outstanding := none } s)) := by
  obtain ⟨hrun, ho, hb, hj⟩ := h
  exact congrArg Host.Outcome.next ((event_running hrun).trans ((pedestalReply_judged ho hb).1 hj))

end

/-! ### What a VALID reply leaves of the pedestals and the accounts -/

section

variable (n : PedestalId) (f : List Nat) (s : State)

/-- The pedestal's record, whatever the reply hands on (R83, R88). -/
theorem deliver_record :
    let p := s.pedestal n
    let t := deliver n f s
    (t.pedestal n).misses = 0 ∧ (t.pedestal n).link = .online ∧ (t.pedestal n).lastOutcome = some .valid
    ∧ (t.pedestal n).tag = some (replyTag f) ∧ (t.pedestal n).cfg = p.cfg
    ∧ (∀ i, p.cfg.kind.hasSocket i = true → (t.pedestal n).reported.get i = (socketReport f i).reported)
    ∧ (p.cfg.kind ≠ .power2 → (t.pedestal n).reportedValve = (tapReport p.cfg.kind f).valve) := by
  obtain ⟨hmisses, hlink, hlast, htag, hcfg, hreported, hvalve, -, -⟩ := answeredAt_reported n f s
  intro p t
  have hrecord := (deliver_kept n f s).record n
  rw [show t.pedestal n = _ from hrecord]
  refine ⟨hmisses, hlink, hlast, htag, hcfg, hreported, fun h => hvalve ?_⟩
  change p.cfg.kind.hasTap = true
  cases hk : p.cfg.kind with
  | power2 => exact absurd hk h
  | twin | single | tap => rfl

/-- With every standing evaluated, the other pedestals keep all but their desired sockets. -/
theorem deliver_others (hs : StandingsOk s) (m : PedestalId) (hm : m ≠ n) :
    let t := deliver n f s
    t.pedestal m = { s.pedestal m with desired := (t.pedestal m).desired, edition := (t.pedestal m).edition } := by
  have hkept := deliver_kept n f s
  have hanswered : (answeredAt n f s).pedestal m = s.pedestal m := by
    rw [answeredAt_pedestal, if_neg (Ne.symm hm)]
  have hstanding : ∀ a, standingOkAt (answeredAt n f s) a := fun a => by
    rw [answeredAt_eq]; exact hs a
  have hvalve := (hkept.valves hstanding).valve m hm
  obtain ⟨henergy, hwater⟩ := hkept.strays m hm
  have hrecord := hkept.record m
  rw [hanswered] at hvalve henergy hwater hrecord
  intro t
  rw [hvalve, henergy, hwater] at hrecord
  exact hrecord

/-- A repeated tag charges nothing and strays nothing (R86). -/
theorem deliver_repeat (h : (s.pedestal n).tag = some (replyTag f)) :
    let t := deliver n f s
    (∀ a, (t.account a).balance = (s.account a).balance ∧ (t.account a).residues = (s.account a).residues)
    ∧ (t.pedestal n).strayEnergy = (s.pedestal n).strayEnergy
    ∧ (t.pedestal n).strayWater = (s.pedestal n).strayWater := by
  have hserved := deliver_repeat_served h
  obtain ⟨-, -, -, -, -, -, -, henergy, hwater⟩ := answeredAt_reported n f s
  have haccount (a : AccountId) : (answeredAt n f s).account a = s.account a := by rw [answeredAt_eq]; rfl
  intro t
  refine ⟨fun a => ?_, ?_, ?_⟩
  · rw [hserved.links, haccount]; exact ⟨rfl, rfl⟩
  · rw [hserved.outputs]; exact henergy
  · rw [hserved.outputs]; exact hwater

end

/-- Where no outlet has a session, an accounted reply counts strays, and nothing else is charged (R90, R91). -/
theorem deliver_stray_counted {n : PedestalId} {f : List Nat} {s : State} (hn : (s.pedestal n).tag ≠ some (replyTag f))
    (hp : ∀ i, s.power.get (socketAt n i) = none) (hw : s.water.get n = none) (hl : (s.pedestal n).link ≠ .offline)
    (hload : (s.feeder (s.pedestal n).cfg.feeder).overload < 7) {told : State} (htold : NoticeView told s) :
    let p := s.pedestal n
    let energy := fun i : Fin 2 => unpack (socketReport f i).energy
    let water := unpack (tapReport p.cfg.kind f).water
    let marked := fun (i : Fin 2) (u : State) => faultTold (energy i) (.socket (socketAt n i)) u
    let t := deliver n f s
    t.accounts = s.accounts ∧ t.power = s.power ∧ t.water = s.water ∧ t.grantCount = s.grantCount
    ∧ (t.pedestal n).strayEnergy = (match p.cfg.kind with
        | .tap => p.strayEnergy
        | .single => countedStray p.strayEnergy (energy 0)
        | .twin => countedStray (countedStray p.strayEnergy (energy 0)) (energy 1)
        | .power2 => countedStray (countedStray p.strayEnergy (energy 0)) (energy 1))
    ∧ (t.pedestal n).strayWater = (if p.cfg.kind = .power2 then p.strayWater else countedStray p.strayWater water)
    ∧ (∀ q, p.cfg.kind = .tap → p.link = .online → water = some q →
        (t.pedestal n).edition = if q = 0 then p.edition else p.edition + 1)
    ∧ SameNotices t (match p.cfg.kind with
        | .tap => faultTold water (.tap n) told
        | .single => faultTold water (.tap n) (marked 0 told)
        | .twin => faultTold water (.tap n) (marked 1 (marked 0 told))
        | .power2 => marked 1 (marked 0 told)) := by
  intro p energy water marked t
  obtain ⟨g, hg⟩ := deliver_stray hn hp hw hl hload
  have hv := deliveries_strayed (f := f) htold hp hw hl
  have hedition {q : Nat} (hk : p.cfg.kind = .tap) (ho : p.link = .online) (hq : water = some q) :
      ((deliverTap n true f (eachOf p.cfg.kind.sockets (deliverSocket n true f) (answeredAt n f s))).pedestal n).edition
        = if q = 0 then p.edition else p.edition + 1 := by
    rw [hk]
    exact deliver_tap_edition hk ho hw (by rw [← hq]; show _ = unpack (tapReport p.cfg.kind f).water; rw [hk])
  have ht : t = _ := hg
  have hbase := answeredAt_eq n f s
  dsimp only at hv ht
  rw [ht]
  change Strayed n _ _ _ (answeredAt n f s)
    (deliverTap n true f (eachOf p.cfg.kind.sockets (deliverSocket n true f) (answeredAt n f s))) at hv
  generalize deliverTap n true f (eachOf p.cfg.kind.sockets (deliverSocket n true f) (answeredAt n f s)) = v at *
  have heq := hv.eq
  rw [hbase] at heq
  refine ⟨?_, ?_, ?_, ?_, hv.energy, hv.water, fun q hk ho hq => hedition hk ho hq,
    (hv.notices.trans (modFeeder_noticeView ..)).same⟩
  · show v.accounts = _
    rw [heq]
  · show v.power = _
    rw [heq]
  · show v.water = _
    rw [heq]
  · show v.grantCount = _
    rw [heq]

/-- The current report of a TAP alone, and the relief that the eighth in a row above the rating brings (R111, R112). -/
theorem deliver_tap_currents {n : PedestalId} {f : List Nat} {s : State} (hk : (s.pedestal n).cfg.kind = .tap)
    (hn : (s.pedestal n).tag = some (replyTag f)) (hw : s.water.get n = none) {told : State} (h0 : NoticeView told s) :
    let p := s.pedestal n
    let F := p.cfg.feeder
    let x := s.feeder F
    let sum := drawnOn s F
    let exceeds := x.cfg.rating * 10 < sum
    let t := deliver n f s
    let u := if p.link = .offline
      then raise .pedestalBack { berth := berthNaming s (socketAt n 0), value := some n.val } told else told
    t.accounts = s.accounts ∧ t.water = s.water ∧ t.grantCount = s.grantCount
    ∧ ((¬ exceeds ∨ x.overload < 7) → t.power = s.power ∧ SameNotices t u
        ∧ t.feeders = s.feeders.put F { x with measured := sum, overload := if exceeds then x.overload + 1 else 0 })
    ∧ (exceeds → 7 ≤ x.overload →
        (t.feeder F).measured = sum ∧ (t.feeder F).overload = 0 ∧ (t.feeder F).relief = some (s.clock.plus 60)
        ∧ (FeedersOk s → (t.feeder F).heldSum = x.heldSum) ∧ (t.feeder F).cfg = x.cfg
        ∧ (x.relief ≠ some (s.clock.plus 60) → (t.feeder F).edition = x.edition + 1)
        ∧ (∀ k y, NewestLive s F (fun z => z.granted = 63) k y →
            t.power = s.power.put k (some { y with granted := 32, stepped := true })
            ∧ (t.feeder F).waitList = x.waitList
            ∧ ((s.pedestal (pedestalOf k)).cfg.ratings.get (positionOf k) = .a63 →
                ((t.pedestal (pedestalOf k)).desired.get (positionOf k)).limit = .l32)
            ∧ SameNotices t (raise .feederRelief
                { outlet := some (.socket k), value := some F.val, reason := some (.relief .stepDown) } u))
        ∧ (∀ k y, (∀ m z, LiveOn s F m z → z.granted ≠ 63) → NewestLive s F (fun _ => True) k y →
            let full := 64 ≤ x.waitList.length
            t.power = s.power.put k (some (if full
              then { y with state := .closing, shed := true, closeReason := some .full, confirmMisses := 0 }
              else { y with state := .waiting, shed := true, confirmMisses := 0 }))
            ∧ (t.feeder F).waitList = (if full then x.waitList else x.waitList ++ [k])
            ∧ ((t.pedestal (pedestalOf k)).desired.get (positionOf k)).relay = false
            ∧ SameNotices t (raise .feederRelief
                { outlet := some (.socket k), value := some F.val, reason := some (.relief .shed) } u))
        ∧ ((∀ m z, ¬ LiveOn s F m z) → t.power = s.power ∧ (t.feeder F).waitList = x.waitList
            ∧ SameNotices t (raise .feederRelief
                { value := some F.val, reason := some (.relief .nothing) } u))) := by
  intro p F x sum exceeds t u
  have ht : t = measureFeeder (answeredAt n f s) F (answeredAt n f s) := deliver_repeat_tap hk hn hw
  have htold : NoticeView u (answeredAt n f s) := answeredAt_told h0 n f
  have hcfg := answeredAt_cfgs n f s
  have hbase := answeredAt_eq n f s
  generalize answeredAt n f s = v at ht htold hcfg hbase
  have hpower : v.power = s.power := by rw [hbase]
  have hfeeders : v.feeders = s.feeders := by rw [hbase]
  have hclock : v.clock = s.clock := by rw [hbase]
  have haccounts : v.accounts = s.accounts := by rw [hbase]
  have hwater : v.water = s.water := by rw [hbase]
  have hcount : v.grantCount = s.grantCount := by rw [hbase]
  have hx : v.feeder F = x := by rw [State.feeder, hfeeders]; rfl
  have hsum : drawnOn v F = sum := drawnOn_same hpower hcfg F
  have hcalm (h : ¬ exceeds ∨ x.overload < 7) : t = { v with feeders := v.feeders.put F { x with measured := sum, overload := if exceeds then x.overload + 1 else 0 } } := by
    rw [ht, measureFeeder_calm hsum (by rw [hx]; exact h), hx]
  have hrelief (he : exceeds) (h : 7 ≤ x.overload) : t = relieve v F (overloaded F sum v) := by
    rw [ht, measureFeeder_relieves hsum (by rw [hx]; exact he) (by rw [hx]; exact h)]
  obtain ⟨hra, hrw, hrc, hmeasured, hload, hhold, hheld, hfcfg, hedition⟩ := relieve_overloaded F sum v
  rw [haccounts] at hra
  rw [hwater] at hrw
  rw [hcount] at hrc
  rw [hclock] at hhold
  rw [hx] at hheld hfcfg hedition
  rw [hclock] at hedition
  have hframe : t.accounts = s.accounts ∧ t.water = s.water ∧ t.grantCount = s.grantCount := by
    by_cases h : ¬ exceeds ∨ x.overload < 7
    · rw [hcalm h]; exact ⟨haccounts, hwater, hcount⟩
    · obtain ⟨he, hx7⟩ := not_or.1 h
      rw [hrelief (not_not.1 he) (Nat.not_lt.1 hx7)]; exact ⟨hra, hrw, hrc⟩
  obtain ⟨hta, htw, htc⟩ := hframe
  refine ⟨hta, htw, htc, fun h => ?_, fun he h => ?_⟩
  · rw [hcalm h, ← hfeeders]
    exact ⟨hpower, htold.same, rfl⟩
  · rw [hrelief he h]
    refine ⟨hmeasured, hload, hhold, fun hok => hheld ?_, hfcfg, hedition, fun k y hk => ?_, fun k y hno hk => ?_, fun hno => ?_⟩
    · obtain ⟨-, -, hsockets⟩ := sockets_congr hcfg
      rw [heldOn, hsockets, hpower]
      exact hok.law.sum F
    · have hk' : NewestLive v F (fun z => z.granted = 63) k y := hk.of_same hpower hcfg
      have hstep := relieve_stepDown (sum := sum) htold hk'
      rw [hpower, hx, hcfg] at hstep
      exact hstep
    · have hno' : ∀ m z, LiveOn v F m z → z.granted ≠ 63 := fun m z hz => hno m z ((sessionOn_same hpower hcfg F m z).1 hz)
      have hk' : NewestLive v F (fun _ => True) k y := hk.of_same hpower hcfg
      have hshed := relieve_shed (sum := sum) htold hno' hk'
      rw [hpower, hx] at hshed
      exact hshed
    · have hnothing := relieve_nothing (sum := sum) htold fun m z hz => hno m z ((sessionOn_same hpower hcfg F m z).1 hz)
      rw [hpower, hx] at hnothing
      exact hnothing

/-- Settles O42: the deliveries of a reply, followed one by one from the record of step 1 to the feeder's relief. -/
theorem aValidReplyIsAccountedOnce : Obligations.AValidReplyIsAccountedOnce := by
  intro g poll s hrun ho n p u f closed
  have hrow : exec (.noReply g) s = .next (noReply g s) := congrArg Host.Outcome.next (event_running hrun)
  have hreply : exec (.pedestalReply g) s = .next (pedestalReply g s) := congrArg Host.Outcome.next (event_running hrun)
  have hvalid (h : ValidReply g poll s) : exec (.pedestalReply g) s = .next (deliver n f closed) := pedestalReply_valid h
  have htaken : ReplyTaken g s (deliver n f closed) := deliver_replyTaken g n f s
  have hclosed : NoticeView s closed := ⟨⟨rfl, rfl⟩, rfl, rfl, rfl, rfl⟩
  refine ⟨fun hb hj => ?_, fun hb => ?_, fun hb => ?_, fun hb hj => ?_, fun hp hw hv hl hload hn => ?_,
    fun y hv hl hload hn hk hy hs hw hd hq => ?_, fun y hv hl hload hn hk _ hy hs hvalve _ hd => ?_,
    fun hv hk hn hw => ?_⟩
  · rw [hreply, (pedestalReply_judged ho hb).2 hj]
    exact ⟨_, rfl, miss_missed ..⟩
  · rw [hrow, (noReply_cases ho).1 hb]
    exact ⟨_, rfl, miss_missed ..⟩
  · rw [hrow, (noReply_cases ho).2 hb]
  · obtain ⟨hmisses, hlink, hlast, htag, hcfg, hreported, hvalve⟩ := deliver_record n f closed
    refine ⟨_, hvalid ⟨hrun, ho, hb, hj⟩, deliver_handled n f closed, hmisses, hlink, hlast, htag, hcfg, hreported, hvalve,
      htaken, fun hs m hm => deliver_others n f closed hs m hm, fun hn => deliver_repeat n f closed hn,
      fun y q hn hk hy hs hvalve _ hq _ hb hst => ?_,
      fun y q hn hk hy hs hheld hw htrip hrelay hlimit hload hq _ hb hst => ?_⟩
    · exact deliver_tap_charged (s := closed) hk hn hy hs hvalve hq rfl hb hst rfl rfl
    · exact deliver_single_charged (s := closed) hk hn hy hs hheld hw htrip hrelay hlimit
        (lt_of_eq_of_lt hload (by decide)) hq rfl hb hst
  · obtain ⟨ha, hpower, hwater, hcount, henergy, hstray, hedition, hnotices⟩ :=
      deliver_stray_counted (n := n) (f := f) (s := closed) hn hp hw hl hload hclosed
    exact ⟨_, hvalid hv, htaken, ha, hpower, hwater, hcount, henergy, hstray, hedition, hnotices⟩
  · obtain ⟨ha, hpower, hstray, hnotices⟩ := deliver_single_fault (s := closed) hk hn hl hload hy hs hw hd hq hclosed
    exact ⟨_, hvalid hv, htaken, ha, hpower, hstray, hnotices⟩
  · obtain ⟨ha, hwater, hstray, hnotices⟩ := deliver_tap_fault (s := closed) hk hn hl hload hy hs hvalve hd hclosed
    exact ⟨_, hvalid hv, htaken, ha, hwater, hstray, hnotices⟩
  · obtain ⟨ha, hwater, hcount, hcalm, hrelief⟩ := deliver_tap_currents (s := closed) hk hn hw hclosed
    refine ⟨_, _, _, hvalid hv, htaken, ha, hwater, hcount, berthNaming_names s _, rfl, hcalm, fun he h => ?_⟩
    exact hrelief he h

end Sys2Proof.Machine

/-! ## Replies that repeat their tag (R86) -/

namespace Sys2Proof.Machine

theorem hasTap_of_ne {k : PedestalKind} (h : k ≠ .power2) : k.hasTap = true := by
  cases k with
  | power2 => exact absurd rfl h
  | twin | single | tap => rfl

/-- From `s` the poll is closed and the record of pedestal `n` written from a reply with the fields `f` (R82, R89 step 1), with no notice. -/
structure Answered (n : PedestalId) (f : List Nat) (s u : State) : Prop where
  eq : u = { s with segments := u.segments, pedestals := u.pedestals }
  record : u.pedestal n = (s.pedestal n).settled ((s.pedestal n).answered f)

section

variable {n : PedestalId} {f : List Nat} {s u : State}

theorem Answered.noticeView (h : Answered n f s u) : NoticeView s u := by
  rw [h.eq]; exact ⟨⟨rfl, rfl⟩, rfl, rfl, rfl, rfl⟩

theorem Answered.power (h : Answered n f s u) : u.power = s.power := by rw [h.eq]

theorem Answered.water (h : Answered n f s u) : u.water = s.water := by rw [h.eq]

theorem Answered.accounts (h : Answered n f s u) : u.accounts = s.accounts := by rw [h.eq]

theorem Answered.feeders (h : Answered n f s u) : u.feeders = s.feeders := by rw [h.eq]

theorem Answered.grantCount (h : Answered n f s u) : u.grantCount = s.grantCount := by rw [h.eq]

theorem Answered.cfg (h : Answered n f s u) : (u.pedestal n).cfg = (s.pedestal n).cfg := by
  rw [h.record, answered_eq]; rfl

/-- The valve agrees with the one desired as the reply reports it (R88). -/
theorem Answered.valve (h : Answered n f s u) (hk : (s.pedestal n).cfg.kind ≠ .power2) :
    (u.pedestal n).reportedValve = (u.pedestal n).desiredValve
      ↔ (tapReport (s.pedestal n).cfg.kind f).valve = (s.pedestal n).desiredValve := by
  rw [h.record, answered_eq, Pedestal.settled_reportedValve, Pedestal.settled_desiredValve]
  dsimp only
  rw [if_pos (hasTap_of_ne hk)]

/-- A socket without a session hears neither a trip nor an agreement. -/
theorem deliverSocket_vacant {i : Fin 2} (h : s.power.get (socketAt n i) = none) : deliverSocket n false f i s = s := by
  have htrip : (if (socketReport f i).reported.trip then powerTrip s (socketAt n i) s else s) = s := by
    split
    · simp only [powerTrip, h]
    · rfl
  unfold deliverSocket
  simp only [Bool.false_eq_true, if_false, htrip, powerAgreement, h]

theorem deliverTap_repeat (n : PedestalId) (f : List Nat) (s : State) :
    deliverTap n false f s = if (s.pedestal n).cfg.kind.hasTap then valveAgreement s n s else s := rfl

end

/-- The row of a reply that repeats its tag: nothing is metered, and its sockets, its tap and its currents are handed on from the state in which it is answered (R82, R86, R89). -/
theorem repeatReply_steps {g : SegmentId} {poll : Poll} {s : State} (h : RepeatReply g poll s) :
    let n := poll.pedestal
    let f := (s.segment g).unpacker.fields
    let kind := (s.pedestal n).cfg.kind
    ∃ u, Answered n f s u
      ∧ let v := deliverTap n false f (eachOf kind.sockets (deliverSocket n false f) u)
        exec (.pedestalReply g) s = .next (currentReport v n kind.sockets v)
        ∧ ReplyTaken g s (currentReport v n kind.sockets v) := by
  obtain ⟨hvalid, hn, hl, -⟩ := h
  intro n f kind
  have hexec := pedestalReply_valid hvalid
  have htaken := deliver_replyTaken g n f s
  generalize hc : putSegment g { s.segment g with outstanding := none } s = c at hexec htaken
  have hped : c.pedestal n = s.pedestal n := by rw [← hc]; rfl
  have hold : accounted (c.pedestal n) f = false := by rw [hped]; simp [accounted, n, f, hn]
  have hsteps := deliver_steps n f c
  dsimp only at hsteps
  rw [hold, hped] at hsteps
  rw [hsteps] at htaken
  refine ⟨answeredAt n f c, ⟨?_, ?_⟩, hexec.trans (congrArg Host.Outcome.next hsteps), htaken⟩
  · rw [answeredAt_online (by rw [hped]; exact hl), ← hc]
    rfl
  · rw [answeredAt_pedestal, if_pos rfl, hped]

end Sys2Proof.Machine

/-! ## Water sessions (O45) -/

namespace Sys2Proof.Machine

/-! ### The writes of a tap's slot and of its account's link -/

/-- A valve that is desired anew advances the pedestal's edition (R79). -/
theorem Pedestal.settled_valve (p : Pedestal) (v : Bool) :
    p.settled { p with desiredValve := v } =
      { p with desiredValve := v, edition := if p.desiredValve = v then p.edition else p.edition + 1 } := by
  by_cases h : p.desiredValve = v
  · simp [Pedestal.settled, Pedestal.sameCounted, editionAfter, h]
  · simp [Pedestal.settled, Pedestal.sameCounted, editionAfter, h, Ne.symm h]

/-- The valve of a session, or of none (R116). -/
def valveOf (x : Option WaterSession) : Bool := (x.map fun w => w.state.on).getD false

/-- The pedestals after the valve of tap `k` is desired as `v`. -/
def withValve (s : State) (k : TapId) (v : Bool) : Table Pedestal 256 :=
  s.pedestals.put k
    { s.pedestal k with
      desiredValve := v
      edition := if (s.pedestal k).desiredValve = v then (s.pedestal k).edition else (s.pedestal k).edition + 1 }

theorem putWater_eq (k : TapId) (x : Option WaterSession) (s : State) :
    putWater s k x s = { s with water := s.water.put k x, pedestals := withValve s k (valveOf x) } := by
  show { s with
    water := s.water.put k x
    pedestals := s.pedestals.put k ((s.pedestal k).settled { s.pedestal k with desiredValve := valveOf x }) } = _
  rw [Pedestal.settled_valve]
  rfl

/-- A slot and the link of an account are written in one change, which advances the account's edition (R1, R115, R116). -/
theorem putWater_linked {k : TapId} {a : AccountId} {l : Option TapId} {s : State} (x : Option WaterSession)
    (h : (s.account a).water ≠ l) :
    modAccount s a (fun y => { y with water := l }) (putWater s k x s) =
      { s with
        water := s.water.put k x
        pedestals := withValve s k (valveOf x)
        accounts := s.accounts.put a { s.account a with water := l, edition := (s.account a).edition + 1 } } := by
  have hput : modAccount s a (fun y => { y with water := l }) (putWater s k x s) =
      putAccount s a { s.account a with water := l } (putWater s k x s) := rfl
  rw [hput, putAccount_of_ne fun e => h (congrArg Account.water e).symm, putWater_eq]

/-- The end of a linked session: slot, valve, link and notice (R116). -/
theorem endWater_eq {k : TapId} {s : State} {y : WaterSession} (why : WaterEnd) (hy : s.water.get k = some y)
    (hl : (s.account y.account).water ≠ none) :
    endWater s k why s = raise .waterEnded
      { account := some y.account, outlet := some (.tap k), value := some y.volume, reason := some (.waterEnd why) }
      { s with
        water := s.water.put k none
        pedestals := withValve s k false
        accounts := s.accounts.put y.account
          { s.account y.account with water := none, edition := (s.account y.account).edition + 1 } } := by
  unfold endWater
  rw [hy]
  exact congrArg (raise .waterEnded _) (putWater_linked none hl)

/-! ### REQUEST_WATER (R115) -/

/-- The session that REQUEST_WATER opens. -/
def newWater (a : AccountId) (n : BerthId) : WaterSession :=
  { state := .opening, account := a, berth := n, volume := 0, confirmMisses := 0, fault := false, closeReason := none }

section

variable {a : AccountId} {n : BerthId} {k : TapId} {s : State}

theorem requestWaterThis_no_tap (hd : s.device = .opened) (hs : (s.account a).state = .berthed)
    (hb : (s.account a).berth = some n) (ht : (s.berth n).cfg.tap = none) : requestWaterThis a s = .error .noEntry := by
  unfold requestWaterThis
  simp only [hs, hb, ht]
  exact if_neg (not_not.2 hd)

/-- The checks of R115 for an account BERTHED where there is a tap, in their order, and the session. -/
theorem requestWaterThis_tap (hd : s.device = .opened) (hs : (s.account a).state = .berthed)
    (hb : (s.account a).berth = some n) (ht : (s.berth n).cfg.tap = some k) :
    requestWaterThis a s =
      if (s.account a).standing = .barred then .error .standing
      else if (s.account a).water ≠ none ∨ s.water.get k ≠ none then .error .inUse
      else if (s.pedestal k).link = .offline then .error .offline
      else done (modAccount s a (fun y => { y with water := some k }) (putWater s k (some (newWater a n)) s)) [] := by
  unfold requestWaterThis
  simp only [hs, hb, ht, pedestalOffline, decide_eq_true_eq]
  rw [if_neg (not_not.2 hd)]
  by_cases hw : (s.account a).water = none <;> simp [hw, newWater]

end

theorem requestWater_refused_state {a : AccountId} {s : State} (hd : s.device = .opened)
    (hs : (s.account a).state ≠ .berthed) : requestWaterThis a s = .error .state := by
  unfold requestWaterThis
  dsimp only
  rw [if_neg (not_not.2 hd)]
  split
  · next h _ => exact absurd h hs
  · rfl

/-! ### END_WATER (R118) -/

theorem endWaterOwner_unlinked {a : AccountId} {s : State} (h : (s.account a).water = none) :
    endWaterOwner a.val s = .error .state := by
  unfold endWaterOwner
  simp only [ident_val, h]

theorem endWaterOwner_linked {a : AccountId} {k : TapId} {s : State} (h : (s.account a).water = some k) :
    endWaterOwner a.val s =
      done (closeWater s k .finished true s) [endingWord (((closeWater s k .finished true s).account a).water.isSome)] := by
  unfold endWaterOwner
  simp only [ident_val, h]

/-- The close request of END_WATER, by the session's state. -/
theorem closeWater_by_command {k : TapId} {s : State} {y : WaterSession} (hy : s.water.get k = some y) :
    ((y.state = .opening ∨ y.state = .flowing) → closeWater s k .finished true s =
      putWater s k (some { y with state := .closing, closeReason := some .finished, confirmMisses := 0 }) s)
    ∧ (y.state = .suspended → closeWater s k .finished true s = endWater s k .finished s)
    ∧ (∀ why, y.state = .closing → (s.pedestal k).link = .offline → y.closeReason = some why →
        closeWater s k .finished true s = endWater s k why s)
    ∧ (y.state = .closing → (s.pedestal k).link ≠ .offline → closeWater s k .finished true s = s) := by
  unfold closeWater
  rw [hy]
  refine ⟨fun h => ?_, fun h => ?_, fun why h hl hr => ?_, fun h hl => ?_⟩
  · rcases h with h | h <;> simp only [h]
  · simp only [h]
  · simp only [h, pedestalOffline, hl, hr]; rfl
  · simp only [h, pedestalOffline, hl, Bool.true_and, decide_false, Bool.false_eq_true, if_false]

/-! ### The valve's agreement (R116) -/

/-- Between `s` and `t` tap `n` was worked on: no socket heard of it, and the valve follows the session. -/
structure ValveWork (n : TapId) (s t : State) : Prop where
  power : PowerView s t
  synced : (t.pedestal n).desiredValve = valveOf (t.water.get n)

theorem ValveWork.raise {n : TapId} {s t : State} (c : NoticeClass) (i : NoticeInfo) (h : ValveWork n s t) :
    ValveWork n s (raise c i t) :=
  ⟨h.power.trans (raise_powerView ..), by rw [raise_pedestal, raise_water]; exact h.synced⟩

theorem putWater_valveWork (b : State) (n : TapId) (x : Option WaterSession) (s : State) :
    ValveWork n s (putWater b n x s) := by
  refine ⟨putWater_powerView .., ?_⟩
  rw [(putWater_pedestal_rest ..).2.2, if_pos rfl, putWater_water, Table.get_put_self]
  rfl

theorem endWater_valveWork (b : State) {n : TapId} (why : WaterEnd) {s : State} {y : WaterSession}
    (hy : s.water.get n = some y) : ValveWork n s (endWater b n why s) := by
  have hput := putWater_valveWork b n none s
  have hlink : ValveWork n s (modAccount b y.account (fun a => { a with water := none }) (putWater b n none s)) :=
    ⟨hput.power.trans (dropWater_powerView ..), hput.synced⟩
  unfold endWater
  rw [hy]
  exact hlink.raise ..

theorem countValveMiss_valveWork (b : State) (n : TapId) (x : WaterSession) (s : State) :
    ValveWork n s (countValveMiss b n x s) := by
  unfold countValveMiss
  split
  · exact (putWater_valveWork ..).raise ..
  · exact putWater_valveWork ..

theorem valveAgreement_valveWork (b : State) {n : TapId} {s : State} {y : WaterSession} (hy : s.water.get n = some y) :
    ValveWork n s (valveAgreement b n s) := by
  unfold valveAgreement
  rw [hy]
  dsimp only
  split
  · exact putWater_valveWork ..
  · split
    · exact (endWater_valveWork b .fault hy).raise ..
    · exact putWater_valveWork ..
  · exact putWater_valveWork ..
  · exact putWater_valveWork ..
  · exact putWater_valveWork ..
  · exact countValveMiss_valveWork ..
  · exact endWater_valveWork b _ hy
  · exact countValveMiss_valveWork ..

/-- From `s` the session of tap `n` becomes `z`, and the notices of `t` are those of `told`. -/
structure TapBecomes (n : TapId) (z : WaterSession) (s told t : State) : Prop where
  water : t.water = s.water.put n (some z)
  accounts : t.accounts = s.accounts
  notices : NoticeView told t

/-- From `s` the session of tap `n`, of account `a`, ends, and the notices of `t` are those of `told`. -/
structure TapEnds (n : TapId) (a : AccountId) (s told t : State) : Prop where
  water : t.water = s.water.put n none
  link : (t.account a).water = none
  others : ∀ m, m ≠ a → t.account m = s.account m
  notices : NoticeView told t

section

variable {n : TapId} {z : WaterSession} {a : AccountId} {s told t : State}

theorem TapBecomes.raise (c : NoticeClass) (i : NoticeInfo) (h : TapBecomes n z s told t) :
    TapBecomes n z s (raise c i told) (raise c i t) :=
  ⟨(raise_water ..).trans h.water, (raise_accounts ..).trans h.accounts, h.notices.raised ..⟩

theorem TapEnds.raise (c : NoticeClass) (i : NoticeInfo) (h : TapEnds n a s told t) :
    TapEnds n a s (raise c i told) (raise c i t) :=
  ⟨(raise_water ..).trans h.water, (congrArg Account.water (raise_account ..)).trans h.link,
    fun m hm => (raise_account ..).trans (h.others m hm), h.notices.raised ..⟩

/-- The measurement of the feeder leaves a tap that became another; `u` has the taps and accounts of `s`. -/
theorem TapBecomes.measured {u : State} (h : TapBecomes n z u told t) (hw : u.water = s.water)
    (ha : u.accounts = s.accounts) (F : FeederId) (g : Feeder → Feeder) :
    let v := modFeeder t F g t
    v.water = s.water.put n (some z) ∧ v.accounts = s.accounts ∧ SameNotices v told :=
  ⟨h.water.trans (by rw [hw]), h.accounts.trans ha, h.notices.same⟩

/-- The measurement of the feeder leaves a tap whose session ended. -/
theorem TapEnds.measured {u : State} (h : TapEnds n a u told t) (hw : u.water = s.water) (ha : u.accounts = s.accounts)
    (F : FeederId) (g : Feeder → Feeder) :
    let v := modFeeder t F g t
    v.water = s.water.put n none ∧ (v.account a).water = none ∧ SameNotices v told
      ∧ ∀ m, m ≠ a → v.account m = s.account m :=
  ⟨h.water.trans (by rw [hw]), h.link, h.notices.same, fun m hm => (h.others m hm).trans (by rw [State.account, ha]; rfl)⟩

theorem WaterWritten.becomes (hv : NoticeView told s) (h : WaterWritten n (some z) s t) : TapBecomes n z s told t := by
  obtain ⟨e, rfl⟩ := h
  exact ⟨rfl, rfl, hv.trans ⟨⟨rfl, rfl⟩, rfl, rfl, rfl, rfl⟩⟩

theorem WaterEnded.ends {why : WaterEnd} (hv : NoticeView told s) (hz : s.water.get n = some z)
    (h : WaterEnded n why s t) :
    TapEnds n z.account s
      (Machine.raise .waterEnded
        { account := some z.account, outlet := some (.tap n), value := some z.volume, reason := some (.waterEnd why) } told)
      t := by
  obtain ⟨u, v, ⟨e, rfl⟩, ⟨d, rfl⟩, rfl⟩ := h z hz
  refine TapEnds.raise _ _ ⟨rfl, ?_, fun m hm => Table.get_put_ne _ _ (Ne.symm hm),
    hv.trans ⟨⟨rfl, rfl⟩, rfl, rfl, rfl, rfl⟩⟩
  exact congrArg Account.water (Table.get_put_self ..)

end

/-- A repeated reply of a pedestal with a water session alone: the valve's agreement, and the measurement of the feeder. -/
theorem repeatReply_valve {g : SegmentId} {poll : Poll} {s : State} {y : WaterSession} (h : RepeatReply g poll s)
    (hk : (s.pedestal poll.pedestal).cfg.kind ≠ .power2) (hy : s.water.get poll.pedestal = some y)
    (hp : ∀ i, s.power.get (socketAt poll.pedestal i) = none) :
    ∃ (u : State) (F : FeederId) (m : Feeder → Feeder), Answered poll.pedestal (s.segment g).unpacker.fields s u
      ∧ let v := valveAgreement u poll.pedestal u
        exec (.pedestalReply g) s = .next (modFeeder v F m v) ∧ ReplyTaken g s (modFeeder v F m v) := by
  obtain ⟨u, hu, hrow⟩ := repeatReply_steps h
  obtain ⟨-, -, -, hload⟩ := h
  generalize poll.pedestal = n at *
  have hup (i : Fin 2) : u.power.get (socketAt n i) = none := by rw [hu.power]; exact hp i
  have hsockets : eachOf (s.pedestal n).cfg.kind.sockets (deliverSocket n false (s.segment g).unpacker.fields) u = u :=
    eachOf_keeps (P := fun t => t = u) (fun i t e => by rw [e, deliverSocket_vacant (hup i)]) _ rfl
  rw [hsockets, deliverTap_repeat, hu.cfg, if_pos (hasTap_of_ne hk)] at hrow
  have hwork := (valveAgreement_valveWork u (show u.water.get n = some y by rw [hu.water]; exact hy)).power
  obtain ⟨m, hm⟩ := currentReport_idle (n := n) (ks := (s.pedestal n).cfg.kind.sockets) (s := valveAgreement u n u)
    (fun i => by rw [hwork.power]; exact hup i)
    (by rw [hwork.cfg, hu.cfg, State.feeder, hwork.feeders, hu.feeders]; exact hload)
  dsimp only at hrow
  rw [hm] at hrow
  exact ⟨u, _, m, hu, hrow⟩

/-- Settles O45: each command by its checks and the one write they lead to, and a repeated reply by the agreement of its valve. -/
theorem waterIsRequestedAndEnded : Obligations.WaterIsRequestedAndEnded := by
  refine ⟨fun o a s hr hd => ?_, fun o a s hr => ?_, fun g poll y s hrep => ?_⟩
  · intro x answers
    have hown : requestWaterOwner a.val s = requestWaterThis a s := by simp only [requestWaterOwner, ident_val]
    have hrefused {r : Refuse} (h : requestWaterThis a s = .error r) : answers r :=
      (requestWater_form ..).refused hr (hown.trans h)
    refine ⟨fun h => hrefused (requestWater_refused_state hd h), fun n hs hb => ?_⟩
    refine ⟨fun ht => hrefused (requestWaterThis_no_tap hd hs hb ht), fun k ht => ?_⟩
    have hchecks := requestWaterThis_tap hd hs hb ht
    refine ⟨fun h => hrefused ?_, fun h hu => hrefused ?_, fun h hw hk hl => hrefused ?_, fun h hw hk hl => ?_⟩
    · rw [hchecks, if_pos h]
    · rw [hchecks, if_neg h, if_pos hu]
    · rw [hchecks, if_neg h, if_neg (not_or.2 ⟨not_not.2 hw, not_not.2 hk⟩), if_pos hl]
    · refine (requestWater_form ..).taken hr (hown.trans ?_)
      rw [hchecks, if_neg h, if_neg (not_or.2 ⟨not_not.2 hw, not_not.2 hk⟩), if_neg hl, putWater_linked _ (by rw [hw]; exact nofun)]
      rfl
  · intro x
    refine ⟨fun h => (endWater_form ..).refused hr (endWaterOwner_unlinked h), fun k y hk hy ha => ?_⟩
    intro p shut
    subst ha
    have hown := endWaterOwner_linked hk
    have hlink : x.water ≠ none := by rw [hk]; exact nofun
    have hshut : shut = withValve s k false := by
      have : (if p.desiredValve then p.edition + 1 else p.edition) = if p.desiredValve = false then p.edition else p.edition + 1 := by
        cases p.desiredValve <;> rfl
      rw [show shut = s.pedestals.put k { p with desiredValve := false, edition := _ } from rfl, this]
      rfl
    obtain ⟨hopen, hsuspended, hoffline, hclosing⟩ := closeWater_by_command hy
    have hended (why : WaterEnd) (h : closeWater s k .finished true s = endWater s k why s) :
        exec (.endWater o y.account.val) s = .next (reply o.port o.suffix [.done [.val (.word "ENDED")]]
          (endWater s k why s)) := by
      refine (endWater_form ..).taken hr (hown.trans ?_)
      rw [h, (endWater_leaves s why hy).2]
      rfl
    refine ⟨fun h => ?_, fun why h => ?_, fun h hl => ?_⟩
    · refine (endWater_form ..).taken hr (hown.trans ?_)
      rw [hopen h, putWater_eq, hshut]
      show done _ [endingWord x.water.isSome] = _
      rw [hk]
      rfl
    · rw [hshut, ← endWater_eq why hy hlink]
      refine hended why ?_
      rcases h with ⟨h, rfl⟩ | ⟨h, hl, hreason⟩
      · exact hsuspended h
      · exact hoffline why h hl hreason
    · refine (endWater_form ..).taken hr (hown.trans ?_)
      rw [hclosing h hl]
      show done _ [endingWord x.water.isSome] = _
      rw [hk]
      rfl
  · intro n p agrees hk hy hp
    obtain ⟨u, F, m, hu, hexec, htaken⟩ := repeatReply_valve hrep hk hy hp
    have hview := hu.noticeView
    have hw := hu.water
    have ha := hu.accounts
    have hagrees : (u.pedestal n).reportedValve = (u.pedestal n).desiredValve ↔ agrees := hu.valve hk
    have hyu : u.water.get n = some y := by rw [hw]; exact hy
    refine ⟨_, hexec, htaken, ?_⟩
    obtain ⟨hpower, hsynced⟩ := valveAgreement_valveWork u hyu
    have hagreed := valveAgreement_agreed u n u
    unfold ValveAgreed at hagreed
    simp only [hyu, hagrees] at hagreed
    generalize valveAgreement u n u = v at hagreed hpower hsynced ⊢
    obtain ⟨hon, hfails, hopening, hrests, hcloses, hthird, hcounts⟩ := hagreed
    refine ⟨hpower.power.trans hu.power, hpower.grantCount.trans hu.grantCount, ?_, fun hg hs => ?_,
      fun hg hs => ?_, fun why hg hs hr => ?_, fun hg hs => ?_, fun hg hs h3 => ?_, fun hg hs h3 => ?_, fun hg hs h3 => ?_⟩
    · refine hsynced.trans ?_
      show valveOf (v.water.get n) = match v.water.get n with | some z => z.state.on | none => false
      cases v.water.get n <;> rfl
    · exact ((hon (by rw [hs]; rfl) hg).becomes hview).measured hw ha ..
    · rcases hs with hs | hs
      · have := hon (by rw [hs]; rfl) hg
        rw [← hs] at this
        exact (this.becomes hview).measured hw ha ..
      · exact ((hrests hs hg).becomes hview).measured hw ha ..
    · have := hcloses hs hg
      rw [hr] at this
      exact (this.ends hview hyu).measured hw ha ..
    · exact ((hfails hs hg).becomes hview).measured hw ha ..
    · refine ((hcounts ?_ hg h3).becomes hview).measured hw ha ..
      cases hstate : y.state with
      | flowing => exact absurd hstate hs
      | opening => exact .inr rfl
      | suspended => exact .inl (.inl rfl)
      | closing => exact .inl (.inr rfl)
    · obtain ⟨w, hw', rfl⟩ := hopening hs hg h3
      exact ((hw'.ends hview hyu).raise ..).measured hw ha ..
    · obtain ⟨w, hw', rfl⟩ := hthird hs hg h3
      exact ((hw'.becomes hview).raise ..).measured hw ha ..

end Sys2Proof.Machine

/-! ## Requests for power (O43) -/

namespace Sys2Proof.Machine

/-! ### The checks of R97 -/

theorem ratingOf_amps (r : Rating) : ratingOf r.amps = some r := by cases r <;> rfl

theorem powerSocket_not_berthed {s : State} {a : AccountId} (h : (s.account a).state ≠ .berthed) :
    powerSocket s a = .error .state := by
  unfold powerSocket
  dsimp only
  split
  · next hs _ => exact absurd hs h
  · rfl

theorem powerSocket_no_socket {s : State} {a : AccountId} {n : BerthId} (hs : (s.account a).state = .berthed)
    (hb : (s.account a).berth = some n) (hk : (s.berth n).cfg.socket = none) : powerSocket s a = .error .noEntry := by
  unfold powerSocket
  simp only [hs, hb, hk]

/-- The checks of R97 for an account BERTHED where there is a socket, in their order. -/
theorem powerSocket_socket {s : State} {a : AccountId} {n : BerthId} {k : SocketId}
    (hs : (s.account a).state = .berthed) (hb : (s.account a).berth = some n) (hk : (s.berth n).cfg.socket = some k) :
    powerSocket s a =
      if (s.account a).standing ≠ .good then .error .standing
      else if (s.account a).power ≠ none ∨ s.power.get k ≠ none then .error .inUse
      else if (s.pedestal (pedestalOf k)).link = .offline then .error .offline
      else .ok k := by
  unfold powerSocket
  simp only [hs, hb, hk, pedestalOffline, decide_eq_true_eq]

/-- A request is refused by the first of its checks that fails, or FULL where its session is not admitted. -/
theorem requestPower_refused {b s : State} {a : AccountId} {r : Refuse} (wish : Rating) (h : powerSocket s a = .error r) :
    requestPower b a wish s = .error r := by
  unfold requestPower
  simp only [h]

theorem requestPower_full {b s : State} {a : AccountId} {k : SocketId} {wish : Rating} (h : powerSocket s a = .ok k)
    (ha : enterAdmission b k (newSession s a wish) s = none) : requestPower b a wish s = .error .full := by
  unfold requestPower
  simp only [h, ha]

/-- A request that passes its checks links the account to its session, as that is admitted (R97, R99). -/
theorem requestPower_admitted {b s t : State} {a : AccountId} {k : SocketId} {wish : Rating}
    (h : powerSocket s a = .ok k) (ha : enterAdmission b k (newSession s a wish) s = some t) :
    requestPower b a wish s = .ok (modAccount b a (fun x => { x with power := some k }) t, admittedItems t k) := by
  unfold requestPower
  simp only [h, ha]

section

variable {o : Origin} {a : AccountId} {wish : Rating} {s : State}

theorem requestPowerOwner_refused {r : Refuse} (hd : s.device = .opened) (h : requestPower s a wish s = .error r) :
    requestPowerOwner a.val wish.amps s = .error r := by
  unfold requestPowerOwner
  simp only [ident_val, ratingOf_amps, h]
  exact if_neg (not_not.2 hd)

theorem requestPowerOwner_done {t : State} {items : List Item} (hd : s.device = .opened)
    (h : requestPower s a wish s = .ok (t, items)) : requestPowerOwner a.val wish.amps s = done t items := by
  unfold requestPowerOwner
  simp only [ident_val, ratingOf_amps, h]
  exact if_neg (not_not.2 hd)

end

/-! ### Admission (R98, R99) -/

/-- Neither the wish nor its fallback finds room, or the feeder serves a list or holds a relief. -/
theorem admissionRoom_eq_none {s : State} {k : SocketId} {x : PowerSession} {f : Feeder}
    (hf : s.feeder (feederOf s k) = f)
    (h : ¬ (f.waitList = [] ∧ f.relief = none)
      ∨ f.cfg.cap < f.heldSum + wishNow s k x ∧ (wishNow s k x ≠ 63 ∨ f.cfg.cap < f.heldSum + 32)) :
    admissionRoom s k x = none := by
  unfold admissionRoom
  rw [hf]
  rcases h with h | ⟨hwish, hless⟩
  · exact if_neg h
  · cases hr : roomFor s k x with
    | none => exact ite_self none
    | some n =>
      subst hf
      rcases roomFor_some hr with ⟨hfits, -⟩ | ⟨-, h63, hfits, -⟩
      · exact absurd hfits (Nat.not_le.2 hwish)
      · exact absurd hfits (Nat.not_le.2 (hless.resolve_left (not_not.2 h63)))

theorem putPower_feederOf (b : State) (k : SocketId) (x : Option PowerSession) (s : State) (m : SocketId) :
    feederOf (putPower b k x s) m = feederOf s m :=
  congrArg PedestalCfg.feeder (putPower_pedestal_rest b k x s (pedestalOf m)).1

/-- A session that begins to wait joins the tail of its list (R99). -/
theorem putPower_joins (b : State) {k : SocketId} {y : PowerSession} {s : State} (hw : isWaiting (s.power.get k) = false)
    (hy : y.state = .waiting) :
    ((putPower b k (some y) s).feeder (feederOf s k)).waitList = (s.feeder (feederOf s k)).waitList ++ [k] := by
  rw [putPower_feeder, if_pos rfl, Feeder.settled_waitList, hw, isWaiting, hy]
  rfl

/-- A written slot, with its feeder as it follows, and of the pedestal its socket's desired outputs (R95). -/
theorem putPower_eq (b : State) (k : SocketId) (x : Option PowerSession) (s : State) :
    putPower b k x s =
      let p := s.pedestal (pedestalOf k)
      let w := desiredFor (p.cfg.ratings.get (positionOf k)) x
      { s with
        power := s.power.put k x
        feeders := (putPower b k x s).feeders
        pedestals := s.pedestals.put (pedestalOf k)
          { p with
            edition := ((putPower b k x s).pedestal (pedestalOf k)).edition
            desired := p.desired.put (positionOf k)
              { p.desired.get (positionOf k) with relay := w.1, limit := w.2 } } } := by
  have hped : (putPower b k x s).pedestals =
      s.pedestals.put (pedestalOf k) ((putPower b k x s).pedestal (pedestalOf k)) := by
    rw [State.pedestal]
    show Table.put _ _ _ = Table.put _ _ (Table.get (Table.put _ _ _) _)
    rw [Table.get_put_self]
    rfl
  have hrec : (putPower b k x s).pedestal (pedestalOf k) =
      { s.pedestal (pedestalOf k) with
        edition := ((putPower b k x s).pedestal (pedestalOf k)).edition
        desired := ((putPower b k x s).pedestal (pedestalOf k)).desired } := by
    unfold putPower syncSocket
    dsimp only
    rw [modPedestal_pedestal, if_pos rfl]
    rfl
  rw [putPower_desired] at hrec
  dsimp only at hrec ⊢
  rw [← hrec, ← hped]
  rfl

/-- An account's changed link to a socket, with its edition (R1). -/
theorem setPower_eq {b u : State} {a : AccountId} {l : Option SocketId} (hu : u.accounts = b.accounts)
    (h : (b.account a).power ≠ l) :
    modAccount b a (fun y => { y with power := l }) u =
      { u with accounts := b.accounts.put a { b.account a with power := l, edition := (b.account a).edition + 1 } } := by
  have ha : u.account a = b.account a := by rw [State.account, hu]; rfl
  rw [modAccount, ha, putAccount_of_ne fun e => h (congrArg Account.power e).symm, hu]

section

variable {s : State} {a : AccountId} {k : SocketId}

/-- A grant to an account without a session: slot, link, feeder, grant count and outputs (R100). -/
theorem grant_links {x : PowerSession} {amps : Nat} (hp : 0 < amps) (hk : s.power.get k = none)
    (ha : (s.account a).power = none) :
    let t := modAccount s a (fun y => { y with power := some k }) (grant s k x amps s)
    let p := s.pedestal (pedestalOf k)
    let f := s.feeder p.cfg.feeder
    t = { s with
          accounts := s.accounts.put a { s.account a with power := some k, edition := (s.account a).edition + 1 }
          power := s.power.put k (some
            { x with
              state := .switching, granted := amps, held := amps, grantStamp := min (s.grantCount + 1) 4294967295
              confirmMisses := 0, shed := false })
          feeders := s.feeders.put p.cfg.feeder { f with heldSum := f.heldSum + amps, edition := f.edition + 1 }
          grantCount := min (s.grantCount + 1) 4294967295
          pedestals := s.pedestals.put (pedestalOf k)
            { p with
              edition := (t.pedestal (pedestalOf k)).edition
              desired := p.desired.put (positionOf k)
                { relay := true, clearTrip := (p.desired.get (positionOf k)).clearTrip
                  limit := if p.cfg.ratings.get (positionOf k) = .a63 ∧ amps = 32 then .l32 else .l63 } } } := by
  intro t p f
  have hne : (s.account a).power ≠ some k := by rw [ha]; exact nofun
  have hlink : t = _ := setPower_eq (b := s) (u := grant s k x amps s) rfl hne
  have hped : t.pedestal (pedestalOf k) = (grant s k x amps s).pedestal (pedestalOf k) := rfl
  have hfeeders := putPower_feeders_of_ne (b := s) (k := k)
    (x := some { x with state := .switching, granted := amps, held := amps, grantStamp := nextGrant s.grantCount
                        confirmMisses := 0, shed := false })
    (s := { s with grantCount := nextGrant s.grantCount }) (held := f.heldSum + amps) (list := f.waitList) rfl
    (by show f.heldSum - heldOf (s.power.get k) + amps = _
        rw [hk]; rfl)
    (by show waitListAfter f.waitList k (isWaiting (s.power.get k)) false = _
        rw [hk]; rfl)
    (.inl (show f.heldSum + amps ≠ f.heldSum by omega))
  have hgrant := putPower_eq s k
    (some { x with state := .switching, granted := amps, held := amps, grantStamp := nextGrant s.grantCount
                   confirmMisses := 0, shed := false }) { s with grantCount := nextGrant s.grantCount }
  change grant s k x amps s = _ at hgrant
  rw [hfeeders] at hgrant
  change grant s k x amps s = { s with
    grantCount := _, power := _, feeders := _
    pedestals := s.pedestals.put (pedestalOf k)
      { p with edition := ((grant s k x amps s).pedestal (pedestalOf k)).edition, desired := _ } } at hgrant
  rw [hped]
  generalize ((grant s k x amps s).pedestal (pedestalOf k)).edition = e at hgrant ⊢
  rw [hlink, hgrant]
  rfl

/-- A session without a slot before joins its list, and is told its position (R99). -/
theorem joinWaitList_vacant (b : State) (x : PowerSession) (hk : s.power.get k = none) :
    joinWaitList b k x s = raise .powerWaiting
      { account := some x.account, outlet := some (.socket k)
        value := some (((s.feeder (feederOf s k)).waitList.length + 1 : Nat) : Int) }
      (putPower b k (some { x with state := .waiting, confirmMisses := 0 }) s) := by
  unfold joinWaitList
  dsimp only
  rw [putPower_feederOf, putPower_joins b (by rw [hk]; rfl) rfl, List.length_append]
  rfl

/-- What a session that waits leaves of an account without a session: slot, link, feeder and notice (R99). -/
theorem join_links {x : PowerSession} (hk : s.power.get k = none) (hx : x.held = 0) (ha : (s.account a).power = none) :
    let t := modAccount s a (fun y => { y with power := some k }) (joinWaitList s k x s)
    let f := s.feeder (feederOf s k)
    OnlySessions s t
    ∧ t.accounts = s.accounts.put a { s.account a with power := some k, edition := (s.account a).edition + 1 }
    ∧ t.power = s.power.put k (some { x with state := .waiting, confirmMisses := 0 })
    ∧ t.feeders = s.feeders.put (feederOf s k) { f with waitList := f.waitList ++ [k], edition := f.edition + 1 }
    ∧ t.grantCount = s.grantCount
    ∧ t.ports = (raise .powerWaiting
        { account := some x.account, outlet := some (.socket k)
          value := some ((f.waitList.length + 1 : Nat) : Int) } s).ports := by
  intro t f
  have hserved : Served s t := modAccount_served s a _ (fun _ => rfl) (joinWaitList_served s k x (.refl s))
  have hne : (s.account a).power ≠ some k := by rw [ha]; exact nofun
  have haccounts : (joinWaitList s k x s).accounts = s.accounts := by
    rw [joinWaitList_vacant s x hk, raise_accounts]; rfl
  have hlink : t = _ := setPower_eq haccounts hne
  have hfeeders := putPower_feeders_of_ne (b := s) (k := k) (x := some { x with state := .waiting, confirmMisses := 0 })
    (s := s) (held := f.heldSum) (list := f.waitList ++ [k]) rfl
    (by show f.heldSum - heldOf (s.power.get k) + x.held = _
        rw [hk, hx]; rfl)
    (by show waitListAfter f.waitList k (isWaiting (s.power.get k)) true = _
        rw [hk]; rfl)
    (.inr (show f.waitList ++ [k] ≠ f.waitList by simp))
  have hview := putPower_feederWork s k (some { x with state := .waiting, confirmMisses := 0 }) s
  rw [joinWaitList_vacant s x hk] at hlink
  refine ⟨(OnlySessions.refl s).served hserved, ?_⟩
  rw [hlink]
  exact ⟨rfl, raise_power .., (raise_feeders ..).trans hfeeders, raise_grantCount .., (hview.noticeView.raise ..).1⟩

/-- The reply to a granted request: SWITCHING and the rating (R99). -/
theorem admittedItems_granted (b : State) (x : PowerSession) (amps : Nat) :
    admittedItems (grant b k x amps s) k = [.val (.word "SWITCHING"), .val (.num amps)] := by
  have hslot : (grant b k x amps s).power.get k = some _ := Table.get_put_self ..
  unfold admittedItems
  rw [hslot]
  rfl

/-- The reply to a request that waits: WAITING and the position (R99). -/
theorem admittedItems_waiting (b : State) (x : PowerSession) (hk : s.power.get k = none) :
    admittedItems (joinWaitList b k x s) k =
      [.val (.word "WAITING"), .val (.num (((s.feeder (feederOf s k)).waitList.length + 1 : Nat) : Int))] := by
  rw [joinWaitList_vacant b x hk]
  have hslot : (putPower b k (some { x with state := .waiting, confirmMisses := 0 }) s).power.get k = some _ :=
    Table.get_put_self ..
  have hof (u : State) (c : NoticeClass) (i : NoticeInfo) : feederOf (raise c i u) k = feederOf u k := by
    rw [feederOf, raise_pedestal]; rfl
  unfold admittedItems
  rw [raise_power, hslot]
  simp only [if_true]
  rw [raise_feeder, hof, putPower_feederOf, putPower_joins b (by rw [hk]; rfl) rfl, List.length_append]
  rfl

end

/-- Settles O43: the checks in their order, and the three outcomes of the admission of a new session. -/
theorem requestPowerGrantsOrWaits : Obligations.RequestPowerGrantsOrWaits := by
  intro o a wish s hr hd x answers
  have hrefused {r : Refuse} (h : requestPower s a wish s = .error r) : answers r :=
    (requestPower_form ..).refused hr (requestPowerOwner_refused hd h)
  have hdone {t : State} {items : List Item} (h : requestPower s a wish s = .ok (t, items)) :
      exec (.requestPower o a.val wish.amps) s = .next (reply o.port o.suffix [.done items] t) :=
    (requestPower_form ..).taken hr (requestPowerOwner_done hd h)
  refine ⟨fun h => hrefused (requestPower_refused wish (powerSocket_not_berthed h)), fun n hs hb => ?_⟩
  refine ⟨fun hk => hrefused (requestPower_refused wish (powerSocket_no_socket hs hb hk)), fun k hk => ?_⟩
  intro p f eff cap passes free session
  have hchecks := powerSocket_socket hs hb hk
  have hpasses (h : passes) : powerSocket s a = .ok k := by
    obtain ⟨hg, hp, hslot, hl⟩ := h
    rw [hchecks, if_neg (not_not.2 hg), if_neg (not_or.2 ⟨not_not.2 hp, not_not.2 hslot⟩), if_neg hl]
  have hnoRoom (h : ¬ free ∨ cap < f.heldSum + eff ∧ (eff ≠ 63 ∨ cap < f.heldSum + 32)) :
      admissionRoom s k (newSession s a wish) = none := admissionRoom_eq_none (f := f) rfl h
  refine ⟨fun h => hrefused (requestPower_refused wish ?_), fun h hu => hrefused (requestPower_refused wish ?_),
    fun h hp hslot hl => hrefused (requestPower_refused wish ?_), fun amps h hfree hroom => ?_, fun h hno hlen => ?_,
    fun h hno hlen => hrefused (requestPower_full (hpasses h) (enterAdmission_full s (hnoRoom hno) hlen))⟩
  · rw [hchecks, if_pos h]
  · rw [hchecks, if_neg (not_not.2 h), if_pos hu]
  · rw [hchecks, if_neg (not_not.2 h), if_neg (not_or.2 ⟨not_not.2 hp, not_not.2 hslot⟩), if_pos hl]
  · have hadmitted := enterAdmission_granted s (x := newSession s a wish) hfree.1 hfree.2
      (hroom.imp_right (And.imp_left Nat.not_le.2))
    have hpos : 0 < amps := by
      rcases hroom with ⟨-, rfl⟩ | ⟨-, -, -, rfl⟩
      · exact effectiveWish_pos s k (newSession s a wish)
      · decide
    have hexec := hdone (requestPower_admitted (hpasses h) hadmitted)
    rw [admittedItems_granted] at hexec
    obtain ⟨-, hp, hslot, -⟩ := h
    exact ⟨_, hexec, grant_links hpos hslot hp⟩
  · have hadmitted := enterAdmission_waits s (x := newSession s a wish) (hnoRoom hno) hlen
    have hexec := hdone (requestPower_admitted (hpasses h) hadmitted)
    obtain ⟨-, hp, hslot, -⟩ := h
    rw [admittedItems_waiting _ _ hslot] at hexec
    exact ⟨_, hexec, join_links hslot rfl hp⟩

end Sys2Proof.Machine

/-! ## What the service of a list keeps (R101) -/

namespace Sys2Proof.Machine

/-- A law that each write of a session in its place keeps, none beginning to wait, the service of a list keeps. -/
theorem serveLoop_keeps {P : State → Prop} (b : State) (f : FeederId)
    (hwrite : ∀ k x z n s, s.power.get k = some x → (z.state = .waiting → x.state = .waiting) → P s →
      P (putPower b k (some z) { s with grantCount := n })) :
    ∀ (n : Nat) {s : State}, P s → P (serveLoop b f n s)
  | 0, _, h => h
  | n + 1, s, h => by
    unfold serveLoop
    split
    · exact h
    · next k _ _ =>
      split
      · exact h
      · next x hx =>
        split
        · exact serveLoop_keeps b f hwrite n (hwrite k x _ _ s hx nofun h)
        · exact hwrite k x (attempted s k x) s.grantCount s hx id h

theorem serve_keeps {P : State → Prop} {b s : State} {f : FeederId}
    (hwrite : ∀ k x z n s, s.power.get k = some x → (z.state = .waiting → x.state = .waiting) → P s →
      P (putPower b k (some z) { s with grantCount := n }))
    (h : P s) : P (serve b f s) := by
  unfold serve
  split
  · exact h
  · exact serveLoop_keeps b f hwrite _ h

theorem putPower_clearTrip (b : State) (k : SocketId) (x : Option PowerSession) (s : State) (n : PedestalId) (i : Fin 2) :
    (((putPower b k x s).pedestal n).desired.get i).clearTrip = ((s.pedestal n).desired.get i).clearTrip := by
  rw [putPower_eq]
  show (((s.pedestals.put _ _).get n).desired.get i).clearTrip = _
  rw [Table.get_put]
  split
  · next e =>
    subst e
    dsimp only
    rw [Table.get_put]
    split
    · next e => subst e; rfl
    · rfl
  · rfl

theorem waitListAfter_same (l : List SocketId) (k : SocketId) (w : Bool) : waitListAfter l k w w = l := by
  cases w <;> rfl

/-- A session that waits as before keeps every list (R101). -/
theorem putPower_waitList_same {b : State} {k : SocketId} {x : Option PowerSession} {s : State}
    (h : isWaiting (s.power.get k) = isWaiting x) (f : FeederId) :
    ((putPower b k x s).feeder f).waitList = (s.feeder f).waitList := by
  rw [putPower_feeder]
  split
  · rw [Feeder.settled_waitList, h, waitListAfter_same]
  · rfl

theorem waitListAfter_length_le {l : List SocketId} {k : SocketId} {was is : Bool} (h : is = true → was = true) :
    (waitListAfter l k was is).length ≤ l.length := by
  rw [waitListAfter_eq]
  split
  · exact Nat.le_refl _
  · split
    · exact absurd ((h ‹_›).symm ▸ ‹is = true›) ‹¬ is = was›
    · exact List.length_filter_le ..

/-- Between `s` and `t` no session began to wait: no list is longer, and reliefs, overload counts and clear-trips are as they were. -/
structure ListWork (s t : State) : Prop where
  clearTrip : ∀ n i, ((t.pedestal n).desired.get i).clearTrip = ((s.pedestal n).desired.get i).clearTrip
  relief : ∀ f, (t.feeder f).relief = (s.feeder f).relief
  overload : ∀ f, (t.feeder f).overload = (s.feeder f).overload
  length : ∀ f, (t.feeder f).waitList.length ≤ (s.feeder f).waitList.length

theorem ListWork.refl (s : State) : ListWork s s := ⟨fun _ _ => rfl, fun _ => rfl, fun _ => rfl, fun _ => Nat.le_refl _⟩

theorem ListWork.trans {s t u : State} (h : ListWork s t) (k : ListWork t u) : ListWork s u where
  clearTrip n i := (k.clearTrip n i).trans (h.clearTrip n i)
  relief f := (k.relief f).trans (h.relief f)
  overload f := (k.overload f).trans (h.overload f)
  length f := (k.length f).trans (h.length f)

theorem putPower_listWork {b : State} {k : SocketId} {x : Option PowerSession} {s : State}
    (h : isWaiting x = true → isWaiting (s.power.get k) = true) : ListWork s (putPower b k x s) where
  clearTrip := putPower_clearTrip b k x s
  relief f := by rw [putPower_feeder]; split <;> rfl
  overload := putPower_overload b k x s
  length f := by
    rw [putPower_feeder]
    split
    · exact waitListAfter_length_le h
    · exact Nat.le_refl _

theorem raise_listWork (c : NoticeClass) (i : NoticeInfo) (s : State) : ListWork s (raise c i s) := by
  refine ⟨fun n i => by rw [raise_pedestal], fun f => ?_, fun f => ?_, fun f => ?_⟩
  all_goals rw [raise_feeder]

theorem isWaiting_some {x : PowerSession} : isWaiting (some x) = true ↔ x.state = .waiting := decide_eq_true_iff

theorem writes_listWork {b s : State} (k : SocketId) (x z : PowerSession) (n : Nat) (t : State)
    (hx : t.power.get k = some x) (hz : z.state = .waiting → x.state = .waiting) (h : ListWork s t) :
    ListWork s (putPower b k (some z) { t with grantCount := n }) := by
  refine h.trans (ListWork.trans (t := { t with grantCount := n })
    ⟨fun _ _ => rfl, fun _ => rfl, fun _ => rfl, fun _ => Nat.le_refl _⟩ (putPower_listWork fun hw => ?_))
  show isWaiting (t.power.get k) = true
  rw [hx, isWaiting_some]
  exact hz (isWaiting_some.1 hw)

theorem serve_listWork (b : State) (f : FeederId) (s : State) : ListWork s (serve b f s) :=
  serve_keeps (P := ListWork s) writes_listWork (.refl s)

theorem endPower_listWork (b : State) (k : SocketId) (why : PowerEnd) (s : State) : ListWork s (endPower b k why s) := by
  unfold endPower
  split
  · exact .refl s
  · next x _ =>
    have hlink : ListWork s (modAccount b x.account (fun a => { a with power := none }) (putPower b k none s)) :=
      (putPower_listWork (x := none) fun h => absurd h Bool.false_ne_true).trans ⟨fun _ _ => rfl, fun _ => rfl, fun _ => rfl, fun _ => Nat.le_refl _⟩
    exact (hlink.trans (raise_listWork ..)).trans (serve_listWork ..)

end Sys2Proof.Machine

/-! ## RESET_SOCKET, END_POWER and the expiry of a relief hold (O44) -/

namespace Sys2Proof.Machine

/-! ### RESET_SOCKET (R106) -/

theorem socketPresent_iff {s : State} {k : SocketId} :
    socketPresent s k = true ↔ (s.pedestal (pedestalOf k)).cfg.installed = true
      ∧ (s.pedestal (pedestalOf k)).cfg.kind.hasSocket (positionOf k) = true := by
  simp [socketPresent]

theorem requestClearTrip_clearTrip (b : State) (k : SocketId) (s : State) :
    (((requestClearTrip b k s).pedestal (pedestalOf k)).desired.get (positionOf k)).clearTrip = true := by
  unfold requestClearTrip
  rw [modPedestal_pedestal, if_pos rfl, Pedestal.settled_desired, Table.get_put_self]

/-- A requested clear-trip is one desired output of the socket's pedestal (R106). -/
theorem requestClearTrip_eq (k : SocketId) (s : State) :
    let p := s.pedestal (pedestalOf k)
    ∃ e, requestClearTrip s k s =
      { s with
        pedestals := s.pedestals.put (pedestalOf k)
          { p with
            edition := e
            desired := p.desired.put (positionOf k) { p.desired.get (positionOf k) with clearTrip := true } } } :=
  ⟨_, rfl⟩

theorem requestClearTrip_served (b : State) (k : SocketId) (s : State) : Served s (requestClearTrip b k s) :=
  modPedestal_served b _ _ (fun _ => rfl) (.refl s)

/-- With the device OPEN, RESET_SOCKET goes on to its socket (R106). -/
theorem resetSocketOwner_opened {s : State} (hd : s.device = .opened) (k : SocketId) :
    resetSocketOwner k.val s = resetSocketThis k s := by
  unfold resetSocketOwner
  simp only [ident_val]
  exact if_neg (not_not.2 hd)

section

variable {s : State} {k : SocketId} {y : PowerSession}

theorem resetSocketThis_absent (h : ¬ socketPresent s k = true) : resetSocketThis k s = .error .noEntry := by
  simp [resetSocketThis, h]

theorem resetSocketThis_vacant (h : socketPresent s k = true) (hk : s.power.get k = none) :
    resetSocketThis k s = done (requestClearTrip s k s) [.val (.word "NONE")] := by
  simp only [resetSocketThis, h, hk]
  rfl

theorem resetSocketThis_used (h : socketPresent s k = true) (hy : s.power.get k = some y) (hs : y.state ≠ .tripped) :
    resetSocketThis k s = .error .state := by
  simp only [resetSocketThis, h, hy]
  exact if_neg hs

theorem resetSocketThis_tripped (h : socketPresent s k = true) (hy : s.power.get k = some y) (hs : y.state = .tripped) :
    let r := resetTripped s k y (requestClearTrip s k s)
    resetSocketThis k s = done r.1 r.2 := by
  simp only [resetSocketThis, h, hy]
  exact if_pos hs

end

/-- A request of power keeps every clear-trip (R97, R106). -/
theorem requestPower_clearTrip {b s t : State} {a : AccountId} {wish : Rating} {items : List Item}
    (h : requestPower b a wish s = .ok (t, items)) (n : PedestalId) (i : Fin 2) :
    ((t.pedestal n).desired.get i).clearTrip = ((s.pedestal n).desired.get i).clearTrip := by
  unfold requestPower at h
  split at h
  · cases h
  next k _ =>
    split at h
    · cases h
    · next v hv =>
      cases h
      obtain ⟨z, m, -, -, hn⟩ := enterAdmission_writes hv
      show ((v.pedestal n).desired.get i).clearTrip = _
      rw [hn.eq]
      exact putPower_clearTrip b k (some z) { s with grantCount := m } n i

theorem resetTripped_clearTrip (b : State) (k : SocketId) (x : PowerSession) (s : State) (n : PedestalId) (i : Fin 2) :
    (((resetTripped b k x s).1.pedestal n).desired.get i).clearTrip = ((s.pedestal n).desired.get i).clearTrip := by
  have hended := (endPower_listWork b k .reset s).clearTrip n i
  unfold resetTripped
  dsimp only
  split
  · split
    · exact hended
    · next hr => exact (requestPower_clearTrip hr n i).trans hended
  · exact hended

/-- Where the list has room, a session is admitted: granted, or to wait (R99). -/
theorem enterAdmission_of_room (b : State) {k : SocketId} (x : PowerSession) {s : State}
    (h : (s.feeder (feederOf s k)).waitList.length < 64) :
    (∃ amps, enterAdmission b k x s = some (grant b k (attempted s k x) amps s))
    ∨ enterAdmission b k x s = some (joinWaitList b k (attempted s k x) s) := by
  cases hr : admissionRoom s k x with
  | none => exact .inr (enterAdmission_waits b hr h)
  | some amps =>
    refine .inl ⟨amps, ?_⟩
    unfold admissionRoom at hr
    unfold enterAdmission admissionTest
    simp only [hr]

/-- The account is no longer BERTHED: its TRIPPED session ends, and no other is made. -/
theorem resetTripped_gone {b s : State} {k : SocketId} {y : PowerSession} (hy : s.power.get k = some y)
    (hs : (s.account y.account).state ≠ .berthed) :
    let r := resetTripped b k y s
    r.1.power.get k = none ∧ (r.1.account y.account).power = none ∧ r.2 = [.val (.word "NONE")] := by
  obtain ⟨hslot, hlink, -⟩ := endPower_leaves b .reset hy
  have hstate : ((endPower b k .reset s).account y.account).state = (s.account y.account).state := by
    rw [(endPower_served b k .reset (.refl s)).links y.account]
  have hno : berthedOn (endPower b k .reset s) y.account k = false := by
    unfold berthedOn
    split
    · next h _ => exact absurd (hstate.symm.trans h) hs
    · rfl
  unfold resetTripped
  simp only [hno, Bool.false_eq_true, if_false]
  exact ⟨hslot, hlink, rfl⟩

/-- The account is BERTHED where its socket is named: its TRIPPED session ends, and a new one is admitted or waits. -/
theorem resetTripped_again {b s : State} {k : SocketId} {y : PowerSession} {n : BerthId} (hy : s.power.get k = some y)
    (hs : (s.account y.account).state = .berthed) (hb : (s.account y.account).berth = some n)
    (hk : (s.berth n).cfg.socket = some k) (hg : (s.account y.account).standing = .good)
    (hl : (s.pedestal (pedestalOf k)).link ≠ .offline)
    (hroom : (s.feeder (s.pedestal (pedestalOf k)).cfg.feeder).waitList.length < 64) :
    let r := resetTripped b k y s
    ∃ z, r.1.power.get k = some z ∧ z.account = y.account ∧ z.wish = y.wish ∧ z.energy = 0 ∧ z.start = s.clock
      ∧ (z.state = .switching ∧ r.2 = [.val (.word "SWITCHING"), .val (.num z.granted)]
        ∨ z.state = .waiting ∧ z.held = 0) := by
  obtain ⟨hslot, hlink, -⟩ := endPower_leaves b .reset hy
  have hserved := endPower_served b k .reset (.refl s)
  have hlist := endPower_listWork b k .reset s
  generalize hu : endPower b k .reset s = u at *
  have hstate : (u.account y.account).state = .berthed := by rw [hserved.links]; exact hs
  have hberth : (u.account y.account).berth = some n := by rw [hserved.links]; exact hb
  have hstanding : (u.account y.account).standing = .good := by rw [hserved.links]; exact hg
  have hsocket : (u.berth n).cfg.socket = some k := by rw [hserved.eq]; exact hk
  have honline : (u.pedestal (pedestalOf k)).link ≠ .offline := by rw [hserved.outputs]; exact hl
  have hclock : u.clock = s.clock := by rw [hserved.eq]
  have hshort : (u.feeder (feederOf u k)).waitList.length < 64 := by
    rw [feederOf, hserved.outputs]
    exact lt_of_le_of_lt (hlist.length _) hroom
  have hberthed : berthedOn u y.account k = true := by
    unfold berthedOn
    simp only [hstate, hberth, hsocket, decide_true]
  have hchecks : powerSocket u y.account = .ok k := by
    rw [powerSocket_socket hstate hberth hsocket, if_neg (not_not.2 hstanding),
      if_neg (not_or.2 ⟨not_not.2 hlink, not_not.2 hslot⟩), if_neg honline]
  intro r
  have hr {v : State × List Item} (h : requestPower b y.account y.wish u = .ok v) : r = v := by
    simp only [r, resetTripped, hu, hberthed, if_true, h]
  rcases enterAdmission_of_room b (newSession u y.account y.wish) hshort with ⟨amps, ha⟩ | ha
  · have hslot : (grant b k (attempted u k (newSession u y.account y.wish)) amps u).power.get k = some _ :=
      Table.get_put_self ..
    rw [hr (requestPower_admitted hchecks ha), admittedItems_granted]
    exact ⟨_, hslot, rfl, rfl, rfl, hclock, .inl ⟨rfl, rfl⟩⟩
  · have hjoined : (joinWaitList b k (attempted u k (newSession u y.account y.wish)) u).power.get k =
        some { attempted u k (newSession u y.account y.wish) with state := .waiting, confirmMisses := 0 } := by
      rw [joinWaitList_vacant b _ hslot, raise_power]
      exact Table.get_put_self ..
    rw [hr (requestPower_admitted hchecks ha)]
    exact ⟨_, hjoined, rfl, rfl, rfl, hclock, .inr ⟨rfl, rfl⟩⟩

end Sys2Proof.Machine

namespace Sys2Proof.Machine

/-! ### END_POWER (R107) -/

theorem endPowerOwner_unlinked {a : AccountId} {s : State} (h : (s.account a).power = none) :
    endPowerOwner a.val s = .error .state := by
  unfold endPowerOwner
  simp only [ident_val, h]

theorem endPowerOwner_linked {a : AccountId} {k : SocketId} {s : State} (h : (s.account a).power = some k) :
    endPowerOwner a.val s =
      done (closePower s k .finished true s) [endingWord (((closePower s k .finished true s).account a).power.isSome)] := by
  unfold endPowerOwner
  simp only [ident_val, h]

/-- The close request of END_POWER, by the session's state. -/
theorem closePower_by_command {k : SocketId} {s : State} {y : PowerSession} (hy : s.power.get k = some y) :
    ((y.state = .switching ∨ y.state = .live ∨ y.state = .restoring) → closePower s k .finished true s =
      putPower s k (some { y with state := .closing, closeReason := some .finished, confirmMisses := 0 }) s)
    ∧ ((y.state = .waiting ∨ y.state = .suspended ∨ y.state = .tripped
          ∨ y.state = .closing ∧ (s.pedestal (pedestalOf k)).link = .offline) →
        ∃ why, closePower s k .finished true s = endPower s k why s)
    ∧ (y.state = .closing → (s.pedestal (pedestalOf k)).link ≠ .offline → closePower s k .finished true s = s) := by
  unfold closePower
  rw [hy]
  refine ⟨fun h => ?_, fun h => ?_, fun h hl => ?_⟩
  · rcases h with h | h | h <;> simp only [h]
  · rcases h with h | h | h | ⟨h, hl⟩
    · exact ⟨.finished, by simp only [h]⟩
    · exact ⟨.finished, by simp only [h]⟩
    · exact ⟨.finished, by simp only [h]⟩
    · exact ⟨y.closeReason.getD .finished, by simp only [h, pedestalOffline, hl]; rfl⟩
  · simp only [h, pedestalOffline, hl, Bool.true_and, decide_false, Bool.false_eq_true, if_false]

/-! ### The expiry of a relief hold (R113) -/

/-- The removal of a relief hold advances the feeder's edition (R96). -/
theorem Feeder.settled_relief_removed {x : Feeder} (h : x.relief ≠ none) :
    x.settled { x with relief := none } = { x with relief := none, edition := x.edition + 1 } := by
  rw [show x.settled { x with relief := none } =
      { x with relief := none, edition := (x.settled { x with relief := none }).edition } from rfl,
    Feeder.settled_edition_of_relief h]

/-- The state in which the list of a feeder is served at the expiry of its relief hold. -/
def unrelieved (s : State) (f : FeederId) : State :=
  { s with feeders := s.feeders.put f { s.feeder f with relief := none, edition := (s.feeder f).edition + 1 } }

theorem unrelieved_feeder (s : State) (f : FeederId) :
    (unrelieved s f).feeder f = { s.feeder f with relief := none, edition := (s.feeder f).edition + 1 } :=
  Table.get_put_self ..

/-- The expiry of a relief hold is its removal, and then the service of the list. -/
theorem reliefExpiry_serves {f : FeederId} {s : State} (hd : s.device ≠ .loading) (hr : (s.feeder f).relief ≠ none) :
    reliefExpiry f s = serveLoop s f (s.feeder f).waitList.length (unrelieved s f) := by
  have hmod : modFeeder s f (fun x => { x with relief := none }) s = unrelieved s f := by
    rw [unrelieved, ← Feeder.settled_relief_removed hr]
    rfl
  have hserve : serve s f (unrelieved s f) =
      serveLoop s f ((unrelieved s f).feeder f).waitList.length (unrelieved s f) :=
    if_neg (not_or.2 ⟨hd, by rw [unrelieved_feeder]; exact fun h => h rfl⟩)
  rw [unrelieved_feeder] at hserve
  unfold reliefExpiry
  rw [if_neg (not_or.2 ⟨hd, hr⟩), hmod]
  exact hserve

section

variable {f : FeederId} {s : State} {k : SocketId} {rest : List SocketId} {y : PowerSession}

/-- A WAITING session that no longer waits is off its list (R101). -/
theorem putPower_notMem {b : State} {x : Option PowerSession} (hy : s.power.get k = some y) (hw : y.state = .waiting)
    (hx : isWaiting x = false) : k ∉ ((putPower b k x s).feeder (feederOf s k)).waitList := by
  rw [putPower_feeder, if_pos rfl, Feeder.settled_waitList, hy, hx, isWaiting, hw]
  exact fun h => absurd (List.mem_filter.1 h).2 (by simp)

/-- The head of a served list that finds room is granted, and stays so as service goes on (R101). -/
theorem serveLoop_head_granted (b : State) (n : Nat) {amps : Nat} (hl : (s.feeder f).waitList = k :: rest)
    (hy : s.power.get k = some y) (hw : y.state = .waiting) (hh : y.held = 0) (hf : feederOf s k = f)
    (hr : roomFor s k y = some amps) :
    (serveLoop b f (n + 1) s).power.get k = some
      { attempted s k y with
        state := .switching, granted := amps, held := amps, grantStamp := nextGrant s.grantCount
        confirmMisses := 0, shed := false } := by
  have hstep : serveLoop b f (n + 1) s = serveLoop b f n (grant b k (attempted s k y) amps s) := by
    rw [serveLoop]
    simp only [hl, hy, hh, hr, if_true]
  have hleft : k ∉ ((grant b k (attempted s k y) amps s).feeder f).waitList := by
    rw [← hf]
    exact putPower_notMem (s := { s with grantCount := nextGrant s.grantCount }) hy hw rfl
  rw [hstep, serveLoop_get _ _ _ _ _ (.inr hleft)]
  exact Table.get_put_self ..

/-- The head of a served list that finds no room stays, with the fallback of this attempt, and service stops (R101). -/
theorem serveLoop_head_waits (b : State) (n : Nat) (hl : (s.feeder f).waitList = k :: rest)
    (hy : s.power.get k = some y) (hr : roomFor s k y = none) :
    serveLoop b f (n + 1) s = putPower b k (some (attempted s k y)) s := by
  rw [serveLoop]
  simp only [hl, hy, hr, ite_self]

end

theorem unrelieved_roomFor {s : State} {k : SocketId} {y : PowerSession} :
    roomFor (unrelieved s (feederOf s k)) k y = roomFor s k y := by
  have hw : effectiveWish (unrelieved s (feederOf s k)) k y = effectiveWish s k y := rfl
  have hf : feederOf (unrelieved s (feederOf s k)) k = feederOf s k := rfl
  unfold roomFor
  rw [hw, hf, unrelieved_feeder]

/-- The head of a list when a relief hold expires: granted where it finds room, else left with this attempt's fallback. -/
theorem reliefExpiry_head {s : State} {k : SocketId} {rest : List SocketId} {y : PowerSession}
    (hd : s.device ≠ .loading) (hr : (s.feeder (feederOf s k)).relief ≠ none)
    (hl : (s.feeder (feederOf s k)).waitList = k :: rest) (hy : s.power.get k = some y) (hw : y.state = .waiting)
    (hh : y.held = 0) :
    let t := reliefExpiry (feederOf s k) s
    (t.feeder (feederOf s k)).relief = none
    ∧ (∀ amps, roomFor s k y = some amps → t.power.get k = some
        { attempted s k y with
          state := .switching, granted := amps, held := amps, grantStamp := nextGrant s.grantCount
          confirmMisses := 0, shed := false })
    ∧ (roomFor s k y = none → (t.feeder (feederOf s k)).waitList = (s.feeder (feederOf s k)).waitList
        ∧ t.power.get k = some (attempted s k y)) := by
  intro t
  have hserves : t = _ := reliefExpiry_serves hd hr
  rw [hl, List.length_cons] at hserves
  have hlist : ((unrelieved s (feederOf s k)).feeder (feederOf s k)).waitList = k :: rest := by
    rw [unrelieved_feeder]; exact hl
  rw [hserves]
  refine ⟨?_, fun amps hroom => ?_, fun hroom => ?_⟩
  · have hwork : ListWork (unrelieved s (feederOf s k)) _ :=
      serveLoop_keeps s (feederOf s k) writes_listWork (rest.length + 1) (.refl _)
    rw [hwork.relief, unrelieved_feeder]
  · exact serveLoop_head_granted s rest.length hlist hy hw hh rfl (unrelieved_roomFor.trans hroom)
  · have hwaits : isWaiting ((unrelieved s (feederOf s k)).power.get k) =
        isWaiting (some (attempted (unrelieved s (feederOf s k)) k y)) :=
      congrArg isWaiting (a₂ := some y) hy
    rw [serveLoop_head_waits s rest.length hlist hy (unrelieved_roomFor.trans hroom)]
    refine ⟨?_, Table.get_put_self ..⟩
    rw [putPower_waitList_same hwaits, unrelieved_feeder]

end Sys2Proof.Machine

namespace Sys2Proof.Machine

/-! ### What work on one socket keeps, whatever becomes of its session -/

theorem Served.feederOf {s t : State} (h : Served s t) (k : SocketId) : feederOf t k = feederOf s k := by
  rw [Machine.feederOf, h.outputs]
  rfl

theorem serve_nil (b : State) {f : FeederId} {s : State} (h : (s.feeder f).waitList = []) : serve b f s = s := by
  unfold serve
  rw [h]
  exact ite_self s

/-- Socket `k` without a session is desired OFF (R95). -/
def OffIfVacant (k : SocketId) (s : State) : Prop :=
  s.power.get k = none → ((s.pedestal (pedestalOf k)).desired.get (positionOf k)).relay = false

/-- From `s` to `t` no slot but that of `k` is written, no session waits on its feeder, and the held sum there follows the slot (R96). -/
structure SoleWork (k : SocketId) (s t : State) : Prop where
  others : ∀ m, m ≠ k → t.power.get m = s.power.get m
  list : (t.feeder (feederOf s k)).waitList = []
  sum : (t.feeder (feederOf s k)).heldSum + heldOf (s.power.get k) =
    (s.feeder (feederOf s k)).heldSum + heldOf (t.power.get k)

/-- From `s` to `t` the session of socket `k` was worked on, and the list of its feeder served. -/
structure SocketWork (k : SocketId) (s t : State) : Prop where
  served : Served s t
  tap : TapView s t
  overload : ∀ f, (t.feeder f).overload = (s.feeder f).overload
  vacant : ∀ m, m ≠ k → s.power.get m = none → t.power.get m = none
  off : OffIfVacant k t
  sole : (s.feeder (feederOf s k)).waitList = [] → heldOf (s.power.get k) ≤ (s.feeder (feederOf s k)).heldSum →
    SoleWork k s t

section

variable {b s t : State} {k : SocketId} {x y z : PowerSession}

theorem SocketWork.refl (hy : s.power.get k = some y) : SocketWork k s s where
  served := .refl s
  tap := .refl s
  overload _ := rfl
  vacant _ _ h := h
  off h := by rw [hy] at h; cases h
  sole hl _ := ⟨fun _ _ => rfl, hl, rfl⟩

theorem putPower_offIfVacant (b : State) (k : SocketId) (x : Option PowerSession) (s : State) :
    OffIfVacant k (putPower b k x s) := by
  intro h
  obtain rfl : x = none := (Table.get_put_self ..).symm.trans h
  rw [putPower_relay, if_pos (eq_socketAt rfl rfl)]
  rfl

theorem SoleWork.put {x : Option PowerSession} (hf : feederOf t k = feederOf s k)
    (hx : isWaiting x = true → isWaiting (t.power.get k) = true)
    (hh : heldOf (s.power.get k) ≤ (s.feeder (feederOf s k)).heldSum) (h : SoleWork k s t) :
    SoleWork k s (putPower b k x t) where
  others m hm := (Table.get_put_ne _ _ (Ne.symm hm)).trans (h.others m hm)
  list := List.eq_nil_of_length_eq_zero (Nat.le_zero.1 (le_of_le_of_eq ((putPower_listWork hx).length _)
    (congrArg List.length h.list)))
  sum := by
    have hsum := h.sum
    rw [putPower_feeder, if_pos hf, Feeder.settled_heldSum, putPower_power, Table.get_put_self]
    dsimp only
    omega

theorem SocketWork.put {x : Option PowerSession} (hx : isWaiting x = true → isWaiting (t.power.get k) = true)
    (h : SocketWork k s t) : SocketWork k s (putPower b k x t) where
  served := putPower_served b k x h.served
  tap := h.tap.trans (putPower_tapView ..)
  overload f := (putPower_overload ..).trans (h.overload f)
  vacant m hm e := (Table.get_put_ne _ _ (Ne.symm hm)).trans (h.vacant m hm e)
  off := putPower_offIfVacant b k x t
  sole hl hh := (h.sole hl hh).put (h.served.feederOf k) hx hh

/-- The session becomes `z`, which does not begin to wait. -/
theorem SocketWork.become (hx : t.power.get k = some x) (hz : z.state = .waiting → x.state = .waiting)
    (h : SocketWork k s t) : SocketWork k s (putPower b k (some z) t) :=
  h.put fun hw => by
    rw [hx, isWaiting_some]
    exact hz (isWaiting_some.1 hw)

theorem SocketWork.raise (c : NoticeClass) (i : NoticeInfo) (h : SocketWork k s t) : SocketWork k s (raise c i t) where
  served := raise_served c i h.served
  tap := h.tap.trans (raise_tapView ..)
  overload f := by rw [raise_feeder]; exact h.overload f
  vacant m hm e := by rw [raise_power]; exact h.vacant m hm e
  off e := by
    rw [raise_power] at e
    rw [raise_pedestal]
    exact h.off e
  sole hl hh := by
    obtain ⟨hothers, hlist, hsum⟩ := h.sole hl hh
    refine ⟨fun m hm => ?_, ?_, ?_⟩
    · rw [raise_power]; exact hothers m hm
    · rw [raise_feeder]; exact hlist
    · rw [raise_feeder, raise_power]; exact hsum

theorem SocketWork.unlink (a : AccountId) (h : SocketWork k s t) :
    SocketWork k s (modAccount b a (fun y => { y with power := none }) t) where
  served := modAccount_served b a _ (fun _ => rfl) h.served
  tap := h.tap.trans (.same rfl rfl)
  overload := h.overload
  vacant := h.vacant
  off := h.off
  sole hl hh := ⟨(h.sole hl hh).others, (h.sole hl hh).list, (h.sole hl hh).sum⟩

theorem serve_offIfVacant (b : State) (f : FeederId) (h : OffIfVacant k t) : OffIfVacant k (serve b f t) := by
  refine serve_keeps (fun j x z n u _ _ hu he => ?_) h
  by_cases hj : j = k
  · subst hj
    cases (Table.get_put_self ..).symm.trans he
  · rw [putPower_relay, if_neg fun e => hj (e.trans (eq_socketAt rfl rfl).symm)]
    exact hu ((Table.get_put_ne _ _ hj).symm.trans he)

theorem SocketWork.serve (h : SocketWork k s t) : SocketWork k s (serve b (feederOf s k) t) where
  served := serve_served b _ h.served
  tap := h.tap.trans (serve_tapView ..)
  overload f := ((serve_listWork ..).overload f).trans (h.overload f)
  vacant m hm e := (serve_get _ _ _ _ (.inl (h.vacant m hm e))).trans (h.vacant m hm e)
  off := serve_offIfVacant b _ h.off
  sole hl hh := by
    rw [serve_nil b (h.sole hl hh).list]
    exact h.sole hl hh

/-- The list is served where held amps were released. -/
theorem SocketWork.served_if {f : FeederId} (hf : f = feederOf s k) (c : Prop) [Decidable c] (h : SocketWork k s t) :
    SocketWork k s (if c then Machine.serve b f t else t) := by
  split
  · rw [hf]; exact h.serve
  · exact h

theorem SocketWork.endPower (why : PowerEnd) (h : SocketWork k s t) : SocketWork k s (endPower b k why t) := by
  unfold Machine.endPower
  split
  · exact h
  · rw [h.served.feederOf]
    exact (((h.put (x := none) fun e => absurd e Bool.false_ne_true).unlink _).raise _ _).serve

theorem confirmOn_work (g : Bool) (hx : t.power.get k = some x) (h : SocketWork k s t) :
    SocketWork k s (confirmOn b k x g t) := by
  unfold confirmOn
  cases g with
  | true =>
    simp only [if_true]
    exact SocketWork.served_if (h.served.feederOf k) _ (SocketWork.raise _ _ (h.become hx nofun))
  | false =>
    simp only [Bool.false_eq_true, if_false]
    split
    · exact (h.endPower _).raise ..
    · exact h.become hx id

theorem liveAgreement_work (g r : Bool) (hx : t.power.get k = some x) (h : SocketWork k s t) :
    SocketWork k s (liveAgreement b k x g r t) := by
  unfold liveAgreement
  cases g with
  | true =>
    simp only [if_true]
    exact SocketWork.served_if (h.served.feederOf k) _ (h.become hx id)
  | false =>
    simp only [Bool.false_eq_true, if_false]
    split
    · exact h.become hx nofun
    · split
      · exact SocketWork.raise _ _ (h.become hx id)
      · exact h.become hx id

theorem releaseHeld_work (hx : t.power.get k = some x) (h : SocketWork k s t) : SocketWork k s (releaseHeld b k x t) := by
  unfold releaseHeld
  rw [h.served.feederOf]
  exact SocketWork.serve (h.become hx id)

theorem confirmOff_work (g : Bool) (hx : t.power.get k = some x) (h : SocketWork k s t) :
    SocketWork k s (confirmOff b k x g t) := by
  unfold confirmOff
  cases g with
  | true =>
    simp only [if_true]
    split
    · exact h.endPower _
    · exact releaseHeld_work hx h
  | false =>
    simp only [Bool.false_eq_true, if_false]
    split
    · exact SocketWork.raise _ _ (h.become hx id)
    · exact h.become hx id

theorem powerAgreement_work (h : SocketWork k s t) : SocketWork k s (powerAgreement b k t) := by
  unfold powerAgreement
  dsimp only
  split
  · exact h
  next x hx =>
    split
    · exact confirmOn_work _ hx h
    · exact confirmOn_work _ hx h
    · exact liveAgreement_work _ _ hx h
    · exact confirmOff_work _ hx h
    · split
      · exact confirmOff_work _ hx h
      · exact h
    · split
      · exact confirmOff_work _ hx h
      · exact h
    · exact h

theorem powerTrip_work (h : SocketWork k s t) : SocketWork k s (powerTrip b k t) := by
  have htrips {x : PowerSession} (hx : t.power.get k = some x) (i : NoticeInfo) : SocketWork k s
      (Machine.serve b (feederOf t k) (Machine.raise .socketTripped i
        (putPower b k (some { x with state := .tripped, held := 0, confirmMisses := 0 }) t))) := by
    rw [h.served.feederOf]
    exact SocketWork.serve (SocketWork.raise _ _ (h.become hx nofun))
  unfold powerTrip
  split
  · exact h
  next x hx =>
    split
    · exact htrips hx _
    · exact htrips hx _
    · exact htrips hx _
    · split
      · exact h.endPower _
      · exact h
    · split
      · exact releaseHeld_work hx h
      · exact h
    · split
      · exact releaseHeld_work hx h
      · exact h
    · exact h

theorem takeCurrent_work (c : Nat) (h : SocketWork k s t) : SocketWork k s (takeCurrent b k c t) := by
  unfold takeCurrent
  split
  · exact h
  · next hx => exact h.become hx id

end

end Sys2Proof.Machine

namespace Sys2Proof.Machine

/-! ### What becomes of a session -/

/-- The service of feeder `f` leaves socket `k` alone: it is off the list, or a relief hold runs (R101, R113). -/
def Unserved (f : FeederId) (k : SocketId) (s : State) : Prop :=
  k ∉ (s.feeder f).waitList ∨ (s.feeder f).relief ≠ none

/-- From `s` the session of socket `k` becomes `z`, no account changes, and the notices of `t` are those of `told`. -/
structure SocketBecomes (k : SocketId) (z : PowerSession) (s told t : State) : Prop where
  slot : t.power.get k = some z
  accounts : t.accounts = s.accounts
  notices : NoticeView told t

/-- From `s` the session of socket `k`, of account `a`, ends, and the notices of `t` are those of `told`. -/
structure SocketEnds (k : SocketId) (a : AccountId) (s told t : State) : Prop where
  slot : t.power.get k = none
  link : (t.account a).power = none
  others : ∀ m, m ≠ a → t.account m = s.account m
  notices : NoticeView told t

section

variable {b s t told : State} {f : FeederId} {k : SocketId} {a : AccountId} {y z : PowerSession}

theorem Unserved.get (h : Unserved f k s) (b : State) : (serve b f s).power.get k = s.power.get k := by
  rcases h with h | h
  · exact serve_get b f s k (.inr h)
  · rw [serve, if_pos (.inr h)]

theorem Unserved.put {x : Option PowerSession} (hx : isWaiting x = true → isWaiting (s.power.get k) = true)
    (h : Unserved f k s) : Unserved f k (putPower b k x s) :=
  h.imp (fun h hm => h (mem_of_mem_putPower hx hm)) (fun h => by rw [(putPower_listWork hx).relief]; exact h)

theorem Unserved.become (hy : s.power.get k = some y) (hz : z.state = .waiting → y.state = .waiting)
    (h : Unserved f k s) : Unserved f k (putPower b k (some z) s) :=
  h.put fun hw => by
    rw [hy, isWaiting_some]
    exact hz (isWaiting_some.1 hw)

theorem Unserved.raise (c : NoticeClass) (i : NoticeInfo) (h : Unserved f k s) : Unserved f k (raise c i s) := by
  unfold Unserved
  rw [raise_feeder]
  exact h

theorem SocketBecomes.put (hv : NoticeView told s) : SocketBecomes k z s told (putPower b k (some z) s) :=
  ⟨Table.get_put_self .., rfl, hv.trans (putPower_feederWork ..).noticeView⟩

theorem SocketBecomes.raise (c : NoticeClass) (i : NoticeInfo) (h : SocketBecomes k z s told t) :
    SocketBecomes k z s (raise c i told) (raise c i t) :=
  ⟨by rw [raise_power]; exact h.slot, (raise_accounts ..).trans h.accounts, h.notices.raised ..⟩

theorem SocketBecomes.serve (hu : Unserved f k t) (h : SocketBecomes k z s told t) :
    SocketBecomes k z s told (serve b f t) :=
  ⟨(hu.get b).trans h.slot, (serve_feederWork ..).accounts.trans h.accounts,
    h.notices.trans (serve_feederWork ..).noticeView⟩

theorem SocketBecomes.served_if (c : Prop) [Decidable c] (hu : Unserved f k t) (h : SocketBecomes k z s told t) :
    SocketBecomes k z s told (if c then Machine.serve b f t else t) := by
  split
  · exact h.serve hu
  · exact h

theorem SocketEnds.raise (c : NoticeClass) (i : NoticeInfo) (h : SocketEnds k a s told t) :
    SocketEnds k a s (raise c i told) (raise c i t) :=
  ⟨by rw [raise_power]; exact h.slot, by rw [raise_account]; exact h.link,
    fun m hm => (raise_account ..).trans (h.others m hm), h.notices.raised ..⟩

/-- The end of a session: its slot, its account's link, and POWER_ENDED (R108). -/
theorem endPower_ends (why : PowerEnd) (hy : s.power.get k = some y) (hv : NoticeView told s) :
    SocketEnds k y.account s
      (Machine.raise .powerEnded
        { account := some y.account, outlet := some (.socket k), value := some y.energy, reason := some (.powerEnd why)
          fault := y.fault } told)
      (endPower b k why s) := by
  obtain ⟨hslot, hlink, -⟩ := endPower_leaves b why hy
  have hunlinked : NoticeView (putPower b k none s)
      (modAccount b y.account (fun a => { a with power := none }) (putPower b k none s)) :=
    ⟨⟨rfl, rfl⟩, rfl, rfl, rfl, rfl⟩
  refine ⟨hslot, hlink, fun m hm => ?_, ?_⟩
  all_goals
    unfold endPower
    rw [hy]
  · rw [State.account, (serve_feederWork ..).accounts, raise_accounts]
    show (modAccount b y.account _ (putPower b k none s)).account m = _
    rw [modAccount_account, if_neg (Ne.symm hm)]
    rfl
  · exact (((hv.trans (putPower_feederWork b k none s).noticeView).trans hunlinked).raised _ _).trans
      (serve_feederWork ..).noticeView

/-! ### Agreements, failures and trips (R102 to R105) -/

theorem reachesLimit_iff {n : Nat} : reachesLimit n = true ↔ n = 2 := by
  rw [reachesLimit, decide_eq_true_eq]
  show n + 1 = 3 ↔ n = 2
  omega

/-- The session with one more failure counted. -/
def missedOnce (y : PowerSession) : PowerSession := { y with confirmMisses := min (y.confirmMisses + 1) 3 }

/-- The failure of a SWITCHING or RESTORING session, and of a LIVE one whose relay reports ON, and of one to be released, is counted. -/
theorem countMiss_becomes (b : State) (k : SocketId) (y : PowerSession) (hv : NoticeView told s) :
    SocketBecomes k (missedOnce y) s told
      (putPower b k (some { y with confirmMisses := moreMisses y.confirmMisses }) s) := .put hv

/-- SWITCHING and RESTORING (R102). -/
theorem confirmOn_outcomes (hy : s.power.get k = some y)
    (hu : Unserved (feederOf s k) k s) (hv : NoticeView told s) :
    SocketBecomes k { y with state := .live, held := min y.held y.granted, confirmMisses := 0 } s
      (Machine.raise .powerLive
        { account := some y.account, outlet := some (.socket k), value := some y.granted } told)
      (confirmOn b k y true s)
    ∧ (y.confirmMisses ≠ 2 → SocketBecomes k (missedOnce y) s told (confirmOn b k y false s))
    ∧ (y.confirmMisses = 2 → SocketEnds k y.account s
        (socketFault k y .switchOn (Machine.raise .powerEnded
          { account := some y.account, outlet := some (.socket k), value := some y.energy
            reason := some (.powerEnd .fault), fault := y.fault } told))
        (confirmOn b k y false s)) := by
  unfold confirmOn
  refine ⟨?_, fun h => ?_, fun h => ?_⟩
  · simp only [if_true]
    exact SocketBecomes.served_if _ (.raise _ _ (hu.become hy nofun)) (.raise _ _ (.put hv))
  · simp only [Bool.false_eq_true, if_false, mt reachesLimit_iff.1 h]
    exact countMiss_becomes b k y hv
  · simp only [Bool.false_eq_true, if_false, reachesLimit_iff.2 h, if_true]
    exact (endPower_ends .fault hy hv).raise ..

/-- LIVE (R103). -/
theorem liveAgreement_outcomes (hy : s.power.get k = some y) (hu : Unserved (feederOf s k) k s)
    (hv : NoticeView told s) :
    (∀ r, SocketBecomes k { y with held := min y.held y.granted, confirmMisses := 0 } s told
        (liveAgreement b k y true r s))
    ∧ SocketBecomes k { y with state := .switching, confirmMisses := 1 } s told (liveAgreement b k y false false s)
    ∧ (y.confirmMisses ≠ 2 → SocketBecomes k (missedOnce y) s told (liveAgreement b k y false true s))
    ∧ (y.confirmMisses = 2 → SocketBecomes k { missedOnce y with fault := true } s (socketFault k y .limit told)
        (liveAgreement b k y false true s)) := by
  unfold liveAgreement
  refine ⟨fun r => ?_, ?_, fun h => ?_, fun h => ?_⟩
  · simp only [if_true]
    exact SocketBecomes.served_if _ (hu.become hy id) (.put hv)
  · simp only [Bool.false_eq_true, if_false, Bool.not_false, if_true]
    exact .put hv
  · simp only [Bool.false_eq_true, if_false, Bool.not_true, mt reachesLimit_iff.1 h]
    exact countMiss_becomes b k y hv
  · simp only [Bool.false_eq_true, if_false, Bool.not_true, reachesLimit_iff.2 h, if_true]
    exact SocketBecomes.raise _ _ (.put hv)

theorem releaseHeld_becomes (hy : s.power.get k = some y) (hu : Unserved (feederOf s k) k s) (hv : NoticeView told s) :
    SocketBecomes k { y with held := 0 } s told (releaseHeld b k y s) := by
  unfold releaseHeld
  exact SocketBecomes.serve (hu.become hy id) (.put hv)

/-- CLOSING, and SUSPENDED or WAITING holding amps (R104). -/
theorem confirmOff_outcomes (hy : s.power.get k = some y)
    (hu : Unserved (feederOf s k) k s) (hv : NoticeView told s) :
    (∀ why, y.state = .closing → y.closeReason = some why → SocketEnds k y.account s
        (Machine.raise .powerEnded
          { account := some y.account, outlet := some (.socket k), value := some y.energy
            reason := some (.powerEnd why), fault := y.fault } told)
        (confirmOff b k y true s))
    ∧ (y.state ≠ .closing → SocketBecomes k { y with held := 0 } s told (confirmOff b k y true s))
    ∧ (y.confirmMisses ≠ 2 → SocketBecomes k (missedOnce y) s told (confirmOff b k y false s))
    ∧ (y.confirmMisses = 2 → SocketBecomes k { missedOnce y with fault := true } s (socketFault k y .switchOff told)
        (confirmOff b k y false s)) := by
  unfold confirmOff
  refine ⟨fun why hs hr => ?_, fun hs => ?_, fun h => ?_, fun h => ?_⟩
  · simp only [if_true, hs, hr]
    exact endPower_ends why hy hv
  · simp only [if_true, hs, if_false]
    exact releaseHeld_becomes hy hu hv
  · simp only [Bool.false_eq_true, if_false, mt reachesLimit_iff.1 h]
    exact countMiss_becomes b k y hv
  · simp only [Bool.false_eq_true, if_false, reachesLimit_iff.2 h, if_true]
    exact SocketBecomes.raise _ _ (.put hv)

/-- A reported trip (R105). -/
theorem powerTrip_outcomes (hy : s.power.get k = some y)
    (hu : Unserved (feederOf s k) k s) (hv : NoticeView told s) :
    ((y.state = .switching ∨ y.state = .live ∨ y.state = .restoring) →
      SocketBecomes k { y with state := .tripped, held := 0, confirmMisses := 0 } s
        (Machine.raise .socketTripped
          { account := some y.account, berth := berthNaming s k, outlet := some (.socket k), value := some y.energy } told)
        (powerTrip b k s))
    ∧ (∀ why, y.state = .closing → y.held ≠ 0 → y.closeReason = some why → SocketEnds k y.account s
        (Machine.raise .powerEnded
          { account := some y.account, outlet := some (.socket k), value := some y.energy
            reason := some (.powerEnd why), fault := y.fault } told)
        (powerTrip b k s))
    ∧ ((y.state = .suspended ∨ y.state = .waiting) → y.held ≠ 0 →
        SocketBecomes k { y with held := 0 } s told (powerTrip b k s)) := by
  have htrips (i : NoticeInfo) : SocketBecomes k { y with state := .tripped, held := 0, confirmMisses := 0 } s
      (Machine.raise .socketTripped i told)
      (Machine.serve b (feederOf s k) (Machine.raise .socketTripped i
        (putPower b k (some { y with state := .tripped, held := 0, confirmMisses := 0 }) s))) :=
    SocketBecomes.serve (.raise _ _ (hu.become hy nofun)) (.raise _ _ (.put hv))
  unfold powerTrip
  rw [hy]
  refine ⟨fun h => ?_, fun why hs hh hr => ?_, fun h hh => ?_⟩
  · rcases h with h | h | h
    all_goals
      simp only [h]
      exact htrips _
  · simp only [hs, ne_eq, hh, not_false_eq_true, if_true, hr]
    exact endPower_ends why hy hv
  · rcases h with h | h
    all_goals
      simp only [h, ne_eq, hh, not_false_eq_true, if_true]
      have hreleased := releaseHeld_becomes (b := b) hy hu hv
      rw [h] at hreleased
      exact hreleased

/-- A session already TRIPPED, and one to be released that holds no amps, hear no trip. -/
theorem powerTrip_idle (b : State) (hy : s.power.get k = some y)
    (h : y.state = .tripped ∨ (y.state = .closing ∨ y.state = .suspended ∨ y.state = .waiting) ∧ y.held = 0) :
    powerTrip b k s = s := by
  unfold powerTrip
  rw [hy]
  rcases h with h | ⟨h | h | h, hh⟩
  · simp only [h]
  all_goals simp only [h, ne_eq, hh, not_true_eq_false, if_false]

/-- An empty slot, a TRIPPED session, and one SUSPENDED or WAITING without amps hear no agreement. -/
theorem powerAgreement_idle (b : State) {k : SocketId} {s : State}
    (h : ∀ y, s.power.get k = some y → y.state = .tripped ∨ (y.state = .suspended ∨ y.state = .waiting) ∧ y.held = 0) :
    powerAgreement b k s = s := by
  unfold powerAgreement
  dsimp only
  split
  · rfl
  next y hy =>
    rcases h y hy with h | ⟨h | h, hh⟩
    · simp only [h]
    all_goals simp only [h, ne_eq, hh, not_true_eq_false, if_false]

end

end Sys2Proof.Machine

namespace Sys2Proof.Machine

/-! ### A repeated reply of a pedestal with one power session -/

theorem socketAt_ne {n : PedestalId} {i j : Fin 2} (h : j ≠ i) : socketAt n j ≠ socketAt n i := fun e =>
  h (by rw [← positionOf_socketAt n j, e, positionOf_socketAt])

/-- Where the other socket has nothing to do, a step at each socket is the step at one. -/
theorem eachOf_sockets_one {kind : PedestalKind} {i : Fin 2} {f : Fin 2 → State → State} {s : State}
    (hi : kind.hasSocket i = true) (hbefore : ∀ j, j ≠ i → f j s = s) (hafter : ∀ j, j ≠ i → f j (f i s) = f i s) :
    eachOf kind.sockets f s = f i s := by
  have hboth : f 1 (f 0 s) = f i s := by
    obtain rfl | rfl : i = 0 ∨ i = 1 := by omega
    · exact hafter 1 (by decide)
    · rw [hbefore 0 (by decide)]
  cases kind with
  | twin => exact hboth
  | power2 => exact hboth
  | single =>
    obtain rfl : i = 0 := of_decide_eq_true hi
    rfl
  | tap => cases hi

theorem takeCurrent_vacant (b : State) {k : SocketId} (c : Nat) {s : State} (h : s.power.get k = none) :
    takeCurrent b k c s = s := by
  simp only [takeCurrent, h]

/-- From `s` to `t` feeders were measured, and keep their held sums (R111). -/
structure Measured (s t : State) : Prop where
  eq : t = { s with feeders := t.feeders }
  heldSum : ∀ f, (t.feeder f).heldSum = (s.feeder f).heldSum

theorem measureFeeder_measures (b : State) {f : FeederId} {s : State} (h : (s.feeder f).overload < 7) :
    Measured s (measureFeeder b f s) := by
  rw [measureFeeder_of_lt (b := b) (s := s) (f := f) rfl rfl (by split <;> omega)]
  refine ⟨rfl, fun g => ?_⟩
  rw [modFeeder_feeder]
  split
  · next e => subst e; rfl
  · rfl

/-- The current report of a quiet feeder whose one session on the pedestal is that of socket `i`. -/
theorem currentReport_one {n : PedestalId} {i : Fin 2} {v : State} {kind : PedestalKind} (hi : kind.hasSocket i = true)
    (hothers : ∀ j, j ≠ i → v.power.get (socketAt n j) = none)
    (hload : (v.feeder (v.pedestal n).cfg.feeder).overload < 7) :
    Measured (takeCurrent v (socketAt n i) ((v.pedestal n).reported.get i).current v)
      (currentReport v n kind.sockets v) := by
  have hone : eachOf kind.sockets (fun j => takeCurrent v (socketAt n j) ((v.pedestal n).reported.get j).current) v =
      takeCurrent v (socketAt n i) ((v.pedestal n).reported.get i).current v := by
    refine eachOf_sockets_one hi (fun j hj => takeCurrent_vacant v _ (hothers j hj))
      (fun j hj => takeCurrent_vacant v _ ?_)
    unfold takeCurrent
    split
    · exact hothers j hj
    · exact (Table.get_put_ne _ _ (socketAt_ne hj).symm).trans (hothers j hj)
  unfold currentReport
  rw [hone]
  exact measureFeeder_measures v (by rw [takeCurrent_overload]; exact hload)

section

variable {n : PedestalId} {f : List Nat} {s u : State} {i : Fin 2}

theorem Answered.reported (h : Answered n f s u) (hi : (s.pedestal n).cfg.kind.hasSocket i = true) :
    (u.pedestal n).reported.get i = (socketReport f i).reported := by
  rw [h.record, Pedestal.settled_reported, answered_eq]
  exact (Table.get_build ..).trans (if_pos hi)

/-- The socket agrees with the outputs desired of it as the reply reports it (R88). -/
theorem Answered.socketAgrees (h : Answered n f s u) (hi : (s.pedestal n).cfg.kind.hasSocket i = true) :
    socketAgrees (u.pedestal n) i = true ↔ SocketAgrees (s.pedestal n) i (socketReport f i).reported := by
  have hdesired : (u.pedestal n).desired.get i =
      { (s.pedestal n).desired.get i with clearTrip := ((u.pedestal n).desired.get i).clearTrip } := by
    rw [h.record, Pedestal.settled_desired, answered_eq, Table.get_build]
  rw [socketAgrees_iff, h.reported hi, SocketAgrees, SocketAgrees, hdesired, h.cfg]

theorem Answered.feederOf (h : Answered n f s u) : feederOf u (socketAt n i) = (s.pedestal n).cfg.feeder := by
  rw [Machine.feederOf, pedestalOf_socketAt, h.cfg]

theorem deliverSocket_untold (h : (socketReport f i).reported.trip = false) (s : State) :
    deliverSocket n false f i s = powerAgreement s (socketAt n i) s := by
  unfold deliverSocket
  simp only [h, Bool.false_eq_true, if_false]

theorem deliverSocket_told (h : (socketReport f i).reported.trip = true) (s : State) :
    deliverSocket n false f i s =
      let t := powerTrip s (socketAt n i) s
      powerAgreement t (socketAt n i) t := by
  unfold deliverSocket
  simp only [h, Bool.false_eq_true, if_false, if_true]

theorem deliverSocket_work {t : State} (h : SocketWork (socketAt n i) s t) :
    SocketWork (socketAt n i) s (deliverSocket n false f i t) := by
  cases ht : (socketReport f i).reported.trip with
  | false => rw [deliverSocket_untold ht]; exact powerAgreement_work h
  | true => rw [deliverSocket_told ht]; exact powerAgreement_work (powerTrip_work h)

end

/-- The row of a repeated reply of a pedestal whose one session is that of socket `i`: the socket's delivery, its current and the measurement of the feeder. -/
theorem repeatReply_socket {g : SegmentId} {poll : Poll} {i : Fin 2} {y : PowerSession} {s : State}
    (h : RepeatReply g poll s) (hi : (s.pedestal poll.pedestal).cfg.kind.hasSocket i = true)
    (hy : s.power.get (socketAt poll.pedestal i) = some y)
    (hothers : ∀ j, j ≠ i → s.power.get (socketAt poll.pedestal j) = none) (hw : s.water.get poll.pedestal = none) :
    let n := poll.pedestal
    let k := socketAt n i
    let f := (s.segment g).unpacker.fields
    ∃ u t, Answered n f s u ∧ exec (.pedestalReply g) s = .next t ∧ ReplyTaken g s t
      ∧ let v := deliverSocket n false f i u
        SocketWork k u v
        ∧ Measured (takeCurrent v k (socketReport f i).reported.current v) t := by
  obtain ⟨u, hu, hrow⟩ := repeatReply_steps h
  obtain ⟨-, -, -, hload⟩ := h
  generalize poll.pedestal = n at *
  intro n' k f
  have hyu : u.power.get k = some y := by rw [hu.power]; exact hy
  have hvacant (j : Fin 2) (hj : j ≠ i) : u.power.get (socketAt n j) = none := by rw [hu.power]; exact hothers j hj
  have hwork : SocketWork k u (deliverSocket n false f i u) := deliverSocket_work (.refl hyu)
  have hvacant' (j : Fin 2) (hj : j ≠ i) : (deliverSocket n false f i u).power.get (socketAt n j) = none :=
    hwork.vacant _ (socketAt_ne hj) (hvacant j hj)
  have hsockets : eachOf (s.pedestal n).cfg.kind.sockets (deliverSocket n false f) u = deliverSocket n false f i u :=
    eachOf_sockets_one hi (fun j hj => deliverSocket_vacant (hvacant j hj))
      (fun j hj => deliverSocket_vacant (hvacant' j hj))
  have htap : deliverTap n false f (deliverSocket n false f i u) = deliverSocket n false f i u := by
    have hnone : (deliverSocket n false f i u).water.get n = none := by rw [hwork.tap.water, hu.water]; exact hw
    rw [deliverTap_repeat]
    split
    · simp only [valveAgreement, hnone]
    · rfl
  have hped := hwork.served.outputs n
  have hreport : ((deliverSocket n false f i u).pedestal n).reported.get i = (socketReport f i).reported := by
    rw [hped]; exact hu.reported hi
  have hquiet : ((deliverSocket n false f i u).feeder ((deliverSocket n false f i u).pedestal n).cfg.feeder).overload < 7 := by
    rw [hwork.overload, hped, hu.cfg, State.feeder, hu.feeders]
    exact hload
  have hmeasured := currentReport_one hi hvacant' hquiet
  rw [hreport] at hmeasured
  dsimp only at hrow
  rw [hsockets, htap] at hrow
  obtain ⟨hexec, htaken⟩ := hrow
  exact ⟨u, _, hu, hexec, htaken, hwork, hmeasured⟩

/-! ### What a repeated reply leaves of the socket -/

section

variable {b s u v t told : State} {k : SocketId} {a : AccountId} {z : PowerSession} {c : Nat}

theorem Measured.power (h : Measured s t) : t.power = s.power := by rw [h.eq]

/-- The current and the measurement leave a session that became `z` with its last current; `u` has the accounts of `s`. -/
theorem SocketBecomes.measured (h : SocketBecomes k z u told v) (hm : Measured (takeCurrent v k c v) t)
    (ha : u.accounts = s.accounts) :
    t.power.get k = some { z with lastCurrent := c } ∧ t.accounts = s.accounts ∧ SameNotices t told := by
  have hput : takeCurrent v k c v = putPower v k (some { z with lastCurrent := c }) v := by
    simp only [takeCurrent, h.slot]
  rw [hput] at hm
  refine ⟨?_, ?_, ?_⟩
  · rw [hm.power]; exact Table.get_put_self ..
  · rw [hm.eq]; exact h.accounts.trans ha
  · rw [hm.eq]; exact h.notices.same

/-- The current and the measurement leave a session that ended. -/
theorem SocketEnds.measured (h : SocketEnds k a u told v) (hm : Measured (takeCurrent v k c v) t)
    (ha : u.accounts = s.accounts) :
    t.power.get k = none ∧ (t.account a).power = none ∧ SameNotices t told ∧ ∀ m, m ≠ a → t.account m = s.account m := by
  rw [takeCurrent_vacant v c h.slot] at hm
  have haccount (m : AccountId) : t.account m = v.account m := by rw [hm.eq]; rfl
  refine ⟨?_, ?_, ?_, fun m hm => ?_⟩
  · rw [hm.power]; exact h.slot
  · rw [haccount]; exact h.link
  · rw [hm.eq]; exact h.notices.same
  · rw [haccount, h.others m hm, State.account, ha]
    rfl

/-- After the current is taken the relay desired of the socket follows its session (R95). -/
theorem takeCurrent_relay {n : PedestalId} {i : Fin 2} (b : State) (c : Nat) (h : OffIfVacant (socketAt n i) v) :
    (((takeCurrent b (socketAt n i) c v).pedestal n).desired.get i).relay =
      (((takeCurrent b (socketAt n i) c v).power.get (socketAt n i)).map fun z => z.state.on).getD false := by
  cases hz : v.power.get (socketAt n i) with
  | none =>
    have hoff := h hz
    rw [pedestalOf_socketAt, positionOf_socketAt] at hoff
    rw [takeCurrent_vacant b c hz, hz]
    exact hoff
  | some z =>
    have hput : takeCurrent b (socketAt n i) c v = putPower b (socketAt n i) (some { z with lastCurrent := c }) v := by
      simp only [takeCurrent, hz]
    rw [hput, putPower_relay, if_pos rfl, putPower_power, Table.get_put_self, desiredFor_eq]
    rfl

end

/-! ### The deliveries of a socket, by the session's state (R102 to R105) -/

section

variable {n : PedestalId} {f : List Nat} {i : Fin 2} {b s : State} {y : PowerSession}

theorem powerAgreement_on (hy : s.power.get (socketAt n i) = some y) (hs : y.state = .switching ∨ y.state = .restoring) :
    powerAgreement b (socketAt n i) s = confirmOn b (socketAt n i) y (socketAgrees (s.pedestal n) i) s := by
  unfold powerAgreement
  rcases hs with hs | hs <;> simp only [hy, hs, pedestalOf_socketAt, positionOf_socketAt]

theorem powerAgreement_live (hy : s.power.get (socketAt n i) = some y) (hs : y.state = .live) :
    powerAgreement b (socketAt n i) s =
      liveAgreement b (socketAt n i) y (socketAgrees (s.pedestal n) i) ((s.pedestal n).reported.get i).relay s := by
  unfold powerAgreement
  simp only [hy, hs, pedestalOf_socketAt, positionOf_socketAt]

theorem powerAgreement_releasing (hy : s.power.get (socketAt n i) = some y)
    (hs : y.state = .closing ∨ (y.state = .suspended ∨ y.state = .waiting) ∧ y.held ≠ 0) :
    powerAgreement b (socketAt n i) s = confirmOff b (socketAt n i) y (socketAgrees (s.pedestal n) i) s := by
  unfold powerAgreement
  rcases hs with hs | ⟨hs | hs, hh⟩
  · simp only [hy, hs, pedestalOf_socketAt, positionOf_socketAt]
  all_goals simp only [hy, hs, hh, pedestalOf_socketAt, positionOf_socketAt, ne_eq, not_false_eq_true, if_true]

/-- A trip that changes nothing leaves the agreement alone. -/
theorem deliverSocket_agreement (h : (socketReport f i).reported.trip = false ∨ powerTrip s (socketAt n i) s = s) :
    deliverSocket n false f i s = powerAgreement s (socketAt n i) s := by
  cases ht : (socketReport f i).reported.trip with
  | false => exact deliverSocket_untold ht s
  | true =>
    rw [deliverSocket_told ht, h.resolve_left (by rw [ht]; exact nofun)]

/-- A trip after which no agreement is heard. -/
theorem deliverSocket_trips (ht : (socketReport f i).reported.trip = true)
    (h : ∀ y, (powerTrip s (socketAt n i) s).power.get (socketAt n i) = some y →
      y.state = .tripped ∨ (y.state = .suspended ∨ y.state = .waiting) ∧ y.held = 0) :
    deliverSocket n false f i s = powerTrip s (socketAt n i) s := by
  rw [deliverSocket_told ht]
  exact powerAgreement_idle _ h

end

section

variable {n : PedestalId} {f : List Nat} {s u : State} {i : Fin 2} {y : PowerSession}

/-- What a repeated reply leaves beside the session of the socket: taps, the relay desired, and an unserved feeder (R95, R96). -/
theorem socketWork_leaves {v t : State} {c : Nat} (hu : Answered n f s u) (hy : u.power.get (socketAt n i) = some y)
    (hwork : SocketWork (socketAt n i) u v) (hm : Measured (takeCurrent v (socketAt n i) c v) t) :
    t.water = s.water
    ∧ ((t.pedestal n).desired.get i).relay = ((t.power.get (socketAt n i)).map fun z => z.state.on).getD false
    ∧ ((s.feeder (s.pedestal n).cfg.feeder).waitList = [] → y.held ≤ (s.feeder (s.pedestal n).cfg.feeder).heldSum →
      (∀ m, m ≠ socketAt n i → t.power.get m = s.power.get m)
      ∧ (t.feeder (s.pedestal n).cfg.feeder).heldSum + y.held =
        (s.feeder (s.pedestal n).cfg.feeder).heldSum + heldOf (t.power.get (socketAt n i))) := by
  have hfeeder (g : FeederId) : u.feeder g = s.feeder g := by rw [State.feeder, hu.feeders]; rfl
  have htaken : SocketWork (socketAt n i) u (takeCurrent v (socketAt n i) c v) := takeCurrent_work c hwork
  refine ⟨?_, ?_, fun hnil hheld => ?_⟩
  · rw [hm.eq]
    exact htaken.tap.water.trans hu.water
  · rw [hm.power, show t.pedestal n = (takeCurrent v (socketAt n i) c v).pedestal n by rw [hm.eq]; rfl]
    exact takeCurrent_relay v c hwork.off
  · obtain ⟨hsame, -, hsum⟩ := htaken.sole (by rw [hu.feederOf, hfeeder]; exact hnil)
      (by rw [hu.feederOf, hfeeder, hy]; exact hheld)
    rw [hu.feederOf, hfeeder, hy, ← hm.heldSum, ← hm.power] at hsum
    exact ⟨fun m hmk => by rw [hm.power, hsame m hmk, hu.power], hsum⟩

variable (hu : Answered n f s u) (hi : (s.pedestal n).cfg.kind.hasSocket i = true)
  (hy : u.power.get (socketAt n i) = some y) (hun : Unserved (feederOf u (socketAt n i)) (socketAt n i) u)

include hu hi hy hun

/-- A SWITCHING or RESTORING session, untripped (R102). -/
theorem deliverSocket_on (hs : y.state = .switching ∨ y.state = .restoring)
    (ht : (socketReport f i).reported.trip = false) :
    let k := socketAt n i
    let v := deliverSocket n false f i u
    let agrees := SocketAgrees (s.pedestal n) i (socketReport f i).reported
    (agrees → SocketBecomes k { y with state := .live, held := min y.held y.granted, confirmMisses := 0 } u
      (raise .powerLive { account := some y.account, outlet := some (.socket k), value := some y.granted } s) v)
    ∧ (¬ agrees → y.confirmMisses ≠ 2 → SocketBecomes k (missedOnce y) u s v)
    ∧ (¬ agrees → y.confirmMisses = 2 → SocketEnds k y.account u
        (socketFault k y .switchOn (raise .powerEnded
          { account := some y.account, outlet := some (.socket k), value := some y.energy
            reason := some (.powerEnd .fault), fault := y.fault } s)) v) := by
  intro k v agrees
  obtain ⟨hlive, hmiss, hfails⟩ := confirmOn_outcomes (b := u) hy hun hu.noticeView
  have hv : v = _ := (deliverSocket_agreement (.inl ht)).trans (powerAgreement_on hy hs)
  have hyes (h : agrees) := (hu.socketAgrees hi).2 h
  have hno (h : ¬ agrees) := Bool.eq_false_iff.2 (mt (hu.socketAgrees hi).1 h)
  refine ⟨fun h => ?_, fun h h3 => ?_, fun h h3 => ?_⟩
  · rw [hv, hyes h]; exact hlive
  · rw [hv, hno h]; exact hmiss h3
  · rw [hv, hno h]; exact hfails h3

/-- A LIVE session, untripped (R103). -/
theorem deliverSocket_live (hs : y.state = .live) (ht : (socketReport f i).reported.trip = false) :
    let k := socketAt n i
    let v := deliverSocket n false f i u
    let r := (socketReport f i).reported
    let agrees := SocketAgrees (s.pedestal n) i r
    (agrees → SocketBecomes k { y with held := min y.held y.granted, confirmMisses := 0 } u s v)
    ∧ (¬ agrees → r.relay = false → SocketBecomes k { y with state := .switching, confirmMisses := 1 } u s v)
    ∧ (¬ agrees → r.relay = true → y.confirmMisses ≠ 2 → SocketBecomes k (missedOnce y) u s v)
    ∧ (¬ agrees → r.relay = true → y.confirmMisses = 2 →
        SocketBecomes k { missedOnce y with fault := true } u (socketFault k y .limit s) v) := by
  intro k v r agrees
  obtain ⟨hagreed, hdrops, hmiss, hfails⟩ := liveAgreement_outcomes (b := u) hy hun hu.noticeView
  have hv : v = _ := (deliverSocket_agreement (.inl ht)).trans (powerAgreement_live hy hs)
  have hyes (h : agrees) := (hu.socketAgrees hi).2 h
  have hno (h : ¬ agrees) := Bool.eq_false_iff.2 (mt (hu.socketAgrees hi).1 h)
  rw [hu.reported hi] at hv
  refine ⟨fun h => ?_, fun h hrelay => ?_, fun h hrelay h3 => ?_, fun h hrelay h3 => ?_⟩
  · rw [hv, hyes h]; exact hagreed _
  all_goals rw [hv, hno h, hrelay]
  · exact hdrops
  · exact hmiss h3
  · exact hfails h3

/-- A session to be released, whose trip has nothing to release (R104). -/
theorem deliverSocket_releasing (hs : y.state = .closing ∨ (y.state = .suspended ∨ y.state = .waiting) ∧ y.held ≠ 0)
    (ht : (socketReport f i).reported.trip = false ∨ y.held = 0) :
    let k := socketAt n i
    let v := deliverSocket n false f i u
    let agrees := SocketAgrees (s.pedestal n) i (socketReport f i).reported
    (∀ why, agrees → y.state = .closing → y.closeReason = some why → SocketEnds k y.account u
      (raise .powerEnded
        { account := some y.account, outlet := some (.socket k), value := some y.energy, reason := some (.powerEnd why)
          fault := y.fault } s) v)
    ∧ (agrees → y.state ≠ .closing → SocketBecomes k { y with held := 0 } u s v)
    ∧ (¬ agrees → y.confirmMisses ≠ 2 → SocketBecomes k (missedOnce y) u s v)
    ∧ (¬ agrees → y.confirmMisses = 2 →
        SocketBecomes k { missedOnce y with fault := true } u (socketFault k y .switchOff s) v) := by
  intro k v agrees
  obtain ⟨hcloses, hreleases, hmiss, hfails⟩ := confirmOff_outcomes (b := u) hy hun hu.noticeView
  have htrip : (socketReport f i).reported.trip = false ∨ powerTrip u k u = u :=
    ht.imp_right fun h0 => powerTrip_idle u hy (.inr ⟨hs.imp_right And.left, h0⟩)
  have hv : v = _ := (deliverSocket_agreement htrip).trans (powerAgreement_releasing hy hs)
  have hyes (h : agrees) := (hu.socketAgrees hi).2 h
  have hno (h : ¬ agrees) := Bool.eq_false_iff.2 (mt (hu.socketAgrees hi).1 h)
  refine ⟨fun why h hc hr => ?_, fun h hc => ?_, fun h h3 => ?_, fun h h3 => ?_⟩
  · rw [hv, hyes h]; exact hcloses why hc hr
  · rw [hv, hyes h]; exact hreleases hc
  · rw [hv, hno h]; exact hmiss h3
  · rw [hv, hno h]; exact hfails h3

omit hi

/-- A trip, by the session's state (R105). -/
theorem deliverSocket_trip_outcomes (ht : (socketReport f i).reported.trip = true) :
    let k := socketAt n i
    let v := deliverSocket n false f i u
    ((y.state = .switching ∨ y.state = .live ∨ y.state = .restoring) → ∃ b, BerthNames s k b
      ∧ SocketBecomes k { y with state := .tripped, held := 0, confirmMisses := 0 } u
          (raise .socketTripped
            { account := some y.account, berth := b, outlet := some (.socket k), value := some y.energy } s) v)
    ∧ (∀ why, y.state = .closing → y.held ≠ 0 → y.closeReason = some why → SocketEnds k y.account u
        (raise .powerEnded
          { account := some y.account, outlet := some (.socket k), value := some y.energy
            reason := some (.powerEnd why), fault := y.fault } s) v)
    ∧ ((y.state = .suspended ∨ y.state = .waiting) → y.held ≠ 0 → SocketBecomes k { y with held := 0 } u s v) := by
  intro k v
  obtain ⟨htrips, hcloses, hreleases⟩ := powerTrip_outcomes (b := u) hy hun hu.noticeView
  refine ⟨fun hs => ⟨berthNaming u k, ?_, ?_⟩, fun why hs hh hr => ?_, fun hs hh => ?_⟩
  · have hnames := berthNaming_names u k
    rw [hu.eq] at hnames ⊢
    exact hnames
  · rw [show v = _ from deliverSocket_trips ht fun z hz => ?_]
    · exact htrips hs
    · cases (htrips hs).slot.symm.trans hz
      exact .inl rfl
  · rw [show v = _ from deliverSocket_trips ht fun z hz => ?_]
    · exact hcloses why hs hh hr
    · cases (hcloses why hs hh hr).slot.symm.trans hz
  · rw [show v = _ from deliverSocket_trips ht fun z hz => ?_]
    · exact hreleases hs hh
    · cases (hreleases hs hh).slot.symm.trans hz
      exact .inr ⟨hs, rfl⟩

omit hu hun

/-- A session already TRIPPED, or SUSPENDED or WAITING without amps, hears nothing. -/
theorem deliverSocket_idle (hs : y.state = .tripped ∨ (y.state = .suspended ∨ y.state = .waiting) ∧ y.held = 0) :
    deliverSocket n false f i u = u := by
  have htrip : powerTrip u (socketAt n i) u = u := powerTrip_idle u hy (hs.imp_right fun h => ⟨.inr h.1, h.2⟩)
  refine (deliverSocket_agreement (.inr htrip)).trans (powerAgreement_idle u fun z hz => ?_)
  cases hy.symm.trans hz
  exact hs

end

end Sys2Proof.Machine

namespace Sys2Proof.Machine

/-- Settles O44: the two commands and the expiry by the writes they lead to, and a repeated reply by the delivery of its one socket. -/
theorem powerSessionsEndAndRestart : Obligations.PowerSessionsEndAndRestart := by
  refine ⟨fun o k s hr hd => ?_, fun o a s hr => ?_, fun f s hstop hl => ?_, ?_⟩
  · intro p present
    have hopened := resetSocketOwner_opened hd k
    have hpresent : socketPresent s k = true ↔ present := socketPresent_iff
    refine ⟨fun h => ?_, fun y h hy hs => ?_, fun h hk => ?_, fun y h hy hs => ?_⟩
    · exact (resetSocket_form ..).refused hr (hopened.trans (resetSocketThis_absent (mt hpresent.1 h)))
    · exact (resetSocket_form ..).refused hr (hopened.trans (resetSocketThis_used (hpresent.2 h) hy hs))
    · have hexec := (resetSocket_form ..).taken hr (hopened.trans (resetSocketThis_vacant (hpresent.2 h) hk))
      obtain ⟨e, he⟩ := requestClearTrip_eq k s
      exact ⟨e, he ▸ hexec⟩
    · have hserved := requestClearTrip_served s k s
      have hclear := requestClearTrip_clearTrip s k s
      refine ⟨_, _, (resetSocket_form ..).taken hr (hopened.trans (resetSocketThis_tripped (hpresent.2 h) hy hs)),
        (OnlySessions.refl s).served (resetTripped_served s k y hserved), (resetTripped_clearTrip ..).trans hclear,
        fun h => resetTripped_gone hy h, fun n hs hb hk hg hl hroom => resetTripped_again hy hs hb hk hg ?_ ?_⟩
      · rw [hserved.outputs]; exact hl
      · rw [hserved.outputs]; exact hroom
  · refine ⟨fun h => (endPower_form ..).refused hr (endPowerOwner_unlinked h), fun k y hk hy ha => ?_⟩
    intro offline
    subst ha
    have hexec := (endPower_form ..).taken hr (endPowerOwner_linked hk)
    have hserved : OnlySessions s (closePower s k .finished true s) :=
      (OnlySessions.refl s).served (closePower_served s k .finished true (.refl s))
    obtain ⟨hon, hended, hclosing⟩ := closePower_by_command hy
    refine ⟨fun h => ?_, fun h => ?_, fun h hl => ?_⟩
    · rw [hon h] at hexec hserved
      have hlink : ((putPower s k (some { y with state := .closing, closeReason := some .finished, confirmMisses := 0 })
          s).account y.account).power = some k := hk
      rw [hlink] at hexec
      exact ⟨_, hexec, hserved, rfl, rfl⟩
    · obtain ⟨why, e⟩ := hended h
      obtain ⟨hslot, hlink, -⟩ := endPower_leaves s why hy
      rw [e] at hexec hserved
      rw [hlink] at hexec
      exact ⟨_, hexec, hserved, hslot, hlink⟩
    · rw [hclosing h hl, hk] at hexec
      exact hexec
  · intro x
    have hexec : exec (.reliefHoldExpiry f) s = .next (reliefExpiry f s) :=
      congrArg Host.Outcome.next (event_running hstop)
    refine ⟨fun h => ?_, fun h hlist => ?_, fun k rest y h hlist hy hs hh hf => ?_⟩
    · rw [hexec, reliefExpiry, if_pos (.inr h)]
    · have hserves := reliefExpiry_serves hl h
      rw [hlist] at hserves
      exact hexec.trans (congrArg Host.Outcome.next hserves)
    · intro eff cap
      obtain rfl : feederOf s k = f := hf
      obtain ⟨hrelief, hgrants, hstays⟩ := reliefExpiry_head hl h hlist hy hs hh
      refine ⟨_, hexec, (OnlySessions.refl s).served (reliefExpiry_served ..), hrelief, fun hroom => ?_,
        fun hless hno => hstays ?_⟩
      · exact ⟨_, hgrants eff (if_pos hroom), rfl, rfl, rfl, rfl, rfl⟩
      · exact (if_neg (Nat.not_le.2 hless)).trans (if_neg fun ⟨h63, hfits⟩ =>
          hno.elim (absurd h63) (Nat.not_lt.2 hfits))
  · intro g poll i y s hrep n p k x r agrees hi hy hothers hw hheld hlisted hrelief
    obtain ⟨u, t, hu, hexec, htaken, hwork, hm⟩ := repeatReply_socket hrep hi hy hothers hw
    have hyu : u.power.get k = some y := by rw [hu.power]; exact hy
    obtain ⟨hwater, hrelay, hsole⟩ := socketWork_leaves hu hyu hwork hm
    refine ⟨t, hexec, htaken, hwater, hrelay.trans ?_, fun hnil => hsole hnil hheld, ?_⟩
    · cases t.power.get (socketAt poll.pedestal i) <;> rfl
    · intro becomes ended ends faulted missed third releasing
      have hunserved (h : y.state = .waiting → y.held ≠ 0) : Unserved (feederOf u k) k u := by
        rw [show feederOf u k = p.cfg.feeder from hu.feederOf, Unserved, State.feeder, hu.feeders]
        by_cases hs : y.state = .waiting
        · exact .inr (hrelief hs (h hs))
        · exact .inl (hlisted hs)
      have hbecomes {z : PowerSession} {told : State}
          (h : SocketBecomes k z u told (deliverSocket n false (s.segment g).unpacker.fields i u)) : becomes z told :=
        h.measured hm hu.accounts
      have hends {told : State}
          (h : SocketEnds k y.account u told (deliverSocket n false (s.segment g).unpacker.fields i u)) : ends told :=
        h.measured hm hu.accounts
      refine ⟨fun hs ht => ?_, fun hs ht => ?_, fun hs ht => ?_, fun hs => ?_, fun ht hs => ?_, fun why ht hs hh hr => ?_,
        fun ht hs hh => ?_⟩
      · have hnw : y.state ≠ .waiting := by rcases hs with hs | hs <;> rw [hs] <;> decide
        obtain ⟨hlive, hmiss, hfails⟩ := deliverSocket_on hu hi hyu (hunserved fun h => absurd h hnw) hs ht
        exact ⟨fun h => hbecomes (hlive h), fun h h3 => hbecomes (hmiss h h3), fun h h3 => hends (hfails h h3)⟩
      · have hnw : y.state ≠ .waiting := by rw [hs]; decide
        obtain ⟨hagreed, hdrops, hmiss, hfails⟩ := deliverSocket_live hu hi hyu (hunserved fun h => absurd h hnw) hs ht
        exact ⟨fun h => hbecomes (hagreed h), fun h hr => hbecomes (hdrops h hr), fun h hr h3 => hbecomes (hmiss h hr h3),
          fun h hr h3 => hbecomes (hfails h hr h3)⟩
      · have hholds (h : y.state = .waiting) : y.held ≠ 0 := (hs.resolve_left fun e => by rw [e] at h; cases h).2
        obtain ⟨hcloses, hreleases, hmiss, hfails⟩ := deliverSocket_releasing hu hi hyu (hunserved hholds) hs ht
        exact ⟨fun why h hc hr => hends (hcloses why h hc hr), fun h hc => hbecomes (hreleases h hc),
          fun h h3 => hbecomes (hmiss h h3), fun h h3 => hbecomes (hfails h h3)⟩
      · refine hbecomes (z := y) ?_
        rw [deliverSocket_idle hyu hs]
        exact ⟨hyu, rfl, hu.noticeView⟩
      · have hnw : y.state ≠ .waiting := by rcases hs with hs | hs | hs <;> rw [hs] <;> decide
        obtain ⟨b, hnames, htripped⟩ :=
          (deliverSocket_trip_outcomes hu hyu (hunserved fun h => absurd h hnw) ht).1 hs
        exact ⟨b, hnames, hbecomes htripped⟩
      · have hnw : y.state ≠ .waiting := by rw [hs]; decide
        obtain ⟨-, hcloses, -⟩ := deliverSocket_trip_outcomes hu hyu (hunserved fun h => absurd h hnw) ht
        exact hends (hcloses why hs hh hr)
      · obtain ⟨-, -, hreleases⟩ := deliverSocket_trip_outcomes hu hyu (hunserved fun _ => hh) ht
        exact hbecomes (hreleases hs hh)

end Sys2Proof.Machine

/-! ## Tanks, open sales and the accounts that pay for them (O51)

The laws of R124 and R7 read a few fields of each tank, each open sale and each account. Most commands leave all of them as they were; SELL and the end of a sale change a tank, a pump and an account together. -/

namespace Sys2Proof.Machine

/-! ### The laws, record by record -/

/-- What the laws of holds read of an open sale: the tank and the account it holds of, and how much (R124, R7). -/
def Sale.stake (x : Sale) : ProductId × Nat × Buyer × Nat := (x.product, x.volumeHold, x.buyer, x.moneyHold)

/-- What the tanks' law reads of a tank (R124). -/
def Tank.stock (x : Tank) : Nat × Nat × Nat := (x.book, x.holds, x.cfg.capacity)

/-- `y` holds what `x` held, for the same sale, and has not become FREE with one. -/
def Account.SameHolds (x y : Account) : Prop :=
  y.holds = x.holds ∧ y.sale = x.sale ∧ (y.state = .free → x.state = .free ∨ x.sale = none)

/-- What the open sale of a pump, if any, holds of tank `k`. -/
def volumeOn (k : ProductId) (o : Option Sale) : Nat := o.elim 0 fun x => if x.product = k then x.volumeHold else 0

/-- The account that pays for the open sale of a pump. -/
def payerAt (s : State) (n : PumpId) : Option AccountId := (s.pump n).sale.bind fun x => x.buyer.account?

/-- The money hold of the sale that an account names. -/
def moneyHeld (s : State) (a : AccountId) : Nat :=
  ((s.account a).sale.bind fun n => (s.pump n).sale).elim 0 Sale.moneyHold

/-- The law of R7 with the link as one equivalence. -/
structure HoldsTied (s : State) : Prop where
  links : Mutual (payerAt s) fun a => (s.account a).sale
  free : ∀ a, (s.account a).state = .free → (s.account a).sale = none
  holds : ∀ a, (s.account a).holds = moneyHeld s a

/-- The holds of each tank are those of its open sales, and its book covers them (R124). -/
structure Covered (s : State) : Prop where
  sums : HoldsOk s
  book : ∀ k, (s.tank k).holds ≤ (s.tank k).book

/-- No book exceeds its tank's capacity (R124). -/
def WithinCapacity (s : State) : Prop := ∀ k, (s.tank k).book ≤ (s.tank k).cfg.capacity

theorem covered_withinCapacity_iff {s : State} : TanksOk s ∧ HoldsOk s ↔ Covered s ∧ WithinCapacity s :=
  ⟨fun ⟨ht, hh⟩ => ⟨⟨hh, fun k => (ht k).1⟩, fun k => (ht k).2⟩, fun ⟨hc, hw⟩ => ⟨fun k => ⟨hc.book k, hw k⟩, hc.sums⟩⟩

theorem Buyer.account?_eq_some {b : Buyer} {a : AccountId} : b.account? = some a ↔ b = .account a := by
  cases b <;> simp [Buyer.account?]

theorem payerAt_eq_some {s : State} {n : PumpId} {a : AccountId} :
    payerAt s n = some a ↔ ∃ x, (s.pump n).sale = some x ∧ x.buyer = .account a := by
  simp only [payerAt, Option.bind_eq_some_iff, Buyer.account?_eq_some]

theorem AccountHoldsOk.tied {s : State} (h : AccountHoldsOk s) : HoldsTied s := by
  obtain ⟨hp, ha⟩ := h
  have named : ∀ a n, (s.account a).sale = some n → (s.account a).state ≠ .free
      ∧ ∃ x, (s.pump n).sale = some x ∧ x.buyer = .account a ∧ (s.account a).holds = x.moneyHold := fun a n e => by
    have h := ha a
    rw [show (s.accounts.get a).sale = some n from e] at h
    exact h
  refine ⟨fun n a => ⟨fun e => ?_, fun e => ?_⟩, fun a hf => ?_, fun a => ?_⟩
  · obtain ⟨x, hx, hb⟩ := payerAt_eq_some.1 e
    have h := hp n
    rw [show (s.pumps.get n).sale = some x from hx] at h
    simp only [hb] at h
    exact h
  · obtain ⟨-, x, hx, hb, -⟩ := named a n e
    exact payerAt_eq_some.2 ⟨x, hx, hb⟩
  · cases e : (s.account a).sale with
    | none => rfl
    | some n => exact absurd hf (named a n e).1
  · unfold moneyHeld
    cases e : (s.account a).sale with
    | none =>
      have h := ha a
      rw [show (s.accounts.get a).sale = none from e] at h
      exact h
    | some n =>
      obtain ⟨-, x, hx, -, hm⟩ := named a n e
      simpa [hx] using hm

theorem HoldsTied.accountHoldsOk {s : State} (h : HoldsTied s) : AccountHoldsOk s := by
  refine ⟨fun n => ?_, fun a => ?_⟩
  · split
    · trivial
    · next x hx =>
      split
      · trivial
      · next a hb => exact (h.links n a).1 (payerAt_eq_some.2 ⟨x, hx, hb⟩)
  · have hh := h.holds a
    unfold moneyHeld at hh
    split
    · next e => simpa [State.account_eq, e] using hh
    · next n e =>
      obtain ⟨x, hx, hb⟩ := payerAt_eq_some.1 ((h.links n a).2 e)
      refine ⟨fun hf => ?_, x, hx, hb, ?_⟩
      · exact absurd ((h.free a hf).symm.trans e) (by simp)
      · simpa [State.account_eq, e, hx] using hh

/-- The volume held on a tank, pump by pump. -/
theorem volumeHeld_eq (s : State) (k : ProductId) :
    volumeHeld s k = ((List.finRange 4).map fun n => volumeOn k (s.pump n).sale).sum := by
  unfold volumeHeld openSales
  induction List.finRange 4 with
  | nil => rfl
  | cons n l ih =>
    cases hx : (s.pump n).sale with
    | none => simp [hx, volumeOn, ih]
    | some x => by_cases hk : x.product = k <;> simp [hx, hk, volumeOn, ih]

theorem volumeOn_of_stake {o o' : Option Sale} (h : o'.map Sale.stake = o.map Sale.stake) (k : ProductId) :
    volumeOn k o' = volumeOn k o := by
  cases o <;> cases o' <;> simp_all [volumeOn, Sale.stake]

/-- A change of one pump's sale changes the volume held by what that pump holds. -/
theorem volumeHeld_change {s t : State} {n : PumpId}
    (h : ∀ m, m ≠ n → (t.pump m).sale.map Sale.stake = (s.pump m).sale.map Sale.stake) (k : ProductId) :
    volumeHeld t k + volumeOn k (s.pump n).sale = volumeHeld s k + volumeOn k (t.pump n).sale := by
  rw [volumeHeld_eq, volumeHeld_eq]
  exact (sum_map_change (List.nodup_finRange 4) (List.mem_finRange n) fun m hm => volumeOn_of_stake (h m hm) k).2

/-! ### What leaves the laws as they were -/

/-- From `s` to `t` everything that the laws of holds read is as it was. -/
structure SameStakes (s t : State) : Prop where
  accounts : ∀ a, (s.account a).SameHolds (t.account a)
  sales : ∀ n, (t.pump n).sale.map Sale.stake = (s.pump n).sale.map Sale.stake
  tanks : ∀ k, (t.tank k).stock = (s.tank k).stock

theorem Account.SameHolds.refl (x : Account) : x.SameHolds x := ⟨rfl, rfl, .inl⟩

theorem Account.SameHolds.trans {x y z : Account} (h : x.SameHolds y) (k : y.SameHolds z) : x.SameHolds z := by
  obtain ⟨hh, hs, hf⟩ := h
  obtain ⟨kh, ks, kf⟩ := k
  exact ⟨kh.trans hh, ks.trans hs, fun e => (kf e).elim hf fun e => .inr (hs ▸ e)⟩

theorem SameStakes.refl (s : State) : SameStakes s s := ⟨fun _ => .refl _, fun _ => rfl, fun _ => rfl⟩

theorem SameStakes.trans {s t u : State} (h : SameStakes s t) (k : SameStakes t u) : SameStakes s u where
  accounts a := (h.accounts a).trans (k.accounts a)
  sales n := (k.sales n).trans (h.sales n)
  tanks i := (k.tanks i).trans (h.tanks i)

/-- A change of no account, pump or tank. -/
theorem SameStakes.same {s t : State} (ha : t.accounts = s.accounts) (hp : t.pumps = s.pumps) (ht : t.tanks = s.tanks) :
    SameStakes s t where
  accounts a := by rw [State.account_eq t, ha]; exact .refl _
  sales n := by rw [State.pump_eq t, hp]; rfl
  tanks k := by rw [State.tank_eq t, ht]; rfl

/-- From `s` to `t` the laws of tanks and of holds are kept, each for its own sake. -/
structure KeepsStakes (s t : State) : Prop where
  tanks : Covered s → WithinCapacity s → Covered t ∧ WithinCapacity t
  accounts : AccountHoldsOk s → AccountHoldsOk t

theorem KeepsStakes.refl (s : State) : KeepsStakes s s := ⟨And.intro, id⟩

theorem KeepsStakes.trans {s t u : State} (h : KeepsStakes s t) (k : KeepsStakes t u) : KeepsStakes s u :=
  ⟨fun w c => (h.tanks w c).elim k.tanks, fun w => k.accounts (h.accounts w)⟩

theorem Tank.stock_eq {x y : Tank} (h : x.stock = y.stock) :
    x.book = y.book ∧ x.holds = y.holds ∧ x.cfg.capacity = y.cfg.capacity := by
  simpa only [Tank.stock, Prod.mk.injEq] using h

theorem payerAt_of_stake {s t : State} {n : PumpId}
    (h : (t.pump n).sale.map Sale.stake = (s.pump n).sale.map Sale.stake) : payerAt t n = payerAt s n := by
  unfold payerAt
  cases hs : (s.pump n).sale <;> cases ht : (t.pump n).sale <;> simp_all [Sale.stake]

theorem moneyHold_of_stake {o o' : Option Sale} (h : o'.map Sale.stake = o.map Sale.stake) :
    o'.elim 0 Sale.moneyHold = o.elim 0 Sale.moneyHold := by
  cases o <;> cases o' <;> simp_all [Sale.stake]

/-- The law of accounts reads sales and accounts. -/
theorem HoldsTied.of_same {s t : State} (w : HoldsTied s) (ha : ∀ a, (s.account a).SameHolds (t.account a))
    (hp : ∀ n, (t.pump n).sale.map Sale.stake = (s.pump n).sale.map Sale.stake) : HoldsTied t := by
  refine ⟨w.links.congr (fun n => payerAt_of_stake (hp n)) fun a => (ha a).2.1, fun a e => ?_, fun a => ?_⟩
  · obtain ⟨-, hs, hf⟩ := ha a
    exact hs.trans ((hf e).elim (w.free a) id)
  · obtain ⟨hh, hs, -⟩ := ha a
    rw [hh, w.holds a]
    unfold moneyHeld
    rw [hs]
    cases (s.account a).sale with
    | none => rfl
    | some n => exact (moneyHold_of_stake (hp n)).symm

theorem volumeHeld_of_stake {s t : State} (h : ∀ n, (t.pump n).sale.map Sale.stake = (s.pump n).sale.map Sale.stake)
    (k : ProductId) : volumeHeld t k = volumeHeld s k := by
  simp only [volumeHeld_eq, fun n => volumeOn_of_stake (h n) k]

/-- Tanks that hold what they held, under the same sales. -/
theorem Covered.of_holds {s t : State} (w : Covered s)
    (hp : ∀ n, (t.pump n).sale.map Sale.stake = (s.pump n).sale.map Sale.stake)
    (hh : ∀ k, (t.tank k).holds = (s.tank k).holds) (hb : ∀ k, (t.tank k).holds ≤ (t.tank k).book) : Covered t :=
  ⟨fun k => (hh k).trans ((w.sums k).trans (volumeHeld_of_stake hp k).symm), hb⟩

theorem SameStakes.covered {s t : State} (h : SameStakes s t) (w : Covered s) : Covered t := by
  have hstock := fun k => Tank.stock_eq (h.tanks k)
  exact w.of_holds h.sales (fun k => (hstock k).2.1) fun k => by
    obtain ⟨hb, hh, -⟩ := hstock k
    rw [hb, hh]; exact w.book k

theorem SameStakes.withinCapacity {s t : State} (h : SameStakes s t) (c : WithinCapacity s) : WithinCapacity t := fun k => by
  obtain ⟨hb, -, hc⟩ := Tank.stock_eq (h.tanks k)
  rw [hb, hc]; exact c k

theorem SameStakes.keeps {s t : State} (h : SameStakes s t) : KeepsStakes s t :=
  ⟨fun w c => ⟨h.covered w, h.withinCapacity c⟩, fun w => (w.tied.of_same h.accounts h.sales).accountHoldsOk⟩

theorem KeepsStakes.same {s t : State} (ha : t.accounts = s.accounts) (hp : t.pumps = s.pumps) (ht : t.tanks = s.tanks) :
    KeepsStakes s t := (SameStakes.same ha hp ht).keeps

/-! ### The end of a sale (R140, R141) -/

/-- The sale of pump `n` goes, and with it the hold and the link of its payer. -/
theorem HoldsTied.ended {s t : State} {n : PumpId} {x : Sale} (w : HoldsTied s)
    (hx : (s.pump n).sale.map Sale.stake = some x.stake) (hn : ∀ m, (t.pump m).sale = if n = m then none else (s.pump m).sale)
    (ha : ∀ i, if x.buyer.account? = some i then
        (t.account i).holds = (s.account i).holds - x.moneyHold ∧ (t.account i).sale = none
      else (s.account i).SameHolds (t.account i)) : HoldsTied t := by
  have hpayer : payerAt s n = x.buyer.account? := by
    obtain ⟨y, hy, e⟩ := Option.map_eq_some_iff.1 hx
    have hb : y.buyer = x.buyer := congrArg (fun p => p.2.2.1) e
    rw [payerAt, hy, Option.bind_some, hb]
  have hmoney : (s.pump n).sale.elim 0 Sale.moneyHold = x.moneyHold :=
    moneyHold_of_stake (o := some x) hx
  have howner : ∀ m, payerAt t m = if n = m then none else payerAt s m := fun m => by
    unfold payerAt; rw [hn]; split <;> rfl
  have hlink : ∀ i, (t.account i).sale = if x.buyer.account? = some i then none else (s.account i).sale := fun i => by
    have hi := ha i
    split at hi
    · next e => rw [if_pos e]; exact hi.2
    · next e => rw [if_neg e]; exact hi.2.1
  refine ⟨?_, fun i hf => ?_, fun i => ?_⟩
  · cases hb : x.buyer.account? with
    | none =>
      refine w.links.congr (fun m => ?_) fun i => by rw [hlink, hb]; rfl
      rw [howner]; split
      · next e => rw [← e, hpayer, hb]
      · rfl
    | some a => exact w.links.cleared (hpayer.trans hb) howner fun i => by rw [hlink, hb]; simp
  · have hi := ha i
    split at hi
    · exact hi.2
    · exact hi.2.1.trans ((hi.2.2 hf).elim (w.free i) id)
  · have hi := ha i
    unfold moneyHeld
    split at hi
    · next e =>
      have hs : (s.account i).sale = some n := (w.links n i).1 (hpayer.trans e)
      have hw := w.holds i
      rw [moneyHeld, hs, Option.bind_some, hmoney] at hw
      rw [hi.1, hi.2, hw, Nat.sub_self]; rfl
    · next e =>
      rw [hi.1, hi.2.1, w.holds i, moneyHeld]
      cases hs : (s.account i).sale with
      | none => rfl
      | some m =>
        have hne : n ≠ m := fun e' => e (hpayer.symm.trans (e' ▸ (w.links m i).2 hs))
        simp [hn, hne]

theorem SaleEnded.sale {n : PumpId} {x : Sale} {why : SaleEnd} {s t : State} (h : SaleEnded n x why s t) (m : PumpId) :
    (t.pump m).sale = if n = m then none else (s.pump m).sale := by
  obtain ⟨-, hp, -⟩ := h
  rw [State.pump_eq, hp, Table.get_put]
  split <;> rfl

theorem SaleEnded.tank {n : PumpId} {x : Sale} {why : SaleEnd} {s t : State} (h : SaleEnded n x why s t) (k : ProductId) :
    (t.tank k).holds = (s.tank k).holds - volumeOn k (some x) ∧ (t.tank k).cfg = (s.tank k).cfg
      ∧ ((t.tank k).book = (s.tank k).book ∨ (t.tank k).book = max ((s.tank k).book - x.delivered) (t.tank k).holds) := by
  obtain ⟨-, -, ht, -⟩ := h
  rw [State.tank_eq t, ht, Table.get_put]
  split
  · next e => subst e; simp [volumeOn]
  · next e => simp [volumeOn, e, State.tank_eq]

/-- The buyer's hold and link go; every other account keeps its own. -/
theorem SaleEnded.account {n : PumpId} {x : Sale} {why : SaleEnd} {s t : State} (h : SaleEnded n x why s t) (i : AccountId) :
    if x.buyer.account? = some i then
      (t.account i).holds = (s.account i).holds - x.moneyHold ∧ (t.account i).sale = none
    else (s.account i).SameHolds (t.account i) := by
  obtain ⟨-, -, -, hb, -⟩ := h
  cases hx : x.buyer with
  | prepay paid =>
    rw [hx] at hb
    rw [if_neg (by simp [Buyer.account?]), State.account_eq t, hb.2]
    exact .refl _
  | account a =>
    rw [hx] at hb
    obtain ⟨-, ha, -, hi⟩ := hb
    split
    · next e =>
      obtain rfl : a = i := Option.some.inj e
      rw [ha]
      exact ⟨rfl, rfl⟩
    · next e =>
      rw [hi i fun e' => e (e' ▸ rfl)]
      exact .refl _

/-- What an open sale held of its tank goes with it. -/
theorem SaleEnded.covered {n : PumpId} {x : Sale} {why : SaleEnd} {s t : State} (h : SaleEnded n x why s t)
    (hx : (s.pump n).sale.map Sale.stake = some x.stake) (w : Covered s) : Covered t := by
  have hn : (t.pump n).sale = none := by rw [h.sale, if_pos rfl]
  have hm : ∀ m, m ≠ n → (t.pump m).sale = (s.pump m).sale := fun m hm => by rw [h.sale, if_neg fun e => hm e.symm]
  refine ⟨fun k => ?_, fun k => ?_⟩
  · have hv := volumeHeld_change (fun m hne => congrArg (Option.map Sale.stake) (hm m hne)) k
    rw [hn, volumeOn_of_stake (o' := (s.pump n).sale) (o := some x) hx] at hv
    obtain ⟨hholds, -⟩ := h.tank k
    have hsum : (s.tank k).holds = volumeHeld s k := w.sums k
    show (t.tank k).holds = _
    have hnone : volumeOn k none = 0 := rfl
    omega
  · obtain ⟨hholds, -, hbook⟩ := h.tank k
    have hb := w.book k
    omega

/-- An open sale ends: what it held of its tank and of its account goes with it. -/
theorem SaleEnded.keepsStakes {n : PumpId} {x : Sale} {why : SaleEnd} {s t : State} (h : SaleEnded n x why s t)
    (hx : (s.pump n).sale.map Sale.stake = some x.stake) : KeepsStakes s t := by
  refine ⟨fun w c => ⟨h.covered hx w, fun k => ?_⟩, fun w => (w.tied.ended hx h.sale h.account).accountHoldsOk⟩
  obtain ⟨hholds, hcfg, hbook⟩ := h.tank k
  have hb := w.book k
  have hc := c k
  rw [hcfg]
  omega

/-! ### A tank written, and a sale authorised (R124, R128) -/

/-- A tank changed once, with its low flag (R124). -/
theorem settleLow_eq_tankWritten {b s : State} {k : ProductId} (y : Tank) (h : b.tank k = s.tank k) :
    settleLow b k y s = tankWritten k y s := by
  have hlow : y.raisesLow = true ↔ decide (y.book - y.holds < y.cfg.low) = true ∧ y.lowFlag = false := by
    simp only [Tank.raisesLow, Tank.available, Bool.and_eq_true, Bool.not_eq_true']
    exact and_comm
  have hput : putTank b k y.evaluated s = { s with
      tanks := s.tanks.put k
        { y with
          lowFlag := decide (y.book - y.holds < y.cfg.low)
          edition :=
            if { y with lowFlag := decide (y.book - y.holds < y.cfg.low), edition := (s.tank k).edition } = s.tank k then
              (s.tank k).edition
            else (s.tank k).edition + 1 } } := by
    simp only [putTank, h, Tank.settled, editionAfter, beq_iff_eq]
    rfl
  simp only [settleLow, tankWritten, ← hput, hlow]
  rfl

/-- A tank is written beside any change of pumps, accounts and the sale counter. -/
theorem tankWritten_beside (k : ProductId) (y : Tank) (s : State) (accounts : Table Account 512) (pumps : Table Pump 4)
    (number : BitVec 16) :
    { tankWritten k y s with accounts := accounts, pumps := pumps, saleCounter := number }
      = tankWritten k y { s with accounts := accounts, pumps := pumps, saleCounter := number } := by
  unfold tankWritten raise
  dsimp only
  split
  · split <;> rfl
  · rfl

theorem tankWritten_tankEq (k : ProductId) (y : Tank) (s : State) : TankEq s (tankWritten k y s) := by
  unfold tankWritten
  dsimp only
  split
  · exact TankEq.trans (t := { s with tanks := _ }) rfl (raise_noticed_self ..).tankEq
  · rfl

theorem tankWritten_tank (k i : ProductId) (y : Tank) (s : State) :
    ((tankWritten k y s).tank i).stock = if k = i then y.stock else (s.tank i).stock := by
  have h : (tankWritten k y s).tanks = s.tanks.put k ((tankWritten k y s).tank k) := by
    unfold tankWritten
    dsimp only
    split <;> simp [State.tank_eq]
  have hk : ((tankWritten k y s).tank k).stock = y.stock := by
    unfold tankWritten
    dsimp only
    split <;> simp [State.tank_eq, Tank.stock]
  rw [State.tank_eq _ i, h, Table.get_put]
  split
  · exact hk
  · rfl

/-- A pump whose order, sale or link changes is written (R122). -/
theorem Pump.settled_of_not_same {base x : Pump} (h : x.sameCounted base = false) :
    base.settled x = { x with edition := base.edition + 1 } := by
  simp only [Pump.settled, editionAfter, h, Bool.false_eq_true, if_false]

theorem Pump.settled_of_sale {base x : Pump} (h : x.sale ≠ base.sale) :
    base.settled x = { x with edition := base.edition + 1 } :=
  Pump.settled_of_not_same (by simp [Pump.sameCounted, h])

/-- What a SELL that passes writes on the pump: the sale, its order, the no-lift timer (R128). -/
def soldPump (n : PumpId) (x : Sale) (s : State) : Pump :=
  { s.pump n with
    sale := some x, order := .authorise x.number x.limit, timer := some (x.start.plus 120)
    edition := (s.pump n).edition + 1 }

/-- The accounts once `cents` are held of the buyer for the sale of pump `n` (R128 step 3). -/
def accountsHeld (buyer : Buyer) (n : PumpId) (cents : Nat) (s : State) : Table Account 512 :=
  match buyer with
  | .prepay _ => s.accounts
  | .account a => s.accounts.put a
      { s.account a with holds := (s.account a).holds + cents, sale := some n, edition := (s.account a).edition + 1 }

theorem holdMoney_eq {buyer : Buyer} {n : PumpId} {s u : State} (cents : Nat) (hu : u.accounts = s.accounts)
    (ha : ∀ a, buyer = .account a → (s.account a).sale = none) :
    holdMoney s buyer n cents u = { u with accounts := accountsHeld buyer n cents s } := by
  cases buyer with
  | prepay paid => rw [accountsHeld, ← hu]; rfl
  | account a =>
    have hne : some n ≠ (s.account a).sale := by rw [ha a rfl]; exact nofun
    have hx : u.account a = s.account a := by rw [State.account_eq u, hu]; rfl
    simp only [holdMoney, modAccount, hx]
    rw [putAccount_of_ne fun e => hne (congrArg Account.sale e), hu]
    rfl

/-- The effect of a SELL on a pump without a sale, for an account without one. -/
theorem authorise_eq {n : PumpId} {x : Sale} {s : State} (hn : (s.pump n).sale = none)
    (ha : ∀ a, x.buyer = .account a → (s.account a).sale = none) :
    authorise s n x s =
      tankWritten x.product { s.tank x.product with holds := (s.tank x.product).holds + x.volumeHold }
        { s with
          accounts := accountsHeld x.buyer n x.moneyHold s, pumps := s.pumps.put n (soldPump n x s)
          saleCounter := s.saleCounter + 1 } := by
  have hpump : (s.pump n).settled { s.pump n with
      sale := some x, order := .authorise x.number x.limit, timer := some (x.start.plus Config.noLiftSeconds) }
      = soldPump n x s := Pump.settled_of_sale (by rw [hn]; exact nofun)
  unfold authorise
  dsimp only
  generalize hy : ({ s.tank x.product with holds := (s.tank x.product).holds + x.volumeHold } : Tank) = y
  have hbeside := tankWritten_beside x.product y { s with saleCounter := s.saleCounter + 1 }
  have hsettles := settleLow_eq_tankWritten (b := s) (s := { s with saleCounter := s.saleCounter + 1 }) (k := x.product) y rfl
  rw [← hsettles] at hbeside
  refine Eq.trans ?_ (hbeside _ _ _)
  have heq := settleLow_tankEq s x.product y { s with saleCounter := s.saleCounter + 1 }
  generalize settleLow s x.product y _ = u at heq ⊢
  have haccounts : u.accounts = s.accounts := by rw [heq]
  have hpumps : u.pumps = s.pumps := by rw [heq]
  have hcounter : u.saleCounter = s.saleCounter + 1 := by rw [heq]
  rw [holdMoney_eq x.moneyHold haccounts ha, putPump, hpump, ← hcounter, ← hpumps]

/-- Pump `n`, which had no sale, has the sale `x`, and its payer, who had none, the hold and the link. -/
theorem HoldsTied.sold {s t : State} {n : PumpId} {x : Sale} (w : HoldsTied s) (hs : (s.pump n).sale = none)
    (hn : ∀ m, (t.pump m).sale = if n = m then some x else (s.pump m).sale)
    (ha : ∀ i, if x.buyer.account? = some i then
        (s.account i).sale = none ∧ (t.account i).holds = (s.account i).holds + x.moneyHold
          ∧ (t.account i).sale = some n ∧ (t.account i).state ≠ .free
      else (s.account i).SameHolds (t.account i)) : HoldsTied t := by
  have howner : ∀ m, payerAt t m = if n = m then x.buyer.account? else payerAt s m := fun m => by
    unfold payerAt; rw [hn]; split <;> rfl
  have hfree : payerAt s n = none := by rw [payerAt, hs]; rfl
  have hlink : ∀ i, (t.account i).sale = if x.buyer.account? = some i then some n else (s.account i).sale := fun i => by
    have hi := ha i
    split at hi
    · next e => rw [if_pos e]; exact hi.2.2.1
    · next e => rw [if_neg e]; exact hi.2.1
  refine ⟨?_, fun i hf => ?_, fun i => ?_⟩
  · cases hb : x.buyer.account? with
    | none =>
      refine w.links.congr (fun m => ?_) fun i => by rw [hlink, hb]; rfl
      rw [howner, hb]; split
      · next e => rw [← e, hfree]
      · rfl
    | some a =>
      have hi := ha a
      rw [if_pos hb] at hi
      refine w.links.joined hfree hi.1 (fun m => ?_) fun i => ?_
      · rw [howner, hb]
      · rw [hlink, hb]; simp
  · have hi := ha i
    split at hi
    · exact absurd hf hi.2.2.2
    · exact hi.2.1.trans ((hi.2.2 hf).elim (w.free i) id)
  · have hi := ha i
    have hw := w.holds i
    unfold moneyHeld at hw ⊢
    split at hi
    · rw [hi.1] at hw
      rw [hi.2.1, hi.2.2.1, hw]
      simp [hn]
    · rw [hi.1, hi.2.1, hw]
      cases hsi : (s.account i).sale with
      | none => rfl
      | some m =>
        have hne : n ≠ m := fun e' => by
          have hm := (w.links m i).2 hsi
          rw [← e', hfree] at hm
          cases hm
        simp [hn, hne]

theorem accountsHeld_get (buyer : Buyer) (n : PumpId) (cents : Nat) (s : State) (i : AccountId) :
    (accountsHeld buyer n cents s).get i =
      if buyer.account? = some i then
        { s.account i with holds := (s.account i).holds + cents, sale := some n, edition := (s.account i).edition + 1 }
      else s.account i := by
  cases buyer with
  | prepay paid => rfl
  | account a =>
    simp only [accountsHeld, Table.get_put, Buyer.account?, Option.some.injEq]
    split
    · next e => rw [e]
    · rfl

/-- A SELL for what the tank has over its holds, on a pump and an account without a sale. -/
theorem authorise_keepsStakes {n : PumpId} {x : Sale} {s : State} (hn : (s.pump n).sale = none)
    (ha : ∀ a, x.buyer = .account a → (s.account a).sale = none ∧ (s.account a).state ≠ .free)
    (hv : x.volumeHold ≤ (s.tank x.product).book - (s.tank x.product).holds) : KeepsStakes s (authorise s n x s) := by
  rw [authorise_eq hn fun a hb => (ha a hb).1]
  have hframe := tankWritten_tankEq x.product
    { s.tank x.product with holds := (s.tank x.product).holds + x.volumeHold }
    { s with
      accounts := accountsHeld x.buyer n x.moneyHold s, pumps := s.pumps.put n (soldPump n x s)
      saleCounter := s.saleCounter + 1 }
  have htank := fun k => tankWritten_tank x.product k
    { s.tank x.product with holds := (s.tank x.product).holds + x.volumeHold }
    { s with
      accounts := accountsHeld x.buyer n x.moneyHold s, pumps := s.pumps.put n (soldPump n x s)
      saleCounter := s.saleCounter + 1 }
  generalize tankWritten _ _ _ = t at hframe htank ⊢
  have hpump : ∀ m, (t.pump m).sale = if n = m then some x else (s.pump m).sale := fun m => by
    rw [State.pump_eq, show t.pumps = _ by rw [hframe], Table.get_put]
    split <;> rfl
  have hstock : ∀ k, (t.tank k).book = (s.tank k).book ∧ (t.tank k).holds = (s.tank k).holds + volumeOn k (some x)
      ∧ (t.tank k).cfg.capacity = (s.tank k).cfg.capacity := fun k => by
    have hk := htank k
    split at hk <;> obtain ⟨hb, hh, hc⟩ := Tank.stock_eq hk
    · next e => subst e; exact ⟨hb, by simpa [volumeOn] using hh, hc⟩
    · next e => exact ⟨hb, by rw [volumeOn, Option.elim, if_neg e]; exact hh, hc⟩
  refine ⟨fun w c => ⟨⟨fun k => ?_, fun k => ?_⟩, fun k => ?_⟩, fun w => (w.tied.sold hn hpump fun i => ?_).accountHoldsOk⟩
  · have hsum := volumeHeld_change (n := n) (s := s) (t := t) (fun m hm => by rw [hpump, if_neg fun e => hm e.symm]) k
    rw [hpump, if_pos rfl, hn] at hsum
    obtain ⟨-, hholds, -⟩ := hstock k
    have hk : (s.tank k).holds = volumeHeld s k := w.sums k
    have hnone : volumeOn k none = 0 := rfl
    show (t.tank k).holds = _
    omega
  · obtain ⟨hbook, hholds, -⟩ := hstock k
    have hk := w.book k
    rw [hbook, hholds, volumeOn, Option.elim]
    split
    · next e => subst e; omega
    · exact hk
  · obtain ⟨hbook, -, hcap⟩ := hstock k
    rw [hbook, hcap]; exact c k
  · have hi := accountsHeld_get x.buyer n x.moneyHold s i
    rw [show (accountsHeld x.buyer n x.moneyHold s).get i = t.account i by rw [State.account_eq t, hframe]] at hi
    split at hi
    · next e =>
      obtain ⟨hsale, hstate⟩ := ha i (Buyer.account?_eq_some.1 e)
      rw [if_pos e, hi]
      exact ⟨hsale, rfl, rfl, hstate⟩
    · next e => rw [if_neg e, hi]; exact .refl _

theorem leastOf_le (n : Nat) (l : List (Option Nat)) : leastOf n l ≤ n := by
  induction l with
  | nil => exact le_rfl
  | cons o l ih => cases o with
    | none => exact ih
    | some m => exact (Nat.min_le_right ..).trans ih

theorem Pump.ready_sale {x : Pump} (h : x.ready = true) : x.sale = none := by
  simp only [Pump.ready, Bool.and_eq_true, Option.isNone_iff_eq_none] at h
  exact h.1.2

/-- The buyer's account passes the checks of R126 only with no open sale, and not FREE. -/
theorem buyerRefusal_none {s : State} {a : AccountId} {rate : Nat} (h : buyerRefusal s (.account a) rate = none) :
    (s.account a).sale = none ∧ (s.account a).state ≠ .free := by
  unfold buyerRefusal at h
  dsimp only at h
  split at h
  · cases h
  · next hf =>
    split at h
    · cases h
    · split at h
      · cases h
      · split at h
        · cases h
        · next hs => exact ⟨not_not.1 hs, hf⟩

theorem sellOwner_keepsStakes {k : Nat} {kind : SellKind} {preset : Option Preset} {s t : State} {lines : List ReplyLine}
    (h : sellOwner k kind preset s = .ok (t, lines)) : KeepsStakes s t := by
  unfold sellOwner at h
  dsimp only at h
  split at h
  · next n buyer _ _ _ =>
    split at h
    · cases h
    · split at h
      · cases h
      · next hready =>
        split at h
        · cases h
        · next hbuyer =>
          split at h
          · cases h
          · obtain ⟨rfl, -⟩ := done_eq h
            refine authorise_keepsStakes (Pump.ready_sale (by simpa using hready)) (fun a hb => ?_) ?_
            · change buyer = _ at hb
              subst hb
              exact buyerRefusal_none hbuyer
            · show saleLimit .. ≤ _
              exact (Nat.min_le_left ..).trans ((leastOf_le ..).trans (Nat.sub_le ..))
  · cases h

/-! ### Writes that no law of holds reads -/

theorem Served.sameStakes {s t : State} (h : Served s t) : SameStakes s t where
  accounts a := by rw [h.links a]; exact ⟨rfl, rfl, .inl⟩
  sales n := by rw [h.eq]; rfl
  tanks k := by rw [h.eq]; rfl

theorem SameStakes.served {s t u : State} (h : SameStakes s t) (k : Served t u) : SameStakes s u := h.trans k.sameStakes

theorem raise_sameStakes {s t : State} (c : NoticeClass) (i : NoticeInfo) (h : SameStakes s t) :
    SameStakes s (raise c i t) := h.served (raise_served c i (.refl t))

theorem StartEq.sameStakes {s t : State} (h : StartEq s t) : SameStakes s t := by rw [h]; exact .same rfl rfl rfl

theorem putAccount_sameStakes {s t : State} (b : State) (a : AccountId) {x : Account} (hx : (t.account a).SameHolds x)
    (h : SameStakes s t) : SameStakes s (putAccount b a x t) :=
  h.trans ⟨fun i => by
    rw [putAccount_account]; split
    · next e => exact e ▸ hx
    · exact .refl _, fun _ => rfl, fun _ => rfl⟩

theorem modAccount_sameStakes {s t : State} (b : State) (a : AccountId) {f : Account → Account}
    (hf : ∀ x : Account, x.SameHolds (f x)) (h : SameStakes s t) : SameStakes s (modAccount b a f t) :=
  putAccount_sameStakes b a (hf _) h

/-- A pump is written that keeps its open sale, or what that holds. -/
theorem putPump_sameStakes {s t : State} (b : State) (n : PumpId) {x : Pump}
    (hx : x.sale.map Sale.stake = (t.pump n).sale.map Sale.stake) (h : SameStakes s t) : SameStakes s (putPump b n x t) :=
  h.trans ⟨fun _ => .refl _, fun m => by
    rw [putPump_pump]; split
    · next e => exact e ▸ hx
    · rfl, fun _ => rfl⟩

theorem eachId_sameStakes {n : Nat} {f : Fin n → State → State} (hf : ∀ i s, SameStakes s (f i s)) (s : State) :
    SameStakes s (eachId n f s) := eachId_keeps (P := SameStakes s) (fun i _ h => h.trans (hf i _)) (.refl s)

theorem eachId_keepsStakes {n : Nat} {f : Fin n → State → State} (hf : ∀ i s, KeepsStakes s (f i s)) (s : State) :
    KeepsStakes s (eachId n f s) := eachId_keeps (P := KeepsStakes s) (fun i _ h => h.trans (hf i _)) (.refl s)

theorem portCommand_keepsStakes {i : Instr} {o : Origin} {ports : List PortId} {adm : Admission}
    {owner : State → Answer} {s : State} (ho : ∀ {t lines}, owner s = .ok (t, lines) → KeepsStakes s t) :
    KeepsStakes s (portCommand i o ports adm owner s) :=
  portCommand_keeps (fun _ _ h => h.trans (.same rfl rfl rfl)) ho (.refl s)

theorem event_keepsStakes {f : State → State} {s : State} (hf : KeepsStakes s (f s)) : KeepsStakes s (event f s) :=
  event_keeps (fun _ => hf) (.refl s)

/-! ### Money -/

theorem evaluateStanding_sameStakes {s t : State} (b : State) (a : AccountId) (h : SameStakes s t) :
    SameStakes s (evaluateStanding b a t) := by
  rcases evaluateStanding_cases b a t with ⟨e, -⟩ | w
  · rw [e]; exact h
  · exact (putAccount_sameStakes b a (x := evaluatedAccount t a) ⟨rfl, rfl, .inl⟩ h).served w

theorem debitAccount_sameStakes {s t : State} (b : State) (a : AccountId) (cents : Nat) (h : SameStakes s t) :
    SameStakes s (debitAccount b a cents t) := by
  unfold debitAccount
  refine evaluateStanding_sameStakes b a ?_
  split
  · exact putAccount_sameStakes b a ⟨rfl, rfl, .inl⟩ h
  · exact raise_sameStakes _ _ (putAccount_sameStakes b a ⟨rfl, rfl, .inl⟩ h)

theorem applyCharge_sameStakes {s t : State} (b : State) (a : AccountId) (v : Service) (cents residue : Nat)
    (h : SameStakes s t) : SameStakes s (applyCharge b a v cents residue t) :=
  debitAccount_sameStakes b a cents (modAccount_sameStakes b a (fun _ => ⟨rfl, rfl, .inl⟩) h)

theorem charge_sameStakes {s t : State} (b : State) (a : AccountId) (v : Service) (q : Nat) (d : Band)
    (h : SameStakes s t) : SameStakes s (charge b a v q d t) := applyCharge_sameStakes b a v _ _ h

theorem chargeNights_sameStakes {s t : State} (b : State) (a : AccountId) (day : Int) (d : Band) (h : SameStakes s t) :
    SameStakes s (chargeNights b a day d t) := by
  unfold chargeNights; dsimp only
  split
  · exact h
  · exact modAccount_sameStakes b a (fun _ => ⟨rfl, rfl, .inl⟩) (applyCharge_sameStakes b a _ _ _ h)

theorem settleStay_sameStakes {s t : State} (b : State) (a : AccountId) (h : SameStakes s t) :
    SameStakes s (settleStay b a t).1 := by
  unfold settleStay; dsimp only
  split
  · exact charge_sameStakes b a _ _ _ (chargeNights_sameStakes b a _ _ h)
  · exact chargeNights_sameStakes b a _ _ h

theorem evaluateClass_sameStakes {s t : State} (b : State) (c : ClassId) (h : SameStakes s t) :
    SameStakes s (evaluateClass b c t) :=
  h.trans (eachId_sameStakes (fun a u => by
    split
    · exact evaluateStanding_sameStakes b a (.refl u)
    · exact .refl u) t)

theorem arrearsPart_sameStakes {s t : State} (b : State) (a : AccountId) (h : SameStakes s t) :
    SameStakes s (arrearsPart b a t) := by
  unfold arrearsPart; dsimp only
  split
  · have w := putAccount_sameStakes b a
      (x := { t.account a with arrearsNights := min ((t.account a).arrearsNights + 1) Config.arrearsLimit })
      ⟨rfl, rfl, .inl⟩ h
    split
    · exact w.served (toPower_served a (fun _ _ v => suspendPower_served _ _ _ v) (.refl _))
    · exact w
  · exact h

/-! ### Pedestal replies (05) -/

theorem energyDelta_sameStakes {s t : State} (b : State) (k : SocketId) (q : Option Nat) (h : SameStakes s t) :
    SameStakes s (energyDelta b k q t) := by
  unfold energyDelta
  split
  · exact charge_sameStakes b _ _ _ _ (h.served (putPower_served b k _ (.refl t)))
  · exact raise_sameStakes _ _ (h.served (putPower_served b k _ (.refl t)))
  · exact h.trans (.same rfl rfl rfl)
  · exact raise_sameStakes _ _ h

theorem waterDelta_sameStakes {s t : State} (b : State) (k : TapId) (q : Option Nat) (h : SameStakes s t) :
    SameStakes s (waterDelta b k q t) := by
  unfold waterDelta
  split
  · exact (charge_sameStakes b _ _ _ _ (h.served (putWater_served b k _ (.refl t)))).served
      (applyWaterCap_served b k (.refl _))
  · exact raise_sameStakes _ _ (h.served (putWater_served b k _ (.refl t)))
  · exact h.trans (.same rfl rfl rfl)
  · exact raise_sameStakes _ _ h

theorem deliverSocket_sameStakes {s t : State} (n : PedestalId) (w : Bool) (fs : List Nat) (i : Fin 2)
    (h : SameStakes s t) : SameStakes s (deliverSocket n w fs i t) := by
  unfold deliverSocket; dsimp only
  refine SameStakes.served ?_ (powerAgreement_served _ _ (.refl _))
  have hd : SameStakes s (if w then energyDelta t (socketAt n i) (unpack (socketReport fs i).energy) t else t) := by
    split
    · exact energyDelta_sameStakes _ _ _ h
    · exact h
  split
  · exact hd.served (powerTrip_served _ _ (.refl _))
  · exact hd

theorem deliverTap_sameStakes {s t : State} (n : PedestalId) (w : Bool) (fs : List Nat) (h : SameStakes s t) :
    SameStakes s (deliverTap n w fs t) := by
  unfold deliverTap; dsimp only
  split
  · refine SameStakes.served ?_ (valveAgreement_served _ _ (.refl _))
    split
    · exact waterDelta_sameStakes _ _ _ h
    · exact h
  · exact h

theorem putPedestal_sameStakes {s t : State} (b : State) (n : PedestalId) (x : Pedestal) (h : SameStakes s t) :
    SameStakes s (putPedestal b n x t) := h.trans (.same rfl rfl rfl)

theorem deliver_sameStakes {s t : State} (n : PedestalId) (fs : List Nat) (h : SameStakes s t) :
    SameStakes s (deliver n fs t) := by
  unfold deliver; dsimp only
  refine SameStakes.served (deliverTap_sameStakes _ _ _ (eachOf_keeps (P := SameStakes s)
    (fun i _ w => deliverSocket_sameStakes _ _ _ i w) _ ?_)) (currentReport_served _ _ _ (.refl _))
  have w := putPedestal_sameStakes t n ((t.pedestal n).answered fs) h
  split
  · exact raise_sameStakes _ _ w
  · exact w

theorem miss_sameStakes {s t : State} (n : PedestalId) (o : PollOutcome) (h : SameStakes s t) :
    SameStakes s (miss n o t) := by
  unfold miss; dsimp only
  have w := putPedestal_sameStakes t n ((t.pedestal n).missed o) h
  split
  · exact raise_sameStakes _ _ w
  · exact w

/-! ### Vessel accounts (01) and berths (03) -/

/-- A FREE account has no sale and holds nothing, and so it is opened (R13, R14). -/
theorem openThis_keepsStakes {a : AccountId} {s t : State} {lines : List ReplyLine} (hf : (s.account a).state = .free)
    (h : openThis a s = .ok (t, lines)) : KeepsStakes s t := by
  obtain ⟨rfl, -⟩ := done_eq h
  refine ⟨fun w c => ⟨⟨w.sums, w.book⟩, c⟩, fun w => HoldsTied.accountHoldsOk (w.tied.of_same (fun i => ?_) fun _ => rfl)⟩
  rw [modAccount_account]
  split
  · next e =>
    subst e
    have hsale := w.tied.free a hf
    have hholds := w.tied.holds a
    rw [moneyHeld, hsale] at hholds
    exact ⟨hholds.symm, hsale.symm, fun _ => .inl hf⟩
  · exact .refl _

theorem openAccountOwner_keepsStakes {n : Option Nat} {s t : State} {lines : List ReplyLine}
    (h : openAccountOwner n s = .ok (t, lines)) : KeepsStakes s t := by
  unfold openAccountOwner at h
  split at h
  · split at h
    · cases h
    · next hf => exact openThis_keepsStakes (lowestFree_state hf) h
  · split at h
    · cases h
    · split at h
      · next hf => exact openThis_keepsStakes hf h
      · cases h

theorem revokeAll_sameStakes {s t : State} (b : State) (a : AccountId) (h : SameStakes s t) :
    SameStakes s (revokeAll b a t) := by
  have hw := revokeAll_worked b a (.refl t)
  refine h.trans ⟨fun i => ?_, fun n => by rw [hw.eq]; rfl, fun k => by rw [hw.eq]; rfl⟩
  rw [revokeAll_account]
  split
  · next e => subst e; exact ⟨rfl, rfl, .inl⟩
  · exact .refl _

/-- An account is closed without an open sale (R14). -/
theorem closeThis_sameStakes {a : AccountId} {s t : State} {lines : List ReplyLine}
    (h : closeThis a s = .ok (t, lines)) : SameStakes s t := by
  have hsale : (s.account a).sale = none := by
    unfold closeThis at h; dsimp only at h
    repeat' split at h
    all_goals first | cases h; done | exact not_not.1 ‹_›
  rw [closeThis_ok h]
  have hr := revokeAll_sameStakes s a (.refl s)
  refine putAccount_sameStakes s a ⟨rfl, rfl, fun _ => .inr ?_⟩ hr
  exact (hr.accounts a).2.1.trans hsale

theorem putThenEvaluate_sameStakes (a : AccountId) {x : Account} {s : State} (hx : (s.account a).SameHolds x) :
    SameStakes s (evaluateStanding s a (putAccount s a x s)) :=
  evaluateStanding_sameStakes s a (putAccount_sameStakes s a hx (.refl s))

theorem creditThis_sameStakes {n : Nat} {a : AccountId} {s t : State} {lines : List ReplyLine}
    (h : creditThis n a s = .ok (t, lines)) : SameStakes s t := by
  unfold creditThis at h; dsimp only at h
  split at h
  · cases h
  · split at h
    · cases h
    · obtain ⟨rfl, -⟩ := done_eq h
      exact putThenEvaluate_sameStakes a ⟨rfl, rfl, .inl⟩

theorem debitThis_sameStakes {n : Nat} {a : AccountId} {s t : State} {lines : List ReplyLine}
    (h : debitThis n a s = .ok (t, lines)) : SameStakes s t := by
  unfold debitThis at h; dsimp only at h
  split at h
  · cases h
  · obtain ⟨rfl, -⟩ := done_eq h
    exact debitAccount_sameStakes s a n (.refl s)

theorem barThis_sameStakes {a : AccountId} {s t : State} {lines : List ReplyLine}
    (h : barThis a s = .ok (t, lines)) : SameStakes s t := by
  unfold barThis at h; dsimp only at h
  split at h <;> obtain ⟨rfl, -⟩ := done_eq h
  · exact .refl _
  · exact putThenEvaluate_sameStakes a ⟨rfl, rfl, .inl⟩

theorem unbarThis_sameStakes {a : AccountId} {s t : State} {lines : List ReplyLine}
    (h : unbarThis a s = .ok (t, lines)) : SameStakes s t := by
  unfold unbarThis at h; dsimp only at h
  split at h <;> obtain ⟨rfl, -⟩ := done_eq h
  · exact putThenEvaluate_sameStakes a ⟨rfl, rfl, .inl⟩
  · exact .refl _

theorem withPlanned_sameHolds (p : Option Int) {x y : Account} (h : x.SameHolds y) : x.SameHolds (withPlanned p y) := by
  cases p <;> exact h

theorem makeReservation_sameStakes (a : AccountId) (n : BerthId) (d : Int) (p : Option Int) (s : State) :
    SameStakes s (makeReservation s a n d p s) :=
  modAccount_sameStakes s a (fun _ => withPlanned_sameHolds p ⟨rfl, rfl, nofun⟩) (.same rfl rfl rfl)

theorem makeArrival_sameStakes (a : AccountId) (n : BerthId) (p : Option Int) (s : State) :
    SameStakes s (makeArrival s a n p s) :=
  raise_sameStakes _ _
    (modAccount_sameStakes s a (fun _ => withPlanned_sameHolds p ⟨rfl, rfl, nofun⟩) (.same rfl rfl rfl))

theorem releaseReservation_sameStakes {s t : State} (b : State) (a : AccountId) (n : BerthId) (h : SameStakes s t) :
    SameStakes s (releaseReservation b a n t) :=
  modAccount_sameStakes b a (fun _ => ⟨rfl, rfl, nofun⟩) (h.trans (.same rfl rfl rfl))

theorem allocateOwner_sameStakes {n : Nat} {ps : Pontoons} {d : DateField} {p : Option DateField} {s t : State}
    {lines : List ReplyLine} (h : allocateOwner n ps d p s = .ok (t, lines)) : SameStakes s t := by
  unfold allocateOwner done at h
  repeat' split at h
  all_goals cases h
  exact makeReservation_sameStakes ..

theorem reserveOwner_sameStakes {n m : Nat} {d : DateField} {p : Option DateField} {force : Bool} {s t : State}
    {lines : List ReplyLine} (h : reserveOwner n m d p force s = .ok (t, lines)) : SameStakes s t := by
  unfold reserveOwner done at h
  repeat' split at h
  all_goals cases h
  exact makeReservation_sameStakes ..

theorem cancelThis_sameStakes {a : AccountId} {s t : State} {lines : List ReplyLine}
    (h : cancelThis a s = .ok (t, lines)) : SameStakes s t := by
  unfold cancelThis done at h
  split at h <;> cases h
  exact releaseReservation_sameStakes s a _ (.refl s)

theorem arriveOwner_sameStakes {n : Nat} {m : Option Nat} {p : Option DateField} {force : Bool} {s t : State}
    {lines : List ReplyLine} (h : arriveOwner n m p force s = .ok (t, lines)) : SameStakes s t := by
  unfold arriveOwner done at h
  repeat' split at h
  all_goals cases h
  exact makeArrival_sameStakes ..

theorem moveOwner_sameStakes {n m : Nat} {force : Bool} {s t : State} {lines : List ReplyLine}
    (h : moveOwner n m force s = .ok (t, lines)) : SameStakes s t := by
  unfold moveOwner moveThis done at h; dsimp only at h
  repeat' split at h
  all_goals cases h
  exact modAccount_sameStakes s _ (fun _ => ⟨rfl, rfl, .inl⟩) (.same rfl rfl rfl)

theorem completeDeparture_sameStakes {s t : State} (b : State) (a : AccountId) (n : BerthId) (cents : Nat)
    (h : SameStakes s t) : SameStakes s (completeDeparture b a n cents t) := by
  refine raise_sameStakes _ _ (modAccount_sameStakes b a (fun _ => ⟨rfl, rfl, nofun⟩)
    (SameStakes.trans (t := (if (t.classOf (t.account a)).revokeAtDeparture then revokeAll b a else id) t) ?_ (.same rfl rfl rfl)))
  split
  · exact revokeAll_sameStakes b a h
  · exact h

theorem departThis_sameStakes {a : AccountId} {s t : State} {lines : List ReplyLine}
    (h : departThis a s = .ok (t, lines)) : SameStakes s t := by
  have hu := settleStay_sameStakes s a (.refl s)
  unfold departThis at h; dsimp only at h
  generalize settleStay s a s = settled at h hu
  split at h
  · split at h
    · cases h
    · obtain ⟨rfl, -⟩ := done_eq h
      exact completeDeparture_sameStakes s a _ _ (hu.served (closeSessions_served s a (.refl _)))
  · cases h

/-! ### Clock and rollover (04) -/

theorem testRollover_sameStakes {s t : State} (h : SameStakes s t) : SameStakes s (testRollover t) :=
  h.trans (by rw [testRollover_eq]; exact .same rfl rfl rfl)

theorem setClockOwner_sameStakes {d : DateField} {c : TimeField} {s t : State} {lines : List ReplyLine}
    (h : setClockOwner d c s = .ok (t, lines)) : SameStakes s t := by
  unfold setClockOwner done at h; dsimp only at h
  repeat' split at h
  all_goals cases h
  exact testRollover_sameStakes (.same rfl rfl rfl)

theorem rolloverStatePart_sameStakes (b : State) (a : AccountId) (day : Int) (s : State) :
    SameStakes s (rolloverStatePart b a day s) := by
  unfold rolloverStatePart
  split
  · have w := chargeNights_sameStakes b a day (bandOfRollover s) (.refl s)
    unfold raiseOverstay; dsimp only
    split
    · exact w
    · split
      · exact raise_sameStakes _ _ w
      · exact w
  · unfold expireReservation; dsimp only
    split
    · exact .refl s
    · split
      · exact raise_sameStakes _ _ (releaseReservation_sameStakes b a _ (.refl s))
      · exact .refl s
  · exact .refl s
  · exact .refl s

theorem stepAccount_sameStakes (b : State) (a : AccountId) (day : Int) (s : State) :
    SameStakes s (stepAccount b a day s) := by
  unfold stepAccount; dsimp only
  split
  · exact .refl s
  · exact modAccount_sameStakes b a (fun _ => ⟨rfl, rfl, .inl⟩)
      (arrearsPart_sameStakes b a (rolloverStatePart_sameStakes b a day s))

theorem rolloverStep_sameStakes (s : State) : SameStakes s (rolloverStep s) := by
  unfold rolloverStep
  split
  · exact .refl s
  · split
    · exact .refl s
    · exact (stepAccount_sameStakes s _ _ s).trans (.same rfl rfl rfl)

theorem rolloverComplete_sameStakes (s : State) : SameStakes s (rolloverComplete s) := by
  unfold rolloverComplete
  split
  · exact .refl s
  · split
    · exact testRollover_sameStakes (raise_sameStakes _ _ (.same rfl rfl rfl))
    · exact .refl s

/-! ### Pontoon bus (05) -/

theorem pollDue_sameStakes (g : SegmentId) (s : State) : SameStakes s (pollDue g s) := by
  unfold pollDue; split <;> exact .same rfl rfl rfl

theorem pollSend_sameStakes (g : SegmentId) (s : State) : SameStakes s (pollSend g s) := by
  unfold pollSend; dsimp only
  split
  · split <;> exact .same rfl rfl rfl
  · exact .refl s

theorem putSegment_sameStakes (g : SegmentId) (x : Segment) (s : State) : SameStakes s (putSegment g x s) :=
  .same rfl rfl rfl

theorem lineBusy_sameStakes (g : SegmentId) (s : State) : SameStakes s (lineBusy g s) := by
  unfold lineBusy; dsimp only
  split
  · split
    · exact .refl s
    · exact miss_sameStakes _ _ (putSegment_sameStakes ..)
  · exact .refl s

theorem pedestalReply_sameStakes (g : SegmentId) (s : State) : SameStakes s (pedestalReply g s) := by
  unfold pedestalReply; dsimp only
  split
  · exact .refl s
  · split
    · exact .refl s
    · split
      · exact deliver_sameStakes _ _ (putSegment_sameStakes ..)
      · exact miss_sameStakes _ _ (putSegment_sameStakes ..)

theorem noReply_sameStakes (g : SegmentId) (s : State) : SameStakes s (noReply g s) := by
  unfold noReply; dsimp only
  split
  · exact .refl s
  · split
    · exact miss_sameStakes _ _ (putSegment_sameStakes ..)
    · exact .refl s

theorem replyByte_sameStakes (g : SegmentId) (byte : Byte) (s : State) : SameStakes s (replyByte g byte s) := by
  unfold replyByte; dsimp only
  split
  · exact .refl s
  · split <;> exact .same rfl rfl rfl

/-! ### The fuel dock (07) -/

theorem settleLow_stock (b : State) (k i : ProductId) (y : Tank) (s : State) :
    ((settleLow b k y s).tank i).stock = if k = i then y.stock else (s.tank i).stock := by
  have hput : ((putTank b k y.evaluated s).tank i).stock = if k = i then y.stock else (s.tank i).stock := by
    simp only [State.tank_eq, putTank, Table.get_put]
    split <;> rfl
  unfold settleLow
  dsimp only
  split
  · rw [State.tank_eq, raise_tanks]; exact hput
  · exact hput

theorem settleLow_sales {s u : State} (b : State) (k : ProductId) (y : Tank) (hu : SameStakes s u) (n : PumpId) :
    ((settleLow b k y u).pump n).sale.map Sale.stake = (s.pump n).sale.map Sale.stake := by
  rw [settleLow_tankEq b k y u]; exact hu.sales n

theorem settleLow_holds {s u : State} (b : State) (k i : ProductId) {y : Tank} (hu : SameStakes s u)
    (hholds : y.holds = (s.tank k).holds) : ((settleLow b k y u).tank i).holds = (s.tank i).holds := by
  have hi := settleLow_stock b k i y u
  split at hi <;> obtain ⟨-, hh, -⟩ := Tank.stock_eq hi
  · next e => exact hh.trans (e ▸ hholds)
  · exact hh.trans (Tank.stock_eq (hu.tanks i)).2.1

/-- A tank is written whose holds stay what they were, and that covers them. -/
theorem settleLow_covered {s u : State} (b : State) (k : ProductId) {y : Tank} (hu : SameStakes s u)
    (hholds : y.holds = (s.tank k).holds) (hbook : y.holds ≤ y.book) (w : Covered s) : Covered (settleLow b k y u) := by
  refine w.of_holds (settleLow_sales b k y hu) (fun i => settleLow_holds b k i hu hholds) fun i => ?_
  have hi := settleLow_stock b k i y u
  split at hi
  · obtain ⟨hb, hh, -⟩ := Tank.stock_eq hi
    rw [hb, hh]; exact hbook
  · obtain ⟨hb, hh, -⟩ := Tank.stock_eq (hi.trans (hu.tanks i))
    rw [hb, hh]; exact w.book i

theorem settleLow_capacity {s u : State} (b : State) (k i : ProductId) {y : Tank} (hu : SameStakes s u)
    (hy : y.book ≤ y.cfg.capacity) (hi : k ≠ i → (s.tank i).book ≤ (s.tank i).cfg.capacity) :
    ((settleLow b k y u).tank i).book ≤ ((settleLow b k y u).tank i).cfg.capacity := by
  have hstock := settleLow_stock b k i y u
  split at hstock
  · obtain ⟨hb, -, hc⟩ := Tank.stock_eq hstock
    rw [hb, hc]; exact hy
  · next e =>
    obtain ⟨hb, -, hc⟩ := Tank.stock_eq (hstock.trans (hu.tanks i))
    rw [hb, hc]; exact hi e

/-- A tank is written whose holds stay what they were, within its book and its book within its capacity. -/
theorem settleLow_keepsStakes {s u : State} (b : State) (k : ProductId) {y : Tank} (hu : SameStakes s u)
    (hholds : y.holds = (s.tank k).holds)
    (hy : (s.tank k).holds ≤ (s.tank k).book → (s.tank k).book ≤ (s.tank k).cfg.capacity →
      y.holds ≤ y.book ∧ y.book ≤ y.cfg.capacity) : KeepsStakes s (settleLow b k y u) := by
  refine ⟨fun w c => ?_, fun w => HoldsTied.accountHoldsOk (w.tied.of_same (fun a => ?_) (settleLow_sales b k y hu))⟩
  · obtain ⟨hbook, hcap⟩ := hy (w.book k) (c k)
    exact ⟨settleLow_covered b k hu hholds hbook w, fun i => settleLow_capacity b k i hu hcap fun _ => c i⟩
  · rw [settleLow_tankEq b k y u]; exact hu.accounts a

theorem endSale_keepsStakes {s t : State} {n : PumpId} {x y : Sale} (b : State) (why : SaleEnd)
    (hs : (t.pump n).sale = some y) (hx : x.stake = y.stake) (h : KeepsStakes s t) :
    KeepsStakes s (endSale b n x why t) :=
  h.trans ((endSale_ended b n x why t).keepsStakes (by rw [hs, Option.map_some, hx]))

theorem endSaleAt_keepsStakes (b : State) (why : SaleEnd) (n : PumpId) (s : State) : KeepsStakes s (endSaleAt b why n s) := by
  unfold endSaleAt
  split
  · exact .refl s
  · next x hx => exact endSale_keepsStakes b why hx rfl (.refl s)

/-- No reply changes what a sale holds (R135 to R137). -/
theorem progress_stake (now : Stamp) (x : Sale) (r : PumpReading) : (progress now x r).sale.stake = x.stake := by
  unfold progress
  split
  · unfold progressAuthorised; dsimp only; repeat' split
    all_goals rfl
  · unfold progressDelivering; dsimp only; repeat' split
    all_goals rfl
  · unfold progressStopping; dsimp only; repeat' split
    all_goals rfl
  · rfl

theorem pumpMiss_keepsStakes {s t : State} (n : PumpId) (o : PumpOutcome) (h : KeepsStakes s t) :
    KeepsStakes s (pumpMiss n o t) := by
  unfold pumpMiss
  dsimp only
  generalize hu : putPump t n _ t = u
  have hsale : ∀ m, (u.pump m).sale = (t.pump m).sale := fun m => by
    rw [← hu, putPump_pump]; split
    · next e => subst e; rfl
    · rfl
  have hw : SameStakes t u := hu ▸ putPump_sameStakes t n rfl (.refl t)
  split
  · split
    · exact h.trans (raise_sameStakes _ _ hw).keeps
    · next x hx =>
      have hkept : ((raise .pumpOffline { pump := some n } u).pump n).sale = some x := by rw [raise_pump, hsale, hx]
      exact endSale_keepsStakes _ _ hkept rfl (h.trans (raise_sameStakes _ _ hw).keeps)
  · exact h.trans hw.keeps

theorem pumpAnswer_keepsStakes {s t : State} (n : PumpId) (r : PumpReading) (h : KeepsStakes s t) :
    KeepsStakes s (pumpAnswer n r t) := by
  unfold pumpAnswer
  dsimp only
  split
  · refine h.trans (SameStakes.keeps ?_)
    exact putPump_sameStakes t n rfl (.refl t)
  · next x hx =>
    have hstake : (some (progress t.clock x r).sale).map Sale.stake = (t.pump n).sale.map Sale.stake := by
      rw [hx, Option.map_some, progress_stake]; rfl
    split
    · exact h.trans (putPump_sameStakes t n hstake (.refl t)).keeps
    · refine endSale_keepsStakes (y := (progress t.clock x r).sale) _ _ ?_ rfl
        (h.trans (putPump_sameStakes t n hstake (.refl t)).keeps)
      rw [putPump_pump, if_pos rfl]; rfl

theorem pumpPoll_sameStakes (s : State) : SameStakes s (pumpPoll s) := by
  unfold pumpPoll
  split
  · split <;> exact .same rfl rfl rfl
  · exact .refl s

theorem pumpReply_keepsStakes (bytes : List Byte) (s : State) : KeepsStakes s (pumpReply bytes s) := by
  unfold pumpReply; dsimp only
  split
  · exact .refl s
  · split
    · exact pumpMiss_keepsStakes _ _ (.same rfl rfl rfl)
    · exact pumpAnswer_keepsStakes _ _ (.same rfl rfl rfl)

theorem noLiftExpiry_keepsStakes (n : PumpId) (s : State) : KeepsStakes s (noLiftExpiry n s) := by
  unfold noLiftExpiry
  split
  · exact .refl s
  · next x hx =>
    split
    · exact endSale_keepsStakes s _ hx rfl (.refl s)
    · exact .refl s

theorem requestStop_sameStakes {n : PumpId} {x : Sale} {s : State} (why : StopReason) (hx : (s.pump n).sale = some x) :
    SameStakes s (requestStop s n x why s) :=
  putPump_sameStakes s n (by rw [hx]; rfl) (.refl s)

theorem stallExpiry_sameStakes (n : PumpId) (s : State) : SameStakes s (stallExpiry n s) := by
  unfold stallExpiry
  split
  · exact .refl s
  · next x hx =>
    split
    · exact requestStop_sameStakes _ hx
    · exact .refl s

theorem stopSaleOwner_keepsStakes {n : Nat} {s t : State} {lines : List ReplyLine}
    (h : stopSaleOwner n s = .ok (t, lines)) : KeepsStakes s t := by
  unfold stopSaleOwner at h
  split at h
  · cases h
  · unfold stopSaleThis at h
    split at h
    · cases h
    · next x hx =>
      split at h <;> obtain ⟨rfl, -⟩ := done_eq h
      · exact (requestStop_sameStakes _ hx).keeps
      · exact .refl _
      · exact endSale_keepsStakes s _ hx rfl (.refl s)

/-- A dip is at most the capacity, and raised to the holds (R143). -/
theorem tankDipOwner_keepsStakes {n v : Nat} {s t : State} {lines : List ReplyLine}
    (h : tankDipOwner n v s = .ok (t, lines)) : KeepsStakes s t := by
  unfold tankDipOwner dipThis at h; dsimp only at h
  split at h
  · cases h
  · split at h
    · cases h
    · next hv =>
      obtain ⟨rfl, -⟩ := done_eq h
      refine settleLow_keepsStakes s _ ?_ rfl fun hb hc =>
        ⟨Nat.le_max_right .., Nat.max_le.2 ⟨Nat.le_of_not_lt hv, hb.trans hc⟩⟩
      split
      · exact raise_sameStakes _ _ (.refl s)
      · exact .refl s

/-- A fill stops at the capacity (R144). -/
theorem tankFillOwner_keepsStakes {n v : Nat} {s t : State} {lines : List ReplyLine}
    (h : tankFillOwner n v s = .ok (t, lines)) : KeepsStakes s t := by
  unfold tankFillOwner fillThis at h; dsimp only at h
  split at h
  · obtain ⟨rfl, -⟩ := done_eq h
    exact settleLow_keepsStakes s _ (.refl s) rfl fun hb hc =>
      ⟨Nat.le_min.2 ⟨hb.trans (Nat.le_add_right ..), hb.trans hc⟩, Nat.min_le_right ..⟩
  · cases h

/-! ### Gates and credentials (08) -/

theorem unlist_sameStakes {s t : State} (b : State) (c : CredId) (a : AccountId) (h : SameStakes s t) :
    SameStakes s (unlist b c a t) := modAccount_sameStakes b a (fun _ => ⟨rfl, rfl, .inl⟩) h

theorem enlist_sameStakes {s t : State} (b : State) (c : CredId) (a : AccountId) (h : SameStakes s t) :
    SameStakes s (enlist b c a t) :=
  modAccount_sameStakes b a (fun x => by split <;> exact ⟨rfl, rfl, .inl⟩) h

theorem relist_sameStakes {s t : State} (b : State) (c : CredId) (old new : Option AccountId) (h : SameStakes s t) :
    SameStakes s (relist b c old new t) := by
  have hu : SameStakes s (match old with
      | none => t
      | some a => if new = some a then t else unlist b c a t) := by
    split
    · exact h
    · split
      · exact h
      · exact unlist_sameStakes b c _ h
  cases new with
  | none => exact hu
  | some a => exact enlist_sameStakes b c a hu

theorem refusePassage_sameStakes (r : ReaderId) (g : GateResult) (w : Passer) (c : Option CredId) (s : State) :
    SameStakes s (refusePassage r g w c s) := raise_sameStakes _ _ (.same rfl rfl rfl)

theorem decidePassage_sameStakes (r : ReaderId) (i : ReaderInput) (s : State) : SameStakes s (decidePassage r i s) := by
  unfold decidePassage; dsimp only
  split
  · exact refusePassage_sameStakes ..
  · exact refusePassage_sameStakes ..
  · split
    · exact .same rfl rfl rfl
    · exact refusePassage_sameStakes ..

theorem exitPassage_sameStakes (i : ReaderInput) (s : State) : SameStakes s (exitPassage i s) := by
  unfold exitPassage
  split <;> exact .same rfl rfl rfl

theorem credentialEnded_sameStakes (r : ReaderId) (s : State) : SameStakes s (credentialEnded r s) := by
  have hp : SameStakes s (putReader r emptyReader s) := .same rfl rfl rfl
  unfold credentialEnded; dsimp only
  split
  · exact .refl s
  · split
    · split
      · exact hp.trans (.same rfl rfl rfl)
      · exact hp.trans (exitPassage_sameStakes ..)
    · split
      · exact hp
      · exact hp.trans (decidePassage_sameStakes ..)

theorem readerPulse_sameStakes (r : ReaderId) (b : Bool) (s : State) : SameStakes s (readerPulse r b s) := by
  unfold readerPulse; split <;> exact .same rfl rfl rfl

theorem releaseExpiry_sameStakes (g : GateId) (s : State) : SameStakes s (releaseExpiry g s) := by
  unfold releaseExpiry; dsimp only; split <;> exact .same rfl rfl rfl

theorem holdGateOwner_sameStakes {n : Nat} {m : GateMode} {s t : State} {lines : List ReplyLine}
    (h : holdGateOwner n m s = .ok (t, lines)) : SameStakes s t := by
  unfold holdGateOwner at h
  split at h
  · cases h
  · obtain ⟨rfl, -⟩ := done_eq h
    exact .same rfl rfl rfl

theorem clearPassbackOwner_sameStakes {n : Nat} {s t : State} {lines : List ReplyLine}
    (h : clearPassbackOwner n s = .ok (t, lines)) : SameStakes s t := by
  unfold clearPassbackOwner done at h
  repeat' split at h
  all_goals cases h
  exact .same rfl rfl rfl

theorem revokeOwner_sameStakes {n : Nat} {s t : State} {lines : List ReplyLine}
    (h : revokeOwner n s = .ok (t, lines)) : SameStakes s t := by
  unfold revokeOwner at h; dsimp only at h
  split at h
  · cases h
  · split at h
    · cases h
    · split at h <;> obtain ⟨rfl, -⟩ := done_eq h
      · exact .same rfl rfl rfl
      · exact unlist_sameStakes _ _ _ (.same rfl rfl rfl)

/-! ### STORE (R172) -/

theorem storeCred_sameStakes (c : CredId) (x : Credential) (s : State) : Leaves (SameStakes s) (storeCred c x s) :=
  leaves_check fun _ => leaves_check fun _ => leaves_check fun _ => leaves_check fun _ =>
    leaves_ok (relist_sameStakes _ _ _ _ (.same rfl rfl rfl))

theorem storeAccount_sameStakes (a : AccountId) (x : Account) (s : State) : Leaves (SameStakes s) (storeAccount a x s) := by
  refine leaves_check fun _ => leaves_check fun _ => leaves_ok ?_
  split
  · exact putAccount_sameStakes s a ⟨rfl, rfl, .inl⟩ (.refl s)
  · exact putThenEvaluate_sameStakes a ⟨rfl, rfl, .inl⟩

theorem storeFeeder_sameStakes (f : FeederId) (x : Feeder) (s : State) : Leaves (SameStakes s) (storeFeeder f x s) := by
  have hp : SameStakes s (putFeeder s f { s.feeder f with cfg := x.cfg } s) := .same rfl rfl rfl
  refine leaves_check fun _ => leaves_check fun _ => leaves_ok ?_
  split
  · exact hp.served (serve_served s f (.refl _))
  · exact hp

theorem storeClass_sameStakes (c : ClassId) (x : Row ClassCfg) (s : State) : Leaves (SameStakes s) (storeClass c x s) := by
  refine leaves_check fun _ => leaves_ok ?_
  split
  · exact .same rfl rfl rfl
  · exact evaluateClass_sameStakes s c (.same rfl rfl rfl)

theorem Pump.stored_sale (x y : Pump) : (x.stored y).sale = x.sale := by
  unfold Pump.stored; dsimp only
  split <;> rfl

theorem storePump_sameStakes (n : PumpId) (x : Pump) (s : State) : Leaves (SameStakes s) (storePump n x s) := by
  have hp : SameStakes s (putPump s n ((s.pump n).stored x) s) :=
    putPump_sameStakes s n (congrArg _ (Pump.stored_sale ..)) (.refl s)
  refine leaves_check fun _ => leaves_check fun _ => leaves_ok ?_
  split
  · exact hp.trans (.same rfl rfl rfl)
  · exact hp

/-- A tank's capacity is stored where it covers the book (R123). -/
theorem storeTank_keepsStakes (k : ProductId) (x : Tank) (s : State) : Leaves (KeepsStakes s) (storeTank k x s) :=
  leaves_check fun _ => leaves_check fun hbook =>
    leaves_ok (settleLow_keepsStakes s k (.refl s) rfl fun hb _ => ⟨hb, of_decide_eq_true hbook⟩)

/-- A STORE that leaves what the laws read. -/
theorem Leaves.keepsStakes {s : State} {x : Stored} (h : Leaves (SameStakes s) x) : Leaves (KeepsStakes s) x :=
  h.mono fun _ => SameStakes.keeps

theorem ownerStore_keepsStakes (e : Entry) (ix : Nat) (s : State) : Leaves (KeepsStakes s) (ownerStore e ix s) := by
  cases e with
  | site x =>
    exact leaves_check fun _ => leaves_check fun _ => leaves_check fun _ =>
      leaves_ok (SameStakes.keeps (testRollover_sameStakes (.same rfl rfl rfl)))
  | cls x => exact leaves_atIndex fun i => (storeClass_sameStakes i x s).keepsStakes
  | rate x => exact leaves_atIndex fun i => leaves_check fun _ => leaves_ok (.same rfl rfl rfl)
  | hourband x => exact leaves_atIndex fun i => leaves_ok (.same rfl rfl rfl)
  | berth x =>
    exact leaves_atIndex fun i => leaves_check fun _ => leaves_check fun _ => leaves_check fun _ => leaves_check fun _ =>
      leaves_check fun _ => leaves_check fun _ => leaves_ok (.same rfl rfl rfl)
  | pedestal x =>
    exact leaves_atIndex fun i => leaves_check fun _ => leaves_check fun _ => leaves_check fun _ => leaves_check fun _ =>
      leaves_ok (by split <;> exact .same rfl rfl rfl)
  | feeder x => exact leaves_atIndex fun i => (storeFeeder_sameStakes i x s).keepsStakes
  | pump x => exact leaves_atIndex fun i => (storePump_sameStakes i x s).keepsStakes
  | tank x => exact leaves_atIndex fun i => storeTank_keepsStakes i x s
  | format x => exact leaves_atIndex fun i => leaves_check fun _ => leaves_check fun _ => leaves_ok (.same rfl rfl rfl)
  | access x => exact leaves_atIndex fun i => leaves_check fun _ => leaves_ok (.same rfl rfl rfl)
  | gate x => exact leaves_atIndex fun i => leaves_check fun _ => leaves_ok (.same rfl rfl rfl)
  | level x => exact leaves_atIndex fun i => leaves_ok (.same rfl rfl rfl)
  | port x => exact leaves_atIndex fun i => leaves_check fun _ => leaves_ok (.same rfl rfl rfl)
  | cred x => exact leaves_atIndex fun i => (storeCred_sameStakes i x s).keepsStakes
  | account x => exact leaves_atIndex fun i => (storeAccount_sameStakes i x s).keepsStakes
  | power x | water x | sale x | passage x => exact fun _ e => by cases e

/-! ### Command ports (09) -/

theorem selectOwner_sameStakes {p : PortId} {tb : TableName} {n : Nat} {s t : State} {lines : List ReplyLine}
    (h : selectOwner p tb n s = .ok (t, lines)) : SameStakes s t := by
  unfold selectOwner at h
  split at h
  · cases h
  · obtain ⟨rfl, -⟩ := done_eq h
    exact .same rfl rfl rfl

theorem putOwner_sameStakes {p : PortId} {f v : String} {s t : State} {lines : List ReplyLine}
    (h : putOwner p f v s = .ok (t, lines)) : SameStakes s t := by
  unfold putOwner done at h
  repeat' split at h
  all_goals cases h <;> exact .same rfl rfl rfl

theorem storeOwner_keepsStakes {p : PortId} {s t : State} {lines : List ReplyLine}
    (h : storeOwner p s = .ok (t, lines)) : KeepsStakes s t := by
  unfold storeOwner done at h; dsimp only at h
  split at h
  · repeat' split at h
    all_goals cases h
    next ho => exact (ownerStore_keepsStakes _ _ _ _ ho).trans (.same rfl rfl rfl)
  · cases h

theorem readOwner_sameStakes {p : PortId} {s t : State} {lines : List ReplyLine}
    (h : readOwner p s = .ok (t, lines)) : SameStakes s t := by
  unfold readOwner at h; dsimp only at h
  split at h <;> obtain ⟨rfl, -⟩ := done_eq h
  · exact .refl _
  · exact .same rfl rfl rfl

theorem nextOwner_sameStakes {p : PortId} {s t : State} {lines : List ReplyLine}
    (h : nextOwner p s = .ok (t, lines)) : SameStakes s t := by
  unfold nextOwner at h
  split at h <;> obtain ⟨rfl, -⟩ := done_eq h
  · exact .refl _
  · exact .same rfl rfl rfl

theorem unknownLine_sameStakes (p : PortId) (l : List Byte) (s : State) : SameStakes s (unknownLine p l s) := by
  have hb : ∀ c, SameStakes s (answerBad p c s) := fun c => by cases c <;> exact .same rfl rfl rfl
  unfold unknownLine; dsimp only
  split
  · split
    · exact hb _
    · exact .refl s
  · split
    · exact hb _
    · exact .refl s
  · exact .refl s

theorem lineTimeout_sameStakes (p : PortId) (s : State) : SameStakes s (lineTimeout p s) := by
  unfold lineTimeout; dsimp only; split <;> exact .same rfl rfl rfl

theorem replySent_sameStakes (p : PortId) (s : State) : SameStakes s (replySent p s) := by
  unfold replySent; dsimp only; split <;> exact .same rfl rfl rfl

theorem portCharacter_sameStakes (p : PortId) (c : Byte) (s : State) : SameStakes s (portCharacter p c s) := by
  unfold portCharacter; dsimp only; split <;> exact .same rfl rfl rfl

/-! ### Device states (10) -/

theorem stateChanged_sameStakes {s t : State} (v : Option Int) (h : SameStakes s t) : SameStakes s (stateChanged v t) :=
  h.trans (stateChanged_noticed v t).startEq.sameStakes

theorem enterState_sameStakes {s t : State} (b : State) (d : DeviceState) (h : SameStakes s t) :
    SameStakes s (enterState b d t) := h.trans (enterState_startEq b d t).sameStakes

theorem enterLoading_sameStakes (g : SaveStage) (s : State) : SameStakes s (enterLoading g s) :=
  SameStakes.trans (t := { s with image := (enterLoading g s).image, save := none }) (.same rfl rfl rfl)
    (enterLoading_eq g s).sameStakes

theorem saveOwner_sameStakes {s t : State} {lines : List ReplyLine} (h : saveOwner s = .ok (t, lines)) : SameStakes s t := by
  unfold saveOwner at h
  split at h
  · cases h
  · obtain ⟨rfl, -⟩ := done_eq h
    exact .same rfl rfl rfl

theorem saveComplete_sameStakes (r : ReadBack) (s : State) : SameStakes s (saveComplete r s) := by
  unfold saveComplete
  split
  · exact .refl s
  · split <;> exact raise_sameStakes _ _ (.same rfl rfl rfl)

/-- The open sales end with the mains (R119, R140). -/
theorem enterHoldover_keepsStakes {s t : State} (b : State) (h : SameStakes s t) : KeepsStakes s (enterHoldover b t) := by
  have hp : ∀ {u}, SameStakes s u → SameStakes s (stopPolling u) := fun k => k.trans (.same rfl rfl rfl)
  exact (hp (stateChanged_sameStakes none
    (enterState_sameStakes b .holdover (raise_sameStakes .mainsLost {} h)))).keeps.trans
      (eachId_keepsStakes (endSaleAt_keepsStakes b .mainsLost) _)

theorem returnPump_sameStakes (b : State) (n : PumpId) (s : State) : SameStakes s (returnPump b n s) := by
  unfold returnPump; dsimp only; split
  · exact putPump_sameStakes b n rfl (.refl s)
  · exact .refl s

theorem beginPolling_sameStakes {s t : State} (h : SameStakes s t) : SameStakes s (beginPolling t) :=
  h.trans (.same rfl rfl rfl)

theorem returnToOpen_sameStakes {s t : State} (b : State) (h : SameStakes s t) : SameStakes s (returnToOpen b t) := by
  have hr : ∀ u, SameStakes u (beginPolling (eachId 4 (returnPump b) (eachId 16 (returnFeeder b)
      (eachId 512 (returnSession b) (eachId 256 (returnPedestal b) u))))) := fun u => by
    have w1 : SameStakes u (eachId 256 (returnPedestal b) u) :=
      eachId_sameStakes (fun n v => putPedestal_sameStakes b n _ (.refl v)) u
    have w2 := (w1.served (eachId_served (returnSession_served b) _)).served (eachId_served (returnFeeder_served b) _)
    have w3 := eachId_keeps (P := SameStakes u) (fun n v w => w.trans (returnPump_sameStakes b n v)) w2
    exact beginPolling_sameStakes w3
  exact (stateChanged_sameStakes none (enterState_sameStakes b .opened (raise_sameStakes .mainsBack {} h))).trans (hr _)

theorem mainsRise_sameStakes (s : State) : SameStakes s (mainsRise s) := by
  have ht : SameStakes s { s with mainsOk := true } := .same rfl rfl rfl
  unfold mainsRise
  split
  · exact .refl s
  · split
    · exact ht
    · exact raise_sameStakes _ _ ht
    · exact ht
    · exact returnToOpen_sameStakes s ht

theorem mainsFall_keepsStakes (s : State) : KeepsStakes s (mainsFall s) := by
  have ht : SameStakes s { s with mainsOk := false } := .same rfl rfl rfl
  unfold mainsFall
  split
  · exact .refl s
  · split
    · exact ht.keeps
    · exact (raise_sameStakes _ _ ht).keeps
    · exact enterHoldover_keepsStakes s ht
    · exact ht.keeps

theorem openOwner_keepsStakes {s t : State} {lines : List ReplyLine} (h : openOwner s = .ok (t, lines)) : KeepsStakes s t := by
  have hv : SameStakes s { s with valid := true } := .same rfl rfl rfl
  unfold openOwner at h; dsimp only at h
  split at h
  · cases h
  · obtain ⟨rfl, -⟩ := done_eq h
    split
    · exact (stateChanged_sameStakes none (enterState_sameStakes s .opened hv)).keeps
    · exact enterHoldover_keepsStakes s hv

theorem setupOwner_sameStakes {s t : State} {lines : List ReplyLine} (h : setupOwner s = .ok (t, lines)) : SameStakes s t := by
  unfold setupOwner at h
  split at h
  · cases h
  · obtain ⟨rfl, -⟩ := done_eq h
    exact stateChanged_sameStakes none (enterState_sameStakes s .setup (.refl s))

theorem restartAfterReply_sameStakes (o : Origin) (s : State) : SameStakes s (restartAfterReply o s) :=
  (enterLoading_sameStakes .beforeErase s).trans (.same rfl rfl rfl)

/-! ### Starts (R146, R182, R183) -/

/-- With no open sale nothing is held for one. -/
theorem volumeHeld_unsold {s : State} (h : ∀ n, (s.pump n).sale = none) (k : ProductId) : volumeHeld s k = 0 := by
  rw [volumeHeld_eq, List.sum_eq_zero]
  intro v hv
  obtain ⟨n, -, rfl⟩ := List.mem_map.1 hv
  rw [h]; rfl

/-- Records at their cold values hold nothing (R19, R146). -/
theorem coldRecords_stakes {s : State} (hp : ∀ n, (s.pump n).sale = none) (ht : ∀ k, (s.tank k).book = 0 ∧ (s.tank k).holds = 0)
    (ha : s.accounts = Table.build coldAccount) : Covered s ∧ WithinCapacity s ∧ AccountHoldsOk s := by
  have acc : ∀ a, s.account a = coldAccount a := fun a => by rw [State.account_eq, ha, Table.get_build]
  refine ⟨⟨fun k => ?_, fun k => ?_⟩, fun k => ?_, HoldsTied.accountHoldsOk ⟨fun n a => ?_, fun a _ => ?_, fun a => ?_⟩⟩
  · rw [volumeHeld_unsold hp]; exact (ht k).2
  · rw [(ht k).2]; exact Nat.zero_le _
  · rw [(ht k).1]; exact Nat.zero_le _
  · rw [payerAt, hp]; dsimp only; rw [acc]; exact ⟨nofun, nofun⟩
  · rw [acc]; rfl
  · rw [moneyHeld, acc]; rfl

theorem clearRecords_stakes (s : State) :
    Covered (clearRecords s) ∧ WithinCapacity (clearRecords s) ∧ AccountHoldsOk (clearRecords s) :=
  coldRecords_stakes (fun n => by rw [State.pump_eq]; exact congrArg Pump.sale (Table.get_map ..))
    (fun k => by rw [State.tank_eq]; exact ⟨congrArg Tank.book (Table.get_map ..), congrArg Tank.holds (Table.get_map ..)⟩) rfl

/-- A state in which the laws hold whatever held before. -/
theorem KeepsStakes.of_stakes {s t : State} (h : Covered t ∧ WithinCapacity t ∧ AccountHoldsOk t) : KeepsStakes s t :=
  ⟨fun _ _ => ⟨h.1, h.2.1⟩, fun _ => h.2.2⟩

theorem coldStart_keepsStakes (c : SiteTables) (v : Int) (s : State) : KeepsStakes s (coldStart c v s) := by
  have hcold := clearRecords_stakes (takeConfiguration c s)
  have hsame : SameStakes (clearRecords (takeConfiguration c s)) (coldStart c v s) :=
    SameStakes.trans (t := { coldRecords c s with valid := false }) (.same rfl rfl rfl)
      (endLoading_startEq ..).sameStakes
  exact (KeepsStakes.of_stakes hcold).trans hsame.keeps

/-- Configuration is loaded and readings are reset; what the laws read, but for the capacities, is retained (R146, R183). -/
theorem warmRecords_sale (c : SiteTables) (s : State) (n : PumpId) : ((warmRecords c s).pump n).sale = (s.pump n).sale := by
  rw [show (warmRecords c s).pump n = ((takeConfiguration c s).pump n).reloaded from Table.get_map .., takeConfiguration_pump]
  rfl

theorem warmRecords_tank (c : SiteTables) (s : State) (k : ProductId) :
    (warmRecords c s).tank k = { s.tank k with cfg := c.tanks.get k } := takeConfiguration_tank c s k

theorem warmRecords_covered {c : SiteTables} {s : State} (w : Covered s) : Covered (warmRecords c s) :=
  w.of_holds (fun n => by rw [warmRecords_sale]) (fun k => by rw [warmRecords_tank]) fun k => by
    rw [warmRecords_tank]; exact w.book k

theorem warmRecords_accountHoldsOk {c : SiteTables} {s : State} (w : AccountHoldsOk s) : AccountHoldsOk (warmRecords c s) :=
  (w.tied.of_same (t := warmRecords c s) (fun _ => .refl _) fun n => by rw [warmRecords_sale]).accountHoldsOk

theorem endSaleAt_covered (b : State) (why : SaleEnd) (n : PumpId) {s : State} (w : Covered s) :
    Covered (endSaleAt b why n s) := by
  unfold endSaleAt
  split
  · exact w
  · next x hx => exact (endSale_ended b n x why s).covered (congrArg _ hx) w

theorem endSaleAt_sale (b : State) (why : SaleEnd) (n m : PumpId) (s : State) :
    ((endSaleAt b why n s).pump m).sale = if n = m then none else (s.pump m).sale := by
  unfold endSaleAt
  split
  · next hx =>
    split
    · next e => rw [← e, hx]
    · rfl
  · exact (endSale_ended ..).sale m

/-- Every open sale has ended, and with it every hold on a tank. -/
theorem endSales_covered (b : State) (why : SaleEnd) {s : State} (w : Covered s) :
    Covered (eachId 4 (endSaleAt b why) s) ∧ ∀ k, ((eachId 4 (endSaleAt b why) s).tank k).holds = 0 := by
  obtain ⟨hw, hsold⟩ := eachId_reaches (f := endSaleAt b why) (I := Covered) (Q := fun n t => (t.pump n).sale = none)
    (fun n _ => endSaleAt_covered b why n) (fun n t _ => by rw [endSaleAt_sale, if_pos rfl])
    (fun n m t _ e => by rw [endSaleAt_sale, e, ite_self]) w
  exact ⟨hw, fun k => (hw.sums k).trans (volumeHeld_unsold hsold k)⟩

theorem clampNotice_sameStakes (k : ProductId) (excess : Nat) (s : State) :
    SameStakes s (if excess ≠ 0 then discrepancyNotice k excess s else s) := by
  split
  · exact raise_sameStakes _ _ (.refl s)
  · exact .refl s

theorem clampTank_keepsStakes (b : State) (k : ProductId) (s : State) : KeepsStakes s (clampTank b k s) :=
  settleLow_keepsStakes b k (clampNotice_sameStakes k _ s) rfl fun hb hc =>
    ⟨Nat.le_min.2 ⟨hb, hb.trans hc⟩, Nat.min_le_right ..⟩

/-- A tank without holds is covered by any book, and clamping puts the book within the capacity (R146). -/
theorem clampTank_covered (b : State) (k : ProductId) {s : State} (hh : (s.tank k).holds = 0) (w : Covered s) :
    Covered (clampTank b k s) :=
  settleLow_covered b k (clampNotice_sameStakes k _ s) rfl (hh.trans_le (Nat.zero_le _)) w

theorem clampTank_capacity (b : State) (k i : ProductId) {s : State}
    (h : k ≠ i → (s.tank i).book ≤ (s.tank i).cfg.capacity) :
    ((clampTank b k s).tank i).book ≤ ((clampTank b k s).tank i).cfg.capacity :=
  settleLow_capacity b k i (clampNotice_sameStakes k _ s) (Nat.min_le_right ..) h

theorem clampTank_holds (b : State) (k i : ProductId) (s : State) :
    ((clampTank b k s).tank i).holds = (s.tank i).holds :=
  settleLow_holds b k i (clampNotice_sameStakes k _ s) rfl

/-- Every tank without holds is clamped. -/
theorem clampTanks_covered (b : State) {s : State} (hh : ∀ k, (s.tank k).holds = 0) (w : Covered s) :
    Covered (eachId 2 (clampTank b) s) ∧ WithinCapacity (eachId 2 (clampTank b) s) := by
  obtain ⟨⟨hw, -⟩, hc⟩ := eachId_reaches (f := clampTank b) (I := fun t => Covered t ∧ ∀ k, (t.tank k).holds = 0)
    (Q := fun k t => (t.tank k).book ≤ (t.tank k).cfg.capacity)
    (fun k t ⟨hw, h0⟩ => ⟨clampTank_covered b k (h0 k) hw, fun i => by rw [clampTank_holds, h0]⟩)
    (fun k t _ => clampTank_capacity b k k fun hne => absurd rfl hne)
    (fun k i t _ h => clampTank_capacity b k i fun _ => h) ⟨w, hh⟩
  exact ⟨hw, hc⟩

theorem warmEnd_sameStakes (b u : State) (d : DeviceState) :
    SameStakes u (endLoading b d 1 (serveAll b { u with device := d })) :=
  SameStakes.trans (t := { u with device := d }) (.same rfl rfl rfl)
    ((serveAll_served b _).sameStakes.trans (endLoading_startEq b d 1 _).sameStakes)

/-- After the tanks are clamped a start leaves what the laws read. -/
theorem reconcileEnd_sameStakes (b s : State) :
    SameStakes s (eachId 16 (fun f => relieveLoaded b f 1024) (eachId 512 (evaluateStanding b) s)) :=
  (eachId_sameStakes (fun a u => evaluateStanding_sameStakes b a (.refl u)) s).served
    (eachId_served (fun f t => relieveLoaded_served b f 1024 (.refl t)) _)

/-- The sales that were open end, so that the tanks' law holds under any loaded capacity (R146). -/
theorem reconcile_keeps (b : State) {s : State} :
    (Covered s → Covered (reconcile b s) ∧ WithinCapacity (reconcile b s))
    ∧ (AccountHoldsOk s → AccountHoldsOk (reconcile b s)) := by
  have hsessions := (reconcileSessions_served b s).sameStakes
  unfold reconcile
  generalize reconcileSessions b s = v at hsessions
  have hend := reconcileEnd_sameStakes b (eachId 2 (clampTank b) (eachId 4 (endSaleAt b .restart) v))
  refine ⟨fun w => ?_, fun w => ?_⟩
  · obtain ⟨hcovered, hfree⟩ := endSales_covered b .restart (hsessions.covered w)
    obtain ⟨hclamped, hcapacity⟩ := clampTanks_covered b hfree hcovered
    exact ⟨hend.covered hclamped, hend.withinCapacity hcapacity⟩
  · exact ((hsessions.keeps.trans (eachId_keepsStakes (endSaleAt_keepsStakes b .restart) v)).trans
      ((eachId_keepsStakes (clampTank_keepsStakes b) _).trans hend.keeps)).accounts w

theorem warmStart_keepsStakes (c : SiteTables) (s : State) : KeepsStakes s (warmStart c s) := by
  obtain ⟨htanks, haccounts⟩ := reconcile_keeps (warmRecords c s) (s := warmRecords c s)
  have hend := warmEnd_sameStakes (warmRecords c s) (reconcile (warmRecords c s) (warmRecords c s))
    (tradingState (reconcile (warmRecords c s) (warmRecords c s)))
  refine KeepsStakes.trans (t := reconcile (warmRecords c s) (warmRecords c s)) ⟨fun w _ => ?_, fun w => ?_⟩ hend.keeps
  · exact htanks (warmRecords_covered w)
  · exact haccounts (warmRecords_accountHoldsOk w)

theorem loadComplete_keepsStakes (answers : Bool) (s : State) : KeepsStakes s (loadComplete answers s) := by
  unfold loadComplete
  split
  · exact .refl s
  · split
    · exact coldStart_keepsStakes ..
    · split
      · exact warmStart_keepsStakes ..
      · exact coldStart_keepsStakes ..

/-! ### Every command -/

/-- Every command keeps the laws of tanks and of holds, R124 and R7. -/
theorem exec_keepsStakes (c : Instr) (s : State) : ∃ t, exec c s = .next t ∧ KeepsStakes s t := by
  cases c with
  | openAccount => exact ⟨_, rfl, portCommand_keepsStakes openAccountOwner_keepsStakes⟩
  | closeAccount => exact ⟨_, rfl, portCommand_keepsStakes fun h => have ⟨_, _, h⟩ := onOpenAccount_ok h; (closeThis_sameStakes h).keeps⟩
  | credit => exact ⟨_, rfl, portCommand_keepsStakes fun h =>
      have ⟨_, _, h⟩ := onOpenAccount_ok h; (creditThis_sameStakes h).keeps⟩
  | debit => exact ⟨_, rfl, portCommand_keepsStakes fun h =>
      have ⟨_, _, h⟩ := onOpenAccount_ok h; (debitThis_sameStakes h).keeps⟩
  | bar => exact ⟨_, rfl, portCommand_keepsStakes fun h =>
      have ⟨_, _, h⟩ := onOpenAccount_ok h; (barThis_sameStakes h).keeps⟩
  | unbar => exact ⟨_, rfl, portCommand_keepsStakes fun h =>
      have ⟨_, _, h⟩ := onOpenAccount_ok h; (unbarThis_sameStakes h).keeps⟩
  | allocate => exact ⟨_, rfl, portCommand_keepsStakes fun h => (allocateOwner_sameStakes h).keeps⟩
  | reserve => exact ⟨_, rfl, portCommand_keepsStakes fun h => (reserveOwner_sameStakes h).keeps⟩
  | cancel => exact ⟨_, rfl, portCommand_keepsStakes fun h => have ⟨_, h⟩ := onAccount_ok h; (cancelThis_sameStakes h).keeps⟩
  | arrive => exact ⟨_, rfl, portCommand_keepsStakes fun h => (arriveOwner_sameStakes h).keeps⟩
  | move => exact ⟨_, rfl, portCommand_keepsStakes fun h => (moveOwner_sameStakes h).keeps⟩
  | depart => exact ⟨_, rfl, portCommand_keepsStakes fun h => have ⟨_, h⟩ := onAccount_ok h; (departThis_sameStakes h).keeps⟩
  | setClock => exact ⟨_, rfl, portCommand_keepsStakes fun h => (setClockOwner_sameStakes h).keeps⟩
  | clockAdvance => exact ⟨_, rfl, event_keepsStakes (SameStakes.keeps (testRollover_sameStakes (.same rfl rfl rfl)))⟩
  | rolloverStep => exact ⟨_, rfl, event_keepsStakes (rolloverStep_sameStakes _).keeps⟩
  | rolloverComplete => exact ⟨_, rfl, event_keepsStakes (rolloverComplete_sameStakes _).keeps⟩
  | pollDue => exact ⟨_, rfl, event_keepsStakes (pollDue_sameStakes _ _).keeps⟩
  | pollSend => exact ⟨_, rfl, event_keepsStakes (pollSend_sameStakes _ _).keeps⟩
  | lineBusy => exact ⟨_, rfl, event_keepsStakes (lineBusy_sameStakes _ _).keeps⟩
  | pedestalReply => exact ⟨_, rfl, event_keepsStakes (pedestalReply_sameStakes _ _).keeps⟩
  | noReply => exact ⟨_, rfl, event_keepsStakes (noReply_sameStakes _ _).keeps⟩
  | reliefHoldExpiry => exact ⟨_, rfl, event_keepsStakes (reliefExpiry_served _ _).sameStakes.keeps⟩
  | requestPower => exact ⟨_, rfl, portCommand_keepsStakes fun h => (requestPowerOwner_served h).sameStakes.keeps⟩
  | resetSocket => exact ⟨_, rfl, portCommand_keepsStakes fun h => (resetSocketOwner_served h).sameStakes.keeps⟩
  | endPower => exact ⟨_, rfl, portCommand_keepsStakes fun h => (endPowerOwner_served h).sameStakes.keeps⟩
  | requestWater => exact ⟨_, rfl, portCommand_keepsStakes fun h => (requestWaterOwner_served h).sameStakes.keeps⟩
  | endWater => exact ⟨_, rfl, portCommand_keepsStakes fun h => (endWaterOwner_served h).sameStakes.keeps⟩
  | sell => exact ⟨_, rfl, portCommand_keepsStakes sellOwner_keepsStakes⟩
  | pumpPoll => exact ⟨_, rfl, event_keepsStakes (pumpPoll_sameStakes _).keeps⟩
  | pumpReply => exact ⟨_, rfl, event_keepsStakes (pumpReply_keepsStakes _ _)⟩
  | noLiftTimerExpiry => exact ⟨_, rfl, event_keepsStakes (noLiftExpiry_keepsStakes _ _)⟩
  | stallTimerExpiry => exact ⟨_, rfl, event_keepsStakes (stallExpiry_sameStakes _ _).keeps⟩
  | stopSale => exact ⟨_, rfl, portCommand_keepsStakes stopSaleOwner_keepsStakes⟩
  | sale => exact ⟨_, rfl, portCommand_keepsStakes fun h => saleOwner_eq h ▸ .refl s⟩
  | tankDip => exact ⟨_, rfl, portCommand_keepsStakes tankDipOwner_keepsStakes⟩
  | tankFill => exact ⟨_, rfl, portCommand_keepsStakes tankFillOwner_keepsStakes⟩
  | credentialEnded => exact ⟨_, rfl, event_keepsStakes (credentialEnded_sameStakes _ _).keeps⟩
  | releaseExpiry => exact ⟨_, rfl, event_keepsStakes (releaseExpiry_sameStakes _ _).keeps⟩
  | holdGate => exact ⟨_, rfl, portCommand_keepsStakes fun h => (holdGateOwner_sameStakes h).keeps⟩
  | revoke => exact ⟨_, rfl, portCommand_keepsStakes fun h => (revokeOwner_sameStakes h).keeps⟩
  | clearPassback => exact ⟨_, rfl, portCommand_keepsStakes fun h => (clearPassbackOwner_sameStakes h).keeps⟩
  | select => exact ⟨_, rfl, portCommand_keepsStakes fun h => (selectOwner_sameStakes h).keeps⟩
  | put => exact ⟨_, rfl, portCommand_keepsStakes fun h => (putOwner_sameStakes h).keeps⟩
  | store => exact ⟨_, rfl, portCommand_keepsStakes storeOwner_keepsStakes⟩
  | read => exact ⟨_, rfl, portCommand_keepsStakes fun h => (readOwner_sameStakes h).keeps⟩
  | list => exact ⟨_, rfl, portCommand_keepsStakes fun h => listOwner_eq h ▸ .refl s⟩
  | next => exact ⟨_, rfl, portCommand_keepsStakes fun h => (nextOwner_sameStakes h).keeps⟩
  | status => exact ⟨_, rfl, portCommand_keepsStakes fun h => (done_eq h).1 ▸ .refl s⟩
  | unknownCommandLine => exact ⟨_, rfl, event_keepsStakes (unknownLine_sameStakes _ _ _).keeps⟩
  | lineTimeout => exact ⟨_, rfl, event_keepsStakes (lineTimeout_sameStakes _ _).keeps⟩
  | replySent => exact ⟨_, rfl, event_keepsStakes (replySent_sameStakes _ _).keeps⟩
  | save => exact ⟨_, rfl, portCommand_keepsStakes fun h => (saveOwner_sameStakes h).keeps⟩
  | saveComplete => exact ⟨_, rfl, event_keepsStakes (saveComplete_sameStakes _ _).keeps⟩
  | openDevice => exact ⟨_, rfl, portCommand_keepsStakes openOwner_keepsStakes⟩
  | setup => exact ⟨_, rfl, portCommand_keepsStakes fun h => (setupOwner_sameStakes h).keeps⟩
  | restart => exact ⟨_, rfl, portCommandThen_keeps (fun _ _ h => h.trans (.same rfl rfl rfl))
      (fun h => restartOwner_eq h ▸ .refl s)
      (fun h => h.trans (restartAfterReply_sameStakes _ _).keeps) (.refl s)⟩
  | powerOn => exact ⟨_, rfl, KeepsStakes.trans (t := { s with stopped := false }) (.same rfl rfl rfl)
      (enterLoading_sameStakes _ _).keeps⟩
  | resetInput => exact ⟨_, rfl, event_keepsStakes (enterLoading_sameStakes _ _).keeps⟩
  | loadComplete => exact ⟨_, rfl, event_keepsStakes (loadComplete_keepsStakes _ _)⟩
  | mainsLost => exact ⟨_, rfl, event_keepsStakes (mainsFall_keepsStakes _)⟩
  | mainsBack => exact ⟨_, rfl, event_keepsStakes (mainsRise_sameStakes _).keeps⟩
  | batteryExhausted => exact ⟨_, rfl, event_keepsStakes
      (KeepsStakes.trans (t := clearRecords s) (.of_stakes (clearRecords_stakes s)) (.same rfl rfl rfl))⟩
  | readerPulse => exact ⟨_, rfl, event_keepsStakes (readerPulse_sameStakes _ _ _).keeps⟩
  | pedestalReplyByte => exact ⟨_, rfl, event_keepsStakes (replyByte_sameStakes _ _ _).keeps⟩
  | portCharacter => exact ⟨_, rfl, event_keepsStakes (portCharacter_sameStakes _ _ _).keeps⟩

theorem step_keepsStakes {s t : State} (h : step s = .next t) : KeepsStakes s t := by
  unfold step at h
  split at h
  · cases h; exact .refl s
  · next c rest _ =>
    obtain ⟨u, e, k⟩ := exec_keepsStakes c (s.withPending rest)
    rw [e] at h
    cases h
    exact KeepsStakes.trans (t := s.withPending rest) (.same rfl rfl rfl) k

/-- Settles O51: a sale that opens holds within the tank's availability, one that ends gives its holds back, and no other command changes what the laws read but for a book within its bounds. -/
theorem everyStepKeepsTheTanksLaw : Obligations.EveryStepKeepsTheTanksLaw := by
  refine ⟨fun s t htanks hholds h => ?_, fun s t h k => (step_keepsStakes k).accounts h⟩
  obtain ⟨hcovered, hcapacity⟩ := covered_withinCapacity_iff.1 ⟨htanks, hholds⟩
  exact covered_withinCapacity_iff.2 ((step_keepsStakes h).tanks hcovered hcapacity)

end Sys2Proof.Machine

/-! ## The fuel dock's records and its tanks (O50) -/

namespace Sys2Proof.Machine

/-! ### SALE (R142) -/

/-- The first record with a number is found, where none before it has the number. -/
theorem find?_number_append {before after : List Sale} {x : Sale} {number : Nat} (hx : x.number.toNat = number)
    (hb : ∀ y ∈ before, y.number.toNat ≠ number) :
    (before ++ x :: after).find? (fun y => y.number.toNat = number) = some x :=
  List.find?_eq_some_iff_append.2 ⟨decide_eq_true hx, before, after, rfl, fun y hy => by simpa using hb y hy⟩

theorem openSales_find?_none {s : State} {number : Nat} (h : ∀ n x, (s.pump n).sale = some x → x.number.toNat ≠ number) :
    (openSales s).find? (fun x => x.number.toNat = number) = none := by
  refine List.find?_eq_none.2 fun x hx => ?_
  obtain ⟨n, -, e⟩ := List.mem_filterMap.1 hx
  simpa using h n x e

/-- The open sales stand in the order of their pumps. -/
theorem openSales_find?_some {s : State} {number : Nat} {n : PumpId} {x : Sale} (hx : (s.pump n).sale = some x)
    (hnumber : x.number.toNat = number) (hbefore : ∀ m y, m < n → (s.pump m).sale = some y → y.number.toNat ≠ number) :
    (openSales s).find? (fun x => x.number.toNat = number) = some x := by
  have hn : (List.finRange 4).find? (fun m => (s.pump m).sale.any fun y => y.number.toNat = number) = some n := by
    refine find?_finRange_eq_some (by simp [hx, hnumber]) fun m hm => ?_
    cases hy : (s.pump m).sale with
    | none => rfl
    | some y => exact decide_eq_false (hbefore m y hm hy)
  rw [openSales, List.find?_filterMap, hn]
  exact hx

theorem findSale_open {s : State} {number : Nat} {x : Sale}
    (h : (openSales s).find? (fun x => x.number.toNat = number) = some x) : findSale s number = some x := by
  unfold findSale; rw [h]

theorem findSale_logged {s : State} {number : Nat}
    (h : ∀ n x, (s.pump n).sale = some x → x.number.toNat ≠ number) :
    findSale s number = s.saleLog.reverse.find? fun x => x.number.toNat = number := by
  unfold findSale; rw [openSales_find?_none h]

theorem saleOwner_found {s : State} {number : Nat} {x : Sale} (hn : number ≤ 65535) (h : findSale s number = some x) :
    saleOwner number s = .ok (s, [.done (shownItems x.shown)]) := by
  simp only [saleOwner, if_neg (Nat.not_lt.2 hn), h]
  rfl

theorem sale_shows {o : Origin} {number : Nat} {s : State} (hready : Ready (.sale o number) o s) :
    (65535 < number → exec (.sale o number) s = .next (reply o.port o.suffix [.refused .range] s))
    ∧ (number ≤ 65535 → findSale s number = none →
        exec (.sale o number) s = .next (reply o.port o.suffix [.refused .noEntry] s))
    ∧ ∀ x, number ≤ 65535 → findSale s number = some x →
        exec (.sale o number) s = .next (reply o.port o.suffix [.done (shownItems x.shown)] s) := by
  refine ⟨fun hn => (sale_form ..).refused hready ?_, fun hn h => (sale_form ..).refused hready ?_, fun x hn h =>
    (sale_form ..).taken hready (saleOwner_found hn h)⟩
  · exact if_pos hn
  · simp only [saleOwner, if_neg (Nat.not_lt.2 hn), h]

/-! ### TANK_DIP and TANK_FILL (R143, R144) -/

theorem tankDipOwner_refused {k : ProductId} {volume : Nat} {s : State} (h : (s.tank k).cfg.capacity < volume) :
    tankDipOwner k.val volume s = .error .range := by
  unfold tankDipOwner
  rw [ident_val]
  exact if_pos h

theorem tankDipOwner_taken {k : ProductId} {volume : Nat} {s : State} (h : volume ≤ (s.tank k).cfg.capacity) :
    let x := s.tank k
    let raised := x.holds - volume
    tankDipOwner k.val volume s = .ok
      (tankWritten k
        { x with book := max volume x.holds, discrepancy := min (x.discrepancy + raised) 4294967295 }
        (if raised = 0 then s
          else raise .tankDiscrepancy { value := some raised, reason := some (.product k) } s),
      [.done (.val (.num ((max volume x.holds : Nat) - (x.book : Int)))
        :: if raised = 0 then [] else [.val (.word "RAISED")])]) := by
  intro x raised
  unfold tankDipOwner
  rw [ident_val]
  show dipThis k volume s = _
  unfold dipThis
  dsimp only
  rw [if_neg (Nat.not_lt.2 h)]
  by_cases hr : raised = 0
  · have hr' : (s.tank k).holds - volume = 0 := hr
    simp only [hr, hr', ne_eq, not_true_eq_false, if_true, if_false]
    exact congrArg (fun u => done u _) (settleLow_eq_tankWritten _ rfl)
  · have hr' : ¬ (s.tank k).holds - volume = 0 := hr
    simp only [hr, hr', ne_eq, not_false_eq_true, if_true, if_false]
    exact congrArg (fun u => done u _) (settleLow_eq_tankWritten _ (raise_tank ..).symm)

theorem tankFillOwner_refused {k : ProductId} {added : Nat} {s : State} (h : added = 0 ∨ 10000000 < added) :
    tankFillOwner k.val added s = .error .range := by
  have hout : between 1 10000000 added = false := by
    simp only [between, Bool.and_eq_false_iff, decide_eq_false_iff_not]
    omega
  unfold tankFillOwner
  rw [ident_val, hout]

theorem tankFillOwner_taken {k : ProductId} {added : Nat} {s : State} (hlo : 1 ≤ added) (hhi : added ≤ 10000000) :
    let x := s.tank k
    let book := min (x.book + added) x.cfg.capacity
    tankFillOwner k.val added s = .ok (tankWritten k { x with book := book } s,
      [.done [.val (.num book), .val (.num ((x.book + added - book : Nat) : Int))]]) := by
  intro x book
  unfold tankFillOwner
  rw [ident_val, show between 1 10000000 added = true by simp [between, hlo, hhi]]
  show fillThis k added s = _
  exact congrArg (fun u => done u _) (settleLow_eq_tankWritten _ rfl)

/-- Settles O50: the lookup goes pump by pump and then back through the log; a dip and a fill each write their tank once. -/
theorem tanksAreDippedAndFilled : Obligations.TanksAreDippedAndFilled := by
  refine ⟨fun o number s hready => ?_, fun o k volume s hready => ⟨fun h => ?_, fun h => ?_⟩,
    fun o k added s hready => ⟨fun h => ?_, fun hlo hhi => ?_⟩⟩
  · obtain ⟨hrange, hnone, hshows⟩ := sale_shows hready
    refine ⟨hrange, fun hn hclosed hlog => hnone hn ?_, fun n x hn hx hnumber hbefore => hshows x hn ?_,
      fun older x newer hn hclosed hlog hnumber hnewer => hshows x hn ?_⟩
    · rw [findSale_logged hclosed]
      exact List.find?_eq_none.2 fun x hx => by simpa using hlog x (List.mem_reverse.1 hx)
    · exact findSale_open (openSales_find?_some hx hnumber hbefore)
    · rw [findSale_logged hclosed, hlog, List.reverse_append, List.reverse_cons, List.append_assoc]
      exact find?_number_append hnumber fun y hy => hnewer y (List.mem_reverse.1 hy)
  · exact (tankDip_form ..).refused hready (tankDipOwner_refused h)
  · exact (tankDip_form ..).taken hready (tankDipOwner_taken h)
  · exact (tankFill_form ..).refused hready (tankFillOwner_refused h)
  · exact (tankFill_form ..).taken hready (tankFillOwner_taken hlo hhi)

end Sys2Proof.Machine

/-! ## SELL (O47) -/

namespace Sys2Proof.Machine

/-! ### The terms of a sale (R126, R127) -/

theorem presetInRange_iff {preset : Option Preset} :
    presetInRange preset = true ↔ preset = none ∨ (∃ v, preset = some (.volume v) ∧ 1 ≤ v ∧ v ≤ 200000)
      ∨ ∃ m, preset = some (.amount m) ∧ 1 ≤ m ∧ m ≤ 9999999 := by
  rcases preset with _ | ⟨v⟩ | ⟨m⟩ <;> simp [presetInRange, between]

theorem buyerOf_eq_some {kind : SellKind} {buyer : Buyer}
    (h : (∃ a : AccountId, kind = .account a.val ∧ buyer = .account a)
      ∨ ∃ paid, kind = .prepay paid ∧ buyer = .prepay paid ∧ 100 ≤ paid ∧ paid ≤ 500000) : buyerOf kind = some buyer := by
  rcases h with ⟨a, rfl, rfl⟩ | ⟨paid, rfl, rfl, hlo, hhi⟩
  · simp [buyerOf, ident_val]
  · simp [buyerOf, between, hlo, hhi]

theorem Pump.ready_iff {x : Pump} : x.ready = true ↔
    x.cfg.installed = true ∧ x.online = true ∧ x.sale = none ∧ ∀ r, x.readings = some r → r.fault = false := by
  unfold Pump.ready Pump.reportsFault
  cases x.readings <;> simp [and_assoc]

theorem saleRate_eq (s : State) (buyer : Buyer) (k : ProductId) : saleRate s buyer k = rateNow s buyer k := by
  cases buyer <;> rfl

/-- The least of the terms of R127, of which two are always present. -/
theorem leastOf_min? (n m : Nat) (a b : Option Nat) :
    ([n, m] ++ b.toList ++ a.toList).min? = some (min (leastOf n [a, b]) m) := by
  cases a <;> cases b <;> simp [leastOf, List.min?] <;> omega

/-! ### The answers of SELL (R126, R128) -/

section
variable {n : PumpId} {kind : SellKind} {preset : Option Preset} {buyer : Buyer} {s : State}

/-- What SELL answers in OPEN for a buyer and a preset in range. -/
theorem sellOwner_eq (hdevice : s.device = .opened) (hbuyer : buyerOf kind = some buyer) (hpreset : presetInRange preset = true) :
    sellOwner n.val kind preset s =
      let rate := rateNow s buyer (s.pump n).cfg.product
      let limit := saleLimit s (s.pump n) buyer preset rate
      if !(s.pump n).ready then .error .state
      else (buyerRefusal s buyer rate).elim
        (if limit < 200 then .error .limitLow
          else .ok (authorise s n (newSale s n buyer preset rate limit) s,
            [.done [.val (.num s.saleCounter.toNat), .val (.num limit)]]))
        .error := by
  unfold sellOwner
  rw [ident_val, hbuyer, hpreset]
  dsimp only
  rw [saleRate_eq, if_neg (not_not.2 hdevice)]
  congr 1
  generalize buyerRefusal s buyer _ = r
  cases r <;> rfl

theorem sellOwner_unready (hdevice : s.device = .opened) (hbuyer : buyerOf kind = some buyer)
    (hpreset : presetInRange preset = true) (h : (s.pump n).ready = false) :
    sellOwner n.val kind preset s = .error .state := by
  rw [sellOwner_eq hdevice hbuyer hpreset]
  simp [h]

theorem sellOwner_refused {r : Refuse} (hdevice : s.device = .opened) (hbuyer : buyerOf kind = some buyer)
    (hpreset : presetInRange preset = true) (h : (s.pump n).ready = true)
    (hr : buyerRefusal s buyer (rateNow s buyer (s.pump n).cfg.product) = some r) :
    sellOwner n.val kind preset s = .error r := by
  rw [sellOwner_eq hdevice hbuyer hpreset]
  simp [h, hr]

theorem sellOwner_solvent (hdevice : s.device = .opened) (hbuyer : buyerOf kind = some buyer)
    (hpreset : presetInRange preset = true) (h : (s.pump n).ready = true)
    (hr : buyerRefusal s buyer (rateNow s buyer (s.pump n).cfg.product) = none) :
    sellOwner n.val kind preset s =
      let rate := rateNow s buyer (s.pump n).cfg.product
      let limit := saleLimit s (s.pump n) buyer preset rate
      if limit < 200 then .error .limitLow
      else .ok (authorise s n (newSale s n buyer preset rate limit) s,
        [.done [.val (.num s.saleCounter.toNat), .val (.num limit)]]) := by
  rw [sellOwner_eq hdevice hbuyer hpreset]
  simp [h, hr]

end

/-- The checks of R126 on an account, in their order. -/
theorem buyerRefusal_account (s : State) (a : AccountId) (rate : Nat) :
    let x := s.account a
    let refusal := buyerRefusal s (.account a) rate
    (x.state = .free → refusal = some .state)
    ∧ (x.state ≠ .free → (x.standing ≠ .good ∨ (s.classOf x).fuelOnAccount = false) → refusal = some .standing)
    ∧ (x.state ≠ .free → x.standing = .good → (s.classOf x).fuelOnAccount = true →
        (x.sale ≠ none → refusal = some .saleOpen)
        ∧ (x.sale = none → affordableAmount s x ≤ 0 → refusal = some .funds)
        ∧ (x.sale = none → 0 < affordableAmount s x → refusal = none)) := by
  intro x refusal
  refine ⟨fun h => if_pos h, fun hf h => (if_neg hf).trans ?_, fun hf hs hc => ?_⟩
  · by_cases hs : x.standing = .good
    · have hc := h.resolve_left (not_not.2 hs)
      exact (if_neg (not_not.2 hs)).trans (if_pos (by rw [hc]; rfl))
    · exact if_pos hs
  · have hchecks : refusal = if x.sale ≠ none then some .saleOpen else if affordableAmount s x ≤ 0 then some .funds else none :=
      (if_neg hf).trans ((if_neg (not_not.2 hs)).trans (if_neg (by rw [hc]; exact Bool.false_ne_true)))
    refine ⟨fun h => hchecks.trans (if_pos h), fun h hm => hchecks.trans ((if_neg (not_not.2 h)).trans (if_pos hm)),
      fun h hm => hchecks.trans ((if_neg (not_not.2 h)).trans (if_neg (Int.not_le.2 hm)))⟩

/-- Settles O47: the checks follow the branches of SELL, and the one state it writes is that of `authorise_eq`. -/
theorem sellHoldsVolumeAndMoney : Obligations.SellHoldsVolumeAndMoney := by
  intro o n kind preset buyer s c hcommand hdevice hkind hpreset p tank rate ready affordable solvent money terms answers
  have hbuyer := buyerOf_eq_some hkind
  replace hpreset := presetInRange_iff.2 hpreset
  have refuses : ∀ {r}, p.ready = true → buyerRefusal s buyer rate = some r → answers r := fun hready hr =>
    (sell_form ..).refused hcommand (sellOwner_refused hdevice hbuyer hpreset hready hr)
  refine ⟨fun h => ?_, fun a hready hb => ?_, fun paid hready hb hrate => ?_, fun limit hready hsolvent hleast => ?_⟩
  · refine (sell_form ..).refused hcommand (sellOwner_unready hdevice hbuyer hpreset ?_)
    exact Bool.eq_false_iff.2 fun hr => h (Pump.ready_iff.1 hr)
  · obtain ⟨hfree, hstanding, hrest⟩ := buyerRefusal_account s a rate
    replace hready := Pump.ready_iff.2 hready
    subst hb
    refine ⟨fun h => refuses hready (hfree h), fun hf h => refuses hready (hstanding hf h), fun hf hs hc => ?_⟩
    obtain ⟨hopen, hfunds, -⟩ := hrest hf hs hc
    exact ⟨fun h => refuses hready (hopen h), fun h hm => refuses hready (hfunds h hm)⟩
  · subst hb
    exact refuses (Pump.ready_iff.2 hready) (if_pos hrate)
  · have hpays : buyerRefusal s buyer rate = none := by
      cases buyer with
      | account a =>
        obtain ⟨hf, hs, hc, hsale, hm⟩ := hsolvent
        obtain ⟨-, -, hrest⟩ := buyerRefusal_account s a rate
        exact (hrest hf hs hc).2.2 hsale hm
      | prepay paid => exact if_neg hsolvent
    have hterms : terms.min? = some (saleLimit s p buyer preset rate) := by
      rcases preset with _ | ⟨v⟩ | ⟨m⟩
      · cases buyer <;> exact leastOf_min? tank.sellable p.cfg.maxPerSale none _
      · cases buyer <;> exact leastOf_min? tank.sellable p.cfg.maxPerSale (some v) _
      · cases buyer <;> exact leastOf_min? tank.sellable p.cfg.maxPerSale (volumeFor m rate) _
    have hlimit : saleLimit s p buyer preset rate = limit := Option.some.inj (hterms.symm.trans hleast)
    have hanswer := sellOwner_solvent hdevice hbuyer hpreset (Pump.ready_iff.2 hready) hpays
    refine ⟨fun hlow => (sell_form ..).refused hcommand (hanswer.trans ?_), fun henough => ?_⟩
    · exact if_pos (hlimit.trans_lt hlow)
    · have hsale : (s.pump n).sale = none := hready.2.2.1
      have hpayer : ∀ a, buyer = .account a → (s.account a).sale = none := fun a hb => by
        subst hb; exact (buyerRefusal_none hpays).1
      have hsold := (sell_form ..).taken hcommand
        (hanswer.trans (if_neg (Nat.not_lt.2 (henough.trans_eq hlimit.symm))))
      refine hsold.trans ?_
      change Host.Outcome.next (reply _ _ [.done [_, .val (.num (saleLimit s p buyer preset rate : Nat))]]
        (authorise s n (newSale s n buyer preset rate (saleLimit s p buyer preset rate)) s)) = _
      rw [hlimit, authorise_eq hsale hpayer]
      cases buyer <;> rfl

end Sys2Proof.Machine

/-! ## The pump round and what the pumps answer (O48, O49) -/

namespace Sys2Proof.Machine

/-! ### The poll frame (R131, R188) -/

theorem byteSum_withCheck (bytes : List Byte) : byteSum (withCheck bytes) = 0 := by
  rw [withCheck, byteSum_append_singleton]
  exact BitVec.add_right_neg _

/-- The bytes that the order `order` puts in the frame of pump `n`. -/
theorem pumpFrame_bytes (n : PumpId) (order : Order) : ∃ b0 b1 b2 b3 b4 b5 b6,
    pumpFrame n order = [b0, b1, b2, b3, b4, b5, b6] ∧ b0 + b1 + b2 + b3 + b4 + b5 + b6 = 0
    ∧ b0.toNat = (16 * order.code + n.val) % 256
    ∧ bytesToNat [b1, b2] = (order.sale?.map BitVec.toNat).getD 0 % 65536
    ∧ bytesToNat [b3, b4, b5] = order.limit?.getD 0 % 16777216 := by
  refine ⟨_, _, _, _, _, _, _, rfl, ?_, ?_, ?_, ?_⟩
  · have hsum := byteSum_withCheck (natToBytes 1 (16 * order.code + n.val)
      ++ natToBytes 2 ((order.sale?.map BitVec.toNat).getD 0) ++ natToBytes 3 (order.limit?.getD 0))
    rw [← BitVec.zero_add (BitVec.ofNat 8 _)]
    exact hsum
  · simp
  · simp only [bytesToNat, List.foldl, BitVec.toNat_ofNat]
    omega
  · simp only [bytesToNat, List.foldl, BitVec.toNat_ofNat]
    omega

/-! ### The pump round (R131) -/

/-- Pump `n` is installed, and above the last one polled. -/
def PumpAfter (s : State) (n : PumpId) : Prop := (s.pump n).cfg.installed = true ∧ ∀ l, s.pumpLine.last = some l → l < n

/-- The next pump is the lowest above the last one polled, else the lowest installed. -/
def PumpFollows (s : State) (n : PumpId) : Prop :=
  PumpAfter s n ∧ (∀ m, PumpAfter s m → n ≤ m)
  ∨ (∀ m, ¬ PumpAfter s m) ∧ (s.pump n).cfg.installed = true ∧ ∀ m, (s.pump m).cfg.installed = true → n ≤ m

theorem nextPump_eq (s : State) :
    nextPump s = ((installedPumps s).find? fun n => s.pumpLine.last.all (· < n)).or (installedPumps s).head? := by
  unfold nextPump
  cases s.pumpLine.last <;> dsimp only [Option.all] <;> split <;> next h => rw [h]; rfl

theorem pumpAfter_iff {s : State} {n : PumpId} :
    (s.pump n).cfg.installed = true ∧ (s.pumpLine.last.all (· < n)) = true ↔ PumpAfter s n := by
  simp [PumpAfter, Option.all_eq_true]

theorem nextPump_follows {s : State} {n : PumpId} (h : PumpFollows s n) : nextPump s = some n := by
  rw [nextPump_eq, installedPumps, List.find?_filter, List.head?_filter]
  rcases h with ⟨hn, hlow⟩ | ⟨hnone, hn, hlow⟩
  · rw [find?_finRange_eq_some (decide_eq_true (pumpAfter_iff.2 hn)) fun m hm =>
      decide_eq_false fun ha => absurd (hlow m (pumpAfter_iff.1 ha)) (not_le.2 hm)]
    rfl
  · rw [List.find?_eq_none.2 fun m _ ha => hnone m (pumpAfter_iff.1 (of_decide_eq_true ha)), Option.none_or]
    exact find?_finRange_eq_some hn fun m hm => Bool.eq_false_iff.2 fun hi => absurd (hlow m hi) (not_le.2 hm)

theorem nextPump_none {s : State} (h : ∀ m, (s.pump m).cfg.installed = false) : nextPump s = none := by
  have hnone : installedPumps s = [] := List.filter_eq_nil_iff.2 fun m _ => by rw [h m]; exact Bool.false_ne_true
  unfold nextPump
  rw [hnone]
  rfl

theorem pumpPoll_idle {s : State}
    (h : s.device.polls = false ∨ s.pumpLine.outstanding ≠ none ∨ ∀ m, (s.pump m).cfg.installed = false) :
    pumpPoll s = s := by
  unfold pumpPoll
  split
  · next hpolls =>
    simp only [Bool.and_eq_true, Option.isNone_iff_eq_none] at hpolls
    obtain ⟨hp, ho⟩ := hpolls
    rcases h with h | h | h
    · rw [hp] at h; cases h
    · exact absurd ho h
    · rw [nextPump_none h]
  · rfl

theorem pumpPoll_sent {s : State} {n : PumpId} (hp : s.device.polls = true) (ho : s.pumpLine.outstanding = none)
    (hn : nextPump s = some n) :
    pumpPoll s = { s with pumpLine := { last := some n, outstanding := some n, sent := pumpFrame n (s.pump n).order } } := by
  unfold pumpPoll
  rw [if_pos (by rw [hp, ho]; rfl), hn]

/-! ### The judgement of a reply (R133) -/

theorem judgePump_bad {n : PumpId} {bytes : List Byte}
    (h : bytes.length ≠ 8 ∨ byteSum bytes ≠ 0 ∨ ∀ b, bytes.head? = some b → b.toNat % 16 ≠ n.val) :
    judgePump n bytes = .error (if bytes = [] then .noReply else .badFrame) := by
  unfold judgePump
  split
  · rfl
  · rw [if_neg, if_neg (by simp)]
    rintro ⟨hsum, hpump⟩
    rcases h with h | h | h
    · exact h rfl
    · exact h hsum
    · exact h _ rfl hpump
  · next hnil _ => rw [if_neg hnil]

theorem judgePump_good {n : PumpId} {b0 b1 b2 b3 b4 b5 b6 b7 : Byte} (hsum : byteSum [b0, b1, b2, b3, b4, b5, b6, b7] = 0)
    (hpump : b0.toNat % 16 = n.val) :
    judgePump n [b0, b1, b2, b3, b4, b5, b6, b7] = .ok (readingOf b1 (bytesToNat [b2, b3]) (bytesToNat [b4, b5, b6])) :=
  if_pos ⟨hsum, hpump⟩

/-- The poll is closed (R131). -/
def pollClosed (s : State) : State := { s with pumpLine := { s.pumpLine with outstanding := none } }

theorem pumpReply_unasked {bytes : List Byte} {s : State} (h : s.pumpLine.outstanding = none) : pumpReply bytes s = s := by
  unfold pumpReply; rw [h]

theorem pumpReply_bad {n : PumpId} {bytes : List Byte} {s : State} (ho : s.pumpLine.outstanding = some n)
    (h : bytes.length ≠ 8 ∨ byteSum bytes ≠ 0 ∨ ∀ b, bytes.head? = some b → b.toNat % 16 ≠ n.val) :
    pumpReply bytes s = pumpMiss n (if bytes = [] then .noReply else .badFrame) (pollClosed s) := by
  unfold pumpReply; simp only [ho, judgePump_bad h]; rfl

theorem pumpReply_good {n : PumpId} {b0 b1 b2 b3 b4 b5 b6 b7 : Byte} {s : State} (ho : s.pumpLine.outstanding = some n)
    (hsum : byteSum [b0, b1, b2, b3, b4, b5, b6, b7] = 0) (hpump : b0.toNat % 16 = n.val) :
    pumpReply [b0, b1, b2, b3, b4, b5, b6, b7] s
      = pumpAnswer n (readingOf b1 (bytesToNat [b2, b3]) (bytesToNat [b4, b5, b6])) (pollClosed s) := by
  unfold pumpReply; simp only [ho, judgePump_good hsum hpump]; rfl

/-! ### A miss (R133) -/

/-- Misses, the outcome and the readings are no counted field (R122). -/
theorem Pump.settled_of_same {base x : Pump} (h : x.sameCounted base = true) :
    base.settled x = { x with edition := base.edition } := by
  simp only [Pump.settled, editionAfter, h, if_true]

theorem pumpMiss_kept {n : PumpId} (o : PumpOutcome) {s : State}
    (h : (s.pump n).online = false ∨ (s.pump n).misses < 2) :
    pumpMiss n o s = { s with
      pumps := s.pumps.put n { s.pump n with misses := min ((s.pump n).misses + 1) 3, lastOutcome := some o } } := by
  have hlost : ((s.pump n).online && decide (min ((s.pump n).misses + 1) Config.missLimit = Config.missLimit)) = false := by
    rcases h with h | h
    · rw [h]; rfl
    · rw [Bool.and_eq_false_iff, decide_eq_false_iff_not]
      exact .inr (by show min _ 3 ≠ 3; omega)
  unfold pumpMiss
  simp only [hlost, Bool.not_false, Bool.and_true]
  rw [if_neg Bool.false_ne_true, putPump, Pump.settled_of_same (by simp [Pump.sameCounted])]
  rfl

/-- The third miss of an ONLINE pump: it is OFFLINE, and PUMP_OFFLINE is raised. -/
def pumpLost (n : PumpId) (o : PumpOutcome) (s : State) : State :=
  raise .pumpOffline { pump := some n } { s with
    pumps := s.pumps.put n
      { s.pump n with misses := 3, lastOutcome := some o, online := false, edition := (s.pump n).edition + 1 } }

theorem pumpMiss_lost {n : PumpId} (o : PumpOutcome) {s : State} (hon : (s.pump n).online = true)
    (hm : 2 ≤ (s.pump n).misses) :
    pumpMiss n o s = (s.pump n).sale.elim (pumpLost n o s) fun x => endSale s n x .pumpLost (pumpLost n o s) := by
  have hmin : min ((s.pump n).misses + 1) Config.missLimit = 3 := by show min _ 3 = 3; omega
  have hpump : (s.pump n).settled { s.pump n with misses := 3, lastOutcome := some o, online := false }
      = { s.pump n with misses := 3, lastOutcome := some o, online := false, edition := (s.pump n).edition + 1 } :=
    Pump.settled_of_not_same (by simp [Pump.sameCounted, hon])
  unfold pumpMiss
  dsimp only
  rw [hmin, hon, if_pos (by rfl), putPump, show (true && !(true && decide (3 = Config.missLimit))) = false from rfl, hpump]
  cases (s.pump n).sale <;> rfl

/-! ### A valid reply (R134 to R137) -/

theorem bytesToNat_pair_lt (a b : Byte) : bytesToNat [a, b] < 65536 := by
  have ha := a.isLt
  have hb := b.isLt
  simp only [bytesToNat, List.foldl]
  omega

/-- A reply holds the sale where it says so under its number (R134). -/
theorem holdsSale_iff (x : Sale) (flags a b : Byte) (volume : Nat) :
    holdsSale x (readingOf flags (bytesToNat [a, b]) volume) = true
      ↔ flags.toNat.testBit 7 = true ∧ bytesToNat [a, b] = x.number.toNat := by
  have hnumber : BitVec.ofNat 16 (bytesToNat [a, b]) = x.number ↔ bytesToNat [a, b] = x.number.toNat := by
    rw [← BitVec.toNat_inj, BitVec.toNat_ofNat, Nat.mod_eq_of_lt (bytesToNat_pair_lt a b)]
  rw [holdsSale, decide_eq_true_iff]
  unfold readingOf bitOf
  cases flags.toNat.testBit 7
  · simp
  · simp [hnumber]

section
variable {n : PumpId} {r : PumpReading} {s : State}

/-- The edition of pump `n` when a reply makes it `q`: it advances where a counted field differs (R122). -/
def answeredEdition (n : PumpId) (q : Pump) (s : State) : Edition :=
  editionAfter (s.pump n).edition (({ q with online := true } : Pump).sameCounted (s.pump n))

theorem answeredEdition_same :
    answeredEdition n (s.pump n) s = if (s.pump n).online then (s.pump n).edition else (s.pump n).edition + 1 := by
  cases h : (s.pump n).online <;> simp [answeredEdition, Pump.sameCounted, editionAfter, h]

theorem answeredEdition_changed {q : Pump} (h : q.sale ≠ (s.pump n).sale) :
    answeredEdition n q s = (s.pump n).edition + 1 := by
  simp [answeredEdition, Pump.sameCounted, editionAfter, h]

theorem putPump_answered (q : Pump) :
    putPump (pollClosed s) n { q with readings := some r, misses := 0, online := true, lastOutcome := some .valid } (pollClosed s)
      = pumpAnswered n q r (answeredEdition n q s) s := rfl

theorem pumpAnswer_unsold (h : (s.pump n).sale = none) :
    pumpAnswer n r (pollClosed s)
      = pumpAnswered n (s.pump n) r (if (s.pump n).online then (s.pump n).edition else (s.pump n).edition + 1) s := by
  rw [← answeredEdition_same, ← putPump_answered]
  unfold pumpAnswer
  dsimp only
  split
  · rfl
  · next x hx => exact absurd (hx.symm.trans h) (Option.some_ne_none x)

/-- The pump with what a reply makes of its open sale. -/
def Progress.onPump (g : Progress) (now : Stamp) (p : Pump) : Pump :=
  { p with sale := some g.sale, timer := timerAfter now p.timer g }

/-- The sale stays open as the reply leaves it. -/
theorem pumpAnswer_open {x : Sale} (hx : (s.pump n).sale = some x) (h : (progress s.clock x r).ends = none) :
    pumpAnswer n r (pollClosed s) = pumpAnswered n ((progress s.clock x r).onPump s.clock (s.pump n)) r
      (answeredEdition n ((progress s.clock x r).onPump s.clock (s.pump n)) s) s := by
  rw [← putPump_answered]
  unfold pumpAnswer
  dsimp only
  rw [show ((pollClosed s).pump n).sale = some x from hx]
  dsimp only
  rw [show (progress (pollClosed s).clock x r).ends = none from h]
  rfl

/-- A changed sale is a counted change of the pump. -/
theorem pumpAnswer_moved {x : Sale} (hx : (s.pump n).sale = some x) (h : (progress s.clock x r).ends = none)
    (hne : (progress s.clock x r).sale ≠ x) :
    pumpAnswer n r (pollClosed s)
      = pumpAnswered n ((progress s.clock x r).onPump s.clock (s.pump n)) r ((s.pump n).edition + 1) s := by
  rw [pumpAnswer_open hx h, answeredEdition_changed]
  exact fun e => hne (Option.some.inj (e.trans hx))

theorem Progress.onPump_stalling (x : Sale) (now : Stamp) (p : Pump) (c : Prop) [Decidable c] :
    ({ sale := x, ends := none, stall := decide c } : Progress).onPump now p
      = { p with sale := some x, timer := if c then some (now.plus 300) else p.timer } := by
  by_cases h : c <;> simp [Progress.onPump, timerAfter, h, Config.stallSeconds]

theorem Pump.with_sale {p : Pump} {x : Sale} (h : p.sale = some x) : { p with sale := some x } = p := by rw [← h]

/-- A sale that the reply leaves as it was. -/
theorem pumpAnswer_kept {x : Sale} (hx : (s.pump n).sale = some x) (h : progress s.clock x r = .kept x) :
    pumpAnswer n r (pollClosed s)
      = pumpAnswered n (s.pump n) r (if (s.pump n).online then (s.pump n).edition else (s.pump n).edition + 1) s := by
  have hpump : (progress s.clock x r).onPump s.clock (s.pump n) = s.pump n := by rw [h]; exact Pump.with_sale hx
  rw [pumpAnswer_open hx (by rw [h]; rfl), hpump, answeredEdition_same]

/-- The sale ends as the reply leaves it. -/
theorem pumpAnswer_ended {x y : Sale} {why : SaleEnd} (hx : (s.pump n).sale = some x)
    (h : progress s.clock x r = .ending y why) :
    ∃ e, SaleEnded n y why (pumpAnswered n { s.pump n with sale := some y } r e s) (pumpAnswer n r (pollClosed s)) := by
  refine ⟨answeredEdition n { s.pump n with sale := some y } s, ?_⟩
  have hend := endSale_ended (pollClosed s) n y why
    (putPump (pollClosed s) n { ({ s.pump n with sale := some y } : Pump) with
      readings := some r, misses := 0, online := true, lastOutcome := some .valid } (pollClosed s))
  rw [putPump_answered] at hend
  unfold pumpAnswer
  dsimp only
  rw [show ((pollClosed s).pump n).sale = some x from hx]
  dsimp only
  rw [show progress (pollClosed s).clock x r = .ending y why from h]
  exact hend

end

/-! ### What a reply makes of a sale (R135 to R137) -/

/-- The sale at the lift of the nozzle, or at a first volume (R135). -/
def Sale.lifted (x : Sale) (now : Stamp) (volume : Nat) : Sale :=
  { x with state := .delivering, lift := some now, delivered := volume }

section
variable {now : Stamp} {x : Sale} {r : PumpReading}

theorem progress_authorised (hs : x.state = .authorised) :
    (holdsSale x r = false → progress now x r = .kept x)
    ∧ (holdsSale x r = true → r.fault = true → progress now x r = .ending { x with delivered := 0 } .pumpFault)
    ∧ (holdsSale x r = true → r.fault = false → r.nozzleUp = true →
        progress now x r = { sale := x.lifted now r.delivered, ends := none, stall := true })
    ∧ (holdsSale x r = true → r.fault = false → r.nozzleUp = false →
        (r.delivered = 0 → progress now x r = .kept x)
        ∧ (0 < r.delivered → progress now x r
            = .ending (x.lifted now r.delivered) (if x.limit ≤ r.delivered then .limitReached else .nozzleDown))) := by
  have hp : progress now x r = progressAuthorised now x r := by unfold progress; rw [hs]
  rw [hp]
  unfold progressAuthorised
  refine ⟨fun hh => by simp [hh], fun hh hf => by simp [hh, hf], fun hh hf hu => ?_, fun hh hf hu => ⟨fun hv => ?_, fun hv => ?_⟩⟩
  · simp [hh, hf, hu, Sale.lifted]
  · simp [hh, hf, hu, hv]
  · simp [hh, hf, hu, hv, Sale.lifted, nozzleDownReason]

theorem progress_delivering (hs : x.state = .delivering) (hstop : x.stop = none) :
    ((holdsSale x r = false ∨ r.fault = true ∨ r.delivered < x.delivered) → progress now x r = .ending x .pumpFault)
    ∧ (holdsSale x r = true → r.fault = false → x.delivered ≤ r.delivered →
        (r.nozzleUp = true → progress now x r
          = { sale := { x with delivered := r.delivered }, ends := none, stall := decide (x.delivered < r.delivered) })
        ∧ (r.nozzleUp = false → progress now x r
            = .ending { x with delivered := r.delivered } (if x.limit ≤ r.delivered then .limitReached else .nozzleDown))) := by
  have hp : progress now x r = progressDelivering x r := by unfold progress; rw [hs, hstop]
  rw [hp]
  unfold progressDelivering
  refine ⟨fun h => ?_, fun hh hf hv => ⟨fun hu => ?_, fun hu => ?_⟩⟩
  · rcases h with h | h | h <;> simp [h]
  · simp [hh, hf, hu, Nat.not_lt.2 hv]
  · simp [hh, hf, hu, Nat.not_lt.2 hv, nozzleDownReason]

theorem progress_stopping {stop : StopReason} (hs : x.state = .delivering) (hstop : x.stop = some stop) :
    (holdsSale x r = false → progress now x r = .ending x stop.saleEnd)
    ∧ (holdsSale x r = true → (r.fault = true ∨ r.delivered < x.delivered) → progress now x r = .ending x .pumpFault)
    ∧ (holdsSale x r = true → r.fault = false → x.delivered ≤ r.delivered →
        (r.running = false → progress now x r = .ending { x with delivered := r.delivered } stop.saleEnd)
        ∧ (r.running = true → x.stopMisses < 2 → progress now x r
            = .kept { x with delivered := r.delivered, stopMisses := x.stopMisses + 1 })
        ∧ (r.running = true → 2 ≤ x.stopMisses → progress now x r
            = .ending { x with delivered := r.delivered, stopMisses := 3 } .pumpFault)) := by
  have hp : progress now x r = progressStopping x stop r := by unfold progress; rw [hs, hstop]
  rw [hp]
  unfold progressStopping
  refine ⟨fun h => by simp [h], fun hh h => ?_, fun hh hf hv => ⟨fun hr => ?_, fun hr hm => ?_, fun hr hm => ?_⟩⟩
  · rcases h with h | h <;> simp [hh, h]
  · simp [hh, hf, hr, Nat.not_lt.2 hv]
  · have hmin : min (x.stopMisses + 1) Config.missLimit = x.stopMisses + 1 := by show min _ 3 = _; omega
    have hne : x.stopMisses + 1 ≠ Config.missLimit := by show _ ≠ 3; omega
    simp [hh, hf, hr, Nat.not_lt.2 hv, hmin, hne]
  · have hmin : min (x.stopMisses + 1) Config.missLimit = Config.missLimit := by show min _ 3 = 3; omega
    simp [hh, hf, hr, Nat.not_lt.2 hv, hmin]
    rfl

end

theorem exec_pumpPoll {s : State} (h : s.stopped = false) : exec .pumpPoll s = .next (pumpPoll s) :=
  congrArg _ (event_running h)

theorem exec_pumpReply {bytes : List Byte} {s : State} (h : s.stopped = false) :
    exec (.pumpReply bytes) s = .next (pumpReply bytes s) := congrArg _ (event_running h)

theorem exec_validReply {n : PumpId} {b0 b1 b2 b3 b4 b5 b6 b7 : Byte} {s : State} (hrun : s.stopped = false)
    (hout : s.pumpLine.outstanding = some n) (hsum : byteSum [b0, b1, b2, b3, b4, b5, b6, b7] = 0)
    (hpump : b0.toNat % 16 = n.val) :
    exec (.pumpReply [b0, b1, b2, b3, b4, b5, b6, b7]) s
      = .next (pumpAnswer n (readingOf b1 (bytesToNat [b2, b3]) (bytesToNat [b4, b5, b6])) (pollClosed s)) := by
  rw [exec_pumpReply hrun, pumpReply_good hout hsum hpump]

/-- Only in SETUP and OPEN are pumps polled (R131). -/
theorem DeviceState.polls_iff {d : DeviceState} : d.polls = true ↔ d = .setup ∨ d = .opened := by cases d <;> simp [DeviceState.polls]

/-- The poll sent carries the pump's order (R132). -/
theorem pumpFrame_order (n : PumpId) (order : Order) : ∃ b0 b1 b2 b3 b4 b5 b6,
    pumpFrame n order = [b0, b1, b2, b3, b4, b5, b6] ∧ b0 + b1 + b2 + b3 + b4 + b5 + b6 = 0
    ∧ match order with
      | .cancel => b0.toNat = n.val ∧ bytesToNat [b1, b2] = 0 ∧ bytesToNat [b3, b4, b5] = 0
      | .authorise number limit =>
        b0.toNat = 16 + n.val ∧ bytesToNat [b1, b2] = number.toNat ∧ bytesToNat [b3, b4, b5] = limit % 16777216
      | .stop number => b0.toNat = 32 + n.val ∧ bytesToNat [b1, b2] = number.toNat ∧ bytesToNat [b3, b4, b5] = 0 := by
  obtain ⟨b0, b1, b2, b3, b4, b5, b6, hframe, hsum, h0, hnumber, hlimit⟩ := pumpFrame_bytes n order
  refine ⟨b0, b1, b2, b3, b4, b5, b6, hframe, hsum, ?_⟩
  have hn := n.isLt
  cases order with
  | cancel =>
    simp only [Order.code] at h0
    exact ⟨by omega, hnumber, hlimit⟩
  | authorise number limit =>
    simp only [Order.code] at h0
    exact ⟨by omega, hnumber.trans (Nat.mod_eq_of_lt number.isLt), hlimit⟩
  | stop number =>
    simp only [Order.code] at h0
    exact ⟨by omega, hnumber.trans (Nat.mod_eq_of_lt number.isLt), hlimit⟩

/-- Settles O48: the round by `nextPump_follows`, a miss by `pumpMiss_kept` and `pumpMiss_lost`, and a valid reply by what `progress` makes of the sale. -/
theorem pumpRepliesMoveTheSaleOn : Obligations.PumpRepliesMoveTheSaleOn := by
  intro s hrun polls after closed
  refine ⟨fun h => ?_, fun n hpolls hout hnext => ?_, fun bytes hout => ?_, fun n bytes hout hbad => ?_,
    fun n b0 b1 b2 b3 b4 b5 b6 b7 hout => ?_⟩
  · rw [exec_pumpPoll hrun, pumpPoll_idle (h.imp_left fun hp => Bool.eq_false_iff.2 (mt DeviceState.polls_iff.1 hp))]
  · obtain ⟨b0, b1, b2, b3, b4, b5, b6, hframe, hbytes⟩ := pumpFrame_order n (s.pump n).order
    refine ⟨b0, b1, b2, b3, b4, b5, b6, ?_, hbytes⟩
    rw [exec_pumpPoll hrun, pumpPoll_sent (DeviceState.polls_iff.2 hpolls) hout (nextPump_follows hnext), hframe]
  · rw [exec_pumpReply hrun, pumpReply_unasked hout]
  · intro p outcome
    have hmiss : exec (.pumpReply bytes) s = .next (pumpMiss n outcome (pollClosed s)) := by
      rw [exec_pumpReply hrun, pumpReply_bad hout hbad]
    refine ⟨fun h => hmiss.trans ?_, fun hon hm => ?_⟩
    · rw [pumpMiss_kept (s := pollClosed s) outcome h]; rfl
    · rw [pumpMiss_lost outcome (s := pollClosed s) hon hm] at hmiss
      refine ⟨fun h => hmiss.trans ?_, fun x hx => ⟨_, hmiss.trans ?_, endSale_ended (pollClosed s) n x .pumpLost _⟩⟩
      · rw [show ((pollClosed s).pump n).sale = none from h]; rfl
      · rw [show ((pollClosed s).pump n).sale = some x from hx]; rfl
  · intro bytes hsum hpump p held up fault number volume reading writes
    have hanswer : exec (.pumpReply bytes) s = .next (pumpAnswer n reading (pollClosed s)) :=
      exec_validReply hrun hout hsum hpump
    have hholds : ∀ x, holdsSale x reading = true ↔ held = true ∧ number = x.number.toNat :=
      fun x => holdsSale_iff x b1 b2 b3 volume
    have hlost : ∀ x, (held = false ∨ number ≠ x.number.toNat) → holdsSale x reading = false := fun x h =>
      Bool.eq_false_iff.2 fun e => h.elim (by simp [((hholds x).1 e).1]) fun h => h ((hholds x).1 e).2
    have hkept : ∀ {x}, p.sale = some x → progress s.clock x reading = .kept x →
        exec (.pumpReply bytes) s = .next (writes p (if p.online then p.edition else p.edition + 1)) := fun hx h => by
      rw [hanswer, pumpAnswer_kept hx h]; rfl
    have hends : ∀ {x y why}, p.sale = some x → progress s.clock x reading = .ending y why →
        ∃ t e, exec (.pumpReply bytes) s = .next t ∧ SaleEnded n y why (writes { p with sale := some y } e) t :=
      fun hx h => have ⟨e, w⟩ := pumpAnswer_ended (n := n) hx h
        ⟨_, e, hanswer, w⟩
    refine ⟨fun h => ?_, fun x hx hs hheld hnumber hfault hup => ?_, fun x hx hs hstop hheld hnumber hfault hvolume => ?_,
      fun x hx hs hstop h => ?_, fun x hx hs => ?_⟩
    · rw [hanswer, pumpAnswer_unsold h]; rfl
    · obtain ⟨-, -, hlift, -⟩ := progress_authorised (now := s.clock) (r := reading) hs
      have hg := hlift ((hholds x).2 ⟨hheld, hnumber⟩) hfault hup
      have hne : x.lifted s.clock volume ≠ x := fun e => by
        have hstate : SaleState.delivering = x.state := congrArg Sale.state e
        rw [hs] at hstate
        cases hstate
      rw [hanswer, pumpAnswer_moved hx (by rw [hg]) (by rw [hg]; exact hne), hg]
      rfl
    · obtain ⟨-, hdelivers⟩ := progress_delivering (now := s.clock) (r := reading) hs hstop
      obtain ⟨hrises, hfalls⟩ := hdelivers ((hholds x).2 ⟨hheld, hnumber⟩) hfault hvolume
      refine ⟨fun hup => ?_, fun hup => hends hx (hfalls hup)⟩
      have hg := hrises hup
      have hopen := pumpAnswer_open (n := n) hx (by rw [hg])
      rw [hg, Progress.onPump_stalling] at hopen
      exact ⟨_, hanswer.trans (congrArg _ hopen)⟩
    · obtain ⟨hfaults, -⟩ := progress_delivering (now := s.clock) (r := reading) hs hstop
      have hbad : holdsSale x reading = false ∨ reading.fault = true ∨ reading.delivered < x.delivered := by
        rcases h with h | h | h
        · exact .inl (hlost x (.inl h))
        · exact .inl (hlost x (.inr h))
        · exact .inr h
      have hend := hends hx (hfaults hbad)
      rwa [Pump.with_sale hx] at hend
    · obtain ⟨hother, hfaults, -, hdown⟩ := progress_authorised (now := s.clock) (r := reading) hs
      refine ⟨fun h => hkept hx (hother (hlost x h)), fun hheld hnumber hfault =>
        hends hx (hfaults ((hholds x).2 ⟨hheld, hnumber⟩) hfault), fun hheld hnumber hfault hup => ?_⟩
      obtain ⟨hzero, hpositive⟩ := hdown ((hholds x).2 ⟨hheld, hnumber⟩) hfault hup
      exact ⟨fun hv => hkept hx (hzero hv), fun hv => hends hx (hpositive hv)⟩

end Sys2Proof.Machine

/-! ## The stops and ends of a sale (O49) -/

namespace Sys2Proof.Machine

/-! ### A stop requested (R138, R139) -/

section
variable {n : PumpId} {x : Sale} {s : State}

/-- A stop is a counted change of the pump: its sale and its order (R122). -/
theorem requestStop_eq (why : StopReason) (hx : (s.pump n).sale = some x) (hstop : x.stop = none) :
    requestStop s n x why s = { s with
      pumps := s.pumps.put n
        { s.pump n with
          sale := some { x with stop := some why, stopMisses := 0 }, order := .stop x.number, timer := none
          edition := (s.pump n).edition + 1 } } := by
  have hne : some { x with stop := some why, stopMisses := 0 } ≠ (s.pump n).sale := fun e => by
    have hwhy : some why = x.stop := congrArg Sale.stop (Option.some.inj (e.trans hx))
    rw [hstop] at hwhy
    cases hwhy
  rw [requestStop, putPump, Pump.settled_of_sale hne]

/-! ### The timers (R138) -/

theorem exec_noLift (h : s.stopped = false) : exec (.noLiftTimerExpiry n) s = .next (noLiftExpiry n s) :=
  congrArg _ (event_running h)

theorem exec_stall (h : s.stopped = false) : exec (.stallTimerExpiry n) s = .next (stallExpiry n s) :=
  congrArg _ (event_running h)

theorem expiries_unsold (h : (s.pump n).sale = none) : noLiftExpiry n s = s ∧ stallExpiry n s = s := by
  unfold noLiftExpiry stallExpiry
  rw [h]
  exact ⟨rfl, rfl⟩

theorem noLiftExpiry_eq (hx : (s.pump n).sale = some x) (hd : s.device ≠ .loading) :
    noLiftExpiry n s = if x.state = .authorised then endSale s n { x with delivered := 0 } .noLift s else s := by
  unfold noLiftExpiry
  rw [hx]
  simp only [hd, ne_eq, not_false_eq_true, true_and]

theorem stallExpiry_eq (hx : (s.pump n).sale = some x) (hd : s.device ≠ .loading) :
    stallExpiry n s = if x.state = .delivering ∧ x.stop = none then requestStop s n x .stalled s else s := by
  unfold stallExpiry
  rw [hx]
  simp only [hd, ne_eq, not_false_eq_true, true_and]

/-- The timer that runs is the one of the sale's state. -/
theorem timers_end (hrun : s.stopped = false) (hx : (s.pump n).sale = some x) (hd : s.device ≠ .loading) :
    (x.state = .authorised →
      (∃ t, exec (.noLiftTimerExpiry n) s = .next t ∧ SaleEnded n { x with delivered := 0 } .noLift s t)
      ∧ exec (.stallTimerExpiry n) s = .next s)
    ∧ (x.state = .delivering → exec (.noLiftTimerExpiry n) s = .next s
        ∧ (x.stop ≠ none → exec (.stallTimerExpiry n) s = .next s)
        ∧ (x.stop = none → exec (.stallTimerExpiry n) s = .next (requestStop s n x .stalled s))) := by
  rw [exec_noLift hrun, exec_stall hrun, noLiftExpiry_eq hx hd, stallExpiry_eq hx hd]
  refine ⟨fun hs => ?_, fun hs => ?_⟩
  · rw [if_pos hs, if_neg (by rw [hs]; exact fun h => nomatch h.1)]
    exact ⟨⟨_, rfl, endSale_ended ..⟩, rfl⟩
  · rw [if_neg (by rw [hs]; exact nofun)]
    exact ⟨rfl, fun h => by rw [if_neg fun e => h e.2], fun h => by rw [if_pos ⟨hs, h⟩]⟩

/-! ### STOP_SALE (R139) -/

theorem stopSaleOwner_eq : stopSaleOwner n.val s = stopSaleThis n s := by
  unfold stopSaleOwner
  rw [ident_val]

theorem stopSaleThis_unsold (h : (s.pump n).sale = none) : stopSaleThis n s = .error .state := by
  unfold stopSaleThis; rw [h]

theorem stopSaleThis_sold (hx : (s.pump n).sale = some x) :
    (x.state = .authorised →
      stopSaleThis n s = .ok (endSale s n { x with delivered := 0 } .cancelled s, [.done [.val (.word "ENDED")]]))
    ∧ (x.state = .delivering → x.stop ≠ none → stopSaleThis n s = .ok (s, [.done [.val (.word "STOPPING")]]))
    ∧ (x.state = .delivering → x.stop = none →
        stopSaleThis n s = .ok (requestStop s n x .stopped s, [.done [.val (.word "STOPPING")]])) := by
  unfold stopSaleThis
  rw [hx]
  dsimp only
  refine ⟨fun hs => ?_, fun hs hstop => ?_, fun hs hstop => ?_⟩
  · rw [hs]; rfl
  · obtain ⟨w, hw⟩ := Option.ne_none_iff_exists'.1 hstop
    rw [hs, hw]; rfl
  · rw [hs, hstop]; rfl

end

/-- Settles O49: the timers and STOP_SALE by the state of the sale, a reply under a stop by what `progress` makes of the sale. -/
theorem salesAreStoppedAndEnded : Obligations.SalesAreStoppedAndEnded := by
  refine ⟨fun n s hrun => ⟨fun h => ?_, fun x hx hd => ?_⟩, fun o n s hcommand => ⟨fun h => ?_, fun x hx => ?_⟩,
    fun n b0 b1 b2 b3 b4 b5 b6 b7 x stop s hrun hout => ?_⟩
  · obtain ⟨hlift, hstall⟩ := expiries_unsold h
    rw [exec_noLift hrun, exec_stall hrun, hlift, hstall]
    exact ⟨rfl, rfl⟩
  · obtain ⟨hauthorised, hdelivering⟩ := timers_end hrun hx hd
    refine ⟨hauthorised, fun hs => ?_⟩
    obtain ⟨hlift, hkept, hstops⟩ := hdelivering hs
    exact ⟨hlift, hkept, fun hstop => by rw [hstops hstop, requestStop_eq _ hx hstop]⟩
  · exact (stopSale_form ..).refused hcommand (stopSaleOwner_eq.trans (stopSaleThis_unsold h))
  · obtain ⟨hcancels, hstopping, hstops⟩ := stopSaleThis_sold hx
    refine ⟨fun hs => ⟨_, (stopSale_form ..).taken hcommand (stopSaleOwner_eq.trans (hcancels hs)), endSale_ended ..⟩,
      fun hs hstop => (stopSale_form ..).taken hcommand (stopSaleOwner_eq.trans (hstopping hs hstop)), fun hs hstop => ?_⟩
    have hstopped := (stopSale_form ..).taken hcommand (stopSaleOwner_eq.trans (hstops hs hstop))
    rwa [requestStop_eq _ hx hstop] at hstopped
  · intro p bytes holds fault running volume reading reason ends hsum hpump hx hs hstop taken
    have hanswer : exec (.pumpReply bytes) s = .next (pumpAnswer n reading (pollClosed s)) :=
      exec_validReply hrun hout hsum hpump
    have hholds : holdsSale x reading = true ↔ holds := holdsSale_iff x b1 b2 b3 volume
    have hends : ∀ {y why}, progress s.clock x reading = .ending y why → ends y why := fun h =>
      have ⟨e, w⟩ := pumpAnswer_ended (n := n) hx h
      ⟨_, e, hanswer, w⟩
    have hreason : stop.saleEnd = reason := by cases stop <;> rfl
    obtain ⟨hother, hbad, hrest⟩ := progress_stopping (now := s.clock) (r := reading) hs hstop
    rw [hreason] at hother hrest
    refine ⟨fun h => hends (hother (Bool.eq_false_iff.2 (mt hholds.1 h))), fun h w => hends (hbad (hholds.2 h) w),
      fun h hfault hvolume => ?_⟩
    obtain ⟨hidle, hcounts, hthird⟩ := hrest (hholds.2 h) hfault hvolume
    refine ⟨fun hr => hends (hidle hr), fun hr hm => ?_, fun hr hm => hends (hthird hr hm)⟩
    have hg := hcounts hr hm
    have hne : ({ taken with stopMisses := x.stopMisses + 1 } : Sale) ≠ x := fun e =>
      Nat.succ_ne_self x.stopMisses (congrArg Sale.stopMisses e)
    rw [hanswer, pumpAnswer_moved hx (by rw [hg]; rfl) (by rw [hg]; exact hne), hg]
    rfl

end Sys2Proof.Machine
